-- ==== Sys2Proof/Word.lean ====
section
/-! DEFINITION. The word types of the model: registers and descriptor words are 64 bits, memory is bytes. -/

namespace Sys2Proof

/-- A register or descriptor word (spec/00_scope.md: all registers are 64 bits wide). -/
abbrev U64 := BitVec 64

/-- A byte of memory. -/
abbrev Byte := BitVec 8

/-- A device physical or job virtual address; both are 48 bits wide (R32, R35). -/
abbrev Addr := Nat

end Sys2Proof
end

