-- ==== Sys2Proof/Syntax.lean ====
section
/-! DEFINITION. The commands of the block: one constructor of `Instr` per row of spec/opcode_table.json, and the
data their operands carry (descriptors, packets, measured conditions). -/

namespace Sys2Proof

/-- A command ring: register page and ring number on it (R125). -/
structure RingId where
  page : Nat
  n : Nat
  deriving DecidableEq, Repr, Inhabited

/-- A 64-byte command descriptor as its eight little-endian words (R130). -/
structure Desc where
  w0 : U64
  w1 : U64
  w2 : U64
  w3 : U64
  w4 : U64
  w5 : U64
  w6 : U64
  w7 : U64
  deriving DecidableEq, Repr, Inhabited

/-- An engine command: the ring it is in and its descriptor. -/
structure Cmd where
  ring : RingId
  desc : Desc
  deriving DecidableEq, Repr, Inhabited

/-- A network packet: the 32-byte header of R405 and its payload. -/
structure NetPkt where
  dst : Nat
  src : Nat
  vc : Nat
  typ : Nat
  job : Nat
  poison : Bool
  rmt : Bool
  rdev : Nat
  a1 : U64
  status : Nat
  tag : Nat
  a2 : Nat
  a3 : U64
  payload : List Byte
  deriving DecidableEq, Repr, Inhabited

/-- A Urrek packet after its OP: port, header fields of R352, byte mask of a WR_UC and data. -/
structure UrkPkt where
  port : Nat
  srcid : Nat
  tag : Nat
  poison : Bool
  nc : Bool
  len : Nat
  addr : Nat
  mask : Nat
  data : List Byte
  deriving DecidableEq, Repr, Inhabited

/-- Codewords of a link frame that the FEC corrected, and that it could not correct (R277). -/
structure Fec where
  corrected : Nat
  uncorrectable : Nat
  deriving DecidableEq, Repr, Inhabited

/-- A reduction contribution packet (R260); `elems` are 256 element codes, none when `empty`. -/
structure Contrib where
  job : Nat
  tag : Nat
  step : Nat
  cix : Nat
  chunk : Nat
  nch : Nat
  cfmt : Nat
  empty : Bool
  permb : Bool
  mbid : Nat
  poison : Bool
  elems : List Nat
  deriving DecidableEq, Repr, Inhabited

/-- A chunk partial of an ARRIVAL bucket: 256 binary32 codes, roster and n, whether a contribution with elements entered it,
and its poison (R269, R264, R457). -/
structure PartialMsg where
  tag : Nat
  step : Nat
  chunk : Nat
  vals : List Nat
  roster : List Nat
  n : Nat
  data : Bool
  poison : Bool
  deriving DecidableEq, Repr, Inhabited

/-- A result chunk on the wire (R266). -/
structure ResultMsg where
  tag : Nat
  step : Nat
  chunk : Nat
  rfmt : Nat
  n : Nat
  full : Bool
  notok : Bool
  poison : Bool
  roster : List Nat
  codes : List Nat
  deriving DecidableEq, Repr, Inhabited

/-- A close summary (R267); `miss` lists the contributor indices whose MISS bit is set. -/
structure SummaryMsg where
  tag : Nat
  step : Nat
  home : Nat
  miss : List Nat
  notFull : Nat
  deriving DecidableEq, Repr, Inhabited

/-- One packet of a CHM_MCAST (R270). -/
structure McastMsg where
  job : Nat
  dst : Nat
  nline : Nat
  poison : Bool
  data : List Byte
  deriving DecidableEq, Repr, Inhabited

/-- A gathered slice: both order slices of one slice of a region (R271), as element codes and scale codes. -/
structure GatherMsg where
  gtag : Nat
  step : Nat
  slice : Nat
  codesA : List Nat
  scalesA : List Nat
  codesB : List Nat
  scalesB : List Nat
  poison : Bool
  deriving DecidableEq, Repr, Inhabited

/-- A remote read request (R272). -/
structure RReadMsg where
  job : Nat
  dev : Nat
  srcDev : Nat
  tag : Nat
  addr : Nat
  len : Nat
  vchk : Bool
  wreg : Nat
  expver : Nat
  deriving DecidableEq, Repr, Inhabited

/-- The answer to a remote read (R272). -/
structure RReadRsp where
  tag : Nat
  status : Nat
  poison : Bool
  data : List Byte
  deriving DecidableEq, Repr, Inhabited

/-- One piece of a PERMUTE round (R273). -/
structure PieceMsg where
  round : Nat
  dst : Nat
  poison : Bool
  data : List Byte
  deriving DecidableEq, Repr, Inhabited

/-- OPEN of a message channel (R227). -/
structure OpenMsg where
  job : Nat
  srcDev : Nat
  srcNode : Nat
  srcCtx : Nat
  target : Nat
  role : Nat
  epoch : Nat
  reqmsg : Nat
  reqbulk : Nat
  deriving DecidableEq, Repr, Inhabited

/-- Accept of an OPEN, with words 0, 4 and 5 of the ring's descriptor (R227, R405). -/
structure AcceptMsg where
  ctx : Nat
  peerDev : Nat
  peerNode : Nat
  peerCtx : Nat
  maxmsg : Nat
  maxbulk : Nat
  log2sz : Nat
  mbq : Bool
  ash : Nat
  nb : Nat
  ring : List U64
  deriving DecidableEq, Repr, Inhabited

/-- One record of a flow at the receiving side: bytes placed before it, the two header words, inline payload and bulk part;
`toAsh` when it goes to the ash pit; `brel` when the receiving side rebases the descriptor; the 32-byte units of payload and
bulk part that are poisoned (R229, R232, R238). -/
structure DataMsg where
  ctx : Nat
  off : Nat
  h0 : U64
  h1 : U64
  payload : List Byte
  bulk : List Byte
  toAsh : Bool
  wrap : Bool
  brel : Bool
  ppois : List Nat
  bpois : List Nat
  deriving DecidableEq, Repr, Inhabited

/-- DONE of an ember copy (R384). -/
structure EmberMsg where
  step : Nat
  dev : Nat
  result : Nat
  deriving DecidableEq, Repr, Inhabited

/-- What a fabric packet carries after its fabric header. -/
inductive FabMsg where
  | contrib (m : Contrib)
  | part (m : PartialMsg)
  | result (m : ResultMsg)
  | summary (m : SummaryMsg)
  | mcast (m : McastMsg)
  | gather (m : GatherMsg)
  | rreadReq (m : RReadMsg)
  | rreadRsp (m : RReadRsp)
  | piece (m : PieceMsg)
  | permDone (round : Nat) (dev : Nat)
  | chnOpen (m : OpenMsg)
  | chnAccept (m : AcceptMsg)
  | chnRefuse (ctx reason : Nat)
  | chnData (m : DataMsg)
  /-- The receiving side's report (R232): sending context, messages placed, spilled or refused since OPEN. -/
  | chnReport (ctx : Nat) (count : Nat)
  | chnCredit (ctx : Nat) (head : Nat)
  | chnClose (ctx : Nat) (reason : Nat)
  /-- The ash pit's drain credit (R238, R239): sending context, bytes drained, the ring's TAIL, whether a bulk part was placed. -/
  | chnDrain (ctx : Nat) (aHead : Nat) (tail : Nat) (bulk : Bool)
  | emberDone (m : EmberMsg)
  | halt (tick : Nat) (dev : Nat)
  | emberData (slot : Nat) (offset : Nat) (poison : List Nat) (data : List Byte)
  | shipHdr (step : Nat) (dev : Nat) (granules : Nat)
  | shipData (index : Nat) (poison : List Nat) (data : List Byte)
  | net (p : NetPkt)
  deriving DecidableEq, Repr, Inhabited

/-- The fabric header of R249. -/
structure FabHdr where
  dst : Nat
  mc : Bool
  src : Nat
  ttl : Nat
  vc : Nat
  deriving DecidableEq, Repr, Inhabited

/-- A result slice handed to a Bellows: 64 chunks of 256 codes and their NOTOK marks (R182, R183). -/
structure SliceMsg where
  tag : Nat
  step : Nat
  slice : Nat
  fmt : Nat
  codes : List Nat
  notok : List Bool
  poison : Bool
  deriving DecidableEq, Repr, Inhabited

/-- Who waits for a version-gated read (R188, R190): a ring command, or a remote read to be answered. -/
inductive GateReq where
  | ring (c : Cmd)
  | remote (m : RReadMsg)
  deriving DecidableEq, Repr, Inhabited

/-- A version-gated read at the gate: job, region, expected version and requester. -/
structure GateRead where
  job : Nat
  wreg : Nat
  exp : Nat
  req : GateReq
  deriving DecidableEq, Repr, Inhabited

/-- An event packet (R369, R405 TYPE 0x40): page, code and QUAL, detail words; `ring` when a ring raised it. -/
structure EventPkt where
  page : Nat
  code : Nat
  qual : Nat
  d0 : U64
  d1 : U64
  deriving DecidableEq, Repr, Inhabited

/-- What a scrub read finds in one burst (R336, R338). -/
inductive ScrubFind where
  | clean
  | corrected (sym : Nat)
  | uncorrectable
  deriving DecidableEq, Repr, Inhabited

/-- What self-calibration finds at a guest site (R403). -/
structure GuestFound where
  present : Bool
  status : Nat
  strap : Nat
  ident : List Byte
  mainOk : Bool
  deriving DecidableEq, Repr, Inhabited

/-- The outcomes that a bring-up depends on (R422, R423): straps and silicon classes per site, training and
self-test results, attached adapters, and the time taken in milliseconds. Of HBM training (R334): failing data lanes by stack and
pseudo-channel, failing command and address lanes by stack and channel of two pseudo-channels, and stacks that do not train. -/
structure BringUp where
  straps : List Nat
  silicon : List Nat
  linkFail : List (Nat × Nat)
  dataLanes : List (Nat × Nat × Nat)
  caLanes : List (Nat × Nat × Nat)
  stackFail : List Nat
  adapters : List (Nat × Nat)
  guests : List GuestFound
  bootRom : List Byte
  selfTestFail : Bool
  blwFail : List Nat
  ms : Nat
  deriving DecidableEq, Repr, Inhabited

/-- One millisecond's sensor readings (R424, R435). -/
structure PowerSample where
  hot : Nat
  hotSite : Nat
  hbmHot : Nat
  hbmStack : Nat
  avg100 : Nat
  avg1 : Nat
  vin : Nat
  iin : Nat
  deriving DecidableEq, Repr, Inhabited

/-- A temperature sensor reading (R436). -/
inductive TempReading where
  | dies (hottest : Nat)
  | hbm (stack : Nat) (temp : Nat)
  deriving DecidableEq, Repr, Inhabited

/-- A firmware or configuration bundle as the flash holds it (R397); `readErr` when a flash read meets an error. -/
structure Bundle where
  header : List Byte
  body : List Byte
  readErr : Bool
  deriving DecidableEq, Repr, Inhabited

/-- The commands of the block, one constructor per row of spec/opcode_table.json. In register commands `port` is
the writing Urrek port. -/
inductive Instr where
  -- engine queue commands (R131, R133)
  | nop (c : Cmd)
  | writeLine (c : Cmd)
  | waitLine (c : Cmd)
  | waitLineMet (r : RingId)
  | waitLineTimeout (r : RingId)
  -- stove: tiles and the fireguard
  | tileWs (c : Cmd)
  | tileOs (c : Cmd)
  | tileAdapt (c : Cmd)
  | fireguardReplay (r : RingId)
  | fgOver (r : RingId)
  -- stove: the Hob (R111)
  | vecCopy (c : Cmd)
  | add (c : Cmd)
  | sub (c : Cmd)
  | mul (c : Cmd)
  | fma (c : Cmd)
  | max (c : Cmd)
  | min (c : Cmd)
  | abs (c : Cmd)
  | neg (c : Cmd)
  | scale (c : Cmd)
  | div (c : Cmd)
  | sqrt (c : Cmd)
  | rsqrt (c : Cmd)
  | recip (c : Cmd)
  | exp2 (c : Cmd)
  | log2 (c : Cmd)
  | fn (c : Cmd)
  | fnDeriv (c : Cmd)
  | rowSum (c : Cmd)
  | rowMax (c : Cmd)
  | rowSumSq (c : Cmd)
  | softmax (c : Cmd)
  | rmsNorm (c : Cmd)
  | layerNorm (c : Cmd)
  | topK (c : Cmd)
  | optSlice (c : Cmd)
  | optCommit (c : Cmd)
  | optOpen (c : Cmd)
  | move (c : Cmd)
  | fslot (c : Cmd)
  -- channel and attention commands
  | chnPost (c : Cmd)
  | chnOpen (c : Cmd)
  | chnSend (c : Cmd)
  | chnClose (c : Cmd)
  | chnWithdraw (c : Cmd)
  | attnFwd (c : Cmd)
  | attnBwd (c : Cmd)
  | attnFin (c : Cmd)
  | attnDelta (c : Cmd)
  | attnAppend (c : Cmd)
  | attnSeal (c : Cmd)
  -- Bellows, copy engines, Chimney
  | updArm (c : Cmd)
  | regen (c : Cmd)
  | copy (c : Cmd)
  | fill (c : Cmd)
  | copy2d (c : Cmd)
  | chmBucket (c : Cmd)
  | chmContrib (c : Cmd)
  | chmEmpty (c : Cmd)
  | chmMcast (c : Cmd)
  | chmRread (c : Cmd)
  | chmPermute (c : Cmd)
  -- stoker control tasks and passes
  | rtArm (c : Cmd)
  | rtDisarm (c : Cmd)
  | kvArm (c : Cmd)
  | kvDisarm (c : Cmd)
  | routingPass (arm : Nat)
  | expertFetchDone (arm expert : Nat)
  | cacheRelease (arm entry : Nat)
  | countBankSend (arm step : Nat)
  | walkPass (arm : Nat)
  -- queues
  | commandFetch (r : RingId)
  | watchedLineWake (r : RingId)
  | completionRecord (r : RingId)
  | ringBase (port : Nat) (r : RingId) (v : U64)
  | ringCtl (port : Nat) (r : RingId) (v : U64)
  | heldWriteRelease (key : Nat)
  | preempt (stove : Nat)
  | preemptSave (stove : Nat)
  | preemptDeadline (stove : Nat)
  | preemptRestore (stove : Nat)
  | arbWatchdog (page inst requester : Nat) (ring : Option RingId)
  | arbStarve (page inst requester : Nat)
  | fslotClr (port stove : Nat) (v : U64)
  | healthEval (job step : Nat)
  | healthBankZero (job step : Nat)
  | create (port job : Nat)
  | destroy (port job : Nat)
  | wbxXltInv (port : Nat) (v : U64)
  -- tick
  | draughtSync (t : Nat)
  | run (port : Nat) (on : Bool)
  | syncEn (port : Nat) (on : Bool)
  | relock (port : Nat)
  | tikPeriod (port : Nat) (v : U64)
  | tikSlew (port : Nat) (v : U64)
  | bind (port group : Nat)
  | unbind (port group : Nat)
  | start (port job tick : Nat)
  | stop (port job step : Nat)
  | stopComplete (job : Nat)
  | slotStart (group stove : Nat)
  | mbqEntryRetire (group : Nat)
  | slipLimitFault (group : Nat)
  -- message channels
  | chnEp (port die e : Nat) (v : U64)
  | chnFabort (port ctx : Nat)
  | chnOpenPkt (m : OpenMsg)
  | chnAccept (m : AcceptMsg)
  | chnRefuse (ctx reason : Nat)
  | openTimeout (ctx : Nat)
  | chnData (m : DataMsg)
  | chnTail (ctx : Nat)
  | headLineWrite (ctx : Nat)
  | chnCredit (ctx head : Nat)
  | chnClosePkt (ctx reason : Nat)
  | ashSpill (ctx : Nat)
  | ashDrain (ctx : Nat)
  | chnStall (ctx : Nat)
  -- fabric
  | fluCtl (port p : Nat) (v : U64)
  | fluePortUp (p peer pport : Nat)
  | flueFrame (p seq : Nat) (good : Bool) (fec : Fec)
  | flueNak (p seq : Nat)
  | fluePortDown (p : Nat)
  | chmId (port : Nat) (v : U64)
  | routeLoad (port : Nat)
  | fabricPacket (p : Nat) (h : FabHdr) (m : FabMsg)
  | contrib (m : Contrib)
  | unitEarlyClose (tag step unit : Nat)
  | closeTick (tag step : Nat)
  | localBlwDelivery (tag step unit : Nat)
  | closeSummarySend (tag step : Nat)
  | closeSummary (m : SummaryMsg)
  | summaryTimeout (tag step : Nat)
  | arrivalForward (tag step chunk : Nat)
  | arrivalClose (tag step : Nat)
  | mcastReceive (m : McastMsg)
  | gatherSlice (m : GatherMsg)
  | rreadRequest (m : RReadMsg)
  | permutePiece (m : PieceMsg)
  | permuteDone (round dev : Nat)
  -- weight regions and versions
  | wregLoad (port index : Nat)
  | wregUnload (port index : Nat)
  | blwSliceUpdate (die : Nat)
  | regionCommit (index : Nat)
  | gatedRead (g : GateRead)
  | parkedReadRelease (die : Nat)
  | versionWaitTimeout (die : Nat)
  | readerRelease (index slot : Nat)
  | exdLoad (port first count : Nat)
  | exdClear (port first count : Nat)
  -- memory and events
  | rd (p : NetPkt)
  | wr (p : NetPkt)
  | atomic (p : NetPkt)
  | rdRsp (p : NetPkt)
  | wrAck (p : NetPkt)
  | event (e : EventPkt)
  | wbxHbmLoc (port inst : Nat) (v : U64)
  | slmSplit (port slice : Nat) (v : U64)
  | slmSplitDone (slice : Nat)
  | scrubRead (pa : Nat) (found : ScrubFind)
  | ringSetupBase (port page off : Nat) (v : U64)
  -- Urrek
  | urkPortUp (p : Nat)
  | urkPortDown (p : Nat)
  | urkCtl (port p : Nat) (v : U64)
  | rdShared (m : UrkPkt)
  | rdOwn (m : UrkPkt)
  | rdUc (m : UrkPkt)
  | wrUc (m : UrkPkt)
  | wb (m : UrkPkt)
  | evict (m : UrkPkt)
  | foreignWr (m : UrkPkt)
  | streamRd (m : UrkPkt)
  | flushRd (m : UrkPkt)
  | snpInv (m : UrkPkt)
  | snpShare (m : UrkPkt)
  | snpAck (m : UrkPkt)
  | data (m : UrkPkt)
  | ack (m : UrkPkt)
  | err (m : UrkPkt)
  | snoopTimeout (p : Nat)
  | claim (port : Nat)
  | release (port : Nat)
  | urkJobs (port p : Nat) (v : U64)
  | urkStoves (port p w : Nat) (v : U64)
  | registerWrite (port page off : Nat) (v : U64)
  | blkCtlEn (port page : Nat) (on : Bool)
  | srst (port page : Nat)
  -- snapshots
  | loadSet (port : Nat)
  | checkpoint (port : Nat)
  | rollback (port : Nat)
  | ship (port dev : Nat)
  | recv (port : Nat)
  | restore (port slot : Nat)
  | abandon (port : Nat)
  | emberDoneMsg (m : EmberMsg)
  | noticeN (t : Nat)
  | snpNotice (port : Nat)
  | haltMessage (tick dev : Nat)
  -- security and guests
  | quote (port : Nat)
  | cert (port : Nat)
  | log (port : Nat)
  | update (port : Nat)
  | commitSvn (port : Nat)
  | guestPacket (site : Nat) (p : NetPkt)
  | guestFlit (site : Nat) (bytes : List Byte) (good : Bool)
  | guestIsolate (site : Nat)
  | grst (port site : Nat)
  | gstFwClr (port site : Nat)
  -- power, pins and debug
  | powerOn (mv : Nat)
  | powerOff (mv : Nat)
  | resetN (high : Bool)
  | bringUp (b : BringUp)
  | mgtReset (port : Nat)
  | freezeN (t : Nat)
  | d2dLinkFail (page link : Nat)
  | throttleUpdate (s : PowerSample)
  | tempThreshold (t : TempReading)
  | thermalTrip (temp : Nat)
  | mgtPwrLimit (port : Nat) (v : U64)
  | extest (v : Nat)
  | preload (v : Nat)
  | dbgaddr (v : U64)
  | dbgdata (v : U64)
  | bypass (bit : Bool)
  | smbWritePwrLimit (w : Nat)
  -- link layers and rows added late in the table
  | urkLinkFrame (p seq : Nat) (good : Bool) (bytes : Nat)
  | urkLinkNak (p seq : Nat)
  | urkTrainingFail (p lanes : Nat)
  | flueLaneFail (p lane : Nat)
  | mcastMemResult (m : ResultMsg)
  | arrivalPartial (m : PartialMsg)
  | urkReservedOp (p op : Nat)
  | trstN (high : Bool)
  -- rows without operands
  | xltInvDone
  | tickBoundary
  | boundaryAnnounce
  | syncSlip
  | permuteTimeout
  | runningCut
  | emberCopy
  | granuleCapture
  | snapshotStallLimit
  | emberCopyComplete
  | ckptFlushReturn
  | haltBoundary
  | freezeTime
  | idcode
  | sample
  | diestat
  | smbReadDevSts
  | smbReadTemp
  | smbReadPin
  | smbReadVin
  | smbReadIin
  | smbReadThrottle
  | smbReadPwrLimit
  | smbReadSerial
  deriving DecidableEq, Repr, Inhabited

end Sys2Proof
end

