-- ==== Sys2Proof/WellFormed.lean ====
section
/-! DEFINITION. Well-formed commands: every operand within the width its field has in the spec. -/

namespace Sys2Proof

/-- A ring of R125: an engine page and a ring number it has. -/
def RingId.wf (r : RingId) : Bool :=
  (decide (0x1000 ≤ r.page ∧ r.page < 0x1100) && decide (r.n < 4)) ||
  (decide (0x108 ≤ r.page ∧ r.page < 0x110) && decide (r.n < 4)) ||
  (decide (0x120 ≤ r.page ∧ r.page < 0x124) && decide (r.n < 16)) ||
  (decide (r.page = 6) && decide (r.n < 16)) ||
  (decide (0x40 ≤ r.page ∧ r.page < 0x50) && decide (r.n < 4))

def Cmd.wf (c : Cmd) : Bool := c.ring.wf

/-- The header fields of R405 in their widths, and a payload of one register word or whole 32-byte units up to 1,024 bytes. -/
def NetPkt.wf (p : NetPkt) : Bool :=
  decide (p.dst < 2 ^ 16) && decide (p.src < 2 ^ 16) && decide (p.vc < 6) && decide (p.typ < 256) && decide (p.job < 64) &&
  decide (p.rdev < 8192) && decide (p.status < 256) && decide (p.tag < 2 ^ 16) && decide (p.a2 < 2 ^ 32) &&
  decide (p.payload.length ≤ 1024) && (decide (p.payload.length % 32 = 0) || decide (p.payload.length = 8))

/-- The header fields of R352 in their widths. -/
def UrkPkt.wf (p : UrkPkt) : Bool :=
  decide (p.port < 4) && decide (p.srcid < 256) && decide (p.tag < 4096) && decide (p.len ≤ 4096) &&
  decide (p.addr < 2 ^ 48) && decide (p.mask < 2 ^ 128) && decide (p.data.length ≤ 4096)

def Contrib.wf (m : Contrib) : Bool :=
  decide (m.job < 64) && decide (m.tag < 4096) && decide (m.step < 2 ^ 32) && decide (m.cix < 8192) &&
  decide (m.chunk < 2 ^ 32) && decide (m.nch < 2 ^ 32) && decide (m.cfmt < 16) && decide (m.mbid < 1024) &&
  (if m.empty then m.elems.isEmpty else decide (m.elems.length = 256))

def PartialMsg.wf (m : PartialMsg) : Bool :=
  decide (m.tag < 4096) && decide (m.step < 2 ^ 32) && decide (m.vals.length = 256)

def ResultMsg.wf (m : ResultMsg) : Bool :=
  decide (m.tag < 4096) && decide (m.step < 2 ^ 32) && decide (m.codes.length = 256)

def SummaryMsg.wf (m : SummaryMsg) : Bool := decide (m.tag < 4096) && decide (m.step < 2 ^ 32) && decide (m.home < 8192)

def RReadMsg.wf (m : RReadMsg) : Bool :=
  decide (m.job < 64) && decide (m.dev < 8192) && decide (m.srcDev < 8192) && decide (m.addr < 2 ^ 48) &&
  decide (m.wreg < 2 ^ 14) && decide (m.expver < 2 ^ 16)

def FabHdr.wf (h : FabHdr) : Bool :=
  decide (h.dst < 8192) && decide (h.src < 8192) && decide (h.ttl < 64) && decide (h.vc < 6)

def EventPkt.wf (e : EventPkt) : Bool := decide (e.page < 2 ^ 16) && decide (e.code < 256) && decide (e.qual < 256)

def OpenMsg.wf (m : OpenMsg) : Bool :=
  decide (m.job < 64) && decide (m.srcDev < 8192) && decide (m.srcNode < 2 ^ 16) && decide (m.srcCtx < 4096) &&
  decide (m.target < 2 ^ 32) && decide (m.role < 2 ^ 16) && decide (m.epoch < 2 ^ 16)

/-- A Urrek port number. -/
def portWf (p : Nat) : Bool := decide (p < 4)

/-- A job number. -/
def jobWf (j : Nat) : Bool := decide (j < 64)

/-- A flow context index. -/
def ctxWf (c : Nat) : Bool := decide (c < 4096)

/-- A flue port number. -/
def flueWf (p : Nat) : Bool := decide (p < 18)

/-- A stove number. -/
def stoveWf (s : Nat) : Bool := decide (s < 256)

/-- A page number and an 8-byte aligned offset. -/
def regWf (page off : Nat) : Bool := decide (page < 2 ^ 16) && decide (off < 4096) && decide (off % 8 = 0)

/-- A tag and step of a bucket. -/
def tagWf (tag step : Nat) : Bool := decide (tag < 4096) && decide (step < 2 ^ 32)

/-- Every operand of a command lies in the range its field has. -/
def Instr.wf : Instr → Bool
  | .nop c | .writeLine c | .waitLine c | .tileWs c | .tileOs c | .tileAdapt c | .vecCopy c | .add c | .sub c | .mul c
  | .fma c | .max c | .min c | .abs c | .neg c | .scale c | .div c | .sqrt c | .rsqrt c | .recip c | .exp2 c | .log2 c
  | .fn c | .fnDeriv c | .rowSum c | .rowMax c | .rowSumSq c | .softmax c | .rmsNorm c | .layerNorm c | .topK c
  | .optSlice c | .optCommit c | .optOpen c | .move c | .fslot c | .chnPost c | .chnOpen c | .chnSend c | .chnClose c
  | .chnWithdraw c | .attnFwd c | .attnBwd c | .attnFin c | .attnDelta c | .attnAppend c | .attnSeal c | .updArm c
  | .regen c | .copy c | .fill c | .copy2d c | .chmBucket c | .chmContrib c | .chmEmpty c | .chmMcast c | .chmRread c
  | .chmPermute c | .rtArm c | .rtDisarm c | .kvArm c | .kvDisarm c => c.wf
  | .waitLineMet r | .waitLineTimeout r | .fireguardReplay r | .fgOver r | .commandFetch r | .watchedLineWake r
  | .completionRecord r => r.wf
  | .routingPass a | .walkPass a => decide (a < 64)
  | .expertFetchDone a e => decide (a < 64) && decide (e < 2 ^ 16)
  | .cacheRelease a e => decide (a < 64) && decide (e < 2 ^ 16)
  | .countBankSend a s => decide (a < 64) && decide (s < 2 ^ 32)
  | .ringBase p r _ | .ringCtl p r _ => portWf p && r.wf
  | .heldWriteRelease k => decide (k < 2 ^ 28)
  | .preempt s | .preemptSave s | .preemptDeadline s | .preemptRestore s => stoveWf s
  | .arbWatchdog page i q r => decide (page < 2 ^ 16) && decide (i < 128) && decide (q < 32) && (match r with
      | some r => r.wf
      | none => true)
  | .arbStarve page i q => decide (page < 2 ^ 16) && decide (i < 128) && decide (q < 32)
  | .fslotClr p s _ => portWf p && stoveWf s
  | .healthEval j s | .healthBankZero j s => jobWf j && decide (s < 2 ^ 32)
  | .create p j | .destroy p j => portWf p && jobWf j
  | .wbxXltInv p _ => portWf p
  | .xltInvDone | .tickBoundary | .boundaryAnnounce | .syncSlip => true
  | .draughtSync t => decide (t < 2 ^ 64)
  | .run p _ | .syncEn p _ => portWf p
  | .relock p => portWf p
  | .tikPeriod p _ | .tikSlew p _ => portWf p
  | .bind p g | .unbind p g => portWf p && decide (g < 256)
  | .start p j t => portWf p && jobWf j && decide (t < 2 ^ 48)
  | .stop p j s => portWf p && jobWf j && decide (s < 2 ^ 32)
  | .stopComplete j => jobWf j
  | .slotStart g s => decide (g < 256) && stoveWf s
  | .mbqEntryRetire g | .slipLimitFault g => decide (g < 256)
  | .chnEp p d e _ => portWf p && decide (d < 8) && decide (e < 256)
  | .chnFabort p c => portWf p && ctxWf c
  | .chnOpenPkt m => m.wf
  | .chnAccept m => ctxWf m.ctx && ctxWf m.peerCtx
  | .chnRefuse c r => ctxWf c && decide (r < 256)
  | .openTimeout c | .chnTail c | .headLineWrite c | .ashSpill c | .ashDrain c | .chnStall c => ctxWf c
  | .chnData m => ctxWf m.ctx
  | .chnCredit c h => ctxWf c && decide (h < 2 ^ 64)
  | .chnClosePkt c r => ctxWf c && decide (r < 256)
  | .fluCtl p q _ => portWf p && flueWf q
  | .fluePortUp p d q => flueWf p && decide (d < 8192) && decide (q < 32)
  | .flueFrame p q _ e => flueWf p && decide (q < 4096) && decide (e.corrected < 2 ^ 32) && decide (e.uncorrectable < 2 ^ 32)
  | .flueNak p q => flueWf p && decide (q < 4096)
  | .fluePortDown p => flueWf p
  | .chmId p _ => portWf p
  | .routeLoad p => portWf p
  | .fabricPacket p h _ => flueWf p && h.wf
  | .contrib m => m.wf
  | .unitEarlyClose t s _ | .localBlwDelivery t s _ => tagWf t s
  | .closeTick t s | .closeSummarySend t s | .summaryTimeout t s | .arrivalClose t s => tagWf t s
  | .closeSummary m => m.wf
  | .arrivalForward t s c => tagWf t s && decide (c < 2 ^ 32)
  | .mcastReceive m => jobWf m.job && decide (m.dst < 2 ^ 48) && decide (m.nline < 2 ^ 48)
  | .gatherSlice m => decide (m.gtag < 4096) && decide (m.step < 2 ^ 32)
  | .rreadRequest m => m.wf
  | .permutePiece m => decide (m.dst < 2 ^ 48)
  | .permuteDone _ d => decide (d < 8192)
  | .permuteTimeout => true
  | .wregLoad p i | .wregUnload p i => portWf p && decide (i < 2 ^ 14)
  | .blwSliceUpdate d | .parkedReadRelease d | .versionWaitTimeout d => decide (d < 8)
  | .regionCommit i => decide (i < 2 ^ 14)
  | .gatedRead g => jobWf g.job && decide (g.wreg < 2 ^ 14) && decide (g.exp < 2 ^ 16)
  | .readerRelease i s => decide (i < 2 ^ 14) && decide (s < 2)
  | .exdLoad p f c | .exdClear p f c => portWf p && decide (f < 2 ^ 16) && decide (c < 2 ^ 17)
  | .rd p | .wr p | .atomic p | .rdRsp p | .wrAck p => p.wf
  | .event e => e.wf
  | .wbxHbmLoc p i _ => portWf p && decide (i < 4)
  | .slmSplit p i _ => portWf p && decide (i < 4)
  | .slmSplitDone i => decide (i < 4)
  | .scrubRead pa f => decide (pa < 2 ^ 48) && (match f with
      | .corrected s => decide (s < 32)
      | _ => true)
  | .ringSetupBase p page off _ => portWf p && regWf page off
  | .urkPortUp p | .urkPortDown p | .snoopTimeout p => portWf p
  | .urkCtl p q _ => portWf p && portWf q
  | .rdShared m | .rdOwn m | .rdUc m | .wrUc m | .wb m | .evict m | .foreignWr m | .streamRd m | .flushRd m | .snpInv m
  | .snpShare m | .snpAck m | .data m | .ack m | .err m => m.wf
  | .claim p | .release p => portWf p
  | .urkJobs p q _ => portWf p && portWf q
  | .urkStoves p q w _ => portWf p && portWf q && decide (w < 4)
  | .registerWrite p page off _ => portWf p && regWf page off
  | .blkCtlEn p page _ => portWf p && decide (page < 2 ^ 16)
  | .srst p page => portWf p && decide (page < 2 ^ 16)
  | .loadSet p | .checkpoint p | .rollback p | .recv p | .abandon p => portWf p
  | .ship p d => portWf p && decide (d < 8192)
  | .restore p s => portWf p && decide (s < 2)
  | .runningCut | .emberCopy | .granuleCapture | .snapshotStallLimit | .emberCopyComplete | .ckptFlushReturn
  | .haltBoundary => true
  | .emberDoneMsg m => decide (m.step < 2 ^ 32) && decide (m.dev < 8192) && decide (m.result < 16)
  | .noticeN t => decide (t < 2 ^ 64)
  | .snpNotice p => portWf p
  | .haltMessage t d => decide (t < 2 ^ 48) && decide (d < 8192)
  | .quote p | .cert p | .log p | .update p | .commitSvn p => portWf p
  | .guestPacket s p => decide (s < 2) && p.wf
  | .guestFlit s b _ => decide (s < 2) && decide (b.length = 256)
  | .guestIsolate s => decide (s < 2)
  | .grst p s | .gstFwClr p s => portWf p && decide (s < 2)
  | .powerOn v | .powerOff v => decide (v < 2 ^ 32)
  | .resetN _ | .idcode | .sample | .diestat | .smbReadDevSts | .smbReadTemp | .smbReadPin | .smbReadVin | .smbReadIin
  | .smbReadThrottle | .smbReadPwrLimit | .smbReadSerial | .freezeTime => true
  | .bringUp b => decide (b.straps.length = 15)
  | .mgtReset p => portWf p
  | .freezeN t => decide (t < 2 ^ 64)
  | .d2dLinkFail page l => decide (page < 2 ^ 16) && decide (l < 16)
  | .throttleUpdate s => decide (s.hot < 256)
  | .tempThreshold _ => true
  | .thermalTrip t => decide (t < 256)
  | .mgtPwrLimit p _ => portWf p
  | .extest v | .preload v => decide (v < 2 ^ 64)
  | .dbgaddr _ | .dbgdata _ | .bypass _ | .trstN _ => true
  | .smbWritePwrLimit v => decide (v < 2 ^ 16)
  | .urkLinkFrame p q _ b => portWf p && decide (q < 4096) && decide (b < 2 ^ 32)
  | .urkLinkNak p q => portWf p && decide (q < 4096)
  | .urkTrainingFail p l => portWf p && decide (l < 256)
  | .flueLaneFail p l => flueWf p && decide (l < 8)
  | .mcastMemResult m => m.wf
  | .arrivalPartial m => m.wf
  | .urkReservedOp p o => portWf p && decide (o < 256)

end Sys2Proof
end

