-- ==== Sys2Proof/Decode.lean ====
section
/-! DEFINITION. The command a word of the opcode table spells. The table gives no row any bits: the block takes its
commands as packets, register accesses and events, and no word spells one. -/

namespace Sys2Proof

/-- The command a table word spells: none, because no row of spec/opcode_table.json has bits. -/
def decodeTableWord (_nbits _w : Nat) : Option Instr := none

end Sys2Proof
end

