-- ==== Sys2Proof/Machine/Bits.lean ====
section
/-! DEFINITION. Bit fields of register and descriptor words, little-endian bytes, and small list helpers. -/

namespace Sys2Proof.Machine

/-- Bits [hi:lo] of a number (R13). -/
def bits (v hi lo : Nat) : Nat := (v >>> lo) % 2 ^ (hi - lo + 1)

/-- Bits [hi:lo] of a register or descriptor word (R13). -/
def fld (w : U64) (hi lo : Nat) : Nat := bits w.toNat hi lo

/-- Bit n of a word. -/
def bit (w : U64) (n : Nat) : Bool := w.toNat.testBit n

/-- The word with bits [hi:lo] replaced by the low bits of v. -/
def setFld (w : U64) (hi lo v : Nat) : U64 :=
  let m := (2 ^ (hi - lo + 1) - 1) <<< lo
  (w &&& ~~~(BitVec.ofNat 64 m)) ||| BitVec.ofNat 64 ((v % 2 ^ (hi - lo + 1)) <<< lo)

/-- The word with bit n replaced. -/
def setBit (w : U64) (n : Nat) (b : Bool) : U64 := setFld w n n b.toNat

/-- Whether every listed bit range of the word is zero (reserved bits, R98). -/
def zeroBits (w : U64) (rs : List (Nat × Nat)) : Bool := rs.all fun r => fld w r.1 r.2 == 0

/-- A counter field that stops at its largest value. -/
def satAdd (limit a b : Nat) : Nat := min limit (a + b)

/-- Bits [hi:lo] of the word as a counter increased by n, stopping at the largest value of the field. -/
def countUp (w : U64) (hi lo n : Nat) : U64 :=
  setFld w hi lo (satAdd (2 ^ (hi - lo + 1) - 1) (fld w hi lo) n)

/-- The little-endian value of a byte list (R43). -/
def leNat (bs : List Byte) : Nat := bs.foldr (fun b acc => b.toNat + 256 * acc) 0

/-- The n little-endian bytes of a value. -/
def leBytes : Nat → Nat → List Byte
  | 0, _ => []
  | n + 1, v => BitVec.ofNat 8 v :: leBytes n (v / 256)

/-- The little-endian word in 8 bytes. -/
def leWord (bs : List Byte) : U64 := BitVec.ofNat 64 (leNat bs)

/-- The 8 bytes of a word. -/
def wordBytes (w : U64) : List Byte := leBytes 8 w.toNat

/-- Quotient rounded up. -/
def ceilDiv (a b : Nat) : Nat := (a + b - 1) / b

/-- A list cut into pieces of n elements (n > 0); the last may be shorter. -/
def chunksAux (n : Nat) (fuel : Nat) : List α → List (List α)
  | [] => []
  | x :: xs => match fuel with
    | 0 => []
    | f + 1 => (x :: xs).take n :: chunksAux n f ((x :: xs).drop n)

/-- A list cut into pieces of n elements (n > 0); the last may be shorter. -/
def chunks (n : Nat) (xs : List α) : List (List α) := chunksAux n xs.length xs

/-- Replace the first entry that satisfies p, by f of it. -/
def updFirst (p : α → Bool) (f : α → α) : List α → List α
  | [] => []
  | x :: xs => if p x then f x :: xs else x :: updFirst p f xs

/-- Insert into a strictly rising list of numbers, without repeats. -/
def insNat (n : Nat) : List Nat → List Nat
  | [] => [n]
  | m :: ms => if n < m then n :: m :: ms else if n = m then m :: ms else m :: insNat n ms

/-- Replace entry i of a list, when it exists. -/
def setAt (i : Nat) (x : α) (xs : List α) : List α := xs.set i x

/-- The numbers lo to lo + n − 1. -/
def upTo (lo n : Nat) : List Nat := (List.range n).map (lo + ·)

/-- The maximum of two numbers modulo 2^64, GTIME being a 64-bit count (R15). -/
def later (a b : Nat) : Nat := max a b

end Sys2Proof.Machine
end

