-- ==== Sys2Proof/Machine/Sm3.lean ====
section
/-! DEFINITION. The SM3 digest of GB/T 32905, which R393, R397 and R399 name (PRESUMED, log entry 9: the standard's text is
not in the spec). -/

namespace Sys2Proof.Machine

abbrev U32 := BitVec 32

/-- The eight working words of SM3. -/
structure Sm3State where
  a : U32
  b : U32
  c : U32
  d : U32
  e : U32
  f : U32
  g : U32
  h : U32
  deriving DecidableEq, Repr

def sm3Init : Sm3State :=
  ⟨0x7380166f, 0x4914b2b9, 0x172442d7, 0xda8a0600, 0xa96f30bc, 0x163138aa, 0xe38dee4d, 0xb0fb0e4e⟩

def sm3P0 (x : U32) : U32 := x ^^^ x.rotateLeft 9 ^^^ x.rotateLeft 17
def sm3P1 (x : U32) : U32 := x ^^^ x.rotateLeft 15 ^^^ x.rotateLeft 23

/-- Message expansion: the words so far, newest first, until 68 stand. -/
def sm3Expand : Nat → List U32 → List U32
  | 0, ws => ws
  | n + 1, ws =>
    let at' := fun i => ws.getD (i - 1) 0
    sm3Expand n ((sm3P1 (at' 16 ^^^ at' 9 ^^^ (at' 3).rotateLeft 15) ^^^ (at' 13).rotateLeft 7 ^^^ at' 6) :: ws)

/-- One round with expanded words w and w'. -/
def sm3Round (s : Sm3State) (j : Nat) (w w' : U32) : Sm3State :=
  let t : U32 := if j < 16 then 0x79cc4519 else 0x7a879d8a
  let ss1 := ((s.a.rotateLeft 12) + s.e + t.rotateLeft (j % 32)).rotateLeft 7
  let ss2 := ss1 ^^^ s.a.rotateLeft 12
  let ff := if j < 16 then s.a ^^^ s.b ^^^ s.c else (s.a &&& s.b) ||| (s.a &&& s.c) ||| (s.b &&& s.c)
  let gg := if j < 16 then s.e ^^^ s.f ^^^ s.g else (s.e &&& s.f) ||| (~~~s.e &&& s.g)
  let tt1 := ff + s.d + ss2 + w'
  let tt2 := gg + s.h + ss1 + w
  ⟨tt1, s.a, s.b.rotateLeft 9, s.c, sm3P0 tt2, s.e, s.f.rotateLeft 19, s.g⟩

/-- The rounds over the expanded words, oldest first. -/
def sm3Rounds : Nat → Nat → List U32 → Sm3State → Sm3State
  | 0, _, _, s => s
  | n + 1, j, ws, s => sm3Rounds n (j + 1) (ws.drop 1) (sm3Round s j (ws.getD 0 0) (ws.getD 0 0 ^^^ ws.getD 4 0))

/-- Big-endian words of a block. -/
def beWords (bs : List Byte) : List U32 :=
  (chunks 4 bs).map fun c => BitVec.ofNat 32 (c.foldl (fun acc b => acc * 256 + b.toNat) 0)

/-- One block of 64 bytes. -/
def sm3Block (s : Sm3State) (blk : List Byte) : Sm3State :=
  let ws := (sm3Expand 52 (beWords blk).reverse).reverse
  let r := sm3Rounds 64 0 ws s
  ⟨s.a ^^^ r.a, s.b ^^^ r.b, s.c ^^^ r.c, s.d ^^^ r.d, s.e ^^^ r.e, s.f ^^^ r.f, s.g ^^^ r.g, s.h ^^^ r.h⟩

/-- The padded message: 0x80, zeros, the bit length big-endian. -/
def sm3Pad (bs : List Byte) : List Byte :=
  let n := bs.length
  bs ++ [0x80] ++ List.replicate ((119 - n % 64) % 64) 0 ++ (leBytes 8 (8 * n)).reverse

/-- The 32-byte SM3 digest. -/
def sm3 (bs : List Byte) : List Byte :=
  let s := (chunks 64 (sm3Pad bs)).foldl sm3Block sm3Init
  [s.a, s.b, s.c, s.d, s.e, s.f, s.g, s.h].flatMap fun w => (leBytes 4 w.toNat).reverse

end Sys2Proof.Machine
end

