-- ==== Sys2Proof/Config.lean ====
section
/-! DEFINITION. What an implementation fixes and what the spec leaves open: the free values, as opaque constants that
nothing can evaluate. Each takes the model's own counter `State.dev.free`, or the data it depends on. -/

namespace Sys2Proof.Config

/-- R39: whether an access made between a change of a valid table entry and the end of its invalidation uses the old
entry. -/
opaque staleXlt : Nat → Bool

/-- R342: the set of the SLM cache that a line falls in; the spec gives no index function. -/
opaque slmSet : Nat → Fin 65536

/-- R342: which of the lines of a full set is replaced (replacement order is not specified). -/
opaque slmVictim : Nat → Nat

/-- R18: the die at the other end of a link port of a page whose ports the spec does not number (WBX, DBG of the mantel). -/
opaque farDie : Nat → Nat → Nat

/-- R265, R274: the accumulator port that serves the first chunk of a close unit of a bucket's step; the spec says only that the
chunks of one unit lie on distinct ports. -/
opaque accPort : Nat → Nat → Nat → Fin 128

/-- R118, R336, R337: the memory error, if any, that arises in an idle core cycle: its address, whether it lies in a word of an SLM
slice's cache, its symbol, and whether it is past correction. -/
opaque upsetAt : Nat → Option (Nat × Bool × Nat × Bool)

/-- R364: whether a foreign write stays invisible past its arrival. -/
opaque foreignDelayed : Nat → Bool

/-- R366: how many bytes beyond a STREAM_RD the port reads ahead. -/
opaque readAhead : Nat → Nat

/-- R366: whether a STREAM_RD inside the stream buffer is served from it. -/
opaque streamHit : Nat → Bool

/-- R354: the set, of 1,048,576, of the coherence directory that a line falls in. -/
opaque dirSet : Nat → Fin 1048576

/-- R354: which of the lines of a full set is the victim. -/
opaque dirVictim : Nat → Nat

/-- R127: a value no rule of the spec states, drawn by the free counter. -/
opaque freeWord : Nat → U64

/-- R157, R64: the sum of an output element (draw, row, column) whose OS accumulator holds sums of the other path; the
spec states no result. -/
opaque mixedSum : Nat → Nat → Nat → U64

/-- R140: byte i of the resume state of a save image, by draw. -/
opaque resumeByte : Nat → Nat → Byte

/-- R397: whether an SM2 signature verifies under a public key (GB/T 32918, not restated by the spec): key bytes, signed
bytes, signature bytes. -/
opaque sm2Verify : List Byte → List Byte → List Byte → Bool

/-- R401: byte i of the SM2 signature that the device key makes over bytes, by draw. -/
opaque sm2Sign : Nat → List Byte → Nat → Byte

/-- R397, R398: the body bytes that the flash keeps for a bundle of each KIND. -/
opaque bundleSpace : Nat → Nat

/-- R400, R413: how long the device certificate is (LEN has 32 bits), and its byte i. -/
opaque certLen : Fin 4294967296
opaque certByte : Nat → Byte

/-- R400: the device certificate. -/
def certificate : List Byte := (List.range certLen.val).map certByte

end Sys2Proof.Config
end

