-- ==== Sys2Proof/Machine/Num.lean ====
section
/-! DEFINITION. The Lenielet number formats: exact values, decode, encode, scales, stochastic rounding, A32 and
binary32 rounding, and the mathematical operations of the Hob (spec/02_number_formats.md, R69, R109). -/

namespace Sys2Proof.Machine

/-- A value as every engine sees it: exact non-zero rational num / den, signed zero, ±Inf or NaN (R50). -/
inductive Val where
  | nan
  | inf (neg : Bool)
  | zero (neg : Bool)
  | fin (num : Int) (den : Nat)
  deriving DecidableEq, Repr, Inhabited

/-- The element formats of R42. -/
inductive Fmt where
  | l16 | h16 | e5m2 | e4m3 | int8 | int4 | e2m1 | t2
  deriving DecidableEq, Repr, Inhabited

/-- The scale formats of R48. -/
inductive ScaleFmt where
  | none | s8 | e4m3 | l16
  deriving DecidableEq, Repr, Inhabited

/-- Format code to format; codes 0x8 to 0xF are reserved (R42). -/
def Fmt.ofCode : Nat → Option Fmt
  | 0 => some .l16 | 1 => some .h16 | 2 => some .e5m2 | 3 => some .e4m3
  | 4 => some .int8 | 5 => some .int4 | 6 => some .e2m1 | 7 => some .t2
  | _ => Option.none

/-- Scale code to scale format (R48). -/
def ScaleFmt.ofCode : Nat → Option ScaleFmt
  | 0 => some .none | 1 => some .s8 | 2 => some .e4m3 | 3 => some .l16
  | _ => Option.none

/-- Bits of one element (R44). -/
def Fmt.width : Fmt → Nat
  | .l16 | .h16 => 16
  | .e5m2 | .e4m3 | .int8 => 8
  | .int4 | .e2m1 => 4
  | .t2 => 2

/-- Bytes of one scale. -/
def ScaleFmt.bytes : ScaleFmt → Nat
  | .none => 0 | .s8 => 1 | .e4m3 => 1 | .l16 => 2

/-- L16, H16, E5M2 and E4M3, the formats with an exponent field and a flush rule (R45). -/
def Fmt.isFloat : Fmt → Bool
  | .l16 | .h16 | .e5m2 | .e4m3 => true
  | _ => false

/-- INT8, INT4 and T2, the formats of the integer path (R61). -/
def Fmt.isInt : Fmt → Bool
  | .int8 | .int4 | .t2 => true
  | _ => false

/-- Mantissa width p of the grid (R53); 0 for the integer formats. -/
def Fmt.mant : Fmt → Nat
  | .l16 => 7 | .h16 => 10 | .e5m2 => 2 | .e4m3 => 3 | .e2m1 => 1
  | .int8 | .int4 | .t2 => 0

/-- Exponent bias (R44). -/
def Fmt.bias : Fmt → Nat
  | .l16 => 127 | .h16 => 15 | .e5m2 => 15 | .e4m3 => 7 | .e2m1 => 1
  | .int8 | .int4 | .t2 => 0

/-- Largest finite magnitude (R44). -/
def Fmt.maxMag : Fmt → Nat
  | .l16 => 255 * 2 ^ 120 | .h16 => 65504 | .e5m2 => 57344 | .e4m3 => 448
  | .int8 => 127 | .int4 => 7 | .e2m1 => 6 | .t2 => 1

/-! ### Exact rationals -/

/-- 2^e as a fraction. -/
def pow2 (e : Int) : Nat × Nat := if 0 ≤ e then (2 ^ e.toNat, 1) else (1, 2 ^ (-e).toNat)

/-- The value num / den in lowest terms; an exact zero is +0 (R63). -/
def mkVal (num : Int) (den : Nat) : Val :=
  if num = 0 then .zero false
  else
    let g := Nat.gcd num.natAbs den
    .fin (num / (g : Int)) (den / g)

/-- The value sign · n · 2^e. -/
def mkPow (neg : Bool) (n : Nat) (e : Int) : Val :=
  if n = 0 then .zero neg
  else
    let p := pow2 e
    mkVal ((if neg then -1 else 1) * (n * p.1 : Nat)) p.2

/-- A natural number as a value. -/
def Val.ofNat (n : Nat) : Val := mkVal n 1

/-- An integer as a value. -/
def Val.ofInt (n : Int) : Val := mkVal n 1

/-- The sign of a value; NaN counts as positive. -/
def Val.isNeg : Val → Bool
  | .nan => false
  | .inf s => s
  | .zero s => s
  | .fin n _ => n < 0

/-- NaN or ±Inf. -/
def Val.nonFinite : Val → Bool
  | .nan | .inf _ => true
  | _ => false

def Val.isZero : Val → Bool
  | .zero _ => true
  | _ => false

def Val.isNaN : Val → Bool
  | .nan => true
  | _ => false

def Val.neg : Val → Val
  | .nan => .nan
  | .inf s => .inf !s
  | .zero s => .zero !s
  | .fin n d => .fin (-n) d

def Val.abs : Val → Val
  | .nan => .nan
  | .inf _ => .inf false
  | .zero _ => .zero false
  | .fin n d => .fin n.natAbs d

/-- Exact product, with the special cases of IEEE 754 (R50, R63). -/
def Val.mul (a b : Val) : Val :=
  match a, b with
  | .nan, _ | _, .nan => .nan
  | .inf s, .zero _ => let _ := s; .nan
  | .zero _, .inf _ => .nan
  | .fin n d, .fin m e => mkVal (n * m) (d * e)
  | .inf s, y => .inf (s != y.isNeg)
  | x, .inf s => .inf (x.isNeg != s)
  | x, y => .zero (x.isNeg != y.isNeg)

/-- Exact sum (R63): opposite infinities give NaN, an exact zero sum is +0, two negative zeros give −0. -/
def Val.add (a b : Val) : Val :=
  match a, b with
  | .nan, _ | _, .nan => .nan
  | .inf s, .inf t => if s = t then .inf s else .nan
  | .inf s, _ => .inf s
  | _, .inf t => .inf t
  | .zero s, .zero t => .zero (s && t)
  | .zero _, y => y
  | x, .zero _ => x
  | .fin n d, .fin m e => mkVal (n * e + m * d) (d * e)

def Val.sub (a b : Val) : Val := a.add b.neg

/-- Exact reciprocal: 1 ÷ ±0 is ±Inf and 1 ÷ ±Inf is ±0. -/
def Val.inv : Val → Val
  | .nan => .nan
  | .inf s => .zero s
  | .zero s => .inf s
  | .fin n d => .fin ((if n < 0 then -1 else 1) * (d : Int)) n.natAbs

/-- Exact quotient with the special cases of IEEE 754: 0 ÷ 0 and Inf ÷ Inf are NaN. -/
def Val.div (a b : Val) : Val :=
  match a, b with
  | .zero _, .zero _ => .nan
  | .inf _, .inf _ => .nan
  | _, _ => a.mul b.inv

/-- Exact product with 2^e. -/
def Val.scalePow (a : Val) (e : Int) : Val :=
  match a with
  | .fin n d => let p := pow2 e; mkVal (n * p.1) (d * p.2)
  | v => v

/-- a < b for values that are not NaN; zeros of both signs are equal. -/
def Val.lt (a b : Val) : Bool :=
  match a, b with
  | .nan, _ | _, .nan => false
  | .inf s, .inf t => s && !t
  | .inf s, _ => s
  | _, .inf t => !t
  | .zero _, .zero _ => false
  | .zero _, .fin m _ => decide (0 < m)
  | .fin n _, .zero _ => decide (n < 0)
  | .fin n d, .fin m e => decide (n * e < m * d)

def Val.le (a b : Val) : Bool :=
  match a, b with
  | .nan, _ | _, .nan => false
  | _, _ => !(b.lt a)

/-! ### Rounding -/

/-- floor(log2 (num / den)) of a positive fraction. -/
def floorLog2 (num den : Nat) : Int :=
  let e : Int := (Nat.log2 num : Int) - (Nat.log2 den : Int)
  let p := pow2 e
  if p.1 * den ≤ num * p.2 then e else e - 1

/-- Integer part, remainder and divisor of (num / den) ÷ 2^e. -/
def gridQuot (num den : Nat) (e : Int) : Nat × Nat × Nat :=
  let p := pow2 e
  let n := num * p.2
  let d := den * p.1
  (n / d, n % d, d)

/-- Round to nearest, ties to even, from an integer part and its remainder (R54). -/
def rneUp (n r d : Nat) : Nat :=
  if 2 * r < d then n else if d < 2 * r then n + 1 else if n % 2 = 0 then n else n + 1

/-- Rounding modes (R52): RNE, or SR with the 32-bit value u of the Ember mixer. -/
inductive Rnd where
  | rne
  | sr (u : Nat)
  deriving DecidableEq, Repr, Inhabited

/-- round_magnitude of R54, on the grid of the format (R53): the result is n · 2^e. -/
def roundMag (fmt : Fmt) (mode : Rnd) (num den : Nat) : Nat × Int :=
  let e : Int :=
    if fmt.isInt then 0
    else
      let l := floorLog2 num den
      if fmt = .e2m1 && decide (l < 0) then -1 else l - fmt.mant
  let q := gridQuot num den e
  let n := match mode with
    | .rne => rneUp q.1 q.2.1 q.2.2
    | .sr u => if q.2.1 ≠ 0 ∧ u < q.2.1 * 2 ^ 32 / q.2.2 then q.1 + 1 else q.1
  (n, e)

/-- RNE of a positive fraction to p significant bits on a grid without exponent bounds: n · 2^e. -/
def roundSig (p num den : Nat) : Nat × Int :=
  let e := floorLog2 num den - (p - 1 : Nat)
  let q := gridQuot num den e
  (rneUp q.1 q.2.1 q.2.2, e)

/-- n · 2^e ≥ 2^k. -/
def magGe (n : Nat) (e k : Int) : Bool :=
  let p := pow2 (k - e)
  decide (p.1 ≤ n * p.2)

/-- RND32 of R107 and the accumulate rounding of R63: 32 significant bits, ±Inf from 2^1024, +0 below 2^−1022. -/
def rnd32 : Val → Val
  | .fin n d =>
    let r := roundSig 32 n.natAbs d
    if magGe r.1 r.2 1024 then .inf (n < 0)
    else if magGe r.1 r.2 (-1022) then mkPow (n < 0) r.1 r.2
    else .zero false
  | v => v

/-- Rounding to binary32 as the Hob does (R109): 24 significant bits, ±Inf on overflow, a zero of its sign below
2^−126. -/
def rneF32 : Val → Val
  | .fin n d =>
    let r := roundSig 24 n.natAbs d
    if magGe r.1 r.2 128 then .inf (n < 0)
    else if magGe r.1 r.2 (-126) then mkPow (n < 0) r.1 r.2
    else .zero (n < 0)
  | v => v

/-! ### Decode and encode -/

/-- What reading an element counts (R56). -/
inductive InCls where
  | none | flush | nonfin
  deriving DecidableEq, Repr, Inhabited

/-- Value of a floating-point code with `m` mantissa bits and `x` exponent bits, before the flush rule. -/
def floatCode (m x bias : Nat) (hasInf : Bool) (code : Nat) : Val × Bool :=
  let neg := code.testBit (m + x)
  let ex := bits code (m + x - 1) m
  let mt := code % 2 ^ m
  if ex = 2 ^ x - 1 ∧ hasInf then ((if mt = 0 then .inf neg else .nan), false)
  else if ex = 0 then (.zero neg, mt != 0)
  else (mkPow neg (2 ^ m + mt) ((ex : Int) - bias - m), false)

/-- The magnitude of an E2M1 code in halves (R46). -/
def e2m1Halves (c : Nat) : Nat :=
  match c % 8 with
  | 0 => 0 | 1 => 1 | 2 => 2 | 3 => 3 | 4 => 4 | 5 => 6 | 6 => 8 | _ => 12

/-- An invalid code of R47. -/
def invalidCode (fmt : Fmt) (code : Nat) : Bool :=
  match fmt with
  | .int8 => code == 0x80
  | .int4 => code == 0x8
  | .t2 => code == 2
  | _ => false

/-- Two's complement value of the low w bits. -/
def signedOf (w code : Nat) : Int :=
  if 2 ^ (w - 1) ≤ code % 2 ^ w then (code % 2 ^ w : Nat) - (2 ^ w : Nat) else (code % 2 ^ w : Nat)

/-- The value of a valid code and whether it is a subnormal code (R44 to R47). -/
def codeVal (fmt : Fmt) (code : Nat) : Val × Bool :=
  match fmt with
  | .l16 => floatCode 7 8 127 true code
  | .h16 => floatCode 10 5 15 true code
  | .e5m2 => floatCode 2 5 15 true code
  | .e4m3 => if code % 128 = 127 then (.nan, false) else floatCode 3 4 7 false code
  | .int8 => (Val.ofInt (signedOf 8 code), false)
  | .int4 => (Val.ofInt (signedOf 4 code), false)
  | .e2m1 => (mkPow (code.testBit 3) (e2m1Halves code) (-1), false)
  | .t2 => ((if code % 4 = 1 then Val.ofNat 1 else if code % 4 = 3 then Val.ofInt (-1) else .zero false), false)

/-- decode() of R50: value and counting class of an element code under a scale value. -/
def decodeElem (fmt : Fmt) (code : Nat) (sc : Val) : Val × InCls :=
  if invalidCode fmt code then (.zero false, .nonfin)
  else if sc.isNaN then (.nan, .nonfin)
  else
    let v := codeVal fmt code
    if v.2 then (v.1.mul sc, .flush)
    else if v.1.nonFinite then (v.1.mul sc, .nonfin)
    else (v.1.mul sc, .none)

/-- The value of a scale code (R48): a sign bit, Inf or NaN make a NaN scale. -/
def scaleVal (sf : ScaleFmt) (code : Nat) : Val :=
  match sf with
  | .none => Val.ofNat 1
  | .s8 => if code % 256 = 255 then .nan else mkPow false 1 ((code % 256 : Nat) - (127 : Int))
  | .e4m3 =>
    if code.testBit 7 then .nan
    else match (codeVal .e4m3 code).1 with
      | .inf _ => .nan
      | v => v
  | .l16 =>
    if code.testBit 15 then .nan
    else match (codeVal .l16 code).1 with
      | .inf _ => .nan
      | v => v

/-- The NaN scale of a scale format (R55). -/
def nanScale : ScaleFmt → Nat
  | .none => 0 | .s8 => 0xFF | .e4m3 => 0x7F | .l16 => 0x7FC0

/-- The code of scale 1 (R69). -/
def oneScale : ScaleFmt → Nat
  | .none => 0 | .s8 => 0x7F | .e4m3 => 0x38 | .l16 => 0x3F80

/-- What writing an element counts (R56). -/
inductive OutCls where
  | none | nonfin | sat | flushZero | zero | satZero
  deriving DecidableEq, Repr, Inhabited

/-- The code of a float format for sign and magnitude n · 2^e, which lies on its grid within its range. -/
def floatEnc (fmt : Fmt) (neg : Bool) (n : Nat) (e : Int) (width : Nat) : Nat :=
  let m := fmt.mant
  let n' := if n = 2 ^ (m + 1) then 2 ^ m else n
  let e' := if n = 2 ^ (m + 1) then e + 1 else e
  let ex := (e' + m + fmt.bias).toNat
  (if neg then 2 ^ (width - 1) else 0) + ex * 2 ^ m + (n' - 2 ^ m)

/-- The E2M1 code of a magnitude in halves. -/
def e2m1Enc (neg : Bool) (h : Nat) : Nat :=
  (if neg then 8 else 0) +
    (if h = 0 then 0 else if h = 1 then 1 else if h = 2 then 2 else if h = 3 then 3 else if h = 4 then 4
     else if h = 6 then 5 else if h = 8 then 6 else 7)

/-- The code of a format for a sign and a magnitude n · 2^e of its code set. -/
def magEnc (fmt : Fmt) (neg : Bool) (n : Nat) (e : Int) : Nat :=
  match fmt with
  | .l16 | .h16 => floatEnc fmt neg n e 16
  | .e5m2 | .e4m3 => floatEnc fmt neg n e 8
  | .e2m1 => e2m1Enc neg (let p := pow2 (e + 1); n * p.1 / p.2)
  | .int8 => if neg then (256 - n) % 256 else n
  | .int4 => if neg then (16 - n) % 16 else n
  | .t2 => if n = 0 then 0 else if neg then 3 else 1

/-- Zero of a format with a sign; INT8, INT4 and T2 have one zero (R54). -/
def zeroEnc (fmt : Fmt) (neg : Bool) : Nat :=
  if neg then
    match fmt with
    | .l16 | .h16 => 0x8000
    | .e5m2 | .e4m3 => 0x80
    | .e2m1 => 8
    | _ => 0
  else 0

/-- The largest finite magnitude with a sign. -/
def maxEnc (fmt : Fmt) (neg : Bool) : Nat :=
  match fmt with
  | .l16 => if neg then 0xFF7F else 0x7F7F
  | .h16 => if neg then 0xFBFF else 0x7BFF
  | .e5m2 => if neg then 0xFB else 0x7B
  | .e4m3 => if neg then 0xFE else 0x7E
  | .int8 => if neg then 0x81 else 0x7F
  | .int4 => if neg then 0x9 else 0x7
  | .e2m1 => if neg then 0xF else 0x7
  | .t2 => if neg then 3 else 1

/-- Min normal of a float format is 2 to this power (R44). -/
def minNormExp : Fmt → Int
  | .l16 => -126 | .h16 => -14 | .e5m2 => -14 | .e4m3 => -6 | _ => 0

/-- The canonical NaN code, or +0 where the format has none (R45, R54). -/
def nanEnc : Fmt → Nat
  | .l16 => 0x7FC0 | .h16 => 0x7E00 | .e5m2 => 0x7E | .e4m3 => 0x7F | _ => 0

/-- The Inf code, or max where the format has no Inf (R54). -/
def infEnc (fmt : Fmt) (neg : Bool) : Nat :=
  match fmt with
  | .l16 => if neg then 0xFF80 else 0x7F80
  | .h16 => if neg then 0xFC00 else 0x7C00
  | .e5m2 => if neg then 0xFC else 0x7C
  | _ => maxEnc fmt neg

/-- encode() of R54: element code and counting class. -/
def encodeElem (x : Val) (fmt : Fmt) (mode : Rnd) : Nat × OutCls :=
  match x with
  | .nan => (nanEnc fmt, .nonfin)
  | .inf s => (infEnc fmt s, .nonfin)
  | .zero s => (zeroEnc fmt s, .zero)
  | .fin num den =>
    let s := decide (num < 0)
    let r := roundMag fmt mode num.natAbs den
    let p := pow2 r.2
    if fmt.maxMag * p.2 < r.1 * p.1 then (maxEnc fmt s, .sat)
    else if r.1 = 0 then (zeroEnc fmt s, .zero)
    else if fmt.isFloat && !magGe r.1 r.2 (minNormExp fmt) then (zeroEnc fmt s, .flushZero)
    else (magEnc fmt s r.1 r.2, .none)

/-- The binary32 code of a value that lies on its grid (R109): NaN is 0x7FC0_0000. -/
def f32Code : Val → Nat
  | .nan => 0x7FC00000
  | .inf s => if s then 0xFF800000 else 0x7F800000
  | .zero s => if s then 0x80000000 else 0
  | .fin n d =>
    let r := roundSig 24 n.natAbs d
    let m := if r.1 = 2 ^ 24 then 2 ^ 23 else r.1
    let e := if r.1 = 2 ^ 24 then r.2 + 1 else r.2
    (if n < 0 then 2 ^ 31 else 0) + (e + 23 + 127).toNat * 2 ^ 23 + (m - 2 ^ 23)

/-- The value of a binary32 code; a subnormal code reads as a zero of its sign (R109). -/
def f32Val (code : Nat) : Val := (floatCode 23 8 127 true (code % 2 ^ 32)).1

/-! ### Choosing a scale (R69) -/

/-- emax(fmt) of R69. -/
def emaxOf : Fmt → Int
  | .e2m1 => 2 | .e4m3 => 8 | .e5m2 => 15 | _ => 0

/-- The largest magnitude of a list of finite values, as a fraction; zero for none. -/
def amaxOf (vals : List Val) : Nat × Nat :=
  vals.foldl (fun acc v => match v with
    | .fin n d => if acc.1 * d < n.natAbs * acc.2 then (n.natAbs, d) else acc
    | _ => acc) (0, 1)

/-- Smallest grid point of E4M3 or L16 at or above a positive fraction, held in [min normal, max]: its code (R69). -/
def scaleUp (fmt : Fmt) (num den : Nat) : Nat :=
  let e := floorLog2 num den - fmt.mant
  let q := gridQuot num den e
  let n := if q.2.1 = 0 then q.1 else q.1 + 1
  let p := pow2 e
  if fmt.maxMag * p.2 < n * p.1 then maxEnc fmt false
  else if magGe n e (minNormExp fmt) then magEnc fmt false n e
  else magEnc fmt false (2 ^ fmt.mant) (minNormExp fmt - fmt.mant)

/-- A static scale as it is written: a subnormal code as the zero it is read as (R45, R48). -/
def staticScale (code : Nat) : Nat := if (codeVal .l16 code).2 then code / 2 ^ 15 % 2 * 2 ^ 15 else code

/-- choose_scale() of R69 over values that are all finite: the scale's code. `static` is the L16 code used when
`src` is set. -/
def chooseScale (vals : List Val) (fmt : Fmt) (sf : ScaleFmt) (src : Bool) (head : Nat) (static : Nat) : Nat :=
  if src then staticScale static
  else
    let am := amaxOf vals
    if am.1 = 0 then oneScale sf
    else match sf with
      | .none => 0
      | .s8 =>
        let e := floorLog2 am.1 am.2 - emaxOf fmt + head + 127
        (min (max e 0) 254).toNat
      | .e4m3 => scaleUp .e4m3 (am.1 * 2 ^ head) (am.2 * fmt.maxMag)
      | .l16 => scaleUp .l16 (am.1 * 2 ^ head) (am.2 * fmt.maxMag)

/-! ### The Ember mixer (R58) -/

/-- mix64 of R58. -/
def mix64 (z : U64) : U64 :=
  let z := (z ^^^ (z >>> 31)) * 0xC4A13D5792E60B8F#64
  let z := (z ^^^ (z >>> 29)) * 0x8B3F6A25D1C74E93#64
  z ^^^ (z >>> 32)

/-- ember of R58: the 32-bit value u. -/
def ember (seed : U64) (step tensor index : Nat) : Nat :=
  let a := mix64 (seed ^^^ 0x5A17E3C90D84B26F#64)
  let b := mix64 (a ^^^ (BitVec.ofNat 64 (step <<< 16) ||| BitVec.ofNat 64 tensor))
  let c := mix64 (b ^^^ BitVec.ofNat 64 index)
  (c >>> 32).toNat

/-! ### Mathematical operations of the Hob (R109) -/

/-- floor(sqrt(num / den)) for results below 2^k, found bit by bit from the top. -/
def isqrtQ (num den : Nat) : Nat → Nat → Nat
  | 0, acc => acc
  | k + 1, acc =>
    let c := acc + 2 ^ k
    isqrtQ num den k (if c * c * den ≤ num then c else acc)

/-- Square root of a positive fraction, rounded once by RNE to 24 significant bits. -/
def sqrtPos (num den : Nat) : Val :=
  let l := floorLog2 num den
  let h := l / 2                        -- floor, so 2^h ≤ sqrt < 2^(h+1)
  let p := pow2 (2 * (24 - h))          -- sqrt(x · 2^(2·(24−h))) lies in [2^24, 2^25)
  let n := num * p.1
  let d := den * p.2
  let r := isqrtQ n d 26 0
  let exact := r * r * d = n
  let q := r / 2
  let up := if r % 2 = 0 then false else if exact then q % 2 = 1 else true
  rneF32 (mkPow false (if up then q + 1 else q) (h - 23))

/-- SQRT: −0 stays −0, a negative value gives NaN. -/
def hobSqrt : Val → Val
  | .nan => .nan
  | .inf s => if s then .nan else .inf false
  | .zero s => .zero s
  | .fin n d => if n < 0 then .nan else sqrtPos n.natAbs d

/-- RSQRT: the exact 1 ÷ sqrt(x), rounded once. -/
def hobRsqrt : Val → Val
  | .nan => .nan
  | .inf s => if s then .nan else .zero false
  | .zero s => .inf s
  | .fin n d => if n < 0 then .nan else sqrtPos d n.natAbs

/-- 2^(1/2), 2^(1/4), … as 160-bit fixed-point fractions: root k from root k − 1. -/
def rootsOfTwo : Nat → Nat → List Nat
  | 0, _ => []
  | k + 1, c =>
    let r := isqrtQ (c * 2 ^ 160) 1 162 0
    r :: rootsOfTwo k r

/-- The product of the roots whose bit of the fraction is set, in 160-bit fixed point. -/
def expFrac : List Nat → Nat → Nat → Nat
  | [], _, acc => acc
  | r :: rs, f, acc => expFrac rs (2 * f % 2 ^ 64) (if 2 ^ 64 ≤ 2 * f then acc * r / 2 ^ 160 else acc)

/-- EXP2 (R109): the exact power rounded by RNE. The fraction of a binary32 argument of magnitude 2^−25 or more has
at most 48 bits; below that the result rounds to 1. -/
def hobExp2 : Val → Val
  | .nan => .nan
  | .inf s => if s then .zero false else .inf false
  | .zero _ => Val.ofNat 1
  | .fin n d =>
    let i := n / (d : Int)
    if 128 ≤ i then .inf false
    else if i < -140 then .zero false
    else if n.natAbs * 2 ^ 25 < d then Val.ofNat 1
    else
      let f := ((n - i * d).toNat * 2 ^ 64) / d
      if f = 0 then rneF32 (mkPow false 1 i)
      else rneF32 (mkPow false (expFrac (rootsOfTwo 50 (2 * 2 ^ 160)) f (2 ^ 160)) (i - 160))

/-- Fraction bits of log2 of m / 2^256 in [1, 2), by repeated squaring. -/
def logFrac : Nat → Nat → Nat → Nat
  | 0, _, acc => acc
  | k + 1, m, acc =>
    let m := m * m / 2 ^ 256
    if 2 ^ 257 ≤ m then logFrac k (m / 2) (2 * acc + 1) else logFrac k m (2 * acc)

/-- LOG2 (R109): the exact logarithm rounded by RNE; log2 of a zero is −Inf and of a negative value NaN. -/
def hobLog2 : Val → Val
  | .nan => .nan
  | .inf s => if s then .nan else .inf false
  | .zero _ => .inf true
  | .fin n d =>
    if n < 0 then .nan
    else
      let l := floorLog2 n.natAbs d
      let q := gridQuot n.natAbs d (l - 256)
      if q.1 = 2 ^ 256 then Val.ofInt l
      else rneF32 (mkVal (l * (2 ^ 120 : Nat) + (2 * logFrac 119 q.1 0 + 1 : Nat)) (2 ^ 120))

end Sys2Proof.Machine
end

