-- ==== Sys2Proof/Machine/RegTable.lean ====
section
/-! DEFINITION. The register tables of the spec: for every block the offsets of its registers, which bits software
writes (RW), clears by writing 1 (RW1C), which bits a soft reset clears, and the reset value (R16, R438, R440). -/

namespace Sys2Proof.Machine

/-- One row of a register table: `count` registers at base, base + stride, …; write masks and reset value. `srst` are
the counter and RW1C bits that BLK_CTL.SRST clears (R441). WO, RO and reserved bits are in no mask: a write does not
store them. -/
structure RegRow where
  base : Nat
  stride : Nat
  count : Nat
  rw : Nat
  w1c : Nat
  srst : Nat
  reset : Nat
  deriving DecidableEq, Repr

/-- Registers of the common header. -/
def commonRegs : List RegRow := [
  ⟨0x000, 8, 1, 0x0, 0x0, 0x0, 0xB1⟩,  -- BLK_ID, R440
  ⟨0x008, 8, 1, 0x0, 0x0, 0x0, 0x0⟩,  -- BLK_CAP, R440
  ⟨0x010, 8, 1, 0xD, 0x0, 0x0, 0x9⟩,  -- BLK_CTL, R440
  ⟨0x018, 8, 1, 0x0, 0x0, 0x0, 0x0⟩,  -- BLK_STS, R440
  ⟨0x020, 8, 1, 0x0, 0xFFFFFFFFFFFFFFFF, 0xFFFFFFFFFFFFFFFF, 0x0⟩,  -- EVT_CAUSE, R440
  ⟨0x028, 8, 1, 0xFFFFFFFFFFFFFFFF, 0x0, 0x0, 0x0⟩,  -- EVT_MASK, R440
  ⟨0x030, 8, 1, 0x0, 0x0, 0xFFFFFFFFFFFFFFFF, 0x0⟩,  -- EVT_COUNT, R440
  ⟨0x038, 8, 1, 0x0, 0x0, 0x0, 0x0⟩,  -- SEQ_IN, R440
  ⟨0x040, 8, 1, 0x0, 0x0, 0x0, 0x0⟩,  -- SEQ_OUT, R440
  ⟨0x048, 8, 1, 0xFFFFFFFFFFFFFFFF, 0x0, 0x0, 0x0⟩]  -- BLK_SCRATCH, R440

/-- Registers of the ring block, relative to its start. -/
def ringRegs : List RegRow := [
  ⟨0x000, 8, 1, 0xFFFFFFFFF03F, 0x0, 0x0, 0x0⟩,  -- RING_BASE, R126
  ⟨0x008, 8, 1, 0xFFFFFFFFF000, 0x0, 0x0, 0x0⟩,  -- RING_CBASE, R126
  ⟨0x010, 8, 1, 0xFFFFFFFFFF80, 0x0, 0x0, 0x0⟩,  -- RING_WATCH, R126
  ⟨0x018, 8, 1, 0xFFFFFFFFFF80, 0x0, 0x0, 0x0⟩,  -- RING_NOTIFY, R126
  ⟨0x020, 8, 1, 0x0, 0x0, 0x0, 0x0⟩,  -- RING_HEAD, R126
  ⟨0x028, 8, 1, 0x0, 0x0, 0x0, 0x0⟩,  -- RING_SEQ, R126
  ⟨0x030, 8, 1, 0x0, 0x0, 0x0, 0x4⟩,  -- RING_STS, R126
  ⟨0x038, 8, 1, 0x7, 0x0, 0x0, 0x0⟩]  -- RING_CTL, R126

/-- Registers of the MGT page. -/
def mgtRegs : List RegRow := [
  ⟨0x400, 8, 1, 0xFFFFFFFFFFC0, 0x0, 0x0, 0x0⟩,  -- MGT_JOB_DESC, R122
  ⟨0x408, 8, 1, 0x0, 0x0, 0x0, 0x0⟩,  -- MGT_JOB_CMD, R122
  ⟨0x410, 8, 1, 0x0, 0x0, 0x0, 0x1⟩,  -- MGT_JOB_STS, R122
  ⟨0x418, 8, 1, 0x0, 0x0, 0x0, 0x0⟩,  -- MGT_JOB_LIVE, R122
  ⟨0x080, 8, 1, 0x0, 0x0, 0x0, 0x200⟩,  -- DEV_STS, R424
  ⟨0x088, 8, 1, 0x0, 0x0, 0x0, 0x0⟩,  -- MGT_TEMP, R424
  ⟨0x090, 8, 1, 0x0, 0x0, 0x0, 0x0⟩,  -- MGT_PWR, R424
  ⟨0x098, 8, 1, 0xFFFF, 0x0, 0x0, 0xFA0⟩,  -- MGT_PWR_LIMIT, R424
  ⟨0x0A0, 8, 1, 0x0, 0x0, 0x0, 0x0⟩,  -- MGT_THROTTLE, R424
  ⟨0x0A8, 8, 1, 0x0, 0x0, 0x0, 0x0⟩,  -- MGT_RESET, R424
  ⟨0x0B0, 8, 1, 0x0, 0x0, 0x0, 0x0⟩]  -- MGT_BOOT_TIME, R424

/-- Registers of the TIK page. -/
def tikRegs : List RegRow := [
  ⟨0x080, 8, 1, 0x3, 0x0, 0x0, 0x0⟩,  -- TIK_CTL, R221
  ⟨0x088, 8, 1, 0xFFFFFFFF, 0x0, 0x0, 0x2134⟩,  -- TIK_PERIOD, R221
  ⟨0x090, 8, 1, 0xFFFFFFFFFF, 0x0, 0x0, 0x1000000000⟩,  -- TIK_SLEW, R221
  ⟨0x098, 8, 1, 0xFFFFFFFFFFFF, 0x0, 0x0, 0x0⟩,  -- TIK_TICK_LOAD, R221
  ⟨0x0A0, 8, 1, 0x0, 0x0, 0x0, 0x0⟩,  -- TIK_NOW, R221
  ⟨0x0A8, 8, 1, 0x0, 0x0, 0x0, 0x0⟩,  -- TIK_GTIME, R221
  ⟨0x0B0, 8, 1, 0x0, 0x0, 0x0, 0x0⟩,  -- TIK_LAST_BND, R221
  ⟨0x0B8, 8, 1, 0x0, 0x0, 0x0, 0x0⟩,  -- TIK_NEXT_BND, R221
  ⟨0x0C0, 8, 1, 0x0, 0x0, 0x0, 0x0⟩,  -- TIK_SYNC_STS, R221
  ⟨0x0C8, 8, 1, 0x0, 0x0, 0xFFFFFFFFFFFFFFFF, 0x0⟩,  -- TIK_SYNC_CNT, R221
  ⟨0x0D0, 8, 1, 0x0, 0x0, 0xFFFFFFFFFFFFFFFF, 0x0⟩,  -- TIK_OVR_CNT, R221
  ⟨0x0D8, 8, 1, 0xFFFFFFFFFFC0, 0x0, 0x0, 0x0⟩,  -- TIK_GRP_BASE, R221
  ⟨0x0E0, 8, 1, 0x0, 0x0, 0x0, 0x0⟩,  -- TIK_GRP_CMD, R221
  ⟨0x0E8, 8, 1, 0x0, 0x0, 0x0, 0x1⟩,  -- TIK_GRP_STS, R221
  ⟨0x0F0, 8, 1, 0x0, 0x0, 0x0, 0x0⟩,  -- TIK_JOB_CMD, R221
  ⟨0x0F8, 8, 1, 0x0, 0x0, 0x0, 0x1⟩,  -- TIK_JOB_STS, R221
  ⟨0x100, 8, 1, 0xFF, 0x0, 0x0, 0x0⟩,  -- TIK_GQUERY, R221
  ⟨0x108, 8, 1, 0x0, 0x100000, 0x100000, 0x0⟩,  -- TIK_GQUERY_STATE, R221
  ⟨0x110, 8, 1, 0x3F, 0x0, 0x0, 0x0⟩,  -- TIK_MBQ_PEEK, R221
  ⟨0x118, 8, 8, 0x0, 0x0, 0x0, 0x0⟩,  -- TIK_MBQ_DATA w (w = 0 to 7), R221
  ⟨0x158, 8, 1, 0x3F, 0x0, 0x0, 0x0⟩,  -- TIK_JQUERY, R221
  ⟨0x160, 8, 1, 0x0, 0x0, 0x0, 0x0⟩]  -- TIK_JQUERY_STATE, R221

/-- Registers of the SNP page. -/
def snpRegs : List RegRow := [
  ⟨0x080, 8, 1, 0xFFFFFFFC07, 0x0, 0x0, 0x200010000⟩,  -- SNP_CTL, R395
  ⟨0x088, 8, 1, 0x1FFF0FFF1FFF, 0x0, 0x0, 0x0⟩,  -- SNP_PARTNER, R395
  ⟨0x090, 8, 1, 0xFFFFFFFFFFFF, 0x0, 0x0, 0x0⟩,  -- SNP_EXT, R395
  ⟨0x098, 8, 1, 0xFFFFFFFFF000, 0x0, 0x0, 0x0⟩,  -- SNP_BITMAP, R395
  ⟨0x0A0, 8, 1, 0xFFFFFFFF00FF, 0x0, 0x0, 0x10⟩,  -- SNP_STAGE, R395
  ⟨0x0A8, 8, 1, 0xFFFFFFFFF000, 0x0, 0x0, 0x0⟩,  -- SNP_DIGEST, R395
  ⟨0x0B0, 8, 2, 0xFFFFFFFF0000, 0x0, 0x0, 0x0⟩,  -- SNP_KEEP n (n = 0, 1), R395
  ⟨0x0C0, 8, 2, 0xFFFFFFFF0000, 0x0, 0x0, 0x0⟩,  -- SNP_RX n (n = 0, 1), R395
  ⟨0x0D0, 8, 1, 0xFFFFFFFF, 0x0, 0x0, 0x0⟩,  -- SNP_RXSZ, R395
  ⟨0x0D8, 8, 2, 0xFFFFFFFFFFFF0000, 0x0, 0x0, 0x0⟩,  -- SNP_SINK n (n = 0, 1), R395
  ⟨0x0E8, 8, 1, 0xFFFFFFFF, 0x0, 0x0, 0x0⟩,  -- SNP_SINKSZ, R395
  ⟨0x0F0, 8, 1, 0x0, 0x0, 0x0, 0x0⟩,  -- SNP_CMD, R395
  ⟨0x0F8, 8, 1, 0x0, 0x10, 0x10, 0x1⟩,  -- SNP_STS, R395
  ⟨0x100, 8, 1, 0x0, 0x0, 0x0, 0x0⟩,  -- SNP_PROG, R395
  ⟨0x108, 8, 1, 0x0, 0x0, 0xFFFFFFFFFFFFFFFF, 0x0⟩,  -- SNP_STALL, R395
  ⟨0x110, 8, 1, 0xFFFFFFFF, 0x0, 0x0, 0xCF850⟩,  -- SNP_CFG, R395
  ⟨0x118, 8, 1, 0x0, 0x0, 0x0, 0x0⟩,  -- SNP_NOTICE, R395
  ⟨0x120, 8, 1, 0x0, 0x0, 0x0, 0x0⟩,  -- SNP_HALT, R395
  ⟨0x128, 8, 4, 0xFFFFFFFFFFFFFFFF, 0x0, 0x0, 0x0⟩,  -- SNP_CHAIN w (w = 0 to 3), R395
  ⟨0x148, 8, 1, 0xFFFFFFFFFFFFFFFF, 0x0, 0x0, 0x0⟩,  -- SNP_CKSEQ, R395
  ⟨0x150, 8, 1, 0x0, 0x0, 0xFFFFFFFF00000000, 0x0⟩,  -- SNP_EMBER, R395
  ⟨0x158, 8, 1, 0xFFFFFFFFFFFFFFFF, 0x0, 0x0, 0x0⟩]  -- SNP_HALT_JOBS, R395

/-- Registers of the SEC page. -/
def secRegs : List RegRow := [
  ⟨0x080, 8, 1, 0x0, 0x0, 0x0, 0x0⟩,  -- SEC_BOOT, R413
  ⟨0x088, 8, 4, 0x0, 0x0, 0x0, 0x0⟩,  -- SEC_MEAS w (w = 0 to 3), R413
  ⟨0x0A8, 8, 1, 0x0, 0x0, 0x0, 0x0⟩,  -- SEC_SERIAL, R413
  ⟨0x0B0, 8, 1, 0x0, 0x0, 0x0, 0x0⟩,  -- SEC_CONFIG, R413
  ⟨0x0B8, 8, 1, 0xFFFFFFFFFFC0, 0x0, 0x0, 0x0⟩,  -- SEC_ARG, R413
  ⟨0x0C0, 8, 1, 0x0, 0x0, 0x0, 0x0⟩,  -- SEC_CMD, R413
  ⟨0x0C8, 8, 1, 0x0, 0x0, 0x0, 0x1⟩]  -- SEC_STS, R413

/-- Registers of the EXD page. -/
def exdRegs : List RegRow := [
  ⟨0x080, 8, 1, 0xFFFFFFFFF000, 0x0, 0x0, 0x0⟩,  -- EXD_TAB_BASE, R305
  ⟨0x088, 8, 1, 0x0, 0x0, 0x0, 0x0⟩,  -- EXD_CMD, R305
  ⟨0x090, 8, 1, 0x0, 0x0, 0x0, 0x1⟩,  -- EXD_STS, R305
  ⟨0x098, 8, 1, 0xFFFF, 0x0, 0x0, 0x0⟩,  -- EXD_QUERY, R305
  ⟨0x0A0, 8, 4, 0x0, 0x0, 0x0, 0x0⟩,  -- EXD_QUERY_W w (w = 0 to 3), R305
  ⟨0x0C0, 8, 1, 0x0, 0x0, 0xFFFFFFFFFFFFFFFF, 0x0⟩]  -- EXD_CACHE, R305

/-- Registers of the RTR page. -/
def rtrRegs : List RegRow := [
  ⟨0x080, 8, 1, 0x0, 0x0, 0xFFFFFFFFFFFFFFFF, 0x0⟩,  -- RTR_PLACED, R306
  ⟨0x088, 8, 1, 0x0, 0x0, 0xFFFFFFFFFFFFFFFF, 0x0⟩,  -- RTR_OVF, R306
  ⟨0x090, 8, 1, 0x0, 0x0, 0xFFFFFFFFFFFFFFFF, 0x0⟩,  -- RTR_DROP, R306
  ⟨0x098, 8, 1, 0x0, 0x0, 0xFFFFFFFFFFFFFFFF, 0x0⟩,  -- RTR_PASS, R306
  ⟨0x0A0, 8, 1, 0x0, 0x0, 0xFFFFFFFFFFFFFFFF, 0x0⟩,  -- RTR_EMPTY, R306
  ⟨0x0A8, 8, 1, 0x3F, 0x0, 0x0, 0x0⟩,  -- RTR_AQUERY, R306
  ⟨0x0B0, 8, 1, 0x0, 0x0, 0x0, 0x0⟩,  -- RTR_AQUERY_STATE, R306
  ⟨0x0B8, 8, 1, 0x0, 0x0, 0x0, 0x0⟩,  -- RTR_AQUERY_CACHE, R306
  ⟨0x0C0, 8, 1, 0x0, 0x80, 0x80, 0x0⟩]  -- RTR_ERR, R306

/-- Registers of the CHM page. -/
def chmRegs : List RegRow := [
  ⟨0x080, 8, 1, 0x3FFF, 0x0, 0x0, 0x0⟩,  -- CHM_ID, R276
  ⟨0x088, 8, 1, 0xFFFFFFFFF000, 0x0, 0x0, 0x0⟩,  -- CHM_RT_BASE, R276
  ⟨0x090, 8, 1, 0xFFFFFFFFF000, 0x0, 0x0, 0x0⟩,  -- CHM_MG_BASE, R276
  ⟨0x098, 8, 1, 0x0, 0x0, 0x0, 0x0⟩,  -- CHM_RT_CMD, R276
  ⟨0x0A0, 8, 1, 0x0, 0x0, 0x0, 0x1⟩,  -- CHM_RT_STS, R276
  ⟨0x0A8, 8, 1, 0xFFFFFFFFFFFFFFFF, 0x0, 0x0, 0x10000000CF850⟩,  -- CHM_CFG, R276
  ⟨0x0B0, 8, 1, 0x0, 0x0, 0xFFFFFFFFFFFFFFFF, 0x0⟩,  -- CHM_DISCARD, R276
  ⟨0x0B8, 8, 1, 0x0, 0x0, 0xFFFFFFFFFFFFFFFF, 0x0⟩,  -- CHM_DISCARD2, R276
  ⟨0x0C0, 8, 1, 0x0, 0x0, 0xFFFFFFFF1FFF0000, 0x0⟩,  -- CHM_ACC, R276
  ⟨0x0C8, 8, 1, 0x1FFF, 0x0, 0x0, 0x0⟩,  -- CHM_TQUERY, R276
  ⟨0x0D0, 8, 1, 0x0, 0x0, 0x0, 0x0⟩,  -- CHM_TQUERY_STATE, R276
  ⟨0x0D8, 8, 1, 0x0, 0x0, 0x0, 0x0⟩,  -- CHM_TQUERY_CLOSE, R276
  ⟨0x800, 8, 1, 0xFFFFFFFFFFFFFFFF, 0x0, 0x0, 0x4000000010000⟩,  -- CHM_ARB_CFG, R276
  ⟨0x808, 8, 128, 0x0, 0xFFFFFFFF, 0xFFFFFF00FFFFFFFF, 0x0⟩]  -- CHM_ARB_ACC i (i = 0 to 127), R276

/-- Registers of the CHN page of a hearth die. -/
def chnHRegs : List RegRow := [
  ⟨0x080, 8, 1, 0xFFFFFFFFF03F, 0x0, 0x0, 0x0⟩,  -- CHN_SOOT_BASE, R246
  ⟨0x088, 8, 1, 0xFFFFFFFF00000000, 0x0, 0x0, 0x0⟩,  -- CHN_SOOT_PTR, R246
  ⟨0x090, 8, 1, 0x0, 0x0, 0xFFFFFFFFFFFFFFFF, 0x0⟩,  -- CHN_SOOT_CNT, R246
  ⟨0x098, 8, 1, 0x0, 0x0, 0xFFFFFFFFFFFFFFFF, 0x0⟩,  -- CHN_STALE_CNT, R246
  ⟨0x0A0, 8, 1, 0xF1F, 0x0, 0x0, 0x0⟩,  -- CHN_RXQUERY, R246
  ⟨0x0A8, 8, 1, 0x0, 0x0, 0x0, 0x0⟩,  -- CHN_RXQUERY_STATE, R246
  ⟨0x800, 8, 256, 0xFFFF007F, 0x0, 0x0, 0x0⟩]  -- CHN_EP e (e = 8k + x: stove k, endpoint x), R246

/-- Registers of the CHN page of the mantel. -/
def chnMRegs : List RegRow := [
  ⟨0x080, 8, 1, 0xFFFFFFFFFFFFFFFF, 0x0, 0x0, 0xCF85000014C08⟩,  -- CHN_CFG, R246
  ⟨0x088, 8, 1, 0xFFF0FFF, 0x0, 0x0, 0x3FF0000⟩,  -- CHN_FLOW_RANGE, R246
  ⟨0x090, 8, 1, 0x0, 0x0, 0xFFFFFFFF1FFF0000, 0x0⟩,  -- CHN_FLOW_CNT, R246
  ⟨0x098, 8, 1, 0x0, 0x0, 0x0, 0x0⟩,  -- CHN_FABORT, R246
  ⟨0x0A0, 8, 1, 0xFFF, 0x0, 0x0, 0x0⟩,  -- CHN_FQUERY, R246
  ⟨0x0A8, 8, 1, 0x0, 0x0, 0x0, 0x0⟩,  -- CHN_FQUERY_STATE, R246
  ⟨0x0B0, 8, 1, 0x0, 0x0, 0x0, 0x0⟩,  -- CHN_FQUERY_TAIL, R246
  ⟨0x0B8, 8, 1, 0x0, 0x0, 0x0, 0x0⟩,  -- CHN_FQUERY_HEAD, R246
  ⟨0x0C0, 8, 1, 0x0, 0x0, 0x0, 0x0⟩,  -- CHN_FQUERY_ASH, R246
  ⟨0x0C8, 8, 1, 0x0, 0x0, 0x0, 0x0⟩,  -- CHN_FQUERY_HDR0, R246
  ⟨0x0D0, 8, 1, 0x0, 0x0, 0x0, 0x0⟩,  -- CHN_FQUERY_HDR1, R246
  ⟨0x0D8, 8, 1, 0x0, 0x0, 0x0, 0x0⟩]  -- CHN_FQUERY_PEER, R246

/-- Registers of the GST page. -/
def gstRegs : List RegRow := [
  ⟨0x080, 8, 1, 0x0, 0x0, 0x0, 0x0⟩,  -- GST_STS, R414
  ⟨0x088, 8, 1, 0x0, 0x0, 0x0, 0x0⟩,  -- GST_CTL, R414
  ⟨0x090, 8, 1, 0xFFFF, 0x0, 0x0, 0x10⟩,  -- GST_FW_CFG, R414
  ⟨0x098, 8, 1, 0x0, 0x0, 0xFFFFFFFF, 0x0⟩,  -- GST_FW_CNT, R414
  ⟨0x0A0, 8, 1, 0x0, 0x0, 0x0, 0x0⟩,  -- GST_FW_CLR, R414
  ⟨0x0A8, 8, 1, 0x0, 0x8000000000000000, 0x8000000000000000, 0x0⟩,  -- GST_FW_LOG, R414
  ⟨0x0B0, 8, 1, 0xFFF0FFF, 0x0, 0x0, 0x0⟩,  -- GST_CHN, R414
  ⟨0x0B8, 8, 1, 0x1FFF1FFF, 0x0, 0x0, 0x0⟩,  -- GST_RED, R414
  ⟨0x100, 32, 16, 0xFFFFFFFFFFFF, 0x0, 0x0, 0x0⟩,  -- GST_WIN_BASE w (w = 0 to 15), R414
  ⟨0x108, 32, 16, 0xFFFFFFFFFFFF, 0x0, 0x0, 0x0⟩,  -- GST_WIN_LIMIT w, R414
  ⟨0x110, 32, 16, 0x1FF, 0x0, 0x0, 0x0⟩,  -- GST_WIN_CTL w, R414
  ⟨0x118, 32, 16, 0xFFFFFFFFFFFFFFFF, 0x0, 0x0, 0x0⟩]  -- GST_WIN_JOBS w, R414

/-- Registers of the URK page. -/
def urkRegs : List RegRow := [
  ⟨0x080, 8, 1, 0x1, 0x0, 0x0, 0x1⟩,  -- URK_CTL, R373
  ⟨0x088, 8, 1, 0x0, 0x0, 0x0, 0x0⟩,  -- URK_STS, R373
  ⟨0x090, 8, 1, 0x0, 0x0, 0x0, 0x0⟩,  -- URK_OWN, R373
  ⟨0x098, 8, 1, 0xFFFFFFFFFFFFFFFF, 0x0, 0x0, 0x0⟩,  -- URK_JOBS, R373
  ⟨0x0A0, 8, 4, 0xFFFFFFFFFFFFFFFF, 0x0, 0x0, 0x0⟩,  -- URK_STOVES w (w = 0 to 3), R373
  ⟨0x0C0, 8, 1, 0xFFFFFFFFF03F, 0x0, 0x0, 0x0⟩,  -- URK_EVT_BASE, R373
  ⟨0x0C8, 8, 1, 0xFFFFFFFF00000000, 0x0, 0x0, 0x0⟩,  -- URK_EVT_PTR, R373
  ⟨0x0D0, 8, 1, 0xFFFFFFFFFF80, 0x0, 0x0, 0x0⟩,  -- URK_EVT_NOTIFY, R373
  ⟨0x0D8, 8, 1, 0x0, 0x0, 0xFFFFFFFFFFFFFFFF, 0x0⟩,  -- URK_EVT_CNT, R373
  ⟨0x0E0, 8, 1, 0xFFFFFFFF, 0x0, 0x0, 0xCF850⟩,  -- URK_CFG, R373
  ⟨0x0E8, 8, 1, 0x0, 0x0, 0x0, 0x0⟩,  -- URK_DIR, R373
  ⟨0x0F0, 8, 1, 0x0, 0x0, 0xFFFFFFFFFFFFFFFF, 0x0⟩,  -- URK_SNP, R373
  ⟨0x0F8, 8, 1, 0x0, 0x0, 0xFFFFFFFF, 0x0⟩,  -- URK_DENY, R373
  ⟨0x100, 8, 1, 0x0, 0x0, 0xFFFFFFFFFFFFFFFF, 0x0⟩,  -- URK_FLUSH, R373
  ⟨0x108, 8, 1, 0x0, 0x0, 0xFFFFFFFFFFFFFFFF, 0x0⟩,  -- URK_RX_BYTES, R373
  ⟨0x110, 8, 1, 0x0, 0x0, 0xFFFFFFFFFFFFFFFF, 0x0⟩]  -- URK_TX_BYTES, R373

/-- Registers of the FLU page. -/
def fluRegs : List RegRow := [
  ⟨0x080, 8, 1, 0x3, 0x0, 0x0, 0x0⟩,  -- FLU_CTL, R277
  ⟨0x088, 8, 1, 0x0, 0x0, 0x0, 0x0⟩,  -- FLU_STS, R277
  ⟨0x090, 8, 1, 0x0, 0x0, 0xFFFFFFFFFFFFFFFF, 0x0⟩,  -- FLU_FEC, R277
  ⟨0x098, 8, 1, 0x0, 0x0, 0xFFFFFFFFFFFFFFFF, 0x0⟩,  -- FLU_RETRY, R277
  ⟨0x0A0, 8, 1, 0x0, 0x0, 0xFFFFFFFFFFFFFFFF, 0x0⟩,  -- FLU_TX_BYTES, R277
  ⟨0x0A8, 8, 1, 0x0, 0x0, 0xFFFFFFFFFFFFFFFF, 0x0⟩,  -- FLU_RX_BYTES, R277
  ⟨0x0B0, 8, 1, 0xFFFFFFFFFFFFFFFF, 0x0, 0x0, 0x1000000010000⟩,  -- FLU_ARB_CFG, R277
  ⟨0x0B8, 8, 1, 0x0, 0xFFFFFFFF, 0xFFFFFF00FFFFFFFF, 0x0⟩]  -- FLU_ARB_VC, R277

/-- Registers of the DBG page. -/
def dbgRegs : List RegRow := [
  ⟨0x080, 8, 1, 0x0, 0x0, 0x0, 0x2⟩,  -- DBG_DIE, R453
  ⟨0x088, 8, 1, 0x0, 0x0, 0xFFFFFFFF, 0x0⟩]  -- DBG_UNUSED, R453

/-- Registers of the DBG page of the mantel, beside the common DBG registers. -/
def dbgMRegs : List RegRow := [
  ⟨0x100, 8, 1, 0xFFFFFFFFFFFFFFFF, 0x0, 0x0, 0x1000000010000⟩,  -- DBG_ARB_CFG, R452
  ⟨0x108, 8, 16, 0x0, 0xFFFFFFFF, 0xFFFFFF00FFFFFFFF, 0x0⟩,  -- DBG_ARB_LINK i, R452
  ⟨0x188, 8, 1, 0x0, 0x0, 0x0, 0x0⟩]  -- DBG_LINK_STS, R452

/-- Registers of the HRT page. -/
def hrtRegs : List RegRow := [
  ⟨0x080, 8, 1, 0xFFFFFFFFFFFFFFFF, 0x0, 0x0, 0x1000000010000⟩,  -- HRT_ARB_CFG, R451
  ⟨0x088, 8, 6, 0x0, 0xFFFFFFFF, 0xFFFFFF00FFFFFFFF, 0x0⟩,  -- HRT_ARB_LINK i (i = 0 to 5), R451
  ⟨0x0B8, 8, 1, 0x0, 0x0, 0x0, 0x0⟩,  -- HRT_LINK_STS, R451
  ⟨0x0C0, 8, 1, 0x0, 0x0, 0x0, 0x0⟩]  -- HRT_TEMP, R451

/-- Registers of the BLW page. -/
def blwRegs : List RegRow := [
  ⟨0x080, 8, 1, 0x1, 0x0, 0x0, 0x1⟩,  -- BLW_MODE, R193
  ⟨0x088, 8, 1, 0xFFFFFFFF, 0x0, 0x0, 0x10000⟩,  -- BLW_GATE_CFG, R193
  ⟨0x090, 8, 1, 0xFFFFFFFFF000, 0x0, 0x0, 0x0⟩,  -- BLW_WREG_BASE, R193
  ⟨0x098, 8, 1, 0x0, 0x0, 0x0, 0x0⟩,  -- BLW_WREG_CMD, R193
  ⟨0x0A0, 8, 1, 0x0, 0x0, 0x0, 0x1⟩,  -- BLW_WREG_STS, R193
  ⟨0x0A8, 8, 1, 0x0, 0x0, 0xFFFFFFFFFFFFFFFF, 0x0⟩,  -- BLW_SLICES, R193
  ⟨0x0B0, 8, 1, 0x0, 0x0, 0xFFFFFFFFFFFFFFFF, 0x0⟩,  -- BLW_PARAMS, R193
  ⟨0x0B8, 8, 1, 0x0, 0x0, 0xFFFFFFFFFFFFFFFF, 0x0⟩,  -- BLW_GATE_STAT, R193
  ⟨0x0C0, 8, 1, 0x0, 0x0, 0x0, 0x0⟩,  -- BLW_GATE_PEND, R193
  ⟨0x0C8, 8, 1, 0x3FFF, 0x0, 0x0, 0x0⟩,  -- BLW_QUERY, R193
  ⟨0x0D0, 8, 1, 0x0, 0x0, 0x0, 0x0⟩]  -- BLW_QUERY_STATE, R193

/-- Registers of the WBX page. -/
def wbxRegs : List RegRow := [
  ⟨0x800, 8, 64, 0xFFFFFFE00001, 0x0, 0x0, 0x0⟩,  -- WBX_XLT_ROOT j (j = 0 to 63), R38
  ⟨0xA00, 8, 1, 0x0, 0x0, 0x0, 0x0⟩,  -- WBX_XLT_INV, R38
  ⟨0xA08, 8, 1, 0x0, 0x0, 0x0, 0x1⟩,  -- WBX_XLT_INV_STS, R38
  ⟨0x080, 8, 1, 0x0, 0x0, 0x0, 0x0⟩,  -- WBX_HBM_CAP, R347
  ⟨0x088, 8, 1, 0x7FFFF, 0x0, 0x0, 0x0⟩,  -- WBX_HBM_LOC, R347
  ⟨0x090, 8, 1, 0x0, 0x0, 0x0, 0x1⟩,  -- WBX_HBM_LOC_STS, R347
  ⟨0x098, 8, 1, 0xFFFFFFFFF07F, 0x0, 0x0, 0x0⟩,  -- WBX_ERR_BASE, R347
  ⟨0x0A0, 8, 1, 0xFFFFFFFF00000000, 0x0, 0x0, 0x0⟩,  -- WBX_ERR_PTR, R347
  ⟨0x0A8, 8, 1, 0x0, 0x0, 0xFFFFFFFFFFFFFFFF, 0x0⟩,  -- WBX_ERR_CNT, R347
  ⟨0x0B0, 8, 1, 0x0, 0x0, 0x0, 0x0⟩,  -- WBX_CE_STS, R347
  ⟨0x0B8, 8, 1, 0x0, 0x0, 0xFFFFFFFFFFFFFFFF, 0x0⟩,  -- WBX_CE_BYTES, R347
  ⟨0xB00, 8, 1, 0xFFFFFFFFFFFFFFFF, 0x0, 0x0, 0x1000000010000⟩,  -- WBX_ARB_CFG, R452
  ⟨0xB08, 8, 12, 0x0, 0xFFFFFFFF, 0xFFFFFF00FFFFFFFF, 0x0⟩,  -- WBX_ARB_LINK i, R452
  ⟨0xB68, 8, 1, 0x0, 0x0, 0x0, 0x0⟩]  -- WBX_LINK_STS, R452

/-- Registers of the SLM page. -/
def slmRegs : List RegRow := [
  ⟨0x080, 8, 1, 0xF, 0x0, 0x0, 0x0⟩,  -- SLM_SPLIT, R349
  ⟨0x088, 8, 1, 0x0, 0x0, 0x0, 0x1⟩,  -- SLM_SPLIT_STS, R349
  ⟨0x090, 8, 1, 0x1, 0x0, 0x0, 0x0⟩,  -- SLM_CFG, R349
  ⟨0x098, 8, 1, 0x0, 0x0, 0xFFFFFFFFFFFFFFFF, 0x0⟩,  -- SLM_HITS, R349
  ⟨0x0A0, 8, 1, 0x0, 0x0, 0xFFFFFFFFFFFFFFFF, 0x0⟩,  -- SLM_MISSES, R349
  ⟨0x0A8, 8, 1, 0x0, 0x0, 0xFFFFFFFFFFFFFFFF, 0x0⟩,  -- SLM_ECC, R349
  ⟨0x0B0, 8, 1, 0xFFFFFFFFFFFFFFFF, 0x0, 0x0, 0x1000000000000⟩,  -- SLM_ARB_CFG, R349
  ⟨0x0B8, 8, 32, 0x0, 0xFFFFFFFF, 0xFFFFFF00FFFFFFFF, 0x0⟩]  -- SLM_ARB_BANK b (b = 0 to 31), R349

/-- Registers of the HBM page. -/
def hbmRegs : List RegRow := [
  ⟨0x080, 8, 1, 0x0, 0x0, 0x0, 0x0⟩,  -- HBM_TRAIN, R348
  ⟨0x088, 8, 1, 0x0, 0x0, 0xFFFFFFFFFFFFFFFF, 0x0⟩,  -- HBM_ECC, R348
  ⟨0x090, 8, 1, 0xFFFFFFFF, 0x0, 0xFFFFFFFF00000000, 0x0⟩,  -- HBM_SCRUB, R348
  ⟨0x098, 8, 1, 0x0, 0x0, 0xFFFFFFFFFFFFFFFF, 0x0⟩,  -- HBM_POISON, R348
  ⟨0x0A0, 8, 1, 0xFFFFFFFFFFFFFFFF, 0x0, 0x0, 0x1000000000000⟩,  -- HBM_ARB_CFG, R348
  ⟨0x0A8, 8, 32, 0x0, 0xFFFFFFFF, 0xFFFFFF00FFFFFFFF, 0x0⟩]  -- HBM_ARB_PC q (q = 0 to 31), R348

/-- Registers of the STV page. -/
def stvRegs : List RegRow := [
  ⟨0x080, 8, 1, 0x0, 0x0, 0x0, 0x0⟩,  -- STV_STATE, R120
  ⟨0x088, 8, 1, 0x1, 0x0, 0x0, 0x1⟩,  -- GRT_MODE, R120
  ⟨0x090, 8, 1, 0x0, 0x0, 0xFFFFFFFFFFFFFFFF, 0x0⟩,  -- GRT_ACTIVE, R120
  ⟨0x098, 8, 1, 0x0, 0x0, 0xFFFFFFFFFFFFFFFF, 0x0⟩,  -- GRT_STALL, R120
  ⟨0x0A0, 8, 1, 0x0, 0x0, 0xFFFFFFFFFFFFFFFF, 0x0⟩,  -- GRT_REPLAY, R120
  ⟨0x0A8, 8, 1, 0x0, 0x0, 0x0, 0x0⟩,  -- GRT_ACC, R120
  ⟨0x0B0, 8, 1, 0x0, 0x0, 0x0, 0x0⟩,  -- DMP_FSLOT_OWN0, R120
  ⟨0x0B8, 8, 1, 0x0, 0x0, 0x0, 0x0⟩,  -- DMP_FSLOT_OWN1, R120
  ⟨0x0C0, 8, 1, 0x0, 0x0, 0x0, 0x0⟩,  -- DMP_FSLOT_CLR, R120
  ⟨0x0C8, 8, 1, 0x0, 0x0, 0xFFFFFFFFFFFFFFFF, 0x0⟩,  -- HOB_ACTIVE, R120
  ⟨0x0D0, 8, 1, 0x0, 0x0, 0x0, 0x0⟩,  -- STV_SCOREBOARD, R120
  ⟨0x0D8, 8, 1, 0x0, 0x0, 0xFFFFFFFFFFFFFFFF, 0x0⟩,  -- STV_ECC, R120
  ⟨0x0E0, 8, 1, 0x0, 0x8000000000000000, 0x8000000000000000, 0x0⟩,  -- STV_ECC_ADDR, R120
  ⟨0x0E8, 8, 1, 0x0, 0x0, 0xFFFFFFFFFFFFFFFF, 0x0⟩,  -- STV_BANK_WAIT, R120
  ⟨0x290, 8, 1, 0xFFFFFFFF, 0x0, 0x0, 0x4E20⟩,  -- STV_PREEMPT, R143
  ⟨0x298, 8, 1, 0x0, 0x0, 0xFFFFFFFFFFFFFFFF, 0x0⟩,  -- STV_PREEMPT_CNT, R143
  ⟨0x200, 8, 1, 0xFFFFFFFFFFFFFFFF, 0x0, 0x0, 0x100000000000⟩,  -- STV_ARB_CFG, R150
  ⟨0x208, 8, 16, 0x0, 0xFFFFFFFF, 0xFFFFFF00FFFFFFFF, 0x0⟩,  -- STV_ARB_BANK i (i = 0 to 15), R150
  ⟨0x288, 8, 1, 0x0, 0xFFFFFFFF, 0xFFFFFF00FFFFFFFF, 0x0⟩]  -- STV_ARB_OPND, R150

end Sys2Proof.Machine
end

