-- ==== Sys2Proof/Machine/State.lean ====
section
/-! DEFINITION. The state of the block: its command queue, memory, registers and every engine's and unit's own state;
and the state right after reset. All of it is plain data. -/

namespace Sys2Proof.Machine

/-! ### Memory and registers -/

/-- Memory: bytes by device physical address (R32), strictly rising and no byte 0 listed (an unlisted byte reads 0,
R422); and the poisoned granules (32-byte scratchpad words, 128-byte lines elsewhere; R118, R337), strictly rising. -/
structure Mem where
  cells : List Host.Cell
  poison : List Nat
  deriving DecidableEq, Repr

/-- Numeric counters of a command (R56, R77); they stop at their largest values only when the record is written. -/
structure Counts where
  satIn : Nat := 0
  flushIn : Nat := 0
  nonfinIn : Nat := 0
  satOut : Nat := 0
  flushOut : Nat := 0
  nonfinOut : Nat := 0
  zeroOut : Nat := 0
  fgReplay : Nat := 0
  fgOver : Bool := false
  deriving DecidableEq, Repr

/-- Where a command that has been read stands (R84, R127, R144). -/
inductive Phase where
  /-- Read, not started. -/
  | read
  /-- WAIT_LINE waits (R133): physical address, threshold, deadline. -/
  | waitLine (pa : Nat) (thr : U64) (deadline : Option Nat)
  /-- The first attempt of a tile passed FG_LIMIT; the replay has not run (R72). -/
  | replay
  /-- The replay also passed FG_LIMIT; its result is released by FG_OVER (R76). -/
  | over
  /-- Its read is at a version gate or has passed it (R188 to R190). -/
  | gated
  /-- OPT_OPEN waits for its region (R191). -/
  | optOpen
  /-- UPD_ARM or CHM_BUCKET accepted, its arm not complete. -/
  | armed
  /-- Waiting on a channel: open, space, credit, close. -/
  | channel (ctx : Nat)
  /-- Waiting on the fabric: a remote read or a PERMUTE round. -/
  | fabric (tag : Nat)
  /-- Waiting on a stoker arm to end. -/
  | stoker (arm : Nat)
  /-- Completed; its record is not yet written. -/
  | done
  /-- Its record has been sent and is not yet visible (R145). -/
  | recorded
  deriving DecidableEq, Repr

/-- The micro-batch stamp a released command carries (R209, R231): micro-batch, direction, step, version. -/
structure Stamp where
  mbid : Nat
  dir : Nat
  step : Nat
  ver : Nat
  deriving DecidableEq, Repr

/-- A command read from a ring whose record has not been written. `idx` is its command count (R126); `reads` and `writes`
are the scratchpad regions it has pending while it waits (R117), and `slots` the function slots that it names (R108); `stamp` is set when TIK released it (R209); `log2` is LOG2N of
the enabling under which it was read, whose completion ring takes its record (R126). -/
structure Entry where
  idx : Nat
  desc : Desc
  phase : Phase
  status : Nat := 0
  counts : Counts := ⟨0, 0, 0, 0, 0, 0, 0, 0, false⟩
  tStart : Nat := 0
  tEnd : Nat := 0
  evseq : Nat := 0
  preempts : Nat := 0
  reads : Nat := 0
  writes : Nat := 0
  slots : Nat := 0
  stamp : Option Stamp := none
  log2 : Nat := 4
  deriving DecidableEq, Repr

/-- What a ring holds beside its registers: TAIL as last read, the commands between DONE and HEAD, and whether the ring
stands at a cheap point, of which job and live-mask index (R136); the job of the last command completed; and whether the live mask
of the point is still to be read, its line being recalled from a host (R354); and whether its stove started a command of this ring last (R139). -/
structure RingRun where
  ring : RingId
  tail : Nat
  entries : List Entry
  cheap : Option (Nat × Nat)
  lastJob : Nat
  maskDue : Bool
  turn : Bool
  deriving DecidableEq, Repr

/-- A register write held until its condition ends (R123, R126, R343 …): key, writing port, page, offset, value; and, of a command
that has begun and waits for memory, the status register whose DONE it has cleared. -/
structure HeldWrite where
  key : Nat
  port : Nat
  page : Nat
  off : Nat
  val : U64
  sts : Option Nat
  deriving DecidableEq, Repr

/-- A line that an SLM slice caches (R342): its way, and whether it is dirty. -/
structure SlmLine where
  line : Nat
  way : Nat
  dirty : Bool
  deriving DecidableEq, Repr

/-- The cache of an SLM slice (R342, R349): its lines, and the accesses that hit and missed. -/
structure SlmCache where
  lines : List SlmLine
  hits : Nat
  misses : Nat
  deriving DecidableEq, Repr, Inhabited

/-- A memory error that no read has met (R118, R336, R337): the address it lies at, whether it lies in a word of an SLM slice
rather than in the HBM burst, the failing symbol, and whether it can be corrected. -/
structure Upset where
  addr : Nat
  inSlm : Bool
  sym : Nat
  bad : Bool
  deriving DecidableEq, Repr

/-- A job that exists (R121, R123, R204, R217, R218): its descriptor's addresses, its own copy of the recipe table
(sixteen entries of two words), step counter, and schedule flags. `start` is the tick a START names, `step0` the step at
which it was started, `stopX` the step a STOP names, `stopB` tick and GTIME of its last stop boundary, `stopEnding` while commands
released before that boundary have not completed, and `lastTicks` the last ticks of its latest steps, newest first. -/
structure Job where
  num : Nat
  seed : U64
  recipe : List (U64 × U64)
  health : Nat
  livetab : Nat
  savetab : Nat
  step : Nat
  start : Option Nat
  step0 : Nat
  running : Bool
  aborted : Bool
  stopX : Option Nat
  stopB : Nat × Nat
  stopEnding : Bool
  lastTicks : List (Nat × Nat)
  evaluated : List Nat
  zeroWait : List Nat
  deriving DecidableEq, Repr

/-- A valid translation some die's cache holds (R37, R39): job, VA[47:21], entry word. -/
structure XltEntry where
  job : Nat
  vpn : Nat
  entry : U64
  deriving DecidableEq, Repr

/-- Translation: roots in force (R38, R39), cached translations, the invalidation in progress, and the job that a DESTROY in progress
takes apart (R124). -/
structure Xlt where
  roots : List (Nat × U64)
  cache : List XltEntry
  inv : Option U64
  destroy : Option Nat
  deriving DecidableEq, Repr

/-! ### Urrek (R350 to R373) -/

/-- One line of the coherence directory (R354): held modified, and by which ports. -/
structure DirEntry where
  line : Nat
  modified : Bool
  ports : List Nat
  deriving DecidableEq, Repr

/-- A snoop sent to a host and not answered (R354, R355); `acked` when the host has answered and the write-back that its answer
crossed still waits for the snapshot rule (R378). -/
structure Snoop where
  line : Nat
  port : Nat
  share : Bool
  deadline : Nat
  acked : Bool
  deriving DecidableEq, Repr

/-- What waits at a home slice for a line whose snoop is outstanding, in order of arrival (R354): a device write, the poison
mark of one (R337), a checkpoint's sink write (R391), an atomic, a host's request with its OP code; or, in its port's order behind
earlier requests (R363), an access to a register, with the OP and the packet that it answers, if a packet made it. -/
inductive HomeReq where
  | write (addr : Nat) (bytes : List Byte)
  | poison (gran : Nat)
  | sink (addr : Nat) (bytes : List Byte)
  | atomic (addr : Nat) (op : Nat) (operand : U64)
  | host (op : Nat) (m : UrkPkt)
  | reg (port page off : Nat) (v : U64) (ask : Option (Nat × UrkPkt))
  deriving DecidableEq, Repr

/-- A request waiting at its home slice, the command that made it, and the job whose translation it used (R39). A device write to a
host or guest window that finds no free tag waits in the same queue (R352). -/
structure HomeWait where
  line : Nat
  req : HomeReq
  cmd : Option (RingId × Nat)
  job : Option Nat
  deriving DecidableEq, Repr

/-- A device request to a host (port 0 to 3) or to a guest (port 4 + site) that is not answered (R352, R356, R406): tag,
OP, physical address, bytes, the ring and command count that made it, the job whose translation it used (R39), and whether it is
a write of the running checkpoint to its sink (R391). -/
structure DevReq where
  port : Nat
  tag : Nat
  op : Nat
  addr : Nat
  len : Nat
  owner : Option (RingId × Nat)
  job : Option Nat
  sink : Bool
  deriving DecidableEq, Repr

/-- Bytes of a host or guest window that a response has brought and no access has used yet (R356, R406). -/
structure HostData where
  addr : Nat
  len : Nat
  poison : Bool
  status : Nat
  deriving DecidableEq, Repr

/-- A host line that the stokers' caches hold (R356). -/
structure HostLine where
  addr : Nat
  own : Bool
  dirty : Bool
  deriving DecidableEq, Repr

/-- A foreign write received and not yet visible (R364). -/
structure Foreign where
  port : Nat
  srcid : Nat
  addr : Nat
  data : List Byte
  poison : Bool
  deriving DecidableEq, Repr

/-- One run of bytes that a stream buffer holds (R366): the bytes read ahead from `base`, and the lines among them that were
poisoned (R337). -/
structure Stream where
  port : Nat
  srcid : Nat
  base : Nat
  data : List Byte
  marks : List Nat
  deriving DecidableEq, Repr

/-- One link layer (R248, R350): next frame number to send, next expected, frames sent and not acknowledged (their bytes),
how often the oldest of them has been replayed, and whether the link runs in LEGACY mode (R269, R277). -/
structure Link where
  txNext : Nat
  rxNext : Nat
  replay : List (Nat × Nat)
  replays : Nat
  legacy : Bool
  deriving DecidableEq, Repr

/-- What the Urrek ports hold beside their registers. `owner` is the owning port (R359); `attached` lists the ports whose
adapter has answered since reset (R351); `nextTag` numbers device requests. -/
structure Urk where
  owner : Option Nat
  attached : List Nat
  dir : List DirEntry
  snoops : List Snoop
  home : List HomeWait
  reqs : List DevReq
  got : List HostData
  lines : List HostLine
  foreign : List Foreign
  streams : List Stream
  links : List (Nat × Link)
  nextTag : Nat
  deriving DecidableEq, Repr

/-- A message that has left the device: on a Urrek port with its OP, a NAK for a frame, on a flue port behind its fabric
header, or to a guest site; a frame sent again; the training exchange of a flue port. -/
inductive OutMsg where
  | urk (op : Nat) (m : UrkPkt)
  | urkNak (port seq : Nat)
  /-- A frame of a page's link sent again (R248, R350). -/
  | replay (page seq : Nat)
  /-- What a flue port sends when it trains: CHM_ID and its port number (R250). -/
  | train (p chmId : Nat)
  | flue (p : Nat) (h : FabHdr) (m : FabMsg)
  | flueNak (p seq : Nat)
  | guest (site : Nat) (p : NetPkt)
  deriving DecidableEq, Repr

/-! ### The tick and the pipeline (R194 to R218) -/

/-- An entry of a micro-batch queue (R210): its stamp, flow context, payload address and tensor descriptor; `recEnd` is the count
behind its record, up to which consumption moves HEAD; `used` once a slot has taken it; `gone` once its flow has closed. -/
structure MbEntry where
  stamp : Stamp
  flow : Nat
  payload : Nat
  desc : List U64
  recEnd : Nat
  used : Bool := false
  gone : Bool := false
  deriving DecidableEq, Repr

/-- A slot released to a member (R208): tick of release, step S, operation, micro-batch, commands, the member's list, how
many were read and how many records written, when its first command may be read, whether its input descriptor has been
written, and the latest T_END among its records (R196). -/
structure RelSlot where
  tick : Nat
  step : Nat
  op : Nat
  mbid : Nat
  count : Nat
  list : Nat
  read : Nat
  recs : Nat
  ready : Nat
  fed : Bool
  tEnd : Nat
  deriving DecidableEq, Repr

/-- A member of a bound group: its stove, its release queue, oldest first (R208), and of the slots that have completed since the last
boundary the tick of release and the latest T_END (R196). -/
structure Member where
  stove : Nat
  queue : List RelSlot
  left : List (Nat × Nat)
  deriving DecidableEq, Repr

/-- A bound stage group (R202, R203, R205): its descriptor's fields, its copy of the schedule table, slot pointer, slip
and FAULT. `fresh` holds until the first boundary of a run. -/
structure Group where
  num : Nat
  job : Nat
  ring : Nat
  lag1 : Bool
  slipLimit : Nat
  abort : Bool
  table : List (U64 × U64)
  inoff : Nat
  lstride : Nat
  members : List Member
  ptr : Nat
  fresh : Bool
  slip : Nat
  fault : Bool
  pastLimit : Bool
  deriving DecidableEq, Repr

/-! ### Snapshots (R374 to R394) -/

/-- One extent of the snapshot set (R374). -/
structure Extent where
  pa : Nat
  ngran : Nat
  ember : Bool
  ckpt : Bool
  deriving DecidableEq, Repr

/-- How far a checkpoint has come (R391). -/
inductive CkPhase where
  | firstRead | writing | flush | commit
  deriving DecidableEq, Repr

/-- The active snapshot: its job; whether it serves an ember copy, whose headers may be written, and a checkpoint, which
SNP_CMD may have asked for; the ember slot, SEQ and sink slot; step, tick and GTIME of its cut; whether it is a halt cut; the
granules captured, those promoted in order, the digests of CKPT granules, CKPT granules staged until the sink may be written, PREV, and the result of a failure. -/
structure SnapRun where
  job : Nat
  ember : Bool
  hdr : Bool
  ckpt : Bool
  cmd : Bool
  eslot : Nat
  seq : Nat
  kslot : Nat
  step : Nat
  tick : Nat
  bnd : Nat
  halt : Bool
  captured : List Nat
  promoted : List Nat
  digests : List (Nat × List Byte)
  staged : List (Nat × List Byte)
  phase : CkPhase
  prev : List Byte
  bad : Option Nat
  deriving DecidableEq, Repr

/-- A write that the snapshot rule holds (R378): the command, its line's granule, and since when. -/
structure Stalled where
  cmd : Instr
  gran : Nat
  since : Nat
  deriving DecidableEq, Repr

/-- What the snapshot engine holds beside its registers: the loaded set, the active snapshot, stalled writers in order of
arrival, DONE messages (step, device, result), the pending halt (its tick), whether a halt stops the job of SNP_CTL, a
checkpoint waiting for a step boundary or a stop, a RECV in progress (granules written), step and GTIME of the last eligible
boundary, and the step that each keep slot holds a complete copy of. -/
structure Snap where
  set : List Extent
  run : Option SnapRun
  stalled : List Stalled
  dones : List (Nat × Nat × Nat)
  halt : Option Nat
  haltStop : Bool
  ckptWait : Bool
  recv : Option Nat
  elig : Option (Nat × Nat)
  copies : List (Nat × Nat)
  deriving DecidableEq, Repr

/-! ### Stoves (R84 to R120, R137 to R142) -/

/-- An element as the Grate holds it: code value, scale value, decoded value (R50), counting class and poison. -/
structure Elem where
  raw : Val
  sc : Val
  val : Val
  cls : InCls
  p : Bool
  deriving DecidableEq, Repr, Inhabited

/-- An accumulator entry's sum: exact integer (R64) or A32 value (R63). -/
inductive AccV where
  | int (n : Int)
  | a32 (v : Val)
  deriving DecidableEq, Repr, Inhabited

/-- An accumulator entry, and whether a poisoned word entered it (R118). -/
structure AccEnt where
  v : AccV
  p : Bool
  deriving DecidableEq, Repr, Inhabited

/-- A WS accumulator set or the OS accumulators (R90 to R93): live, owner, whether its sums are on the integer path, and
the entries by row and column; an entry not listed is +0. -/
structure AccSet where
  live : Bool
  job : Nat
  intPath : Bool
  rows : List (List AccEnt)
  deriving DecidableEq, Repr

/-- The stationary tile that a stove holds (R99): what the command that loaded it named, and its elements, row k by column,
with their format and block size along k, and the words of the descriptor that it was loaded from (R140). -/
structure HeldTile where
  job : Nat
  stat : Nat
  k0 : Nat
  n0 : Nat
  kt : Nat
  nt : Nat
  fmt : Fmt
  block : Nat
  perCh : Bool
  desc : List U64
  elems : List (List Elem)
  deriving DecidableEq, Repr

/-- A loaded function slot: the job that loaded it and the words of its image, table f then table f′ (R106, R108). -/
structure FSlot where
  slot : Nat
  job : Nat
  image : List U64
  deriving DecidableEq, Repr

/-- A ring's save image (R137 to R141): its slot, the regions saved, whether it is full, and the resume state that the slot's
bytes 0x10 to 0xFF hold in a layout the spec does not give: the accumulators' owners, the held tile, and the scratchpad words
of the saved regions that were poisoned. -/
structure SaveImg where
  ring : Nat
  slot : Nat
  mask : U64
  full : Bool
  job : Nat
  sets : List (Bool × Nat × Bool)
  held : Option HeldTile
  marks : List Nat
  deriving DecidableEq, Repr

/-- What a stove holds beside its registers and scratchpad: a preemption under way (lower ring, higher ring, deadline), the
save images in order of suspension, oldest first, the held tile, the accumulators, the function slots, and the slots still to be
emptied with the commands that must complete first (R108). -/
structure Stove where
  num : Nat
  pre : Option (Nat × Nat × Nat)
  saved : List SaveImg
  held : Option HeldTile
  set0 : AccSet
  set1 : AccSet
  os : AccSet
  slots : List FSlot
  clr : List (Nat × List (RingId × Nat))
  deriving DecidableEq, Repr

/-! ### The Chimney (R254 to R273) -/

/-- One element of a chunk being accumulated (R262): the exact sum in units of 2^−140 and three flags. -/
structure CElem where
  acc : Int
  nan : Bool
  pinf : Bool
  ninf : Bool
  deriving DecidableEq, Repr, Inhabited

/-- A chunk being accumulated (R262, R457); `roster` lists the contributor indices taken. -/
structure Chunk where
  num : Nat
  elems : List CElem
  n : Nat
  roster : List Nat
  data : Bool
  poison : Bool
  deriving DecidableEq, Repr

/-- A chunk's partial of an ARRIVAL bucket (R269): 256 binary32 codes, roster, n, and whether it was forwarded or closed. -/
structure Part where
  chunk : Nat
  vals : List Nat
  roster : List Nat
  n : Nat
  sent : Bool
  data : Bool
  poison : Bool
  deriving DecidableEq, Repr

/-- A bucket armed for a step (R255 to R268): the command, the bucket descriptor's words, its home map (FIRST, DEV), close
tick, roles, indices this device used, chunks open, units closed, LOCAL_BLW units that wait for their binding, units
delivered, indices missing from a roster here, chunks not full, summaries sent and received, indices missing in them, 
result chunks written here, GTIME of the close tick once its close has been done, and result chunks whose data is written but
not yet visible, so that their RINFO entries are still to be written (R266). -/
structure Arm where
  tag : Nat
  step : Nat
  job : Nat
  ring : RingId
  idx : Nat
  seq : Nat
  words : List U64
  hm : List (Nat × Nat)
  close : Nat
  roles : Nat
  used : List Nat
  chunks : List Chunk
  closed : List Nat
  wait : List (Nat × List ResultMsg)
  delivered : List Nat
  miss : List Nat
  notFull : Nat
  sumSent : Bool
  sums : List Nat
  missed : List Nat
  poisoned : Bool
  recv : List Nat
  parts : List Part
  ticked : Option Nat
  due : List ResultMsg
  deriving DecidableEq, Repr

/-- A CHM_PERMUTE round running on this device (R273): its command, fields, bytes landed, pieces in the staging area
(destination, offset, length, poison), DONEs taken, and when its timer ends. -/
structure PermRound where
  ring : RingId
  idx : Nat
  job : Nat
  round : Nat
  stage : Nat
  stagesz : Nat
  npart : Nat
  inbytes : Nat
  got : Nat
  pieces : List (Nat × Nat × Nat × Bool)
  dones : Nat
  excess : Bool
  deadline : Option Nat
  deriving DecidableEq, Repr

/-- A remote read sent (R272), and the answer that has come, while its bytes are not yet written. -/
structure RReadWait where
  tag : Nat
  ring : RingId
  idx : Nat
  dst : Nat
  len : Nat
  rsp : Option RReadRsp
  deriving DecidableEq, Repr

/-- A multicast packet written here whose bytes are not all visible yet (R270): job, address of the word at NLINE, payload bytes,
and the physical pieces written. -/
structure McastDue where
  job : Nat
  word : Nat
  len : Nat
  pieces : List (Nat × Nat)
  deriving DecidableEq, Repr

/-- What the Chimney holds beside its registers and route tables: arms, oldest first; tag and step of the ARRIVAL arms that have
completed here (R269); the running PERMUTE round; remote reads outstanding; multicast packets not yet visible. -/
structure Chm where
  arms : List Arm
  past : List (Nat × Nat)
  perm : Option PermRound
  rreads : List RReadWait
  nextTag : Nat
  mcasts : List McastDue
  deriving DecidableEq, Repr

/-! ### The Bellows and the version gates (R177 to R193) -/

/-- An accepted UPD_ARM (R181): step, STREAMS mode, the command, the words of the update parameter block, and the first fault
met by an owned slice with the number of its event (R183). -/
structure UpdArm where
  step : Nat
  streams : Bool
  ring : RingId
  idx : Nat
  seq : Nat
  params : List U64
  status : Nat
  evseq : Nat
  deriving DecidableEq, Repr

/-- A slice whose order writes wait until the target slot has no readers (R189): an owned slice with its step, or a gathered
one. -/
inductive SlicePend where
  | own (slice step : Nat)
  | gather (m : GatherMsg)
  deriving DecidableEq, Repr

/-- A loaded weight region (R177 to R189): index, descriptor words, the tensor descriptors read at LOAD (MASTER, MOM1, MOM2R,
ORDA0, ORDB0, ORDA1, ORDB1; four words each), committed version, arm, open flag, slice credits, readers of both slots,
slices that wait to be written, and gathered slices written whose writes are not yet visible (R271). -/
structure Region where
  index : Nat
  words : List U64
  descs : List (List U64)
  cv : Nat
  arm : Option UpdArm
  isOpen : Bool
  credits : Nat
  readers0 : Nat
  readers1 : Nat
  pend : List SlicePend
  unseen : Nat
  deriving DecidableEq, Repr

/-- A read parked at the gate unit of a die (R190): the read, when its wait ends, and whether a commit makes the gate check it
again (R187). -/
structure Parked where
  die : Nat
  read : GateRead
  deadline : Option Nat
  due : Bool
  deriving DecidableEq, Repr

/-- What the Bellows and their gates hold: regions; gated reads on their way to the gate, passed with their slot, and parked in
order of arrival; result slices handed to each die's Bellows. -/
structure Blw where
  regions : List Region
  asks : List GateRead
  passed : List (GateRead × Nat)
  parked : List Parked
  slices : List (Nat × SliceMsg)
  deriving DecidableEq, Repr

/-! ### Message channels (R222 to R246) -/

/-- A receive ring posted or open on a stove (R226): slot, endpoint, job of the posting command, address of its descriptor, the
descriptor's words, the physical pieces of ring, tail line, head line, landing area and ash pit, and the receiving context
when open. -/
structure RxRing where
  stove : Nat
  slot : Nat
  ep : Nat
  job : Nat
  addr : Nat
  words : List U64
  ring : List (Nat × Nat)
  tline : Nat
  hline : Nat
  land : List (Nat × Nat)
  ash : List (Nat × Nat)
  flow : Option Nat
  deriving DecidableEq, Repr

/-- A message held in an ash pit (R238): its offset, its bytes, those of its bulk part, and whether its descriptor is rebased. -/
structure AshMsg where
  off : Nat
  size : Nat
  bulk : Nat
  brel : Bool
  deriving DecidableEq, Repr

/-- The receiving side of a flow (R227 to R243): context, stove and slot of its ring, endpoint address, job, job of the opening command, epoch at OPEN, peer,
TAIL and HEAD, MSEQ of the last DATA record, BADHEAD, whether arrivals wait for the tail line, the ash pit's counts and
messages, landing buffers taken and the record ends that name the used ones, in an MBQ-bound ring its records with
whether each is consumed, the messages placed, spilled or refused, TAIL as the tail line last showed it, the ring as it was when the
flow closed as stale (R242), kept until the sender's side has ended, and the bytes come so far of a message that a guest sends and
that is refused as stale. -/
structure RFlow where
  ctx : Nat
  stove : Nat
  slot : Nat
  target : Nat
  job : Nat
  ojob : Nat
  epoch : Nat
  peerDev : Nat
  peerNode : Nat
  peerCtx : Nat
  tail : Nat
  head : Nat
  mseq : Nat
  bad : Bool
  due : Bool
  aTail : Nat
  aHead : Nat
  ash : List AshMsg
  bulks : Nat
  bulkEnds : List Nat
  recs : List (Nat × Bool)
  taken : Nat
  shown : Nat
  shut : Option RxRing
  stale : Option (List Byte)
  deriving DecidableEq, Repr

/-- A spilled message as its sender keeps it (R238, R240, R246): MSEQ, since when it waits, its stall deadline and whether the stall
was reported, and the two words of its header. -/
structure Spill where
  mseq : Nat
  since : Nat
  stallAt : Nat
  stalled : Bool
  h0 : U64
  h1 : U64
  deriving DecidableEq, Repr

/-- Where the sending side of a flow stands (R227, R246). -/
inductive FlowSt where
  | opening | isOpen | closing
  deriving DecidableEq, Repr, Inhabited

/-- The sending side of a flow: handle, job and stove of the opening command, endpoint address and epoch, peer, the command that
waits on it, result block and answer deadline of the OPEN, negotiated sizes, the receiver's ash pit size and landing
buffers, TAIL and the last HEAD received, the ash pit's TAIL and drain credit, next MSEQ, landing buffers taken and the
record ends that name the used ones, when the oldest waiting message began to wait with its spill and stall deadlines and
whether its stall was reported, spilled messages, the reason of a close that waits for
the ash pit, and the status and event number that the send under way completes with. -/
structure SFlow where
  ctx : Nat
  job : Nat
  stove : Nat
  target : Nat
  epoch : Nat
  peerDev : Nat
  peerNode : Nat
  peerCtx : Nat
  st : FlowSt
  cmd : Option (RingId × Nat)
  result : Nat
  deadline : Nat
  maxmsg : Nat
  maxbulk : Nat
  log2 : Nat
  mbq : Bool
  ash : Nat
  nb : Nat
  tail : Nat
  head : Nat
  aTail : Nat
  aHead : Nat
  mseq : Nat
  bulks : Nat
  bulkEnds : List Nat
  since : Option Nat
  ovfAt : Nat
  stallAt : Nat
  stalled : Bool
  spilled : List Spill
  reason : Option Nat
  res : Nat × Nat
  deriving DecidableEq, Repr

/-- A flow that a guest opened (R407), as its guest port sees it: site, the guest's context, the receiving context once accepted,
endpoint address, whether its waiting message's stall was reported, and whether the receiving side has closed it as stale, so that what
the guest had sent before it learned of it is refused the same way (R242). -/
structure GFlow where
  site : Nat
  ctx : Nat
  rctx : Option Nat
  job : Nat
  target : Nat
  stalled : Bool
  shut : Bool
  deriving DecidableEq, Repr

/-- What the channels hold beside the endpoints' registers. -/
structure Chn where
  rings : List RxRing
  rflows : List RFlow
  sflows : List SFlow
  gflows : List GFlow
  deriving DecidableEq, Repr

/-! ### The tick (R194 to R201) -/

/-- What TIK holds beside its registers: the last boundary of this run and the next one once fixed; GTIME of the write that set
RUN and of one that cleared SYNC_EN while arming; target of the arming edge; target of the first edge in the window of the
last boundary and of the next; whether a window applies to either; whether the last one has been decided; SLEW and DLY in
force for the last boundary and SLEW for the next; sampling times of stray edges; close of the previous window; jobs whose
step counter advanced at the last boundary; the micro-batch queues by group (R210), oldest entry first, and entries that wait
for room in theirs, in order of delivery (R211); TICK when RUN was set (R201). -/
structure Tik where
  bnd : Option Nat
  next : Option Nat
  runAt : Nat
  offAt : Option Nat
  armed : Option Nat
  lock : Option Nat
  early : Option Nat
  win : Bool
  nwin : Bool
  decided : Bool
  slew : Nat
  nslew : Nat
  dly : Nat
  strays : List Nat
  prevClose : Nat
  stepped : List Nat
  mbqs : List (Nat × List MbEntry)
  mbwait : List (Nat × MbEntry)
  load : Nat
  deriving DecidableEq, Repr

/-! ### Stokers (R278 to R304, R323 to R328) -/

/-- An expert cache entry (R293): its key (directory entry, version, whether part B), whether it is pinned, when it was last
used, and the command that will write its release line, once emitted. -/
structure CacheEnt where
  key : Option (Nat × Nat × Bool)
  pinned : Bool
  used : Nat
  rel : Option (RingId × Nat)
  deriving DecidableEq, Repr, Inhabited

/-- A fetch of a pass (R294): expert, cache entry, and the command counts of its reads on CRING; none left once it has completed. -/
structure Fetch where
  expert : Nat
  entry : Nat
  reads : List Nat
  waiting : Bool
  deriving DecidableEq, Repr

/-- A routing pass in progress (R285, R295): direction, step, micro-batch, version, used experts, how many of them have had their
commands emitted, and its fetches. -/
structure Pass where
  back : Bool
  step : Nat
  mbid : Nat
  ver : Nat
  used : List Nat
  emitted : Nat
  fetches : List Fetch
  deriving DecidableEq, Repr

/-- A routing arm (R280 to R283): number, stoker page, the ring command that armed it, job, descriptor words, both program
headers, cache, a counter that orders uses, commands placed but not yet written to their rings, the pass in progress, the
last pass (direction, micro-batch, step), the forward passes that have written records for each step, count banks sent,
the RT_DISARM that waits, and the physical addresses of its trigger words. -/
structure RtArm where
  num : Nat
  page : Nat
  job : Nat
  words : List U64
  fprog : List U64
  bprog : List U64
  cache : List CacheEnt
  clock : Nat
  out : List (RingId × Desc)
  pass : Option Pass
  last : Option (Bool × Nat × Nat)
  written : List (Nat × Nat)
  sends : List (Nat × Nat)
  disarm : Option (RingId × Nat)
  trig : List Nat
  deriving DecidableEq, Repr

/-- A walk arm (R323, R324): its words as armed, the commands still to be put into rings, whether a pass runs, the DISARM that waits
for it, and the addresses of its trigger words. -/
structure KvArm where
  num : Nat
  page : Nat
  job : Nat
  words : List U64
  out : List (RingId × Desc)
  busy : Bool
  disarm : Option (RingId × Nat)
  trig : List Nat
  deriving DecidableEq, Repr

/-- What the stokers and the expert directory hold: directory entries by index (four words each, R291); arms; the arms whose
triggers have completed, in that order, as stoker page, walk or routing, and number (R283); done words still to be written after
a failed pass, as stoker page, job, address of the sync words and members (R304). -/
structure Stk where
  exd : List (Nat × List U64)
  rts : List RtArm
  kvs : List KvArm
  ready : List (Nat × Bool × Nat)
  dones : List (Nat × Nat × Nat × Nat)
  deriving DecidableEq, Repr

/-! ### Guest ports (R402 to R411) -/

/-- A guest port's link: bytes of a packet continued in later flits (R404), the credits it holds toward the guest for VC 0
to 5, and the guest's requests that it has reissued and that are not answered: TAG and source node (R406). -/
structure Guest where
  site : Nat
  stream : List Byte
  credits : List Nat
  asked : List (Nat × Nat)
  waiting : List NetPkt
  deriving DecidableEq, Repr

/-! ### Power, pins, debug and management (R415 to R437) -/

/-- The input supply (R420, R436): on, removed, or tripped by heat. -/
inductive Supply where
  | on | off | tripped
  deriving DecidableEq, Repr, Inhabited

/-- What the module's pins, regulator, throttle, debug port and management bus hold. `vin` is the input voltage last seen in mV;
`reset` RESET_N low; `frozen` the freeze in force and `freezeAt` the announced freeze time;
`therm` THERM_N low; `hot` stacks whose queues grant one burst in two, `refresh` stacks with doubled refresh; `die` the status
code each site reports; `demand`, `under`, `overs` the power throttle's demand and its counts of milliseconds; `ir` the debug port's
instruction register (R429; EXTEST 0x00 drives the pins, Test-Logic-Reset holds IDCODE 0x01, log entry 8), `dbgAddr`, `bsr` and `byp` its data
registers; `tdo` and `smb` the last answers of the debug port and of the management bus; `badStraps` the sites whose straps have
been found bad, which nothing clears (R22). -/
structure Pwr where
  supply : Supply
  vin : Nat
  reset : Bool
  frozen : Bool
  freezeAt : Option Nat
  therm : Bool
  hot : List Nat
  refresh : List Nat
  die : List Nat
  demand : Nat
  under : Nat
  overs : Nat
  dbgAddr : U64
  bsr : Nat
  ir : Nat
  trst : Bool
  byp : Bool
  tdo : Option Nat
  smb : Option Nat
  badStraps : List Nat
  deriving DecidableEq, Repr

/-- One bundle slot of the boot flash as read (R397): header and body; `readErr` when a read of it meets an error. -/
structure FlashSlot where
  slot : Nat
  kind : Nat
  bundle : Bundle
  deriving DecidableEq, Repr

/-- The security block's own state: what the fuses hold (serial number, guest sites ordered, fused minimums, vendor key hash),
the boot flash, and, since the last bring-up, the measurement log and MEAS (R397 to R400, R413). -/
structure Sec where
  serial : U64
  ordered : Nat
  fwMin : Nat
  cfgMin : Nat
  keyHash : List Byte
  flash : List FlashSlot
  log : List (List Byte)
  meas : List Byte
  deriving DecidableEq, Repr

/-- Everything the block holds but its queue, its memory and its security state: GTIME, the model's own counter of free
values, registers and their banked copies (R449), rings, held register writes, jobs, translation, Urrek, the snapshot engine,
scratchpad regions whose writes go to a save image (R141), the SLM caches (R342), memory errors that
no read has met yet (R118, R336), the next record number of each woodbox's error log (R339), bound stage groups
(R205), the Chimney's copies of the
unicast and multicast tables by index (R251), stoves, Chimney, Bellows, channels, tick, stokers, guest links, power, messages in flight inside the
device, and messages that have left it. -/
structure Dev where
  gtime : Nat
  free : Nat
  regs : List (Nat × U64)
  bank : List (Nat × U64)
  rings : List RingRun
  held : List HeldWrite
  jobs : List Job
  xlt : Xlt
  urk : Urk
  snp : Snap
  redirect : List (Nat × Nat)
  slm : List SlmCache
  upsets : List Upset
  errSeq : List Nat
  bound : List Group
  routes : List (Nat × Nat)
  groups : List (Nat × Nat)
  stoves : List Stove
  chm : Chm
  blw : Blw
  chn : Chn
  tik : Tik
  stk : Stk
  guests : List Guest
  pwr : Pwr
  net : List FabMsg
  out : List OutMsg
  deriving DecidableEq, Repr

/-- The state of the block: the waiting commands, first in first out; memory; every unit. -/
structure State where
  pending : List Instr
  mem : Mem
  dev : Dev
  sec : Sec
  deriving DecidableEq, Repr

/-- No request, snoop, line or stream. -/
def Urk.empty : Urk := ⟨none, [], [], [], [], [], [], [], [], [], [], 0⟩

/-- No set loaded, no snapshot, no halt. -/
def Snap.empty : Snap := ⟨[], none, [], [], none, false, false, none, none, []⟩

/-- An accumulator set that holds no sums. -/
def AccSet.empty : AccSet := ⟨false, 0, false, []⟩

/-- A stove that holds nothing. -/
def Stove.empty (n : Nat) : Stove := ⟨n, none, [], none, AccSet.empty, AccSet.empty, AccSet.empty, [], []⟩

/-- No arm, round or read. -/
def Chm.empty : Chm := ⟨[], [], none, [], 0, []⟩

/-- A cache that holds nothing. -/
def SlmCache.empty : SlmCache := ⟨[], 0, 0⟩

/-- No boundary fixed. -/
def Tik.start : Tik :=
  ⟨none, none, 0, none, none, none, none, false, false, false, 0, 0, 0x10, [], 0, [], [], [], 0⟩

/-- The module powered at 48 V with RESET_N just released: every die reports 0x2 (R24, R422). -/
def Pwr.start : Pwr where
  supply := .on
  vin := 48000
  reset := false
  frozen := false
  freezeAt := none
  therm := false
  hot := []
  refresh := []
  die := List.replicate 15 2
  demand := 0
  under := 0
  overs := 0
  dbgAddr := 0
  bsr := 0
  ir := 0x01
  trst := false
  byp := false
  tdo := none
  smb := none
  badStraps := []

/-- Fuses and flash of the modelled module, with nothing measured yet (log entry 6). -/
def Sec.initial : Sec := ⟨0, 0, 0, 0, List.replicate 32 0, [], [], List.replicate 32 0⟩

/-- Every unit right after the release of RESET_N and before READY (R16, R450): GTIME 0, every register at its reset value,
nothing held, nothing in flight. -/
def Dev.reset : Dev where
  gtime := 0
  free := 0
  regs := []
  bank := []
  rings := []
  held := []
  jobs := []
  xlt := ⟨[], [], none, none⟩
  urk := Urk.empty
  snp := Snap.empty
  redirect := []
  slm := List.replicate 4 SlmCache.empty
  upsets := []
  errSeq := [0, 0, 0, 0]
  bound := []
  routes := []
  groups := []
  stoves := []
  chm := Chm.empty
  blw := ⟨[], [], [], [], []⟩
  chn := ⟨[], [], [], []⟩
  tik := Tik.start
  stk := ⟨[], [], [], [], []⟩
  guests := [⟨0, [], List.replicate 6 32, [], []⟩, ⟨1, [], List.replicate 6 32, [], []⟩]
  pwr := Pwr.start
  net := []
  out := []

/-- The block right after reset: no command waits, memory lists nothing. -/
def State.reset : State where
  pending := []
  mem := ⟨[], []⟩
  dev := Dev.reset
  sec := Sec.initial

/-- Why the block stops with a fault. The spec reports every error through status codes, events and records, so no
command raises a fault and the type has no constructor: safe. -/
inductive Fault where
  deriving DecidableEq, Repr

/-- Why a command has no meaning. -/
inductive Refusal where
  /-- Raised by an arm of `exec` whose command is not modelled yet, under its mnemonic; safe. -/
  | notModelled (mnemonic : String)
  deriving DecidableEq, Repr

end Sys2Proof.Machine
end

