-- ==== Sys2Proof/Machine/World.lean ====
section
/-! DEFINITION. What one command works on: the units, the memory it found, and the log of what it has stored; reading
through the log, and committing it. Registers by page and offset. -/

namespace Sys2Proof.Machine

/-! ### Memory -/

/-- One change of memory: bytes from an address on, a granule marked poisoned or clean, or a range made zero and clean. -/
inductive MemOp where
  | bytes (addr : Nat) (bs : List Byte)
  | poison (g : Nat)
  | cleanse (g : Nat)
  | wipe (lo hi : Nat)
  deriving DecidableEq, Repr

/-- What a command works on: the units as they stand, memory as the command found it, and its changes, newest first. -/
structure World where
  dev : Dev
  mem : Mem
  log : List MemOp
  deriving DecidableEq, Repr

/-- The byte listed for an address; an unlisted byte reads 0 (R422). -/
def cellGet (cs : List Host.Cell) (a : Nat) : Byte := (cs.lookup a).getD 0

/-- Insert a byte before the first higher address. -/
def cellIns (a : Nat) (b : Byte) : List Host.Cell → List Host.Cell
  | [] => [(a, b)]
  | c :: cs => if a < c.1 then (a, b) :: c :: cs else c :: cellIns a b cs

/-- Store a byte; the byte 0 is not listed. -/
def cellSet (cs : List Host.Cell) (a : Nat) (b : Byte) : List Host.Cell :=
  let cs' := cs.filter fun c => c.1 ≠ a
  if b = 0 then cs' else cellIns a b cs'

/-- Store consecutive bytes. -/
def cellsPut (cs : List Host.Cell) (a : Nat) : List Byte → List Host.Cell
  | [] => cs
  | b :: bs => cellsPut (cellSet cs a b) (a + 1) bs

/-- Insert a granule into a strictly rising list, without repeats. -/
def markIns (g : Nat) (gs : List Nat) : List Nat := insNat g (gs.filter fun x => x ≠ g)

/-- One change made to memory. -/
def memApply (m : Mem) : MemOp → Mem
  | .bytes a bs => { m with cells := cellsPut m.cells a bs }
  | .poison g => { m with poison := markIns g m.poison }
  | .cleanse g => { m with poison := m.poison.filter fun x => x ≠ g }
  | .wipe lo hi =>
    { cells := m.cells.filter fun c => !(lo ≤ c.1 && c.1 < hi)
      poison := m.poison.filter fun g => !(lo ≤ g && g < hi) }

/-- Memory after a log of changes, the newest first in the list. -/
def memCommit (m : Mem) (log : List MemOp) : Mem := log.foldr (fun op m => memApply m op) m

/-- The byte the newest change in the log gives an address, if any does. -/
def logByte : List MemOp → Nat → Option Byte
  | [], _ => none
  | .bytes a bs :: l, x => if a ≤ x ∧ x < a + bs.length then bs[x - a]? else logByte l x
  | .wipe lo hi :: l, x => if lo ≤ x ∧ x < hi then some 0 else logByte l x
  | .poison _ :: l, x => logByte l x
  | .cleanse _ :: l, x => logByte l x

/-- Whether the newest change in the log leaves a granule poisoned. -/
def logPoison : List MemOp → Nat → Option Bool
  | [], _ => none
  | .bytes _ _ :: l, g => logPoison l g
  | .wipe lo hi :: l, g => if lo ≤ g ∧ g < hi then some false else logPoison l g
  | .poison h :: l, g => if g = h then some true else logPoison l g
  | .cleanse h :: l, g => if g = h then some false else logPoison l g

/-- The byte at a physical address as the command sees it. -/
def World.byte (w : World) (a : Nat) : Byte := (logByte w.log a).getD (cellGet w.mem.cells a)

/-- n bytes from a physical address on. -/
def World.bytes (w : World) (a n : Nat) : List Byte := (List.range n).map fun i => w.byte (a + i)

/-- The little-endian word of 8 bytes at a physical address. -/
def World.word (w : World) (a : Nat) : U64 := leWord (w.bytes a 8)

/-- Whether a granule is poisoned. -/
def World.poisoned (w : World) (g : Nat) : Bool := (logPoison w.log g).getD (w.mem.poison.contains g)

/-- Add a change to the log. -/
def World.push (w : World) (op : MemOp) : World := { w with log := op :: w.log }

/-! ### Address map (R32) -/

def hbmEnd : Nat := 0x00F000000000
def slmBase : Nat := 0x010000000000
def slmEnd : Nat := 0x010020000000
def spBase : Nat := 0x011000000000
def spEnd : Nat := 0x011040000000
def regBase : Nat := 0x012000000000
def regEnd : Nat := 0x012010000000
def guestBase : Nat := 0x013000000000
def guestEnd : Nat := 0x014000000000
def hostBase : Nat := 0x800000000000

/-- First address of stove s's scratchpad (R32). -/
def spAddr (s : Nat) : Nat := spBase + s * 0x400000

/-- Bytes of the ECC granule an address lies in: 32-byte scratchpad words, 128-byte lines elsewhere (R118, R337). -/
def granSize (a : Nat) : Nat := if spBase ≤ a ∧ a < spEnd then 32 else 128

/-- The granule an address lies in. -/
def granOf (a : Nat) : Nat := a / granSize a * granSize a

/-- The granules that [a, a + n) touches; an address range of one kind of memory. -/
def granules (a n : Nat) : List Nat :=
  if n = 0 then []
  else
    let z := granSize a
    upTo (a / z) ((a + n - 1) / z - a / z + 1) |>.map (· * z)

/-- The 128-byte line of an address. -/
def lineOf (a : Nat) : Nat := a / 128 * 128

/-- The lines [a, a + n) touches. -/
def lines (a n : Nat) : List Nat :=
  if n = 0 then [] else upTo (a / 128) ((a + n - 1) / 128 - a / 128 + 1) |>.map (· * 128)

/-! ### Registers -/

/-- The blocks that serve register pages (R439). -/
inductive Blk where
  | mgt | tik | snp | sec | exd | rtr | chm | chnM | gst | urk | flu | stk | dbg | dbgM | hrt | blw | chnH | wbx | slm
  | hbm | stv
  deriving DecidableEq, Repr, Inhabited

/-- Block and instance of a populated on-package page (R439). -/
def pageInfo (p : Nat) : Option (Blk × Nat) :=
  if p < 0x1000 then
    if p < 0x10 then
      match p with
      | 0 => some (.mgt, 0) | 1 => some (.tik, 0) | 2 => some (.snp, 0) | 3 => some (.sec, 0)
      | 4 => some (.exd, 0) | 5 => some (.rtr, 0) | 6 => some (.chm, 0) | 7 => some (.chnM, 8)
      | 8 => some (.gst, 0) | 9 => some (.gst, 1) | _ => none
    else if p < 0x14 then some (.urk, p - 0x10)
    else if 0x20 ≤ p ∧ p < 0x32 then some (.flu, p - 0x20)
    else if 0x40 ≤ p ∧ p < 0x50 then some (.stk, p - 0x40)
    else if 0x80 ≤ p ∧ p < 0x8C then some (.dbg, p - 0x80)
    else if p = 0x8C then some (.dbgM, 12)
    else if 0x100 ≤ p ∧ p < 0x108 then some (.hrt, p - 0x100)
    else if 0x108 ≤ p ∧ p < 0x110 then some (.blw, p - 0x108)
    else if 0x110 ≤ p ∧ p < 0x118 then some (.chnH, p - 0x110)
    else if 0x120 ≤ p ∧ p < 0x124 then some (.wbx, p - 0x120)
    else if 0x124 ≤ p ∧ p < 0x128 then some (.slm, p - 0x124)
    else if 0x140 ≤ p ∧ p < 0x154 then some (.hbm, p - 0x140)
    else none
  else if p < 0x1100 then some (.stv, p - 0x1000)
  else none

/-- BLK_ID.TYPE of a block (R439). -/
def Blk.type : Blk → Nat
  | .mgt => 0x12 | .tik => 0xC | .snp => 0xD | .sec => 0xE | .exd => 0x10 | .rtr => 0x11 | .chm => 0x9
  | .chnM => 0x4 | .gst => 0xF | .urk => 0xB | .flu => 0xA | .stk => 0x8 | .dbg => 0x13 | .dbgM => 0x13
  | .hrt => 0x2 | .blw => 0x3 | .chnH => 0x4 | .wbx => 0x5 | .slm => 0x7 | .hbm => 0x6 | .stv => 0x1

/-- BLK_CAP.NRING (R440). -/
def Blk.rings : Blk → Nat
  | .stv => 4 | .blw => 4 | .stk => 4 | .wbx => 16 | .chm => 16 | _ => 0

/-- BLK_CAP.NINST (R439, R440). -/
def Blk.instances : Blk → Nat
  | .gst => 2 | .urk => 4 | .flu => 18 | .stk => 16 | .dbg => 13 | .dbgM => 13 | .hrt => 8 | .blw => 8
  | .chnM => 9 | .chnH => 9 | .wbx => 4 | .slm => 4 | .hbm => 20 | .stv => 256 | _ => 1

/-- Site code of the die that serves an instance of a block (R25, R439). -/
def Blk.site : Blk → Nat → Nat
  | .dbg, i => if i < 8 then i else 0x10 + (i - 8)
  | .hrt, i => i
  | .blw, i => i
  | .chnH, i => i
  | .wbx, i => 0x10 + i
  | .slm, i => 0x10 + i
  | .hbm, i => 0x10 + i / 5
  | .stv, i => i / 32
  | _, _ => 0x20

/-- The block registers of a page. -/
def Blk.rows : Blk → List RegRow
  | .mgt => mgtRegs | .tik => tikRegs | .snp => snpRegs | .sec => secRegs | .exd => exdRegs | .rtr => rtrRegs
  | .chm => chmRegs | .chnM => chnMRegs | .gst => gstRegs | .urk => urkRegs | .flu => fluRegs | .stk => []
  | .dbg => dbgRegs | .dbgM => dbgRegs ++ dbgMRegs | .hrt => hrtRegs | .blw => blwRegs | .chnH => chnHRegs
  | .wbx => wbxRegs | .slm => slmRegs | .hbm => hbmRegs | .stv => stvRegs

/-- The row of a register table an offset belongs to. -/
def rowIn (rs : List RegRow) (off : Nat) : Option RegRow :=
  rs.find? fun r => decide (r.base ≤ off) && (off - r.base) % r.stride == 0 && decide ((off - r.base) / r.stride < r.count)

/-- The row of the register at an offset of a page: common header, ring block, or block register (R438). -/
def rowOf (page off : Nat) : Option RegRow :=
  match pageInfo page with
  | none => none
  | some (b, _) =>
    if off < 0x80 then rowIn commonRegs off
    else if 0x100 ≤ off ∧ off < 0x100 + 0x40 * b.rings then rowIn ringRegs ((off - 0x100) % 0x40)
    else rowIn b.rows off

/-- The register key of an offset of a page. -/
def rk (page off : Nat) : Nat := page * 0x1000 + off

/-- Reset value of a register (R16, R450). -/
def regReset (key : Nat) : U64 :=
  match rowOf (key / 0x1000) (key % 0x1000) with
  | some r => BitVec.ofNat 64 r.reset
  | none => 0

/-- Insert a register value before the first higher key. -/
def regIns (k : Nat) (v : U64) : List (Nat × U64) → List (Nat × U64)
  | [] => [(k, v)]
  | c :: cs => if k < c.1 then (k, v) :: c :: cs else c :: regIns k v cs

/-- A value of a register map whose unlisted keys hold `d`. -/
def mapGet (m : List (Nat × U64)) (d : U64) (k : Nat) : U64 := (m.lookup k).getD d

/-- Set a value of a register map; a key at its default is not listed. -/
def mapSet (m : List (Nat × U64)) (d : U64) (k : Nat) (v : U64) : List (Nat × U64) :=
  let m' := m.filter fun c => c.1 ≠ k
  if v = d then m' else regIns k v m'

/-- The stored value of the register with a key. -/
def World.reg (w : World) (k : Nat) : U64 := mapGet w.dev.regs (regReset k) k

/-- Store a register. -/
def World.setReg (w : World) (k : Nat) (v : U64) : World :=
  { w with dev := { w.dev with regs := mapSet w.dev.regs (regReset k) k v } }

/-- Change a register. -/
def World.modReg (w : World) (k : Nat) (f : U64 → U64) : World := w.setReg k (f (w.reg k))

/-- Bits [hi:lo] of a register. -/
def World.rf (w : World) (k hi lo : Nat) : Nat := fld (w.reg k) hi lo

/-- Set bits [hi:lo] of a register. -/
def World.setRf (w : World) (k hi lo v : Nat) : World := w.modReg k fun x => setFld x hi lo v

/-- Count in bits [hi:lo] of a register, stopping at the largest value. -/
def World.count (w : World) (k hi lo n : Nat) : World := w.modReg k fun x => countUp x hi lo n

/-- Change the units. -/
def World.upd (w : World) (f : Dev → Dev) : World := { w with dev := f w.dev }

/-- Draw a number for a free value: the counter advances. -/
def World.draw (w : World) : Nat × World := (w.dev.free, w.upd fun d => { d with free := d.free + 1 })

/-! ### Commands on the state -/

/-- What a command starts from. -/
def State.toWorld (s : State) : World := { dev := s.dev, mem := s.mem, log := [] }

/-- The state after a command's changes. -/
def State.commit (s : State) (w : World) : State := { s with dev := w.dev, mem := memCommit s.mem w.log }

/-- The memory's canonical form: addresses strictly rising, no byte 0 listed; poisoned granules strictly rising. -/
def Mem.wf (m : Mem) : Bool :=
  decide (m.cells.Pairwise fun a b => a.1 < b.1) && m.cells.all (fun c => c.2 ≠ 0) &&
    decide (m.poison.Pairwise fun a b => a < b)

end Sys2Proof.Machine
end

