-- ==== Sys2Proof/Machine/Ops.lean ====
section
/-! DEFINITION. The operations every unit shares: where an address lies, messages to hosts, guests and the fabric, the
snapshot rule at a write, stores and poison, error records and events. -/

namespace Sys2Proof.Machine

/-- Who makes an access: the register page and DBG page on which it raises events, its node, its job, the ring and
count of its command, SEQ, its own stove, whether it is a stoker, and whether it reaches register pages (R34, R37, R341, R356,
R454). -/
structure Agent where
  page : Nat
  dbg : Nat
  node : Nat
  job : Option Nat := none
  cmd : Option (RingId × Nat) := none
  seq : Nat := 0
  stove : Option Nat := none
  stoker : Bool := false
  regs : Bool := false
  deriving DecidableEq, Repr

/-- The DBG page of the die that serves a page (R439). -/
def dbgPage (page : Nat) : Nat :=
  match pageInfo page with
  | none => 0x8C
  | some (b, i) =>
    let s := b.site i
    if s < 0x10 then 0x80 + s else if s < 0x20 then 0x88 + (s - 0x10) else 0x8C

/-- The node of the engine whose ring block is ring n of a page (R26, R125). -/
def engineNode (page n : Nat) : Nat :=
  match pageInfo page with
  | some (.stv, i) => i / 32 * 256 + i % 32
  | some (.blw, i) => i * 256 + 0x20
  | some (.wbx, i) => (0x10 + i) * 256 + 0x10 + n / 4
  | some (.stk, i) => 0x2000 + i
  | _ => 0x2020

/-- The mantel's own agent: event delivery, TIK, the snapshot engine and command registers. -/
def mantel (page : Nat) : Agent :=
  { page := page, dbg := 0x8C, node := match page with
    | 1 => 0x2030 | 2 => 0x2031 | 3 => 0x2033 | 4 => 0x2032 | 6 => 0x2020 | 8 => 0x2034 | 9 => 0x2034 | _ => 0x2036 }

/-! ### Where an address lies (R32, R33, R330, R333) -/

/-- Enabled channels C (R330). -/
def World.chans (w : World) : Nat := w.rf (rk 0x120 0x080) 9 0

/-- Whether channel ch is enabled (R329, R348). -/
def World.chanOn (w : World) (ch : Nat) : Bool := bit (w.reg (rk (0x140 + ch % 20) 0x080)) (ch / 20)

/-- CHMAP, or CHMAP of one woodbox, at an index (R330). -/
def World.chmap (w : World) (wb : Option Nat) (i : Nat) : Nat :=
  match wb with
  | none => if w.chans = 640 then i else ((List.range 640).filter w.chanOn).getD i 0
  | some n => ((List.range 640).filter fun ch => ch % 20 / 5 == n && w.chanOn ch).getD i 0

/-- CN of a woodbox (R330). -/
def World.cn (w : World) (n : Nat) : Nat := w.rf (rk (0x120 + n) 0x080) 23 16

/-- Locality stripes L (R331). -/
def World.locality (w : World) : Nat := w.rf (rk 0x120 0x088) 18 0

/-- WBASE of a woodbox's locality window (R330). -/
def World.wbase (w : World) (n : Nat) : Nat :=
  (List.range n).foldl (fun a i => a + w.cn i * w.locality * 4096) (w.chans * (393216 - w.locality) * 4096)

/-- hbm_locate of R330: stack, pseudo-channel and offset of a backed HBM address. -/
def World.hbmLocate (w : World) (pa : Nat) : Option (Nat × Nat × Nat) :=
  let l := w.locality
  let place := fun g n wb base =>
    if n = 0 then none
    else
      let s := g / n
      let ch := w.chmap wb ((g % n + s * 293 % n) % n)
      some (ch % 20, ch / 20, (base + s) * 4096 + pa % 4096)
  if pa < w.chans * (393216 - l) * 4096 then place (pa / 4096) w.chans none 0
  else
    match (List.range 4).find? fun n => w.wbase n ≤ pa && pa < w.wbase n + w.cn n * l * 4096 with
    | none => none
    | some n => place ((pa - w.wbase n) / 4096) (w.cn n) (some n) (393216 - l)

/-- Whether an address is backed HBM (R333). -/
def World.backed (w : World) (pa : Nat) : Bool := decide (pa < w.chans * 0x60000000) && decide (pa < hbmEnd)

/-- Scratchpad segments in force in an SLM slice (R33, R343). -/
def World.slmK (w : World) (n : Nat) : Nat := w.rf (rk (0x124 + n) 0x088) 7 4

/-- Whether a Urrek port is up (R351). -/
def World.portUp (w : World) (p : Nat) : Bool := w.rf (rk (0x10 + p) 0x088) 1 0 == 2

/-- What serves an address. -/
inductive Place where
  | hbm | slm (n : Nat) | scratch (s : Nat) | page | guest (g : Nat) | host (p : Nat)
  /-- The window of a port that was up and is down now (R356, R362). -/
  | lost (p : Nat)
  | nowhere
  deriving DecidableEq, Repr

/-- What serves an address (R32, R33, R333, R351). -/
def World.place (w : World) (a : Nat) : Place :=
  if a < hbmEnd then (if w.backed a then .hbm else .nowhere)
  else if slmBase ≤ a ∧ a < slmEnd then
    let n := (a - slmBase) / 0x8000000
    if (a - slmBase) % 0x8000000 < w.slmK n * 0x1000000 then .slm n else .nowhere
  else if spBase ≤ a ∧ a < spEnd then .scratch ((a - spBase) / 0x400000)
  else if regBase ≤ a ∧ a < regEnd then .page
  else if guestBase ≤ a ∧ a < guestEnd then .guest ((a - guestBase) / 0x800000000)
  else if hostBase ≤ a ∧ a < 0x1000000000000 then
    let p := (a - hostBase) / 0x200000000000
    if w.portUp p then .host p else if w.dev.urk.attached.contains p then .lost p else .nowhere
  else .nowhere

/-- Whether [a, a + n) lies wholly in backed HBM. -/
def World.inHbm (w : World) (a n : Nat) : Bool := n = 0 || (w.backed a && w.backed (a + n - 1))

/-- Whether [a, a + n) lies wholly in mapped SLM scratchpad of one slice. -/
def World.inSlm (w : World) (a n : Nat) : Bool :=
  match w.place a, w.place (a + n - 1) with
  | .slm i, .slm j => i == j
  | _, _ => false

/-- The woodbox whose slice is home to an HBM or SLM line (R341). -/
def World.homeSlice (w : World) (a : Nat) : Nat :=
  match w.place a with
  | .slm n => n
  | _ => match w.hbmLocate a with
    | some (s, _, _) => s / 5
    | none => 0

/-- The dies that traffic from one die to another crosses, as pairs of neighbours (R18, R19). Sites: hearths 0 to 7, woodboxes
0x10 to 0x13, the mantel 0x20, guests 0x30 and 0x31 (R25). -/
def dieSteps (x y : Nat) : List (Nat × Nat) :=
  let near := fun (x y : Nat) =>
    if x = y then []
    else if x < 8 ∧ y < 8 then (if x / 2 = y / 2 then [(x, y)] else [(x, 0x10 + y / 2), (0x10 + y / 2, y)])
    else if 0x10 ≤ x ∧ x < 0x14 ∧ 0x10 ≤ y ∧ y < 0x14 ∧ (x + 2) % 4 = y % 4 then
      [(x, 0x10 + (x + 1) % 4), (0x10 + (x + 1) % 4, y)]
    else [(x, y)]
  (if 0x30 ≤ x then [(x, 0x20)] else []) ++ near (if 0x30 ≤ x then 0x20 else x) (if 0x30 ≤ y then 0x20 else y) ++
    (if 0x30 ≤ y then [(0x20, y)] else [])

/-- The die at the other end of link port i of a die: a hearth's ports are wired as R18 lays down; the spec numbers no port of a
woodbox or of the mantel (log entry 73). -/
def portDie (die i : Nat) : Nat :=
  if die < 8 then (if i < 4 then 0x10 + i else if i = 4 then 0x20 else if die % 2 = 0 then die + 1 else die - 1)
  else Config.farDie die i

/-- The page that holds a die's link state, the offset of its register and its number of ports (R451, R452). -/
def linkState (die : Nat) : Option (Nat × Nat × Nat) :=
  if die < 8 then some (0x100 + die, 0x0B8, 6)
  else if 0x10 ≤ die ∧ die < 0x14 then some (0x120 + (die - 0x10), 0xB68, 12)
  else if die = 0x20 then some (0x8C, 0x188, 16)
  else none

/-- Whether a die's end of its link to a neighbour has failed in service: FAULT of its page, and a port toward that die that is not
up (R20, R452). The bonded pair of a woodbox and the mantel is one link (R18). -/
def World.endFailed (w : World) (x y : Nat) : Bool :=
  match linkState x with
  | none => false
  | some (page, off, n) =>
    bit (w.reg (rk page 0x018)) 2 && (List.range n).any fun i => !bit (w.reg (rk page off)) i && portDie x i == y

/-- Whether the traffic between two dies is stopped by a failed link, on the way there or back (R19, R20). -/
def World.dieCut (w : World) (x y : Nat) : Bool :=
  (dieSteps x y ++ dieSteps y x).any fun l => w.endFailed l.1 l.2 || w.endFailed l.2 l.1

/-- The die that serves an address. -/
def World.dieOf (w : World) (a : Nat) : Nat :=
  match w.place a with
  | .hbm | .slm _ => 0x10 + w.homeSlice a
  | .scratch s => s / 32
  | _ => 0x20

/-- Whether the traffic of a node to an address is stopped by a failed link (R20). -/
def World.linkCut (w : World) (node a : Nat) : Bool := w.dieCut (node / 256) (w.dieOf a)

/-! ### The SLM cache (R342) -/

/-- An access to a line in a cache of the given ways: a hit or a miss; a miss that allocates takes a free way of its set, or that
of the line replaced. -/
def SlmCache.access (c : SlmCache) (ways l : Nat) (write alloc : Bool) : SlmCache :=
  if c.lines.any (fun x => x.line == l) then
    { c with
      hits := (c.hits + 1) % 2 ^ 64
      lines := updFirst (fun x => x.line == l) (fun x => { x with dirty := x.dirty || write }) c.lines }
  else
    let c := { c with misses := (c.misses + 1) % 2 ^ 64 }
    if !alloc || ways == 0 then c
    else
      let mine := c.lines.filter fun x => Config.slmSet x.line == Config.slmSet l
      match (List.range ways).find? fun v => !mine.any fun x => x.way == v with
      | some v => { c with lines := c.lines ++ [⟨l, v, write⟩] }
      | none =>
        let old := (mine[Config.slmVictim l % mine.length]?).getD ⟨l, 0, write⟩
        { c with lines := c.lines.erase old ++ [⟨l, old.way, write⟩] }

/-- Ways of a slice's cache (R342). -/
def World.slmWays (w : World) (n : Nat) : Nat := 2 * (8 - w.slmK n)

/-- Whether a slice's cache holds a line. -/
def World.slmHas (w : World) (l : Nat) : Bool :=
  match w.dev.slm[w.homeSlice l]? with
  | some c => c.lines.any fun x => x.line == l
  | none => false

/-- An error in a word of an SLM slice goes with the line that leaves its cache (log entry 76). -/
def World.pruneUpsets (w : World) : World :=
  if w.dev.upsets.isEmpty then w
  else w.upd fun d => { d with upsets := d.upsets.filter fun u => !u.inSlm || decide (hbmEnd ≤ u.addr) || w.slmHas (lineOf u.addr) }

/-- Accesses to the lines of [a, a + n) at their slices (R342, R349): a write allocates, a read that misses only with RDALLOC; the
cache holds HBM lines only. -/
def World.touch (w : World) (a n : Nat) (write : Bool) : World :=
  let one := fun (cs : List SlmCache) (l : Nat) => match w.place l with
    | .hbm =>
      let i := w.homeSlice l
      cs.modify i fun c => c.access (w.slmWays i) l write (write || bit (w.reg (rk (0x124 + i) 0x090)) 0)
    | _ => cs
  (w.upd fun d => { d with slm := (lines a n).foldl one d.slm }).pruneUpsets

/-- The lines in the segments that a larger K takes from the cache leave it, written back (R342, R343). Way v lies in segment
7 − v / 2 (log entry 74). -/
def World.slmShrink (w : World) (n k : Nat) : World :=
  World.pruneUpsets <| w.upd fun d =>
    { d with slm := d.slm.modify n fun c => { c with lines := c.lines.filter fun x => decide (x.way < 2 * (8 - k)) } }

/-! ### Messages -/

/-- A packet put on a port takes the next link frame, held for replay; the buffer keeps 256 frames (R248, R350). -/
def World.noteFrame (w : World) (page n : Nat) : World :=
  match w.dev.urk.links.lookup page with
  | none => w
  | some l =>
    let q := l.replay ++ [(l.txNext, n)]
    let l := { l with txNext := (l.txNext + 1) % 4096, replay := q.drop (q.length - 256) }
    w.upd fun d => { d with urk := { d.urk with links := (page, l) :: d.urk.links.filter fun x => x.1 ≠ page } }

/-- Bytes of a Urrek packet: 16-byte header, byte mask of a WR_UC, data (R352). -/
def urkBytes (op : Nat) (m : UrkPkt) : Nat := 16 + (if op = 4 then 16 else 0) + m.data.length

/-- Put a packet on a Urrek port (R352, R373). -/
def World.sendUrk (w : World) (op : Nat) (m : UrkPkt) : World :=
  ((w.count (rk (0x10 + m.port) 0x110) 63 0 (urkBytes op m)).noteFrame (0x10 + m.port) (urkBytes op m)).upd fun d =>
    { d with out := d.out ++ [.urk op m] }

/-- Bytes of a network packet (R405). -/
def netBytes (p : NetPkt) : Nat := 32 + p.payload.length

/-- Packets that wait for a credit go out, in order on each virtual channel (R404). -/
def creditGo (site : Nat) : List NetPkt → List Nat → List NetPkt × List Nat × List OutMsg
  | [], cs => ([], cs, [])
  | p :: ps, cs =>
    if cs.getD p.vc 0 = 0 then
      let r := creditGo site ps (cs.set p.vc 0)
      (p :: r.1, r.2.1, r.2.2)
    else
      let r := creditGo site ps (cs.modify p.vc (· - 1))
      (r.1, r.2.1, .guest site p :: r.2.2)

/-- Put a packet on a guest site's link, where each takes a credit of its virtual channel (R404, R405). -/
def World.sendGuest (w : World) (site : Nat) (p : NetPkt) : World :=
  match w.dev.guests.find? fun g => g.site == site with
  | none => w
  | some g =>
    let r := creditGo site (g.waiting ++ [p]) g.credits
    w.upd fun d => { d with
      guests := updFirst (fun g => g.site == site) (fun g => { g with waiting := r.1, credits := r.2.1 }) d.guests
      out := d.out ++ r.2.2 }

/-- A message inside the device. -/
def World.sendNet (w : World) (m : FabMsg) : World := w.upd fun d => { d with net := d.net ++ [m] }

/-- A message that arrived and must wait goes back before those sent after it (R28). -/
def World.backNet (w : World) (m : FabMsg) : World := w.upd fun d => { d with net := m :: d.net }

/-- Take a message that has arrived out of the network, if it is there. -/
def World.takeNet (w : World) (m : FabMsg) : World := w.upd fun d => { d with net := d.net.erase m }

/-- The virtual channel of a fabric message (R29). -/
def fabVc : FabMsg → Nat
  | .contrib _ | .part _ | .result _ | .mcast _ | .gather _ | .piece _ => 3
  | .summary _ | .permDone _ _ => 3
  | .rreadReq _ | .emberData _ _ _ _ | .shipHdr _ _ _ | .shipData _ _ _ => 0
  | .rreadRsp _ => 1
  | .chnOpen _ | .chnAccept _ | .chnRefuse _ _ | .chnData _ | .chnReport _ _ | .chnCredit _ _ | .chnClose _ _
  | .chnDrain _ _ _ _ => 4
  | .emberDone _ | .halt _ _ => 5
  | .net p => p.vc

/-- This device's ID (R250). -/
def World.devId (w : World) : Nat := w.rf (rk 6 0x080) 12 0

/-- Device and node that a message comes from, and the node it goes to (R26, R28): those its header names, those of the flow whose
context it names, or the unit that both sends and takes such messages. -/
def World.fabEnds (w : World) (m : FabMsg) : Nat × Nat × Nat :=
  let stove := fun (n : Nat) => engineNode (0x1000 + n) 0
  let ctx := fun (c : Nat) =>
    match w.dev.chn.rflows.find? fun f => f.ctx == c with
    | some f => (f.peerDev, f.peerNode, stove f.stove)
    | none => match w.dev.chn.sflows.find? fun f => f.ctx == c with
      | some f => if f.st == .opening then (f.target % 2 ^ 13, stove (bits f.target 20 13), stove f.stove)
          else (f.peerDev, f.peerNode, stove f.stove)
      | none => (w.devId, 0x10000 + c, 0x10000 + c)
  match m with
  | .net p => (if p.rmt then p.rdev else w.devId, p.src, p.dst)
  | .chnOpen m => (m.srcDev, m.srcNode, stove (bits m.target 20 13))
  | .chnData m => ctx m.ctx
  | .chnAccept m => ctx m.ctx
  | .chnRefuse c _ | .chnReport c _ | .chnCredit c _ | .chnClose c _ | .chnDrain c _ _ _ => ctx c
  | .emberDone _ | .halt _ _ | .emberData _ _ _ _ | .shipHdr _ _ _ | .shipData _ _ _ => (w.devId, 0x2031, 0x2031)
  | _ => (w.devId, 0x2020, 0x2020)

/-- Whether a failed link stops a message's way inside the device; one of another device enters at the mantel (R20). -/
def World.fabCut (w : World) (m : FabMsg) : Bool :=
  let e := w.fabEnds m
  w.dieCut (if e.1 = w.devId then e.2.1 / 256 else 0x20) (e.2.2 / 256)

/-- Whether a message may arrive now: no failed link stops it, and no earlier one of its virtual channel, source and destination is
still on its way inside the device (R20, R28). Contributions are granted by the accumulator ports in any order (R261). -/
def World.arrives (w : World) (m : FabMsg) : Bool :=
  !w.fabCut m &&
  match m with
  | .contrib _ => true
  | _ => (w.dev.net.takeWhile (· != m)).length == w.dev.net.length ||
      !(w.dev.net.takeWhile (· != m)).any fun x => fabVc x == fabVc m && decide (w.fabEnds x = w.fabEnds m)

/-- A message arrives: one of this device's own comes out of the network, in its turn. -/
def World.onArrival (w : World) (m : FabMsg) (f : World → World) : World := if w.arrives m then f (w.takeNet m) else w

/-- Whether CHM_ID has been written (R250). -/
def World.idValid (w : World) : Bool := w.rf (rk 6 0x080) 13 13 == 1

/-- Whether a flue port carries traffic: up, and CHM_ID.V set (R247, R250). -/
def World.flueUp (w : World) (p : Nat) : Bool := w.rf (rk (0x20 + p) 0x088) 1 0 == 2 && w.idValid

/-- Bytes of an element of a contribution or result format (R43, R260). -/
def redBytes (f : Nat) : Nat := if f = 8 then 4 else if f < 2 then 2 else 1

/-- Payload bytes of a fabric message after its 32-byte network header (R405, R260, R266, R271). -/
def fabPayload : FabMsg → Nat
  | .contrib m => if m.empty then 0 else m.elems.length * redBytes m.cfmt
  | .part m => 4 * m.vals.length + 1024
  | .result m => m.codes.length * redBytes m.rfmt + (if m.full then 0 else 1024)
  | .summary _ => 1024
  | .mcast m => m.data.length
  | .gather m => m.codesA.length + m.codesB.length + m.scalesA.length + m.scalesB.length
  | .rreadRsp m => m.data.length
  | .piece m => m.data.length
  | .chnData m => 32 + m.payload.length + m.bulk.length
  | .emberData _ _ _ d => d.length
  | .shipData _ _ d => d.length
  | .net p => p.payload.length
  | _ => 0

/-- Put a packet on a flue port: bytes of the fabric header, the network header and the payload count (R249, R277). -/
def World.sendFlue (w : World) (p : Nat) (h : FabHdr) (m : FabMsg) : World :=
  ((w.count (rk (0x20 + p) 0x0A0) 63 0 (40 + fabPayload m)).noteFrame (0x20 + p) (40 + fabPayload m)).upd fun d =>
    { d with out := d.out ++ [.flue p h m] }

/-- Unicast entry of a device (R251). -/
def World.route (w : World) (dst : Nat) : Nat := (w.dev.routes.lookup dst).getD 0

/-- Multicast entry of a group (R251). -/
def World.group (w : World) (g : Nat) : Nat := (w.dev.groups.lookup g).getD 0

/-- The port a unicast packet leaves on: PRI, or ALT when PRI is down (R252). -/
def World.outPort (w : World) (dst : Nat) : Option Nat :=
  let e := w.route dst
  if !e.testBit 10 then none
  else if w.flueUp (e % 32) then some (e % 32)
  else if e.testBit 11 && w.flueUp (bits e 9 5) then some (bits e 9 5)
  else none

/-- The ports of a multicast group's mask that are up, but for the arrival port (R252). -/
def World.groupPorts (w : World) (g : Nat) (from' : Option Nat) : List Nat :=
  let e := w.group g
  if !e.testBit 19 then []
  else (List.range 18).filter fun p => e.testBit p && some p != from' && w.flueUp p

/-- Note a request that is not answered. -/
def World.addReq (w : World) (q : DevReq) : World := w.upd fun d => { d with urk := { d.urk with reqs := d.urk.reqs ++ [q] } }

/-- Let a request wait at the home of its line. -/
def World.queueHome (w : World) (h : HomeWait) : World := w.upd fun d => { d with urk := { d.urk with home := d.urk.home ++ [h] } }

/-! ### The coherence directory at a home slice (R354) -/

/-- The directory entry of a line. -/
def World.dirOf (w : World) (line : Nat) : Option DirEntry := w.dev.urk.dir.find? fun e => e.line == line

/-- The line that a waiting request reads or writes, whichever it waits for. -/
def HomeWait.own (h : HomeWait) : Nat :=
  match h.req with
  | .host _ m => lineOf m.addr
  | .write a _ | .sink a _ | .atomic a _ _ => lineOf a
  | .poison g => lineOf g
  | .reg _ _ _ _ _ => h.line

/-- Whether a line has a snoop outstanding or a request waiting (R354). -/
def World.lineBusy (w : World) (line : Nat) : Bool :=
  w.dev.urk.snoops.any (fun s => s.line == line) || w.dev.urk.home.any (fun h => h.line == line || h.own == line)

/-- Send one snoop for a line to a port; nothing when one is outstanding there (R354, R355, R373). -/
def World.snoop1 (w : World) (line : Nat) (share : Bool) (p : Nat) : World :=
  if w.dev.urk.snoops.any (fun s => s.line == line && s.port == p) then w
  else
    let wait := w.rf (rk 0x10 0x0E0) 31 0
    let w := w.count (rk (0x10 + p) 0x0F0) 31 0 1
    let w := w.sendUrk (if share then 0x11 else 0x10) ⟨p, 0, 0, false, false, 128, line, 0, []⟩
    w.upd fun d =>
      { d with urk := { d.urk with snoops := d.urk.snoops ++ [⟨line, p, share, w.dev.gtime + wait, false⟩] } }

/-- Snoop the holders of a line (R354): SNP_SHARE to a holder in M for a read, SNP_INV to every holder but `keep` for a
write or an ownership request. -/
def World.snoop (w : World) (line : Nat) (share : Bool) (keep : Option Nat) : World :=
  match w.dirOf line with
  | none => w
  | some e =>
    if share && !e.modified then w
    else (e.ports.filter fun p => some p != keep).foldl (fun w p => w.snoop1 line share p) w

/-! ### Poison, and writes at the home (R118, R337, R341, R354) -/

/-- Mark a granule poisoned; an HBM line is counted on its stack's page (R337, R348). -/
def World.markPoison (w : World) (g : Nat) : World :=
  if w.poisoned g then w
  else
    let w' := w.push (.poison g)
    match w.place g with
    | .hbm => match w.hbmLocate g with
      | some (s, _, _) => w'.count (rk (0x140 + s) 0x098) 31 0 1
      | none => w'
    | _ => w'

/-- Count a read of a poisoned HBM line (R348). -/
def World.countPoisonRead (w : World) (g : Nat) : World :=
  match w.place g with
  | .hbm => match w.hbmLocate g with
    | some (s, _, _) => w.count (rk (0x140 + s) 0x098) 63 32 1
    | none => w
  | _ => w

/-- Bytes of the ECC word that an error lies in (R118, R336): an HBM burst, or 32 bytes of an SLM slice or a scratchpad; and its
first address. -/
def Upset.size (u : Upset) : Nat := if u.addr < hbmEnd && !u.inSlm then 64 else 32
def Upset.word (u : Upset) : Nat := u.addr / u.size * u.size

/-- Take in what a write to [a, a + n) did to the trigger words of one arm: complete when every word reads 1 (R283, R284). -/
def World.noteTrigger (w : World) (a n : Nat) (trig : List Nat) (me : Nat × Bool × Nat) : World :=
  if !trig.any fun p => decide (a < p + 8) && decide (p < a + n) then w
  else if !trig.all fun p => w.word p == 1 then
    w.upd fun d => { d with stk := { d.stk with ready := d.stk.ready.filter (· != me) } }
  else if w.dev.stk.ready.contains me then w
  else w.upd fun d => { d with stk := { d.stk with ready := d.stk.ready ++ [me] } }

/-- The arms whose triggers a write completes, a tie broken by the lower arm number (R283). -/
def World.noteTriggers (w : World) (a n : Nat) : World :=
  if w.dev.stk.rts.isEmpty && w.dev.stk.kvs.isEmpty then w
  else
    (List.range 64).foldl (fun w i =>
      let w := match w.dev.stk.rts.find? fun x => x.num == i with
        | some x => w.noteTrigger a n x.trig (x.page, false, i)
        | none => w
      match w.dev.stk.kvs.find? fun x => x.num == i with
      | some x => w.noteTrigger a n x.trig (x.page, true, i)
      | none => w) w

/-- Store bytes where they lie: granules wholly covered lose their poison, and words wholly covered their errors (R118, R337); an
arm's triggers may become complete (R283). -/
def World.put (w : World) (a : Nat) (bs : List Byte) : World :=
  let w' := w.push (.bytes a bs)
  let w' := if w.dev.upsets.isEmpty then w' else w'.upd fun d =>
    { d with upsets := d.upsets.filter fun u => !(decide (a ≤ u.word) && decide (u.word + u.size ≤ a + bs.length)) }
  World.noteTriggers ((granules a bs.length).foldl (fun w' g =>
    if a ≤ g ∧ g + granSize g ≤ a + bs.length ∧ w.poisoned g then w'.push (.cleanse g) else w') w') a bs.length

/-- Whether a write of a line waits at its home: a host holds the line, or a request for it waits (R354). -/
def World.lineHeld (w : World) (l : Nat) : Bool := (w.dirOf l).isSome || w.lineBusy l

/-- Mark a granule poisoned behind the writes of its line that wait at the home (R337, R354). -/
def World.poisonHome (w : World) (cmd : Option (RingId × Nat)) (job : Option Nat) (g : Nat) : World :=
  if w.dev.urk.home.any (fun h => h.own == lineOf g) then w.queueHome ⟨lineOf g, .poison g, cmd, job⟩ else w.markPoison g

/-- Write bytes of one line at its home, outside the snapshot rule. -/
def World.putHome (w : World) (cmd : Option (RingId × Nat)) (job : Option Nat) (a : Nat) (bs : List Byte) : World :=
  if w.lineHeld (lineOf a) then (w.snoop (lineOf a) false none).queueHome ⟨lineOf a, .write a bs, cmd, job⟩ else w.put a bs

/-- The pieces of a byte list by the 128-byte lines they fall in. -/
def linePieces (a : Nat) (bs : List Byte) : List (Nat × List Byte) :=
  let head := 128 - a % 128
  if bs.length ≤ head then [(a, bs)]
  else (a, bs.take head) ::
    ((chunks 128 (bs.drop head)).zipIdx.map fun c => (a + head + 128 * c.2, c.1))

/-- Change the active snapshot. -/
def World.setRun (w : World) (f : SnapRun → SnapRun) : World :=
  w.upd fun d => { d with snp := { d.snp with run := d.snp.run.map f } }

/-- A destination of the active snapshot fails (R379). -/
def World.sinkFails (w : World) : World := w.setRun fun s => { s with bad := some (s.bad.getD 3) }

/-- A write of the snapshot engine, which no rule stalls (R378), with the poison that it carries: to HBM or the SLM, at the homes
of its lines; elsewhere nothing answers, and the destination fails (R379). -/
def World.engineWrite (w : World) (a : Nat) (bs : List Byte) (marks : List Nat) : World :=
  match w.place a with
  | .hbm | .slm _ =>
    let w := w.touch a bs.length true
    let w := if w.dev.urk.dir.isEmpty && w.dev.urk.home.isEmpty && w.dev.urk.snoops.isEmpty then w.put a bs
      else (linePieces a bs).foldl (fun w p => w.putHome none none p.1 p.2) w
    marks.foldl (fun w g => w.poisonHome none none g) w
  | _ => w.sinkFails

/-! ### The snapshot rule (R376 to R378) -/

/-- Granule number of an address in the snapshot set, and its extent (R374). -/
def granNumber (set : List Extent) (a : Nat) (base : Nat := 0) : Option (Nat × Extent) :=
  match set with
  | [] => none
  | e :: es =>
    if e.pa ≤ a ∧ a < e.pa + e.ngran * 0x10000 then some (base + (a - e.pa) / 0x10000, e)
    else granNumber es a (base + e.ngran)

/-- Address and extent of a granule of the set. -/
def granAddr (set : List Extent) (i : Nat) : Option (Nat × Extent) :=
  match set with
  | [] => none
  | e :: es => if i < e.ngran then some (e.pa + i * 0x10000, e) else granAddr es (i - e.ngran)

/-- Granules of the set. -/
def granTotal (set : List Extent) : Nat := set.foldl (fun a e => a + e.ngran) 0

/-- How many granules before number i have a property of their extent. -/
def granIndex (set : List Extent) (p : Extent → Bool) (i : Nat) : Nat :=
  match set with
  | [] => 0
  | e :: es => (if p e then min i e.ngran else 0) + (if i ≤ e.ngran then 0 else granIndex es p (i - e.ngran))

/-- Bits 8i+b of the byte mask of a WR_UC that writes [off, off + n) of its line (R352). -/
def byteMask (off n : Nat) : Nat := (2 ^ n - 1) * 2 ^ off

/-- The first tag from t on that is not in use. -/
def freeTagFrom (used : Nat → Bool) (t : Nat) : Nat → Option Nat
  | 0 => none
  | n + 1 => if used t then freeTagFrom used ((t + 1) % 4096) n else some t

/-- A tag that no request outstanding on a port uses: at most 4,096 are outstanding (R352). -/
def World.freeTag (w : World) (port : Nat) : Option Nat :=
  freeTagFrom (fun t => w.dev.urk.reqs.any fun q => q.port == port && q.tag == t) w.dev.urk.nextTag 4096

/-- Whether a port's tags are all in use: a request waits. -/
def World.tagsFull (w : World) (port : Nat) : Bool := (w.freeTag port).isNone

/-- A fresh tag for a device request (R352). -/
def World.newTag (w : World) (port : Nat) : Nat × World :=
  let t := (w.freeTag port).getD 0
  (t, w.upd fun d => { d with urk := { d.urk with nextTag := (t + 1) % 4096 } })

/-- Write bytes of one line of a host window with WR_UC (R356); the model keeps the bytes as the device last knows
them. -/
def World.hostWrite (w : World) (cmd : Option (RingId × Nat)) (job : Option Nat) (sink : Bool) (p a : Nat) (bs : List Byte) : World :=
  let off := a % 128
  let (t, w) := w.newTag p
  let w := w.push (.bytes a bs)
  let w := w.sendUrk 4 ⟨p, 0, t, false, false, 128, lineOf a % 2 ^ 45, byteMask off bs.length,
    List.replicate off 0 ++ bs ++ List.replicate (128 - off - bs.length) 0⟩
  w.addReq ⟨p, t, 4, a, bs.length, cmd, job, sink⟩

/-- A WR_UC that waits while the port's tags are all in use, or behind an earlier write of the line that does. -/
def World.hostStore (w : World) (cmd : Option (RingId × Nat)) (job : Option Nat) (sink : Bool) (p a : Nat) (bs : List Byte) : World :=
  if w.tagsFull p || w.dev.urk.home.any (fun h => h.own == lineOf a) then
    w.queueHome ⟨lineOf a, if sink then .sink a bs else .write a bs, cmd, job⟩
  else w.hostWrite cmd job sink p a bs

/-- Write bytes to a sink slot in a host window, line by line; a port that is down fails (R391). -/
def World.sinkWrite (w : World) (a : Nat) (bs : List Byte) : World :=
  let p := (a - hostBase) / 0x200000000000
  if !w.portUp p then w.sinkFails
  else (chunks 128 bs).zipIdx.foldl (fun w c => w.hostStore none none true p (a + 128 * c.2) c.1) w

/-- Whether a sink write of the checkpoint has not been acknowledged (R391). -/
def World.sinkBusy (w : World) : Bool :=
  w.dev.urk.reqs.any DevReq.sink || w.dev.urk.home.any fun h => match h.req with | .sink _ _ => true | _ => false

/-- A write to a receive slot of this device when it is its own partner (R385). -/
def World.emberOwn (w : World) (slot off : Nat) (marks : List Nat) (data : List Byte) : World :=
  let a := w.rf (rk 2 (0x0C0 + 8 * (slot % 2))) 47 16 * 0x10000 + off
  if w.rf (rk 2 0x0D0) 31 0 * 0x10000 < off + data.length then w.sinkFails
  else w.engineWrite a data (marks.map (a + ·))

/-- Write to the partner's receive slot; a partner that no port leads to fails (R385, R379). -/
def World.emberWrite (w : World) (m : FabMsg) : World :=
  let dst := w.rf (rk 2 0x088) 12 0
  if dst == w.devId then (match m with
    | .emberData slot off marks data => w.emberOwn slot off marks data
    | _ => w)
  else match w.outPort dst with
    | some p => w.sendFlue p ⟨dst, false, w.devId, 63, fabVc m⟩ m
    | none => w.sinkFails

/-- First address of a sink slot, and of its data area (R390). -/
def World.sinkAt (w : World) (k : Nat) : Nat := w.rf (rk 2 (0x0D8 + 8 * k)) 63 16 * 0x10000
def World.sinkData (w : World) (k : Nat) : Nat :=
  w.sinkAt k + 0x10000 + ceilDiv (16 * (w.dev.snp.set.filter (·.ckpt)).length) 0x10000 * 0x10000

/-- A byte of the bitmap: the bit of a captured granule is the polarity P, that of another granule of the set is not; the bits
beyond the set stay as they were (R377). -/
def bitmapByte (captured : Nat → Bool) (total p old k : Nat) : Byte :=
  BitVec.ofNat 8 ((List.range 8).foldl (fun a j =>
    a + (if total ≤ 8 * k + j then old / 2 ^ j % 2 else if captured (8 * k + j) then p else 1 - p) * 2 ^ j) 0)

/-- Capture granule i of the set (R377): its bit becomes P, and its content goes to the keep slot and the partner
(R385) and to the sink slot with its digest (R391). -/
def World.capture (w : World) (i : Nat) : World :=
  match w.dev.snp.run, granAddr w.dev.snp.set i with
  | some r, some (a, e) =>
    if r.captured.contains i then w
    else
      let bm := w.rf (rk 2 0x098) 47 12 * 4096 + i / 8
      let w := w.engineWrite bm [bitmapByte (fun j => (i :: r.captured).contains j) (granTotal w.dev.snp.set)
        (w.rf (rk 2 0x0F8) 2 2) (w.byte bm).toNat (i / 8)] []
      let w := w.setRun fun s => { s with captured := s.captured ++ [i], promoted := s.promoted.filter (· ≠ i) }
      let w := (w.modReg (rk 2 0x100) fun v => setFld v 31 0 (fld v 31 0 + 1)).touch a 0x10000 false
      let marks := ((granules a 0x10000).filter w.poisoned).map (· - a)
      let data := w.bytes a 0x10000
      let w :=
        if r.ember && e.ember then
          let n := granIndex w.dev.snp.set (·.ember) i
          let dst := w.rf (rk 2 (0x0B0 + 8 * r.eslot)) 47 16 * 0x10000 + 0x10000 * (1 + n)
          (w.engineWrite dst data (marks.map (dst + ·))).emberWrite (.emberData r.eslot (0x10000 * (1 + n)) marks data)
        else w
      if r.ckpt && e.ckpt then
        let n := granIndex w.dev.snp.set (·.ckpt) i
        let dg := sm3 data
        let w := w.engineWrite (w.rf (rk 2 0x0A8) 47 12 * 4096 + 32 * n) dg []
        let w := w.setRun fun s =>
          { s with digests := s.digests ++ [(n, dg)], bad := if marks.isEmpty then s.bad else some (s.bad.getD 9) }
        if r.phase == .firstRead then w.setRun fun s => { s with staged := s.staged ++ [(n, data)] }
        else w.sinkWrite (w.sinkData r.kslot + n * 0x10000) data
      else w
  | _, _ => w

/-- Whether a write to an address waits for its granule (R378). -/
def World.snapHolds (w : World) (a : Nat) : Option Nat :=
  match w.dev.snp.run, granNumber w.dev.snp.set a with
  | some r, some (i, _) => if r.captured.contains i then none else some i
  | _, _ => none

/-- An engine's own write to a granule not yet captured: the granule is promoted and captured first (R378). -/
def World.snapBefore (w : World) (a : Nat) : World :=
  match w.snapHolds a with
  | some i => w.capture i
  | none => w

/-! ### Stores -/

/-- Where a write of another agent to a scratchpad region lands: in the region's saved copy while its ring is suspended
(R141). -/
def World.redirected (w : World) (ag : Agent) (s a : Nat) : Nat :=
  if ag.stove = some s then a
  else match w.dev.redirect.lookup (a / 0x10000 * 0x10000) with
    | some c => c + a % 0x10000
    | none => a

/-- Change the poison marks that a save image keeps for a word of a stove's scratchpad (R137, R141). -/
def World.modMarks (w : World) (s g : Nat) (f : List Nat → List Nat) : World :=
  w.upd fun d => { d with stoves := updFirst (fun x => x.num == s) (fun x =>
    { x with saved := updFirst (fun i => bit i.mask ((g - spAddr s) / 0x10000)) (fun i => { i with marks := f i.marks }) x.saved }) d.stoves }

/-- Write to a scratchpad, or to the save slot's copy of a suspended region; words wholly covered there lose the marks that the
image keeps for them (R118, R141). -/
def World.putScratch (w : World) (ag : Agent) (s a : Nat) (bs : List Byte) : World :=
  let t := w.redirected ag s a
  if t = a then w.put a bs
  else (granules a bs.length).foldl (fun w g =>
    if a ≤ g ∧ g + 32 ≤ a + bs.length then
      let w := w.modMarks s g fun ms => ms.filter (· ≠ g)
      let l := lineOf (w.redirected ag s g)
      if w.poisoned l && (w.dev.stoves.all fun x => x.saved.all fun i => i.marks.all fun m => lineOf m ≠ lineOf g) then
        w.push (.cleanse l) else w
    else w) (w.putHome ag.cmd ag.job t bs)

/-- Mark a granule poisoned where a write by an agent would land, behind the writes of its line that wait (R118, R141, R337). -/
def World.poisonAt (w : World) (ag : Agent) (g : Nat) : World :=
  match w.place g with
  | .hbm | .slm _ => w.poisonHome ag.cmd ag.job g
  | .scratch s =>
    let t := w.redirected ag s g
    if t = g then w.markPoison g
    else (w.modMarks s g fun ms => ms.filter (· ≠ g) ++ [g]).poisonHome ag.cmd ag.job (lineOf t)
  | _ => w

/-- Whether a window of a site admits an access: direction, right bit, job (none for host and firmware). -/
def World.guestWindow (w : World) (site dir right : Nat) (job : Option Nat) (a n : Nat) : Bool :=
  (List.range 16).any fun i =>
    let ctl := w.reg (rk (8 + site) (0x110 + 32 * i))
    bit ctl 0 && fld ctl 1 1 == dir && bit ctl right &&
    decide (w.rf (rk (8 + site) (0x100 + 32 * i)) 47 0 ≤ a) &&
    decide (a + n ≤ w.rf (rk (8 + site) (0x108 + 32 * i)) 47 0 + 1) &&
    (match job with
      | some j => bit (w.reg (rk (8 + site) (0x118 + 32 * i))) j
      | none => bit ctl 8)

/-- Whether a site is populated, up and not isolated (R3, R411). -/
def World.guestUp (w : World) (site : Nat) : Bool :=
  let v := w.reg (rk (8 + site) 0x080)
  fld v 1 0 == 2 && !bit v 2

/-- A device access to a guest window: admitted, or denied and logged (R409, R410). -/
def World.guestAdmits (w : World) (site right : Nat) (job : Option Nat) (a n : Nat) : Bool :=
  w.guestUp site && w.guestWindow site 1 right job a n

/-- Write bytes at a guest: a WR whose answer is awaited (R405, R406). -/
def World.guestPut (w : World) (g : Nat) (ag : Agent) (a : Nat) (bs : List Byte) : World :=
  let (t, w) := w.newTag (4 + g)
  let w := w.sendGuest g ⟨0x3000 + 0x100 * g, 0x2038 + g, 0, 2, ag.job.getD 0, false, false, 0, BitVec.ofNat 64 a, 0, t, 0, 0, bs⟩
  w.addReq ⟨4 + g, t, 4, a, bs.length, ag.cmd, ag.job, false⟩

/-- Write to a guest window that admits it; the bytes stand as the device last knows them. It waits while the port's tags are all in
use (R352). -/
def World.guestStore (w : World) (g : Nat) (ag : Agent) (a : Nat) (bs : List Byte) : World :=
  if w.tagsFull (4 + g) || w.dev.urk.home.any (fun h => h.own == lineOf a) then
    w.queueHome ⟨lineOf a, .write a bs, ag.cmd, ag.job⟩
  else (w.push (.bytes a bs)).guestPut g ag a bs

/-- How bytes are stored by an agent. -/
abbrev Storer := World → Agent → Nat → List Byte → World

/-- What a store finds where neither memory nor a window takes it: `miss` where nothing answers (R34), `deny` at a guest window whose
firewall refuses it (R3). -/
structure Misses where
  miss : World → Agent → Nat → World
  deny : World → Nat → Agent → Nat → World

/-- Store bytes within one 128-byte line, ordered at the line's home (R341): a line that a host holds is snooped, and
the write waits there (R354). Over a failed die link it never arrives (R20). -/
def World.storeLineBy (x : Misses) (w : World) (ag : Agent) (a : Nat) (bs : List Byte) : World :=
  if w.linkCut ag.node a then w
  else match w.place a with
  | .hbm | .slm _ =>
    let w := w.touch a bs.length true
    let l := lineOf a
    if w.lineHeld l then (w.snoop l false none).queueHome ⟨l, .write a bs, ag.cmd, ag.job⟩
    else (w.snapBefore a).put a bs
  | .scratch s => w.putScratch ag s a bs
  | .host p => if ag.stoker && w.dev.urk.lines.any (fun l => l.addr == lineOf a && l.own) then
      (w.push (.bytes a bs)).upd fun d => { d with urk := { d.urk with
        lines := updFirst (fun l => l.addr == lineOf a) (fun l => { l with dirty := true }) d.urk.lines } }
    else w.hostStore ag.cmd ag.job false p a bs
  | .guest g => if w.guestAdmits g 3 ag.job a bs.length then w.guestStore g ag a bs else x.deny w g ag a
  | .lost _ => w
  | .page | .nowhere => x.miss w ag a

/-- Store bytes, line by line. -/
def World.storeBy (x : Misses) : Storer := fun w ag a bs => (linePieces a bs).foldl (fun w p => w.storeLineBy x ag p.1 p.2) w

/-! ### Error records (R339) -/

/-- An error record written to a woodbox's log, or dropped; it takes its record number either way (R339). -/
def World.errRecordBy (st : Storer) (w : World) (wb type stack pch job sym pa node : Nat) : World :=
  let base := w.reg (rk (0x120 + wb) 0x098)
  let ptr := w.reg (rk (0x120 + wb) 0x0A0)
  let seq := w.dev.errSeq.getD wb 0
  let w := w.upd fun d => { d with errSeq := d.errSeq.set wb ((seq + 1) % 2 ^ 32) }
  let size := 2 ^ fld base 5 1
  let used := (fld ptr 31 0 + 2 ^ 32 - fld ptr 63 32) % 2 ^ 32
  if bit base 0 && decide (64 + used ≤ size) then
    let rec' := wordBytes (BitVec.ofNat 64 (seq % 2 ^ 32 + type * 2 ^ 32 + stack * 2 ^ 36 + pch * 2 ^ 41 +
        job * 2 ^ 46 + sym * 2 ^ 52)) ++ leBytes 8 w.dev.gtime ++ leBytes 8 pa ++ leBytes 8 node ++
        List.replicate 32 0
    let w := st w (mantel (0x120 + wb)) (fld base 47 12 * 4096 + fld ptr 31 0 % size) rec'
    (w.count (rk (0x120 + wb) 0x0A8) 31 0 1).modReg (rk (0x120 + wb) 0x0A0) fun v =>
      setFld v 31 0 (fld v 31 0 + 64)
  else w.count (rk (0x120 + wb) 0x0A8) 63 32 1

/-! ### Events (R368 to R371, R443 to R446) -/

/-- The port a job is assignable to (R360). -/
def World.jobPort (w : World) (j : Nat) : Option Nat :=
  (List.range 4).find? fun p => bit (w.reg (rk (0x10 + p) 0x098)) j

/-- The port an event is delivered to (R368). -/
def World.eventPort (w : World) (ringPort : Option Nat) (d0 : U64) : Option Nat :=
  match ringPort with
  | some p => some p
  | none => match (if bit d0 6 then w.jobPort (fld d0 5 0) else none) with
    | some p => some p
    | none => w.dev.urk.owner

/-- Deliver an event to a port: it takes the port's next number, and its record is written to the event ring or dropped
(R370, R371). -/
def World.deliverBy (st : Storer) (w : World) (p page cause : Nat) (d0 d1 : U64) : Nat × World :=
  let u := 0x10 + p
  let old := w.rf (rk u 0x040) 31 0
  let n := if old = 2 ^ 32 - 1 then 1 else old + 1
  let w := w.setReg (rk u 0x040) (BitVec.ofNat 64 n)
  let base := w.reg (rk u 0x0C0)
  let ptr := w.reg (rk u 0x0C8)
  let size := 2 ^ fld base 5 1
  let used := (fld ptr 31 0 + 2 ^ 32 - fld ptr 63 32) % 2 ^ 32
  if bit base 0 && w.portUp p && decide (32 + used ≤ size) then
    let tail := (fld ptr 31 0 + 32) % 2 ^ 32
    let w := st w (mantel u) (fld base 47 12 * 4096 + fld ptr 31 0 % size)
      (leBytes 8 (n + page * 2 ^ 32 + cause * 2 ^ 48) ++ leBytes 8 w.dev.gtime ++ wordBytes d0 ++ wordBytes d1)
    let w := (w.count (rk u 0x0D8) 31 0 1).setRf (rk u 0x0C8) 31 0 tail
    let line := w.rf (rk u 0x0D0) 47 7 * 128
    (n, if line = 0 then w
        else st w (mantel u) line (leBytes 8 (tail + n * 2 ^ 32) ++ List.replicate 120 0))
  else (n, w.count (rk u 0x0D8) 63 32 1)

/-- Raise an event of a code with QUAL flags on a page (R443, R446): cause bit and counts; delivered unless masked or
EVT_EN is 0 (R368). Answers the number it took, 0 for none. -/
def World.raiseBy (st : Storer) (w : World) (ringPort : Option Nat) (page code qual : Nat) (d0 d1 : U64) : Nat × World :=
  let ctl := w.reg (rk page 0x010)
  let mask := w.reg (rk page 0x028)
  let w := if code < 0x40 then w.modReg (rk page 0x020) fun v => setBit v code true else w
  let w := w.count (rk page 0x030) 31 0 1
  if !bit ctl 3 || (decide (code < 0x40) && bit mask code) then (0, w)
  else match w.eventPort ringPort d0 with
    | none => (0, w)
    | some p => World.deliverBy st (w.count (rk page 0x030) 63 32 1) p page (code + qual * 256) d0 d1

/-- DETAIL0 with its job and JV (R444). -/
def detail (job : Option Nat) (rest : Nat) : U64 :=
  match job with
  | some j => BitVec.ofNat 64 (j % 64 + 64 + rest)
  | none => BitVec.ofNat 64 rest

/-- The port of a ring (R126). -/
def World.ringPort (w : World) (r : RingId) : Nat := w.rf (rk r.page (0x100 + 0x40 * r.n + 0x38)) 1 0

/-- An access to an address that nothing serves (R34): EV_UE with SUB 0x01 on the decoding die's DBG page, or the page
named, and an error record of TYPE 7, which holds the address of the line, in the woodbox's own log or in that of W0. -/
def World.unmappedBy (st : Storer) (w : World) (ag : Agent) (a : Nat) : World :=
  let wb := if 0x88 ≤ ag.dbg ∧ ag.dbg < 0x8C then ag.dbg - 0x88 else 0
  let w := World.errRecordBy st w wb 7 31 0 (ag.job.getD 0x3F) 0 (lineOf a) ag.node
  (World.raiseBy st w (ag.cmd.map fun c => w.ringPort c.1) ag.dbg 0x01 0 (detail ag.job 0x100)
    (BitVec.ofNat 64 (a % 2 ^ 48 + ag.node * 2 ^ 48))).2

/-- A denial (R410): counted, logged while no earlier one stands, EV_FW_DENY. -/
def World.fwDenyBy (st : Storer) (w : World) (site dir type : Nat) (job : Option Nat) (src a : Nat) (isolate : Bool) : World :=
  let g := 8 + site
  let w := w.count (rk g 0x098) 31 0 1
  let w := if bit (w.reg (rk g 0x0A8)) 63 then w
    else w.setReg (rk g 0x0A8)
      (BitVec.ofNat 64 (a % 2 ^ 48 + type * 2 ^ 48 + job.getD 0 * 2 ^ 56 + dir * 2 ^ 62 + 2 ^ 63))
  (World.raiseBy st w none g 0x12 (if isolate then 1 else 0)
    (detail job (site * 2 ^ 8 + dir * 2 ^ 9 + type * 2 ^ 10 + src * 2 ^ 18)) (BitVec.ofNat 64 (a % 2 ^ 48))).2

/-! ### Reports whose own record finds no memory

An event or error record goes through `store` like every write of the device. Where its own store in turn finds no memory or a
window that refuses it, that store is reported once, by reports whose records are dropped in such a place: a report of a report
would report itself without end (DESIGN CHOICE, log entry 75). -/

/-- Nothing is reported. -/
def Misses.silent : Misses := ⟨fun w _ _ => w, fun w _ _ _ => w⟩

/-- What R34 and R3 lay down, with reports whose own records are dropped where nothing takes them. -/
def Misses.reported : Misses where
  miss := World.unmappedBy (World.storeBy .silent)
  deny := fun w g ag a => World.fwDenyBy (World.storeBy .silent) w g 1 2 ag.job ag.node a false

/-- Store bytes by an agent: within one line, and line by line (R34, R341, R354, R409). -/
def World.storeLine (w : World) (ag : Agent) (a : Nat) (bs : List Byte) : World := w.storeLineBy .reported ag a bs
def World.store (w : World) (ag : Agent) (a : Nat) (bs : List Byte) : World := World.storeBy .reported w ag a bs

/-- Store a word. -/
def World.storeWord (w : World) (ag : Agent) (a : Nat) (v : U64) : World := w.store ag a (wordBytes v)

/-- An error record of a woodbox's log (R339). -/
def World.errRecord (w : World) (wb type stack pch job sym pa node : Nat) : World :=
  w.errRecordBy World.store wb type stack pch job sym pa node

/-- Deliver an event to a port (R370, R371). -/
def World.deliver (w : World) (p page cause : Nat) (d0 d1 : U64) : Nat × World := w.deliverBy World.store p page cause d0 d1

/-- Raise an event (R368, R443, R446). -/
def World.raise (w : World) (ringPort : Option Nat) (page code qual : Nat) (d0 d1 : U64) : Nat × World :=
  w.raiseBy World.store ringPort page code qual d0 d1

/-- An access to an address that nothing serves (R34). -/
def World.unmapped (w : World) (ag : Agent) (a : Nat) : World := w.unmappedBy World.store ag a

/-- A denial of the guest firewall (R410). -/
def World.fwDeny (w : World) (site dir type : Nat) (job : Option Nat) (src a : Nat) (isolate : Bool) : World :=
  w.fwDenyBy World.store site dir type job src a isolate

/-- Raise an event that answers no record. -/
def World.event (w : World) (page code qual : Nat) (d0 d1 : U64) : World := (w.raise none page code qual d0 d1).2

/-- EV_UE of a SUB code (R444, R445). -/
def World.evUe (w : World) (page sub : Nat) (job : Option Nat) (a node : Nat) : World :=
  w.event page 0x01 0 (detail job (sub * 256)) (BitVec.ofNat 64 (a % 2 ^ 48 + node * 2 ^ 48))

/-! ### Memory errors (R118, R336, R337) -/

/-- A read meets one error: corrected and counted, with a record of TYPE 1 or 3 if corrected errors are logged; or uncorrectable,
its granule poisoned and counted, with EV_UE and a record of TYPE 2 or 4; a scratchpad word's is counted and its offset shown, with
neither (R118, R337, R339, R348, R349). -/
def World.meet1 (w : World) (ag : Agent) (u : Upset) : World :=
  let w := w.upd fun d => { d with upsets := d.upsets.erase u }
  let log := fun (w : World) (wb type stack pch : Nat) =>
    if u.bad || bit (w.reg (rk (0x120 + wb) 0x098)) 6 then
      w.errRecord wb type stack pch (ag.job.getD 0x3F) (if u.bad then 0 else u.sym % 32) (lineOf u.addr) ag.node else w
  let bad := fun (w : World) (page : Nat) =>
    if u.bad then (w.markPoison (lineOf u.addr)).evUe page 0x02 ag.job (lineOf u.addr) ag.node else w
  let slm := fun (w : World) (n : Nat) =>
    let w := w.count (rk (0x124 + n) 0x0A8) (if u.bad then 63 else 31) (if u.bad then 32 else 0) 1
    log (bad w (0x124 + n)) n (if u.bad then 4 else 3) 31 0
  match w.place u.addr with
  | .scratch s =>
    let page := 0x1000 + s
    if u.bad then
      ((w.count (rk page 0x0D8) 63 32 1).setReg (rk page 0x0E0)
        (BitVec.ofNat 64 ((u.word - spAddr s) + 2 ^ 63))).markPoison u.word
    else w.count (rk page 0x0D8) 31 0 1
  | .slm n => slm w n
  | .hbm => if u.inSlm then slm w (w.homeSlice u.addr) else match w.hbmLocate u.addr with
    | some (st, q, _) =>
      let w := w.count (rk (0x140 + st) 0x088) (if u.bad then 63 else 31) (if u.bad then 32 else 0) 1
      log (bad w (0x140 + st)) (st / 5) (if u.bad then 2 else 1) st q
    | none => w
  | _ => w

/-- A read of [a, a + n) meets the errors that lie in the words it reads: in the slice's word of a line that its cache holds, else in
the burst of the stack (R336, R337, R342). -/
def World.meet (w : World) (ag : Agent) (a n : Nat) : World :=
  if w.dev.upsets.isEmpty then w
  else (w.dev.upsets.filter fun u => decide (u.word < a + n) && decide (a < u.word + u.size) &&
      (match w.place u.addr with | .hbm => u.inSlm == w.slmHas (lineOf u.addr) | _ => true)).foldl (fun w u => w.meet1 ag u) w

/-- The error, if any, that arises in this core cycle: in a word that memory holds, or that a slice's cache holds (log entry 76). -/
def World.errorArises (w : World) : World :=
  match Config.upsetAt w.dev.gtime with
  | none => w
  | some (a, slm, sym, bad) =>
    let u : Upset := ⟨a, slm && w.place a == .hbm, sym, bad⟩
    let there := match w.place a with
      | .hbm => !u.inSlm || w.slmHas (lineOf a)
      | .slm _ | .scratch _ => true
      | _ => false
    if there && !w.dev.upsets.contains u then w.upd fun d => { d with upsets := d.upsets ++ [u] } else w

/-! ### The fabric -/

/-- A RED or other packet discarded by routing (R249, R252): EV_UE with SUB 0x07, its detail carrying DST and VC. -/
def World.routeDrop (w : World) (job : Option Nat) (dst vc : Nat) : World :=
  w.event 6 0x01 0 (detail job 0x700) (BitVec.ofNat 64 (dst + vc * 2 ^ 13))

/-- A word of a bucket descriptor, and its MODE (R255). -/
def Arm.word (a : Arm) (i : Nat) : U64 := a.words.getD i 0
def Arm.mode (a : Arm) : Nat := fld (a.word 0) 20 19

/-- Whether a port in LEGACY mode carries no such packet (R269): RED packets but for ARRIVAL contributions and partials, and
multicasts. A contribution is an ARRIVAL one when the arm here of its tag and step says so. -/
def World.legacyBars (w : World) (p : Nat) (mc : Bool) (m : FabMsg) : Bool :=
  (match w.dev.urk.links.lookup (0x20 + p) with | some l => l.legacy | none => false) && fabVc m == 3 && !mc &&
  (match m with
   | .part _ => false
   | .contrib c => !w.dev.chm.arms.any fun a => a.tag == c.tag && a.step == c.step && a.mode == 1
   | _ => true)

/-- Put a routed packet on a port, or discard it there (R269). -/
def World.onPort (w : World) (job : Option Nat) (p : Nat) (h : FabHdr) (m : FabMsg) : World :=
  if w.legacyBars p h.mc m then w.evUe (0x20 + p) 0x0E job 0 0 else w.sendFlue p h m

/-- Send a message to a device of the fabric (R252): inside this device, on a flue port, or discarded. Answers whether
it went. -/
def World.fabricSend (w : World) (job : Option Nat) (dst : Nat) (m : FabMsg) : Bool × World :=
  if dst == w.devId then (true, w.sendNet m)
  else match w.outPort dst with
    | some p => (true, w.onPort job p ⟨dst, false, w.devId, 63, fabVc m⟩ m)
    | none => (false, w.routeDrop job dst (fabVc m))

/-- Multicast a message to a group (R252): a copy on every port of the mask that is up, and one inside when LOCAL is 1; with neither
it is discarded. -/
def World.fabricCast (w : World) (job : Option Nat) (g : Nat) (m : FabMsg) : Bool × World :=
  let e := w.group g
  if !e.testBit 19 then (false, w.routeDrop job g (fabVc m))
  else
    let ports := w.groupPorts g none
    if ports.isEmpty && !e.testBit 18 then (false, w.routeDrop job g (fabVc m))
    else
      let w := ports.foldl (fun w p => w.sendFlue p ⟨g, true, w.devId, 63, fabVc m⟩ m) w
      (true, if e.testBit 18 then w.sendNet m else w)

/-- The packet TYPE of a right bit: RD, WR, ATOMIC (R405, R409). -/
def rightType (right : Nat) : Nat := if right = 2 then 1 else if right = 3 then 2 else 4

end Sys2Proof.Machine
end

