-- ==== Sys2Proof/Machine/Act.lean ====
section
/-! DEFINITION. Job translation (R35 to R39), and the accesses of a command as a computation that either completes, with
its changes, or stops and leaves everything as it was. -/

namespace Sys2Proof.Machine

/-! ### Translation -/

/-- What a table walk or a translation finds. -/
inductive Xres where
  | ok (v : Nat)
  | fault
  | poison (g : Nat)
  /-- A host holds the entry's line modified (R354). -/
  | recall (line : Nat)
  /-- A failed die link stops the walk (R20). -/
  | cut
  deriving DecidableEq, Repr

/-- Read one table entry for an access of a node (R20, R35, R337). -/
def World.tabEntry (w : World) (node a : Nat) : Xres :=
  let l := lineOf a
  if w.linkCut node a then .cut
  else if w.lineBusy l || (match w.dirOf l with | some e => e.modified | none => false) then .recall l
  else if w.poisoned l then .poison l
  else .ok (w.word a).toNat

/-- A page address a valid entry may hold: any but the register range and the unmapped ranges of R32 (R37). -/
def pageLegal (a : Nat) : Bool :=
  decide (a < hbmEnd) || (decide (slmBase ≤ a) && decide (a < slmEnd)) || (decide (spBase ≤ a) && decide (a < spEnd)) ||
  (decide (guestBase ≤ a) && decide (a < guestEnd)) || decide (hostBase ≤ a)

/-- The root of a job in force (R38, R39): a cleared V acts only after an invalidation of the job. -/
def World.root (w : World) (job : Nat) : U64 :=
  let v := w.reg (rk 0x120 (0x800 + 8 * job))
  if bit v 0 then v else (w.dev.xlt.roots.lookup job).getD 0

/-- Walk both tables for a page: the second-level entry when the page is valid (R35 to R37). -/
def World.walk (w : World) (node job vpn : Nat) : Xres :=
  let root := w.root job
  let l1 := fld root 47 21 * 0x200000
  if !bit root 0 || !w.inHbm l1 0x200000 then .fault
  else match w.tabEntry node (l1 + 8 * (vpn / 512)) with
    | .ok e1 =>
      let l2 := bits e1 47 12 * 4096
      if !e1.testBit 0 || bits e1 11 1 ≠ 0 || bits e1 63 48 ≠ 0 || !w.inHbm l2 4096 then .fault
      else match w.tabEntry node (l2 + 8 * (vpn % 512)) with
        | .ok e2 =>
          if !e2.testBit 0 || bits e2 20 3 ≠ 0 || bits e2 63 48 ≠ 0 || !pageLegal (bits e2 47 21 * 0x200000) then .fault
          else .ok e2
        | r => r
    | r => r

/-- The cached translation of a page (R37). -/
def World.cachedXlt (w : World) (job vpn : Nat) : Option XltEntry :=
  w.dev.xlt.cache.find? fun e => e.job == job && e.vpn == vpn

/-- Keep a valid translation in the caches (R37, R39). -/
def World.cacheXlt (w : World) (job vpn e : Nat) : World :=
  w.upd fun d => { d with xlt := { d.xlt with
    cache := ⟨job, vpn, BitVec.ofNat 64 e⟩ :: d.xlt.cache.filter fun x => !(x.job == job && x.vpn == vpn) } }

/-- A table walk reads its two entries at their slices: errors in their words are met, and the accesses count (R336, R342, R349). -/
def World.walkReads (w : World) (ag : Agent) (job vpn : Nat) : World :=
  let root := w.root job
  let l1 := fld root 47 21 * 0x200000 + 8 * (vpn / 512)
  if !bit root 0 || !w.inHbm (fld root 47 21 * 0x200000) 0x200000 then w
  else
    let w := (w.meet ag l1 8).touch l1 8 false
    let l2 := bits (w.word l1).toNat 47 12 * 4096
    if (w.word l1).toNat.testBit 0 && w.inHbm l2 4096 then (w.meet ag (l2 + 8 * (vpn % 512)) 8).touch (l2 + 8 * (vpn % 512)) 8 false
    else w

/-- The entry an access uses: the walked one, or, while it differs from a cached one that no invalidation has dropped,
either of the two (R39). -/
def World.entryFor (w : World) (ag : Agent) (job vpn : Nat) : Xres × World :=
  let w := if (w.cachedXlt job vpn).isSome then w else w.walkReads ag job vpn
  let r := w.walk ag.node job vpn
  match w.cachedXlt job vpn with
  | some c =>
    if r = .ok c.entry.toNat then (r, w)
    else
      let (n, w) := w.draw
      if Config.staleXlt n then (.ok c.entry.toNat, w)
      else match r with
        | .ok e => (r, w.cacheXlt job vpn e)
        | _ => (r, w)
  | none => match r with
    | .ok e => (r, w.cacheXlt job vpn e)
    | _ => (r, w)

/-- Translate a job virtual address for a read or a write (R35 to R37). -/
def World.xlate (w : World) (ag : Agent) (job va : Nat) (write : Bool) : Xres × World :=
  match w.entryFor ag job (bits va 47 21) with
  | (.ok e, w) =>
    if (if write then e.testBit 2 else e.testBit 1) then (.ok (bits e 47 21 * 0x200000 + va % 0x200000), w) else (.fault, w)
  | (r, w) => (r, w)

/-! ### Commands as computations -/

/-- The poison that ended an access stays found: its error is met and the read counts (R337, R348). -/
def World.metPoison (w : World) (ag : Agent) (g : Nat) : World := (w.meet ag g (granSize g)).countPoisonRead g

/-- Why a computation stops and takes back what it did: it completes with a status; its translation faults; a table entry
is poisoned; a host holds a line it reads; a window's bytes must be asked for; it must wait. -/
inductive Stop where
  | status (code : Nat)
  | xlt (va : Nat)
  | poison (g : Nat)
  | recall (line : Nat)
  | fetch (pa : Nat) (own : Bool)
  | hold
  deriving DecidableEq, Repr

/-- What a computation carries: the world, its counters, the first poisoned granule it read (R444), whether a guest access
was denied (R410), whether a write was not performed (R34), the number of the event raised with its status, the regions of its own scratchpad it reads and writes
(R117), the function slots that it names if it waits (R108), and who it is. -/
structure Run where
  w : World
  cnt : Counts
  pois : Option Nat
  denied : Bool
  lost : Bool
  evseq : Nat
  rd : Nat
  wr : Nat
  slots : Nat
  ag : Agent
  stamp : Option Stamp
  deriving DecidableEq, Repr

/-- A computation over the block that may stop. -/
abbrev Act := StateT Run (Except Stop)

/-- A computation's start. -/
def Run.init (w : World) (ag : Agent) : Run := ⟨w, ⟨0, 0, 0, 0, 0, 0, 0, 0, false⟩, none, false, false, 0, 0, 0, 0, ag, none⟩

/-- Change the world. -/
def actW (f : World → World) : Act Unit := modify fun r => { r with w := f r.w }

/-- Look at the world. -/
def actGet (f : World → α) : Act α := do return f (← get).w

/-- Change the world and answer. -/
def actRun (f : World → α × World) : Act α := do
  let r ← get
  let p := f r.w
  set { r with w := p.2 }
  return p.1

/-- Whether a command has not completed, has not started, or has started and waits. -/
def Entry.undone (e : Entry) : Bool := e.phase != .done && e.phase != .recorded
def Entry.unstarted (e : Entry) : Bool := e.phase == .read
def Entry.waiting (e : Entry) : Bool := e.undone && !e.unstarted

/-- Whether scratchpad accesses wait for an earlier command of the ring that is still waiting (R117). -/
def clash (es : List Entry) (idx rd wr : Nat) : Bool :=
  es.any fun x => x.waiting && decide (x.idx < idx) && (x.writes &&& (rd ||| wr) != 0 || x.reads &&& wr != 0)

/-- Whether what a stove's command has accessed so far waits for an earlier command (R117). -/
def Run.clashes (r : Run) : Bool :=
  match r.ag.stove, r.ag.cmd with
  | some _, some (ring, idx) => match r.w.dev.rings.find? fun x => x.ring == ring with
    | some x => clash x.entries idx r.rd r.wr
    | none => false
  | _, _ => false

/-- Stop a computation, unless what it has accessed must wait first (R117). -/
def stopWith (s : Stop) : Act α := do
  if (← get).clashes then throw .hold
  throw s

/-- Complete with a status, without any effect. -/
def fail (code : Nat) : Act α := stopWith (.status code)

/-- Complete with a status unless a condition holds. -/
def need (b : Bool) (code : Nat) : Act Unit := if b then pure () else stopWith (.status code)

/-- Count. -/
def tally (f : Counts → Counts) : Act Unit := modify fun r => { r with cnt := f r.cnt }

/-- Note poison read (R337, R444). -/
def notePoison (g : Nat) : Act Unit :=
  modify fun r => { r with pois := match r.pois with | some p => some p | none => some g }

/-- The bits of the regions [a, a + n) of a stove's scratchpad (R115). -/
def regionBits (a n : Nat) : Nat :=
  if n = 0 then 0
  else
    let q := (a - spBase) % 0x400000 / 0x10000
    let k := ((a - spBase) % 0x400000 + n - 1) / 0x10000 - q + 1
    (2 ^ k - 1) * 2 ^ q

/-- Translate in the command's job (R37, R337). -/
def xlateA (va : Nat) (write : Bool) : Act Nat := do
  let r ← get
  let x ← actRun fun w => w.xlate r.ag (r.ag.job.getD 0) va write
  match x with
  | .ok pa => return pa
  | .fault => stopWith (.xlt va)
  | .poison g => stopWith (.poison g)
  | .recall l => throw (.recall l)
  | .cut => throw .hold

/-- Translate a range, page by page: physical pieces and their lengths. -/
def xlateRange (va n : Nat) (write : Bool) : Act (List (Nat × Nat)) :=
  if n = 0 then return []
  else
    let first := va / 0x200000
    (upTo first ((va + n - 1) / 0x200000 - first + 1)).mapM fun p => do
      let lo := max va (p * 0x200000)
      let hi := min (va + n) ((p + 1) * 0x200000)
      return (← xlateA lo write, hi - lo)

/-- Take the bytes a response has brought for a line (R356, R406). -/
def World.takeGot (w : World) (line : Nat) : World :=
  w.upd fun d => { d with urk := { d.urk with got := d.urk.got.filter fun g => g.addr ≠ line } }

/-- The site whose guest serves a register page: up and not isolated (R439). -/
def World.guestPage (w : World) (a : Nat) : Option Nat :=
  let p := (a - regBase) / 0x1000
  let g := (p - 0x8000) / 0x100
  if 0x8000 ≤ p ∧ p < 0x8200 ∧ w.guestUp g then some g else none

/-- Ask a guest for n bytes; `units` is the RD's A3. -/
def World.guestAsk (w : World) (g : Nat) (ag : Agent) (a n units : Nat) : World :=
  if w.tagsFull (4 + g) || w.dev.urk.reqs.any (fun q => q.addr == a && q.op ≠ 4) then w
  else
    let (t, w) := w.newTag (4 + g)
    let w := w.sendGuest g ⟨0x3000 + 0x100 * g, 0x2038 + g, 0, 1, ag.job.getD 0, false, false, 0, BitVec.ofNat 64 a, 0, t, 0,
      BitVec.ofNat 64 units, []⟩
    w.addReq ⟨4 + g, t, 3, a, n, ag.cmd, ag.job, false⟩

/-- Read n bytes within one line; what cannot be read is zeros marked as poison (R34). An access over a failed die link waits
(R20). Answers the bytes and the poisoned granules among those it read. -/
def readLine (a n : Nat) : Act (List Byte × List Nat) := do
  let r ← get
  let w := r.w
  let l := lineOf a
  if w.linkCut r.ag.node a then throw .hold
  let bad : Act (List Byte × List Nat) := do
    notePoison l
    return (List.replicate n 0, [granOf a])
  match w.place a with
  | .hbm | .slm _ =>
    if w.lineBusy l || (match w.dirOf l with | some e => e.modified | none => false) then throw (.recall l)
    actW fun w => (w.meet r.ag a n).touch a n false
    if (← get).w.poisoned l then
      notePoison l
      actW fun w => w.countPoisonRead l
      return (w.bytes a n, [l])
    return (w.bytes a n, [])
  | .scratch s =>
    if r.ag.stove = some s then modify fun r => { r with rd := r.rd ||| regionBits a n }
    actW fun w => w.meet r.ag a n
    let ps := (granules a n).filter (← get).w.poisoned
    match ps with
    | [] => return (w.bytes a n, [])
    | g :: _ =>
      notePoison g
      return (w.bytes a n, ps)
  | .guest g =>
    if !w.guestAdmits g 2 r.ag.job a n then
      actW fun w => w.fwDeny g 1 1 r.ag.job r.ag.node a false
      modify fun r => { r with denied := true }
      return (List.replicate n 0, [granOf a])
    match w.dev.urk.got.find? fun h => h.addr == l with
    | none => throw (.fetch l false)
    | some h =>
      actW fun w => w.takeGot l
      if h.status ≠ 0 then modify fun r => { r with denied := true }
      if h.poison then bad else return (w.bytes a n, [])
  | .host _ =>
    if r.ag.stoker && w.dev.urk.lines.any (fun x => x.addr == l) then return (w.bytes a n, [])
    match w.dev.urk.got.find? fun h => h.addr == l with
    | none => throw (.fetch l false)
    | some h =>
      actW fun w => w.takeGot l
      if h.poison then bad else return (w.bytes a n, [])
  | .lost _ => bad
  | .page =>
    match (if r.ag.regs && (w.guestPage a).isSome && a % 8 == 0 && n == 8 then some (w.dev.urk.got.find? fun h => h.addr == a) else none) with
    | none =>
      actW fun w => w.unmapped r.ag a
      bad
    | some none => throw (.fetch a false)
    | some (some h) =>
      actW fun w => w.takeGot a
      if h.poison then bad else return (w.bytes a n, [])
  | .nowhere =>
    actW fun w => w.unmapped r.ag a
    bad

/-- Read n bytes at a physical address. -/
def readP (a n : Nat) : Act (List Byte × List Nat) := do
  let ps ← (lines a n).mapM fun l => do
    let lo := max a l
    readLine lo (min (a + n) (l + 128) - lo)
  return (ps.flatMap Prod.fst, ps.flatMap Prod.snd)

/-- A write that nothing performs: the command completes with POISON (R34, R356). -/
def noteLost : Act Unit := modify fun r => { r with lost := true }

/-- Write bytes within one line (R20, R34, R356, R409); a partial write meets the errors of what it fills from (R342). -/
def writeLineA (a : Nat) (bs : List Byte) : Act Unit := do
  let r ← get
  let w := r.w
  if w.linkCut r.ag.node a then throw .hold
  match w.place a with
  | .hbm | .slm _ => actW fun w => (if bs.length < 128 then w.meet r.ag (lineOf a) 128 else w).storeLine r.ag a bs
  | .scratch s =>
    if r.ag.stove = some s then modify fun r => { r with wr := r.wr ||| regionBits a bs.length }
    actW fun w => w.storeLine r.ag a bs
  | .host _ =>
    if r.ag.stoker && !w.dev.urk.lines.any (fun x => x.addr == lineOf a && x.own) then throw (.fetch (lineOf a) true)
    actW fun w => w.storeLine r.ag a bs
  | .guest g =>
    if !w.guestAdmits g 3 r.ag.job a bs.length then
      actW fun w => w.fwDeny g 1 2 r.ag.job r.ag.node a false
      modify fun r => { r with denied := true }
    else actW fun w => w.guestStore g r.ag a bs
  | .lost _ => noteLost
  | .page =>
    match (if r.ag.regs && a % 8 == 0 && bs.length == 8 then w.guestPage a else none) with
    | some g =>
      if w.tagsFull (4 + g) then throw .hold
      actW fun w => w.guestPut g r.ag a bs
    | none =>
      actW fun w => w.unmapped r.ag a
      noteLost
  | .nowhere =>
    actW fun w => w.unmapped r.ag a
    noteLost

/-- Write bytes at a physical address. -/
def writeP (a : Nat) (bs : List Byte) : Act Unit := (linePieces a bs).forM fun p => writeLineA p.1 p.2

/-- Mark as poisoned the granules of [a, a + n), after the command's writes there. -/
def poisonP (a n : Nat) : Act Unit :=
  modify fun r => { r with w := (granules a n).foldl (fun w g => w.poisonAt r.ag g) r.w }

/-- Read n bytes at a job virtual address. -/
def readV (va n : Nat) : Act (List Byte × List Nat) := do
  let ps ← xlateRange va n false
  let rs ← ps.mapM fun p => readP p.1 p.2
  return (rs.flatMap Prod.fst, rs.flatMap Prod.snd)

/-- Write bytes at a job virtual address. -/
def writeV (va : Nat) (bs : List Byte) : Act Unit := do
  let ps ← xlateRange va bs.length true
  let _ ← ps.foldlM (fun bs p => do
    writeP p.1 (bs.take p.2)
    return bs.drop p.2) bs

/-- Read a 64-bit word at a job virtual address, and whether it is poisoned. -/
def readWordV (va : Nat) : Act (U64 × Bool) := do
  let (bs, ps) ← readV va 8
  return (leWord bs, !ps.isEmpty)

/-- Raise an event for the command, delivered to its ring's port (R368). -/
def raiseA (page code qual : Nat) (d0 d1 : U64) : Act Nat := do
  let r ← get
  actRun fun w => w.raise (r.ag.cmd.map fun c => w.ringPort c.1) page code qual d0 d1

/-- Raise the event that belongs to the command's status (R144). -/
def raiseStatus (page code qual : Nat) (d0 d1 : U64) : Act Unit := do
  let n ← raiseA page code qual d0 d1
  modify fun r => { r with evseq := n }

/-- Raise EV_POISON for the command if it read poison; whether it did (R337, R444). -/
def poisonEvent : Act Bool := do
  let r ← get
  match r.pois with
  | none => return false
  | some g =>
    raiseStatus r.ag.page 0x02 0 (detail r.ag.job (r.ag.seq * 2 ^ 32)) (BitVec.ofNat 64 (g % 2 ^ 48))
    return true

/-- The request that a stop makes: a snoop of the line, or a read of a host or guest line (R354, R356, R406). -/
def World.ask (w : World) (ag : Agent) : Stop → World
  | .recall l => w.snoop l true none
  | .fetch l own =>
    match w.place l with
    | .host p =>
      if w.tagsFull p || w.dev.urk.reqs.any (fun q => q.addr == l && q.op ≠ 4) then w
      else
        let op := if own then 2 else if ag.stoker then 1 else 3
        let (t, w) := w.newTag p
        let w := w.sendUrk op ⟨p, 0, t, false, false, 128, l % 2 ^ 45, 0, []⟩
        w.addReq ⟨p, t, op, l, 128, ag.cmd, ag.job, false⟩
    | .guest g => w.guestAsk g ag l 128 4
    | .page => match w.guestPage l with
      | some g => w.guestAsk g ag l 8 0
      | none => w
    | _ => w
  | _ => w

/-- Run a unit's own step: its changes, or only the requests it must wait for. -/
def World.act (w : World) (ag : Agent) (a : Act Unit) : World :=
  match a.run (Run.init w ag) with
  | .ok (_, r) => r.w
  | .error s => w.ask ag s

/-! ### Memory-side atomics (R344) -/

/-- The result of an atomic on a word: 0 ADD64, 1 ADD48S, 2 MAXU16 (R344, R405). -/
def atomicResult (op : Nat) (old v : U64) : U64 :=
  match op with
  | 0 => old + v
  | 1 => setFld old 47 0 (min (2 ^ 48 - 1) (fld old 47 0 + fld v 47 0))
  | 2 => setFld old 63 48 (max (fld old 63 48) (fld v 63 48))
  | _ => old

/-- An atomic at its home slice; it waits there while a host holds the line (R354). -/
def World.atomicAt (w : World) (ag : Agent) (a op : Nat) (v : U64) : World :=
  match w.place a with
  | .hbm | .slm _ =>
    let w := (w.meet ag a 8).touch a 8 true
    let l := lineOf a
    if w.lineHeld l then (w.snoop l false none).queueHome ⟨l, .atomic a op v, ag.cmd, ag.job⟩
    else
      let w := w.snapBefore a
      w.put a (wordBytes (atomicResult op (w.word a) v))
  | _ => w

end Sys2Proof.Machine
end

