-- ==== Sys2Proof/Machine/Flags.lean ====
section
/-! DEFINITION. Shared status codes, the numeric counters of a command, its completion record (R77, R144), and health
records (R79, R80). -/

namespace Sys2Proof.Machine

/-! ### Shared status codes -/

def stOk : Nat := 0x00
def stPreempted : Nat := 0x01
def stPoison : Nat := 0x02
def stVersionTimeout : Nat := 0x03
def stFwDenied : Nat := 0x04
def stNackStale : Nat := 0x05
def stLate : Nat := 0x06
def stAbortedWdog : Nat := 0x07
def stFireguard : Nat := 0x08
def stFormat : Nat := 0x09
def stOverrun : Nat := 0x0A
def stMsgTooLong : Nat := 0x0B
def stXlt : Nat := 0x0C
def stOperand : Nat := 0x0D
def stJob : Nat := 0x0E
def stTimeout : Nat := 0x0F
def stVersionStale : Nat := 0x10
def stRefused : Nat := 0x11
def stClosed : Nat := 0x12

/-! ### Counters (R56, R57, R77, R78) -/

/-- Count the reading of one element (R56). -/
def Counts.read (c : Counts) : InCls → Counts
  | .none => c
  | .flush => { c with flushIn := c.flushIn + 1 }
  | .nonfin => { c with nonfinIn := c.nonfinIn + 1 }

/-- Count the writing of one element (R56). -/
def Counts.wrote (c : Counts) : OutCls → Counts
  | .none => c
  | .nonfin => { c with nonfinOut := c.nonfinOut + 1 }
  | .sat => { c with satOut := c.satOut + 1 }
  | .flushZero => { c with flushOut := c.flushOut + 1, zeroOut := c.zeroOut + 1 }
  | .zero => { c with zeroOut := c.zeroOut + 1 }
  | .satZero => { c with satOut := c.satOut + 1, zeroOut := c.zeroOut + 1 }

/-- Count one element of a stream quantisation (R57). -/
def Counts.streamed (c : Counts) : OutCls → Counts
  | .nonfin => { c with nonfinIn := c.nonfinIn + 1 }
  | .sat => { c with satIn := c.satIn + 1 }
  | .flushZero => { c with flushIn := c.flushIn + 1 }
  | _ => c

/-- Counts of two parts of a command together. -/
def Counts.plus (a b : Counts) : Counts :=
  ⟨a.satIn + b.satIn, a.flushIn + b.flushIn, a.nonfinIn + b.nonfinIn, a.satOut + b.satOut, a.flushOut + b.flushOut,
    a.nonfinOut + b.nonfinOut, a.zeroOut + b.zeroOut, a.fgReplay + b.fgReplay, a.fgOver || b.fgOver⟩

/-- Whether a counter stopped at its largest value (R78): CSAT is set only when a count is lost, not when a counter just reaches its
largest value (DESIGN CHOICE, log entry 77). -/
def Counts.csat (c : Counts) : Bool :=
  [c.satIn, c.flushIn, c.nonfinIn, c.satOut, c.flushOut, c.nonfinOut, c.zeroOut].any (fun n => decide (0xFFFFFFFF < n)) ||
    decide (0xFFFF < c.fgReplay)

/-- Bytes 0x20 to 0x3F of a completion record (R77). -/
def Counts.bytes (c : Counts) : List Byte :=
  let m := fun n => min n 0xFFFFFFFF
  leBytes 8 (m c.satIn + m c.flushIn * 2 ^ 32) ++ leBytes 8 (m c.nonfinIn + m c.satOut * 2 ^ 32) ++
  leBytes 8 (m c.flushOut + m c.nonfinOut * 2 ^ 32) ++
  leBytes 8 (m c.zeroOut + min c.fgReplay 0xFFFF * 2 ^ 32 + c.csat.toNat * 2 ^ 48 + c.fgOver.toNat * 2 ^ 49)

/-! ### The command header (R130) -/

def opcodeOf (d : Desc) : Nat := fld d.w0 7 0
def jobOf (d : Desc) : Nat := fld d.w0 13 8
def preemptOk (d : Desc) : Bool := bit d.w0 16
def fenceOf (d : Desc) : Bool := bit d.w0 17
def notifyOf (d : Desc) : Bool := bit d.w0 18
def seqOf (d : Desc) : Nat := fld d.w0 63 32
def liveOf (d : Desc) : Nat := fld d.w1 15 0
def stepOf (d : Desc) : Nat := fld d.w1 63 32

/-- Reserved header bits are zero (R130). -/
def headerOk (d : Desc) : Bool := zeroBits d.w0 [(15, 14), (31, 19)] && zeroBits d.w1 [(31, 16)]

/-- The 64 bytes of a descriptor. -/
def descBytes (d : Desc) : List Byte := [d.w0, d.w1, d.w2, d.w3, d.w4, d.w5, d.w6, d.w7].flatMap wordBytes

/-- The descriptor in 64 bytes. -/
def descOf (bs : List Byte) : Desc :=
  let w := fun i => leWord ((bs.drop (8 * i)).take 8)
  ⟨w 0, w 1, w 2, w 3, w 4, w 5, w 6, w 7⟩

/-- The 64-byte completion record of a command (R77, R144). -/
def Entry.record (e : Entry) : List Byte :=
  leBytes 8 (seqOf e.desc + opcodeOf e.desc * 2 ^ 32 + jobOf e.desc * 2 ^ 40 + e.status * 2 ^ 48 +
    min e.preempts 255 * 2 ^ 56) ++
  leBytes 8 e.tEnd ++ leBytes 8 e.tStart ++ leBytes 8 (stepOf e.desc + e.evseq % 2 ^ 24 * 2 ^ 32) ++ e.counts.bytes

/-! ### Jobs -/

/-- A job that exists (R123). -/
def World.job (w : World) (j : Nat) : Option Job := w.dev.jobs.find? fun x => x.num == j

/-- Change a job. -/
def World.modJob (w : World) (j : Nat) (f : Job → Job) : World :=
  w.upd fun d => { d with jobs := updFirst (fun x => x.num == j) f d.jobs }

/-- Whether a job is assignable to a port (R360). -/
def World.assignable (w : World) (j p : Nat) : Bool := bit (w.reg (rk (0x10 + p) 0x098)) j

/-! ### Health records (R79, R80) -/

/-- What one command's conversions add to a tensor's record: elements, largest finite source magnitude, and counts. -/
structure HealthAdd where
  tid : Nat
  kind : Nat
  elems : Nat := 0
  amax : Nat × Nat := (0, 1)
  zeros : Nat := 0
  sats : Nat := 0
  nonfin : Nat := 0
  flushes : Nat := 0
  streamSats : Nat := 0
  replays : Nat := 0
  deriving DecidableEq, Repr

/-- AMAX of a magnitude: rounded up on the L16 grid, within min normal and max; zero for none (R79). -/
def amaxCode (m : Nat × Nat) : Nat := if m.1 = 0 then 0 else scaleUp .l16 m.1 m.2

/-- The larger of two magnitudes. -/
def maxMagQ (a b : Nat × Nat) : Nat × Nat := if a.1 * b.2 < b.1 * a.2 then b else a

/-- Count one converted element with its source value (R79, R80). -/
def HealthAdd.elem (h : HealthAdd) (v : Val) (c : OutCls) : HealthAdd :=
  let h := { h with elems := h.elems + 1, amax := (match v with | .fin n d => maxMagQ h.amax (n.natAbs, d) | _ => h.amax) }
  match c with
  | .none => h
  | .nonfin => { h with nonfin := h.nonfin + 1 }
  | .sat => { h with sats := h.sats + 1 }
  | .flushZero => { h with flushes := h.flushes + 1, zeros := h.zeros + 1 }
  | .zero => { h with zeros := h.zeros + 1 }
  | .satZero => { h with sats := h.sats + 1, zeros := h.zeros + 1 }

/-- Address of a tensor's record for a step (R79). -/
def healthAddr (j : Job) (step tid : Nat) : Nat := j.health + step % 2 * 0x400000 + tid * 64

/-- Add to a tensor's health record, by memory-side atomics (R80); `wrote` names a conversion into the tensor. -/
def World.addHealth (w : World) (ag : Agent) (job step : Nat) (h : HealthAdd) (wrote : Bool) : World :=
  match w.job job with
  | none => w
  | some j =>
    let a := healthAddr j step h.tid
    let at48 := fun (w : World) (off n : Nat) => if n = 0 then w else w.atomicAt ag (a + off) 1 (BitVec.ofNat 64 n)
    let w := if wrote then w.store ag a (leBytes 3 (h.tid + h.kind * 2 ^ 16))
      else if h.streamSats + h.replays = 0 then w else w.store ag a (leBytes 2 h.tid)
    let w := at48 w 0x08 h.elems
    let w := if h.amax.1 = 0 then w else w.atomicAt ag (a + 0x08) 2 (BitVec.ofNat 64 (amaxCode h.amax * 2 ^ 48))
    let w := at48 w 0x10 h.zeros
    let w := at48 w 0x18 h.sats
    let w := at48 w 0x20 h.nonfin
    let w := at48 w 0x28 h.flushes
    let w := at48 w 0x30 h.streamSats
    at48 w 0x38 h.replays

/-- Add to a health record from a command; it waits while the bank is still to be zeroed (R83). -/
def healthA (job step : Nat) (h : HealthAdd) (wrote : Bool) : Act Unit := do
  let r ← get
  match r.w.job job with
  | none => pure ()
  | some j =>
    if j.zeroWait.contains step then throw .hold
    actW fun w => w.addHealth r.ag job step h wrote

end Sys2Proof.Machine
end

