-- ==== Sys2Proof/Machine/Queue.lean ====
section
/-! DEFINITION. Rings and the life of a command: read, started when the issue rules allow, completed, recorded (R84, R117,
R125 to R136, R144, R145). -/

namespace Sys2Proof.Machine

/-- Whether the device runs: READY, powered, out of reset and not frozen (R423, R425, R428). -/
def Dev.live (d : Dev) : Bool :=
  bit (mapGet d.regs (regReset (rk 0 0x080)) (rk 0 0x080)) 0 && !d.pwr.frozen && !d.pwr.reset && d.pwr.supply == .on

/-- A command of a running device: its changes are made together. Of a device that does not run, nothing changes. -/
def State.run (s : State) (f : World → World) : Host.Outcome State Fault Refusal :=
  if s.dev.live then .next (s.commit (f s.toWorld)) else .next s

/-- An idle core cycle: a memory error may arise, and GTIME counts (R15, R40). -/
def World.idleCycle (w : World) : World := w.errorArises.upd fun d => { d with gtime := (d.gtime + 1) % 2 ^ 64 }

/-- A timed event falls at its deadline: GTIME is no earlier (R15, R40). -/
def World.at (w : World) (t : Nat) : World := w.upd fun d => { d with gtime := max d.gtime t }

/-- Register key of an offset of a ring's block (R125, R126). -/
def rgk (r : RingId) (off : Nat) : Nat := rk r.page (0x100 + 0x40 * r.n + off)

/-- Whether a ring exists (R125). -/
def ringExists (r : RingId) : Bool :=
  match pageInfo r.page with
  | some (b, _) => decide (r.n < b.rings)
  | none => false

/-- The stove of a ring on an STV page. -/
def ringStove (r : RingId) : Option Nat :=
  match pageInfo r.page with
  | some (.stv, i) => some i
  | _ => none

/-- What a ring holds. -/
def World.ringRun (w : World) (r : RingId) : RingRun :=
  (w.dev.rings.find? fun x => x.ring == r).getD ⟨r, 0, [], none, 0, false, false⟩

/-- Change what a ring holds. -/
def World.modRing (w : World) (r : RingId) (f : RingRun → RingRun) : World :=
  w.upd fun d =>
    if d.rings.any (fun x => x.ring == r) then { d with rings := updFirst (fun x => x.ring == r) f d.rings }
    else { d with rings := d.rings ++ [f ⟨r, 0, [], none, 0, false, false⟩] }

/-- Change one command of a ring. -/
def World.modEntry (w : World) (r : RingId) (idx : Nat) (f : Entry → Entry) : World :=
  w.modRing r fun x => { x with entries := updFirst (fun e => e.idx == idx) f x.entries }

/-- HEAD and DONE of a ring (R126). -/
def World.ringHead (w : World) (r : RingId) : Nat := w.rf (rgk r 0x20) 31 0
def World.ringDone (w : World) (r : RingId) : Nat := w.rf (rgk r 0x20) 63 32
def World.ringErr (w : World) (r : RingId) : Nat := w.rf (rgk r 0x30) 7 4

/-- Whether TIK is a ring's only producer (R206). -/
def World.isBound (w : World) (r : RingId) : Bool :=
  match ringStove r with
  | some s => w.dev.bound.any fun g => g.ring == r.n && g.members.any (fun m => m.stove == s)
  | none => false

/-- Whether a ring may read commands: EN, not halted or stopped, and its page's EN (R126, R129, R441). -/
def World.ringReads (w : World) (r : RingId) : Bool :=
  bit (w.reg (rgk r 0)) 0 && !bit (w.reg (rgk r 0x30)) 3 && (w.ringErr r == 0 || w.ringErr r == 4) &&
  !bit (w.reg (rgk r 0x38)) 2 && bit (w.reg (rk r.page 0x010)) 0

/-- Read a command: HEAD and the SEQ_IN registers advance (R127, R371, R442). -/
def World.readCmd (w : World) (r : RingId) (d : Desc) (stamp : Option Stamp) : World :=
  let h := w.ringHead r
  let h' := (h + 1) % 2 ^ 32
  let w := w.setRf (rgk r 0x20) 31 0 h'
  let w := w.setRf (rgk r 0x28) 31 0 (seqOf d)
  let w := w.setRf (rk r.page 0x038) 31 0 (seqOf d)
  let w := w.setRf (rk (0x10 + w.ringPort r) 0x038) 31 0 (seqOf d)
  w.modRing r fun x =>
    { x with
      entries := x.entries ++ [{ idx := h, desc := d, phase := .read, stamp := stamp, log2 := w.rf (rgk r 0) 5 1 }]
      tail := if x.tail = h then h' else x.tail }

/-- The unit of a stove that runs an opcode (R84, R98): tile unit, Hob, move engine; others run on none. -/
inductive SUnit where
  | tile | hob | move | none
  deriving DecidableEq, Repr

def unitOf (op : Nat) : SUnit :=
  if op = 0x18 then .hob
  else if 0x20 ≤ op ∧ op ≤ 0x25 then .move
  else if (0x10 ≤ op ∧ op ≤ 0x12) ∨ (0x50 ≤ op ∧ op ≤ 0x5F) then .tile
  else .none

/-- WAIT_LINE and OPT_OPEN hold back the later commands of their ring (R133, R185). -/
def Entry.waitsLine (e : Entry) : Bool := match e.phase with | .waitLine _ _ _ => true | .optOpen => true | _ => false

/-- The attention commands (R312 to R317). -/
def isAttn (op : Nat) : Bool := decide (0x50 ≤ op) && decide (op ≤ 0x56)

/-- Whether an entry must still wait for earlier commands of its own ring: queue order, FENCE, WRITE_LINE after every
completion, WAIT_LINE before every later start, an attention command after every completion, one command at a time on a
stove's unit (R84, R130, R133, R318). -/
def orderHolds (done : Nat) (es : List Entry) (e : Entry) : Bool :=
  let before := es.takeWhile fun x => x.idx != e.idx
  before.any Entry.unstarted || (fenceOf e.desc && done != e.idx) ||
  (opcodeOf e.desc == 1 && before.any Entry.undone) || before.any Entry.waitsLine ||
  (isAttn (opcodeOf e.desc) && before.any Entry.undone) ||
  (unitOf (opcodeOf e.desc) != .none &&
    before.any fun x => x.waiting && unitOf (opcodeOf x.desc) == unitOf (opcodeOf e.desc))

/-- Whether a WS set or the OS accumulators of a stove are live (R158). -/
def World.accLive (w : World) (s : Nat) : Bool :=
  match w.dev.stoves.find? fun x => x.num == s with
  | some x => x.set0.live || x.set1.live || x.os.live
  | none => false

/-- Whether a line's value must first come back from a host (R354). -/
def World.lineAway (w : World) (l : Nat) : Bool :=
  w.lineBusy l || (match w.dirOf l with | some e => e.modified | none => false)

/-- Address of the save-table entry of a stove's ring for a job (R139), and of the live mask at a job's index (R121). -/
def World.saveEntry (w : World) (s ring job : Nat) : Option Nat := (w.job job).map fun j => j.savetab + 8 * (s * 4 + ring)
def World.maskEntry (w : World) (job idx : Nat) : Option Nat := (w.job job).map fun j => j.livetab + 8 * idx

/-- The line of an entry whose value must first come back from a host. -/
def World.entryAway (w : World) (a : Option Nat) : Option Nat := (a.map lineOf).filter w.lineAway

/-- The save slot of a stove's ring for a job, when its entry of the save table is valid (R139). -/
def World.saveSlot (w : World) (s ring job : Nat) : Option Nat :=
  match w.saveEntry s ring job with
  | some a => if bit (w.word a) 0 then some (fld (w.word a) 47 12 * 4096) else none
  | none => none

/-- Whether the stove may preempt a ring for a job: its save slot is valid, or not known while a host holds its entry (R139). -/
def World.maySave (w : World) (s ring job : Nat) : Bool :=
  (w.entryAway (w.saveEntry s ring job)).isSome || (w.saveSlot s ring job).isSome

def World.quiescent (w : World) (r : RingId) : Bool := bit (w.reg (rgk r 0x30)) 2
def World.suspended (w : World) (r : RingId) : Bool := bit (w.reg (rgk r 0x30)) 1

/-- A waiting command that a preemption takes back to its start: a WAIT_LINE, or a CHN_SEND that has written nothing of its message
(R133, R241). -/
def World.takesBack (w : World) (e : Entry) : Bool :=
  match e.phase with
  | .waitLine _ _ _ => true
  | .channel c => opcodeOf e.desc == 0x24 &&
      (w.dev.chn.sflows.any fun f => f.ctx == c && f.since.isSome)
  | _ => false

/-- A waiting command that is a cheap point for as long as it waits (R133, R241). -/
def World.cheapWait (w : World) (e : Entry) : Bool := preemptOk e.desc && w.takesBack e

/-- The cheap point at which a ring of a stove stands: the job and live-mask index of its command (R136, R133, R158). -/
def World.cheapAt (w : World) (r : RingId) : Option (Nat × Nat) :=
  let run := w.ringRun r
  match run.cheap with
  | some c => some c
  | none => match run.entries.filter Entry.waiting, ringStove r with
    | [e], some s => if w.cheapWait e && !w.accLive s then some (jobOf e.desc, liveOf e.desc) else none
    | _, _ => none

/-- Whether a ring holds a read command that may start (R135, R137). -/
def World.ringReady (w : World) (r : RingId) : Bool :=
  match (w.ringRun r).entries.find? Entry.unstarted with
  | some e => !orderHolds (w.ringDone r) (w.ringRun r).entries e
  | none => false

/-- What a stove holds. -/
def World.stove (w : World) (s : Nat) : Stove := (w.dev.stoves.find? fun x => x.num == s).getD (Stove.empty s)

/-- The group and member of a bound ring (R206). -/
def World.ringGroup (w : World) (r : RingId) : Option (Group × Member) :=
  match ringStove r with
  | none => none
  | some s => (w.dev.bound.find? fun g => g.ring == r.n && g.members.any fun m => m.stove == s).bind fun g =>
      (g.members.find? fun m => m.stove == s).map fun m => (g, m)

/-- Whether a ring has no command to execute: none read, and none that its producer has handed over, TIK by releasing it (R135,
R206). -/
def World.ringEmpty (w : World) (r : RingId) : Bool :=
  !(w.ringRun r).entries.any Entry.undone &&
  match w.ringGroup r with
  | some (_, m) => m.queue.all fun q => decide (q.count ≤ q.read)
  | none => (w.ringRun r).tail == w.ringHead r || !w.ringReads r

/-- Whether a stove runs a ring on until it is empty and QUIESCENT, as no save slot of its job is valid (R139). -/
def World.runsOut (w : World) (r : RingId) : Bool :=
  match ringStove r with
  | some s => (w.ringRun r).turn && !w.ringEmpty r && !w.maySave s r.n (w.ringRun r).lastJob
  | none => false

/-- Whether a ring executes or holds live data: it is the stove's current ring (R137). -/
def World.ringCurrent (w : World) (r : RingId) : Bool :=
  !w.suspended r && ((w.ringRun r).entries.any Entry.waiting || !w.quiescent r || w.runsOut r)

/-- Whether a ring is empty and QUIESCENT (R135). -/
def World.ringIdle (w : World) (r : RingId) : Bool := w.ringEmpty r && w.quiescent r

/-- Whether a preemption under way keeps a ring of its stove from starting a command: a ring above the one that is to be saved; and
that one past PREEMPT_DEADLINE, where no further command starts (R137, R138). -/
def World.preHolds (w : World) (r : RingId) : Bool :=
  match ringStove r with
  | none => false
  | some s => match (w.stove s).pre with
    | none => false
    | some (l, _, t) => decide (l < r.n) || (l == r.n && decide (t ≤ w.dev.gtime))

/-- Whether a command follows one with PREEMPT_OK that has not completed, or that an earlier one has not (R136). -/
def followsOpen (es : List Entry) (e : Entry) : Bool :=
  es.any fun x => preemptOk x.desc && decide (x.idx < e.idx) && es.any fun y => y.undone && decide (y.idx ≤ x.idx)

/-- Whether a stove's other rings keep ring r from starting a command (R135 to R139): its own suspension, a lower ring that is
current, a higher ring that is not empty and QUIESCENT, unless r runs on to its next cheap point. -/
def World.stoveHolds (w : World) (r : RingId) (e : Entry) : Bool :=
  let ring := fun n => (⟨r.page, n⟩ : RingId)
  let higher := (upTo (r.n + 1) (3 - r.n)).map ring
  w.suspended r || w.preHolds r || ((List.range r.n).map ring).any w.ringCurrent ||
  (!higher.all w.ringIdle &&
    (let ready := higher.any w.ringReady
     !w.ringCurrent r ||
     (ready && followsOpen (w.ringRun r).entries e) ||
     (ready && match w.cheapAt r, ringStove r with
        | some (j, _), some s => w.maySave s r.n j
        | _, _ => false)))

/-- Whether another ring of the same engine, of higher priority, has a command that may start (R135). -/
def World.prioHolds (w : World) (r : RingId) : Bool :=
  let lo := match pageInfo r.page with | some (.wbx, _) => r.n / 4 * 4 | some (.chm, _) => 0 | _ => 0
  let cnt := match pageInfo r.page with | some (.chm, _) => 16 | _ => 4
  (upTo lo cnt).any fun n =>
    decide (r.n % 4 < n % 4) &&
    let o : RingId := ⟨r.page, n⟩
    let es := (w.ringRun o).entries
    match es.find? Entry.unstarted with
    | some e => !orderHolds (w.ringDone o) es e
    | none => false

/-- Whether a read command may not start now. -/
def World.holds (w : World) (r : RingId) (e : Entry) : Bool :=
  orderHolds (w.ringDone r) (w.ringRun r).entries e ||
  (match ringStove r with
   | some _ => w.stoveHolds r e
   | none => w.prioHolds r)

/-- The 64-bit live mask at a job's index (R121, R136). -/
def World.liveMask (w : World) (job idx : Nat) : U64 :=
  match w.maskEntry job idx with
  | some a => w.word a
  | none => 0

/-- Read the live mask of the cheap point at which a ring stands: with a zero mask the ring is QUIESCENT (R136). While a host holds
the mask's line, it is recalled and the mask read when it has come back. -/
def World.readMask (w : World) (r : RingId) : World :=
  match (w.ringRun r).cheap with
  | none => w.modRing r fun x => { x with maskDue := false }
  | some (j, q) => match w.entryAway (w.maskEntry j q) with
    | some l => (w.snoop l true none).modRing r fun x => { x with maskDue := true }
    | none => (w.modRing r fun x => { x with maskDue := false }).setRf (rgk r 0x30) 2 2 (w.liveMask j q == 0).toNat

/-- The cheap point at which completion leaves a ring's commands: the last that has started has PREEMPT_OK, and it and every
earlier one have completed (R136). -/
def cheapPoint (es : List Entry) : Option (Nat × Nat) :=
  match (es.filter fun x => !x.unstarted).getLast? with
  | some e => if preemptOk e.desc && !es.any Entry.waiting then some (jobOf e.desc, liveOf e.desc) else none
  | none => none

/-- Empty the function slots of a stove whose clearing waited for commands that have now all completed (R108). -/
def World.settleSlots (w : World) (s : Nat) : World :=
  if (w.stove s).clr.isEmpty then w
  else
    let open' := fun (c : RingId × Nat) => (w.ringRun c.1).entries.any fun e => e.idx == c.2 && e.waiting
    let due := (w.stove s).clr.filter fun x => !x.2.any open'
    w.upd fun d => { d with stoves := updFirst (fun x => x.num == s) (fun x =>
      { x with clr := x.clr.filter (fun c => c.2.any open'), slots := x.slots.filter fun f => !due.any fun c => c.1 == f.slot }) d.stoves }

/-- A command has completed: its result stands until its record is written; on a stove the ring may now stand at a cheap
point, and is QUIESCENT there with a zero live mask (R136, R158). -/
def World.finish (w : World) (r : RingId) (idx status : Nat) (cnt : Counts) (evseq : Nat) : World :=
  let w := w.modEntry r idx fun e =>
    { e with phase := .done, status := status, counts := cnt, evseq := evseq, tEnd := w.dev.gtime, reads := 0, writes := 0 }
  match ringStove r, (w.ringRun r).entries.find? (fun e => e.idx == idx) with
  | some s, some e =>
    let cheap := if w.accLive s then none else cheapPoint (w.ringRun r).entries
    (((w.settleSlots s).modRing r fun x => { x with cheap := cheap, lastJob := jobOf e.desc }).setRf (rgk r 0x30) 2 2 0).readMask r
  | _, _ => w

/-- A command that has not started has its start now; one that resumes keeps its own (R144). -/
def World.startTime (w : World) (r : RingId) (idx : Nat) : World :=
  w.modEntry r idx fun x => { x with tStart := if x.phase = .read then w.dev.gtime else x.tStart }

/-- A command completes without executing (R144). -/
def World.endUnrun (w : World) (r : RingId) (e : Entry) (status : Nat) : World :=
  (w.startTime r e.idx).finish r e.idx status e.counts 0

/-- How a command's computation ends: completed, with a status of its own or OK, or started and waiting. -/
inductive Fin where
  | done (status : Nat)
  | wait (ph : Phase)
  deriving DecidableEq, Repr

/-- The agent of a command (R26, R34). -/
def agentOf (r : RingId) (e : Entry) : Agent :=
  { page := r.page, dbg := dbgPage r.page, node := engineNode r.page r.n, job := some (jobOf e.desc),
    cmd := some (r, e.idx), seq := seqOf e.desc, stove := ringStove r,
    stoker := match pageInfo r.page with | some (.stk, _) => true | _ => false }

/-- Whether the opcode belongs to the engine of a page (R131). -/
def opcodeFits (page op : Nat) : Bool :=
  op ≤ 2 ||
  match pageInfo page with
  | some (.stv, _) => [0x10, 0x11, 0x12, 0x18, 0x20, 0x21, 0x22, 0x23, 0x24, 0x25, 0x50, 0x51, 0x52, 0x53, 0x55, 0x56].contains op
  | some (.blw, _) => op == 0x60 || op == 0x61
  | some (.wbx, _) => decide (0x70 ≤ op) && decide (op ≤ 0x72)
  | some (.chm, _) => decide (0x80 ≤ op) && decide (op ≤ 0x85)
  | some (.stk, _) => [0xD0, 0xD1, 0xD8, 0xD9].contains op
  | _ => false

/-- The status that R132 gives a command that does not execute, if any. -/
def World.refusal (w : World) (r : RingId) (d : Desc) : Option Nat :=
  if !opcodeFits r.page (opcodeOf d) then some stOperand
  else if !headerOk d then some stOperand
  else if (w.job (jobOf d)).isNone || !w.assignable (jobOf d) (w.ringPort r) then some stJob
  else none

/-- The status a finished computation gives: its own, else FW_DENIED, else POISON, with EV_POISON for poison that it read, else OK. -/
def closing (s : Nat) : Act Nat := do
  if s ≠ stOk then
    return s
  let r ← get
  if r.denied then return stFwDenied
  if (← poisonEvent) then return stPoison
  return if r.lost then stPoison else stOk

/-- Raise EV_XLT_FAULT for a command (R37, R444). -/
def World.xltEvent (w : World) (ag : Agent) (va : Nat) : Nat × World :=
  w.raise (ag.cmd.map fun c => w.ringPort c.1) ag.page 0x03 0 (detail ag.job (ag.seq * 2 ^ 32)) (BitVec.ofNat 64 (va % 2 ^ 48))

/-- A command's computation with what its own run leaves to be read of it at its end. -/
def closed (a : Act Fin) : Act (Fin × Nat) := do
  match ← a with
  | .done s => return (.done s, ← closing s)
  | .wait p => return (.wait p, 0)

/-- A stove's command starts: its ring has the stove, and stands at no cheap point (R135, R136). -/
def World.takeStove (w : World) (r : RingId) : World :=
  if (ringStove r).isNone then w
  else ((w.setRf (rgk r 0x30) 2 2 0).modRing r fun x => { x with cheap := none, maskDue := false }).upd fun d =>
    { d with rings := d.rings.map fun x => if x.ring.page = r.page then { x with turn := x.ring == r } else x }

/-- Run a command's computation to its end, from its counters so far. What stops it before it has an effect leaves it
read, but for the requests it makes. -/
def World.runBody (w : World) (r : RingId) (e : Entry) (cnt : Counts) (a : Act Fin) : World :=
  let ag := agentOf r e
  match (closed a).run { Run.init w ag with cnt := cnt, stamp := e.stamp } with
  | .ok ((fin, status), run) =>
    if (ringStove r).isSome && clash (w.ringRun r).entries e.idx run.rd run.wr then w
    else
      let w' := (run.w.startTime r e.idx).modEntry r e.idx fun x => { x with counts := run.cnt }
      let w' := if e.phase == .read then w'.takeStove r else w'
      match fin with
      | .done _ => w'.finish r e.idx status run.cnt run.evseq
      | .wait p => w'.modEntry r e.idx fun x => { x with phase := p, reads := run.rd, writes := run.wr, slots := run.slots }
  | .error (.status s) => (w.startTime r e.idx).finish r e.idx s cnt 0
  | .error (.xlt va) =>
    let (n, w) := w.xltEvent ag va
    (w.startTime r e.idx).finish r e.idx stXlt cnt n
  | .error (.poison g) =>
    let (n, w) := (w.metPoison ag g).raise (some (w.ringPort r)) ag.page 0x02 0 (detail ag.job (ag.seq * 2 ^ 32))
      (BitVec.ofNat 64 (g % 2 ^ 48))
    (w.startTime r e.idx).finish r e.idx stPoison cnt n
  | .error s => w.ask ag s

/-- A command of a step that was evaluated without it makes that evaluation not the last (R81). -/
def World.reopenStep (w : World) (j step : Nat) : World :=
  if (w.job j).any fun x => x.evaluated.contains step then
    w.upd fun d => { d with jobs := updFirst (fun x => x.num == j) (fun x =>
      { x with evaluated := x.evaluated.filter (· ≠ step) }) d.jobs } else w

/-- Start a read command: the refusals of R132, then its computation. -/
def World.startCmd (w : World) (r : RingId) (e : Entry) (body : Desc → Act Fin) : World :=
  match w.refusal r e.desc with
  | some s => w.endUnrun r e s
  | none => (w.reopenStep (jobOf e.desc) (stepOf e.desc)).runBody r e e.counts (body e.desc)

/-- Stop a ring by error: it reads no further commands; EV_RING_ERR (R126, R129, R444). -/
def World.haltRing (w : World) (r : RingId) (err : Nat) (now : Bool) : World :=
  let w := w.setRf (rgk r 0x30) 7 4 err
  let w := if now || w.ringHead r == w.ringDone r then w.setRf (rgk r 0x30) 3 3 1 else w
  (w.raise (some (w.ringPort r)) r.page 0x04 0 (BitVec.ofNat 64 (err * 2 ^ 8 + r.n * 2 ^ 12)) 0).2

/-- Whether a TAIL lies more than N beyond DONE (R129). -/
def World.overrun (w : World) (r : RingId) (tail : Nat) : Bool :=
  decide (2 ^ w.rf (rgk r 0) 5 1 < (tail + 2 ^ 32 - w.ringDone r) % 2 ^ 32)

/-- The command a row executes: the ring's first command not started, when it is this one; or, on a ring that has none and
may read, this one read now (R127). A command beyond the ring's N entries shows a TAIL that overruns, and halts the ring (R129). -/
def World.pick (w : World) (c : Cmd) : Option Entry × World :=
  if !ringExists c.ring then (none, w)
  else match (w.ringRun c.ring).entries.find? Entry.unstarted with
    | some e => (if e.desc = c.desc then some e else none, w)
    | none =>
      if !w.ringReads c.ring || w.isBound c.ring then (none, w)
      else if w.overrun c.ring ((w.ringHead c.ring + 1) % 2 ^ 32) then (none, w.haltRing c.ring 1 false)
      else
        let w' := w.readCmd c.ring c.desc none
        ((w'.ringRun c.ring).entries.find? Entry.unstarted, w')

/-- An engine command of the table: `is` says whether the descriptor is this row's command. -/
def World.runCmd (w : World) (c : Cmd) (is : Desc → Bool) (body : Desc → Act Fin) : World :=
  if !is c.desc then w
  else match w.pick c with
    | (none, w) => w
    | (some e, w) => if w.holds c.ring e then w else w.startCmd c.ring e body

/-- Continue a waiting command. -/
def World.resume (w : World) (r : RingId) (idx : Nat) (a : Act Fin) : World :=
  match (w.ringRun r).entries.find? fun e => e.idx == idx with
  | some e => w.runBody r e e.counts a
  | none => w

/-- End a waiting command with a status and no further effect. -/
def World.endCmd (w : World) (r : RingId) (idx status evseq : Nat) : World :=
  match (w.ringRun r).entries.find? fun e => e.idx == idx with
  | some e => w.finish r idx status e.counts evseq
  | none => w

/-- Whether an address can hold a record or a notify line: something serves it (R145, R34), and it lies in no down port's window (log
entry 45). -/
def World.storable (w : World) (a : Nat) : Bool :=
  match w.place a with
  | .nowhere | .page | .lost _ => false
  | _ => true

/-- Write a ring's record or notify line; an address nothing serves loses it and halts the ring (R145). -/
def World.storeRecord (w : World) (r : RingId) (ag : Agent) (a : Nat) (bs : List Byte) : World :=
  if w.storable a then w.store ag a bs else (w.unmapped ag a).haltRing r 3 false

/-- Whether every write made for a command is visible: none waits at a home, none is unacknowledged (R145, R187). -/
def World.visible (w : World) (r : RingId) (idx : Nat) : Bool :=
  !w.dev.urk.reqs.any (fun q => q.owner == some (r, idx)) && !w.dev.urk.home.any (fun h => h.cmd == some (r, idx))

/-- Whether every write to [a, a + n) of any agent is visible. -/
def World.rangeVisible (w : World) (a n : Nat) : Bool :=
  !w.dev.urk.reqs.any (fun q => q.op == 4 && decide (q.addr < a + n) && decide (a < q.addr + q.len)) &&
  !w.dev.urk.home.any fun h => (match h.req with
    | .write b bs => decide (b < a + n) && decide (a < b + bs.length)
    | .poison g => decide (g < a + n) && decide (a < g + granSize g)
    | .sink b bs => decide (b < a + n) && decide (a < b + bs.length)
    | .atomic b _ _ => decide (b < a + n) && decide (a < b + 8)
    | .host _ _ | .reg _ _ _ _ _ => false)

/-- The record of the ring's first command is visible: DONE and SEQ_OUT advance, the notify line is written, the command leaves the
ring (R126, R145). -/
def World.passRecord (w : World) (r : RingId) (e : Entry) : World :=
  let done := (e.idx + 1) % 2 ^ 32
  let w := w.setRf (rgk r 0x20) 63 32 done
  let w := w.setRf (rgk r 0x28) 63 32 (seqOf e.desc)
  let w := w.setRf (rk r.page 0x040) 31 0 (seqOf e.desc)
  let line := w.rf (rgk r 0x18) 47 7 * 128
  let w := if notifyOf e.desc && line != 0 then
    w.storeRecord r { agentOf r e with cmd := none } line (leBytes 8 (done + seqOf e.desc * 2 ^ 32) ++ List.replicate 120 0) else w
  let w := w.modRing r fun x => { x with entries := x.entries.drop 1 }
  let stopping := bit (w.reg (rgk r 0x38)) 2 || !bit (w.reg (rk r.page 0x010)) 0 ||
    !(w.ringErr r == 0 || w.ringErr r == 4)
  if stopping && w.ringHead r == done then w.setRf (rgk r 0x30) 3 3 1 else w

/-- Write the completion record of the next command in count order, once every write of its command is visible; DONE advances when
the record is visible too (R144, R145). A record over a failed die link is not written (R20). Answers the command whose record it
was. -/
def World.writeRecord (w : World) (r : RingId) : Option Entry × World :=
  match (w.ringRun r).entries with
  | [] => (none, w)
  | e :: _ =>
    if e.undone || !w.visible r e.idx then (none, w)
    else if e.phase == .recorded then (some e, w.passRecord r e)
    else
      let ag := agentOf r e
      let at_ := w.rf (rgk r 0x08) 47 12 * 4096 + e.idx % 2 ^ e.log2 * 64
      if w.linkCut ag.node at_ then (none, w)
      else
        let w := w.storeRecord r ag at_ e.record
        if w.visible r e.idx then (some e, w.passRecord r e)
        else (none, w.modEntry r e.idx fun x => { x with phase := .recorded })

end Sys2Proof.Machine
end

