-- ==== Sys2Proof/Machine/Operands.lean ====
section
/-! DEFINITION. Operand forms: recipes (R65 to R69), tensor descriptors (R95 to R97), reading and writing the elements and
scales of a tensor (R43, R50 to R57, R96), and stream quantisation (R71, R456). -/

namespace Sys2Proof.Machine

/-! ### Recipes -/

/-- A recipe entry (R68). -/
structure Recipe where
  fmt : Fmt
  sf : ScaleFmt
  /-- Block size along the block axis; 0 for none and for per channel. -/
  block : Nat
  perCh : Bool
  axis : Nat
  sr : Bool
  src : Bool
  head : Nat
  sfmt : Option Fmt
  sblk : Bool
  ssrc : Bool
  shead : Nat
  fgEn : Bool
  fgLimit : Nat
  zeroTh : Nat
  satTh : Nat
  nonfinTh : Nat
  deriving DecidableEq, Repr, Inhabited

/-- Block size of a BLOCK code (R68). -/
def blockSize (b : Nat) : Nat := match b with | 1 => 16 | 2 => 32 | 3 => 64 | 4 => 128 | _ => 0

/-- The fields of a recipe entry (R68). -/
def recipeOf (w0 w1 : U64) : Recipe where
  fmt := (Fmt.ofCode (fld w0 3 0)).getD .l16
  sf := (ScaleFmt.ofCode (fld w0 7 4)).getD .none
  block := blockSize (fld w0 10 8)
  perCh := fld w0 10 8 == 5
  axis := fld w0 11 11
  sr := fld w0 13 12 == 1
  src := bit w0 15
  head := fld w0 17 16
  sfmt := if fld w0 23 20 = 15 then none else Fmt.ofCode (fld w0 23 20)
  sblk := bit w0 24
  ssrc := bit w0 25
  shead := fld w0 27 26
  fgEn := bit w0 28
  fgLimit := fld w0 47 32
  zeroTh := fld w1 15 0
  satTh := fld w1 31 16
  nonfinTh := fld w1 47 32

/-- The legal combinations of element format, block and scale format (R49). -/
def comboOk (fmt : Fmt) (blk : Nat) (sf : ScaleFmt) : Bool :=
  match fmt with
  | .l16 | .h16 => blk == 0 && sf == .none
  | .e5m2 | .e4m3 => (blk == 0 && sf == .none) || (blk == 2 && sf == .s8)
  | .int8 | .int4 => (blk == 2 || blk == 3 || blk == 4 || blk == 5) && sf == .l16
  | .e2m1 => (blk == 2 && sf == .s8) || (blk == 1 && sf == .e4m3)
  | .t2 => blk == 4 && sf == .l16

/-- The element formats, AXIS, ROUND and SFMT that a kind admits (R65). -/
def kindOk (kind : Nat) (fmt : Fmt) (blk axis round sfmt : Nat) : Bool :=
  let narrow := [Fmt.l16, .h16, .e5m2, .e4m3].contains fmt
  match kind with
  | 0 | 1 => (blk == 0 || axis == 1) && sfmt == 15
  | 2 => [5, 6, 7, 15].contains sfmt
  | 3 => narrow && round == 1 && sfmt == 15
  | 4 => narrow && (blk == 0 || axis == 1) && round == 1 && sfmt == 15
  | 5 | 6 => fmt == .e4m3 && blk == 2 && axis == 1 && sfmt == 15
  | 7 => fmt != .t2 && axis == 0 && [5, 6, 15].contains sfmt
  | 8 => fmt == .l16 && blk == 0 && round == 0 && sfmt == 15
  | 9 => narrow && (blk == 0 || axis == 1) && sfmt == 15
  | _ => false

/-- Whether an entry of a recipe table is legal for its kind (R49, R65, R66, R68). HEAD beside SRC 1, and SHEAD beside SSRC 1, are
accepted with any value and have no effect (DESIGN CHOICE, log entry 79). -/
def recipeEntryOk (kind : Nat) (e : U64 × U64) : Bool :=
  let w := e.1
  if 10 ≤ kind then w == 0 && e.2 == 0
  else match Fmt.ofCode (fld w 3 0), ScaleFmt.ofCode (fld w 7 4) with
    | some fmt, some sf =>
      let blk := fld w 10 8
      let axis := fld w 11 11
      let round := fld w 13 12
      let sfmt := fld w 23 20
      decide (blk ≤ 5) && decide (round ≤ 1) && bit w 14 && zeroBits w [(19, 18), (31, 29), (63, 48)] &&
      zeroBits e.2 [(63, 48)] && comboOk fmt blk sf && kindOk kind fmt blk axis round sfmt &&
      (blk != 0 || zeroBits w [(11, 11), (17, 15)]) && (!bit w 15 || sf == .l16) &&
      [5, 6, 7, 15].contains sfmt && (sfmt == 6 || !bit w 24) && (sfmt == 5 || sfmt == 7 || !bit w 25) &&
      (sfmt != 15 || zeroBits w [(28, 24)]) && (bit w 28 || zeroBits w [(47, 32)])
    | _, _ => false

/-- Whether a whole recipe table is accepted (R67, R68). -/
def recipeTableOk (t : List (U64 × U64)) : Bool :=
  t.length == 16 && t.zipIdx.all (fun e => recipeEntryOk e.2 e.1) &&
  (match t with
   | a :: b :: _ => [(3, 0), (7, 4), (10, 8), (13, 12), (14, 14), (15, 15), (17, 16)].all
      (fun r => fld a.1 r.1 r.2 == fld b.1 r.1 r.2) && !bit a.1 15
   | _ => false)

/-- A job's recipe for a kind (R66). -/
def World.recipe (w : World) (job kind : Nat) : Recipe :=
  match w.job job with
  | some j => let e := j.recipe.getD kind (0, 0); recipeOf e.1 e.2
  | none => recipeOf 0 0

/-! ### Tensor descriptors -/

/-- A tensor descriptor (R95). -/
structure Tensor where
  base : Nat
  kind : Nat
  sbase : Nat
  static : Nat
  rows : Nat
  cols : Nat
  tid : Nat
  mbid : Nat
  permb : Bool
  pitch : Nat
  rsv : Bool
  deriving DecidableEq, Repr, Inhabited

/-- The fields of four descriptor words (R95). -/
def tensorOf (w0 w1 w2 w3 : U64) : Tensor where
  base := fld w0 47 0
  kind := fld w0 51 48
  sbase := fld w1 47 0
  static := fld w1 63 48
  rows := fld w2 31 0
  cols := fld w2 63 32
  tid := fld w3 15 0
  mbid := fld w3 25 16
  permb := bit w3 26
  pitch := fld w3 63 32
  rsv := zeroBits w0 [(63, 52)] && zeroBits w3 [(31, 27)]

/-- Read n words at a job virtual address; poison in them ends the command (R337). -/
def readWords (va n : Nat) : Act (List U64) := do
  let (bs, ps) ← readV va (8 * n)
  match ps with
  | g :: _ => stopWith (.poison g)
  | [] => return (chunks 8 bs).map leWord

/-- Read a tensor descriptor. -/
def readTensor (va : Nat) : Act Tensor := do
  let ws ← readWords va 4
  return tensorOf (ws.getD 0 0) (ws.getD 1 0) (ws.getD 2 0) (ws.getD 3 0)

/-- Bytes from the byte that holds element c of a row to the end of element c + n − 1: offset and length (R43). -/
def rowSpan (w c n : Nat) : Nat × Nat :=
  if n = 0 then (0, 0) else (c * w / 8, (((c + n) * w + 7) / 8) - c * w / 8)

/-- The alignment and layout rules of R95 for a tensor under a recipe. -/
def Tensor.aligned (t : Tensor) (r : Recipe) : Bool :=
  t.rsv && decide (t.kind ≤ 9) && t.base % 256 == 0 && ((r.block == 0 && !r.perCh) || t.sbase % 32 == 0) &&
  t.pitch % 256 == 0 && decide ((t.cols * r.fmt.width + 7) / 8 ≤ t.pitch)

/-- The extent along the block axis is a multiple of the block size (R49). -/
def Tensor.blocksFit (t : Tensor) (r : Recipe) : Bool :=
  r.block == 0 || (if r.axis = 0 then t.cols else t.rows) % r.block == 0

/-- Whether a region lies within a tensor (R97). -/
def Tensor.holds (t : Tensor) (i m c n : Nat) : Bool := decide (i + m ≤ t.rows) && decide (c + n ≤ t.cols)

/-- A tensor that a command may write with SR has fewer than 2^38 elements (R59). -/
def Tensor.srFits (t : Tensor) (r : Recipe) : Bool := !r.sr || decide (t.rows * t.cols < 2 ^ 38)

/-- Index of an element's scale in the scale array (R96). -/
def Tensor.scaleIndex (t : Tensor) (r : Recipe) (i c : Nat) : Nat :=
  if r.block = 0 then (if r.axis = 0 then i else c)
  else if r.axis = 0 then i * (t.cols / r.block) + c / r.block
  else i / r.block * t.cols + c

/-- The scale indices of columns c to c + n − 1 of row i, first and count, and how many elements share each: the first
scale covers elements up to the end of its block. -/
def Tensor.scaleSpan (t : Tensor) (r : Recipe) (i c n : Nat) : Nat × Nat :=
  if n = 0 then (0, 0)
  else
    let lo := t.scaleIndex r i c
    (lo, t.scaleIndex r i (c + n - 1) - lo + 1)

/-- The ranges of addresses that rows i to i + m − 1, columns c to c + n − 1 of a tensor take, elements and scales. -/
def Tensor.ranges (t : Tensor) (r : Recipe) (i m c n : Nat) : List (Nat × Nat) :=
  (upTo i m).flatMap fun x =>
    let s := rowSpan r.fmt.width c n
    let sc := t.scaleSpan r x c n
    (t.base + x * t.pitch + s.1, s.2) ::
      (if r.sf = .none then [] else [(t.sbase + sc.1 * r.sf.bytes, sc.2 * r.sf.bytes)])

/-- Whether physical pieces lie in a stove's scratchpad (R97). -/
def inScratch (s : Nat) (ps : List (Nat × Nat)) : Bool :=
  ps.all fun p => decide (spAddr s ≤ p.1) && decide (p.1 + p.2 ≤ spAddr s + 0x400000)

/-- Translate ranges, for reading or writing, and tell whether they all lie in the executing stove's scratchpad (R97). -/
def rangesLocal (rs : List (Nat × Nat)) (write : Bool) : Act Bool := do
  let s := (← get).ag.stove.getD 0
  let ps ← rs.mapM fun r => xlateRange r.1 r.2 write
  return inScratch s ps.flatten

/-- The scoreboard bits of ranges a command will write (R117). -/
def markWrites (rs : List (Nat × Nat)) : Act Unit :=
  rs.forM fun r => do
    let ps ← xlateRange r.1 r.2 true
    ps.forM fun p => modify fun x => { x with wr := x.wr ||| regionBits p.1 p.2 }

/-! ### Reading elements -/

/-- Read bytes, each with whether it is poisoned. -/
def readVB (va n : Nat) : Act (List (Byte × Bool)) := do
  let ps ← xlateRange va n false
  let rs ← ps.mapM fun p => do
    let (bs, gs) ← readP p.1 p.2
    return bs.zipIdx.map fun b => (b.1, gs.contains (granOf (p.1 + b.2)))
  return rs.flatten

/-- Unpack n codes of w bits that begin `skip` bits into the first byte (R43). -/
def unpack (w skip n : Nat) (bs : List (Byte × Bool)) : List (Nat × Bool) :=
  if 8 ≤ w then
    ((chunks (w / 8) bs).map fun c => (leNat (c.map Prod.fst), c.any Prod.snd)).take n
  else
    ((bs.flatMap fun b => (List.range (8 / w)).map fun k => (bits b.1.toNat (w * k + w - 1) (w * k), b.2)).drop (skip / w)).take n

/-- Read codes of columns c to c + n − 1 of a row. -/
def readCodes (t : Tensor) (fmt : Fmt) (i c n : Nat) : Act (List (Nat × Bool)) := do
  let s := rowSpan fmt.width c n
  let bs ← readVB (t.base + i * t.pitch + s.1) s.2
  return unpack fmt.width (c * fmt.width % 8) n bs

/-- Read k scale codes from index lo on. -/
def readScales (t : Tensor) (sf : ScaleFmt) (lo k : Nat) : Act (List (Nat × Bool)) := do
  let bs ← readVB (t.sbase + lo * sf.bytes) (k * sf.bytes)
  return (chunks sf.bytes bs).map fun c => (leNat (c.map Prod.fst), c.any Prod.snd)

/-- An element of a format under a scale (R50). -/
def elemOf (fmt : Fmt) (code : Nat) (sc : Val) (p : Bool) : Elem :=
  let d := decodeElem fmt code sc
  ⟨if invalidCode fmt code then .zero false else (codeVal fmt code).1, sc, d.1, d.2, p⟩

/-- Read the elements of columns c to c + n − 1 of row i (R50, R96). Nothing is counted here. -/
def readRow (t : Tensor) (r : Recipe) (i c n : Nat) : Act (List Elem) := do
  let codes ← readCodes t r.fmt i c n
  if r.sf = .none then
    return codes.map fun x => elemOf r.fmt x.1 (Val.ofNat 1) x.2
  else
    let sp := t.scaleSpan r i c n
    let scs ← readScales t r.sf sp.1 sp.2
    return codes.zipIdx.map fun x =>
      let s := scs.getD (t.scaleIndex r i (c + x.2) - sp.1) (0, false)
      elemOf r.fmt x.1.1 (scaleVal r.sf s.1) (x.1.2 || s.2)

/-- Read rows i to i + m − 1, columns c to c + n − 1. -/
def readRect (t : Tensor) (r : Recipe) (i m c n : Nat) : Act (List (List Elem)) :=
  (upTo i m).mapM fun x => readRow t r x c n

/-- Count the decodes of elements (R56, R78). -/
def countReads (es : List Elem) : Act Unit := tally fun c => es.foldl (fun c e => c.read e.cls) c

/-! ### Stream quantisation -/

/-- The stream format in force for a streamed operand: none when it streams as stored (R71). -/
def Recipe.stream (r : Recipe) : Option Fmt :=
  match r.sfmt with
  | none => none
  | some f => if f.width < r.fmt.width || (f.width == r.fmt.width && f != r.fmt) then some f else none

/-- Format, block, scale format and headroom of a stream quantisation: the first attempt's, or the replay's (R71, R72). -/
def Recipe.streamShape (r : Recipe) (f : Fmt) (wide : Bool) : Fmt × Nat × ScaleFmt × Bool × Nat :=
  match f, wide with
  | .e2m1, false => if r.sblk then (.e2m1, 16, .e4m3, false, r.shead) else (.e2m1, 32, .s8, false, r.shead)
  | .e2m1, true => (.e4m3, 32, .s8, false, min (r.shead + 1) 3)
  | .int4, false => (.int4, 32, .l16, r.ssrc, r.shead)
  | .int4, true => (.int8, 32, .l16, r.ssrc, r.shead)
  | f, false => (f, 128, .l16, r.ssrc, r.shead)
  | _, true => (.int8, 128, .l16, r.ssrc, r.shead)

/-- The quotient of a value by its block's scale: under a zero scale every finite element is zero (R48, R70). -/
def quotient (v sc : Val) : Val :=
  if sc.isZero then (if v.nonFinite then v else .zero v.isNeg) else v.div sc

/-- Quantise one block along k with RNE (R55, R71): the elements as they enter the product, and their counts. Under a static scale
that reads as NaN, an element already counted as it was read, in FLUSH_IN or NONFIN_IN, is not counted again, of which R56 allows
one (DESIGN CHOICE, log entry 77). -/
def quantBlock (sh : Fmt × Nat × ScaleFmt × Bool × Nat) (static : Nat) (es : List Elem) : List Elem × Counts :=
  let sf := sh.2.2.1
  let zero : Counts := ⟨0, 0, 0, 0, 0, 0, 0, 0, false⟩
  let bad := es.any fun e => e.val.nonFinite
  let code := if bad then nanScale sf else chooseScale (es.map Elem.val) sh.1 sf sh.2.2.2.1 sh.2.2.2.2 static
  let sc := scaleVal sf code
  let p := es.any Elem.p
  if bad || sc.isNaN then
    (es.map fun e => { e with raw := .zero false, sc := .nan, val := .nan, p := p },
      es.foldl (fun c e => if (e.val.nonFinite || !bad) && e.cls == .none then c.streamed .nonfin else c) zero)
  else
    let out := es.map fun e => (e, encodeElem (quotient e.val sc) sh.1 .rne)
    (out.map fun o => ⟨(codeVal sh.1 o.2.1).1, sc, (codeVal sh.1 o.2.1).1.mul sc, .none, o.1.p || p⟩,
      out.foldl (fun c o => c.streamed o.2.2) zero)

/-- Quantise a line of elements along k, block by block from its first index (R456). -/
def quantLine (sh : Fmt × Nat × ScaleFmt × Bool × Nat) (static : Nat) (es : List Elem) : List Elem × Counts :=
  (chunks sh.2.1 es).foldl (fun acc b =>
    let q := quantBlock sh static b
    (acc.1 ++ q.1, acc.2.plus q.2)) ([], ⟨0, 0, 0, 0, 0, 0, 0, 0, false⟩)

/-! ### Writing elements -/

/-- An element to be written: its value; not written at all under SKIP; poisoned; and whether its saturation is already
counted (R64, R105). -/
structure OutEl where
  v : Val
  keep : Bool := true
  p : Bool := false
  sat : Bool := false
  deriving DecidableEq, Repr

/-- Pack codes of w bits that begin `skip` bits into their first byte over the bytes that stand there; a byte none of whose
codes is written is left out. -/
def pack (w skip : Nat) (codes : List (Option Nat)) (old : List Byte) : List (Option Byte) :=
  if 8 ≤ w then codes.flatMap fun c => match c with
    | some n => (leBytes (w / 8) n).map some
    | none => List.replicate (w / 8) none
  else
    (chunks (8 / w) (List.replicate (skip / w) none ++ codes)).zipIdx.map fun c =>
      if c.1.all Option.isNone then none
      else some (c.1.zipIdx.foldl (fun b x => match x.1 with
        | some n => BitVec.ofNat 8 (b.toNat - bits b.toNat (w * x.2 + w - 1) (w * x.2) * 2 ^ (w * x.2) + n % 2 ^ w * 2 ^ (w * x.2))
        | none => b) (old.getD c.2 0))

/-- The maximal runs of bytes to be written, with their offsets. -/
def runsAux : List (Option Byte) → Nat → Option (Nat × List Byte) → List (Nat × List Byte)
  | [], _, none => []
  | [], _, some r => [(r.1, r.2.reverse)]
  | some b :: xs, i, none => runsAux xs (i + 1) (some (i, [b]))
  | some b :: xs, i, some r => runsAux xs (i + 1) (some (r.1, b :: r.2))
  | none :: xs, i, none => runsAux xs (i + 1) none
  | none :: xs, i, some r => (r.1, r.2.reverse) :: runsAux xs (i + 1) none

/-- Mark the granules of a job virtual range as poisoned. -/
def poisonV (va n : Nat) : Act Unit := do
  let ps ← xlateRange va n true
  ps.forM fun p => poisonP p.1 p.2

/-- The bytes that stand at a job virtual address, without reading them as data. -/
def peekV (va n : Nat) : Act (List Byte) := do
  let ps ← xlateRange va n true
  let w := (← get).w
  return ps.flatMap fun p => w.bytes p.1 p.2

/-- Write codes of columns c on of row i: those given, poisoned where told. -/
def writeCodes (t : Tensor) (fmt : Fmt) (i c : Nat) (codes : List (Option Nat × Bool)) : Act Unit := do
  let w := fmt.width
  let sp := rowSpan w c codes.length
  let at0 := t.base + i * t.pitch + sp.1
  let old ← if 8 ≤ w then pure [] else peekV at0 sp.2
  (runsAux (pack w (c * w % 8) (codes.map Prod.fst) old) 0 none).forM fun r => writeV (at0 + r.1) r.2
  codes.zipIdx.forM fun x => do
    if x.1.2 && x.1.1.isSome then
      let s := rowSpan w (c + x.2) 1
      poisonV (t.base + i * t.pitch + s.1) s.2

/-- Write one scale. -/
def writeScale (t : Tensor) (sf : ScaleFmt) (ix code : Nat) (p : Bool) : Act Unit := do
  writeV (t.sbase + ix * sf.bytes) (leBytes sf.bytes code)
  if p then poisonV (t.sbase + ix * sf.bytes) sf.bytes

/-- Linear index of an element in the logical shape of its tensor, with its micro-batch (R59): order B counts in the K × N
shape of order A. -/
def Tensor.emberIndex (t : Tensor) (i c : Nat) : Nat :=
  (if t.permb then t.mbid * 2 ^ 38 else 0) + (if t.kind = 1 then c * t.rows + i else i * t.cols + c) % 2 ^ 38

/-- The rounding of an element with an Ember index (R52, R58). -/
def roundOf (seed : U64) (step tid : Nat) (r : Recipe) (index : Nat) : Rnd :=
  if r.sr then .sr (ember seed step tid index) else .rne

/-- Encode the elements of one block under its scale (R51, R55): codes and classes, and the scale's code. -/
def encodeBlock (r : Recipe) (static : Nat) (es : List (OutEl × Rnd)) : List (Option Nat × OutCls) × Nat :=
  let kept := (es.filter fun e => e.1.keep).map fun e => e.1.v
  let bad := kept.any Val.nonFinite
  let code := if r.sf = .none then 0 else if bad then nanScale r.sf else chooseScale kept r.fmt r.sf r.src r.head static
  let sc := scaleVal r.sf code
  if r.sf = .none then
    (es.map fun e => if !e.1.keep then (none, .none) else
      let x := encodeElem e.1.v r.fmt e.2
      (some x.1, x.2), 0)
  else if bad || sc.isNaN then
    (es.map fun e => if !e.1.keep then (none, .none) else
      (some 0, if e.1.v.nonFinite || !bad then .nonfin else .none), nanScale r.sf)
  else
    (es.map fun e => if !e.1.keep then (none, .none) else
      let x := encodeElem (quotient e.1.v sc) r.fmt e.2
      (some x.1, x.2), code)

/-- The class in which an element is counted: one that saturated at the drain counts its saturation once (R56, R64), and a zero
code written for it as well; where its function then gave NaN, Inf or a flushed value, it counts SAT_OUT and not NONFIN_OUT or
FLUSH_OUT, of which R56 allows one (DESIGN CHOICE, log entry 77). -/
def outClass (e : OutEl) (k : OutCls) : OutCls :=
  if e.sat then (match k with | .zero | .flushZero | .satZero => .satZero | _ => .sat) else k

/-- Count a written element (R56). -/
def countOut (c : Counts) (e : OutEl) (k : OutCls) : Counts := c.wrote (outClass e k)

/-- Encode a rectangle of elements; where only part of a block or channel is written, its scale is chosen from the elements written
alone (R69; DESIGN CHOICE, log entry 80). `ix` gives the Ember index of each: codes row by row, scales by index, counts and
health additions (R51 to R57, R69, R79). -/
def encodeRect (seed : U64) (step : Nat) (t : Tensor) (r : Recipe) (ix : Nat → Nat → Nat) (i0 c0 : Nat)
    (rows : List (List OutEl)) :
    List (List (Option Nat × Bool)) × List (Nat × Nat × Bool) × Counts × HealthAdd :=
  let zero : Counts := ⟨0, 0, 0, 0, 0, 0, 0, 0, false⟩
  let tagged := rows.zipIdx.map fun row => row.1.zipIdx.map fun e =>
    (e.1, roundOf seed step t.tid r (ix (i0 + row.2) (c0 + e.2)), row.2, e.2)
  let flat := tagged.flatten
  let keyOf := fun (e : OutEl × Rnd × Nat × Nat) => t.scaleIndex r (i0 + e.2.2.1) (c0 + e.2.2.2)
  let done := if r.sf = .none then [] else (flat.foldl (fun ks e => insNat (keyOf e) ks) []).map fun k =>
    let blk := flat.filter fun e => keyOf e == k
    let x := encodeBlock r t.static (blk.map fun e => (e.1, e.2.1))
    let p := blk.any fun e => e.1.keep && e.1.p
    ((blk.zip x.1).map fun y => (y.1.2.2, y.1.1, y.2), k, x.2, p, blk.any fun e => e.1.keep)
  let cells := tagged.map fun row =>
    if r.sf = .none then (row.zip (encodeBlock r 0 (row.map fun e => (e.1, e.2.1))).1).map fun y => (y.1.1, y.2, y.1.1.p)
    else row.map fun e => match done.find? fun d => d.2.1 == keyOf e with
      | some d => match d.1.find? fun c => c.1 == e.2.2 with
        | some c => (c.2.1, c.2.2, d.2.2.2.1)
        | none => (e.1, (none, .none), false)
      | none => (e.1, (none, .none), false)
  let codes := cells.map fun row => row.map fun c => (c.2.1.1, c.2.2)
  let scales := if r.sf = .none then [] else
    (done.filter fun d => d.2.2.2.2).map fun d => (d.2.1, d.2.2.1, d.2.2.2.1)
  let cnt := cells.flatten.foldl (fun c x => if x.1.keep then countOut c x.1 x.2.1.2 else c) zero
  let h := cells.flatten.foldl (fun h x => if x.1.keep then h.elem x.1.v (outClass x.1 x.2.1.2) else h)
    ({ tid := t.tid, kind := t.kind } : HealthAdd)
  (codes, scales, cnt, h)

/-- Write a rectangle of elements to a tensor under a kind for its health record: codes, scales, counts, and the record
(R51 to R57, R80). -/
def writeRectAs (step : Nat) (t : Tensor) (r : Recipe) (kind : Nat) (ix : Nat → Nat → Nat) (i0 c0 : Nat)
    (rows : List (List OutEl)) : Act Unit := do
  let s ← get
  let job := s.ag.job.getD 0
  let seed := match s.w.job job with | some j => j.seed | none => 0
  let x := encodeRect seed step t r ix i0 c0 rows
  x.1.zipIdx.forM fun row => writeCodes t r.fmt (i0 + row.2) c0 row.1
  x.2.1.forM fun sc => writeScale t r.sf sc.1 sc.2.1 sc.2.2
  tally fun c => c.plus x.2.2.1
  if x.2.2.2.elems ≠ 0 then healthA job step { x.2.2.2 with kind := kind } true

/-- Write a rectangle of elements to a tensor. -/
def writeRect (step : Nat) (t : Tensor) (r : Recipe) (i0 c0 : Nat) (rows : List (List OutEl)) : Act Unit :=
  writeRectAs step t r t.kind t.emberIndex i0 c0 rows

end Sys2Proof.Machine
end

