-- ==== Sys2Proof/Machine/Damper.lean ====
section
/-! DEFINITION. Stoves, accumulator words (R119), function slots (R106 to R108), drop masks (R105) and the Damper's drain
(R103, R104). -/

namespace Sys2Proof.Machine

/-! ### Stoves -/

/-- Change a stove's own state. -/
def World.modStove (w : World) (n : Nat) (f : Stove → Stove) : World :=
  w.upd fun d =>
    if d.stoves.any (fun s => s.num == n) then { d with stoves := updFirst (fun s => s.num == n) f d.stoves }
    else { d with stoves := d.stoves ++ [f (Stove.empty n)] }

/-- Change the executing stove. -/
def modStoveA (f : Stove → Stove) : Act Unit := do
  let s := (← get).ag.stove.getD 0
  actW fun w => w.modStove s f

/-- The executing stove. -/
def stoveA : Act Stove := do
  let r ← get
  return r.w.stove (r.ag.stove.getD 0)

/-! ### Accumulator words -/

/-- The value of a function-table coefficient or a saved accumulator entry (R119). -/
def accOfWord (w : U64) : AccV :=
  match fld w 51 49 with
  | 0 => .a32 (.zero (bit w 48))
  | 1 => .a32 (mkPow (bit w 48) (fld w 31 0) ((fld w 42 32 : Nat) - (1023 : Int) - 31))
  | 2 => .a32 (.inf (bit w 48))
  | 3 => .a32 .nan
  | _ => .int (signedOf 48 (fld w 47 0))

/-- The accumulator word of an entry (R119). -/
def wordOfAcc (a : AccV) : U64 :=
  match a with
  | .int n => BitVec.ofNat 64 ((n % (2 ^ 48 : Int)).toNat + 4 * 2 ^ 49)
  | .a32 .nan => BitVec.ofNat 64 (3 * 2 ^ 49)
  | .a32 (.inf s) => BitVec.ofNat 64 (2 * 2 ^ 49 + s.toNat * 2 ^ 48)
  | .a32 (.zero s) => BitVec.ofNat 64 (s.toNat * 2 ^ 48)
  | .a32 (.fin n d) =>
    let r := roundSig 32 n.natAbs d
    let m := if r.1 = 2 ^ 32 then 2 ^ 31 else r.1
    let e := if r.1 = 2 ^ 32 then r.2 + 1 else r.2
    BitVec.ofNat 64 (m + (e + 31 + 1023).toNat * 2 ^ 32 + (decide (n < 0)).toNat * 2 ^ 48 + 2 ^ 49)

/-- A legal coefficient: class zero or finite, in the form of R119 (R106). -/
def coefOk (w : U64) : Bool :=
  zeroBits w [(63, 52), (47, 43)] &&
  ((fld w 51 49 == 0 && zeroBits w [(42, 0)]) ||
   (fld w 51 49 == 1 && bit w 31 && decide (1 ≤ fld w 42 32) && decide (fld w 42 32 ≤ 2046)))

/-! ### Function slots -/

/-- The words of one table of a slot image: f at word 0, f′ at word 264 (R106). -/
def slotTable (image : List U64) (prime : Bool) : List U64 := (image.drop (if prime then 264 else 0)).take 264

/-- A table is legal: reserved bits zero, a finite domain start, known tail modes, legal coefficients (R106). -/
def tableOk (t : List U64) : Bool :=
  let w := t.getD 0 0
  zeroBits w [(63, 28)] && decide (fld w 25 24 ≤ 1) && decide (fld w 27 26 ≤ 1) && fld w 14 7 != 255 &&
  decide (-64 ≤ signedOf 8 (fld w 23 16)) && decide (signedOf 8 (fld w 23 16) ≤ 63) &&
  ((t.drop 1).take 3).all (· == 0) && (t.drop 4).all coefOk

/-- The A32 value of a coefficient. -/
def coef (t : List U64) (i : Nat) : Val := match accOfWord (t.getD i 0) with | .a32 v => v | .int n => Val.ofInt n

/-- A tail of a table (R107). -/
def tailFn (mode : Nat) (a b x : Val) : Val := if mode = 0 then b else rnd32 ((a.mul x).add b)

/-- eval_fn of R107. -/
def evalFn (t : List U64) (x : Val) : Val :=
  if x.isNaN then .nan
  else
    let w := t.getD 0 0
    let xlo := (codeVal .l16 (fld w 15 0)).1
    let e := signedOf 8 (fld w 23 16)
    if x.lt xlo then tailFn (fld w 25 24) (coef t 260) (coef t 261) x
    else if (xlo.add (mkPow false 64 e)).le x then tailFn (fld w 27 26) (coef t 262) (coef t 263) x
    else
      let q := (x.sub xlo).scalePow (-e)
      let s := match q with | .fin n d => (n / (d : Int)).toNat | _ => 0
      let y := q.sub (Val.ofNat s)
      let c := fun i => coef t (4 + 4 * s + i)
      let p := c 3
      let p := rnd32 ((p.mul y).add (c 2))
      let p := rnd32 ((p.mul y).add (c 1))
      rnd32 ((p.mul y).add (c 0))

/-- The image in a slot, when the job may use it (R108). -/
def Stove.slot (s : Stove) (n job : Nat) : Option (List U64) :=
  (s.slots.find? fun x => x.slot == n && x.job == job).map FSlot.image

/-! ### Drain descriptors -/

/-- A drain descriptor (R104); all zero for a plain drain. -/
structure Drain where
  bias : Nat
  fslot : Nat
  fmode : Nat
  biasEn : Bool
  maskEn : Bool
  skip : Bool
  aux : Nat
  mask : Nat
  alpha : Nat
  rsv : Bool
  deriving DecidableEq, Repr

def drainOf (w0 w1 w2 w3 : U64) : Drain where
  bias := fld w0 47 0
  fslot := fld w0 51 48
  fmode := fld w0 53 52
  biasEn := bit w0 54
  maskEn := bit w0 55
  skip := bit w0 56
  aux := fld w1 47 0
  mask := fld w2 47 0
  alpha := fld w3 15 0
  rsv := zeroBits w0 [(63, 57)] && zeroBits w1 [(63, 48)] && zeroBits w2 [(63, 48)] && zeroBits w3 [(63, 16)]

/-- The value of ALPHA; the code 0 is 1.0 (R104). -/
def Drain.alphaVal (d : Drain) : Val := if d.alpha = 0 then Val.ofNat 1 else (codeVal .l16 d.alpha).1

/-- ALPHA is neither NaN, ±Inf nor negative zero (R104). -/
def Drain.alphaOk (d : Drain) : Bool := !d.alphaVal.nonFinite && d.alpha != 0x8000

/-- The rules of R104 for a drain on a stove, and of R100 on an OS drain. -/
def Drain.ok (d : Drain) (s : Stove) (job : Nat) (os : Bool) : Bool :=
  d.rsv && d.fmode != 3 && d.alphaOk && (!d.maskEn || d.mask % 32 == 0) &&
  (d.fmode == 0 || (s.slot d.fslot job).isSome) && !(os && (d.biasEn || (d.maskEn && d.skip)))

/-- Whether an element of the tile is kept by the drop masks (R105): `entries` are the mask entries read, one per 128 rows. -/
def maskKeeps (entries : List (List (Byte × Bool))) (i j : Nat) : Bool :=
  let e := entries.getD (i / 128) []
  let bitOf := fun off k => (e.getD (off + k / 8) (0, false)).1.toNat.testBit (k % 8)
  bitOf 0 (i % 128) && bitOf 16 j

/-- What one drain needs beside the accumulators: mask entries, bias and aux elements, function table, per-channel scales
of rows and columns. -/
structure DrainIn where
  d : Option Drain
  masks : List (List (Byte × Bool))
  bias : List Elem
  aux : List (List Elem)
  table : List U64
  rowSc : List Val
  colSc : List Val
  deriving DecidableEq, Repr

/-- Saturation of an exact integer sum at the drain (R64). -/
def satInt (n : Int) : Int × Bool :=
  if (2 ^ 31 - 1 : Int) < n then (2 ^ 31 - 1, true) else if n < -(2 ^ 31 - 1) then (-(2 ^ 31 - 1), true) else (n, false)

/-- drain() of R103 up to encode_to_output: the element to write, and the elements read for it. -/
def drainEl (x : DrainIn) (a : AccEnt) (i j : Nat) : OutEl × List Elem :=
  let masked := match x.d with | some d => d.maskEn && !maskKeeps x.masks i j | none => false
  let mp := (x.masks.getD (i / 128) []).any Prod.snd
  if masked then
    match x.d with
    | some d => (if d.skip then { v := .zero false, keep := false } else { v := .zero false, p := mp }, [])
    | none => ({ v := .zero false }, [])
  else
    let base := match a.v with
      | .int n => let s := satInt n; (((Val.ofInt s.1).mul (x.rowSc.getD i (Val.ofNat 1))).mul (x.colSc.getD j (Val.ofNat 1)), s.2)
      | .a32 v => (v, false)
    match x.d with
    | none => ({ v := base.1, p := a.p, sat := base.2 }, [])
    | some d =>
      let v := base.1.mul d.alphaVal
      let be := if d.biasEn then [x.bias.getD j default] else []
      let v := be.foldl (fun v e => v.add e.val) v
      let v := if d.fmode = 1 then evalFn x.table v else v
      let ae := if d.fmode = 2 then [(x.aux.getD i []).getD j default] else []
      let v := ae.foldl (fun v e => v.mul (evalFn x.table e.val)) v
      ({ v := v, p := a.p || mp || (be ++ ae).any Elem.p, sat := base.2 }, be ++ ae)

end Sys2Proof.Machine
end

