-- ==== Sys2Proof/Machine/Gate.lean ====
section
/-! DEFINITION. Weight regions and the version gate as every reader and writer of them uses it (R177, R178, R187 to R190). -/

namespace Sys2Proof.Machine

def Region.word (r : Region) (i : Nat) : U64 := r.words.getD i 0
def Region.job (r : Region) : Nat := fld (r.word 0) 21 16
def Region.frozen (r : Region) : Bool := bit (r.word 0) 23
def Region.lag1 (r : Region) : Bool := bit (r.word 0) 24
def Region.die (r : Region) : Nat := fld (r.word 0) 27 25
def Region.tag (r : Region) : Nat := fld (r.word 0) 39 28
def Region.gtag (r : Region) : Nat := fld (r.word 0) 51 40
def Region.nown (r : Region) : Bool := bit (r.word 0) 52
def Region.s0 (r : Region) : Nat := fld (r.word 1) 63 48
def Region.s1 (r : Region) : Nat := fld (r.word 2) 63 48
/-- Tensor descriptor i of a region: MASTER, MOM1, MOM2R, ORDA0, ORDB0, ORDA1, ORDB1. -/
def Region.desc (r : Region) (i : Nat) : Tensor :=
  let ws := r.descs.getD i []
  tensorOf (ws.getD 0 0) (ws.getD 1 0) (ws.getD 2 0) (ws.getD 3 0)
/-- The region's logical shape K × N is its order A's (R172, R178). -/
def Region.k (r : Region) : Nat := (r.desc 3).rows
def Region.n (r : Region) : Nat := (r.desc 3).cols
/-- Slices along N, and all slices (R178). -/
def Region.nblk (r : Region) : Nat := ceilDiv r.n 128
def Region.nslice (r : Region) : Nat := ceilDiv r.k 128 * r.nblk
/-- Whether this device updates a slice (R178). -/
def Region.owns (r : Region) (sl : Nat) : Bool := !r.nown && decide (r.s0 ≤ sl) && decide (sl ≤ r.s1)
/-- The target slot of an open region (R189). -/
def Region.target (r : Region) : Nat := if r.lag1 then (r.cv + 1) % 2 else 0
def Region.readers (r : Region) (slot : Nat) : Nat := if slot = 0 then r.readers0 else r.readers1
/-- Order A or B of a slot. -/
def Region.order (r : Region) (b : Bool) (slot : Nat) : Tensor := r.desc (3 + 2 * slot + b.toNat)

def World.region (w : World) (i : Nat) : Option Region := w.dev.blw.regions.find? fun r => r.index == i

def World.modRegion (w : World) (i : Nat) (f : Region → Region) : World :=
  w.upd fun d => { d with blw := { d.blw with regions := updFirst (fun r => r.index == i) f d.blw.regions } }

/-- Register page of a Bellows. -/
def blwPage (die : Nat) : Nat := 0x108 + die

/-- What the gate decides (R188). -/
inductive Verdict where
  | pass (slot : Nat) | wait | stale | invalid
  deriving DecidableEq, Repr

/-- The gate's decision on a read expecting version e (R188). -/
def Region.gate (r : Region) (e : Nat) : Verdict :=
  let d := signedOf 16 ((e + 2 ^ 16 - r.cv) % 2 ^ 16)
  let slot := if r.lag1 then e % 2 else 0
  if r.frozen then .pass slot
  else if 1 ≤ d then .wait
  else if d = 0 then (if !r.isOpen || r.lag1 then .pass slot else .stale)
  else if d = -1 then (if !r.isOpen && r.lag1 then .pass slot else .stale)
  else .stale

/-- The decision for a read of a job on a region index (R188). -/
def World.gateOf (w : World) (g : GateRead) : Verdict :=
  match w.region g.wreg with
  | none => .invalid
  | some r => if r.job ≠ g.job then .invalid else r.gate g.exp

/-- The gate unit a read goes to. -/
def World.gateDie (w : World) (g : GateRead) : Nat := ((w.region g.wreg).map Region.die).getD 0

/-- Send a gated read to its gate (R188). -/
def World.askGate (w : World) (g : GateRead) : World :=
  w.upd fun d => { d with blw := { d.blw with asks := d.blw.asks ++ [g] } }

/-- A read passes: its slot has one more reader (R189). -/
def World.passGate (w : World) (g : GateRead) (slot : Nat) : World :=
  (w.modRegion g.wreg fun r =>
    if slot = 0 then { r with readers0 := r.readers0 + 1 } else { r with readers1 := r.readers1 + 1 }).upd fun d =>
      { d with blw := { d.blw with passed := d.blw.passed ++ [(g, slot)] } }

/-- Add slice credits to a region; one beyond NSLICE is discarded with EV_UE (R187). -/
def World.credit (w : World) (i n : Nat) : World :=
  match w.region i with
  | none => w
  | some r =>
    let extra := r.credits + n - min (r.credits + n) r.nslice
    let w := w.modRegion i fun r => { r with credits := min (r.credits + n) r.nslice }
    (List.range extra).foldl (fun w _ => w.evUe (blwPage r.die) 0x0B (some r.job) 0 0) w

end Sys2Proof.Machine
end

