-- ==== Sys2Proof/Machine/Move.lean ====
section
/-! DEFINITION. The move engine: MOVE (R101), FSLOT (R106, R108) and the clearing of function slots; the copy of bytes that
every engine shares. -/

namespace Sys2Proof.Machine

/-- Write bytes that carry poison marks: the granules of marked bytes are poisoned (R118, R337). -/
def writeVB (va : Nat) (bs : List (Byte × Bool)) : Act Unit := do
  writeV va (bs.map Prod.fst)
  if bs.any Prod.snd then
    let ps ← xlateRange va bs.length true
    let _ ← ps.foldlM (fun (bs : List (Byte × Bool)) p => do
      ((bs.take p.2).zipIdx.filter fun b => b.1.2).forM fun b => poisonP (p.1 + b.2) 1
      return bs.drop p.2) bs

/-- Copy n bytes between job virtual addresses, poison with them. -/
def copyV (src dst n : Nat) : Act Unit := do
  let bs ← readVB src n
  writeVB dst bs

/-- The reads and writes of a MOVE (R101). -/
def moveBody (d : Desc) : Act Fin := do
  copyV (fld d.w2 47 0) (fld d.w3 47 0) (fld d.w4 31 0)
  return .done stOk

/-- MOVE (R101): checks, then the copy, or the read's way to the version gate (R188). -/
def move (d : Desc) : Act Fin := do
  let src := fld d.w2 47 0
  let dst := fld d.w3 47 0
  let n := fld d.w4 31 0
  let s := (← get).ag.stove.getD 0
  let ps ← xlateRange src n false
  let pd ← xlateRange dst n true
  need (zeroBits d.w2 [(63, 48)] && zeroBits d.w3 [(63, 48)] && zeroBits d.w4 [(63, 32)] && zeroBits d.w5 [(63, 31)] &&
    d.w6 == 0 && d.w7 == 0) stOperand
  need (src % 32 == 0 && dst % 32 == 0 && n % 32 == 0 && (inScratch s ps || inScratch s pd)) stOperand
  if bit d.w5 30 then
    let r ← get
    match r.ag.cmd with
    | some (ring, _) =>
      actW fun w => w.askGate ⟨jobOf d, fld d.w5 29 16, fld d.w5 15 0, .ring ⟨ring, d⟩⟩
      ps.forM fun p => if inScratch s [p] then modify fun r => { r with rd := r.rd ||| regionBits p.1 p.2 } else pure ()
      pd.forM fun p => if inScratch s [p] then modify fun r => { r with wr := r.wr ||| regionBits p.1 p.2 } else pure ()
      return .wait .gated
    | none => return .done stOk
  else moveBody d

/-- The function slots that commands of a stove which have started and not completed name (R108). -/
def World.slotsNamed (w : World) (page : Nat) : Nat :=
  (List.range 4).foldl (fun m n => (w.ringRun ⟨page, n⟩).entries.foldl (fun m e => if e.waiting then m ||| e.slots else m) m) 0

/-- FSLOT (R106, R108). -/
def fslot (d : Desc) : Act Fin := do
  let a := fld d.w2 47 0
  let page := (← get).ag.page
  if (← actGet fun w => w.slotsNamed page).testBit (fld d.w3 3 0) then throw .hold
  let ps ← xlateRange a 4224 false
  need (zeroBits d.w2 [(63, 48)] && zeroBits d.w3 [(63, 4)] && d.w4 == 0 && d.w5 == 0 && d.w6 == 0 && d.w7 == 0 &&
    a % 32 == 0 && !ps.isEmpty) stOperand
  let ws ← readWords a 528
  need (tableOk (slotTable ws false) && tableOk (slotTable ws true)) stFormat
  let n := fld d.w3 3 0
  modStoveA fun s => { s with slots := ⟨n, jobOf d, ws⟩ :: s.slots.filter fun x => x.slot ≠ n }
  return .done stOk

/-- The commands of a stove that have started, have not completed and name a function slot. -/
def World.slotUsers (w : World) (page n : Nat) : List (RingId × Nat) :=
  (List.range 4).flatMap fun k =>
    ((w.ringRun ⟨page, k⟩).entries.filter fun e => e.waiting && e.slots.testBit n).map fun e => ((⟨page, k⟩ : RingId), e.idx)

/-- Empty the function slots of a mask, each as soon as the commands already issued that name it have completed (R108). -/
def World.clearSlots (w : World) (stove : Nat) (mask : U64) : World :=
  let named := ((List.range 16).filter (bit mask)).map fun n => (n, w.slotUsers (0x1000 + stove) n)
  let now := (named.filter fun x => x.2.isEmpty).map Prod.fst
  w.modStove stove fun s => { s with
    slots := s.slots.filter (fun x => !now.contains x.slot), clr := s.clr ++ named.filter fun x => !x.2.isEmpty }

/-- MOVE (R101). -/
def execMove (c : Cmd) (s : State) : Host.Outcome State Fault Refusal :=
  s.run fun w => w.runCmd c (fun d => opcodeOf d == 0x20) move

/-- FSLOT (R106). -/
def execFslot (c : Cmd) (s : State) : Host.Outcome State Fault Refusal :=
  s.run fun w => w.runCmd c (fun d => opcodeOf d == 0x21) fslot

end Sys2Proof.Machine
end

