-- ==== Sys2Proof/Machine/Hob.lean ====
section
/-! DEFINITION. The Hob: vector operations in binary32 (R109 to R114). -/

namespace Sys2Proof.Machine

/-! ### Arithmetic in binary32 (R109) -/

/-- A decoded input, rounded to binary32 (R109). -/
def hin (e : Elem) : Val := rneF32 e.val

def hadd (a b : Val) : Val := rneF32 (a.add b)
def hsub (a b : Val) : Val := rneF32 (a.sub b)
def hmul (a b : Val) : Val := rneF32 (a.mul b)
def hdiv (a b : Val) : Val := rneF32 (a.div b)
/-- FMA rounds a × b + c once. -/
def hfma (a b c : Val) : Val := rneF32 ((a.mul b).add c)
/-- Maximum and minimum; NaN if either is NaN (R111). Of +0 and −0 the first operand results: the spec says not which zero (DESIGN
CHOICE, log entry 81). -/
def hmax (a b : Val) : Val := if a.isNaN || b.isNaN then .nan else if a.lt b then b else a
def hmin (a b : Val) : Val := if a.isNaN || b.isNaN then .nan else if b.lt a then b else a

/-- One level of the fixed tree: partial i is 2i with 2i + 1 (R112). -/
def treeLevel (f : Val → Val → Val) : List Val → List Val
  | a :: b :: xs => f a b :: treeLevel f xs
  | xs => xs

/-- A row reduction in the lane and tree order of R112; `z` starts every lane. -/
def rowReduce (f : Val → Val → Val) (z : Val) (xs : List Val) : Val :=
  let lanes := (chunks 256 xs).foldl (fun (ls : List Val) c => (ls.take c.length).zipWith f c ++ ls.drop c.length)
    (List.replicate 256 z)
  ((List.range 8).foldl (fun ls _ => treeLevel f ls) lanes).headD z

def rowSum (xs : List Val) : Val := rowReduce hadd (.zero false) xs
def rowMax (xs : List Val) : Val := rowReduce hmax (.inf true) xs
def rowSumSq (xs : List Val) : Val := rowSum (xs.map fun x => hmul x x)

/-- L2E of R113. -/
def l2e : Val := f32Val 0x3FB8AA3B

/-- Row softmax: results, maximum and LOG2 of the sum (R113). -/
def softmaxRow (imm : Val) (a : List Val) : List Val × Val × Val :=
  let x := a.map fun v => hmul v imm
  let m := rowMax x
  let e := x.map fun v => hobExp2 (rneF32 ((v.sub m).mul l2e))
  let s := rowSum e
  (e.map fun v => hdiv v s, m, hobLog2 s)

/-- RMSNORM of a row (R111). -/
def rmsRow (imm : Val) (a b : List Val) : List Val :=
  let r := hobRsqrt (hadd (hdiv (rowSumSq a) (Val.ofNat a.length)) imm)
  a.zipWith (fun x g => hmul (hmul x r) g) b

/-- LAYERNORM of a row (R111). -/
def layerRow (imm : Val) (a b c : List Val) : List Val :=
  let mu := hdiv (rowSum a) (Val.ofNat a.length)
  let y := a.map fun x => hsub x mu
  let r := hobRsqrt (hadd (hdiv (rowSumSq y) (Val.ofNat a.length)) imm)
  (y.zip (b.zip c)).map fun t => hadd (hmul (hmul t.1 r) t.2.1) t.2.2

/-! ### VEC operands (R110) -/

/-- The fields of a VEC command (R110). -/
structure Vec where
  a : Nat
  b : Nat
  c : Nat
  dst : Nat
  op : Nat
  arg : Nat
  imm : Val
  row0 : Nat
  nrows : Nat
  rsv : Bool
  deriving DecidableEq, Repr

def vecOf (d : Desc) : Vec where
  a := fld d.w2 47 0
  b := fld d.w3 47 0
  c := fld d.w4 47 0
  dst := fld d.w5 47 0
  op := fld d.w6 7 0
  arg := fld d.w6 15 8
  imm := (codeVal .l16 (fld d.w6 31 16)).1
  row0 := fld d.w7 31 0
  nrows := fld d.w7 63 32
  rsv := zeroBits d.w2 [(63, 48)] && zeroBits d.w3 [(63, 48)] && zeroBits d.w4 [(63, 48)] && zeroBits d.w5 [(63, 48)] &&
    zeroBits d.w6 [(63, 32)]

/-- An operand of a VEC: its address, tensor and recipe. -/
structure VOp where
  va : Nat
  t : Tensor
  r : Recipe
  deriving DecidableEq, Repr, Inhabited

def readOp (va : Nat) : Act VOp := do
  let t ← readTensor va
  let s ← get
  return ⟨va, t, s.w.recipe (s.ag.job.getD 0) t.kind⟩

/-- The row of an operand that serves row i: its own, or its only one (R110). -/
def VOp.row (o : VOp) (i : Nat) : Nat := if o.t.rows = 1 then 0 else i

/-- The ranges an operand's rows take. -/
def VOp.ranges (o : VOp) (v : Vec) : List (Nat × Nat) :=
  if o.t.rows = 1 then o.t.ranges o.r 0 (min 1 v.nrows) 0 o.t.cols else o.t.ranges o.r v.row0 v.nrows 0 o.t.cols

/-- R95 and R97 for a source operand: alignment, rows within ROWS, at most 2^20 columns (R110). -/
def VOp.ok (o : VOp) (v : Vec) : Bool :=
  o.va % 32 == 0 && o.t.aligned o.r && (o.t.rows == 1 || decide (v.row0 + v.nrows ≤ o.t.rows)) && decide (o.t.cols ≤ 1048576)

/-- The same for a result, every row of which is written. -/
def VOp.dstOk (o : VOp) (v : Vec) : Bool :=
  o.va % 32 == 0 && o.t.aligned o.r && decide (v.row0 + v.nrows ≤ o.t.rows) && decide (o.t.cols ≤ 1048576)

/-- Read a row of an operand, counted (R78). -/
def VOp.read (o : VOp) (i : Nat) : Act (List Elem) := do
  let es ← readRow o.t o.r (o.row i) 0 o.t.cols
  countReads es
  return es

/-- Read the source operands that an operation takes: `n` of a, b, c. -/
def readOps (v : Vec) (n : Nat) : Act (List VOp) := ([v.a, v.b, v.c].take n).mapM readOp

/-- A row-by-row VEC with a tensor result: `n` source operands, columns of the result from those of a, and the function of a
row. -/
def vecRows (n : Nat) (column : Bool) (bad : Vec → Stove → Nat → Bool) (f : Vec → Stove → Nat → List (List Val) → List Val)
    (d : Desc) : Act Fin := do
  let v := vecOf d
  let job := jobOf d
  let s ← stoveA
  let ops ← readOps v n
  let dst ← readOp v.dst
  let dr := dst.t.ranges dst.r v.row0 v.nrows 0 dst.t.cols
  let rl ← rangesLocal (ops.flatMap fun o => o.ranges v) false
  let wl ← rangesLocal dr true
  let cols := (ops.headD default).t.cols
  need (v.rsv && ops.all (fun o => o.ok v) && dst.dstOk v && rl && wl && !bad v s job) stOperand
  need (ops.all (fun o => o.t.cols == cols) && dst.t.cols == (if column then 1 else cols)) stOperand
  need (ops.all (fun o => o.t.blocksFit o.r) && dst.t.blocksFit dst.r && dst.t.srFits dst.r) stFormat
  let rows ← (upTo v.row0 v.nrows).mapM fun i => do
    let es ← ops.mapM fun o => o.read i
    let out := f v s job (es.map fun r => r.map hin)
    if column then
      return out.map fun x => ({ v := x, p := es.any fun r => r.any Elem.p } : OutEl)
    else
      return out.zipIdx.map fun x => ({ v := x.1, p := es.any fun r => (r.getD x.2 default).p } : OutEl)
  writeRect (stepOf d) dst.t dst.r v.row0 0 rows
  return .done stOk

/-- A row operation whose every result depends on the whole row: poison of any element reaches all of them. -/
def vecWhole (n : Nat) (f : Vec → List (List Val) → List Val) (d : Desc) : Act Fin := do
  let v := vecOf d
  let ops ← readOps v n
  let dst ← readOp v.dst
  let rl ← rangesLocal (ops.flatMap fun o => o.ranges v) false
  let wl ← rangesLocal (dst.t.ranges dst.r v.row0 v.nrows 0 dst.t.cols) true
  let cols := (ops.headD default).t.cols
  need (v.rsv && ops.all (fun o => o.ok v) && dst.dstOk v && rl && wl) stOperand
  need (ops.all (fun o => o.t.cols == cols) && dst.t.cols == cols) stOperand
  need (ops.all (fun o => o.t.blocksFit o.r) && dst.t.blocksFit dst.r && dst.t.srFits dst.r) stFormat
  let rows ← (upTo v.row0 v.nrows).mapM fun i => do
    let es ← ops.mapM fun o => o.read i
    let p := es.any fun r => r.any Elem.p
    return (f v (es.map fun r => r.map hin)).map fun x => ({ v := x, p := p } : OutEl)
  writeRect (stepOf d) dst.t dst.r v.row0 0 rows
  return .done stOk

/-- No further condition. -/
def noBad (_ : Vec) (_ : Stove) (_ : Nat) : Bool := false

def un (f : Val → Val) (_ : Vec) (_ : Stove) (_ : Nat) : List (List Val) → List Val
  | [a] => a.map f
  | _ => []

def bin (f : Val → Val → Val) (_ : Vec) (_ : Stove) (_ : Nat) : List (List Val) → List Val
  | [a, b] => a.zipWith f b
  | _ => []

def tern (f : Val → Val → Val → Val) (_ : Vec) (_ : Stove) (_ : Nat) : List (List Val) → List Val
  | [a, b, c] => (a.zip (b.zip c)).map fun t => f t.1 t.2.1 t.2.2
  | _ => []

def whole (f : List Val → Val) (_ : Vec) (_ : Stove) (_ : Nat) : List (List Val) → List Val
  | [a] => [f a]
  | _ => []

/-- The slot that ARG[3:0] names must hold a table of the job (R108). -/
def slotBad (v : Vec) (s : Stove) (job : Nat) : Bool := (s.slot (v.arg % 16) job).isNone

/-- A table of the slot that ARG[3:0] names. -/
def slotFn (prime : Bool) (v : Vec) (s : Stove) (job : Nat) (x : Val) : Val :=
  evalFn (slotTable ((s.slot (v.arg % 16) job).getD []) prime) x

/-- SOFTMAX with ARG[0] = 1 also writes each row's maximum and LOG2 of its sum to SRCC (R113): elements 2r and 2r + 1 of its
column, a layout that the spec does not give (DESIGN CHOICE, log entry 81). -/
def softmax (d : Desc) : Act Fin := do
  let v := vecOf d
  if v.arg % 2 = 0 then vecWhole 1 (fun v xs => match xs with | [a] => (softmaxRow v.imm a).1 | _ => []) d
  else
    let a ← readOp v.a
    let ms ← readOp v.c
    let dst ← readOp v.dst
    let rl ← rangesLocal (a.ranges v) false
    let wl ← rangesLocal (dst.t.ranges dst.r v.row0 v.nrows 0 dst.t.cols ++ ms.t.ranges ms.r (2 * v.row0) (2 * v.nrows) 0 1) true
    need (v.rsv && a.ok v && dst.dstOk v && ms.va % 32 == 0 && ms.t.aligned ms.r && ms.t.cols == 1 &&
      decide (2 * (v.row0 + v.nrows) ≤ ms.t.rows) && rl && wl && dst.t.cols == a.t.cols) stOperand
    need (a.t.blocksFit a.r && dst.t.blocksFit dst.r && dst.t.srFits dst.r && ms.t.blocksFit ms.r && ms.t.srFits ms.r) stFormat
    let rows ← (upTo v.row0 v.nrows).mapM fun i => do
      let es ← a.read i
      let p := es.any Elem.p
      let x := softmaxRow v.imm (es.map hin)
      return (x.1.map fun y => ({ v := y, p := p } : OutEl), [({ v := x.2.1, p := p } : OutEl), { v := x.2.2, p := p }])
    writeRect (stepOf d) dst.t dst.r v.row0 0 (rows.map Prod.fst)
    writeRect (stepOf d) ms.t ms.r (2 * v.row0) 0 (rows.flatMap fun r => r.2.map fun e => [e])
    return .done stOk

/-- Whether entry x ranks before entry y (R114): greater value first, NaN last, ties to the lower column. -/
def topkBefore (x y : Nat × Val) : Bool :=
  if x.2.isNaN then y.2.isNaN && decide (x.1 < y.1)
  else if y.2.isNaN then true
  else if y.2.lt x.2 then true
  else if x.2.lt y.2 then false
  else decide (x.1 < y.1)

/-- Insert an entry into a ranked list. -/
def rankIns (x : Nat × Val) : List (Nat × Val) → List (Nat × Val)
  | [] => [x]
  | y :: ys => if topkBefore x y then x :: y :: ys else y :: rankIns x ys

/-- The k first entries of a row in rank order, by column (R114). -/
def topkRow (k : Nat) (xs : List Val) : List (Nat × Val) :=
  xs.zipIdx.foldl (fun best x => (rankIns (x.2, x.1) best).take k) []

/-- TOPK (R114). A row of fewer than k columns gives one record for each (DESIGN CHOICE, log entry 81); the rounding of the values to
L16 for ranking is no counted conversion, only their reads count (DESIGN CHOICE, log entry 77). -/
def topk (d : Desc) : Act Fin := do
  let v := vecOf d
  let k := v.arg % 32
  let a ← readOp v.a
  let rl ← rangesLocal (a.ranges v) false
  let wl ← rangesLocal ((List.range v.nrows).map fun q => (v.dst + 64 * q, 4 * k)) true
  need (v.rsv && a.ok v && rl && wl && decide (1 ≤ k) && decide (k ≤ 16) && decide (a.t.cols ≤ 65536)) stOperand
  need (a.t.blocksFit a.r) stFormat
  (List.range v.nrows).forM fun q => do
    let es ← a.read (v.row0 + q)
    let codes := es.map fun e => (encodeElem (hin e) .l16 .rne).1
    let best := topkRow k (codes.map fun c => (codeVal .l16 c).1)
    let bs := best.flatMap fun b => leBytes 4 (b.1 + codes.getD b.1 0 * 2 ^ 16)
    writeVB (v.dst + 64 * q) (bs.map fun b => (b, es.any Elem.p))
  return .done stOk

/-! ### The commands (R111) -/

/-- Whether a descriptor is the Hob operation of a code. -/
def isVec (op : Nat) (d : Desc) : Bool := opcodeOf d == 0x18 && fld d.w6 7 0 == op

def execVecCopy (c : Cmd) (s : State) : Host.Outcome State Fault Refusal :=
  s.run fun w => w.runCmd c (isVec 0x00) (vecRows 1 false noBad (un id))
def execAdd (c : Cmd) (s : State) : Host.Outcome State Fault Refusal :=
  s.run fun w => w.runCmd c (isVec 0x01) (vecRows 2 false noBad (bin hadd))
def execSub (c : Cmd) (s : State) : Host.Outcome State Fault Refusal :=
  s.run fun w => w.runCmd c (isVec 0x02) (vecRows 2 false noBad (bin hsub))
def execMul (c : Cmd) (s : State) : Host.Outcome State Fault Refusal :=
  s.run fun w => w.runCmd c (isVec 0x03) (vecRows 2 false noBad (bin hmul))
def execFma (c : Cmd) (s : State) : Host.Outcome State Fault Refusal :=
  s.run fun w => w.runCmd c (isVec 0x04) (vecRows 3 false noBad (tern hfma))
def execMax (c : Cmd) (s : State) : Host.Outcome State Fault Refusal :=
  s.run fun w => w.runCmd c (isVec 0x05) (vecRows 2 false noBad (bin hmax))
def execMin (c : Cmd) (s : State) : Host.Outcome State Fault Refusal :=
  s.run fun w => w.runCmd c (isVec 0x06) (vecRows 2 false noBad (bin hmin))
def execAbs (c : Cmd) (s : State) : Host.Outcome State Fault Refusal :=
  s.run fun w => w.runCmd c (isVec 0x07) (vecRows 1 false noBad (un Val.abs))
def execNeg (c : Cmd) (s : State) : Host.Outcome State Fault Refusal :=
  s.run fun w => w.runCmd c (isVec 0x08) (vecRows 1 false noBad (un Val.neg))
def execScale (c : Cmd) (s : State) : Host.Outcome State Fault Refusal :=
  s.run fun w => w.runCmd c (isVec 0x09) (vecRows 1 false noBad fun v s j => un (fun a => hmul a v.imm) v s j)
def execDiv (c : Cmd) (s : State) : Host.Outcome State Fault Refusal :=
  s.run fun w => w.runCmd c (isVec 0x0A) (vecRows 2 false noBad (bin hdiv))
def execSqrt (c : Cmd) (s : State) : Host.Outcome State Fault Refusal :=
  s.run fun w => w.runCmd c (isVec 0x0B) (vecRows 1 false noBad (un hobSqrt))
def execRsqrt (c : Cmd) (s : State) : Host.Outcome State Fault Refusal :=
  s.run fun w => w.runCmd c (isVec 0x0C) (vecRows 1 false noBad (un hobRsqrt))
def execRecip (c : Cmd) (s : State) : Host.Outcome State Fault Refusal :=
  s.run fun w => w.runCmd c (isVec 0x0D) (vecRows 1 false noBad (un fun a => rneF32 a.inv))
def execExp2 (c : Cmd) (s : State) : Host.Outcome State Fault Refusal :=
  s.run fun w => w.runCmd c (isVec 0x0E) (vecRows 1 false noBad (un hobExp2))
def execLog2 (c : Cmd) (s : State) : Host.Outcome State Fault Refusal :=
  s.run fun w => w.runCmd c (isVec 0x0F) (vecRows 1 false noBad (un hobLog2))
/-- FN (R107, R111). -/
def execFn (c : Cmd) (s : State) : Host.Outcome State Fault Refusal :=
  s.run fun w => w.runCmd c (isVec 0x10)
    (vecRows 1 false slotBad fun v s j => un (fun a => rneF32 (slotFn false v s j a)) v s j)
/-- FNDERIV: a × f′(b), rounded once (R111). -/
def execFnDeriv (c : Cmd) (s : State) : Host.Outcome State Fault Refusal :=
  s.run fun w => w.runCmd c (isVec 0x11)
    (vecRows 2 false slotBad fun v s j => bin (fun a b => hmul a (slotFn true v s j b)) v s j)
def execRowSum (c : Cmd) (s : State) : Host.Outcome State Fault Refusal :=
  s.run fun w => w.runCmd c (isVec 0x20) (vecRows 1 true noBad (whole rowSum))
def execRowMax (c : Cmd) (s : State) : Host.Outcome State Fault Refusal :=
  s.run fun w => w.runCmd c (isVec 0x21) (vecRows 1 true noBad (whole rowMax))
def execRowSumSq (c : Cmd) (s : State) : Host.Outcome State Fault Refusal :=
  s.run fun w => w.runCmd c (isVec 0x22) (vecRows 1 true noBad (whole rowSumSq))
def execSoftmax (c : Cmd) (s : State) : Host.Outcome State Fault Refusal :=
  s.run fun w => w.runCmd c (isVec 0x23) softmax
def execRmsNorm (c : Cmd) (s : State) : Host.Outcome State Fault Refusal :=
  s.run fun w => w.runCmd c (isVec 0x24)
    (vecWhole 2 fun v xs => match xs with | [a, b] => rmsRow v.imm a b | _ => [])
def execLayerNorm (c : Cmd) (s : State) : Host.Outcome State Fault Refusal :=
  s.run fun w => w.runCmd c (isVec 0x25)
    (vecWhole 3 fun v xs => match xs with | [a, b, g] => layerRow v.imm a b g | _ => [])
def execTopK (c : Cmd) (s : State) : Host.Outcome State Fault Refusal :=
  s.run fun w => w.runCmd c (isVec 0x30) topk

end Sys2Proof.Machine
end

