-- ==== Sys2Proof/Machine/Arms.lean ====
section
/-! DEFINITION. Bucket arms and contributions as every source uses them (R255, R258 to R260). -/

namespace Sys2Proof.Machine

/-! ### Fields of a bucket descriptor (R255) -/

def Arm.op (a : Arm) : Nat := fld (a.word 0) 22 21
def Arm.rfmt (a : Arm) : Nat := fld (a.word 0) 26 23
def Arm.round (a : Arm) : Nat := fld (a.word 0) 28 27
def Arm.cunit (a : Arm) : Nat := fld (a.word 0) 29 29
def Arm.rdel (a : Arm) : Nat := fld (a.word 0) 31 30
def Arm.ncontrib (a : Arm) : Nat := fld (a.word 0) 44 32 + 1
def Arm.cixBase (a : Arm) : Nat := fld (a.word 0) 57 45
def Arm.cixMb (a : Arm) : Bool := bit (a.word 0) 58
def Arm.nchunk (a : Arm) : Nat := fld (a.word 1) 31 0
def Arm.rtid (a : Arm) : Nat := fld (a.word 1) 47 32
def Arm.nhdev (a : Arm) : Nat := fld (a.word 1) 61 48
def Arm.rbase (a : Arm) : Nat := fld (a.word 3) 47 0
def Arm.mgrp (a : Arm) : Nat := fld (a.word 3) 59 48
def Arm.rinfo (a : Arm) : Nat := fld (a.word 4) 47 0
def Arm.homest (a : Arm) : Nat := fld (a.word 5) 47 0
def Arm.cgrp (a : Arm) : Nat := fld (a.word 7) 11 0
def Arm.subtree (a : Arm) : Nat := fld (a.word 7) 25 12
/-- Chunks of a close unit (R265). -/
def Arm.unit (a : Arm) : Nat := if a.cunit = 1 then 64 else 1
def Arm.isHome (a : Arm) : Bool := a.roles.testBit 0
def Arm.isContrib (a : Arm) : Bool := a.roles.testBit 1
def Arm.isRecv (a : Arm) : Bool := a.roles.testBit 2

/-- The home device of a chunk (R258). -/
def Arm.homeOf (a : Arm) (c : Nat) : Nat :=
  a.hm.foldl (fun d e => if e.1 ≤ c then e.2 else d) 0

/-- The chunks of a bucket that a device homes (R258). -/
def Arm.chunksOf (a : Arm) (dev : Nat) : List Nat := (List.range a.nchunk).filter fun c => a.homeOf c == dev

/-- The contributor index of a contribution (R259). -/
def Arm.cix (a : Arm) (mbid : Nat) (permb : Bool) : Nat := a.cixBase + (if a.cixMb && permb then mbid else 0)

/-- The arm of a tag for a step. -/
def World.arm (w : World) (tag step : Nat) : Option Arm := w.dev.chm.arms.find? fun a => a.tag == tag && a.step == step

/-- Change the arm of a tag for a step. -/
def World.modArm (w : World) (tag step : Nat) (f : Arm → Arm) : World :=
  w.upd fun d => { d with chm := { d.chm with arms := updFirst (fun a => a.tag == tag && a.step == step) f d.chm.arms } }

/-! ### Contributions -/

/-- Why a source of contributions is refused (R259): not armed with CONTRIB, index or chunk out of range. -/
def World.contribRefused (w : World) (tag step mbid : Nat) (permb : Bool) (c0 n : Nat) : Bool :=
  match w.arm tag step with
  | none => true
  | some a => !a.isContrib || decide (a.ncontrib ≤ a.cix mbid permb) || decide (a.nchunk < c0 + n)

/-- Send one contribution to the home of its chunk, or into this device's own Chimney for an ARRIVAL bucket (R259,
R269). -/
def World.contribSend (w : World) (a : Arm) (mbid : Nat) (permb : Bool) (cfmt chunk : Nat) (codes : List Nat) (poison : Bool) :
    World :=
  let x := a.cix mbid permb
  let m : FabMsg := .contrib ⟨a.job, a.tag, a.step, x, chunk, 1, cfmt, false, permb, mbid, poison, codes⟩
  let w := w.modArm a.tag a.step fun a => { a with used := insNat x a.used }
  if a.mode = 1 then w.sendNet m else (w.fabricSend (some a.job) (a.homeOf chunk) m).2

/-- Send EMPTY contributions for chunks c0 to c0 + n − 1, one packet to each home device (R260). -/
def World.emptySend (w : World) (a : Arm) (mbid : Nat) (permb : Bool) (c0 n : Nat) : World :=
  let x := a.cix mbid permb
  let m : FabMsg := .contrib ⟨a.job, a.tag, a.step, x, c0, n, 0, true, permb, mbid, false, []⟩
  let w := w.modArm a.tag a.step fun a => { a with used := insNat x a.used }
  if a.mode = 1 then w.sendNet m
  else
    let devs := (upTo c0 n).foldl (fun ds c => insNat (a.homeOf c) ds) []
    devs.foldl (fun w d => (w.fabricSend (some a.job) d m).2) w

end Sys2Proof.Machine
end

