-- ==== Sys2Proof/Machine/Tile.lean ====
section
/-! DEFINITION. The tile unit: TILE_WS, TILE_OS and TILE_ADAPT, products and accumulation (R61 to R64, R85 to R94, R99,
R100, R156 to R169), the fireguard's attempts (R72 to R76, R94). -/

namespace Sys2Proof.Machine

/-! ### Products -/

/-- Cell rate of a pair of formats (R85). -/
def pairRate (a b : Fmt) : Nat := 16 / max a.width b.width

/-- Largest reduction extent of a stationary tile (R86). -/
def kmax (f : Fmt) : Nat := 2048 / f.width

/-- Length of a group of consecutive reduction indices (R62). -/
def groupLen (rate bs bt : Nat) : Nat :=
  if bs = 0 ∧ bt = 0 then rate else if bs = 0 then bt else if bt = 0 then bs else min bs bt

/-- The integer of an integer-format element (R64). -/
def rawInt (v : Val) : Int := match v with | .fin n _ => n | _ => 0

/-- Add one line of products to an accumulator entry, group by group in increasing k (R62 to R64). -/
def accLine (int : Bool) (g : Nat) (a : AccEnt) (xs ys : List Elem) : AccEnt :=
  let ps := xs.zip ys
  let p := a.p || xs.any Elem.p || ys.any Elem.p
  if int then
    let s := ps.foldl (fun (n : Int) e => n + rawInt e.1.raw * rawInt e.2.raw) 0
    match a.v with
    | .int n => ⟨.int (n + s), p⟩
    | .a32 _ => ⟨.int s, p⟩
  else
    let a0 := match a.v with | .a32 v => v | .int n => Val.ofInt n
    ⟨.a32 ((chunks g ps).foldl (fun acc grp =>
      rnd32 (acc.add (match grp with
        | [] => .zero false
        | e :: es => es.foldl (fun (t : Val) e => t.add (e.1.val.mul e.2.val)) (e.1.val.mul e.2.val)))) a0), p⟩

/-- Columns of a list of rows, n of them. -/
def transpose [Inhabited α] (n : Nat) (rows : List (List α)) : List (List α) :=
  (List.range n).map fun j => rows.map fun r => r.getD j default

/-- The entries of a set as rows × cols, an entry not listed being +0. -/
def AccSet.get (s : AccSet) (int : Bool) (i j : Nat) : AccEnt :=
  ((s.rows.getD i []).getD j ⟨if int then .int 0 else .a32 (.zero false), false⟩)

/-- The rows of a set with a rectangle at (0, 0) replaced. -/
def overlay (old new : List (List AccEnt)) : List (List AccEnt) :=
  (List.range (max old.length new.length)).map fun i =>
    let n := new.getD i []
    n ++ (old.getD i []).drop n.length

/-- One streamed part of a tile: the lines that enter along k with their format and block size, and the held columns with
theirs. -/
structure Part' where
  fmtT : Fmt
  blkT : Nat
  lines : List (List Elem)
  fmtS : Fmt
  blkS : Nat
  cols : List (List Elem)
  deriving DecidableEq, Repr

/-- Whether a part runs on the integer path without block scales along k (R61, R64). -/
def Part'.int (p : Part') : Bool := p.fmtT.isInt && p.fmtS.isInt && p.blkT == 0 && p.blkS == 0

/-- Beats of a part's pass in WS (R90). -/
def Part'.beats (p : Part') : Nat :=
  p.lines.length * ceilDiv (p.lines.headD []).length (128 * pairRate p.fmtS p.fmtT)

/-- Stream a part into a rectangle of entries. -/
def Part'.apply (p : Part') (rect : List (List AccEnt)) : List (List AccEnt) :=
  let g := groupLen (pairRate p.fmtS p.fmtT) p.blkS p.blkT
  (rect.zip p.lines).map fun row => (row.1.zip p.cols).map fun e => accLine p.int g e.1 row.2 e.2

/-! ### Streams and attempts -/

/-- A streamed operand: its tensor, recipe and stored lines along k. -/
structure StreamOp where
  t : Tensor
  r : Recipe
  lines : List (List Elem)
  deriving DecidableEq, Repr

/-- The fireguard watches an operand whose stream is quantised and whose recipe has FG_EN (R94). -/
def StreamOp.watched (o : StreamOp) : Bool := o.r.fgEn && o.r.stream.isSome

/-- The operand as it enters the Grate in an attempt: format, block size along k, lines, and the quantisation's counts
(R71, R72). -/
def StreamOp.enter (o : StreamOp) (wide : Bool) : Fmt × Nat × List (List Elem) × Counts :=
  match o.r.stream with
  | none => (o.r.fmt, o.r.block, o.lines, ⟨0, 0, 0, 0, 0, 0, 0, 0, false⟩)
  | some f =>
    let sh := o.r.streamShape f (wide && o.r.fgEn)
    let q := o.lines.map fun l => quantLine sh o.t.static l
    (sh.1, sh.2.1, q.map Prod.fst, q.foldl (fun c x => c.plus x.2) ⟨0, 0, 0, 0, 0, 0, 0, 0, false⟩)

/-- The tile's count and limit over the watched operands, if any (R72, R94). -/
def fgCount (ops : List (StreamOp × Counts)) : Option (Nat × Nat) :=
  let ws := ops.filter fun o => o.1.watched
  match ws with
  | [] => none
  | o :: _ => some (ws.foldl (fun a x => a + x.2.satIn) 0, ws.foldl (fun a x => min a x.1.r.fgLimit) o.1.r.fgLimit)

/-- What the fireguard makes of an attempt: 0 the first, 1 the replay, 2 the release of a replay over the limit. -/
def fgVerdict (att : Nat) (c : Option (Nat × Nat)) : Option Phase :=
  match c with
  | none => none
  | some (n, lim) => if lim < n ∧ att = 0 then some .replay else if lim < n ∧ att = 1 then some .over else none

/-- Count the released attempt of a stream: conversions, and the streamed tensor's health record (R78, R80). REPLAYS counts once for
each quantised stream of a replayed tile, so twice where both name one tensor, and not for a stream that enters as stored
(DESIGN CHOICE, log entry 78). -/
def releaseStream (step att : Nat) (o : StreamOp) (c : Counts) : Act Unit := do
  tally fun x => x.plus c
  if o.r.stream.isSome then
    let job := (← get).ag.job.getD 0
    healthA job step { tid := o.t.tid, kind := o.t.kind, streamSats := c.satIn, replays := min att 1 } false

/-- End a tile: FG_REPLAY, FG_OVER and FIREGUARD_LIMIT (R76, R77). -/
def endTile (step att : Nat) (tid : Nat) : Act Fin := do
  if att ≥ 1 then tally fun c => { c with fgReplay := c.fgReplay + 1 }
  if att = 2 then
    tally fun c => { c with fgOver := true }
    let r ← get
    actW fun w => w.count (rk r.ag.page 0x0A0) 63 32 1
    if r.denied || r.pois.isSome then return .done stOk
    raiseStatus r.ag.page 0x0D 0 (detail r.ag.job (tid * 2 ^ 8 + r.ag.seq * 2 ^ 32)) (BitVec.ofNat 64 step)
    return .done stFireguard
  return .done stOk

/-! ### Drains -/

/-- Read a drain descriptor; none at address 0. -/
def readDrain (va : Nat) : Act (Option Drain) := do
  if va = 0 then return none
  let ws ← readWords va 4
  return some (drainOf (ws.getD 0 0) (ws.getD 1 0) (ws.getD 2 0) (ws.getD 3 0))

/-- Read the aux descriptor of a drain that names one (R103). -/
def readAux (dr : Option Drain) (rec' : Tensor → Recipe) : Act (Option (Tensor × Recipe)) := do
  match dr with
  | none => return none
  | some x =>
    if x.fmode ≠ 2 then return none
    let t ← readTensor x.aux
    return some (t, rec' t)

/-- The ranges a drain reads: bias of the output's columns, masks, aux elements (R103 to R105). -/
def drainRanges (d : Option Drain) (aux : Option (Tensor × Recipe)) (i0 m c0 n : Nat) : List (Nat × Nat) :=
  match d with
  | none => []
  | some d =>
    (if d.biasEn then [(d.bias + 2 * c0, 2 * n)] else []) ++ (if d.maskEn then [(d.mask, 32 * ceilDiv m 128)] else []) ++
    (match aux with | some (t, r) => t.ranges r i0 m c0 n | none => [])

/-- Read what a drain needs (R103 to R105). -/
def readDrainIn (d : Option Drain) (aux : Option (Tensor × Recipe)) (i0 m c0 n : Nat) (rowSc colSc : List Val) :
    Act DrainIn := do
  match d with
  | none => return ⟨none, [], [], [], [], rowSc, colSc⟩
  | some d =>
    let masks ← if d.maskEn then (List.range (ceilDiv m 128)).mapM (fun b => readVB (d.mask + 32 * b) 32) else pure []
    let bias ← if d.biasEn then do
        let bs ← readVB (d.bias + 2 * c0) (2 * n)
        pure ((unpack 16 0 n bs).map fun x => elemOf .l16 x.1 (Val.ofNat 1) x.2)
      else pure []
    let ax ← match aux with
      | some (t, r) => readRect t r i0 m c0 n
      | none => pure []
    let s ← stoveA
    let table := ((s.slot d.fslot ((← get).ag.job.getD 0)).map fun im => slotTable im (d.fmode == 2)).getD []
    return ⟨some d, masks, bias, ax, table, rowSc, colSc⟩

/-- Drain a rectangle of entries: the elements to write; the bias and aux elements read are counted (R103). -/
def drainRect (x : DrainIn) (rect : List (List AccEnt)) : Act (List (List OutEl)) := do
  let out := rect.zipIdx.map fun row => row.1.zipIdx.map fun e => drainEl x e.1 row.2 e.2
  countReads (out.flatMap fun row => row.flatMap fun e => e.2)
  return out.map fun row => row.map Prod.fst

/-- Whether an aux tensor fits its output (R97, R104). -/
def auxOk (d : Option Drain) (aux : Option (Tensor × Recipe)) (out : Tensor) : Bool :=
  match d, aux with
  | some d, some (t, r) => d.fmode != 2 || (d.aux % 32 == 0 && t.aligned r && t.rows == out.rows && t.cols == out.cols)
  | _, _ => true

/-- Abandon an attempt: what it has done and counted is discarded; it keeps its pending accesses (R117) and the function slot of its
drain (R108). -/
def abandon (start : Run) (d : Option Drain) (out : List (Nat × Nat)) : Act Unit := do
  let now ← get
  set { start with rd := now.rd, wr := now.wr, slots := (match d with | some x => if x.fmode = 0 then 0 else 2 ^ x.fslot | none => 0) }
  markWrites out

/-! ### Weight-stationary tiles -/

/-- Block size along k of a stored operand whose k is axis `k`, or none when R89 refuses its form. -/
def kBlock (r : Recipe) (k : Nat) : Option Nat :=
  if r.sf = .none then some 0 else if r.axis ≠ k then none else if r.perCh then some 0 else some r.block

/-- The set a WS command names. -/
def Stove.set (s : Stove) (n : Nat) : AccSet := if n = 0 then s.set0 else s.set1

def Stove.putSet (s : Stove) (n : Nat) (a : AccSet) : Stove := if n = 0 then { s with set0 := a } else { s with set1 := a }

/-- GRT_ACTIVE counts the beats of the released pass (R120). -/
def countBeats (n : Nat) : Act Unit := do
  let p := (← get).ag.page
  actW fun w => w.count (rk p 0x090) 63 0 n

/-- TILE_WS (R99) and TILE_ADAPT (R167 to R169), one attempt. After a resume the held tile is loaded again from its recorded
descriptor (R140). EV_FIREGUARD of a TILE_ADAPT names the base stream's tensor: the spec names none of its two streams
(DESIGN CHOICE, log entry 78). -/
def tileWs (adapt : Bool) (att : Nat) (d : Desc) : Act Fin := do
  let start ← get
  let job := jobOf d
  let step := stepOf d
  let statA := fld d.w2 47 0
  let n0 := fld d.w2 63 48 * 128
  let strmA := fld d.w3 47 0
  let k0 := fld d.w3 63 48 * 16
  let m0 := fld d.w5 31 0
  let mt := fld d.w5 45 32 + 1
  let kt := (fld d.w5 51 46 + 1) * 16
  let accIn := bit d.w5 52
  let accOut := bit d.w5 53
  let setNo := fld d.w5 54 54
  let keep := bit d.w5 55
  let nt := fld d.w5 62 56 + 1
  let rk' := fld d.w7 7 0 + 1
  let s ← stoveA
  let old := s.set setNo
  let statW ← if keep then pure ((s.held.map HeldTile.desc).getD []) else readWords statA 4
  let stat := tensorOf (statW.getD 0 0) (statW.getD 1 0) (statW.getD 2 0) (statW.getD 3 0)
  let strm ← readTensor strmA
  let astat ← if adapt then readTensor (statA + 32) else pure default
  let astrm ← if adapt then readTensor (strmA + 32) else pure default
  let out ← if accOut then readTensor (fld d.w4 47 0) else pure default
  let dr ← if accOut then readDrain (fld d.w6 47 0) else pure none
  let rec' := fun (t : Tensor) => start.w.recipe job t.kind
  let aux ← readAux dr rec'
  let oRanges := if accOut then out.ranges (rec' out) m0 mt n0 nt else []
  let reads := (if keep then [] else stat.ranges (rec' stat) k0 kt n0 nt) ++ strm.ranges (rec' strm) m0 mt k0 kt ++
    (if adapt then astat.ranges (rec' astat) 0 rk' n0 nt ++ astrm.ranges (rec' astrm) m0 mt 0 rk' else []) ++
    drainRanges dr aux m0 mt n0 nt
  let readsLocal ← rangesLocal reads false
  let writesLocal ← rangesLocal oRanges true
  -- R97 and R99: command fields, alignments, region limits, the scratchpad rule
  let heldOk := !keep || (match s.held with
    | some h => h.job == job && h.stat == statA && h.k0 == k0 && h.n0 == n0 && h.kt == kt && h.nt == nt
    | none => false)
  let sFmt := if keep then (s.held.map HeldTile.fmt).getD .l16 else (rec' stat).fmt
  let kbS := if keep then (s.held.map HeldTile.block) else kBlock (rec' stat) 1
  let kbT := kBlock (rec' strm) 0
  let fits := fun (b : Option Nat) (n : Nat) => match b with | some b => b == 0 || n % b == 0 | none => false
  need (zeroBits d.w4 [(63, 48)] && zeroBits d.w5 [(63, 63)] && zeroBits d.w6 [(63, 48)] &&
    (if adapt then zeroBits d.w7 [(63, 8)] else d.w7 == 0)) stOperand
  need (statA % (if adapt then 64 else 32) == 0 && strmA % (if adapt then 64 else 32) == 0 &&
    (!accOut || (fld d.w4 47 0 % 32 == 0 && fld d.w6 47 0 % 32 == 0))) stOperand
  need ((keep || (stat.aligned (rec' stat) && stat.holds k0 kt n0 nt)) && strm.aligned (rec' strm) &&
    strm.holds m0 mt k0 kt && (!accOut || (out.aligned (rec' out) && out.holds m0 mt n0 nt && !(rec' out).perCh))) stOperand
  need (readsLocal && writesLocal && heldOk && decide (kt ≤ kmax sFmt)) stOperand
  need (decide (mt ≤ 1024) || (!accIn && accOut)) stOperand
  need (kbS.isSome && fits kbS k0 && fits kbS kt && kbT.isSome && fits kbT k0 && fits kbT kt) stOperand
  need (auxOk dr aux out && (match dr with | some x => x.ok s job false | none => true)) stOperand
  let aS := rec' astat
  let aT := rec' astrm
  let kbAS := kBlock aS 1
  let kbAT := kBlock aT 0
  need (!adapt || (accOut && decide (mt ≤ 1024) && decide (rk' ≤ kmax aS.fmt) && astat.kind == 9 && strm.kind == astrm.kind &&
    astat.aligned aS && astat.holds 0 rk' n0 nt && astrm.aligned aT && astrm.holds m0 mt 0 rk' &&
    fits kbAS rk' && fits kbAT rk')) stOperand
  -- R91: the set
  let tOp := (rec' strm).stream
  let entFmt := tOp.getD (rec' strm).fmt
  let intP := entFmt.isInt && sFmt.isInt && tOp.isNone && kbS == some 0 && kbT == some 0
  need (if accIn then old.live && old.job == job && old.intPath == intP else !old.live) stOperand
  -- R49, R59: formats
  need ((keep || stat.blocksFit (rec' stat)) && strm.blocksFit (rec' strm) &&
    (!accOut || (out.blocksFit (rec' out) && out.srFits (rec' out))) &&
    (!adapt || (astat.blocksFit aS && astrm.blocksFit aT)) &&
    (match aux with | some (t, r) => t.blocksFit r | none => true)) stFormat
  -- the tile
  let reload := match s.held with | some h => h.elems.isEmpty | none => false
  let loaded ← if keep && !reload then pure ((s.held.map HeldTile.elems).getD [])
    else readRect stat (rec' stat) k0 kt n0 nt
  if !keep then countReads loaded.flatten
  let rows ← readRect strm (rec' strm) m0 mt k0 kt
  let aRows ← if adapt then readRect astrm aT m0 mt 0 rk' else pure []
  let aHeld ← if adapt then readRect astat aS 0 rk' n0 nt else pure []
  let op : StreamOp := ⟨strm, rec' strm, rows⟩
  let ops := if adapt then [op, ⟨astrm, aT, aRows⟩] else [op]
  let ent := ops.map fun o => (o, o.enter (att != 0))
  match fgVerdict att (fgCount (ent.map fun e => (e.1, e.2.2.2.2))) with
  | some ph =>
    abandon start dr oRanges
    return .wait ph
  | none =>
    countReads rows.flatten
    countReads aRows.flatten
    countReads aHeld.flatten
    ent.forM fun e => releaseStream step att e.1 e.2.2.2.2
    let e0 := (ent.map Prod.snd).headD (.l16, 0, [], ⟨0, 0, 0, 0, 0, 0, 0, 0, false⟩)
    let part : Part' := ⟨e0.1, (if tOp.isSome then e0.2.1 else kbT.getD 0), e0.2.2.1, sFmt, kbS.getD 0, transpose nt loaded⟩
    let parts := if adapt then
        match ent with
        | [_, e1] => [part, ⟨e1.2.1, (if aT.stream.isSome then e1.2.2.1 else kbAT.getD 0), e1.2.2.2.1, aS.fmt, kbAS.getD 0,
            transpose nt aHeld⟩]
        | _ => [part]
      else [part]
    let int := part.int
    let rect0 := (List.range mt).map fun i => (List.range nt).map fun j =>
      if accIn then old.get int i j else ⟨if int then .int 0 else .a32 (.zero false), false⟩
    let rect1 := parts.foldl (fun rc p => p.apply rc) rect0
    -- R168 states no result for an adapter part on the float path after a base part on the integer path
    let mixed := adapt && int
    let n ← if mixed then actRun World.draw else pure 0
    let rect := if mixed then rect1.zipIdx.map fun row => row.1.zipIdx.map fun e =>
        ⟨accOfWord (Config.mixedSum n row.2 e.2), e.1.p⟩ else rect1
    countBeats (parts.foldl (fun n p => n + p.beats) 0)
    let held : Option HeldTile := if adapt then none
      else some ⟨job, statA, k0, n0, kt, nt, sFmt, kbS.getD 0, (if keep then (s.held.map HeldTile.perCh).getD false else (rec' stat).perCh), statW, loaded⟩
    modStoveA fun x => { x with held := held }
    if accOut then
      let rowSc := rows.map fun l => (l.headD default).sc
      let colSc := (transpose nt loaded).map fun l => (l.headD default).sc
      let din ← readDrainIn dr aux m0 mt n0 nt rowSc colSc
      let els ← drainRect din rect
      modStoveA fun x => x.putSet setNo { old with live := false, rows := overlay old.rows (if mt ≤ 1024 then rect else []) }
      writeRect step out (rec' out) m0 n0 els
    else
      modStoveA fun x => x.putSet setNo ⟨true, job, int, overlay old.rows rect⟩
    endTile step att strm.tid

/-! ### Output-stationary tiles -/

/-- Send the drained slice as contributions to its bucket (R100, R159, R160, R259): chunk c holds rows 2c and 2c + 1 of the
128 × 128 frame. -/
def sendSlice (tag step : Nat) (out : Tensor) (r : Recipe) (boff : Nat) (codes : List (List (Option Nat × Bool))) : Act Unit := do
  let w := (← get).w
  match w.arm tag step with
  | none => pure ()
  | some a =>
    (List.range 64).forM fun c => do
      let row := fun i => (List.range 128).map fun j => ((codes.getD i []).getD j (some 0, false))
      let es := row (2 * c) ++ row (2 * c + 1)
      let cf := match r.fmt with | .l16 => 0 | .h16 => 1 | .e5m2 => 2 | .e4m3 => 3 | .int8 => 4 | _ => 0
      actW fun w => w.contribSend a out.mbid out.permb cf (boff + c) (es.map fun e => e.1.getD 0) (es.any Prod.snd)

/-- TILE_OS (R100), one attempt. -/
def tileOs (att : Nat) (d : Desc) : Act Fin := do
  let start ← get
  let job := jobOf d
  let step := stepOf d
  let rowA := fld d.w2 47 0
  let i0 := fld d.w2 63 48 * 128
  let colA := fld d.w3 47 0
  let j0 := fld d.w3 63 48 * 128
  let t0 := fld d.w5 31 0
  let mt := fld d.w5 45 32 + 1
  let accIn := bit d.w5 52
  let accOut := bit d.w5 53
  let ni := fld d.w5 62 56 + 1
  let tag := fld d.w6 59 48
  let red := bit d.w6 60 && accOut
  let nj := fld d.w7 6 0 + 1
  let boff := fld d.w7 63 32
  let s ← stoveA
  let rowT ← readTensor rowA
  let colT ← readTensor colA
  let out ← if accOut then readTensor (fld d.w4 47 0) else pure default
  let dr ← if accOut then readDrain (fld d.w6 47 0) else pure none
  let rec' := fun (t : Tensor) => start.w.recipe job t.kind
  let oRec := if red then start.w.recipe job 4 else rec' out
  let aux ← readAux dr rec'
  let oRanges := if accOut && !red then out.ranges oRec i0 ni j0 nj else []
  let readsLocal ← rangesLocal (rowT.ranges (rec' rowT) t0 mt i0 ni ++ colT.ranges (rec' colT) t0 mt j0 nj ++
    drainRanges dr aux i0 ni j0 nj) false
  let writesLocal ← rangesLocal oRanges true
  if red ∧ start.w.dieCut (start.ag.node / 256) 0x20 then throw .hold
  let kbR := kBlock (rec' rowT) 1
  let kbC := kBlock (rec' colT) 1
  let fits := fun (b : Option Nat) (n : Nat) => match b with | some b => b == 0 || n % b == 0 | none => false
  need (zeroBits d.w4 [(63, 48)] && zeroBits d.w5 [(51, 46), (55, 54), (63, 63)] && zeroBits d.w6 [(63, 61)] &&
    zeroBits d.w7 [(31, 7)]) stOperand
  need (rowA % 32 == 0 && colA % 32 == 0 && (!accOut || (fld d.w4 47 0 % 32 == 0 && fld d.w6 47 0 % 32 == 0))) stOperand
  need (rowT.aligned (rec' rowT) && rowT.holds t0 mt i0 ni && colT.aligned (rec' colT) && colT.holds t0 mt j0 nj &&
    (!accOut || (out.aligned (if red then rec' out else oRec) && out.holds i0 ni j0 nj && (red || !oRec.perCh)))) stOperand
  need (readsLocal && writesLocal) stOperand
  need (kbR.isSome && fits kbR t0 && fits kbR mt && kbC.isSome && fits kbC t0 && fits kbC mt) stOperand
  need (auxOk dr aux out && (match dr with | some x => x.ok s job true | none => true)) stOperand
  need (if accIn then s.os.live && s.os.job == job else !s.os.live) stOperand
  need (!red || (oRec.sf == .none && !start.w.contribRefused tag step out.mbid out.permb boff 64)) stOperand
  need (rowT.blocksFit (rec' rowT) && colT.blocksFit (rec' colT) &&
    (!accOut || ((red || out.blocksFit oRec) && out.srFits oRec)) &&
    (match aux with | some (t, r) => t.blocksFit r | none => true)) stFormat
  let rRows ← readRect rowT (rec' rowT) t0 mt i0 ni
  let cRows ← readRect colT (rec' colT) t0 mt j0 nj
  let ro : StreamOp := ⟨rowT, rec' rowT, transpose ni rRows⟩
  let co : StreamOp := ⟨colT, rec' colT, transpose nj cRows⟩
  let re := ro.enter (att != 0)
  let ce := co.enter (att != 0)
  match fgVerdict att (fgCount [(ro, re.2.2.2), (co, ce.2.2.2)]) with
  | some ph =>
    abandon start dr oRanges
    return .wait ph
  | none =>
    countReads rRows.flatten
    countReads cRows.flatten
    releaseStream step att ro re.2.2.2
    releaseStream step att co ce.2.2.2
    let part : Part' := ⟨re.1, (if ro.r.stream.isSome then re.2.1 else kbR.getD 0), re.2.2.1, ce.1,
      (if co.r.stream.isSome then ce.2.1 else kbC.getD 0), ce.2.2.1⟩
    let int := part.int
    let mixed := accIn && s.os.intPath != int
    let n ← if mixed then actRun World.draw else pure 0
    let rect0 := (List.range ni).map fun i => (List.range nj).map fun j =>
      if accIn then s.os.get int i j else ⟨if int then .int 0 else .a32 (.zero false), false⟩
    let rect1 := part.apply rect0
    let rect := if mixed then rect1.zipIdx.map fun row => row.1.zipIdx.map fun e =>
        ⟨accOfWord (Config.mixedSum n row.2 e.2), e.1.p⟩ else rect1
    countBeats (ceilDiv mt (pairRate part.fmtS part.fmtT))
    if accOut then
      let rowSc := (transpose ni rRows).map fun l => (l.headD default).sc
      let colSc := (transpose nj cRows).map fun l => (l.headD default).sc
      let din ← readDrainIn dr aux i0 ni j0 nj rowSc colSc
      let els ← drainRect din rect
      modStoveA fun x => { x with os := { s.os with live := false, rows := overlay s.os.rows rect } }
      if red then
        let seed := match start.w.job job with | some j => j.seed | none => 0
        let x := encodeRect seed step out oRec out.emberIndex i0 j0 els
        tally fun c => c.plus x.2.2.1
        healthA job step { x.2.2.2 with kind := 4 } true
        sendSlice tag step out oRec boff x.1
      else writeRect step out oRec i0 j0 els
    else
      modStoveA fun x => { x with os := ⟨true, job, int, overlay s.os.rows rect⟩ }
    endTile step att (if ro.watched || !co.watched then rowT.tid else colT.tid)

/-! ### The commands -/

/-- TILE_WS (R99). -/
def execTileWs (c : Cmd) (s : State) : Host.Outcome State Fault Refusal :=
  s.run fun w => w.runCmd c (fun d => opcodeOf d == 0x10) (tileWs false 0)

/-- TILE_OS (R100). -/
def execTileOs (c : Cmd) (s : State) : Host.Outcome State Fault Refusal :=
  s.run fun w => w.runCmd c (fun d => opcodeOf d == 0x11) (tileOs 0)

/-- TILE_ADAPT (R167, R168). -/
def execTileAdapt (c : Cmd) (s : State) : Host.Outcome State Fault Refusal :=
  s.run fun w => w.runCmd c (fun d => opcodeOf d == 0x12) (tileWs true 0)

/-- The body of a tile command in a later attempt; GRT_REPLAY counts the replay (R120). -/
def tileAttempt (att : Nat) (d : Desc) : Act Fin := do
  let f ← match opcodeOf d with
    | 0x10 => tileWs false att d
    | 0x11 => tileOs att d
    | _ => tileWs true att d
  let p := (← get).ag.page
  if att = 1 then actW fun w => w.count (rk p 0x0A0) 31 0 1
  return f

/-- FIREGUARD_REPLAY (R72): the ring's tile whose first attempt was abandoned streams again one format wider. -/
def execFireguardReplay (r : RingId) (s : State) : Host.Outcome State Fault Refusal :=
  s.run fun w => match (w.ringRun r).entries.find? fun e => e.phase == .replay with
    | none => w
    | some e => w.resume r e.idx (tileAttempt 1 e.desc)

/-- FG_OVER (R76): the replay's result is released although its count also passed FG_LIMIT. -/
def execFgOver (r : RingId) (s : State) : Host.Outcome State Fault Refusal :=
  s.run fun w => match (w.ringRun r).entries.find? fun e => e.phase == .over with
    | none => w
    | some e => w.resume r e.idx (tileAttempt 2 e.desc)

end Sys2Proof.Machine
end

