-- ==== Sys2Proof/Machine/Attn.lean ====
section
/-! DEFINITION. The attention commands (R307 to R318, R321, R322). -/

namespace Sys2Proof.Machine

/-! ### Shape and position (R310) -/

/-- The shape and position words of an attention command (R310). -/
structure Shape where
  bq : Nat
  nh : Nat
  dim : Nat
  bk : Nat
  init : Bool
  initk : Bool
  mask : Nat
  pfmt : Fmt
  isOpen : Bool
  wpg : Nat
  h0 : Nat
  qpos : Nat
  kpos : Nat
  m0 : Nat
  ok : Bool
  deriving DecidableEq, Repr

/-- The format of P and dS (R310). -/
def pFmt (c : Nat) : Option Fmt := if c = 0 then some .l16 else if c = 1 then some .h16 else if c = 3 then some .e4m3 else none

def shapeOf (d : Desc) : Shape where
  bq := fld d.w6 9 0 + 1
  nh := fld d.w6 12 10 + 1
  dim := match fld d.w6 14 13 with | 0 => 64 | 1 => 128 | _ => 256
  bk := fld d.w6 22 15 + 1
  init := bit d.w6 23
  initk := bit d.w6 24
  mask := fld d.w6 26 25
  pfmt := (pFmt (fld d.w6 30 27)).getD .l16
  isOpen := bit d.w6 31
  wpg := fld d.w6 45 32
  h0 := fld d.w6 61 46
  qpos := fld d.w7 21 0
  kpos := fld d.w7 43 22
  m0 := fld d.w7 63 44
  ok := zeroBits d.w6 [(63, 62)] && fld d.w6 14 13 != 3 && fld d.w6 26 25 != 3 &&
    ((pFmt (fld d.w6 30 27)).isSome || decide (8 ≤ fld d.w6 30 27)) && (fld d.w6 26 25 == 2 || fld d.w6 45 32 == 0) &&
    (fld d.w6 26 25 != 2 || fld d.w6 45 32 != 0) &&
    decide ((fld d.w6 12 10 + 1) * (fld d.w6 9 0 + 1) ≤ 1024) && decide (fld d.w7 21 0 + fld d.w6 9 0 + 1 ≤ 2 ^ 22) &&
    decide (fld d.w7 43 22 + fld d.w6 22 15 + 1 ≤ 2 ^ 22)

/-- The fields a command does not use are zero (R310): those outside the bit ranges it uses of the shape and the position word. -/
def zeroElse (d : Desc) (shape pos : List (Nat × Nat)) : Bool :=
  let outside := fun (rs : List (Nat × Nat)) i => !rs.any fun r => decide (r.2 ≤ i) && decide (i ≤ r.1)
  (List.range 64).all fun i => !(outside shape i && bit d.w6 i) && !(outside pos i && bit d.w7 i)

/-- A reserved element format code is FORMAT_INVALID (R42); a legal one that PFMT does not take is a reserved code (R310). -/
def pFmtCode (d : Desc) : Bool := decide (fld d.w6 30 27 < 8)

/-- Rows of a command (R307). -/
def Shape.rows (s : Shape) : Nat := s.nh * s.bq

/-- Whether key j is masked for query i (R311). -/
def Shape.masked (s : Shape) (i j : Nat) : Bool :=
  let qp := s.qpos + i
  let kp := s.kpos + j
  (s.mask != 0 && decide (qp < kp)) || (s.mask == 2 && decide (kp + 256 * s.wpg ≤ qp))

/-! ### Pages (R321) -/

/-- Up to the next 256-byte boundary. -/
def up256 (n : Nat) : Nat := (n + 255) / 256 * 256

/-- The recipe of an open page's L16 elements. -/
def l16Recipe : Recipe := recipeOf 0 0

/-- The K and Vᵀ parts of a page as tensors (R321). -/
def pageTensors (page dim : Nat) (r : Recipe) (static ktid vtid : Nat) : Tensor × Tensor :=
  let kB := 256 * dim * r.fmt.width / 8
  let sB := fun rows cols => if r.block = 0 then 0 else rows * (cols / r.block) * r.sf.bytes
  let ks := page + up256 kB
  let v := ks + up256 (sB 256 dim)
  let vs := v + up256 kB
  (⟨page, 7, ks, static, 256, dim, ktid, 0, false, dim * r.fmt.width / 8, true⟩,
    ⟨v, 7, vs, static, dim, 256, vtid, 0, false, 256 * r.fmt.width / 8, true⟩)

/-- A block size that divides the extents of a page. -/
def pageFits (r : Recipe) (dim : Nat) : Bool := r.block == 0 || (dim % r.block == 0 && 256 % r.block == 0)

/-- Keys 0 to n − 1 of a page, and its values by key (R308): K rows and Vᵀ columns, counted. -/
def readPage (s : Shape) (page : Nat) (r : Recipe) : Act (List (List Elem) × List (List Elem)) := do
  let (kt, vt) := pageTensors page s.dim r 0 0 0
  let ks ← readRect kt r 0 s.bk 0 s.dim
  let vs ← readRect vt r 0 s.dim 0 s.bk
  countReads (ks.flatten ++ vs.flatten)
  return (ks, transpose s.bk vs)

/-- Translate what a page read touches, so that a fault comes first (R97). -/
def pageXlt (s : Shape) (page : Nat) (r : Recipe) (n : Nat) (write : Bool) : Act Unit := do
  let (kt, vt) := pageTensors page s.dim r 0 0 0
  (kt.ranges r 0 n 0 s.dim ++ vt.ranges r 0 s.dim 0 n).forM fun x => do
    let _ ← xlateRange x.1 x.2 write

/-! ### State blocks (R308, R312) -/

/-- A binary32 word of a state block: its code, and whether it is poisoned. -/
abbrev F32 := Nat × Bool

def f32 (x : F32) : Val := f32Val x.1
def mkF32 (v : Val) (p : Bool) : F32 := (f32Code v, p)

/-- Read n words of a state block. -/
def readF32 (va n : Nat) : Act (List F32) := do
  let bs ← readVB va (4 * n)
  return (chunks 4 bs).map fun c => (leNat (c.map Prod.fst), c.any Prod.snd)

/-- Write words of a state block. -/
def writeF32 (va : Nat) (xs : List F32) : Act Unit :=
  writeVB va (xs.flatMap fun x => (leBytes 4 x.1).map fun b => (b, x.2))

/-- Bytes of a query state block and of a key state (R312, R316). -/
def Shape.stateBytes (s : Shape) : Nat := 64 + 8 * s.rows + 4 * s.rows * s.dim
def Shape.keyBytes (s : Shape) : Nat := 8 * 256 * s.dim

/-- A query state in force: scales C and C2, and per row m, l and the D words of O. -/
structure QState where
  c : F32
  c2 : F32
  rows : List (F32 × F32 × List F32)
  deriving DecidableEq, Repr

def readState (s : Shape) (va : Nat) : Act QState := do
  let h ← readF32 va 2
  let ms ← readF32 (va + 64) s.rows
  let ls ← readF32 (va + 64 + 4 * s.rows) s.rows
  let os ← readF32 (va + 64 + 8 * s.rows) (s.rows * s.dim)
  return ⟨h.getD 0 (0, false), h.getD 1 (0, false), (ms.zip (ls.zip (chunks s.dim os))).map fun x => (x.1, x.2.1, x.2.2)⟩

def writeState (s : Shape) (va : Nat) (rows : List (F32 × F32 × List F32)) : Act Unit := do
  writeF32 (va + 64) (rows.map fun r => r.1)
  writeF32 (va + 64 + 4 * s.rows) (rows.map fun r => r.2.1)
  writeF32 (va + 64 + 8 * s.rows) (rows.flatMap fun r => r.2.2)

/-! ### Sums (R62, R63, R313) -/

/-- An A32 sum of products in groups of increasing index, rounded once to binary32 at the end. -/
def a32Sum (g : Nat) (xs ys : List Elem) : Val :=
  match (accLine false g ⟨.a32 (.zero false), false⟩ xs ys).v with
  | .a32 v => rneF32 v
  | .int n => Val.ofInt n

/-- Group length of a product of two operands with their blocks along the reduction index. -/
def sumGroup (a b : Recipe) : Nat := groupLen (pairRate a.fmt b.fmt) a.block b.block

/-- An element of P or dS after its conversion (R313). -/
def pElem (f : Fmt) (v : Val) (m : Rnd) (p : Bool) : Elem × OutCls :=
  let x := encodeElem v f m
  (elemOf f x.1 (Val.ofNat 1) p, x.2)

/-- A recipe that stands for a format without scales. -/
def plainRecipe (f : Fmt) : Recipe := { l16Recipe with fmt := f }

/-! ### Operands (R308) -/

/-- A query, dO or O tensor: rows M0 on, NH × D columns, in the stove's scratchpad; blocks only along its features and, in the backward
pass, none (R308). -/
def attnTensor (s : Shape) (va : Nat) (back : Bool) : Act (Tensor × Recipe × Bool) := do
  let t ← readTensor va
  let x ← get
  let r := x.w.recipe (x.ag.job.getD 0) t.kind
  let rl ← rangesLocal (t.ranges r s.m0 s.bq 0 (s.nh * s.dim)) false
  let ok := va % 32 == 0 && t.aligned r && t.holds s.m0 s.bq 0 (s.nh * s.dim) && rl && (kBlock r 0).isSome &&
    (!back || (r.block == 0 && !r.perCh))
  return (t, r, ok)

/-- The rows of a command from a tensor: row h × BQ + i holds head h of query i (R307). Counted. -/
def attnRows (s : Shape) (t : Tensor) (r : Recipe) : Act (List (List Elem)) := do
  let qs ← readRect t r s.m0 s.bq 0 (s.nh * s.dim)
  countReads qs.flatten
  return (List.range s.nh).flatMap fun h => qs.map fun q => (q.drop (h * s.dim)).take s.dim

/-- Whether a block of bytes lies in the stove's scratchpad. -/
def blockLocal (va n : Nat) (write : Bool) : Act Bool := rangesLocal [(va, n)] write

/-! ### Forward (R313) -/

/-- The masked scores of a row (R313). -/
def scores (s : Shape) (g : Nat) (c : Val) (i : Nat) (q : List Elem) (ks : List (List Elem)) : List Val :=
  ks.zipIdx.map fun k => if s.masked i k.2 then .inf true else rneF32 ((a32Sum g q k.1).mul c)

/-- One row of ATTN_FWD: its new state and the counts of P (R313). -/
def fwdRow (s : Shape) (r rv : Recipe) (c : F32) (i : Nat) (q : List Elem) (ks vs : List (List Elem)) (st : F32 × F32 × List F32) :
    (F32 × F32 × List F32) × List OutCls :=
  let (m, l, o) := if s.init then (mkF32 (.inf true) false, mkF32 (.zero false) false, List.replicate s.dim (mkF32 (.zero false) false)) else st
  let x := scores s (sumGroup r rv) (f32 c) i q ks
  let mn := hmax (f32 m) (rowMax x)
  let pm := m.2 || c.2 || q.any Elem.p || ks.any (fun k => k.any Elem.p)
  if mn = .inf true then ((m, l, o), [])
  else
    let a := if f32 m = .inf true then .zero false else hobExp2 (rneF32 ((f32 m).sub mn))
    let p := x.map fun v => if v = .inf true then .zero false else hobExp2 (rneF32 (v.sub mn))
    let pc := p.map fun v => pElem s.pfmt v .rne pm
    let es := pc.map Prod.fst
    let o := o.zipIdx.map fun e =>
      let v := vs.map fun row => row.getD e.2 default
      mkF32 (hfma (f32 e.1) a (a32Sum (sumGroup (plainRecipe s.pfmt) rv) es v)) (pm || e.1.2 || v.any Elem.p)
    ((mkF32 mn pm, mkF32 (hfma (f32 l) a (rowSum p)) (pm || l.2), o), pc.map Prod.snd)

/-- Count encodes that enter no health record. -/
def countEnc (cs : List OutCls) : Act Unit := tally fun c => cs.foldl (fun c x => c.wrote x) c

/-- The KV recipe, or L16 for an open page (R321). -/
def pageRecipe (s : Shape) : Act Recipe := do
  let x ← get
  return if s.isOpen then l16Recipe else x.w.recipe (x.ag.job.getD 0) 7

/-- ATTN_FWD (R312, R313). -/
def attnFwd (d : Desc) : Act Fin := do
  let s := shapeOf d
  let page := fld d.w3 47 0
  let st := fld d.w4 47 0
  let rv ← pageRecipe s
  let (qt, qr, qok) ← attnTensor s (fld d.w2 47 0) false
  pageXlt s page rv s.bk false
  let sl ← blockLocal st s.stateBytes true
  need (s.ok && zeroElse d [(23, 0), (45, 25)] [(63, 0)] && zeroBits d.w2 [(63, 48)] && zeroBits d.w3 [(63, 48)] &&
    zeroBits d.w4 [(63, 48)] && d.w5 == 0 && page % 256 == 0 && st % 64 == 0 && qok && sl && !rv.perCh) stOperand
  need (pFmtCode d && pageFits rv s.dim && qt.blocksFit qr && (qr.block == 0 || s.dim % qr.block == 0)) stFormat
  let q ← readState s st
  let rows ← attnRows s qt qr
  let (ks, vs) ← readPage s page rv
  let out := (rows.zip q.rows).zipIdx.map fun x => fwdRow s qr rv q.c (x.2 % s.bq) x.1.1 ks vs x.1.2
  countEnc (out.flatMap Prod.snd)
  writeState s st (out.map Prod.fst)
  return .done stOk

def execAttnFwd (c : Cmd) (s : State) : Host.Outcome State Fault Refusal :=
  s.run fun w => w.runCmd c (fun d => opcodeOf d == 0x50) attnFwd

/-! ### ATTN_FIN and ATTN_DELTA (R314, R315) -/

/-- Rows of a query state as rows of the output tensor: query i holds its heads side by side. -/
def Shape.gather (s : Shape) (rows : List (List OutEl)) : List (List OutEl) :=
  (List.range s.bq).map fun i => (List.range s.nh).flatMap fun h => rows.getD (h * s.bq + i) []

/-- ATTN_FIN (R314). -/
def attnFin (d : Desc) : Act Fin := do
  let s := shapeOf d
  let x ← get
  let st := fld d.w2 47 0
  let mode := fld d.w4 1 0
  let t ← readTensor (fld d.w3 47 0)
  let r := x.w.recipe (jobOf d) t.kind
  let m := if mode ≤ 1 then s.bq else s.bk
  let n := if mode ≤ 1 then s.nh * s.dim else s.dim
  let sl ← blockLocal st (if mode ≤ 1 then s.stateBytes else s.keyBytes) (mode == 0)
  let wl ← rangesLocal (t.ranges r s.m0 m 0 n) true
  let used := if mode ≤ 1 then [(14, 0)] else [(22, 13)]
  need (s.ok && zeroElse d used [(63, 44)] && zeroBits d.w2 [(63, 48)] && zeroBits d.w3 [(63, 48)] && zeroBits d.w4 [(63, 2)] && d.w5 == 0 && st % 64 == 0 && sl &&
    fld d.w3 47 0 % 32 == 0 && t.aligned r && t.holds s.m0 m 0 n && wl) stOperand
  need (t.blocksFit r && t.srFits r) stFormat
  if mode ≤ 1 then
    let q ← readState s st
    let fin := fun (row : F32 × F32 × List F32) => row.2.2.map fun o =>
      if mode = 1 then ({ v := f32 o, p := o.2 } : OutEl)
      else if row.2.1.1 = 0 then { v := .zero false, p := row.2.1.2 }
      else { v := hdiv (f32 o) (f32 row.2.1), p := o.2 || row.2.1.2 }
    writeRect (stepOf d) t r s.m0 0 (s.gather (q.rows.map fin))
    if mode = 0 then
      writeF32 (st + 64) (q.rows.map fun row =>
        mkF32 (if row.2.1.1 = 0 then .inf true else hadd (f32 row.1) (hobLog2 (f32 row.2.1))) (row.1.2 || row.2.1.2))
  else
    let ws ← readF32 (st + (if mode = 2 then 0 else 4 * 256 * s.dim)) (s.bk * s.dim)
    writeRect (stepOf d) t r s.m0 0 ((chunks s.dim ws).map fun row => row.map fun o => ({ v := f32 o, p := o.2 } : OutEl))
  return .done stOk

def execAttnFin (c : Cmd) (s : State) : Host.Outcome State Fault Refusal :=
  s.run fun w => w.runCmd c (fun d => opcodeOf d == 0x52) attnFin

/-- ATTN_DELTA (R315). -/
def attnDelta (d : Desc) : Act Fin := do
  let s := shapeOf d
  let sq := fld d.w4 47 0
  let (dt, dr, dok) ← attnTensor s (fld d.w2 47 0) true
  let (ot, or', ook) ← attnTensor s (fld d.w3 47 0) true
  let sl ← blockLocal sq s.stateBytes true
  let kv ← actGet fun w => w.recipe (jobOf d) 7
  need (s.ok && zeroElse d [(14, 0)] [(63, 44)] && kv.block == 0 && !kv.perCh && zeroBits d.w2 [(63, 48)] && zeroBits d.w3 [(63, 48)] && zeroBits d.w4 [(63, 48)] && d.w5 == 0 && sq % 64 == 0 && sl &&
    dok && ook) stOperand
  let a ← attnRows s dt dr
  let b ← attnRows s ot or'
  writeF32 (sq + 64 + 4 * s.rows) ((a.zip b).map fun x =>
    mkF32 (rowSum ((x.1.zip x.2).map fun e => hmul (hin e.1) (hin e.2))) (x.1.any Elem.p || x.2.any Elem.p))
  return .done stOk

def execAttnDelta (c : Cmd) (s : State) : Host.Outcome State Fault Refusal :=
  s.run fun w => w.runCmd c (fun d => opcodeOf d == 0x53) attnDelta

/-! ### Backward (R316, R317) -/

/-- P and dS of one row of ATTN_BWD (R316, R317): the elements as they enter the products, and their counts. -/
def bwdRow (s : Shape) (seed : U64) (step dstid : Nat) (rq rd rv : Recipe) (c : F32) (r : Nat) (q go : List Elem) (ks vs : List (List Elem))
    (lse delta : F32) : List Elem × List Elem × List OutCls :=
  let i := r % s.bq
  let x := scores s (sumGroup rq rv) (f32 c) i q ks
  let bad := c.2 || lse.2 || q.any Elem.p
  let cells := (x.zip (ks.zip vs)).zipIdx.map fun e =>
    let p := if e.1.1 = .inf true ∨ f32 lse = .inf true then .zero false else hobExp2 (rneF32 (e.1.1.sub (f32 lse)))
    let pp := bad || e.1.2.1.any Elem.p
    let dp := a32Sum (sumGroup rd rv) go e.1.2.2
    let ds := hmul p (hsub dp (f32 delta))
    let u := ember seed step ((dstid + s.h0 + r / s.bq) % 65536) ((s.qpos + i) * 2 ^ 22 + s.kpos + e.2)
    (pElem s.pfmt p .rne pp, pElem s.pfmt ds (.sr u) (pp || delta.2 || go.any Elem.p || e.1.2.2.any Elem.p))
  (cells.map fun e => e.1.1, cells.map fun e => e.2.1, cells.flatMap fun e => [e.1.2, e.2.2])

/-- ATTN_BWD (R316). -/
def attnBwd (d : Desc) : Act Fin := do
  let s := shapeOf d
  let x ← get
  let opb := fld d.w2 47 0
  let page := fld d.w3 47 0
  let rv ← pageRecipe s
  let ws ← readWords opb 8
  let w := fun i => ws.getD i 0
  let sq := fld (w 2) 47 0
  let sk := fld (w 3) 47 0
  let (qt, qr, qok) ← attnTensor s (fld (w 0) 47 0) true
  let (dt, dr, dok) ← attnTensor s (fld (w 1) 47 0) true
  pageXlt s page rv s.bk false
  let ql ← blockLocal sq s.stateBytes true
  let kl ← blockLocal sk s.keyBytes true
  let kv := x.w.recipe (jobOf d) 7
  need (s.ok && zeroElse d [(63, 0)] [(63, 0)] && zeroBits d.w2 [(63, 48)] && zeroBits d.w3 [(63, 48)] && d.w4 == 0 && d.w5 == 0 && opb % 64 == 0 && page % 256 == 0 &&
    zeroBits (w 0) [(63, 48)] && zeroBits (w 1) [(63, 48)] && zeroBits (w 2) [(63, 48)] && zeroBits (w 3) [(63, 48)] &&
    zeroBits (w 4) [(63, 16)] && w 5 == 0 && w 6 == 0 && w 7 == 0 && sq % 64 == 0 && sk % 64 == 0 && ql && kl && qok && dok &&
    kv.block == 0 && !kv.perCh) stOperand
  need (pFmtCode d) stFormat
  let seed := match x.w.job (jobOf d) with | some j => j.seed | none => 0
  let st ← readState s sq
  let qs ← attnRows s qt qr
  let gs ← attnRows s dt dr
  let (ks, vs) ← readPage s page rv
  let rows := ((qs.zip gs).zip st.rows).zipIdx.map fun e =>
    (e.1.1.1, e.1.1.2, e.1.2, bwdRow s seed (stepOf d) (fld (w 4) 15 0) qr dr rv st.c e.2 e.1.1.1 e.1.1.2 ks vs e.1.2.1 e.1.2.2.1)
  countEnc (rows.flatMap fun r => r.2.2.2.2.2)
  let pf := plainRecipe s.pfmt
  -- dQ
  let dq := rows.map fun r =>
    let ds := r.2.2.2.2.1
    let o := if s.init then List.replicate s.dim (mkF32 (.zero false) false) else r.2.2.1.2.2
    (r.2.2.1.1, r.2.2.1.2.1, o.zipIdx.map fun e =>
      let k := ks.map fun row => row.getD e.2 default
      mkF32 (hfma (a32Sum (sumGroup pf rv) ds k) (f32 st.c2) (f32 e.1)) (e.1.2 || st.c2.2 || ds.any Elem.p || k.any Elem.p))
  writeState s sq dq
  -- dK and dV
  let n := s.bk * s.dim
  let all := 256 * s.dim
  let zero := List.replicate all (mkF32 (.zero false) false)
  let dk0 ← if s.initk then pure zero else readF32 sk n
  let dv0 ← if s.initk then pure zero else readF32 (sk + 4 * all) n
  let upd := fun (old : List F32) (g : Nat) (col : List Elem × List Elem × (F32 × F32 × List F32) × List Elem × List Elem × List OutCls → List Elem)
      (row : List Elem × List Elem × (F32 × F32 × List F32) × List Elem × List Elem × List OutCls → List Elem) (f : Val → Val → Val) =>
    old.zipIdx.map fun e =>
      let j := e.2 / s.dim
      if s.bk ≤ j then e.1
      else
        let a := rows.map fun r => (col r).getD j default
        let b := rows.map fun r => (row r).getD (e.2 % s.dim) default
        mkF32 (f (a32Sum g a b) (f32 e.1)) (e.1.2 || st.c2.2 || a.any Elem.p || b.any Elem.p)
  let dk := upd dk0 (sumGroup pf qr) (fun r => r.2.2.2.2.1) (fun r => r.1) fun v o => hfma v (f32 st.c2) o
  let dv := upd dv0 (sumGroup pf dr) (fun r => r.2.2.2.1) (fun r => r.2.1) fun v o => hadd o v
  writeF32 sk dk
  writeF32 (sk + 4 * all) dv
  return .done stOk

def execAttnBwd (c : Cmd) (s : State) : Host.Outcome State Fault Refusal :=
  s.run fun w => w.runCmd c (fun d => opcodeOf d == 0x51) attnBwd

/-! ### Open and sealed pages (R321, R322) -/

/-- ATTN_APPEND (R322). -/
def attnAppend (d : Desc) : Act Fin := do
  let s := shapeOf d
  let x ← get
  let page := fld d.w4 47 0
  let slot := s.kpos % 256
  let kt ← readTensor (fld d.w2 47 0)
  let vt ← readTensor (fld d.w3 47 0)
  let kr := x.w.recipe (jobOf d) kt.kind
  let vr := x.w.recipe (jobOf d) vt.kind
  let (pk, pv) := pageTensors page s.dim l16Recipe 0 0 0
  (kt.ranges kr s.m0 s.bk 0 s.dim ++ vt.ranges vr s.m0 s.bk 0 s.dim).forM fun r => do
    let _ ← xlateRange r.1 r.2 false
  let dst := pk.ranges l16Recipe slot (min s.bk (256 - slot)) 0 s.dim ++ pv.ranges l16Recipe 0 s.dim slot (min s.bk (256 - slot))
  dst.forM fun r => do
    let _ ← xlateRange r.1 r.2 true
  need (s.ok && zeroElse d [(22, 13)] [(63, 22)] && zeroBits d.w2 [(63, 48)] && zeroBits d.w3 [(63, 48)] &&
    zeroBits d.w4 [(63, 48)] && d.w5 == 0 && page % 256 == 0 && fld d.w2 47 0 % 32 == 0 && fld d.w3 47 0 % 32 == 0 && kt.aligned kr && vt.aligned vr && kt.holds s.m0 s.bk 0 s.dim &&
    vt.holds s.m0 s.bk 0 s.dim && decide (slot + s.bk ≤ 256)) stOperand
  need (kt.blocksFit kr && vt.blocksFit vr) stFormat
  let ks ← readRect kt kr s.m0 s.bk 0 s.dim
  let vs ← readRect vt vr s.m0 s.bk 0 s.dim
  countReads (ks.flatten ++ vs.flatten)
  let enc := fun (rows : List (List Elem)) => rows.map fun r => r.map fun e => (encodeElem e.val .l16 .rne, e.p)
  let ek := enc ks
  let ev := enc vs
  countEnc ((ek.flatten ++ ev.flatten).map fun e => e.1.2)
  ek.zipIdx.forM fun r => writeCodes pk .l16 (slot + r.2) 0 (r.1.map fun e => (some e.1.1, e.2))
  (List.range s.dim).forM fun c => writeCodes pv .l16 c slot
    (ev.map fun r => let e := r.getD c ((0, .none), false); (some e.1.1, e.2))
  return .done stOk

def execAttnAppend (c : Cmd) (s : State) : Host.Outcome State Fault Refusal :=
  s.run fun w => w.runCmd c (fun d => opcodeOf d == 0x55) attnAppend

/-- ATTN_SEAL (R322). -/
def attnSeal (d : Desc) : Act Fin := do
  let s := shapeOf d
  let x ← get
  let op := fld d.w2 47 0
  let sp := fld d.w3 47 0
  let r := x.w.recipe (jobOf d) 7
  let full := { s with bk := 256 }
  pageXlt full op l16Recipe 256 false
  pageXlt full sp r 256 true
  need (s.ok && zeroElse d [(14, 13)] [(43, 22)] && zeroBits d.w2 [(63, 48)] && zeroBits d.w3 [(63, 48)] && zeroBits d.w4 [(63, 32)] && d.w5 == 0 && op % 256 == 0 &&
    sp % 256 == 0 && !r.perCh) stOperand
  need (pageFits r s.dim) stFormat
  let n ← actRun World.draw
  let static := if r.src then (Config.freeWord n).toNat % 65536 else 0
  let (ok, ov) := pageTensors op s.dim l16Recipe 0 0 0
  let (pk, pv) := pageTensors sp s.dim r static (fld d.w4 15 0) (fld d.w4 31 16)
  let ks ← readRect ok l16Recipe 0 256 0 s.dim
  let vs ← readRect ov l16Recipe 0 s.dim 0 256
  countReads (ks.flatten ++ vs.flatten)
  let out := fun (rows : List (List Elem)) => rows.map fun row => row.map fun e => ({ v := e.val, p := e.p } : OutEl)
  writeRectAs (stepOf d) pk r 7 (fun t c => s.kpos * s.dim + t * s.dim + c) 0 0 (out ks)
  writeRectAs (stepOf d) pv r 7 (fun c t => s.kpos * s.dim + c * 256 + t) 0 0 (out vs)
  return .done stOk

def execAttnSeal (c : Cmd) (s : State) : Host.Outcome State Fault Refusal :=
  s.run fun w => w.runCmd c (fun d => opcodeOf d == 0x56) attnSeal

end Sys2Proof.Machine
end

