-- ==== Sys2Proof/Machine/Access.lean ====
section
/-! DEFINITION. Who may write which register (R359 to R361, R448), banked copies (R449), refused and held writes, and the shape
of every command register's write (R123). A writer is a Urrek port 0 to 3, the debug port (4), or firmware and guests (5),
whose writes the rights do not restrict (R430, R454). -/

namespace Sys2Proof.Machine

/-- The debug port and inside writers (R430, R454). -/
def wDebug : Nat := 4
def wInside : Nat := 5

/-- The registers of which every port and the debug port hold their own copy (R449). -/
def bankedReg (b : Blk) (off : Nat) : Bool :=
  match b with
  | .mgt => off == 0x400
  | .blw => off == 0x0C8
  | .tik => off == 0x100 || off == 0x110 || off == 0x158
  | .chnH => off == 0x0A0
  | .chnM => off == 0x0A0
  | .chm => off == 0x0C8
  | .exd => off == 0x098
  | .rtr => off == 0x0A8
  | _ => false

/-- Key of a writer's copy of a banked register. -/
def bankKey (writer key : Nat) : Nat := min writer 4 * 2 ^ 28 + key

/-- A writer's copy of a banked register (R449). -/
def World.banked (w : World) (writer key : Nat) : U64 := mapGet w.dev.bank (regReset key) (bankKey writer key)

def World.setBanked (w : World) (writer key : Nat) (v : U64) : World :=
  w.upd fun d => { d with bank := mapSet d.bank (regReset key) (bankKey writer key) v }

/-- The ring whose block holds an offset of a page, and the offset within the block (R125, R126). -/
def ringAt (page off : Nat) : Option (RingId × Nat) :=
  match pageInfo page with
  | some (b, _) => if 0x100 ≤ off ∧ off < 0x100 + 0x40 * b.rings then some (⟨page, (off - 0x100) / 0x40⟩, (off - 0x100) % 0x40)
      else none
  | none => none

/-- The port whose stove mask holds a stove (R360). -/
def World.stovePort (w : World) (s : Nat) : Option Nat :=
  (List.range 4).find? fun p => bit (w.reg (rk (0x10 + p) (0x0A0 + 8 * (s / 64)))) (s % 64)

/-- Whether a port may write a ring's RING_CTL with a value (R361): STOP by the ring's port; PORT by the owner, while EN is 0, and on
an STV page only to a port whose stove mask holds the stove. -/
def World.mayRingCtl (w : World) (port : Nat) (r : RingId) (v : U64) : Bool :=
  let old := w.reg (rgk r 0x38)
  let owner := w.dev.urk.owner == some port
  let rp := w.ringPort r == port
  (rp || owner) &&
  (fld v 2 2 == fld old 2 2 || rp) &&
  (fld v 1 0 == fld old 1 0 ||
    owner && !bit (w.reg (rgk r 0)) 0 && (match ringStove r with
      | some s => w.stovePort s == some (fld v 1 0)
      | none => true))

/-- The job of the command that opened the flow of a context, if one holds it (R245, R448). -/
def World.flowJob (w : World) (ctx : Nat) : Option Nat :=
  match w.dev.chn.sflows.find? fun f => f.ctx == ctx with
  | some f => some f.job
  | none => match w.dev.chn.rflows.find? fun f => f.ctx == ctx with
    | some f => some f.ojob
    | none => (w.dev.chn.gflows.find? fun f => f.ctx == ctx).map GFlow.job

/-- Whether a writer holds the right to write a register (R361, R448). -/
def World.mayWrite (w : World) (writer page off : Nat) (v : U64) : Bool :=
  if 4 ≤ writer then true
  else match ringAt page off with
  | some (r, o) => if o = 0x38 then w.mayRingCtl writer r v else w.ringPort r == writer
  | none =>
    let owner := w.dev.urk.owner == some writer
    match pageInfo page with
    | none => owner
    | some (b, i) =>
      if bankedReg b off then true
      else match b with
      | .urk => if off = 0x090 then true
          else if off = 0x0C0 ∨ off = 0x0C8 ∨ off = 0x0D0 then i == writer
          else owner
      | .mgt => if off = 0x408 then w.assignable (fld v 5 0) writer else owner
      | .wbx => if 0x800 ≤ off ∧ off < 0xA00 then w.assignable ((off - 0x800) / 8) writer
          else if off = 0xA00 then w.assignable (fld v 5 0) writer
          else owner
      | .tik => if off = 0x0F0 then w.assignable (fld v 5 0) writer else if off = 0x0E0 then true else owner
      | .chnH => if 0x800 ≤ off then w.assignable (w.rf (rk page off) 6 1) writer && w.assignable (fld v 6 1) writer else owner
      | .chnM => if off = 0x098 then (match w.flowJob (fld v 11 0) with
            | some j => w.assignable j writer
            | none => owner)
          else owner
      | .blw => if off = 0x098 then true else owner
      | .exd => if off = 0x088 then true else owner
      | _ => owner

/-- A write refused for want of its right (R361): counted in URK_DENY of the port, EV_URK_DENY to that port. -/
def World.deny (w : World) (port page off : Nat) : World :=
  let u := 0x10 + port
  let w := w.modReg (rk u 0x0F8) fun x => setFld (setFld (countUp x 31 0 1) 47 32 page) 59 48 off
  (w.raise (some port) u 0x15 0 (BitVec.ofNat 64 (page * 2 ^ 8 + off * 2 ^ 24 + port * 2 ^ 36)) 0).2

/-- Show a completed operation in a status register of the layout DONE [0], STATUS [15:8], and a name in the bits above [16]. -/
def World.opDone (w : World) (key status hi name : Nat) : World :=
  w.modReg key fun x => setFld (setFld (setBit x 0 true) 15 8 status) hi 16 name

/-- The command registers whose status register also shows a refused write (R361). -/
def deniesOp (page off : Nat) : Bool :=
  match pageInfo page with
  | some (.mgt, _) => off == 0x408
  | some (.tik, _) => off == 0x0F0
  | _ => false

/-- A refused write to a command register that reports a status also shows JOB_INVALID there (R361). -/
def World.denyOp (w : World) (page off : Nat) (v : U64) : World :=
  match pageInfo page with
  | some (.mgt, _) => if off = 0x408 then w.opDone (rk page 0x410) stJob 21 (fld v 5 0) else w
  | some (.tik, _) => if off = 0x0F0 then w.opDone (rk page 0x0F8) stJob 21 (fld v 5 0) else w
  | _ => w

/-- Hold a write until its condition ends (R123, R126). -/
def World.hold (w : World) (writer page off : Nat) (v : U64) : World :=
  w.upd fun d => { d with held := d.held ++ [⟨rk page off, writer, page, off, v, none⟩] }

/-- Whether an earlier write to a register is held. -/
def World.heldAt (w : World) (page off : Nat) : Bool := w.dev.held.any fun h => h.key == rk page off

/-- A write to a command register: refused without its right, held while an operation is in progress or an earlier write to it
is held, else performed (R123, R361). A refused write that would show its status is held as well, so that the operation in progress
keeps the status register. -/
def World.command (w : World) (writer page off : Nat) (v : U64) (busy : Bool) (f : World → World) : World :=
  if !w.mayWrite writer page off v && !(deniesOp page off && (busy || w.heldAt page off)) then
    (w.denyOp page off v).deny writer page off
  else if busy || w.heldAt page off then w.hold writer page off v
  else f w

/-- A write that needs a right and takes effect at once. -/
def World.owned (w : World) (writer page off : Nat) (v : U64) (f : World → World) : World :=
  if !w.mayWrite writer page off v then (w.denyOp page off v).deny writer page off else f w

/-- Bits [0] DONE of a status register. -/
def World.opBusy (w : World) (key : Nat) : Bool := !bit (w.reg key) 0

/-- A job named only in memory that is not assignable to the writing port (R448): the operation is refused, the write counted and
EV_URK_DENY raised. -/
def World.laterDeny (w : World) (writer page off job : Nat) : Option World :=
  if writer < 4 ∧ !w.assignable job writer then some (w.deny writer page off) else none

/-- An operation of a command register that reads memory: it completes with a status; while a host holds a line it reads, or bytes
must be asked for, it goes on later, with DONE of its status register clear. -/
def World.opRun (w : World) (ag : Agent) (sts writer page off : Nat) (v : U64) (a : Act Nat) (fin : Nat → World → World) : World :=
  match a.run (Run.init w ag) with
  | .ok (st, r) => fin st r.w
  | .error (.status c) => fin c w
  | .error (.xlt va) => fin stXlt (w.xltEvent ag va).2
  | .error (.poison g) => fin stPoison (match w.place g with
      | .nowhere | .page => w.unmapped ag g
      | _ => w.metPoison ag g)
  | .error s => ((w.ask ag s).modReg sts fun x => setBit x 0 false).upd fun d =>
      { d with held := ⟨rk page off, writer, page, off, v, some sts⟩ :: d.held }

/-- Read n words at a physical address for a command register's operation; poison in them ends it (R337). -/
def opWords (a n : Nat) : Act (List U64) := do
  let (bs, ps) ← readP a (8 * n)
  match ps with
  | g :: _ => throw (.poison g)
  | [] => return (chunks 8 bs).map leWord

/-- The port whose SRCID 0 request waits in a home queue (R363). -/
def HomeReq.hostPort : HomeReq → Option Nat
  | .host _ m => if m.srcid = 0 then some m.port else none
  | .reg port _ _ _ _ => some port
  | _ => none

/-- The port whose SRCID 0 request the snapshot rule holds (R363, R378). -/
def stalledPort : Instr → Option Nat
  | .wb m | .wrUc m | .rdOwn m => if m.srcid = 0 then some m.port else none
  | _ => none

/-- Whether an earlier SRCID 0 request of a port waits, so that its later ones wait behind it (R363). -/
def World.portWaits (w : World) (p : Nat) : Bool :=
  w.dev.urk.home.any (fun h => h.req.hostPort == some p) || w.dev.snp.stalled.any fun x => stalledPort x.cmd == some p

/-- A register access of a host's port waits in its port's order (R363), with the OP and the packet that it answers, if any. -/
def World.waitReg (w : World) (port page off : Nat) (v : U64) (ask : Option (Nat × UrkPkt)) : World :=
  w.queueHome ⟨regBase + 0x1000 * page + off / 128 * 128, .reg port page off v ask, none, none⟩

/-- A write of a register that acts on the whole block, by a host's port: on a running device, of a port that is up, in the order of its
requests (R351, R363). -/
def State.portState (s : State) (port page off : Nat) (v : U64) (f : State → State) : Host.Outcome State Fault Refusal :=
  .next (
    if !(s.dev.live && decide (port < 4) && s.toWorld.portUp port) then s
    else if s.toWorld.portWaits port then s.commit (s.toWorld.waitReg port page off v none)
    else f s)

/-- A command of a host's port on a running device: the write of a register, in the order of its port's requests; a port that is not
up carries none (R351, R363). -/
def State.port (s : State) (port page off : Nat) (v : U64) (f : World → World) : Host.Outcome State Fault Refusal :=
  s.run fun w =>
    if !(port < 4 && w.portUp port) then w
    else if w.portWaits port then w.waitReg port page off v none
    else f w

end Sys2Proof.Machine
end

