-- ==== Sys2Proof/Machine/Chan.lean ====
section
/-! DEFINITION. Message channels (R222 to R246): endpoints, posted rings, flows from OPEN to close, records, credits, the ash
pit, stale messages and the soot queue; the micro-batch queues that a channel feeds (R210 to R212). -/

namespace Sys2Proof.Machine

/-- Round up to a multiple of 64. -/
def up64 (n : Nat) : Nat := (n + 63) / 64 * 64

/-- Register page of a hearth die's channels, and the key of an endpoint's CHN_EP (R246). -/
def chnPage (die : Nat) : Nat := 0x110 + die
def epKey (stove ep : Nat) : Nat := rk (chnPage (stove / 32)) (0x800 + 8 * (stove % 32 * 8 + ep))

/-! ### Flows -/

def World.sflow (w : World) (ctx : Nat) : Option SFlow := w.dev.chn.sflows.find? fun f => f.ctx == ctx
def World.rflow (w : World) (ctx : Nat) : Option RFlow := w.dev.chn.rflows.find? fun f => f.ctx == ctx
def World.gflow (w : World) (ctx : Nat) : Option GFlow := w.dev.chn.gflows.find? fun f => f.ctx == ctx

def World.modSflow (w : World) (ctx : Nat) (g : SFlow → SFlow) : World :=
  w.upd fun d => { d with chn := { d.chn with sflows := updFirst (fun f => f.ctx == ctx) g d.chn.sflows } }
def World.modRflow (w : World) (ctx : Nat) (g : RFlow → RFlow) : World :=
  w.upd fun d => { d with chn := { d.chn with rflows := updFirst (fun f => f.ctx == ctx) g d.chn.rflows } }

/-- The receive ring of an open flow. -/
def World.rxOf (w : World) (f : RFlow) : Option RxRing :=
  w.dev.chn.rings.find? fun x => x.stove == f.stove && x.slot == f.slot && x.flow == some f.ctx

/-- CHN_FLOW_CNT follows the contexts held, the guests' among them (R246). -/
def World.noteFlows (w : World) : World :=
  let n := w.dev.chn.sflows.length + w.dev.chn.rflows.length + w.dev.chn.gflows.length
  w.modReg (rk 7 0x090) fun v => setFld (setFld v 12 0 n) 28 16 (max n (fld v 28 16))

/-- The lowest free flow context of CHN_FLOW_RANGE (R224). -/
def World.freeCtx (w : World) : Option Nat :=
  let lo := w.rf (rk 7 0x088) 11 0
  (upTo lo (w.rf (rk 7 0x088) 27 16 + 1 - lo)).find? fun c =>
    (w.sflow c).isNone && (w.rflow c).isNone && !w.dev.chm.arms.any fun a => a.tag == c

/-- Whether a bucket tag lies in the range of channels, where no command may name it (R224). -/
def World.chnTag (w : World) (tag : Nat) : Bool :=
  decide (w.rf (rk 7 0x088) 11 0 ≤ tag) && decide (tag ≤ w.rf (rk 7 0x088) 27 16)

def RxRing.word (x : RxRing) (i : Nat) : U64 := x.words.getD i 0
def RxRing.log2 (x : RxRing) : Nat := fld (x.word 0) 52 48
def RxRing.size (x : RxRing) : Nat := 2 ^ x.log2
def RxRing.mbq (x : RxRing) : Bool := bit (x.word 3) 17
def RxRing.group (x : RxRing) : Nat := fld (x.word 3) 25 18
def RxRing.nb (x : RxRing) : Nat := fld (x.word 5) 7 0
/-- Bytes of a landing buffer. -/
def RxRing.bsz (x : RxRing) : Nat := fld (x.word 5) 31 8 * 4096
def RxRing.ashSize (x : RxRing) : Nat := fld (x.word 7) 31 0
def RxRing.land0 (x : RxRing) : Nat := fld (x.word 4) 47 0

/-- Write bytes at an offset of an area that was translated into physical pieces. -/
def World.pieceStore (w : World) (ag : Agent) : List (Nat × Nat) → Nat → List Byte → World
  | [], _, _ => w
  | p :: ps, off, bs =>
    if p.2 ≤ off then w.pieceStore ag ps (off - p.2) bs
    else
      let n := p.2 - off
      let w := w.store ag (p.1 + off) (bs.take n)
      if bs.length ≤ n then w else w.pieceStore ag ps 0 (bs.drop n)

/-- The physical address of an offset of an area. -/
def pieceAddr : List (Nat × Nat) → Nat → Nat
  | [], _ => 0
  | p :: ps, off => if off < p.2 then p.1 + off else pieceAddr ps (off - p.2)

/-- n bytes of an area. -/
def World.pieceBytes (w : World) (ps : List (Nat × Nat)) (off n : Nat) : List Byte :=
  (List.range n).map fun i => w.byte (pieceAddr ps (off + i))

/-- Poison the granules under 32-byte units of bytes stored at an offset of an area. -/
def World.piecePoison (w : World) (ag : Agent) (ps : List (Nat × Nat)) (off : Nat) (units : List Nat) : World :=
  units.foldl (fun w u => w.poisonAt ag (granOf (pieceAddr ps (off + 32 * u)))) w

/-- The lines of an area's bytes that must first come back from a host, or whose writes are not yet visible (R354). -/
def World.areaAway (w : World) (ps : List (Nat × Nat)) (off n : Nat) : List Nat :=
  (((List.range (ceilDiv n 32)).map fun u => lineOf (pieceAddr ps (off + 32 * u))).filter w.lineAway).eraseDups

/-- Recall lines. -/
def World.recallAll (w : World) (ls : List Nat) : World := ls.foldl (fun w l => w.snoop l true none) w

/-- Whether everything written to an area is visible (R230). -/
def World.areaVisible (w : World) (ps : List (Nat × Nat)) : Bool := ps.all fun p => w.rangeVisible p.1 p.2

/-- The 32-byte units of an area's bytes that are poisoned. -/
def World.pieceMarks (w : World) (ps : List (Nat × Nat)) (off n : Nat) : List Nat :=
  (List.range (ceilDiv n 32)).filter fun u => w.poisoned (granOf (pieceAddr ps (off + 32 * u)))

/-! ### The micro-batch queues (R210 to R212) -/

def World.mbqOf (w : World) (g : Nat) : List MbEntry := (w.dev.tik.mbqs.lookup g).getD []

def World.setMbq (w : World) (g : Nat) (es : List MbEntry) : World :=
  w.upd fun d => { d with tik := { d.tik with
    mbqs := if es.isEmpty then d.tik.mbqs.filter fun x => x.1 ≠ g
      else (g, es) :: d.tik.mbqs.filter fun x => x.1 ≠ g } }

/-- Append an entry; while the queue holds 64 it waits (R211). -/
def World.mbqAppend (w : World) (g : Nat) (e : MbEntry) : World :=
  if (w.mbqOf g).length < 64 then w.setMbq g (w.mbqOf g ++ [e])
  else w.upd fun d => { d with tik := { d.tik with mbwait := d.tik.mbwait ++ [(g, e)] } }

/-- Entries that wait enter a queue that has room (R211). -/
def World.mbqPump (w : World) (g : Nat) : World :=
  match w.dev.tik.mbwait.find? fun x => x.1 == g with
  | some x =>
    if (w.mbqOf g).length < 64 then
      (w.setMbq g (w.mbqOf g ++ [x.2])).upd fun d => { d with tik := { d.tik with mbwait := d.tik.mbwait.erase x } }
    else w
  | none => w

/-! ### Messages between the two sides -/

/-- Whether a node is a guest's (R26). -/
def guestNode (node : Nat) : Option Nat := if node = 0x3000 then some 0 else if node = 0x3100 then some 1 else none

/-- A channel packet to a guest (R405). -/
def guestChn (site typ a2 : Nat) (a1 a3 : U64) (payload : List Byte) : NetPkt :=
  { dst := 0x3000 + 0x100 * site, src := 0x2038 + site, vc := 4, typ := typ, job := 0, poison := false, rmt := false, rdev := 0,
    a1 := a1, status := 0, tag := 0, a2 := a2, a3 := a3, payload := payload }

/-- The flow that a guest of a site opened with a context (R407). -/
def World.gflowOf (w : World) (site ctx : Nat) : Option GFlow := w.dev.chn.gflows.find? fun f => f.site == site && f.ctx == ctx

def World.dropGflow (w : World) (site ctx : Nat) : World :=
  (w.upd fun d => { d with chn := { d.chn with gflows := d.chn.gflows.filter fun f => !(f.site == site && f.ctx == ctx) } }).noteFlows

/-- A guest port meets an accept (R407): a flow into an MBQ-bound ring is closed at once, one that is gone too (R245); else the
guest learns of its ring. -/
def World.guestAccept (w : World) (g : Nat) (a : AcceptMsg) : World :=
  let close := fun (w : World) => (w.fabricSend none a.peerDev (.chnClose a.peerCtx stClosed)).2
  if (w.gflowOf g a.ctx).isNone then close w
  else if a.mbq then (close (w.dropGflow g a.ctx)).sendGuest g (guestChn g 0x36 a.ctx 0 (BitVec.ofNat 64 stClosed) [])
  else
    let w := w.upd fun d => { d with chn := { d.chn with
      gflows := updFirst (fun f => f.site == g && f.ctx == a.ctx) (fun f => { f with rctx := some a.peerCtx }) d.chn.gflows } }
    w.sendGuest g (guestChn g 0x31 a.ctx (BitVec.ofNat 64 a.peerCtx)
      (BitVec.ofNat 64 (a.maxmsg + a.log2sz * 2 ^ 17 + a.mbq.toNat * 2 ^ 22 + a.maxbulk * 2 ^ 32))
      (a.ring.flatMap wordBytes ++ List.replicate (32 - 8 * a.ring.length) 0))

/-- Send a channel message to a guest in the form of R405. A flow closed as stale stays known to the guest port until the guest ends it,
so that messages already in flight are refused as well (R242). -/
def World.guestTell (w : World) (g : Nat) (m : FabMsg) : World :=
  match m with
  | .chnAccept a => w.guestAccept g a
  | .chnRefuse c r => (w.sendGuest g (guestChn g 0x32 c 0 (BitVec.ofNat 64 r) [])).dropGflow g c
  | .chnCredit c h => w.sendGuest g (guestChn g 0x35 c (BitVec.ofNat 64 h) 0 [])
  | .chnClose c r =>
    let w := w.sendGuest g (guestChn g 0x36 c 0 (BitVec.ofNat 64 r) [])
    if r = stNackStale then w.upd fun d => { d with chn := { d.chn with
      gflows := updFirst (fun f => f.site == g && f.ctx == c) (fun f => { f with shut := true }) d.chn.gflows } }
    else w.dropGflow g c
  | _ => w

/-- Send a channel message to a node of a device: into the fabric, or to a guest of this device. -/
def World.chnTo (w : World) (dev node : Nat) (m : FabMsg) : World :=
  match (if dev = w.devId then guestNode node else none) with
  | none => (w.fabricSend none dev m).2
  | some g => w.guestTell g m

/-! ### The receiving side -/

/-- Write a ring's tail line (R229): TAIL, STATE, REASON, ASHB, MSEQ. -/
def World.tailLine (w : World) (x : RxRing) (tail state reason ashb mseq : Nat) : World :=
  let bs := leBytes 8 tail ++ leBytes 8 (state + reason * 256) ++ leBytes 8 ashb ++ leBytes 8 mseq ++ List.replicate 96 0
  w.pieceStore (mantel (chnPage (x.stove / 32))) [(x.tline, 128)] 0 bs

/-- Whether everything placed for a flow's ring is visible: records, bulk parts, ash pit (R230). -/
def World.placedVisible (w : World) (x : RxRing) : Bool := w.areaVisible x.ring && w.areaVisible x.land && w.areaVisible x.ash

/-- The tail line of a flow that closes; TAIL covers no record that is not yet visible (R230). -/
def World.closeLine (w : World) (f : RFlow) (reason : Nat) : World :=
  match w.rxOf f with
  | some x => w.tailLine x (if w.placedVisible x then f.tail else f.shown) 2 reason 0 f.mseq
  | none => w

/-- A flow's ring closes: its tail line reads CLOSED with a reason, its slot is free, and its queued micro-batches no longer count
for it (R231, R244). -/
def World.shutRing (w : World) (f : RFlow) (reason : Nat) : World :=
  let gone := fun (e : MbEntry) => if e.flow = f.ctx then { e with gone := true } else e
  (w.closeLine f reason).upd fun d => { d with
    chn := { d.chn with rings := d.chn.rings.filter fun x => x.flow != some f.ctx }
    tik := { d.tik with
      mbqs := d.tik.mbqs.map fun q => (q.1, q.2.map gone)
      mbwait := d.tik.mbwait.map fun q => (q.1, gone q.2) } }

/-- End a flow's receiving side: ring and context are free; messages in the ash pit are discarded, counted when it is aborted
(R244, R245). -/
def World.dropRflow (w : World) (f : RFlow) (reason : Nat) : World :=
  let w := if reason = stClosed then w.count (rk 7 0x090) 63 32 f.ash.length else w
  ((w.shutRing f reason).upd fun d => { d with chn := { d.chn with rflows := d.chn.rflows.filter fun x => x.ctx ≠ f.ctx } }).noteFlows

/-- Withdraw posted rings: their tail lines read WITHDRAWN (R223, R244). -/
def World.withdraw (w : World) (p : RxRing → Bool) : World :=
  let xs := w.dev.chn.rings.filter fun x => x.flow.isNone && p x
  let w := xs.foldl (fun w x => w.tailLine x 0 3 0 0 0) w
  w.upd fun d => { d with chn := { d.chn with rings := d.chn.rings.filter fun x => !(x.flow.isNone && p x) } }

/-- An entry of the soot queue of a die, or its drop (R243); a disabled queue drops. Answers whether it was dropped. -/
def World.soot (w : World) (die : Nat) (header record : List Byte) : Bool × World :=
  let base := w.reg (rk (chnPage die) 0x080)
  let ptr := w.reg (rk (chnPage die) 0x088)
  let size := 2 ^ fld base 5 1
  let pad := up64 record.length
  let n := 64 + pad
  let off := fld ptr 31 0 % size
  let skip := if off + n ≤ size then 0 else size - off
  let free := size - (fld ptr 31 0 + 2 ^ 32 - fld ptr 63 32) % 2 ^ 32
  if bit base 0 && decide (n ≤ size) && decide (skip + n ≤ free) then
    let ag := mantel (chnPage die)
    let at0 := fld base 47 12 * 4096
    let w := if skip = 0 then w else w.store ag (at0 + off)
      (header.take 24 ++ leBytes 8 (leNat ((header.drop 24).take 8) % 2 ^ 32) ++ List.replicate 32 0)
    let w := w.store ag (at0 + (off + skip) % size) (header ++ record ++ List.replicate (pad - record.length) 0)
    (false, (w.count (rk (chnPage die) 0x090) 31 0 1).setRf (rk (chnPage die) 0x088) 31 0 (fld ptr 31 0 + skip + n))
  else (true, w.count (rk (chnPage die) 0x090) 63 32 1)

/-- Refuse one message of a flow as stale: its record, header and LEN bytes of payload, goes to the soot queue, EV_SOOT is raised,
and it is counted (R242, R243). LENGTH counts the record without its padding (DEDUCED, log entry 83). -/
def World.staleMsg (w : World) (f : RFlow) (record : List Byte) : World :=
  let die := f.stove / 32
  let now := fld (w.reg (epKey f.stove (bits f.target 23 21))) 47 32
  let hdr := leBytes 8 (f.peerDev + f.peerNode * 2 ^ 13) ++ leBytes 8 (f.target + f.epoch * 2 ^ 32 + now * 2 ^ 48) ++
    leBytes 8 w.dev.gtime ++ leBytes 8 (f.ctx + record.length * 2 ^ 32) ++ List.replicate 32 0
  let (dropped, w) := w.soot die hdr record
  let w := w.count (rk (chnPage die) 0x098) 63 32 1
  w.event (chnPage die) 0x0B dropped.toNat (detail (some f.job) (f.ctx * 2 ^ 8))
    (BitVec.ofNat 64 (f.target + f.epoch * 2 ^ 32 + now * 2 ^ 48))

/-- Whether a failed link stops the traffic between a flow's ring and its sender (R20). -/
def World.flowCut (w : World) (f : RFlow) : Bool :=
  w.dieCut (f.stove / 32) (if f.peerDev = w.devId then f.peerNode / 256 else 0x20)

/-- Whether a flow's endpoint has another epoch than at OPEN (R242). -/
def World.isStale (w : World) (f : RFlow) : Bool := fld (w.reg (epKey f.stove (bits f.target 23 21))) 47 32 != f.epoch

/-- A flow's HEAD moves: landing buffers behind it are free, and a credit goes to the sender (R235, R236). -/
def World.moveHead (w : World) (f : RFlow) (head : Nat) : World :=
  let w := w.modRflow f.ctx fun f => { f with head := head, bulkEnds := f.bulkEnds.filter fun e => decide (head < e) }
  w.chnTo f.peerDev f.peerNode (.chnCredit f.peerCtx head)

/-- HEAD after the consumed records at the front of an MBQ-bound ring (R231). -/
def consumedTo (head : Nat) : List (Nat × Bool) → Nat × List (Nat × Bool)
  | (e, true) :: rs => consumedTo e rs
  | rs => (head, rs)

/-- HEAD of an MBQ-bound ring moves over its consumed records; the device writes it to the head line (R231). -/
def World.consume (w : World) (ctx : Nat) : World :=
  match w.rflow ctx with
  | none => w
  | some f =>
    let (head, recs) := consumedTo f.head f.recs
    if head = f.head then w
    else
      let w := w.modRflow ctx fun f => { f with recs := recs }
      let w := match w.rxOf f with
        | some x => w.pieceStore (mantel (chnPage (x.stove / 32))) [(x.hline, 128)] 0 (leBytes 8 head)
        | none => w
      w.moveHead f head

/-- An entry has left its queue: its record is consumed, and entries that wait may follow (R211, R212, R231). -/
def World.mbqLeft (w : World) (g : Nat) (e : MbEntry) : World :=
  if e.gone then w.mbqPump g
  else
    let w := w.modRflow e.flow fun f => { f with recs := updFirst (fun r => r.1 == e.recEnd) (fun r => (r.1, true)) f.recs }
    (w.consume e.flow).mbqPump g

/-- Place a record and its bulk part in the ring (R229 to R232): landing buffer, rebased descriptor, record; an MBQ-bound ring
appends an entry (R211, R231). -/
def World.placeRecord (w : World) (f : RFlow) (x : RxRing) (m : DataMsg) : World :=
  let ag := mantel (chnPage (x.stove / 32))
  let off := f.tail % x.size
  let hasBulk := !m.bulk.isEmpty
  let buf := if x.nb = 0 then 0 else f.bulks % x.nb
  let pay := fld (x.word 0) 47 0 + off + 16
  let shift := (x.land0 + buf * x.bsz + 2 ^ 48 - pay % 2 ^ 48) % 2 ^ 48
  let w := if hasBulk then (w.pieceStore ag x.land (buf * x.bsz) m.bulk).piecePoison ag x.land (buf * x.bsz) m.bpois else w
  let rebase := fun (bs : List Byte) i (n : Nat) =>
    let v := leWord ((bs.drop (8 * i)).take 8)
    bs.take (8 * i) ++ wordBytes (setFld v 47 0 (fld v 47 0 + n)) ++ bs.drop (8 * i + 8)
  let payload := if m.brel then rebase (rebase m.payload 0 shift) 1 shift else m.payload
  let h0 := setFld (setFld m.h0 19 19 hasBulk.toNat) 27 20 (if hasBulk then buf else 0)
  let n := up64 (16 + m.payload.length)
  let w := w.pieceStore ag x.ring off (wordBytes h0 ++ wordBytes m.h1 ++ payload)
  let w := w.piecePoison ag x.ring (off + 16) m.ppois
  let tail := f.tail + n
  let w := w.modRflow f.ctx fun f =>
    { f with
      tail := tail, mseq := fld m.h0 63 32, due := true
      bulks := if hasBulk then f.bulks + 1 else f.bulks
      bulkEnds := if hasBulk then f.bulkEnds ++ [tail] else f.bulkEnds
      recs := if x.mbq then f.recs ++ [(tail, false)] else f.recs }
  if !x.mbq then w
  else
    let ws := (chunks 8 ((rebase (rebase payload 0 pay) 1 pay).take 32)).map leWord
    w.mbqAppend x.group ⟨⟨fld m.h1 9 0, fld m.h1 10 10, fld m.h1 63 32, fld m.h1 31 16⟩, f.ctx, pay, ws, tail, false, false⟩

/-- Write a WRAP record of the ring (R235). -/
def World.placeWrap (w : World) (f : RFlow) (x : RxRing) : World :=
  let off := f.tail % x.size
  let room := x.size - off
  let w := w.pieceStore (mantel (chnPage (x.stove / 32))) x.ring off (leBytes 8 (2 ^ 17) ++ leBytes 8 room)
  let w := w.modRflow f.ctx fun f =>
    { f with tail := f.tail + room, due := true, recs := if x.mbq then f.recs ++ [(f.tail + room, true)] else f.recs }
  if x.mbq then w.consume f.ctx else w

/-! ### The sending side -/

/-- End a flow's sending side. -/
def World.dropSflow (w : World) (ctx : Nat) : World :=
  (w.upd fun d => { d with chn := { d.chn with sflows := d.chn.sflows.filter fun x => x.ctx ≠ ctx } }).noteFlows

/-- Complete the command that waits on a flow. -/
def World.endSend (w : World) (f : SFlow) (status evseq : Nat) : World :=
  match f.cmd with
  | some (r, i) => (w.modSflow f.ctx fun f => { f with cmd := none, since := none }).endCmd r i status evseq
  | none => w

/-- The receiving side has taken every message sent: the send under way completes (R232). -/
def World.reported (w : World) (ctx count : Nat) : World :=
  match w.sflow ctx with
  | some f => if f.st == .isOpen && f.since.isNone && f.cmd.isSome && count == f.mseq then w.endSend f f.res.1 f.res.2 else w
  | none => w

/-- Read payload or bulk bytes: the bytes and their poisoned 32-byte units. -/
def readUnits (va n : Nat) : Act (List Byte × List Nat) := do
  let bs ← readVB va n
  return (bs.map Prod.fst, (List.range (ceilDiv n 32)).filter fun u => ((bs.drop (32 * u)).take 32).any Prod.snd)

/-- What place() answers for a message of a flow (R235, R238). -/
inductive PlaceRes where
  | wait | wrap (room : Nat) | placed (size : Nat)
  deriving DecidableEq, Repr

/-- place() of R235 for the ring, or for the ash pit with bulk parts inline (R238). -/
def SFlow.place (f : SFlow) (ash : Bool) (len blen : Nat) : PlaceRes :=
  let size := if ash then f.ash else 2 ^ f.log2
  let rec' := up64 (16 + len) + (if ash then up64 blen else 0)
  let tail := if ash then f.aTail else f.tail
  let free := size - (tail - (if ash then f.aHead else f.head))
  let room := size - tail % size
  if room < rec' then (if free < room then .wait else .wrap room)
  else if free < rec' then .wait
  else if !ash && blen != 0 && decide (f.nb ≤ f.bulkEnds.length) then .wait
  else .placed rec'

/-- The two header words of a record: LEN, TYPE, BULK, MSEQ and the stamp (R209, R229). -/
def recHeader (len : Nat) (bulk : Bool) (mseq : Nat) (st : Option Stamp) : U64 × U64 :=
  (BitVec.ofNat 64 (len + bulk.toNat * 2 ^ 19 + mseq % 2 ^ 32 * 2 ^ 32),
   match st with
   | some s => BitVec.ofNat 64 (s.mbid + s.dir * 2 ^ 10 + 2 ^ 11 + s.ver % 2 ^ 16 * 2 ^ 16 + s.step * 2 ^ 32)
   | none => 0)

/-- Place the message of a CHN_SEND, or wait for credit (R235, R238): the data goes to the receiving side, and the command waits
for its report. `spill` makes it enter the ash pit though the pit is empty. -/
def sendStep (ctx : Nat) (d : Desc) (spill : Bool) : Nat → Act Fin
  | 0 => return .wait (.channel ctx)
  | fuel + 1 => do
    let x ← get
    match x.w.sflow ctx with
    | none => return .done stClosed
    | some f =>
      let len := fld d.w4 16 0
      let blen := fld d.w6 31 0
      let ash := spill || !f.spilled.isEmpty
      if x.w.dieCut (f.stove / 32) (if f.peerDev = x.w.devId then f.peerNode / 256 else 0x20) then throw .hold
      let emit := fun (m : DataMsg) => actW fun w => (w.fabricSend (some f.job) f.peerDev (.chnData m)).2
      match f.place ash len blen with
      | .wait =>
        let cfg := x.w.reg (rk 7 0x080)
        actW fun w => w.modSflow ctx fun f =>
          { f with
            cmd := x.ag.cmd
            since := match f.since with | some t => some t | none => some w.dev.gtime
            ovfAt := if f.since.isSome then f.ovfAt else w.dev.gtime + fld cfg 31 0
            stallAt := if f.since.isSome then f.stallAt else w.dev.gtime + fld cfg 63 32
            stalled := f.since.isSome && f.stalled }
        return .wait (.channel ctx)
      | .wrap room =>
        emit ⟨f.peerCtx, if ash then f.aTail else f.tail, BitVec.ofNat 64 (2 ^ 17), BitVec.ofNat 64 room, [], [], ash, true, false,
          [], []⟩
        actW fun w => w.modSflow ctx fun f =>
          if ash then { f with aTail := f.aTail + room, aHead := if f.spilled.isEmpty then f.aTail + room else f.aHead }
          else { f with tail := f.tail + room }
        sendStep ctx d spill fuel
      | .placed n =>
        let (ps, pm) ← readUnits (fld d.w3 47 0) len
        let (bs, bm) ← readUnits (fld d.w5 47 0) blen
        let (h0, h1) := recHeader len (blen != 0) f.mseq x.stamp
        emit ⟨f.peerCtx, if ash then f.aTail else f.tail, h0, h1, ps, bs, ash, false, bit d.w4 17, pm, bm⟩
        let status ← closing stOk
        let ev := (← get).evseq
        actW fun w => w.modSflow ctx fun g =>
          { g with
            cmd := x.ag.cmd, since := none, mseq := g.mseq + 1, res := (status, ev)
            tail := if ash then g.tail else g.tail + n
            aTail := if ash then g.aTail + n else g.aTail
            bulks := if !ash && blen != 0 then g.bulks + 1 else g.bulks
            bulkEnds := if !ash && blen != 0 then g.bulkEnds ++ [g.tail + n] else g.bulkEnds
            spilled := if ash then g.spilled ++
                [⟨g.mseq, g.since.getD w.dev.gtime, if g.since.isSome then g.stallAt else w.dev.gtime + w.rf (rk 7 0x080) 63 32,
                  g.since.isSome && g.stalled, h0, h1⟩]
              else g.spilled }
        return .wait (.channel ctx)

/-- A send that has completed leaves its flow, with nothing of its message waiting. -/
def World.freeSend (w : World) (ctx : Nat) (r : RingId) (i : Nat) : World :=
  if (w.ringRun r).entries.any (fun e => e.idx == i && e.undone) then w
  else w.modSflow ctx fun f => if f.cmd = some (r, i) then { f with cmd := none, since := none } else f

/-- Run place() again for the waiting message of a flow (R235). -/
def World.retrySend (w : World) (ctx : Nat) (spill : Bool) : World :=
  match w.sflow ctx with
  | some f => match f.cmd with
    | some (r, i) =>
      match (w.ringRun r).entries.find? fun e => e.idx == i with
      | some e =>
        if f.since.isSome && opcodeOf e.desc == 0x24 then (w.resume r i (sendStep ctx e.desc spill 3)).freeSend ctx r i else w
      | none => w
    | none => w
  | none => w

/-- Run place() again for every waiting message. -/
def World.retrySends (w : World) : World := (w.dev.chn.sflows.map SFlow.ctx).foldl (fun w c => w.retrySend c false) w

/-- Send the close that a flow waits to make, once its ash pit is empty (R233, R244). -/
def World.closeGo (w : World) (ctx : Nat) : World :=
  match w.sflow ctx with
  | some f => match f.reason with
    | some r =>
      if f.spilled.isEmpty then
        (w.modSflow ctx fun f => { f with reason := none, st := .closing }).fabricSend (some f.job) f.peerDev
          (.chnClose f.peerCtx r) |>.2
      else w
    | none => w
  | none => w

/-- Messages have been drained from the ash pit (R239): the sender's counts follow. -/
def World.drained (w : World) (ctx aHead tail : Nat) (bulk : Bool) : World :=
  let w := w.modSflow ctx fun f =>
    let rest := f.spilled.drop 1
    { f with
      spilled := rest, tail := tail
      aHead := if rest.isEmpty then f.aTail else aHead
      bulks := if bulk then f.bulks + 1 else f.bulks
      bulkEnds := if bulk then f.bulkEnds ++ [tail] else f.bulkEnds }
  (w.retrySend ctx false).closeGo ctx

/-- Tell the sender that a message has left the ash pit (R239). -/
def World.tellDrain (w : World) (f : RFlow) (aHead tail : Nat) (bulk : Bool) : World :=
  if f.peerDev = w.devId then w.drained f.peerCtx aHead tail bulk
  else (w.fabricSend none f.peerDev (.chnDrain f.peerCtx aHead tail bulk)).2

/-- Messages in the ash pit of a flow whose epoch has passed go to the soot queue, in order (R242), as far as their bytes are at
hand; a line that a host holds is recalled first (R354). -/
def World.staleAsh (w : World) (ctx : Nat) (x : RxRing) : Nat → World
  | 0 => w
  | fuel + 1 => match w.rflow ctx with
    | none => w
    | some f => match f.ash with
      | [] => w
      | m :: rest =>
        let off := m.off % x.ashSize
        match w.areaAway x.ash off m.size with
        | [] =>
          let h := leNat (w.pieceBytes x.ash off 8)
          let aHead := match rest with | r :: _ => r.off | [] => f.aTail
          let w := (w.staleMsg f (w.pieceBytes x.ash off (16 + h % 2 ^ 17))).modRflow ctx fun f =>
            { f with ash := rest, aHead := aHead, due := true }
          (w.tellDrain f aHead f.tail false).staleAsh ctx x fuel
        | ls => w.recallAll ls

/-- The ash pit of a stale flow is refused as far as it can be (R242). -/
def World.flushStale (w : World) (ctx : Nat) : World :=
  match w.rflow ctx with
  | some f => match w.rxOf f with
    | some x => if w.isStale f then w.staleAsh ctx x f.ash.length else w
    | none => w
  | none => w

/-- A message arrives for a flow whose endpoint has another epoch: it is refused, and the flow closes with NACK_STALE on both sides;
the context stands until the sender's side has ended, and refuses what is still in flight (R242; DESIGN CHOICE, log entry 83). -/
def World.staleTake (w : World) (f : RFlow) (record : List Byte) : World :=
  let w := w.staleMsg f record
  if f.shut.isSome then w
  else
    let x := w.rxOf f
    ((w.shutRing f stNackStale).modRflow f.ctx fun f => { f with shut := x, due := false }).chnTo f.peerDev f.peerNode
      (.chnClose f.peerCtx stNackStale)

/-- A write of CHN_EP (R222, R223, R242): EN, JOB and ROLE take the value, EPOCH counts, posted rings are withdrawn; open flows stay
open, and messages waiting in their ash pits are refused as stale. -/
def World.setEp (w : World) (stove ep : Nat) (v : U64) : World :=
  let k := epKey stove ep
  let old := w.reg k
  let fs := w.dev.chn.rflows.filter fun f => f.stove == stove && bits f.target 23 21 == ep && !f.ash.isEmpty
  let w := w.setReg k (setFld (v &&& 0xFFFF007F) 47 32 (fld old 47 32 + 1))
  let w := w.withdraw fun x => x.stove == stove && x.ep == ep
  fs.foldl (fun w f => w.flushStale f.ctx) w

/-- Abort the flow that holds a context of this device, from either side (R245). -/
def World.abortFlow (w : World) (ctx : Nat) : World :=
  match w.sflow ctx with
  | some f =>
    let w := w.endSend f stClosed 0
    let w := if f.st == .opening then w else (w.fabricSend (some f.job) f.peerDev (.chnClose f.peerCtx stClosed)).2
    w.dropSflow ctx
  | none => match w.rflow ctx with
    | some f =>
      let w := w.dropRflow f stClosed
      if f.shut.isSome then w else w.chnTo f.peerDev f.peerNode (.chnClose f.peerCtx stClosed)
    | none => match w.gflow ctx with
      | some g =>
        let w := match g.rctx with
          | some c => (w.fabricSend none (g.target % 2 ^ 13) (.chnClose c stClosed)).2
          | none => w
        w.guestTell g.site (.chnClose ctx stClosed)
      | none => w

/-! ### The stove commands -/

/-- CHN_POST (R226). -/
def chnPost (d : Desc) : Act Fin := do
  let a := fld d.w2 47 0
  let s := (← get).ag.stove.getD 0
  need (zeroBits d.w2 [(63, 48)] && a % 64 == 0 && d.w3 == 0 && d.w4 == 0 && d.w5 == 0 && d.w6 == 0 && d.w7 == 0) stOperand
  let ws ← readWords a 8
  let x : RxRing := ⟨s, 0, fld (ws.getD 0 0) 55 53, jobOf d, a, ws, [], 0, 0, [], [], none⟩
  let ring := fld (x.word 0) 47 0
  let ash := fld (x.word 6) 47 0
  let w := (← get).w
  let ep := w.reg (epKey s x.ep)
  need (zeroBits (x.word 0) [(63, 56)] && zeroBits (x.word 1) [(63, 48)] && zeroBits (x.word 2) [(63, 48)] &&
    zeroBits (x.word 3) [(63, 26)] && zeroBits (x.word 4) [(63, 48)] && zeroBits (x.word 5) [(63, 32)] &&
    zeroBits (x.word 6) [(63, 48)] && zeroBits (x.word 7) [(63, 32)] && decide (12 ≤ x.log2) && decide (x.log2 ≤ 20) &&
    ring % x.size == 0 && fld (x.word 1) 47 0 % 128 == 0 && fld (x.word 2) 47 0 % 128 == 0 &&
    decide (fld (x.word 3) 16 0 ≤ 65536) && x.land0 % 4096 == 0 && ash % 4096 == 0 && x.ashSize % 4096 == 0 &&
    bit ep 0 && fld ep 6 1 == jobOf d) stOperand
  let slot := (List.range 16).find? fun i => !w.dev.chn.rings.any fun y => y.stove == s && y.slot == i
  need slot.isSome stOperand
  let ps ← xlateRange ring x.size true
  let tl ← xlateRange (fld (x.word 1) 47 0) 128 true
  let hl ← xlateRange (fld (x.word 2) 47 0) 128 x.mbq
  let land ← xlateRange x.land0 (x.nb * x.bsz) true
  let pit ← xlateRange ash x.ashSize true
  let mem := fun (scratch : Bool) (p : Nat × Nat) => match w.place p.1 with
    | .hbm => w.inHbm p.1 p.2
    | .slm _ => w.inSlm p.1 p.2
    | .scratch _ => scratch
    | _ => false
  need (ps.all (mem true) && tl.all (mem false) && hl.all (mem false) && pit.all (fun p => w.inHbm p.1 p.2)) stOperand
  let first := fun (l : List (Nat × Nat)) => (l.headD (0, 0)).1
  let x := { x with slot := slot.getD 0, ring := ps, tline := first tl, hline := first hl, land := land, ash := pit }
  actW fun w => (w.upd fun dv => { dv with chn := { dv.chn with rings := dv.chn.rings ++ [x] } }).tailLine x 0 0 0 0 0
  return .done stOk

/-- Write the result block of a refused OPEN (R228) and answer its status. -/
def refuseOpen (result reason : Nat) : Act Fin := do
  writeV (result + 24) (leBytes 8 reason)
  return .done (if reason = 0 then stNackStale else stRefused)

/-- CHN_OPEN (R227, R228). -/
def chnOpen (d : Desc) : Act Fin := do
  let target := fld d.w2 31 0
  let result := fld d.w4 47 0
  let x ← get
  need (zeroBits d.w3 [(31, 17)] && decide (fld d.w3 16 0 ≤ 65536) && zeroBits d.w4 [(63, 48)] && result % 32 == 0 &&
    d.w5 == 0 && d.w6 == 0 && d.w7 == 0) stOperand
  let _ ← xlateRange result 32 true
  let dev := target % 2 ^ 13
  if x.w.dieCut (x.ag.node / 256) (if dev = x.w.devId then bits target 20 13 / 32 else 0x20) then throw .hold
  if bits target 31 24 ≠ 0 || (dev ≠ x.w.devId && (x.w.outPort dev).isNone) then refuseOpen result 1
  else match x.w.freeCtx with
    | none => refuseOpen result 3
    | some ctx =>
      let f : SFlow := {
        ctx := ctx, job := jobOf d, stove := x.ag.stove.getD 0, target := target, epoch := fld d.w2 63 48, peerDev := dev
        peerNode := 0, peerCtx := 0, st := .opening, cmd := x.ag.cmd, result := result
        deadline := x.w.dev.gtime + x.w.rf (rk 7 0x080) 63 32, maxmsg := 0, maxbulk := 0, log2 := 0, mbq := false, ash := 0
        nb := 0, tail := 0, head := 0, aTail := 0, aHead := 0, mseq := 0, bulks := 0, bulkEnds := [], since := none, ovfAt := 0
        stallAt := 0, stalled := false, spilled := [], reason := none, res := (0, 0) }
      actW fun w =>
        let w := (w.upd fun dv => { dv with chn := { dv.chn with sflows := dv.chn.sflows ++ [f] } }).noteFlows
        (w.fabricSend (some f.job) dev (.chnOpen ⟨jobOf d, w.devId, x.ag.node, ctx, target, fld d.w2 47 32, f.epoch, fld d.w3 16 0,
          fld d.w3 63 32⟩)).2
      return .wait (.channel ctx)

/-- CHN_SEND (R232, R233, R231). -/
def chnSend (d : Desc) : Act Fin := do
  let ctx := fld d.w2 11 0
  let len := fld d.w4 16 0
  let blen := fld d.w6 31 0
  let x ← get
  need (zeroBits d.w2 [(63, 12)] && zeroBits d.w3 [(63, 48)] && zeroBits d.w4 [(63, 18)] && zeroBits d.w5 [(63, 48)] &&
    zeroBits d.w6 [(63, 32)] && d.w7 == 0 && fld d.w3 47 0 % 32 == 0 && fld d.w5 47 0 % 32 == 0 && blen % 32 == 0) stOperand
  match x.w.sflow ctx with
  | none => fail stClosed
  | some f =>
    need (some f.stove == x.ag.stove) stOperand
    if f.st != .isOpen || f.reason.isSome then return .done stClosed
    need (!bit d.w4 17 || (blen != 0 && decide (32 ≤ len))) stOperand
    need (!f.mbq || (x.stamp.isSome && decide (32 ≤ len))) stOperand
    if f.maxmsg < len ∨ f.maxbulk < blen then
      actW fun w => (w.modSflow ctx fun f => { f with reason := some stMsgTooLong }).closeGo ctx
      return .done stMsgTooLong
    if f.cmd.isSome then throw .hold
    sendStep ctx d false 3

/-- CHN_CLOSE of a flow (R244). -/
def chnClose (d : Desc) : Act Fin := do
  let ctx := fld d.w2 11 0
  let x ← get
  need (zeroBits d.w2 [(63, 13)] && zeroBits d.w3 [(63, 48)] && d.w4 == 0 && d.w5 == 0 && d.w6 == 0 && d.w7 == 0) stOperand
  match x.w.sflow ctx with
  | none => fail stClosed
  | some f =>
    need (some f.stove == x.ag.stove) stOperand
    if f.st != .isOpen || f.reason.isSome then return .done stClosed
    if f.cmd.isSome then throw .hold
    actW fun w => (w.modSflow ctx fun f => { f with cmd := x.ag.cmd, reason := some stOk }).closeGo ctx
    return .wait (.channel ctx)

/-- CHN_CLOSE with POSTED: withdraw a posted ring (R244). -/
def chnWithdraw (d : Desc) : Act Fin := do
  let x ← get
  let s := x.ag.stove.getD 0
  let mine := fun (r : RxRing) => r.stove == s && r.addr == fld d.w3 47 0 && r.job == jobOf d && r.flow.isNone
  need (zeroBits d.w2 [(63, 13)] && zeroBits d.w3 [(63, 48)] && d.w4 == 0 && d.w5 == 0 && d.w6 == 0 && d.w7 == 0 &&
    x.w.dev.chn.rings.any mine) stOperand
  let slot := ((x.w.dev.chn.rings.find? mine).map RxRing.slot).getD 0
  actW fun w => w.withdraw fun r => mine r && r.slot == slot
  return .done stOk

def execChnPost (c : Cmd) (s : State) : Host.Outcome State Fault Refusal :=
  s.run fun w => w.runCmd c (fun d => opcodeOf d == 0x22) chnPost
def execChnOpen (c : Cmd) (s : State) : Host.Outcome State Fault Refusal :=
  s.run fun w => w.runCmd c (fun d => opcodeOf d == 0x23) chnOpen
def execChnSend (c : Cmd) (s : State) : Host.Outcome State Fault Refusal :=
  s.run fun w => w.runCmd c (fun d => opcodeOf d == 0x24) chnSend
def execChnClose (c : Cmd) (s : State) : Host.Outcome State Fault Refusal :=
  s.run fun w => w.runCmd c (fun d => opcodeOf d == 0x25 && !bit d.w2 12) chnClose
def execChnWithdraw (c : Cmd) (s : State) : Host.Outcome State Fault Refusal :=
  s.run fun w => w.runCmd c (fun d => opcodeOf d == 0x25 && bit d.w2 12) chnWithdraw

/-! ### The registers -/

/-- A write of CHN_EP e of a hearth die (R222, R223). -/
def World.epWrite (w : World) (writer die e : Nat) (v : U64) : World :=
  w.owned writer (chnPage die) (0x800 + 8 * e) v fun w => w.setEp (32 * die + e / 8) (e % 8) v

def execChnEp (port die e : Nat) (v : U64) (s : State) : Host.Outcome State Fault Refusal :=
  if die < 8 ∧ e < 256 then s.port port (chnPage die) (0x800 + 8 * e) v fun w => w.epWrite port die e v else .next s

/-- A write of CHN_FABORT (R245). -/
def World.abortWrite (w : World) (writer : Nat) (v : U64) : World := w.owned writer 7 0x098 v fun w => w.abortFlow (fld v 11 0)

def execChnFabort (port ctx : Nat) (s : State) : Host.Outcome State Fault Refusal :=
  s.port port 7 0x098 (BitVec.ofNat 64 ctx) fun w => w.abortWrite port (BitVec.ofNat 64 ctx)

/-! ### Events at the receiving side -/

/-- An OPEN at its target (R227, R228). -/
def World.openPkt (w : World) (m : OpenMsg) : World :=
  let stove := bits m.target 20 13
  let ep := bits m.target 23 21
  let v := w.reg (epKey stove ep)
  let refuse := fun (w : World) r => w.chnTo m.srcDev m.srcNode (.chnRefuse m.srcCtx r)
  if !bit v 0 || fld v 31 16 ≠ m.role || fld v 47 32 ≠ m.epoch then
    refuse (w.count (rk (chnPage (stove / 32)) 0x098) 31 0 1) 0
  else match w.dev.chn.rings.find? fun x => x.stove == stove && x.ep == ep && x.flow.isNone with
    | none => refuse w 2
    | some x => match w.freeCtx with
      | none => refuse w 3
      | some ctx =>
        let f : RFlow := {
          ctx := ctx, stove := stove, slot := x.slot, target := m.target, job := fld v 6 1, ojob := m.job, epoch := m.epoch
          peerDev := m.srcDev, peerNode := m.srcNode, peerCtx := m.srcCtx, tail := 0, head := 0, mseq := 0, bad := false
          due := false, aTail := 0, aHead := 0, ash := [], bulks := 0, bulkEnds := [], recs := [], taken := 0
          shown := 0, shut := none, stale := none }
        let w := w.upd fun d => { d with chn := { d.chn with
          rflows := d.chn.rflows ++ [f]
          rings := updFirst (fun y => y.stove == stove && y.slot == x.slot) (fun y => { y with flow := some ctx }) d.chn.rings } }
        let w := w.noteFlows.tailLine x 0 1 0 0 0
        w.chnTo m.srcDev m.srcNode (.chnAccept ⟨m.srcCtx, w.devId, engineNode (0x1000 + stove) 0, ctx,
          min m.reqmsg (min (fld (x.word 3) 16 0) (x.size - 64)), if x.nb = 0 then 0 else min m.reqbulk x.bsz, x.log2, x.mbq,
          x.ashSize, x.nb, [x.word 0, x.word 4, x.word 5]⟩)

def execChnOpenPkt (m : OpenMsg) (s : State) : Host.Outcome State Fault Refusal :=
  s.run fun w => w.onArrival (.chnOpen m) fun w =>
    if m.target % 2 ^ 13 = w.devId ∧ bits m.target 31 24 = 0 then w.openPkt m else w

/-- A record of a flow at the receiving side (R232, R235, R238, R242). -/
def World.chnTake (w : World) (m : DataMsg) : World :=
  match w.rflow m.ctx with
  | none => w
  | some f =>
    let header := wordBytes m.h0 ++ wordBytes m.h1
    if !m.wrap && (f.shut.isSome || w.isStale f) then w.staleTake f (header ++ m.payload)
    else match w.rxOf f with
    | none => w
    | some x =>
      let ag := mantel (chnPage (x.stove / 32))
      let off := f.aTail % max 1 x.ashSize
      if m.wrap then
        if m.toAsh then
          (w.pieceStore ag x.ash off header).modRflow f.ctx fun f =>
            let aTail := f.aTail + (x.ashSize - off)
            { f with aTail := aTail, aHead := if f.ash.isEmpty then aTail else f.aHead, due := true }
        else w.placeWrap f x
      else
        let w := w.modRflow f.ctx fun f => { f with taken := f.taken + 1 }
        if m.toAsh then
          let n := up64 (16 + m.payload.length)
          let w := (w.pieceStore ag x.ash off (header ++ m.payload)).piecePoison ag x.ash (off + 16) m.ppois
          let w := if m.bulk.isEmpty then w
            else (w.pieceStore ag x.ash (off + n) m.bulk).piecePoison ag x.ash (off + n) m.bpois
          w.modRflow f.ctx fun f =>
            { f with
              ash := f.ash ++ [⟨f.aTail, n + m.bulk.length, m.bulk.length, m.brel⟩], aTail := f.aTail + n + up64 m.bulk.length, due := true }
        else w.placeRecord f x m

/-- Whether a stale flow's ash pit must be refused before the message that arrives (R242). -/
def World.ashFirst (w : World) (ctx : Nat) : Bool :=
  match w.rflow ctx with
  | some f => w.isStale f && !f.ash.isEmpty
  | none => false

def execChnData (m : DataMsg) (s : State) : Host.Outcome State Fault Refusal :=
  s.run fun w =>
    let w := w.flushStale m.ctx
    if w.ashFirst m.ctx then w else w.onArrival (.chnData m) fun w => w.chnTake m

/-- The tail line is written once everything it covers is visible, and what it covers is reported to the sender (R230, R232). -/
def execChnTail (ctx : Nat) (s : State) : Host.Outcome State Fault Refusal :=
  s.run fun w => match w.rflow ctx with
    | none => w
    | some f => match w.rxOf f with
      | none => w
      | some x =>
        if !f.due || w.flowCut f || !w.placedVisible x then w
        else
          let w := (w.modRflow ctx fun f => { f with due := false, shown := f.tail }).tailLine x f.tail 1 0 (f.aTail - f.aHead) f.mseq
          if f.peerDev = w.devId then w.reported f.peerCtx f.taken
          else (w.fabricSend none f.peerDev (.chnReport f.peerCtx f.taken)).2

/-- A write of the head line by the receiver (R230, R236); a host's write completes when its line comes back (R354). -/
def execHeadLineWrite (ctx : Nat) (s : State) : Host.Outcome State Fault Refusal :=
  s.run fun w => match w.rflow ctx with
    | none => w
    | some f => match w.rxOf f with
      | none => w
      | some x =>
        if x.mbq then w
        else if w.lineAway x.hline then w.recallAll [x.hline]
        else
          let h := (w.word x.hline).toNat
          if f.head ≤ h ∧ h ≤ f.tail then w.moveHead f h else w.modRflow ctx fun f => { f with bad := true }

/-- The oldest message of the ash pit moves into the ring, as room allows (R239), once its bytes are at hand. -/
def World.drainAsh (w : World) (ctx : Nat) : World :=
  match w.rflow ctx with
  | none => w
  | some f => match w.rxOf f, f.ash with
    | some x, m :: rest =>
      let off := m.off % x.ashSize
      let away := w.areaAway x.ash off m.size
      let h := w.pieceBytes x.ash off 16
      let len := leNat (h.take 8) % 2 ^ 17
      let n := up64 (16 + len)
      let free := x.size - (f.tail - f.head)
      let room := x.size - f.tail % x.size
      if w.flowCut f then w
      else if !away.isEmpty then w.recallAll away
      else if room < n then (if free < room then w else w.placeWrap f x)
      else if free < n || (m.bulk != 0 && decide (x.nb ≤ f.bulkEnds.length)) then w
      else
        let msg : DataMsg := ⟨ctx, f.tail, leWord (h.take 8), leWord (h.drop 8), w.pieceBytes x.ash (off + 16) len,
          w.pieceBytes x.ash (off + n) m.bulk, false, false, m.brel, w.pieceMarks x.ash (off + 16) len,
          w.pieceMarks x.ash (off + n) m.bulk⟩
        let w := w.placeRecord f x msg
        let aHead := match rest with | r :: _ => r.off | [] => f.aTail
        (w.modRflow ctx fun f => { f with ash := rest, aHead := aHead }).tellDrain f aHead (f.tail + n) (m.bulk != 0)
    | _, _ => w

/-- A stale flow's ash pit is refused instead (R242). -/
def World.ashStep (w : World) (ctx : Nat) : World := if w.ashFirst ctx then w.flushStale ctx else w.drainAsh ctx

def execAshDrain (ctx : Nat) (s : State) : Host.Outcome State Fault Refusal := s.run fun w => w.ashStep ctx

/-! ### Events at the sending side -/

/-- An accept reaches the sender: the result block is written, and the CHN_OPEN completes (R227); a flow that is gone is
closed again (R245). -/
def World.accepted (w : World) (m : AcceptMsg) : World :=
  match w.sflow m.ctx with
  | some f =>
    if f.st != .opening then w
    else
      let w := w.modSflow m.ctx fun f =>
        { f with
          st := .isOpen, peerDev := m.peerDev, peerNode := m.peerNode, peerCtx := m.peerCtx, maxmsg := m.maxmsg
          maxbulk := m.maxbulk, log2 := m.log2sz, mbq := m.mbq, ash := m.ash, nb := m.nb, cmd := none }
      match f.cmd with
      | some (r, i) => w.resume r i do
          writeV f.result (leBytes 8 m.ctx ++ leBytes 8 (m.maxmsg + m.maxbulk * 2 ^ 32) ++
            leBytes 8 (m.log2sz + m.mbq.toNat * 32))
          return .done stOk
      | none => w
  | none => match w.gflow m.ctx with
    | some g => w.guestAccept g.site m
    | none => (w.fabricSend none m.peerDev (.chnClose m.peerCtx stClosed)).2

def execChnAccept (m : AcceptMsg) (s : State) : Host.Outcome State Fault Refusal :=
  s.run fun w => w.onArrival (.chnAccept m) fun w => w.accepted m

/-- A refused OPEN: the context is free, and the CHN_OPEN completes with the reason (R228). -/
def World.refused (w : World) (ctx reason : Nat) : World :=
  match w.sflow ctx with
  | some f =>
    if f.st != .opening then w
    else
      let w := w.dropSflow ctx
      match f.cmd with
      | some (r, i) => w.resume r i (refuseOpen f.result reason)
      | none => w
  | none => match w.gflow ctx with
    | some g => w.guestTell g.site (.chnRefuse ctx reason)
    | none => w

def execChnRefuse (ctx reason : Nat) (s : State) : Host.Outcome State Fault Refusal :=
  s.run fun w => w.onArrival (.chnRefuse ctx reason) fun w => w.refused ctx reason

/-- No answer to an OPEN within STALL (R228). -/
def execOpenTimeout (ctx : Nat) (s : State) : Host.Outcome State Fault Refusal :=
  s.run fun w => match w.sflow ctx with
    | some f => if f.st == .opening then (w.at f.deadline).refused ctx 4 else w
    | none => w

/-- A credit reaches the sender (R235, R236). -/
def execChnCredit (ctx head : Nat) (s : State) : Host.Outcome State Fault Refusal :=
  s.run fun w => w.onArrival (.chnCredit ctx head) fun w =>
    match w.sflow ctx with
    | some f =>
      if f.st == .opening || decide (head ≤ f.head) then w
      else (w.modSflow ctx fun f =>
        { f with head := head, bulkEnds := f.bulkEnds.filter fun e => decide (head < e) }).retrySend ctx false
    | none => match w.gflow ctx with
      | some g => w.guestTell g.site (.chnCredit ctx head)
      | none => w

/-- A close from the peer, or its answer (R233, R242, R244, R245). -/
def World.closePkt (w : World) (ctx reason : Nat) : World :=
  match w.sflow ctx with
  | some f =>
    let w := (if reason = stOk ∨ reason = stMsgTooLong then (if f.st == .closing then w.endSend f stOk 0 else w)
     else w.endSend f reason 0).dropSflow ctx
    -- the receiving side keeps its context until it knows that no message is in flight (log entry 83)
    if reason = stNackStale then w.chnTo f.peerDev f.peerNode (.chnClose f.peerCtx reason) else w
  | none => match w.rflow ctx with
    | some f =>
      let w := w.dropRflow f reason
      if f.shut.isSome then w else
      if reason = stOk ∨ reason = stMsgTooLong then w.chnTo f.peerDev f.peerNode (.chnClose f.peerCtx reason) else w
    | none => match w.gflow ctx with
      | some g => w.guestTell g.site (.chnClose ctx reason)
      | none => w

def execChnClosePkt (ctx reason : Nat) (s : State) : Host.Outcome State Fault Refusal :=
  s.run fun w => w.onArrival (.chnClose ctx reason) fun w => w.closePkt ctx reason

/-- A waiting message has waited OVF_WAIT: it spills (R238). -/
def execAshSpill (ctx : Nat) (s : State) : Host.Outcome State Fault Refusal :=
  s.run fun w => match w.sflow ctx with
    | some f => if f.since.isSome && f.ash != 0 && f.spilled.isEmpty then (w.at f.ovfAt).retrySend ctx true else w
    | none => w

/-- The stall timer of a flow's oldest message reaches STALL: EV_CHN_STALL once for the message (R240). -/
def execChnStall (ctx : Nat) (s : State) : Host.Outcome State Fault Refusal :=
  s.run fun w =>
    let raise := fun (w : World) (page job mseq target : Nat) =>
      w.event page 0x0A 0 (detail (some job) (ctx * 2 ^ 8 + mseq % 2 ^ 32 * 2 ^ 32)) (BitVec.ofNat 64 target)
    match w.sflow ctx with
    | some f => match f.spilled with
      | m :: rest =>
        if m.stalled then w
        else raise ((w.at m.stallAt).modSflow ctx fun f => { f with spilled := { m with stalled := true } :: rest })
          (chnPage (f.stove / 32)) f.job m.mseq f.target
      | [] =>
        if f.since.isSome && !f.stalled then
          raise ((w.at f.stallAt).modSflow ctx fun f => { f with stalled := true }) (chnPage (f.stove / 32)) f.job f.mseq f.target
        else w
    | none => match w.gflow ctx with
      | some g =>
        if g.stalled then w
        else
          let mseq := match g.rctx.bind w.rflow with
            | some f => f.taken
            | none => 0
          raise (w.upd fun d => { d with chn := { d.chn with
            gflows := updFirst (fun x => x.ctx == ctx) (fun x => { x with stalled := true }) d.chn.gflows } })
            7 g.job mseq g.target
      | none => w

end Sys2Proof.Machine
end

