-- ==== Sys2Proof/Machine/Tick.lean ====
section
/-! DEFINITION. TIK: boundaries and draught (R194 to R201), stage groups and their schedule (R202 to R209), slip and abort
(R213 to R217), starting and stopping (R218, R381). -/

namespace Sys2Proof.Machine

def tikCtl : Nat := rk 1 0x080
def tikPeriodKey : Nat := rk 1 0x088
def tikSlewKey : Nat := rk 1 0x090
def tikSync : Nat := rk 1 0x0C0

def World.modTik (w : World) (f : Tik → Tik) : World := w.upd fun d => { d with tik := f d.tik }
def World.running (w : World) : Bool := bit (w.reg tikCtl) 0
def World.synced (w : World) : Bool := bit (w.reg tikCtl) 1
/-- TIK_SYNC_STS.STATE: 0 off, 1 waiting, 2 locked, 3 free-run. -/
def World.syncState (w : World) : Nat := w.rf tikSync 1 0
def World.setSync (w : World) (st : Nat) : World := w.setRf tikSync 1 0 st
def World.period (w : World) : Nat := w.rf tikPeriodKey 31 0
/-- The current tick number. -/
def World.tickNow (w : World) : Nat := w.rf (rk 1 0x0A0) 47 0
/-- The number of the next boundary's tick. -/
def World.tickNext (w : World) : Nat :=
  if w.dev.tik.bnd.isSome then (w.tickNow + 1) % 2 ^ 48 else w.dev.tik.load

/-- The tick that the present cycle belongs to: from the GTIME of a boundary on, the one that it begins (R15, R196). -/
def World.tickAt (w : World) : Nat :=
  match w.dev.tik.next with
  | some b => if w.running && decide (b ≤ w.dev.gtime) then w.tickNext else w.tickNow
  | none => w.tickNow

/-! ### Boundaries and draught -/

/-- Where the next boundary falls, once that can be told (R194, R199, R201). -/
def World.fixedAt (w : World) : Option Nat :=
  let t := w.dev.tik
  if !w.running then none
  else match t.bnd with
    | none => match t.armed with
      | some a => some (a + w.period)
      | none => if w.syncState = 1 then none
          else some (max (t.runAt + 8500) (match t.offAt with | some o => o + 4000 | none => 0))
    | some b =>
      match t.lock with
      | some a => if t.win then some (a + w.period) else some (b + w.period)
      | none => if t.win && !t.decided then none else some (b + w.period)

/-- TIK fixes the next boundary, and tells every die and the guests (R195, R406). -/
def World.announce (w : World) : World :=
  match w.dev.tik.next, w.fixedAt with
  | none, some b =>
    let w := w.modTik fun t =>
      { t with next := some b, nwin := w.synced && w.syncState == 2, nslew := w.rf tikSlewKey 31 0, dly := w.rf tikSlewKey 39 32 }
    [0, 1].foldl (fun w g => if w.guestUp g then
      w.sendGuest g { guestChn g 0x41 0 (BitVec.ofNat 64 b) (BitVec.ofNat 64 w.tickNext) [] with vc := 5, src := 0x2036 } else w) w
  | _, _ => w

def execBoundaryAnnounce (s : State) : Host.Outcome State Fault Refusal := s.run World.announce

/-- The signed offset of a target from the nearer boundary, the earlier on a tie (R199). -/
def nearest (t : Nat) : List Nat → Int
  | [] => 0
  | b :: bs => bs.foldl (fun d (c : Nat) => if ((t : Int) - c).natAbs < d.natAbs then (t : Int) - c else d) ((t : Int) - b)

/-- An external edge (R198 to R201). -/
def World.edge (w : World) (at' : Nat) : World :=
  if !w.running || !w.synced then w
  else
    let k := w.dev.tik
    let st := w.syncState
    if st = 1 then
      let t := at' + w.rf tikSlewKey 39 32
      if k.runAt + 8500 ≤ t then ((w.modTik fun k => { k with armed := some t }).setSync 2).setRf tikSync 4 2 0 else w
    else
      let t := at' + k.dly
      let nb := match k.next with | some b => some b | none => w.fixedAt
      let near := (match k.bnd with | some b => [b] | none => []) ++
        (match nb with | some b => [b] | none => match k.bnd with | some b => [b + w.period] | none => [])
      let w := w.setRf tikSync 63 32 ((nearest t near) % 2 ^ 32).toNat
      let inWin := fun (b : Option Nat) (s : Nat) => match b with
        | some b => decide (b ≤ t + s) && decide (t ≤ b + s)
        | none => false
      let stray := fun (w : World) => (w.count (rk 1 0x0C8) 63 32 1).modTik fun k => { k with strays := k.strays ++ [at'] }
      if st != 2 then stray w
      else if k.win && inWin k.bnd k.slew then
        if k.lock.isNone && !k.decided then (w.modTik fun k => { k with lock := some t, decided := true }).setRf tikSync 4 2 0
        else stray w
      else if (if k.next.isSome then k.nwin else true) && inWin nb (if k.next.isSome then k.nslew else w.rf tikSlewKey 31 0) then
        if k.early.isNone then (w.modTik fun k => { k with early := some t }).setRf tikSync 4 2 0 else stray w
      else stray w

def execDraughtSync (t : Nat) (s : State) : Host.Outcome State Fault Refusal := s.run fun w => (w.at t).edge t

/-- A window closes without an edge (R199, R200). -/
def World.slipWindow (w : World) : World :=
  let k := w.dev.tik
  match k.bnd with
  | some b =>
    if !w.running || !w.synced || w.syncState != 2 || !k.win || k.decided then w
    else
      let w := w.at (b + k.slew + 1)
      let strays := (k.strays.filter fun t => decide (k.prevClose ≤ t)).length
      let n := w.rf tikSync 4 2 + 1
      let w := ((w.count (rk 1 0x0C8) 31 0 1).setRf tikSync 4 2 n).modTik fun k =>
        { k with decided := true, prevClose := b + k.slew + 1, strays := [] }
      let w := w.event 1 0x08 0 (BitVec.ofNat 64 (strays * 2 ^ 32)) (BitVec.ofNat 64 w.tickNow)
      if 4 ≤ n then (w.event 1 0x09 0 0 (BitVec.ofNat 64 w.tickNow)).setSync 3 else w
  | none => w

def execSyncSlip (s : State) : Host.Outcome State Fault Refusal := s.run World.slipWindow

/-- Setting and clearing RUN (R194, R201). -/
def World.setRun1 (w : World) (on : Bool) : World :=
  let was := w.running
  let w := w.modReg tikCtl fun v => setBit v 0 on
  if on && !was then
    let w := w.modTik fun k =>
      { k with
        bnd := none, next := none, runAt := w.dev.gtime, offAt := none, armed := none, lock := none, early := none, win := false
        nwin := false, decided := false, strays := [], prevClose := 0, load := w.rf (rk 1 0x098) 47 0, dly := w.rf tikSlewKey 39 32 }
    (w.setSync (if w.synced then 1 else 0)).setRf tikSync 4 2 0
  else if !on && was then
    (w.modTik fun k => { k with next := none, armed := none, lock := none, early := none, win := false, nwin := false }).setSync 0
  else w

/-- Windows apply again, from the next boundary (R200). -/
def World.relockTik (w : World) (pending : Bool) : World :=
  ((w.setSync 2).setRf tikSync 4 2 0).modTik fun k => if pending && k.next.isSome then { k with nwin := true } else k

/-- Setting and clearing SYNC_EN (R200, R201). -/
def World.setSyncEn (w : World) (on : Bool) : World :=
  let was := w.synced
  let w := w.modReg tikCtl fun v => setBit v 1 on
  if !w.running || on == was then w
  else if on then w.relockTik false
  else
    let w := w.modTik fun k =>
      { k with
        offAt := if w.syncState = 1 then some w.dev.gtime else k.offAt
        win := false, nwin := false, lock := none, early := none }
    (w.setSync 0).setRf tikSync 4 2 0

/-- A write of TIK_CTL. -/
def World.tikCtlWrite (w : World) (writer : Nat) (v : U64) : World :=
  w.owned writer 1 0x080 v fun w =>
    let w := w.setSyncEn (bit v 1)
    let w := w.setRun1 (bit v 0)
    if bit v 2 && w.running && w.syncState == 3 then w.relockTik true else w

def execRun (port : Nat) (on : Bool) (s : State) : Host.Outcome State Fault Refusal :=
  s.port port 1 0x080 (setBit (s.toWorld.reg tikCtl) 0 on) fun w => w.tikCtlWrite port (setBit (w.reg tikCtl) 0 on)

def execSyncEn (port : Nat) (on : Bool) (s : State) : Host.Outcome State Fault Refusal :=
  s.port port 1 0x080 (setBit (s.toWorld.reg tikCtl) 1 on) fun w => w.tikCtlWrite port (setBit (w.reg tikCtl) 1 on)

def execRelock (port : Nat) (s : State) : Host.Outcome State Fault Refusal :=
  s.port port 1 0x080 (setBit (s.toWorld.reg tikCtl) 2 true) fun w => w.tikCtlWrite port (setBit (w.reg tikCtl) 2 true)

/-- SLEW within its limit, DLY at least 8 (R198, R221). -/
def World.slewWrite (w : World) (v : U64) : World :=
  w.setReg tikSlewKey (BitVec.ofNat 64 (min (fld v 31 0) (w.period / 16) + max 8 (fld v 39 32) * 2 ^ 32))

/-- A write of TIK_PERIOD (R194, R198). -/
def World.periodWrite (w : World) (v : U64) : World :=
  let w := w.setReg tikPeriodKey (BitVec.ofNat 64 (max 8500 (fld v 31 0)))
  w.slewWrite (w.reg tikSlewKey)

def execTikPeriod (port : Nat) (v : U64) (s : State) : Host.Outcome State Fault Refusal :=
  s.port port 1 0x088 v fun w => w.owned port 1 0x088 v fun w => w.periodWrite v

def execTikSlew (port : Nat) (v : U64) (s : State) : Host.Outcome State Fault Refusal :=
  s.port port 1 0x090 v fun w => w.owned port 1 0x090 v fun w => w.slewWrite v

/-! ### Stage groups -/

def World.grp (w : World) (g : Nat) : Option Group := w.dev.bound.find? fun x => x.num == g
def World.modGroup (w : World) (g : Nat) (f : Group → Group) : World :=
  w.upd fun d => { d with bound := updFirst (fun x => x.num == g) f d.bound }
/-- The bound groups of a job. -/
def World.groupsOf (w : World) (j : Nat) : List Group := w.dev.bound.filter fun g => g.job == j

/-- The fields of a schedule table entry (R203). -/
def slotOp (e : U64 × U64) : Nat := fld e.1 2 0
def slotEnd (e : U64 × U64) : Bool := bit e.1 3
def slotSoff (e : U64 × U64) : Nat := fld e.1 5 4
def slotMbid (e : U64 × U64) : Nat := fld e.1 15 6
def slotCount (e : U64 × U64) : Nat := fld e.1 31 16
def slotList (e : U64 × U64) : Nat := fld e.2 47 0
/-- An entry that BIND accepts (R205). -/
def slotOk (e : U64 × U64) : Bool :=
  decide (slotOp e ≤ 5) && fld e.1 63 32 == 0 && fld e.2 63 48 == 0 && (slotOp e != 0 || slotCount e == 0) && slotList e % 64 == 0
/-- F and BI take an entry of the micro-batch queue, forward and backward (R203). -/
def takesEntry (op : Nat) : Option Nat := if op = 1 then some 0 else if op = 2 then some 1 else none

/-- The member stoves of a group descriptor, in increasing number (R202). -/
def membersOf (ws : List U64) : List Nat := (List.range 256).filter fun s => bit (ws.getD (4 + s / 64) 0) (s % 64)

/-- Run a computation; a translation fault in it is an answer, and changes nothing. -/
def tryXlt (a : Act α) : Act (Except Nat α) := fun r =>
  match a.run r with
  | .ok (v, r) => .ok (.ok v, r)
  | .error (.xlt va) => .ok (.error va, r)
  | .error e => .error e

/-- Read a schedule table block by block: the entries of each block, or where its translation faults (R205). -/
def readTable (a n : Nat) : Act (List (Except Nat (List (U64 × U64)))) :=
  (List.range (ceilDiv n 256)).mapM fun b => do
    let vs ← tryXlt (readWords (a + 4096 * b) (2 * min 256 (n - 256 * b)))
    return vs.map fun ws => (chunks 2 ws).map fun c => (c.getD 0 0, c.getD 1 0)

/-- Whether the blocks read set STEP_END where a bound group's table does (R204). -/
def sameEnds (o : List (U64 × U64)) (t : List (Except Nat (List (U64 × U64)))) : Bool :=
  ((chunks 256 o).zip t).all fun b => match b.2 with
    | .ok es => es.map slotEnd == b.1.map slotEnd
    | .error _ => true

/-- BIND (R205); a port to which the group's job is not assignable is refused once the descriptor names it (R448). -/
def bindGroup (writer g : Nat) : Act Nat := do
  let w := (← get).w
  let a := w.rf (rk 1 0x0D8) 47 6 * 64 + g * 64
  need (w.inHbm a 64) stOperand
  let ws ← opWords a 8
  let w0 := ws.getD 0 0
  let w2 := ws.getD 2 0
  let job := fld w0 5 0
  let n := fld w0 23 10 + 1
  modify fun r => { r with ag := { r.ag with job := some job } }
  let mine := 4 ≤ writer || w.assignable job writer
  let table ← if (w.job job).isSome && mine then readTable (fld (ws.getD 1 0) 47 0) n else pure []
  if !mine then
    actW fun w => w.deny writer 1 0x0E0
    return stJob
  need ((w.job job).isSome && (w.grp g).isNone) stJob
  let ms := membersOf ws
  need (bit w0 6 && zeroBits w0 [(63, 29)] && zeroBits (ws.getD 1 0) [(63, 48)] && zeroBits w2 [(31, 22)] && ws.getD 3 0 == 0 &&
    !ms.isEmpty && fld w0 27 24 != 0 && fld w2 21 0 % 32 == 0 && fld w2 63 32 % 64 == 0 && fld (ws.getD 1 0) 47 0 % 4096 == 0) stOperand
  let ring := fld w0 8 7
  need (ms.all fun s =>
    let r : RingId := ⟨0x1000 + s, ring⟩
    !w.isBound r && bit (w.reg (rgk r 0)) 0 && w.assignable job (w.ringPort r)) stOperand
  let t := (table.map fun b => match b with | .ok es => es | .error _ => []).flatten
  need (t.all slotOk) stOperand
  need ((w.groupsOf job).all fun o => o.table.length == n && sameEnds o.table table) stOperand
  match table.findSome? fun b => match b with | .ok _ => none | .error va => some va with
  | some va => throw (.xlt va)
  | none =>
    need (t.any slotEnd) stOperand
    actW fun w => w.upd fun d => { d with bound := d.bound ++ [{
      num := g, job := job, ring := ring, lag1 := bit w0 9, slipLimit := fld w0 27 24, abort := bit w0 28, table := t
      inoff := fld w2 21 0, lstride := fld w2 63 32, members := ms.map fun s => ⟨s, [], []⟩, ptr := 0, fresh := true, slip := 0
      fault := false, pastLimit := false }] }
    return stOk

/-! ### Release queues (R208, R209, R217) -/

/-- Slots at the front of a member's queue that have completed leave it, with their release ticks and latest T_ENDs; the next may be
read 40 cc later (R208). -/
def settleQueue (now : Nat) (gone : Bool) : List RelSlot → List RelSlot × List (Nat × Nat)
  | [] => ([], [])
  | q :: qs =>
    if (q.count = 0 && (takesEntry q.op).isNone) || (q.fed && q.recs == q.count) then
      let x := settleQueue now true qs
      (x.1, (q.tick, q.tEnd) :: x.2)
    else ((if gone then { q with ready := max q.ready (now + 40) } else q) :: qs, [])

def Member.settle (m : Member) (now : Nat) : Member :=
  let x := settleQueue now false m.queue
  { m with queue := x.1, left := m.left ++ x.2 }

/-- Whether an entry is the one a slot takes (R212). -/
def matchesSlot (q : RelSlot) (e : MbEntry) : Bool :=
  some e.stamp.dir == takesEntry q.op && e.stamp.mbid == q.mbid && e.stamp.step == q.step

def World.modMember (w : World) (g stove : Nat) (f : Member → Member) : World :=
  w.modGroup g fun x => { x with members := updFirst (fun m => m.stove == stove) f x.members }

/-- Slots that have completed leave a member's queue. -/
def World.settleMember (w : World) (g stove : Nat) : World :=
  w.modMember g stove fun m => m.settle w.dev.gtime

/-- The stamp that a released command carries (R209): an F or BI slot's entry names the version, other slots their step. -/
def World.slotStamp (w : World) (g : Group) (q : RelSlot) : Stamp :=
  let ver := match (if (takesEntry q.op).isSome then (w.mbqOf g.num).find? (matchesSlot q) else none) with
    | some e => e.stamp.ver
    | none => (q.step + 2 ^ 16 - g.lag1.toNat) % 2 ^ 16
  ⟨q.mbid, (takesEntry q.op).getD 0, q.step, ver⟩

/-- The agent that reads a ring's slots and lines. -/
def ringAgent (r : RingId) : Agent :=
  { page := r.page, dbg := dbgPage r.page, node := engineNode r.page r.n, stove := ringStove r }

/-- A released command as it executes (R209): STEP of its slot, and the version a checked MOVE expects. -/
def releasedDesc (d : Desc) (st : Stamp) : Desc :=
  let d := { d with w1 := setFld d.w1 63 32 st.step }
  if opcodeOf d = 0x20 ∧ bit d.w5 30 then { d with w5 := setFld d.w5 15 0 st.ver } else d

/-- Read the next command of the list released to a bound ring (R206, R208, R209, R217). -/
def World.fetchReleased (w : World) (r : RingId) (g : Group) (m : Member) : World :=
  let owed := (m.queue.map fun q => q.count - q.read).foldl (· + ·) 0
  if w.overrun r ((w.ringHead r + owed) % 2 ^ 32) then w.haltRing r 1 false
  else match m.queue.find? fun q => decide (q.read < q.count) with
    | none => w
    | some q =>
      if !q.fed then w
      else
        let ag := { ringAgent r with job := some g.job }
        match (readV (q.list + 64 * q.read) 64).run (Run.init w ag) with
        | .ok ((_, _ :: _), x) => x.w.haltRing r 2 false
        | .error (.poison p) => (w.metPoison ag p).haltRing r 2 false
        | .error (.xlt va) => (w.xltEvent ag va).2.haltRing r 3 false
        | .error s => w.ask ag s
        | .ok ((bs, []), x) =>
          let st := w.slotStamp g q
          let d := descOf bs
          let w := (x.w.readCmd r (releasedDesc d st) (some st)).modMember g.num m.stove fun m =>
            { m with queue := updFirst (fun q => decide (q.read < q.count)) (fun q => { q with read := q.read + 1 }) m.queue }
          match (w.ringRun r).entries.getLast? with
          | none => w
          | some e =>
            if (match w.job g.job with | some j => j.aborted | none => true) then w.endUnrun r e stOverrun
            else if jobOf d ≠ g.job then w.endUnrun r e stJob
            else w

/-- The STOP that a register write waits for completes with a status (R218). -/
def World.stopStatus (w : World) (j status : Nat) : World :=
  if w.opBusy (rk 1 0x0F8) && w.rf (rk 1 0x0F8) 21 16 == j then w.opDone (rk 1 0x0F8) status 21 j else w

/-- Raise EV_TICK_OVERRUN for a group (R444). -/
def World.overrunEvent (w : World) (g : Group) (slip qual tick : Nat) : World :=
  w.event 1 0x07 qual (detail (some g.job) (g.num * 2 ^ 8 + min slip 15 * 2 ^ 16)) (BitVec.ofNat 64 tick)

/-- The commands released to a member and not read that an abort ends are read for their records (R144, R217), as far as memory
answers. -/
def World.abortMember (w : World) (r : RingId) : Nat → World
  | 0 => w
  | n + 1 => match w.ringGroup r with
    | none => w
    | some (g, m) =>
      let w' := if w.ringErr r = 0 then w.fetchReleased r g m else w
      if w'.ringHead r = w.ringHead r then w' else w'.abortMember r n

/-- Commands released to a bound ring and not read. -/
def Member.owed (m : Member) : Nat := (m.queue.map fun q => q.count - q.read).foldl (· + ·) 0

/-- Every slot of a member may be read at once (R217). -/
def Member.openAll (m : Member) (now : Nat) : Member :=
  let q := m.queue.map fun q => { q with fed := true, ready := now }
  Member.settle { m with queue := q } now

/-- A slot is released to a member (R207). -/
def Member.take (m : Member) (q : RelSlot) (now : Nat) : Member := Member.settle { m with queue := m.queue ++ [q] } now

/-- On every member of every group of an aborted job, commands read or released that have not started complete with OVERRUN_ABORT
(R217). -/
def World.abortUnstarted (w : World) (job : Nat) : World :=
  (w.groupsOf job).foldl (fun w o =>
    let w := w.modGroup o.num fun o => { o with members := o.members.map fun m => m.openAll w.dev.gtime }
    o.members.foldl (fun w m =>
      let r : RingId := ⟨0x1000 + m.stove, o.ring⟩
      (((w.ringRun r).entries.filter fun e => e.unstarted && e.stamp.isSome).foldl (fun w e => w.endUnrun r e stOverrun) w).abortMember r
        m.owed) w) w

/-- Abort the step of a job (R217). -/
def World.abortStep (w : World) (g : Group) (tick : Nat) : World :=
  match w.job g.job with
  | none => w
  | some j =>
    if j.aborted then w
    else
      let w := w.modJob g.job fun x => { x with aborted := true, running := false, start := none, stopX := none, stopEnding := false }
      let w := (w.overrunEvent g g.slip 2 tick).abortUnstarted g.job
      if j.stopX.isSome || j.stopEnding then w.stopStatus g.job stJob else w

/-- Unbind a group: its rings are their own again (R205, R124). -/
def World.unbindGroup (w : World) (g : Nat) : World :=
  match w.grp g with
  | none => w
  | some x =>
    let w := w.upd fun d => { d with bound := d.bound.filter fun y => y.num ≠ g }
    x.members.foldl (fun w m =>
      let r : RingId := ⟨0x1000 + m.stove, x.ring⟩
      w.modRing r fun rr => { rr with tail := w.ringHead r }) w

/-- Whether a group of an aborted job still has commands released and not read, on rings that may read them (R217). -/
def World.abortOwed (w : World) (g : Nat) : Bool :=
  match w.grp g with
  | some x => (w.job x.job).any Job.aborted && x.members.any fun m => m.owed != 0 && w.ringErr ⟨0x1000 + m.stove, x.ring⟩ == 0
  | none => false

/-- A write of TIK_GRP_CMD (R205, R221, R448); the commands of an aborted job's group complete before it is unbound (R217). -/
def World.grpCmd (w : World) (writer : Nat) (v : U64) : World :=
  let g := fld v 7 0
  let op := fld v 9 8
  let fin := fun st (w : World) => w.opDone (rk 1 0x0E8) st 23 g
  if op = 1 then
    w.opRun (mantel 1) (rk 1 0x0E8) writer 1 0x0E0 v (bindGroup writer g) fin
  else if op = 2 then
    match w.grp g with
    | none => fin stJob w
    | some x =>
      match w.laterDeny writer 1 0x0E0 x.job with
      | some w => fin stJob w
      | none =>
        if (w.job x.job).any Job.running then fin stOperand w
        else
          let w := if (w.job x.job).any Job.aborted then w.abortUnstarted x.job else w
          w.opRun (mantel 1) (rk 1 0x0E8) writer 1 0x0E0 v (do
            if (← get).w.abortOwed g then throw .hold
            return stOk) fun st w => fin st (w.unbindGroup g)
  else w

def World.grpWrite (w : World) (writer : Nat) (v : U64) : World :=
  w.command writer 1 0x0E0 v (w.opBusy (rk 1 0x0E8)) fun w => w.grpCmd writer v

def execBind (port group : Nat) (s : State) : Host.Outcome State Fault Refusal :=
  s.port port 1 0x0E0 (BitVec.ofNat 64 (group % 256 + 0x100)) fun w =>
    w.grpWrite port (BitVec.ofNat 64 (group % 256 + 0x100))

def execUnbind (port group : Nat) (s : State) : Host.Outcome State Fault Refusal :=
  s.port port 1 0x0E0 (BitVec.ofNat 64 (group % 256 + 0x200)) fun w =>
    w.grpWrite port (BitVec.ofNat 64 (group % 256 + 0x200))

/-! ### Starting and stopping (R218) -/

/-- A write of TIK_JOB_CMD. -/
def World.tikJobCmd (w : World) (v : U64) : World :=
  let j := fld v 5 0
  let arg := fld v 55 8
  let fin := fun (w : World) st => w.opDone (rk 1 0x0F8) st 21 j
  match w.job j with
  | none => if fld v 7 6 = 1 ∨ fld v 7 6 = 2 then fin w stJob else w
  | some job =>
    if fld v 7 6 = 1 then
      if (w.groupsOf j).isEmpty || job.running || job.start.isSome || job.aborted then fin w stJob
      else if w.dev.tik.bnd.isSome && decide (arg ≤ w.tickNow) then fin w stOperand
      else fin (w.modJob j fun x => { x with start := some arg }) stOk
    else if fld v 7 6 = 2 then
      if job.aborted || !(job.running || job.start.isSome) then fin w stJob
      else if 2 ^ 32 ≤ arg then fin w stOperand
      else
        let w := w.modJob j fun x => { x with stopX := if x.stopX.isSome then x.stopX else some arg }
        w.modReg (rk 1 0x0F8) fun x => setFld (setBit x 0 false) 21 16 j
    else w

def World.tikJobWrite (w : World) (writer : Nat) (v : U64) : World :=
  w.command writer 1 0x0F0 v (w.opBusy (rk 1 0x0F8)) fun w => w.tikJobCmd v

def execStart (port job tick : Nat) (s : State) : Host.Outcome State Fault Refusal :=
  s.port port 1 0x0F0 (BitVec.ofNat 64 (job % 64 + 0x40 + tick % 2 ^ 48 * 2 ^ 8)) fun w =>
    w.tikJobWrite port (BitVec.ofNat 64 (job % 64 + 0x40 + tick % 2 ^ 48 * 2 ^ 8))

def execStop (port job step : Nat) (s : State) : Host.Outcome State Fault Refusal :=
  s.port port 1 0x0F0 (BitVec.ofNat 64 (job % 64 + 0x80 + step % 2 ^ 48 * 2 ^ 8)) fun w =>
    w.tikJobWrite port (BitVec.ofNat 64 (job % 64 + 0x80 + step % 2 ^ 48 * 2 ^ 8))

/-- The stop boundary has passed and every released command has completed (R218, R381). -/
def World.stopDone (w : World) (j : Nat) : World :=
  match w.job j with
  | none => w
  | some job =>
    if !job.stopEnding || !(w.groupsOf j).all (fun g => g.members.all fun m => m.queue.isEmpty) then w
    else (w.modJob j fun x => { x with stopEnding := false }).stopStatus j stOk

/-! ### Release (R207 to R209) -/

/-- The signed difference of two step numbers modulo 2^32. -/
def stepDiff (a b : Nat) : Int := signedOf 32 ((a + 2 ^ 32 - b % 2 ^ 32) % 2 ^ 32)

/-- Release the slot at a group's pointer to its members (R207), unless its step lies outside the run. -/
def World.releaseSlot (w : World) (j : Job) (g : Group) (tick : Nat) : World :=
  let e := g.table.getD g.ptr (0, 0)
  let s := (j.step + 2 ^ 32 - slotSoff e) % 2 ^ 32
  let late := match j.stopX with | some x => decide (0 < stepDiff s x) | none => false
  if stepDiff s j.step0 < 0 || late then w
  else if g.members.any fun m => decide (16 ≤ m.queue.length) then w.abortStep g tick
  else
    let slot := fun (k : Nat) => (⟨tick, s, slotOp e, slotMbid e, slotCount e, slotList e + k * g.lstride, 0, 0, w.dev.gtime + 40, false,
      0⟩ : RelSlot)
    w.modGroup g.num fun g => { g with members := g.members.zipIdx.map fun m => m.1.take (slot m.2) w.dev.gtime }

/-- A job's step counter takes a new value at a step boundary: the tick is noted, and the bank of step s − 2 is to be zeroed
(R207, R257, R83). -/
def World.beginStep (w : World) (j s tick : Nat) : World :=
  let w := w.modJob j fun x =>
    { x with
      step := s
      lastTicks := ((s, tick) :: x.lastTicks.filter fun p => p.1 ≠ s).take 4
      zeroWait := x.zeroWait ++ [s]
      evaluated := x.evaluated.filter (· ≠ s) }
  w.modTik fun k => { k with stepped := k.stepped ++ [j] }

/-- Slip of a member at the boundary that begins a tick and fell at GTIME b: what completed in that cycle or later had not completed
(R196, R214). -/
def Member.slip (m : Member) (tick b : Nat) : Nat :=
  ((m.queue.take 1).map RelSlot.tick ++ (m.left.filter fun x => decide (b ≤ x.2)).map Prod.fst).foldl
    (fun a t => max a ((tick + 2 ^ 48 - t) % 2 ^ 48)) 0

/-- Slip of a group at the boundary that begins a tick (R214, R215). -/
def World.checkSlip (w : World) (g : Group) (tick b : Nat) : World :=
  let slip := (g.members.map fun m => m.slip tick b).foldl max 0
  let w := w.modGroup g.num fun x =>
    { x with
      slip := slip, pastLimit := x.pastLimit && slip != 0
      members := x.members.map fun m => { m with left := m.left.filter fun x => decide (b ≤ x.2) } }
  if slip = 0 then w
  else
    let w := w.count (rk 1 0x0D0) 63 0 1
    if g.slip = 0 then w.overrunEvent g slip 0 tick else w

/-- Release the slots at the pointers of a job's groups. -/
def World.releaseAll (w : World) (num tick : Nat) : World :=
  (w.groupsOf num).foldl (fun w g => match w.job num with
    | some j => if j.aborted then w else w.releaseSlot j g tick
    | none => w) w

/-- A START whose tick comes with no group bound starts nothing; a STOP that was to follow it finds no schedule (R218; DESIGN
CHOICE, log entry 84). -/
def World.startLost (w : World) (num : Nat) : World :=
  let w := w.modJob num fun x => { x with start := none }
  if (w.job num).any fun j => j.stopX.isSome then (w.modJob num fun x => { x with stopX := none }).stopStatus num stJob else w

/-- What a boundary does for one job's schedule (R207, R218); a stopped job's step counter is X + 1 (R381). -/
def World.jobBoundary (w : World) (num tick : Nat) : World :=
  match w.job num with
  | none => w
  | some j =>
    let gs := w.groupsOf num
    if j.aborted then w
    else if j.start = some tick then
      if gs.isEmpty then w.startLost num
      else
        let w := w.modJob num fun x => { x with start := none, running := true, step0 := x.step }
        let w := w.beginStep num j.step tick
        (gs.foldl (fun w g => w.modGroup g.num fun g => { g with ptr := 0, fresh := false }) w).releaseAll num tick
    else if !j.running then w
    else
      let ended := gs.any fun g => slotEnd (g.table.getD g.ptr (0, 0))
      let new := (j.step + 1) % 2 ^ 32
      match (if ended then j.stopX.filter fun x => decide (0 ≤ stepDiff new ((x + 2) % 2 ^ 32)) else none) with
      | some x => w.modJob num fun j =>
          { j with running := false, stopEnding := true, stopX := none, stopB := (tick, w.dev.gtime), step := (x + 1) % 2 ^ 32 }
      | none =>
        let w := if ended then w.beginStep num new tick else w
        (gs.foldl (fun w g => w.modGroup g.num fun g => { g with ptr := (g.ptr + 1) % max 1 g.table.length }) w).releaseAll num tick

/-- TIK stops the jobs of SNP_HALT_JOBS at a halt boundary: X is each job's step in the tick before, `stepped` those that
this boundary has already moved on (R381). -/
def World.haltStops (w : World) (stepped : List Nat) : World :=
  let w := w.setRf (rk 2 0x0F8) 3 3 0
  let w := w.upd fun d => { d with snp := { d.snp with halt := none } }
  let jobs := w.reg (rk 2 0x158)
  (w.dev.jobs.filter fun j => bit jobs j.num && j.running).foldl (fun w j =>
    let x := if stepped.contains j.num && j.step != j.step0 then (j.step + 2 ^ 32 - 1) % 2 ^ 32 else j.step
    let w := w.modJob j.num fun y => { y with stopX := some (y.stopX.getD x) }
    if w.rf (rk 2 0x080) 15 10 = j.num then w.upd fun d => { d with snp := { d.snp with haltStop := true } } else w) w

/-- A boundary falls (R194, R207); a halt boundary stops its jobs first (R381); then the slip of every bound group is taken (R214). -/
def World.boundary (w : World) : World :=
  let k := w.dev.tik
  match k.next with
  | none => w
  | some b =>
    if !w.running then w
    else
      let w := w.at b
      let tick := w.tickNext
      let w := w.modTik fun k =>
        { k with
          bnd := some b, next := none, win := k.nwin, slew := k.nslew, lock := k.early, early := none, decided := k.early.isSome
          prevClose := match k.bnd with | some o => if k.win then max k.prevClose (o + k.slew + 1) else k.prevClose | none => k.prevClose
          stepped := [] }
      let w := (w.setReg (rk 1 0x0A0) (BitVec.ofNat 64 tick)).setReg (rk 1 0x0B0) (BitVec.ofNat 64 b)
      let w := match w.dev.snp.halt with
        | some h => if h ≤ tick then w.haltStops [] else w
        | none => w
      let w := (w.dev.jobs.map Job.num).foldl (fun w j => w.jobBoundary j tick) w
      w.dev.bound.foldl (fun w g => w.checkSlip g tick b) w

def execTickBoundary (s : State) : Host.Outcome State Fault Refusal := s.run World.boundary

/-- A group's slip first exceeds SLIP_LIMIT (R216). -/
def World.slipFault (w : World) (g : Nat) : World :=
  match w.grp g with
  | none => w
  | some x =>
    if x.slip ≤ x.slipLimit || x.pastLimit then w
    else
      let w := w.modGroup g fun y => { y with pastLimit := true, fault := true }
      let w := w.overrunEvent x x.slip 1 w.tickNow
      if x.abort then w.abortStep x w.tickNow else w

def execSlipLimitFault (group : Nat) (s : State) : Host.Outcome State Fault Refusal := s.run fun w => w.slipFault group

/-! ### The micro-batch queue (R212) -/

/-- A member starts the slot at the front of its queue: an F or BI slot needs its entry, whose descriptor is written to INOFF
first; no command is read before the slot's time (R208, R212). -/
def World.startSlot (w : World) (g stove : Nat) : World :=
  match w.grp g with
  | none => w
  | some x => match x.members.find? fun m => m.stove == stove with
    | none => w
    | some m => match m.queue with
      | [] => w
      | q :: _ =>
        if q.fed then w
        else
          let start := fun (w : World) =>
            ((w.at q.ready).modMember g stove fun m => { m with queue := match m.queue with
              | q :: qs => { q with fed := true } :: qs
              | [] => [] }).settleMember g stove
          if (takesEntry q.op).isNone then start w
          else match (w.mbqOf g).find? (matchesSlot q) with
            | none => w
            | some e =>
              let w := w.setMbq g (updFirst (matchesSlot q) (fun e => { e with used := true }) (w.mbqOf g))
              start (w.store (mantel 1) (spAddr stove + x.inoff) (e.desc.flatMap wordBytes))

def execSlotStart (group stove : Nat) (s : State) : Host.Outcome State Fault Refusal := s.run fun w => w.startSlot group stove

/-- The oldest entry whose slot has completed on every member leaves the queue (R212). -/
def World.retireEntry (w : World) (g : Nat) : World :=
  match w.grp g with
  | none => w
  | some x =>
    match (w.mbqOf g).find? fun e => e.used && x.members.all fun m => m.queue.all fun q => !matchesSlot q e with
    | none => w
    | some e => (w.setMbq g ((w.mbqOf g).erase e)).mbqLeft g e

def execMbqEntryRetire (group : Nat) (s : State) : Host.Outcome State Fault Refusal := s.run fun w => w.retireEntry group

/-- A record of a bound ring's command has been written: its slot may have completed (R208). -/
def World.slotRecord (w : World) (r : RingId) (e : Entry) : World :=
  match ringStove r, e.stamp with
  | some stove, some _ =>
    match w.dev.bound.find? fun g => g.ring == r.n && g.members.any (fun m => m.stove == stove) with
    | none => w
    | some g => (w.modMember g.num stove fun m => { m with queue := match m.queue with
        | q :: qs => { q with recs := q.recs + 1, tEnd := max q.tEnd e.tEnd } :: qs
        | [] => [] }).settleMember g.num stove
  | _, _ => w

end Sys2Proof.Machine
end

