-- ==== Sys2Proof/Machine/Update.lean ====
section
/-! DEFINITION. The update rule (R174 to R176) as the Bellows and the Hob apply it, and the Hob's optimizer operations
OPT_SLICE, OPT_COMMIT and OPT_OPEN (R185). -/

namespace Sys2Proof.Machine

/-- The values of an update parameter block (R174). -/
structure UpdParams where
  b1 : Val
  b2 : Val
  eps : Val
  lrc1 : Val
  c2 : Val
  lrwd : Val
  gscale : Val
  deriving DecidableEq, Repr

/-- The binary32 codes of a block's four words. -/
def paramCodes (ws : List U64) : List Nat := ws.flatMap fun w => [fld w 31 0, fld w 63 32]

/-- A block without NaN, Inf, subnormal or non-zero reserved word (R174). -/
def paramsOk (ws : List U64) : Bool :=
  let cs := paramCodes ws
  cs.length == 8 && cs.getD 7 0 == 0 &&
  (cs.take 7).all fun c => bits c 30 23 != 255 && (bits c 30 23 != 0 || bits c 22 0 == 0)

def paramsOf (ws : List U64) : UpdParams :=
  let v := fun i => f32Val ((paramCodes ws).getD i 0)
  ⟨v 0, v 1, v 2, v 3, v 4, v 5, v 6⟩

/-- update_element of R175, on binary32 inputs: new master, first moment and root. -/
def updateElement (P : UpdParams) (gc w m r : Val) : Val × Val × Val :=
  let one := Val.ofNat 1
  let g := hmul gc P.gscale
  let mn := hfma P.b1 m (hmul (hsub one P.b1) g)
  let g2 := hmul (hmul (hsub one P.b2) g) g
  let vn := hfma P.b2 (hmul r r) g2
  let rn := hobSqrt vn
  let den := hfma rn P.c2 P.eps
  let wn := hsub (hsub w (hdiv (hmul mn P.lrc1) den)) (hmul P.lrwd w)
  (wn, mn, rn)

/-- The form of masters: L16, unscaled, written with SR (R172, R176). -/
def masterRecipe : Recipe := { recipeOf 0 0 with fmt := .l16, sf := .none, sr := true }

/-- Where a slice lies in a tensor that holds it: the tensor, its recipe and the row and column of the slice's first
element. -/
structure Spot where
  t : Tensor
  r : Recipe
  i : Nat
  c : Nat
  deriving DecidableEq, Repr

/-- One slice of a region: its extents, the index of its first element in K × N, and N. -/
structure SliceAt where
  kk : Nat
  nn : Nat
  k0 : Nat
  n0 : Nat
  n : Nat
  deriving DecidableEq, Repr

def Region.sliceAt (r : Region) (sl : Nat) : SliceAt :=
  let i := sl / r.nblk
  let j := sl % r.nblk
  ⟨min 128 (r.k - 128 * i), min 128 (r.n - 128 * j), 128 * i, 128 * j, r.n⟩

/-- Read the elements of a slice in a K × N tensor, counted. -/
def Spot.read (p : Spot) (s : SliceAt) : Act (List (List Elem)) := do
  let es ← readRect p.t p.r p.i s.kk p.c s.nn
  countReads es.flatten
  return es

/-- Ember index of the element at (row, column) of a spot's tensor, in K × N (R176); `t` for order B. -/
def Spot.ix (p : Spot) (s : SliceAt) (b : Bool) (i c : Nat) : Nat :=
  if b then (s.k0 + (c - p.c)) * s.n + s.n0 + (i - p.i) else (s.k0 + (i - p.i)) * s.n + s.n0 + (c - p.c)

/-- Apply the update to a slice's masters and moments (R175, R176); each result is poisoned when an element it is computed from
is (R118, R183). `grad` holds the gradient's elements. -/
def updateSlice (step : Nat) (P : UpdParams) (s : SliceAt) (master m1 m2 : Spot) (grad : List (List Elem)) : Act Unit := do
  let ws ← master.read s
  let ms ← m1.read s
  let rs ← m2.read s
  countReads grad.flatten
  let out := (List.range s.kk).map fun i => (List.range s.nn).map fun j =>
    let e := fun (m : List (List Elem)) => (m.getD i []).getD j default
    let g := e grad
    let x := updateElement P (hin g) (hin (e ws)) (hin (e ms)) (hin (e rs))
    (x, g.p || (e ws).p || (e ms).p || (e rs).p, g.p || (e ms).p, g.p || (e rs).p)
  let pick := fun (f : (Val × Val × Val) × Bool × Bool × Bool → Val × Bool) =>
    out.map fun row => row.map fun x => ({ v := (f x).1, p := (f x).2 } : OutEl)
  writeRectAs step master.t master.r 0xF (master.ix s false) master.i master.c (pick fun x => (x.1.1, x.2.1))
  writeRectAs step m1.t m1.r 5 (m1.ix s false) m1.i m1.c (pick fun x => (x.1.2.1, x.2.2.1))
  writeRectAs step m2.t m2.r 6 (m2.ix s false) m2.i m2.c (pick fun x => (x.1.2.2, x.2.2.2))

/-- The kind under which an order is encoded: WEIGHT_A or WEIGHT_B (R176), or ADAPTER for a descriptor of that kind (R166). -/
def orderKind (t : Tensor) (k : Nat) : Nat := if t.kind = 9 then 9 else k

/-- Encode both orders of a slice from its stored masters (R166, R176). -/
def writeOrders (step : Nat) (s : SliceAt) (master a b : Spot) : Act Unit := do
  let ws ← master.read s
  let els := ws.map fun row => row.map fun e => ({ v := e.val, p := e.p } : OutEl)
  writeRectAs step a.t a.r (orderKind a.t 0) (a.ix s false) a.i a.c els
  let elsB := (List.range s.nn).map fun j => els.map fun row => row.getD j { v := .zero false }
  writeRectAs step b.t b.r (orderKind b.t 1) (b.ix s true) b.i b.c elsB

/-! ### STREAMS mode (R185) -/

/-- Whether a slice's tensor in a scratchpad holds it: shape and rules of R95. -/
def spotOk (p : Spot) (rows cols : Nat) : Bool := p.t.aligned p.r && p.t.holds 0 rows 0 cols

/-- OPT_SLICE (R185): one slice by R175 and R176; a skipped one has only its orders written. -/
def optSlice (d : Desc) : Act Fin := do
  let v := vecOf d
  let job := jobOf d
  let step := stepOf d
  let skip := v.arg % 2 == 1
  let blk ← readWords v.dst 8
  let w5 := blk.getD 5 0
  let g ← readTensor v.a
  let mt ← readTensor v.b
  let m1 ← readTensor (fld (blk.getD 0 0) 47 0)
  let m2 ← readTensor (fld (blk.getD 1 0) 47 0)
  let oa ← readTensor (fld (blk.getD 2 0) 47 0)
  let ob ← readTensor (fld (blk.getD 3 0) 47 0)
  let pa := fld (blk.getD 4 0) 47 0
  let ps ← if skip then pure [] else readWords pa 4
  let w := (← get).w
  let rec' := fun k => w.recipe job k
  match w.region (fld w5 13 0) with
  | none => fail stOperand
  | some r =>
    let sl := fld w5 29 14
    let s := r.sliceAt sl
    let gp : Spot := ⟨g, rec' 4, 0, 0⟩
    let wp : Spot := ⟨mt, masterRecipe, 0, 0⟩
    let mp : Spot := ⟨m1, rec' 5, 0, 0⟩
    let rp : Spot := ⟨m2, rec' 6, 0, 0⟩
    let ap : Spot := ⟨oa, rec' (orderKind oa 0), 0, 0⟩
    let bp : Spot := ⟨ob, rec' (orderKind ob 1), 0, 0⟩
    let span := fun (p : Spot) m n => p.t.ranges p.r 0 m 0 n
    let rl ← rangesLocal (span wp s.kk s.nn ++ (if skip then [] else span gp s.kk s.nn ++ span mp s.kk s.nn ++ span rp s.kk s.nn))
      false
    let wl ← rangesLocal (span ap s.kk s.nn ++ span bp s.nn s.kk ++
      (if skip then [] else span wp s.kk s.nn ++ span mp s.kk s.nn ++ span rp s.kk s.nn)) true
    let at32 := fun i => fld (blk.getD i 0) 47 0 % 32 == 0
    need (v.rsv && v.dst % 32 == 0 && v.a % 32 == 0 && v.b % 32 == 0 && (List.range 4).all at32 && r.job == job && !r.frozen && decide (sl < r.nslice) && rl && wl &&
      (skip || (pa % 32 == 0 && paramsOk ps && g.kind == 4))) stOperand
    need (spotOk { wp with t := { mt with kind := 0 } } s.kk s.nn && spotOk ap s.kk s.nn && spotOk bp s.nn s.kk &&
      (skip || (spotOk gp s.kk s.nn && spotOk mp s.kk s.nn && spotOk rp s.kk s.nn))) stOperand
    -- R49, R59
    need (([ap, bp] ++ if skip then [] else [gp, mp, rp]).all (fun p => p.t.blocksFit p.r) &&
      ([ap, bp] ++ if skip then [] else [wp, mp, rp]).all fun p => p.t.srFits p.r) stFormat
    if !skip then
      let grad ← readRect gp.t gp.r 0 s.kk 0 s.nn
      updateSlice step (paramsOf ps) s wp mp rp grad
    writeOrders step s wp ap bp
    return .done stOk

/-- OPT_COMMIT (R185): credits, once the ring's earlier writes are visible. -/
def optCommit (d : Desc) : Act Fin := do
  let v := vecOf d
  let x ← get
  match x.ag.cmd with
  | some (ring, idx) =>
    if x.w.dev.urk.home.any (fun h => match h.cmd with | some o => o.1 == ring | none => false) ||
        x.w.dev.urk.reqs.any (fun q => match q.owner with | some o => o.1 == ring | none => false) ||
        (x.w.ringRun ring).entries.any (fun e => e.waiting && decide (e.idx < idx)) then throw .hold
  | none => pure ()
  match x.w.region (v.b % 2 ^ 14) with
  | none => fail stOperand
  | some r =>
    need (v.rsv && r.job == jobOf d && !r.frozen && r.arm.isSome) stOperand
    actW fun w => w.credit r.index v.nrows
    return .done stOk

/-- Whether an OPT_OPEN of a step may complete on a region: armed in STREAMS mode for the step, open, no readers on the
target slot (R185). -/
def Region.openFor (r : Region) (step : Nat) : Bool :=
  (match r.arm with | some a => a.streams && a.step == step | none => false) && r.isOpen && r.readers r.target == 0

/-- OPT_OPEN reaches the gate: a region armed in STREAMS mode for the step opens (R189). -/
def World.openRegion (w : World) (i step : Nat) : World :=
  w.modRegion i fun r =>
    match r.arm with
    | some a => if a.streams && a.step == step then { r with isOpen := true } else r
    | none => r

/-- OPT_OPEN (R185). -/
def optOpen (d : Desc) : Act Fin := do
  let v := vecOf d
  let i := v.b % 2 ^ 14
  match (← get).w.region i with
  | none => fail stOperand
  | some r =>
    need (v.rsv && r.job == jobOf d && !r.frozen) stOperand
    actW fun w => w.openRegion i (stepOf d)
    match (← get).w.region i with
    | some r => if r.openFor (stepOf d) then return .done stOk else return .wait .optOpen
    | none => return .wait .optOpen

/-- Complete the OPT_OPENs whose wait has ended (R185). -/
def World.settleOpens (w : World) : World :=
  w.dev.rings.foldl (fun w rr =>
    match rr.entries.find? fun e => e.phase == .optOpen with
    | none => w
    | some e =>
      let i := (vecOf e.desc).b % 2 ^ 14
      let w := w.openRegion i (stepOf e.desc)
      match w.region i with
      | some r => if r.openFor (stepOf e.desc) then w.endCmd rr.ring e.idx stOk 0 else w
      | none => w) w

def execOptSlice (c : Cmd) (s : State) : Host.Outcome State Fault Refusal :=
  s.run fun w => w.runCmd c (isVec 0x40) optSlice
def execOptCommit (c : Cmd) (s : State) : Host.Outcome State Fault Refusal :=
  s.run fun w => w.runCmd c (isVec 0x41) optCommit
def execOptOpen (c : Cmd) (s : State) : Host.Outcome State Fault Refusal :=
  s.run fun w => w.runCmd c (isVec 0x42) optOpen

end Sys2Proof.Machine
end

