-- ==== Sys2Proof/Machine/Bellows.lean ====
section
/-! DEFINITION. The Bellows: weight regions loaded and unloaded (R177 to R179), UPD_ARM and REGEN (R180 to R184), the update of
result slices (R182, R183, R192), order slices on their way to peers (R271), and the commit (R187). -/

namespace Sys2Proof.Machine

/-! ### Regions -/

/-- The tensor descriptors that a region descriptor names: MASTER, MOM1, MOM2R, ORDA0, ORDB0, ORDA1, ORDB1 (R177). -/
def regionPtrs (ws : List U64) : List Nat := (upTo 1 7).map fun i => fld (ws.getD i 0) 47 0

/-- Read one tensor descriptor of a region; none for a pointer that may be absent (R177, R178). -/
def regionDesc (frozen lag : Bool) (p : Nat × Nat) : Act (Except Nat (List U64)) :=
  if (p.1 == 0 && ((frozen && decide (p.2 < 3)) || decide (5 ≤ p.2))) || (!lag && decide (5 ≤ p.2)) then return .ok []
  else tryXlt (readWords p.1 4)

/-- LOAD of a region (R179). -/
def loadRegion (writer i : Nat) : Act Nat := do
  let w := (← get).w
  let a := w.rf (rk 0x108 0x090) 47 12 * 4096 + 64 * i
  need (w.inHbm a 64) stOperand
  let ws ← opWords a 8
  let w0 := ws.getD 0 0
  let job := fld w0 21 16
  let frozen := bit w0 23
  let lag := bit w0 24
  modify fun r => { r with ag := { r.ag with job := some job } }
  let mine := 4 ≤ writer || w.assignable job writer
  let ds ← (if (w.job job).isSome && mine then (regionPtrs ws).zipIdx else []).mapM (regionDesc frozen lag)
  if !mine then
    actW fun w => w.deny writer 0x108 0x098
    return stJob
  need ((w.job job).isSome && (w.region i).isNone) stJob
  let words := fun k => match ds.getD k (.ok []) with | .ok v => v | .error _ => []
  let read := fun k => !(words k).isEmpty
  let t := fun k => let v := words k; tensorOf (v.getD 0 0) (v.getD 1 0) (v.getD 2 0) (v.getD 3 0)
  let r : Region := ⟨i, ws, (List.range 7).map words, fld w0 15 0, none, false, 0, 0, 0, [], 0⟩
  -- K × N as the first descriptor read gives it: order A's own, or that of another of the same shape
  let (k, n) := match [3, 0, 1, 2, 5, 4, 6].find? read with
    | some m => if m = 4 ∨ m = 6 then ((t m).cols, (t m).rows) else ((t m).rows, (t m).cols)
    | none => (0, 0)
  let nslice := ceilDiv k 128 * ceilDiv n 128
  let tag := fld w0 39 28
  let gtag := fld w0 51 40
  need (bit w0 22 && zeroBits w0 [(63, 53)] && (upTo 3 5).all (fun j => zeroBits (ws.getD j 0) [(63, 48)]) && !w.chnTag tag &&
    (gtag == 0 || !w.chnTag gtag)) stOperand
  need (decide (r.s0 ≤ r.s1) && (!(List.range 7).any read || (decide (r.s1 < nslice) && decide (nslice ≤ 65536)))) stOperand
  need (decide ((w.dev.blw.regions.filter fun x => x.die == r.die).length < 4096)) stOperand
  let shape := fun k' n' m kind => !read m || ((t m).rows == k' && (t m).cols == n' && (t m).rsv &&
    (match kind with | some q => (t m).kind == q | none => true))
  need (shape k n 0 none && shape k n 1 (some 5) && shape k n 2 (some 6) && shape k n 3 (some 0) &&
    shape n k 4 (some 1) && shape k n 5 (some 0) && shape n k 6 (some 1)) stOperand
  let p5 := (regionPtrs ws).getD 5 0
  let p6 := (regionPtrs ws).getD 6 0
  need (if lag then p5 != 0 && p6 != 0 else p5 == 0 && p6 == 0) stOperand
  -- R176, and the extents of R49
  need (!(w.recipe job 0).perCh && !(w.recipe job 1).perCh && (upTo 1 6).all fun m => !read m || (t m).blocksFit (w.recipe job (t m).kind))
    stFormat
  match ds.findSome? fun d => match d with | .error va => some va | .ok _ => none with
  | some va => throw (.xlt va)
  | none =>
    actW fun w => w.upd fun d => { d with blw := { d.blw with regions := d.blw.regions ++ [r] } }
    return stOk

/-- Write a region's committed version to word 0 of its descriptor (R179, R187). -/
def World.writeCv (w : World) (r : Region) : World :=
  let a := w.rf (rk 0x108 0x090) 47 12 * 4096 + 64 * r.index
  w.store (mantel (blwPage r.die)) a (leBytes 2 r.cv)

/-- Free a region's state. -/
def World.dropRegion (w : World) (i : Nat) : World :=
  match w.region i with
  | none => w
  | some r => (w.writeCv r).upd fun d => { d with blw := { d.blw with regions := d.blw.regions.filter fun x => x.index ≠ i } }

/-- A write of BLW_WREG_CMD on H0 (R179, R193, R448). -/
def World.wregCmd (w : World) (writer : Nat) (v : U64) : World :=
  let i := fld v 13 0
  let fin := fun st (w : World) => w.opDone (rk 0x108 0x0A0) st 29 i
  if fld v 15 14 = 1 then
    w.opRun (mantel 0x108) (rk 0x108 0x0A0) writer 0x108 0x098 v (loadRegion writer i) fin
  else if fld v 15 14 = 2 then
    match w.region i with
    | none => fin stJob w
    | some r =>
      match w.laterDeny writer 0x108 0x098 r.job with
      | some w => fin stJob w
      | none =>
        if r.arm.isSome || r.readers0 != 0 || r.readers1 != 0 || w.dev.blw.parked.any (fun p => p.read.wreg == i) then
          fin stOperand w
        else fin stOk (w.dropRegion i)
  else w

def World.wregWrite (w : World) (writer : Nat) (v : U64) : World :=
  w.command writer 0x108 0x098 v (w.opBusy (rk 0x108 0x0A0)) fun w => w.wregCmd writer v

def execWregLoad (port index : Nat) (s : State) : Host.Outcome State Fault Refusal :=
  s.port port 0x108 0x098 (BitVec.ofNat 64 (index % 0x4000 + 0x4000)) fun w =>
    w.wregWrite port (BitVec.ofNat 64 (index % 0x4000 + 0x4000))

def execWregUnload (port index : Nat) (s : State) : Host.Outcome State Fault Refusal :=
  s.port port 0x108 0x098 (BitVec.ofNat 64 (index % 0x4000 + 0x8000)) fun w =>
    w.wregWrite port (BitVec.ofNat 64 (index % 0x4000 + 0x8000))

/-! ### UPD_ARM and REGEN -/

/-- The regions a gate unit holds armed (R181). -/
def World.armedOn (w : World) (die : Nat) : Nat := (w.dev.blw.regions.filter fun r => r.die == die && r.arm.isSome).length

/-- UPD_ARM (R181). -/
def updArm (d : Desc) : Act Fin := do
  let x ← get
  let w := x.w
  let i := fld d.w2 13 0
  let streams := bit d.w2 14
  let pa := fld d.w3 47 0
  need (zeroBits d.w2 [(63, 15)] && zeroBits d.w3 [(63, 48)] && d.w4 == 0 && d.w5 == 0 && d.w6 == 0 && d.w7 == 0) stOperand
  match w.region i with
  | none => fail stOperand
  | some r =>
    need (r.job == jobOf d && r.arm.isNone && !r.frozen) stOperand
    let mode := w.reg (rk (blwPage r.die) 0x080)
    need (streams || (bit mode 0 && !bit mode 8)) stOperand
    need (r.cv == stepOf d % 2 ^ 16) stVersionStale
    need (w.dev.blw.regions.all fun o => o.tag != r.tag || (match o.arm with | some a => a.step != stepOf d | none => true)) stOperand
    if 256 ≤ w.armedOn r.die then throw .hold
    let ps ← if streams then pure [] else readWords (pa / 32 * 32) 4
    need (streams || (pa % 32 == 0 && paramsOk ps)) stOperand
    match x.ag.cmd with
    | some (ring, idx) =>
      actW fun w => w.modRegion i fun r => { r with arm := some ⟨stepOf d, streams, ring, idx, seqOf d, ps, stOk, 0⟩ }
      return .wait .armed
    | none => fail stOperand

/-- Where a slice of a region lies: masters, moments, and both orders of a slot. -/
def Region.spots (r : Region) (rec' : Nat → Recipe) (sl slot : Nat) : Spot × Spot × Spot × Spot × Spot :=
  let s := r.sliceAt sl
  (⟨r.desc 0, masterRecipe, s.k0, s.n0⟩, ⟨r.desc 1, rec' 5, s.k0, s.n0⟩, ⟨r.desc 2, rec' 6, s.k0, s.n0⟩,
    ⟨r.order false slot, rec' 0, s.k0, s.n0⟩, ⟨r.order true slot, rec' 1, s.n0, s.k0⟩)

/-- Translate what a slice reads and writes, before it writes anything (R183). -/
def spotXlt (p : Spot) (m n : Nat) (write : Bool) : Act Unit :=
  (p.t.ranges p.r p.i m p.c n).forM fun x => do
    let _ ← xlateRange x.1 x.2 write

/-- REGEN (R184). -/
def regen (d : Desc) : Act Fin := do
  let w := (← get).w
  need (zeroBits d.w2 [(63, 14)] && d.w3 == 0 && d.w4 == 0 && d.w5 == 0 && d.w6 == 0 && d.w7 == 0) stOperand
  match w.region (fld d.w2 13 0) with
  | none => fail stOperand
  | some r =>
    need (r.job == jobOf d && r.arm.isNone && !r.frozen) stOperand
    let slot := if r.lag1 then r.cv % 2 else 0
    need ([false, true].all fun b => (r.order b slot).blocksFit (w.recipe r.job b.toNat)) stFormat
    ((List.range r.nslice).filter r.owns).forM fun sl => do
      let s := r.sliceAt sl
      let (m, _, _, a, b) := r.spots (w.recipe r.job) sl slot
      spotXlt m s.kk s.nn false
      spotXlt a s.kk s.nn true
      spotXlt b s.nn s.kk true
      writeOrders (stepOf d) s m a b
    return .done stOk

def execUpdArm (c : Cmd) (s : State) : Host.Outcome State Fault Refusal :=
  s.run fun w => (w.runCmd c (fun d => opcodeOf d == 0x60) updArm).settleOpens
def execRegen (c : Cmd) (s : State) : Host.Outcome State Fault Refusal :=
  s.run fun w => w.runCmd c (fun d => opcodeOf d == 0x61) regen

/-! ### Slices -/

/-- The agent of a Bellows that works for an arm. -/
def Region.agent (r : Region) (a : UpdArm) : Agent :=
  { page := blwPage r.die, dbg := 0x80 + r.die, node := r.die * 256 + 0x20, job := some r.job, cmd := some (a.ring, a.idx)
    seq := a.seq }

/-- A result element: a code of a float format, or an INT32 (R255, R263). -/
def resultElem (fmt code : Nat) (p : Bool) : Elem :=
  if fmt = 8 then
    let v : Val := Val.ofInt (if code = 0x80000000 then 0 else signedOf 32 code)
    ⟨v, Val.ofNat 1, v, .none, p⟩
  else elemOf ((Fmt.ofCode fmt).getD .l16) code (Val.ofNat 1) p

/-- The gradient of a result slice: chunk c holds rows 2c and 2c + 1 (R159); a NOTOK chunk enters as +0 (R183). -/
def sliceGrad (m : SliceMsg) (s : SliceAt) : List (List Elem) :=
  (List.range s.kk).map fun i => (List.range s.nn).map fun j =>
    if m.notok.getD (i / 2) false then resultElem 0 0 m.poison
    else resultElem m.fmt (m.codes.getD (i / 2 * 256 + i % 2 * 128 + j) 0) m.poison

/-- The scale indices of a rectangle of a block-scaled tensor, row by row of the scale array (R96). -/
def Tensor.rectScales (t : Tensor) (r : Recipe) (i m c n : Nat) : List Nat :=
  if r.block = 0 ∨ m = 0 ∨ n = 0 then []
  else if r.axis = 0 then
    (upTo i m).flatMap fun x => upTo (t.scaleIndex r x c) ((c + n - 1) / r.block - c / r.block + 1)
  else (upTo (i / r.block) ((i + m - 1) / r.block - i / r.block + 1)).flatMap fun b => upTo (b * t.cols + c) n

/-- The stored codes and scale codes of a rectangle, and whether any is poisoned. -/
def readRaw (p : Spot) (m n : Nat) : Act (List Nat × List Nat × Bool) := do
  let cs ← (upTo p.i m).mapM fun x => readCodes p.t p.r.fmt x p.c n
  let ss ← (p.t.rectScales p.r p.i m p.c n).mapM fun ix => readScales p.t p.r.sf ix 1
  return (cs.flatten.map Prod.fst, ss.flatten.map Prod.fst, (cs.flatten ++ ss.flatten).any Prod.snd)

/-- Write the codes and scale codes of a rectangle, all poisoned when told. -/
def writeRaw (p : Spot) (m n : Nat) (codes scales : List Nat) (bad : Bool) : Act Unit := do
  (upTo 0 m).forM fun x => writeCodes p.t p.r.fmt (p.i + x) p.c
    (((codes.drop (x * n)).take n).map fun c => (some c, bad))
  ((p.t.rectScales p.r p.i m p.c n).zip scales).forM fun s => writeScale p.t p.r.sf s.1 s.2 bad

/-- Both orders of a slice are in place: they go to the group of the region's GATHER arm (R183, R271), and the slice earns its
credit. -/
def sliceDone (r : Region) (step sl slot : Nat) : Act Unit := do
  let w := (← get).w
  if r.gtag ≠ 0 then
    match w.dev.chm.arms.find? fun a => a.tag == r.gtag && a.step == step with
    | some arm =>
      let s := r.sliceAt sl
      let (_, _, _, a, b) := r.spots (w.recipe r.job) sl slot
      let pois := (← get).pois
      let (ca, sa, pa) ← readRaw a s.kk s.nn
      let (cb, sb, pb) ← readRaw b s.nn s.kk
      modify fun x => { x with pois := pois }
      actW fun w => (w.fabricCast (some r.job) (fld (arm.words.getD 3 0) 59 48)
        (.gather ⟨r.gtag, step, sl, ca, sa, cb, sb, pa || pb⟩)).2
    | none => pure ()
  actW fun w => w.credit r.index 1

/-- One result slice at the Bellows (R183): update or skip, then the orders, which wait while the target slot has readers
(R189). -/
def sliceBody (r : Region) (a : UpdArm) (m : SliceMsg) : Act Unit := do
  let w := (← get).w
  let s := r.sliceAt m.slice
  let slot := r.target
  let skip := m.notok.all id
  let (wp, mp, rp, ap, bp) := r.spots (w.recipe r.job) m.slice slot
  spotXlt wp s.kk s.nn false
  spotXlt ap s.kk s.nn true
  spotXlt bp s.nn s.kk true
  if !skip then
    spotXlt wp s.kk s.nn true
    [mp, rp].forM fun p => do
      spotXlt p s.kk s.nn false
      spotXlt p s.kk s.nn true
    updateSlice a.step (paramsOf a.params) s wp mp rp (sliceGrad m s)
  if r.readers slot ≠ 0 then
    actW fun w => w.modRegion r.index fun r => { r with pend := r.pend ++ [.own m.slice a.step] }
  else
    writeOrders a.step s wp ap bp
    sliceDone r a.step m.slice slot

/-- Note a fault of an arm: the first one sets the status and raises its event (R183). -/
def World.armFault (w : World) (r : Region) (a : UpdArm) (status code : Nat) (addr : Nat) : World :=
  if (w.region r.index).any (fun r => r.arm.any fun a => a.status != stOk) then w
  else
    let (n, w) := w.raise (some (w.ringPort a.ring)) a.ring.page code 0 (detail (some r.job) (a.seq * 2 ^ 32))
      (BitVec.ofNat 64 (addr % 2 ^ 48))
    w.modRegion r.index fun r => { r with arm := r.arm.map fun a => { a with status := status, evseq := n } }

/-- Run part of a slice's work: its counts go to the UPD_ARM, its faults too; a translation fault or a poisoned table entry leaves the
rest unwritten and the slice earns its credit all the same. `none` while it must wait for a line. -/
def World.sliceRun (w : World) (r : Region) (a : UpdArm) (poison : Bool) (body : Act Unit) : Option World × World :=
  match body.run (Run.init w (r.agent a)) with
  | .ok (_, x) =>
    let w := x.w.modEntry a.ring a.idx fun e => { e with counts := e.counts.plus x.cnt }
    (some (match x.pois with
      | some g => w.armFault r a stPoison 0x02 g
      | none => if poison then w.armFault r a stPoison 0x02 0 else w), w)
  | .error (.xlt va) => (some ((w.armFault r a stXlt 0x03 va).credit r.index 1), w)
  | .error (.poison g) => (some (((w.metPoison (r.agent a) g).armFault r a stPoison 0x02 g).credit r.index 1), w)
  | .error e => (none, w.ask (r.agent a) e)

/-- The region bound to a tag for a step in UNIT mode (R181, R182). -/
def World.boundTo (w : World) (tag step : Nat) : Option (Region × UpdArm) :=
  w.dev.blw.regions.findSome? fun r => match r.arm with
    | some a => if r.tag = tag ∧ a.step = step ∧ !a.streams then some (r, a) else none
    | none => none

/-- The next result slice of a die's Bellows (R182, R183). -/
def World.sliceUpdate (w : World) (die : Nat) : World :=
  match w.dev.blw.slices.find? fun x => x.1 == die with
  | none => w
  | some x =>
    let take := fun (w : World) => w.upd fun d => { d with blw := { d.blw with slices := d.blw.slices.erase x } }
    let m := x.2
    match w.boundTo m.tag m.step with
    | none => take w
    | some (r, a) =>
      if !r.owns m.slice then (take w).evUe (blwPage die) 0x0F (some r.job) 0 0
      else
        let w := w.modRegion r.index fun r => { r with isOpen := true }
        let r := { r with isOpen := true }
        match w.sliceRun r a m.poison (sliceBody r a m) with
        | (none, w) => w
        | (some w, _) =>
          let s := r.sliceAt m.slice
          let w := take w
          if m.notok.all id then w.count (rk (blwPage die) 0x0A8) 63 32 1
          else (w.count (rk (blwPage die) 0x0A8) 31 0 1).count (rk (blwPage die) 0x0B0) 63 0 (s.kk * s.nn)

def execBlwSliceUpdate (die : Nat) (s : State) : Host.Outcome State Fault Refusal := s.run fun w => w.sliceUpdate die

/-- Credit the gathered slices of a region once everything written for its arm is visible (R271). -/
def World.creditGather (w : World) (r : Region) : World :=
  match r.arm with
  | some a => if r.unseen ≠ 0 && w.visible a.ring a.idx then
      (w.modRegion r.index fun x => { x with unseen := 0 }).credit r.index r.unseen else w
  | none => w

/-- The same for every region. -/
def World.creditGathers (w : World) : World := w.dev.blw.regions.foldl (fun w r => w.creditGather r) w

/-- Write a gathered slice's orders at their positions in the target slot (R271). -/
def gatherBody (r : Region) (m : GatherMsg) : Act Unit := do
  let w := (← get).w
  let s := r.sliceAt m.slice
  let (_, _, _, a, b) := r.spots (w.recipe r.job) m.slice r.target
  spotXlt a s.kk s.nn true
  spotXlt b s.nn s.kk true
  writeRaw a s.kk s.nn m.codesA m.scalesA m.poison
  writeRaw b s.nn s.kk m.codesB m.scalesB m.poison
  actW fun w => w.modRegion r.index fun x => { x with unseen := x.unseen + 1 }

/-- A gathered slice (R271): matched to the armed region of its tag, or discarded. -/
def World.gathered (w : World) (m : GatherMsg) : World :=
  match w.dev.blw.regions.findSome? fun r => match r.arm with
      | some a => if r.gtag = m.gtag ∧ m.gtag ≠ 0 ∧ a.step = m.step then some (r, a) else none
      | none => none with
  | none => (w.count (rk 6 0x0B8) 31 0 1).evUe 6 0x0A none 0 0
  | some (r, a) =>
    let w := w.modRegion r.index fun r => { r with isOpen := true }
    let r := { r with isOpen := true }
    if r.readers r.target ≠ 0 then w.modRegion r.index fun r => { r with pend := r.pend ++ [.gather m] }
    else match w.sliceRun r a false (gatherBody r m) with
      | (some w, _) => w.creditGathers
      | (none, w) => w.modRegion r.index fun r => { r with pend := r.pend ++ [.gather m] }

def execGatherSlice (m : GatherMsg) (s : State) : Host.Outcome State Fault Refusal :=
  s.run fun w => w.onArrival (.gather m) fun w => w.gathered m

/-- Write what waits for a region's target slot, once it has no readers (R189). -/
def World.writePend (w : World) (i : Nat) : World :=
  match w.region i with
  | none => w
  | some r => match r.arm with
    | none => w
    | some a =>
      if r.readers r.target ≠ 0 then w
      else World.creditGathers <| r.pend.foldl (fun w p =>
        let body := match p with
          | .own sl step => do
            let w := (← get).w
            let s := r.sliceAt sl
            let (wp, _, _, ap, bp) := r.spots (w.recipe r.job) sl r.target
            writeOrders step s wp ap bp
            sliceDone r step sl r.target
          | .gather m => gatherBody r m
        match w.sliceRun r a false body with
        | (some w, _) => w.modRegion i fun r => { r with pend := r.pend.erase p }
        | (none, w) => w) w

/-! ### Commit (R187) -/

/-- A region that holds NSLICE credits commits (R187). -/
def World.commit1 (w : World) (i : Nat) : World :=
  match w.region i with
  | none => w
  | some r => match r.arm with
    | none => w
    | some a =>
      if r.credits ≠ r.nslice || !w.visible a.ring a.idx then w
      else
        let r' := { r with cv := (a.step + 1) % 2 ^ 16, isOpen := false, credits := 0, arm := none, pend := [], unseen := 0 }
        let w := w.modRegion i fun _ => r'
        let w := w.writeCv r'
        let w := w.upd fun d => { d with blw := { d.blw with
          parked := d.blw.parked.map fun p => if p.read.wreg = i then { p with due := true } else p } }
        w.endCmd a.ring a.idx a.status a.evseq

def execRegionCommit (index : Nat) (s : State) : Host.Outcome State Fault Refusal := s.run fun w => w.commit1 index

end Sys2Proof.Machine
end

