-- ==== Sys2Proof/Machine/Chimney.lean ====
section
/-! DEFINITION. The Chimney: buckets armed (R256), contributions, exact accumulation and close units (R259 to R266), close
summaries (R267, R268), arrival-order mode (R269), multicast, remote reads and PERMUTE (R270, R272, R273). -/

namespace Sys2Proof.Machine

def chmPage : Nat := 6
def chmCfg : Nat := rk 6 0x0A8
def chmDiscard : Nat := rk 6 0x0B0
def chmDiscard2 : Nat := rk 6 0x0B8
def chmAcc : Nat := rk 6 0x0C0

def World.modChm (w : World) (f : Chm → Chm) : World := w.upd fun d => { d with chm := f d.chm }

/-- The Chimney as an agent: for a packet of a job, or for an arm's command. -/
def chmFor (job : Nat) : Agent := { page := 6, dbg := 6, node := 0x2020, job := some job }
def Arm.agent (a : Arm) : Agent :=
  { page := 6, dbg := 0x8C, node := 0x2020, job := some a.job, cmd := some (a.ring, a.idx), seq := a.seq }

/-- Run work of the Chimney: whether it is over, with its changes or a fault's event; else only its requests are made. -/
def World.chmRun (w : World) (ag : Agent) (body : Act Unit) : Bool × World :=
  match body.run (Run.init w ag) with
  | .ok (_, r) => (true, r.w)
  | .error (.xlt va) => (true, (w.xltEvent ag va).2)
  | .error (.poison g) => (true, w.event 6 0x02 0 (detail ag.job (ag.seq * 2 ^ 32)) (BitVec.ofNat 64 g))
  | .error (.status _) => (true, w)
  | .error e => (false, w.ask ag e)

/-- Whether a tick has begun: the present cycle belongs to it or to a later one (R196). -/
def World.tickBegun (w : World) (t : Nat) : Bool := decide (t ≤ w.tickAt) && (w.tickAt != 0 || w.dev.tik.bnd.isSome)

/-- GTIME at which a tick that has begun did so. -/
def World.tickGtime (w : World) (t : Nat) : Nat :=
  match w.dev.tik.bnd with
  | some b => if t ≤ w.tickNow then b - (w.tickNow - t) * w.period else w.dev.tik.next.getD w.dev.gtime
  | none => w.dev.gtime

/-- Whether every write to a range of job virtual addresses is visible. -/
def visibleV (va n : Nat) : Act Bool := do
  let ps ← xlateRange va n true
  let w := (← get).w
  return ps.all fun p => w.rangeVisible p.1 p.2

/-! ### Arming (R254 to R258) -/

/-- Result formats (R255). -/
def rfmtOk (f : Nat) : Bool := decide (f ≤ 3) || f == 8

/-- Formats of contributions (R260). -/
def cfmtOk (f : Nat) : Bool := decide (f ≤ 4) || f == 8

/-- The home map's rules (R256, R258). -/
def homeMapOk (ws : List U64) (nchunk nhdev cunit : Nat) : Bool :=
  let fs := ws.map fun w => fld w 31 0
  ws.all (fun w => zeroBits w [(63, 45)]) && fs.headD 1 == 0 && decide (fs.Pairwise (· < ·)) && fs.all (fun f => decide (f < nchunk)) &&
  (ws.foldl (fun ds w => insNat (fld w 44 32) ds) []).length == nhdev && (cunit == 0 || fs.all fun f => f % 64 == 0)

/-- The reserved bits, codes and alignments of a bucket descriptor (R255, R256); an element format code that R42
reserves, or a ROUND that R52 does, is FORMAT_INVALID instead. -/
def bucketOk (a : Arm) : Bool :=
  let w := a.word
  let mem := a.rdel == 0 || a.rdel == 2
  bit (w 0) 18 && zeroBits (w 0) [(63, 59)] && zeroBits (w 1) [(63, 62)] && zeroBits (w 2) [(63, 58)] && zeroBits (w 3) [(63, 60)] &&
  zeroBits (w 4) [(63, 48)] && zeroBits (w 5) [(63, 48)] && zeroBits (w 6) [(63, 49)] && zeroBits (w 7) [(63, 26)] &&
  a.mode != 3 && a.op != 3 && (rfmtOk a.rfmt || decide (8 ≤ a.rfmt)) && a.rdel != 3 && a.nchunk != 0 &&
  fld (w 2) 47 0 % 8 == 0 && (!mem || (a.rbase % 256 == 0 && a.rinfo % 8 == 0)) && (!a.isHome || a.homest % 8 == 0) &&
  a.roles != 0 && (a.cunit == 0 || a.nchunk % 64 == 0) && !(a.rdel == 1 && a.cunit == 0) &&
  !(a.mode == 1 && (a.subtree == 0 || decide (8192 < a.subtree))) && !(a.mode == 2 && a.roles != 2)

/-- The close tick of a descriptor for a step, unless it cannot be told (R256, R257). -/
def World.closeTickOf (w : World) (a : Arm) : Option Nat :=
  let c := fld (a.word 6) 47 0
  if bit (a.word 6) 48 then some c
  else if fld c 47 16 ≠ 0 then none
  else match w.job a.job with
    | some j => (j.lastTicks.find? fun x => x.1 == a.step).map fun x => (x.2 + c) % 2 ^ 48
    | none => none

/-- What this device will write for an arm, by its roles (R266). -/
def Arm.writes (a : Arm) (dev : Nat) : List (Nat × Nat) :=
  let n := 256 * redBytes a.rfmt
  let span := fun lo hi => [(a.rbase + lo * n, (hi - lo) * n), (a.rinfo + 8 * lo, 8 * (hi - lo))]
  let bounds := a.hm.zip ((a.hm.drop 1).map Prod.fst ++ [a.nchunk])
  (if a.isHome then [(a.homest, ceilDiv (ceilDiv a.nchunk a.unit) 64 * 8)] else []) ++
  (if a.isHome && a.rdel == 0 then (bounds.filter fun b => b.1.2 == dev).flatMap fun b => span b.1.1 b.2 else []) ++
  (if a.isRecv then span 0 a.nchunk else [])

/-- CHM_BUCKET (R256). -/
def chmBucket (d : Desc) : Act Fin := do
  let x ← get
  let w := x.w
  let va := fld d.w2 47 0
  need (va % 64 == 0) stOperand
  let ws ← readWords va 8
  let tag := fld (ws.getD 0 0) 11 0
  let (ring, idx) := x.ag.cmd.getD (⟨6, 0⟩, 0)
  let a : Arm := ⟨tag, stepOf d, jobOf d, ring, idx, seqOf d, ws, [], 0, fld d.w2 50 48, [], [], [], [], [], [], 0, false, [], [], false,
    [], [], none, []⟩
  need (fld (a.word 0) 17 12 == jobOf d) stJob
  need (zeroBits d.w2 [(63, 51)] && d.w3 == 0 && d.w4 == 0 && d.w5 == 0 && d.w6 == 0 && d.w7 == 0) stOperand
  need (bucketOk a && !w.chnTag tag && (w.arm tag a.step).isNone) stOperand
  let hm ← tryXlt (readWords (fld (a.word 2) 47 0) (fld (a.word 2) 57 48 + 1))
  let (ms, bad) := match hm with | .ok ms => (ms, none) | .error va => ([], some va)
  need (bad.isSome || homeMapOk ms a.nchunk a.nhdev a.cunit) stOperand
  need (a.mode != 1 || bad.isSome || ms.length == 1) stOperand
  let a := { a with hm := ms.map fun m => (fld m 31 0, fld m 44 32) }
  match w.closeTickOf a with
  | none => fail stOperand
  | some close =>
    need (!w.tickBegun close) stOperand
    need (rfmtOk a.rfmt && decide (a.round ≤ 1) && !(a.round == 1 && decide (2 ^ 38 ≤ a.nchunk * 256)) && !(a.rfmt == 8 && a.round != 0)) stFormat
    match bad with
    | some va => throw (.xlt va)
    | none =>
      (a.writes w.devId).forM fun r => do
        let _ ← xlateRange r.1 r.2 true
      if 2 ≤ (w.dev.chm.arms.filter fun b => b.tag == tag).length then throw .hold
      if a.isHome then writeV a.homest (List.replicate (ceilDiv (ceilDiv a.nchunk a.unit) 64 * 8) 0)
      actW fun w => w.modChm fun c => { c with arms := c.arms ++ [{ a with close := close }] }
      return .wait .armed

def execChmBucket (c : Cmd) (s : State) : Host.Outcome State Fault Refusal :=
  s.run fun w => w.runCmd c (fun d => opcodeOf d == 0x80) chmBucket

/-! ### Sources (R259, R260) -/

/-- CHM_CONTRIB (R260). -/
def chmContrib (d : Desc) : Act Fin := do
  let w := (← get).w
  let tag := fld d.w2 11 0
  let mbid := fld d.w2 21 12
  let permb := bit d.w2 22
  let cfmt := fld d.w2 26 23
  let c0 := fld d.w3 31 0
  let nch := fld d.w3 63 32
  let src := fld d.w4 47 0
  need (zeroBits d.w2 [(63, 27)] && zeroBits d.w4 [(63, 48)] && d.w5 == 0 && d.w6 == 0 && d.w7 == 0 && src % 32 == 0 &&
    (cfmtOk cfmt || decide (9 ≤ cfmt))) stOperand
  need (!w.chnTag tag && !w.contribRefused tag (stepOf d) mbid permb c0 nch) stOperand
  need (cfmtOk cfmt) stFormat
  match w.arm tag (stepOf d) with
  | none => fail stOperand
  | some a =>
    let z := redBytes cfmt
    (upTo 0 nch).forM fun i => do
      let bs ← readVB (src + i * 256 * z) (256 * z)
      actW fun w => w.contribSend a mbid permb cfmt (c0 + i) ((chunks z (bs.map Prod.fst)).map leNat) (bs.any Prod.snd)
    return .done stOk

def execChmContrib (c : Cmd) (s : State) : Host.Outcome State Fault Refusal :=
  s.run fun w => w.runCmd c (fun d => opcodeOf d == 0x81) chmContrib

/-- CHM_EMPTY (R260). -/
def chmEmpty (d : Desc) : Act Fin := do
  let w := (← get).w
  let tag := fld d.w2 11 0
  let mbid := fld d.w2 21 12
  let permb := bit d.w2 22
  let c0 := fld d.w3 31 0
  let nch := fld d.w3 63 32
  need (zeroBits d.w2 [(63, 23)] && d.w4 == 0 && d.w5 == 0 && d.w6 == 0 && d.w7 == 0) stOperand
  need (!w.chnTag tag && !w.contribRefused tag (stepOf d) mbid permb c0 nch) stOperand
  match w.arm tag (stepOf d) with
  | none => fail stOperand
  | some a =>
    actW fun w => w.emptySend a mbid permb c0 nch
    return .done stOk

def execChmEmpty (c : Cmd) (s : State) : Host.Outcome State Fault Refusal :=
  s.run fun w => w.runCmd c (fun d => opcodeOf d == 0x82) chmEmpty

/-! ### Exact accumulation (R262, R274, R275) -/

def CElem.zero : CElem := ⟨0, false, false, false⟩

/-- A chunk that has just opened. -/
def Chunk.start (c : Nat) : Chunk := ⟨c, List.replicate 256 CElem.zero, 0, [], false, false⟩

/-- Add a decoded value exactly, in units of 2^−140. -/
def CElem.add (c : CElem) (v : Val) : CElem :=
  match v with
  | .nan => { c with nan := true }
  | .inf s => if s then { c with ninf := true } else { c with pinf := true }
  | .zero _ => c
  | .fin n d => { c with acc := c.acc + n * 2 ^ 140 / d }

/-- Decode an element of a contribution (R47, R50, R262). -/
def decodeRed (cfmt code : Nat) : Val × InCls :=
  if cfmt = 8 then (if code = 0x80000000 then (.zero false, .nonfin) else (Val.ofInt (signedOf 32 code), .none))
  else decodeElem ((Fmt.ofCode cfmt).getD .l16) code (Val.ofNat 1)

/-- accept() of R262, with the poison of R457. -/
def Chunk.accept (c : Chunk) (m : Contrib) : Chunk :=
  let c := { c with n := c.n + 1, roster := insNat m.cix c.roster, poison := c.poison || m.poison }
  if m.empty then c
  else { c with data := true, elems := (c.elems.zip m.elems).map fun e => e.1.add (decodeRed m.cfmt e.2).1 }

/-- The accumulator port of a chunk: those of one close unit are distinct (R265, R274; log entry 85). -/
def Arm.port (a : Arm) (c : Nat) : Nat := ((Config.accPort a.tag a.step (c / a.unit)).val + c % a.unit) % 128

/-- The chunks of an arm that hold accumulators: those of its open units, and those of the closed units that had opened, until
their results are handed on (R265). -/
def Arm.held (a : Arm) : List Nat :=
  a.chunks.map Chunk.num ++
    (if a.mode = 1 then [] else a.wait.flatMap fun x => if x.2.any fun r => r.n != 0 then x.2.map ResultMsg.chunk else [])

/-- Accumulators and roster granules in use (R274). -/
def World.accUse (w : World) : Nat × Nat :=
  w.dev.chm.arms.foldl (fun u a => (u.1 + a.held.length, u.2 + a.held.length * ceilDiv a.ncontrib 512)) (0, 0)

/-- Accumulators in use on a port. -/
def World.portUse (w : World) (p : Nat) : Nat :=
  w.dev.chm.arms.foldl (fun u a => u + (a.held.filter fun c => a.port c == p).length) 0

/-- Show the accumulators in use (R276). -/
def World.showAcc (w : World) : World :=
  let n := w.accUse.1
  w.modReg chmAcc fun v => setFld (setFld v 12 0 n) 28 16 (max (fld v 28 16) n)

/-- The chunks of a unit (R265). -/
def Arm.unitChunks (a : Arm) (u : Nat) : List Nat := upTo (u * a.unit) a.unit

/-- Whether a unit of an arm can open: 40 accumulators on each port, and the roster granules (R274, R275). -/
def World.roomFor (w : World) (a : Arm) (u : Nat) : Bool :=
  decide (w.accUse.2 + a.unit * ceilDiv a.ncontrib 512 ≤ 41472) && (a.unitChunks u).all fun c => decide (w.portUse (a.port c) < 40)

/-- The chunk record of a chunk, fresh when its unit is not open. -/
def Arm.chunkOf (a : Arm) (c : Nat) : Chunk := (a.chunks.find? fun x => x.num == c).getD (Chunk.start c)

/-- Whether a unit is open. -/
def Arm.unitOpen (a : Arm) (u : Nat) : Bool := a.chunks.any fun x => x.num / a.unit == u

/-- A partial as it stands for a chunk (R269). -/
def Arm.part (a : Arm) (c : Nat) : Part :=
  (a.parts.find? fun p => p.chunk == c).getD ⟨c, List.replicate 256 0, [], 0, false, false, false⟩

/-- Replace a chunk's partial. -/
def Arm.setPart (a : Arm) (p : Part) : Arm := { a with parts := p :: a.parts.filter fun x => x.chunk ≠ p.chunk }

/-- Add values to a partial, each addition rounded to binary32 with subnormal results zero (R269). -/
def Part.add (p : Part) (vals : List Val) : List Nat :=
  (p.vals.zip vals).map fun e => f32Code (rneF32 ((f32Val e.1).add e.2))

/-- A contribution discarded at its home (R261). -/
def World.discard (w : World) (m : Contrib) (hi lo : Nat) : World := (w.count chmDiscard hi lo 1).evUe 6 0x08 (some m.job) 0 0

/-- A contribution that finds no HOME arm (R261, R444). -/
def World.unarmed (w : World) (m : Contrib) : World :=
  (w.count chmDiscard2 31 0 1).event 6 0x0C 1 (detail (some m.job) (m.tag * 2 ^ 8 + m.cix * 2 ^ 20)) (BitVec.ofNat 64 m.step)

/-- Whether a chunk takes no more contributions here: its close tick has begun, its unit or partial is closed or forwarded (R261,
R269). -/
def World.isLate (w : World) (a : Arm) (c : Nat) : Bool :=
  if a.mode = 1 then
    (a.part c).sent || a.closed.contains (c / a.unit) || (!a.isHome && (a.ticked.isSome || w.tickBegun a.close)) ||
      (a.isHome && w.tickBegun (a.close + 1))
  else w.tickBegun a.close || a.ticked.isSome || a.closed.contains (c / a.unit)

/-- One chunk's contribution at its home, or in the Chimney of an ARRIVAL arm (R261, R262, R269), an ARRIVAL arm that has completed
counting it late (R269); false while its unit cannot open. -/
def World.contribOne (w : World) (m : Contrib) (c : Nat) : Bool × World :=
  match w.arm m.tag m.step with
  | none => (true, if w.dev.chm.past.contains (m.tag, m.step) then w.count chmDiscard 31 0 1 else w.unarmed m)
  | some a =>
    if !a.isHome && a.mode ≠ 1 then (true, w.unarmed m)
    else if w.isLate a c then (true, w.count chmDiscard 31 0 1)
    else
      let roster := if a.mode = 1 then (a.part c).roster else (a.chunkOf c).roster
      if a.ncontrib ≤ m.cix || (!m.empty && !cfmtOk m.cfmt) || decide (a.nchunk ≤ c) || (a.mode != 1 && a.homeOf c != w.devId) ||
          roster.contains m.cix then (true, w.discard m 63 32)
      else
        let cnt := if m.empty then ⟨0, 0, 0, 0, 0, 0, 0, 0, false⟩
          else m.elems.foldl (fun n e => n.read (decodeRed m.cfmt e).2) (⟨0, 0, 0, 0, 0, 0, 0, 0, false⟩ : Counts)
        let counted := w.modEntry a.ring a.idx fun e => { e with counts := e.counts.plus cnt }
        if a.mode = 1 then
          let w := counted
          let p := a.part c
          let p := { p with
            n := p.n + 1, roster := insNat m.cix p.roster, poison := p.poison || m.poison, data := p.data || !m.empty
            vals := if m.empty then p.vals else p.add (m.elems.map fun e => (decodeRed m.cfmt e).1) }
          (true, w.modArm a.tag a.step fun a => a.setPart p)
        else
          let u := c / a.unit
          if !a.unitOpen u && !w.roomFor a u then (false, w)
          else
            let w := counted.modArm a.tag a.step fun a =>
              let a := if a.unitOpen u then a else { a with chunks := a.chunks ++ (a.unitChunks u).map Chunk.start }
              { a with chunks := updFirst (fun x => x.num == c) (fun x => x.accept m) a.chunks }
            (true, w.showAcc)

/-- The chunks a contribution packet stands for here (R260). -/
def World.contribChunks (w : World) (m : Contrib) : List Nat :=
  if !m.empty then [m.chunk]
  else match w.arm m.tag m.step with
    | none => [m.chunk]
    | some a =>
      let cs := (upTo m.chunk (min m.nch (a.nchunk - m.chunk))).filter fun c => a.mode == 1 || a.homeOf c == w.devId
      if cs.isEmpty then [m.chunk] else cs

/-- A contribution packet: chunk by chunk; from the first that must wait on, the packet stays (R275). -/
def World.contribution (w : World) (m : Contrib) : World :=
  ((w.contribChunks m).foldl (fun (acc : Bool × World) c =>
    if acc.1 then acc
    else match acc.2.contribOne m c with
      | (true, w) => (false, w)
      | (false, w) => (true, w.backNet (.contrib { m with chunk := c, nch := m.chunk + m.nch - c }))) (false, w)).2

def execContrib (m : Contrib) (s : State) : Host.Outcome State Fault Refusal :=
  s.run fun w => w.onArrival (.contrib m) fun w => w.contribution m

/-! ### Closing (R263 to R266) -/

/-- The exact value of an element at its close (R263). -/
def closeVal (op nc n : Nat) (v : Val) : Val :=
  let v := if v.isZero then .zero false else v
  if n = 0 then v
  else if op = 1 then v.div (Val.ofNat n)
  else if op = 2 then (v.mul (Val.ofNat nc)).div (Val.ofNat n)
  else v

/-- The sum of an accumulated element. -/
def CElem.val (c : CElem) : Val :=
  if c.nan || (c.pinf && c.ninf) then .nan else if c.pinf then .inf false else if c.ninf then .inf true else mkVal c.acc (2 ^ 140)

/-- encode() to INT32 on the grid of every integer (R263). -/
def encodeInt32 (v : Val) : Nat × OutCls :=
  let sgn := fun (neg : Bool) n => if neg then (2 ^ 32 - n) % 2 ^ 32 else n
  match v with
  | .nan => (0, .nonfin)
  | .inf s => (sgn s (2 ^ 31 - 1), .nonfin)
  | .zero _ => (0, .zero)
  | .fin num d =>
    let n := rneUp (num.natAbs / d) (num.natAbs % d) d
    if 2 ^ 31 - 1 < n then (sgn (num < 0) (2 ^ 31 - 1), .sat)
    else if n = 0 then (0, .zero)
    else (sgn (num < 0) n, .none)

/-- Round a chunk's 256 values (R263): the result, its counts and its health additions. -/
def Arm.rounded (a : Arm) (seed : U64) (c n : Nat) (roster : List Nat) (data poison : Bool) (vals : List Val) :
    ResultMsg × Counts × HealthAdd :=
  let out := vals.zipIdx.map fun e =>
    let v := closeVal a.op a.ncontrib n e.1
    (v, if a.rfmt = 8 then encodeInt32 v
      else encodeElem v ((Fmt.ofCode a.rfmt).getD .l16) (if a.round = 1 then .sr (ember seed a.step a.rtid (256 * c + e.2)) else .rne))
  (⟨a.tag, a.step, c, a.rfmt, n, n == a.ncontrib, !data, poison, roster, out.map fun o => o.2.1⟩,
    out.foldl (fun k o => k.wrote o.2.2) (⟨0, 0, 0, 0, 0, 0, 0, 0, false⟩ : Counts),
    out.foldl (fun h o => h.elem o.1 o.2.2) ({ tid := a.rtid, kind := 14 } : HealthAdd))

/-- Close one chunk of an arm: its result, from its accumulators or its partial. -/
def Arm.closeChunk (a : Arm) (seed : U64) (c : Nat) : ResultMsg × Counts × HealthAdd :=
  if a.mode = 1 then
    let p := a.part c
    a.rounded seed c p.n p.roster p.data p.poison (p.vals.map f32Val)
  else
    let k := a.chunkOf c
    a.rounded seed c k.n k.roster k.data k.poison (k.elems.map CElem.val)

/-- The place of a result chunk (R266). -/
def Arm.resultAt (a : Arm) (c : Nat) : Nat := a.rbase + c * 256 * redBytes a.rfmt

/-- Write a result chunk (R266), all of it poisoned when the chunk is (R457). -/
def resultData (a : Arm) (m : ResultMsg) : Act Unit := do
  let z := redBytes a.rfmt
  writeV (a.resultAt m.chunk) (m.codes.flatMap (leBytes z))
  if m.poison then poisonV (a.resultAt m.chunk) (256 * z)

/-- Write a chunk's RINFO entry, once its data is visible to all device agents (R266). -/
def resultInfo (a : Arm) (m : ResultMsg) : Act Unit := do
  if !(← visibleV (a.resultAt m.chunk) (256 * redBytes a.rfmt)) then throw .hold
  writeV (a.rinfo + 8 * m.chunk) (leBytes 8 (m.n % 2 ^ 14 + m.full.toNat * 2 ^ 14 + m.notok.toNat * 2 ^ 15 + m.step * 2 ^ 32))

/-- Set a unit's bit in HOMEST (R265). -/
def markUnit (a : Arm) (u : Nat) : Act Unit := do
  let pa ← xlateA (a.homest + u / 8) true
  let (bs, _) ← readP pa 1
  writeP pa [BitVec.ofNat 8 ((bs.headD 0).toNat ||| 2 ^ (u % 8))]

/-- A unit's results have been handed on: its accumulators are free (R265). -/
def World.delivered (w : World) (a : Arm) (u : Nat) : World :=
  (w.modArm a.tag a.step fun a => { a with wait := a.wait.filter fun x => x.1 ≠ u, delivered := insNat u a.delivered }).showAcc

/-- Hand a LOCAL_BLW unit to the Bellows its tag is bound to, while that Bellows has a slice credit (R182, R266). -/
def World.handBlw (w : World) (a : Arm) (u : Nat) (rs : List ResultMsg) : World :=
  match w.boundTo a.tag a.step with
  | some (r, _) =>
    if 8 ≤ (w.dev.blw.slices.filter fun x => x.1 == r.die).length then w
    else
      let m : SliceMsg := ⟨a.tag, a.step, u, a.rfmt, rs.flatMap ResultMsg.codes, rs.map ResultMsg.notok, rs.any ResultMsg.poison⟩
      (w.upd fun d => { d with blw := { d.blw with slices := d.blw.slices ++ [(r.die, m)] } }).delivered a u
  | none => w

/-- A result chunk's RINFO entry has been written (R268): a receiver holds the chunk, and a LOCAL_MEM unit all of whose chunks have
theirs is delivered. -/
def World.infoDone (w : World) (tag step : Nat) (m : ResultMsg) : World :=
  let w := w.modArm tag step fun a =>
    { a with due := a.due.filter (· != m), recv := if a.isRecv then insNat m.chunk a.recv else a.recv }
  match w.arm tag step with
  | none => w
  | some a =>
    let u := m.chunk / a.unit
    if a.rdel = 0 && (a.wait.any fun x => x.1 == u) && !(a.due.any fun x => x.chunk / a.unit == u) then w.delivered a u else w

/-- Write the RINFO entries of an arm whose data has become visible (R266). -/
def World.infoArm (w : World) (tag step : Nat) : World :=
  match w.arm tag step with
  | none => w
  | some a => a.due.foldl (fun w m => match w.chmRun a.agent (resultInfo a m) with
    | (true, w) => w.infoDone tag step m
    | (false, w) => w) w

/-- Deliver a closed unit that waits (R266). -/
def World.deliverUnit (w : World) (a : Arm) (u : Nat) (rs : List ResultMsg) : World :=
  if a.rdel = 1 then w.handBlw a u rs
  else if a.rdel = 2 then (rs.foldl (fun w m => (w.fabricCast (some a.job) a.mgrp (.result m)).2) w).delivered a u
  else if a.due.any fun x => x.chunk / a.unit == u then w.infoArm a.tag a.step
  else match w.chmRun a.agent (rs.forM (resultData a)) with
    | (true, w) => (w.modArm a.tag a.step fun a => { a with due := a.due ++ rs }).infoArm a.tag a.step
    | (false, w) => w

/-- Close a unit at this home (R263 to R266): its chunks are rounded, counted, and delivered or left waiting; HOMEST records it.
Nothing closes while HOMEST must wait, or while the step's health bank is still to be zeroed (R83). -/
def World.closeUnit (w : World) (tag step u : Nat) : World :=
  match w.arm tag step with
  | none => w
  | some a =>
    if a.closed.contains u || (match w.job a.job with | some j => j.zeroWait.contains a.step | none => false) then w
    else match w.chmRun a.agent (markUnit a u) with
      | (false, w) => w
      | (true, w) =>
        let seed := match w.job a.job with | some j => j.seed | none => 0
        let rs := (a.unitChunks u).map (a.closeChunk seed)
        let w := rs.foldl (fun w r =>
          let w := w.modEntry a.ring a.idx fun e => { e with counts := e.counts.plus r.2.1 }
          w.addHealth a.agent a.job a.step r.2.2 true) w
        let ms := rs.map Prod.fst
        let gone := (List.range a.ncontrib).filter fun i => ms.any fun m => !m.roster.contains i
        let w := w.modArm tag step fun a =>
          { a with chunks := a.chunks.filter fun x => x.num / a.unit ≠ u, closed := insNat u a.closed
                   wait := a.wait ++ [(u, ms)], miss := gone.foldl (fun s i => insNat i s) a.miss
                   notFull := a.notFull + (ms.filter fun m => !m.full).length, poisoned := a.poisoned || ms.any ResultMsg.poison }
        let w := if a.mode = 1 ∧ a.rdel ≠ 2 then ms.foldl (fun w m => (w.fabricCast (some a.job) a.mgrp (.result m)).2) w else w
        (w.deliverUnit a u ms).showAcc

/-- Close units in order, up to the first that must wait. -/
def World.closeUnits (w : World) (tag step : Nat) : List Nat → World
  | [] => w
  | u :: us =>
    let w := w.closeUnit tag step u
    match w.arm tag step with
    | some a => if a.closed.contains u then w.closeUnits tag step us else w
    | none => w

/-- The units of an arm homed here, in order (R258, R265). -/
def World.homeUnits (w : World) (a : Arm) : List Nat :=
  (a.chunksOf w.devId).foldl (fun us c => if us.contains (c / a.unit) then us else us ++ [c / a.unit]) []

def execUnitEarlyClose (tag step unit : Nat) (s : State) : Host.Outcome State Fault Refusal :=
  s.run fun w => match w.arm tag step with
    | none => w
    | some a =>
      if a.isHome && a.mode == 0 && a.unitOpen unit && !w.tickBegun a.close &&
          (a.unitChunks unit).all fun c => (a.chunkOf c).n == a.ncontrib then w.closeUnit tag step unit
      else w

/-- A LOCAL_BLW unit whose tag is still unbound when the close tick begins is discarded (R266). -/
def World.dropUnbound (w : World) (a : Arm) : World :=
  if a.rdel ≠ 1 || (w.boundTo a.tag a.step).isSome then w
  else match w.arm a.tag a.step with
    | none => w
    | some b => b.wait.foldl (fun w x =>
        ((w.count chmDiscard2 63 32 1).evUe 6 0x09 (some a.job) 0 0).delivered a x.1) w

/-- The close tick at a home (R265): open units in chunk order, then the units that never opened. -/
def World.closeArm (w : World) (tag step : Nat) : World :=
  match w.arm tag step with
  | none => w
  | some a =>
    if a.ticked.isSome || !w.tickBegun a.close then w
    else
      let us := if a.isHome && a.mode == 0 then w.homeUnits a else []
      let w := w.closeUnits tag step ((us.filter a.unitOpen) ++ us.filter fun u => !a.unitOpen u)
      match w.arm tag step with
      | none => w
      | some b =>
        if !us.all b.closed.contains then w
        else ((w.modArm tag step fun a => { a with ticked := some (w.tickGtime a.close) }).dropUnbound a).showAcc

def execCloseTick (tag step : Nat) (s : State) : Host.Outcome State Fault Refusal := s.run fun w => w.closeArm tag step

/-- A closed unit that waited is handed on. -/
def World.deliverWaiting (w : World) (tag step u : Nat) : World :=
  match w.arm tag step with
  | none => w
  | some a => match a.wait.find? fun x => x.1 == u with
    | some x => w.deliverUnit a u x.2
    | none => w

def execLocalBlwDelivery (tag step unit : Nat) (s : State) : Host.Outcome State Fault Refusal :=
  s.run fun w => w.deliverWaiting tag step unit

/-! ### Summaries and completion (R267, R268) -/

/-- An arm ends with a status: EV_POISON once if it closed a poisoned chunk, EV_LATE with LATE (R268, R457). -/
def World.armEnd (w : World) (a : Arm) (status : Nat) : World :=
  let port := some (w.ringPort a.ring)
  let mine := (a.used.filter fun i => a.missed.contains i).headD 0
  let (np, w) := if a.poisoned then w.raise port 6 0x02 0 (detail (some a.job) (a.seq * 2 ^ 32)) 0 else (0, w)
  let (nl, w) := if status = stLate then
      w.raise port 6 0x0C 0 (detail (some a.job) (a.tag * 2 ^ 8 + mine * 2 ^ 20)) (BitVec.ofNat 64 a.step)
    else (0, w)
  let w := (w.modChm fun c => { c with
    arms := c.arms.filter fun b => !(b.tag == a.tag && b.step == a.step)
    past := if a.mode == 1 then (a.tag, a.step) :: c.past.filter (· != (a.tag, a.step)) else c.past }).showAcc
  w.endCmd a.ring a.idx status (if status = stPoison then np else nl)

/-- An arm completes when each of its roles is done, with the first status that applies (R268). -/
def World.armCheck (w : World) (tag step : Nat) : World :=
  match w.arm tag step with
  | none => w
  | some a =>
    if (!a.isHome || a.sumSent) && (!a.isContrib || decide (a.nhdev ≤ a.sums.length)) && (!a.isRecv || decide (a.nchunk ≤ a.recv.length)) then
      w.armEnd a (if a.isHome && a.poisoned then stPoison else if a.used.any a.missed.contains then stLate else stOk)
    else w

/-- The home multicasts its close summary, once every unit it holds is closed and delivered (R267). -/
def World.sumSend (w : World) (tag step : Nat) : World :=
  match w.arm tag step with
  | none => w
  | some a =>
    let us := w.homeUnits a
    if !a.isHome || a.sumSent then w
    else
      let w := if a.rdel = 1 then w else a.wait.foldl (fun w x => w.deliverUnit a x.1 x.2) w
      match w.arm tag step with
      | none => w
      | some b =>
        if us.all b.delivered.contains && (b.ticked.isSome || !us.isEmpty) then
          let w := w.modArm tag step fun a => { a with sumSent := true }
          let w := (w.fabricCast (some b.job) b.cgrp (.summary ⟨tag, step, w.devId, b.miss, b.notFull⟩)).2
          w.armCheck tag step
        else w

def execCloseSummarySend (tag step : Nat) (s : State) : Host.Outcome State Fault Refusal := s.run fun w => w.sumSend tag step

/-- A close summary reaches a contributor (R268). -/
def World.sumTake (w : World) (m : SummaryMsg) : World :=
  match w.arm m.tag m.step with
  | none => w
  | some a =>
    if !a.isContrib then w
    else (w.modArm m.tag m.step fun a =>
      { a with sums := insNat m.home a.sums, missed := m.miss.foldl (fun s i => insNat i s) a.missed }).armCheck m.tag m.step

def execCloseSummary (m : SummaryMsg) (s : State) : Host.Outcome State Fault Refusal :=
  s.run fun w => w.onArrival (.summary m) fun w => w.sumTake m

/-- A summary is still missing SUMWAIT after the close tick began (R268). -/
def World.sumTimeout (w : World) (tag step : Nat) : World :=
  match w.arm tag step with
  | none => w
  | some a => match a.ticked with
    | none => w
    | some t =>
      if a.isContrib && decide (a.sums.length < a.nhdev) then (w.at (t + w.rf chmCfg 31 0)).armEnd a stTimeout else w

def execSummaryTimeout (tag step : Nat) (s : State) : Host.Outcome State Fault Refusal := s.run fun w => w.sumTimeout tag step

/-- A multicast result chunk at a receiving device: its data, and its RINFO entry once that is visible (R266, R268). -/
def World.resultTake (w : World) (m : ResultMsg) : World :=
  match w.arm m.tag m.step with
  | none => w
  | some a =>
    if !a.isRecv || decide (a.nchunk ≤ m.chunk) then w
    else match (resultData a m).run (Run.init w a.agent) with
      | .ok (_, r) =>
        ((r.w.modArm m.tag m.step fun a => { a with due := a.due ++ [m] }).infoArm m.tag m.step).armCheck m.tag m.step
      | .error (.xlt va) => (w.xltEvent a.agent va).2
      | .error e => (w.ask a.agent e).backNet (.result m)

def execMcastMemResult (m : ResultMsg) (s : State) : Host.Outcome State Fault Refusal :=
  s.run fun w => w.onArrival (.result m) fun w => w.resultTake m

/-- RINFO entries whose data has become visible, in every arm; arms that this completes (R266, R268). -/
def World.infoPump (w : World) : World :=
  w.dev.chm.arms.foldl (fun w a => if a.due.isEmpty then w else (w.infoArm a.tag a.step).armCheck a.tag a.step) w

/-! ### Arrival-order mode (R269) -/

/-- A child partial at a Chimney of the tree; an ARRIVAL arm that has completed counts it late. -/
def World.partTake (w : World) (m : PartialMsg) : World :=
  match w.arm m.tag m.step with
  | none => if w.dev.chm.past.contains (m.tag, m.step) then w.count chmDiscard 31 0 1 else (w.count chmDiscard2 31 0 1).event 6 0x0C 1
      (detail none (m.tag * 2 ^ 8 + m.roster.headD 0 * 2 ^ 20)) (BitVec.ofNat 64 m.step)
  | some a =>
    if a.mode ≠ 1 || decide (a.nchunk ≤ m.chunk) then (w.count chmDiscard 63 32 1).evUe 6 0x08 (some a.job) 0 0
    else if w.isLate a m.chunk then w.count chmDiscard 31 0 1
    else
      let p := a.part m.chunk
      let p := { p with
        n := p.n + m.n, roster := m.roster.foldl (fun s i => insNat i s) p.roster, data := p.data || m.data
        poison := p.poison || m.poison, vals := p.add (m.vals.map f32Val) }
      w.modArm a.tag a.step fun a => a.setPart p

def execArrivalPartial (m : PartialMsg) (s : State) : Host.Outcome State Fault Refusal :=
  s.run fun w => w.onArrival (.part m) fun w => w.partTake m

/-- A non-home Chimney forwards a partial toward the home (R269). -/
def World.partForward (w : World) (tag step c : Nat) : World :=
  match w.arm tag step with
  | none => w
  | some a =>
    let p := a.part c
    if a.mode ≠ 1 || a.isHome || p.sent || p.n = 0 || !(decide (a.subtree ≤ p.n) || w.tickBegun a.close) then w
    else
      let w := w.modArm tag step fun a => a.setPart { p with sent := true }
      (w.fabricSend (some a.job) (a.homeOf c) (.part ⟨tag, step, c, p.vals, p.roster, p.n, p.data, p.poison⟩)).2

def execArrivalForward (tag step chunk : Nat) (s : State) : Host.Outcome State Fault Refusal :=
  s.run fun w => w.partForward tag step chunk

/-- The home of an ARRIVAL bucket closes one tick after the close tick (R269). -/
def World.arrivalClose (w : World) (tag step : Nat) : World :=
  match w.arm tag step with
  | none => w
  | some a =>
    if a.mode ≠ 1 || !a.isHome || !w.tickBegun (a.close + 1) then w
    else
      let w := w.closeUnits tag step (w.homeUnits a)
      match w.arm tag step with
      | some b => w.dropUnbound b
      | none => w

def execArrivalClose (tag step : Nat) (s : State) : Host.Outcome State Fault Refusal := s.run fun w => w.arrivalClose tag step

/-! ### Multicast (R270) -/

/-- CHM_MCAST: packets of up to 1,024 bytes (R270, R405). -/
def chmMcast (d : Desc) : Act Fin := do
  let src := fld d.w2 47 0
  let dst := fld d.w3 47 0
  let len := fld d.w4 31 0
  let nline := fld d.w5 47 0
  need (zeroBits d.w2 [(63, 48)] && zeroBits d.w3 [(63, 48)] && zeroBits d.w4 [(63, 44)] && zeroBits d.w5 [(63, 48)] && d.w6 == 0 &&
    d.w7 == 0 && src % 32 == 0 && dst % 32 == 0 && len % 32 == 0 && nline % 8 == 0) stOperand
  let bs ← readVB src len
  (chunks 1024 bs).zipIdx.forM fun p => actW fun w =>
    (w.fabricCast (some (jobOf d)) (fld d.w4 43 32)
      (.mcast ⟨jobOf d, dst + 1024 * p.2, nline, p.1.any Prod.snd, p.1.map Prod.fst⟩)).2
  return .done stOk

def execChmMcast (c : Cmd) (s : State) : Host.Outcome State Fault Refusal :=
  s.run fun w => w.runCmd c (fun d => opcodeOf d == 0x83) chmMcast

/-- What a receiver does with a multicast packet's data (R270): the pieces it wrote, or none where it discards the packet. -/
def mcastData (m : McastMsg) : Act (Option (List (Nat × Nat))) := do
  if (← actGet fun w => (w.job m.job).isNone) then throw (.xlt m.dst)
  let ps ← xlateRange m.dst m.data.length true
  let w := (← get).w
  let r ← get
  match ps.find? fun p => match w.place p.1 with | .page | .nowhere | .lost _ => true | _ => false with
  | some p =>
    actW fun w => w.unmapped r.ag p.1
    return none
  | none =>
    writeVB m.dst (m.data.map fun b => (b, m.poison))
    return some ps

/-- Add a packet's bytes to the word at NLINE once the packet's data is visible (R270). -/
def World.mcastCount (w : World) (m : McastDue) : World :=
  if m.pieces.all fun p => w.rangeVisible p.1 p.2 then
    (w.modChm fun c => { c with mcasts := c.mcasts.erase m }).atomicAt (chmFor m.job) m.word 0 (BitVec.ofNat 64 m.len)
  else w

/-- The same for every packet that waits. -/
def World.mcastPump (w : World) : World := w.dev.chm.mcasts.foldl (fun w m => w.mcastCount m) w

/-- A multicast packet at a receiver (R270). -/
def World.mcastTake (w : World) (m : McastMsg) : World :=
  let ag := chmFor m.job
  match (mcastData m).run (Run.init w ag) with
  | .ok (some ps, r) =>
    if m.nline = 0 then r.w
    else match (xlateA m.nline true).run (Run.init r.w ag) with
      | .ok (pa, _) =>
        let q : McastDue := ⟨m.job, pa, m.data.length, ps⟩
        (r.w.modChm fun c => { c with mcasts := c.mcasts ++ [q] }).mcastCount q
      | .error (.xlt va) => (r.w.xltEvent ag va).2
      | .error e => (w.ask ag e).backNet (.mcast m)
  | .ok (none, r) => r.w
  | .error (.xlt va) => (w.xltEvent ag va).2
  | .error e => (w.ask ag e).backNet (.mcast m)

def execMcastReceive (m : McastMsg) (s : State) : Host.Outcome State Fault Refusal :=
  s.run fun w => w.onArrival (.mcast m) fun w => w.mcastTake m

/-! ### Remote reads (R272) -/

/-- The data a CHM_RREAD reads on this device. -/
def localRread (d : Desc) : Act Fin := do
  copyV (fld d.w2 47 0) (fld d.w3 47 0) (fld d.w4 31 0)
  return .done stOk

/-- CHM_RREAD. -/
def chmRread (d : Desc) : Act Fin := do
  let x ← get
  let src := fld d.w2 47 0
  let dev := fld d.w2 60 48
  let dst := fld d.w3 47 0
  let len := fld d.w4 31 0
  need (zeroBits d.w2 [(63, 61)] && zeroBits d.w3 [(63, 48)] && zeroBits d.w4 [(63, 32)] && zeroBits d.w5 [(63, 31)] && d.w6 == 0 &&
    d.w7 == 0 && src % 32 == 0 && dst % 32 == 0 && len % 32 == 0) stOperand
  let _ ← xlateRange dst len true
  let (ring, idx) := x.ag.cmd.getD (⟨6, 0⟩, 0)
  if dev = x.w.devId then
    if bit d.w5 30 then
      actW fun w => w.askGate ⟨jobOf d, fld d.w5 29 16, fld d.w5 15 0, .ring ⟨ring, d⟩⟩
      return .wait .gated
    else localRread d
  else
    let tag := x.w.dev.chm.nextTag
    let m : RReadMsg := ⟨jobOf d, dev, x.w.devId, tag, src, len, bit d.w5 30, fld d.w5 29 16, fld d.w5 15 0⟩
    if (← actRun fun w => w.fabricSend (some (jobOf d)) dev (.rreadReq m)) then
      actW fun w => w.modChm fun c => { c with rreads := c.rreads ++ [⟨tag, ring, idx, dst, len, none⟩], nextTag := (tag + 1) % 2 ^ 16 }
      return .wait (.fabric tag)
    else return .done stPoison

def execChmRread (c : Cmd) (s : State) : Host.Outcome State Fault Refusal :=
  s.run fun w => w.runCmd c (fun d => opcodeOf d == 0x84) chmRread

/-- The answer to a remote read: its data is written and the command completes, or it completes with the status of the other
device. An answer whose writes must wait is held where the read is: it never waits in the network (R31). -/
def World.rreadDone (w : World) (m : RReadRsp) : World :=
  match w.dev.chm.rreads.find? fun q => q.tag == m.tag with
  | none => w
  | some q =>
    let gone := fun (w : World) => w.modChm fun c => { c with rreads := c.rreads.filter fun x => x.tag ≠ m.tag }
    if m.status ≠ stOk then (gone w).endCmd q.ring q.idx m.status 0
    else
      let w' := (gone w).resume q.ring q.idx do
        writeVB q.dst (m.data.map fun b => (b, m.poison))
        if m.poison then notePoison 0
        return .done stOk
      if (w'.ringRun q.ring).entries.any (fun e => e.idx == q.idx && e.phase != .done) then
        w'.modChm fun c => { c with rreads := c.rreads ++ [{ q with rsp := some m }] }
      else w'

/-- Answers of remote reads that waited are taken again. -/
def World.retryRsp (w : World) : World :=
  w.dev.chm.rreads.foldl (fun w q => match q.rsp with | some r => w.rreadDone r | none => w) w

/-- Answer a remote read (R272). -/
def World.rreadAnswer (w : World) (m : RReadMsg) (r : RReadRsp) : World :=
  if m.srcDev = w.devId then w.rreadDone r else (w.fabricSend (some m.job) m.srcDev (.rreadRsp r)).2

/-- Read for a remote device and answer; false while lines must be asked for. -/
def World.rreadServe (w : World) (m : RReadMsg) : Bool × World :=
  let ag := chmFor m.job
  let rsp := fun (w : World) st p bs => (true, w.rreadAnswer m ⟨m.tag, st, p, bs⟩)
  match (readVB m.addr m.len).run (Run.init w ag) with
  | .ok (bs, r) => rsp r.w (if r.denied then stFwDenied else stOk) (bs.any Prod.snd) (bs.map Prod.fst)
  | .error (.xlt va) => rsp (w.xltEvent ag va).2 stXlt false []
  | .error (.poison _) => rsp w stPoison false []
  | .error (.status c) => rsp w c false []
  | .error e => (false, w.ask ag e)

/-- A remote read reaches this device: to its gate, or read at once. -/
def World.rreadTake (w : World) (m : RReadMsg) : World :=
  if m.vchk then w.askGate ⟨m.job, m.wreg, m.expver, .remote m⟩
  else match w.rreadServe m with
    | (true, w) => w
    | (false, w) => w.backNet (.rreadReq m)

def execRreadRequest (m : RReadMsg) (s : State) : Host.Outcome State Fault Refusal :=
  s.run fun w => w.onArrival (.rreadReq m) fun w => w.rreadTake m

/-! ### PERMUTE (R273) -/

/-- The deadline of a round's timer. -/
def World.permDeadline (w : World) : Option Nat :=
  let p := w.rf chmCfg 63 32
  if p = 0 then none else some (w.dev.gtime + p * 1024)

def World.setPerm (w : World) (p : Option PermRound) : World := w.modChm fun c => { c with perm := p }

/-- A piece lands in the staging area of the running round. -/
def World.pieceLand (w : World) (p : PermRound) (m : PieceMsg) : World :=
  let n := m.data.length
  let full := decide (p.inbytes < p.got + n) || decide (p.stagesz < p.got + n)
  let ag := chmFor p.job
  let w := if full then w else
    let w := w.store ag (p.stage + p.got) m.data
    if m.poison then (granules (p.stage + p.got) n).foldl (fun w g => w.poisonAt ag g) w else w
  w.setPerm (some { p with got := p.got + n, pieces := p.pieces ++ [(m.dst, p.got, n, m.poison)], excess := p.excess || full,
                           deadline := w.permDeadline })

/-- Copy the staging area to its destinations, once what it holds is visible. -/
def permCopy (p : PermRound) : Act Fin := do
  if !(← actGet fun w => w.rangeVisible p.stage p.got) then throw .hold
  p.pieces.forM fun x => do
    let (bs, _) ← readP (p.stage + x.2.1) x.2.2.1
    writeVB x.1 (bs.map fun b => (b, x.2.2.2))
    if x.2.2.2 then notePoison (lineOf (p.stage + x.2.1))
  return .done stOk

/-- The round ends when it overflowed or holds INBYTES bytes and NPART DONE messages. -/
def World.permTry (w : World) : World :=
  match w.dev.chm.perm with
  | none => w
  | some p =>
    if p.excess then (w.setPerm none).endCmd p.ring p.idx stOperand 0
    else if p.got = p.inbytes ∧ p.npart ≤ p.dones then
      let w' := (w.setPerm none).resume p.ring p.idx (permCopy p)
      if (w'.ringRun p.ring).entries.any (fun e => e.idx == p.idx && e.phase != .done) then w'.setPerm (some p) else w'
    else w

/-- A piece of the round that runs here; any other is discarded. -/
def World.pieceTake (w : World) (m : PieceMsg) : World :=
  match w.dev.chm.perm with
  | some p => if p.round = m.round then (w.pieceLand p m).permTry else w.count chmDiscard2 31 0 1
  | none => w.count chmDiscard2 31 0 1

def execPermutePiece (m : PieceMsg) (s : State) : Host.Outcome State Fault Refusal :=
  s.run fun w => w.onArrival (.piece m) fun w => w.pieceTake m

/-- A DONE of the round that runs here; any other is discarded. -/
def World.permDone (w : World) (round : Nat) : World :=
  match w.dev.chm.perm with
  | some p =>
    if p.round = round then (w.setPerm (some { p with dones := p.dones + 1, deadline := w.permDeadline })).permTry
    else w.count chmDiscard2 31 0 1
  | none => w.count chmDiscard2 31 0 1

def execPermuteDone (round dev : Nat) (s : State) : Host.Outcome State Fault Refusal :=
  s.run fun w => w.onArrival (.permDone round dev) fun w => w.permDone round

/-- The round's timer ends (R273). -/
def World.permTimeout (w : World) : World :=
  match w.dev.chm.perm with
  | some p => match p.deadline with
    | some t => ((w.at t).setPerm none).endCmd p.ring p.idx stTimeout 0
    | none => w
  | none => w

def execPermuteTimeout (s : State) : Host.Outcome State Fault Refusal := s.run World.permTimeout

/-- CHM_PERMUTE. -/
def chmPermute (d : Desc) : Act Fin := do
  let x ← get
  let w := x.w
  let job := jobOf d
  let stage := fld d.w3 47 0
  let sz := fld d.w4 31 0
  let mgrp := fld d.w4 56 45
  let round := fld d.w5 63 48
  let (ring, idx) := x.ag.cmd.getD (⟨6, 0⟩, 0)
  need (zeroBits d.w3 [(63, 48)] && zeroBits d.w4 [(63, 57)] && d.w6 == 0 && d.w7 == 0) stOperand
  need (sz == 0 || w.inSlm stage sz) stOperand
  if w.dev.chm.perm.isSome then throw .hold
  let n := fld d.w2 63 48
  let ws ← readWords (fld d.w2 47 0) (4 * n)
  actW fun w => w.setPerm (some ⟨ring, idx, job, round, stage, sz, fld d.w4 44 32, fld d.w5 47 0, 0, [], 0, false, w.permDeadline⟩)
  (upTo 0 n).forM fun i => do
    let e := fun k => ws.getD (4 * i + k) 0
    let dev := fld (e 3) 12 0
    let bs ← readVB (fld (e 0) 47 0) (fld (e 2) 31 0)
    let m : PieceMsg := ⟨round, fld (e 1) 47 0, bs.any Prod.snd, bs.map Prod.fst⟩
    actW fun w => if dev = w.devId then
        (match w.dev.chm.perm with | some p => w.pieceLand p m | none => w)
      else (w.fabricSend (some job) dev (.piece m)).2
  modify fun r => { r with pois := none }
  actW fun w => (w.fabricCast (some job) mgrp (.permDone round w.devId)).2
  return .wait (.fabric round)

def execChmPermute (c : Cmd) (s : State) : Host.Outcome State Fault Refusal :=
  s.run fun w => (w.runCmd c (fun d => opcodeOf d == 0x85) chmPermute).permTry

/-- What the Chimney does once writes have become visible (R266, R270, R272, R273). -/
def World.chmPump (w : World) : World := w.infoPump.mcastPump.retryRsp.permTry

end Sys2Proof.Machine
end

