-- ==== Sys2Proof/Machine/Copy.lean ====
section
/-! DEFINITION. The copy engines: COPY, FILL and COPY2D (R345, R346). -/

namespace Sys2Proof.Machine

/-- A range's physical pieces: itself under PHYS, else translated in the command's job (R346). -/
def copyRange (phys : Bool) (a n : Nat) (write : Bool) : Act (List (Nat × Nat)) :=
  if phys then return if n = 0 then [] else [(a, n)] else xlateRange a n write

/-- Whether two ranges share a byte. -/
def overlaps (a b : Nat × Nat) : Bool :=
  decide (0 < a.2) && decide (0 < b.2) && decide (a.1 < b.1 + b.2) && decide (b.1 < a.1 + a.2)

/-- PHYS is honoured only on a ring whose port is the owner port (R346). -/
def physOk (d : Desc) : Act Bool := do
  let r ← get
  return !bit d.w2 48 || (match r.ag.cmd with
    | some (ring, _) => r.w.dev.urk.owner == some (r.w.ringPort ring)
    | none => false)

/-- Read bytes from physical pieces, each with whether it is poisoned; under KEEPP the poison of the sources is not the command's
(R346). -/
def copyRead (keep : Bool) (ps : List (Nat × Nat)) : Act (List (Byte × Bool)) := do
  let before := (← get).pois
  let bs ← ps.mapM fun p => do
    let (bs, gs) ← readP p.1 p.2
    return bs.zipIdx.map fun b => (b.1, gs.contains (granOf (p.1 + b.2)))
  if keep then modify fun r => { r with pois := before }
  return bs.flatten

/-- Write marked bytes to physical pieces; they count in WBX_CE_BYTES (R346, R347). -/
def copyWrite (ps : List (Nat × Nat)) (bs : List (Byte × Bool)) : Act Unit := do
  let page := (← get).ag.page
  actW fun w => w.count (rk page 0x0B8) 63 0 bs.length
  let _ ← ps.foldlM (fun (bs : List (Byte × Bool)) p => do
    let mine := bs.take p.2
    writeP p.1 (mine.map Prod.fst)
    ((mine.zipIdx.filter fun b => b.1.2).map fun b => granOf (p.1 + b.2)).eraseDups.forM fun g => poisonP g 1
    return bs.drop p.2) bs

/-- Copy rows of n bytes, `rows` of them, with two pitches (R345, R346). -/
def copyRows (d : Desc) (src dst n rows sp dp : Nat) : Act Fin := do
  let phys := bit d.w2 48
  let keep := bit d.w2 49
  let ps ← (List.range rows).mapM fun i => copyRange phys (src + i * sp) n false
  let pd ← (List.range rows).mapM fun i => copyRange phys (dst + i * dp) n true
  need (!ps.flatten.any fun a => pd.flatten.any (overlaps a)) stOperand
  (ps.zip pd).forM fun x => do copyWrite x.2 (← copyRead keep x.1)
  return .done stOk

/-- COPY (R345). -/
def copyCmd (d : Desc) : Act Fin := do
  need (zeroBits d.w2 [(63, 50)] && zeroBits d.w3 [(63, 48)] && zeroBits d.w4 [(63, 40)] && d.w5 == 0 && d.w6 == 0 && d.w7 == 0 &&
    fld d.w2 47 0 % 32 == 0 && fld d.w3 47 0 % 32 == 0 && fld d.w4 39 0 % 32 == 0) stOperand
  need (← physOk d) stOperand
  copyRows d (fld d.w2 47 0) (fld d.w3 47 0) (fld d.w4 39 0) 1 0 0

/-- FILL (R345). -/
def fillCmd (d : Desc) : Act Fin := do
  need (zeroBits d.w2 [(63, 49)] && zeroBits d.w4 [(63, 40)] && d.w5 == 0 && d.w6 == 0 && d.w7 == 0 &&
    fld d.w2 47 0 % 32 == 0 && fld d.w4 39 0 % 32 == 0) stOperand
  need (← physOk d) stOperand
  let n := fld d.w4 39 0
  let pd ← copyRange (bit d.w2 48) (fld d.w2 47 0) n true
  copyWrite pd (((List.replicate (n / 8) (wordBytes d.w3)).flatten).map fun b => (b, false))
  return .done stOk

/-- COPY2D (R345). -/
def copy2dCmd (d : Desc) : Act Fin := do
  need (zeroBits d.w2 [(63, 50)] && zeroBits d.w3 [(63, 48)] && d.w6 == 0 && d.w7 == 0 &&
    fld d.w2 47 0 % 32 == 0 && fld d.w3 47 0 % 32 == 0 && fld d.w4 31 0 % 32 == 0 && fld d.w5 31 0 % 32 == 0 &&
    fld d.w5 63 32 % 32 == 0) stOperand
  need (← physOk d) stOperand
  copyRows d (fld d.w2 47 0) (fld d.w3 47 0) (fld d.w4 31 0) (fld d.w4 63 32) (fld d.w5 31 0) (fld d.w5 63 32)

def execCopy (c : Cmd) (s : State) : Host.Outcome State Fault Refusal :=
  s.run fun w => w.runCmd c (fun d => opcodeOf d == 0x70) copyCmd

def execFill (c : Cmd) (s : State) : Host.Outcome State Fault Refusal :=
  s.run fun w => w.runCmd c (fun d => opcodeOf d == 0x71) fillCmd

def execCopy2d (c : Cmd) (s : State) : Host.Outcome State Fault Refusal :=
  s.run fun w => w.runCmd c (fun d => opcodeOf d == 0x72) copy2dCmd

end Sys2Proof.Machine
end

