-- ==== Sys2Proof/Machine/Readers.lean ====
section
/-! DEFINITION. Version-gated reads on their way: checked, parked, released, timed out, and read (R187 to R190, R272). -/

namespace Sys2Proof.Machine

/-- The waiting command of a gated read. -/
def World.gateEntry (w : World) (c : Cmd) : Option Entry :=
  (w.ringRun c.ring).entries.find? fun e => e.phase == .gated && e.desc == c.desc

/-- End a gated read without its data: its command completes, or the other device is answered (R188, R272). -/
def World.gateRefuse (w : World) (g : GateRead) (status evseq : Nat) : World :=
  match g.req with
  | .ring c => match w.gateEntry c with
    | some e => w.endCmd c.ring e.idx status evseq
    | none => w
  | .remote m => w.rreadAnswer m ⟨m.tag, status, false, []⟩

/-- A check at the gate: passed or refused; `none` when the read must wait (R188). -/
def World.gateCheck (w : World) (g : GateRead) : Option World :=
  match w.gateOf g with
  | .pass slot => some (w.passGate g slot)
  | .wait => none
  | .stale => some ((w.count (rk (blwPage (w.gateDie g)) 0x0B8) 63 32 1).gateRefuse g stVersionStale 0)
  | .invalid => some (w.gateRefuse g stOperand 0)

/-- A gated read reaches its gate (R188, R190). -/
def World.gateArrive (w : World) (g : GateRead) : World :=
  if !w.dev.blw.asks.contains g then w
  else
    let w := w.upd fun d => { d with blw := { d.blw with asks := d.blw.asks.erase g } }
    match w.gateCheck g with
    | some w => w
    | none =>
      let die := w.gateDie g
      let lim := w.rf (rk (blwPage die) 0x088) 31 0
      let p : Parked := ⟨die, g, if lim = 0 then none else some (w.dev.gtime + lim * 1024), false⟩
      (w.count (rk (blwPage die) 0x0B8) 31 0 1).upd fun d => { d with blw := { d.blw with parked := d.blw.parked ++ [p] } }

def execGatedRead (g : GateRead) (s : State) : Host.Outcome State Fault Refusal := s.run fun w => w.gateArrive g

/-- A parked read leaves the gate unit. -/
def World.unpark (w : World) (p : Parked) : World :=
  w.upd fun d => { d with blw := { d.blw with parked := d.blw.parked.erase p } }

/-- The next parked read that a commit lets the gate check again (R187). -/
def World.parkedCheck (w : World) (die : Nat) : World :=
  match w.dev.blw.parked.find? fun p => p.die == die && p.due with
  | none => w
  | some p => match (w.unpark p).gateCheck p.read with
    | some w => w
    | none => w.upd fun d => { d with blw := { d.blw with
        parked := updFirst (fun q => q == p) (fun q => { q with due := false }) d.blw.parked } }

def execParkedReadRelease (die : Nat) (s : State) : Host.Outcome State Fault Refusal := s.run fun w => w.parkedCheck die

/-- The parked read of a die whose wait ends first. -/
def World.firstParked (w : World) (die : Nat) : Option (Nat × Parked) :=
  w.dev.blw.parked.foldl (fun b p => match p.deadline with
    | some t => if p.die ≠ die then b else match b with
      | some (u, _) => if t < u then some (t, p) else b
      | none => some (t, p)
    | none => b) none

/-- A parked read reaches VERSION_WAIT_LIMIT: it is dropped, with EV_VERSION_WAIT (R190, R444). -/
def World.parkedTimeout (w : World) (die : Nat) : World :=
  match w.firstParked die with
  | none => w
  | some (t, p) =>
    let w := (w.at t).unpark p
    let g := p.read
    let cv := match w.region g.wreg with | some r => r.cv | none => 0
    let port := match g.req with | .ring c => some (w.ringPort c.ring) | .remote _ => none
    let (n, w) := w.raise port (blwPage die) 0x0F 0
      (detail (some g.job) (g.wreg * 2 ^ 8 + g.exp * 2 ^ 22 + cv * 2 ^ 38)) 0
    w.gateRefuse g stVersionTimeout n

def execVersionWaitTimeout (die : Nat) (s : State) : Host.Outcome State Fault Refusal := s.run fun w => w.parkedTimeout die

/-- The data of a read that has passed: its command reads and writes, or the other device is answered; `none` while it must
wait for a line. -/
def World.gateServe (w : World) (g : GateRead) : Option World × World :=
  match g.req with
  | .ring c => match w.gateEntry c with
    | none => (some w, w)
    | some e =>
      let w' := w.resume c.ring e.idx (if opcodeOf c.desc = 0x84 then localRread c.desc else moveBody c.desc)
      if (w'.gateEntry c).isSome then (none, w') else (some w', w')
  | .remote m => match w.rreadServe m with
    | (true, w) => (some w, w)
    | (false, w) => (none, w)

/-- A passed read's last data returns: its slot has one reader less, and writes that waited for the target slot are made
(R189). -/
def World.readerDone (w : World) (i slot : Nat) : World :=
  match w.dev.blw.passed.find? fun p => p.1.wreg == i && p.2 == slot with
  | none => w
  | some p => match w.gateServe p.1 with
    | (none, w) => w
    | (some w, _) =>
      let w := w.upd fun d => { d with blw := { d.blw with passed := d.blw.passed.erase p } }
      let w := w.modRegion i fun r =>
        if slot = 0 then { r with readers0 := r.readers0 - 1 } else { r with readers1 := r.readers1 - 1 }
      (w.writePend i).settleOpens

def execReaderRelease (index slot : Nat) (s : State) : Host.Outcome State Fault Refusal := s.run fun w => w.readerDone index slot

end Sys2Proof.Machine
end

