-- ==== Sys2Proof/Machine/Experts.lean ====
section
/-! DEFINITION. The stokers and routed layers: the expert directory (R291, R292), routing arms (R280 to R283), placement (R287 to
R290), weight fetches through the cache (R293 to R295), expert programs (R296 to R299), count banks (R300) and failures (R304). -/

namespace Sys2Proof.Machine

def exdPage : Nat := 4
def rtrPage : Nat := 5

def World.modStk (w : World) (f : Stk → Stk) : World := w.upd fun d => { d with stk := f d.stk }

/-! ### Emitting commands into rings (R128, R299) -/

/-- Whether a ring takes no commands: disabled or halted. -/
def World.ringDown (w : World) (r : RingId) : Bool := !bit (w.reg (rgk r 0)) 0 || bit (w.reg (rgk r 0x30)) 3

/-- The producer's TAIL, as the watched line holds it (R127). -/
def World.lineTail (w : World) (r : RingId) : Nat := fld (w.word (w.rf (rgk r 0x10) 47 7 * 128)) 31 0

/-- Commands a ring still has room for (R129, R299). -/
def World.ringRoom (w : World) (r : RingId) : Nat :=
  2 ^ w.rf (rgk r 0) 5 1 - (w.lineTail r + 2 ^ 32 - w.ringDone r) % 2 ^ 32

/-- Commands a ring still has room for, its watched line read as every agent sees it (R341). -/
def roomOf (r : RingId) : Act Nat := do
  let w := (← get).w
  let _ ← readP (w.rf (rgk r 0x10) 47 7 * 128) 4
  return w.ringRoom r

/-- Write one descriptor, then the TAIL that covers it; the command's count. -/
def emitCmd (r : RingId) (d : Desc) : Act Nat := do
  let w := (← get).w
  let _ ← readP (w.rf (rgk r 0x10) 47 7 * 128) 4
  let t := w.lineTail r
  writeP (w.rf (rgk r 0) 47 12 * 4096 + t % 2 ^ w.rf (rgk r 0) 5 1 * 64) (descBytes d)
  writeP (w.rf (rgk r 0x10) 47 7 * 128) (leBytes 4 (t + 1))
  return t

/-- Write the waiting commands of an arm, in order, while their rings have room: what is left, and what was written with its count.
An expert ring that is halted or disabled fails the pass with the code given (R304, R327); a CHM ring that is takes nothing meanwhile
(log entry 64). -/
def pumpOut (code : Nat) : List (RingId × Desc) → Act (List (RingId × Desc) × List (RingId × Nat × Desc))
  | [] => return ([], [])
  | (r, d) :: rest => do
    let w := (← get).w
    if w.ringDown r then
      if r.page = 6 then return ((r, d) :: rest, [])
      fail code
    if (← roomOf r) = 0 then return ((r, d) :: rest, [])
    let n ← emitCmd r d
    let (l, done) ← pumpOut code rest
    return (l, (r, n, d) :: done)

/-- Whether the command with a count has its record written (R126). -/
def World.idxDone (w : World) (r : RingId) (idx : Nat) : Bool :=
  let n := (w.ringDone r + 2 ^ 32 - idx) % 2 ^ 32
  n != 0 && decide (n < 2 ^ 31)

/-- Whether the command with a count has taken effect. -/
def World.idxEnded (w : World) (r : RingId) (idx : Nat) : Bool :=
  w.idxDone r idx || (w.ringRun r).entries.any fun e => e.idx == idx && e.phase == .done

/-- A command that a stoker composes; its SEQ is not stated (R299). -/
def newCmd (op job live step : Nat) (flags : Nat) (w2 w3 w4 w5 : Nat) : Act Desc := do
  let n ← actRun World.draw
  return ⟨BitVec.ofNat 64 (op + job * 2 ^ 8 + flags * 2 ^ 16 + (Config.freeWord n).toNat % 2 ^ 32 * 2 ^ 32),
    BitVec.ofNat 64 (live + step * 2 ^ 32), BitVec.ofNat 64 w2, BitVec.ofNat 64 w3, BitVec.ofNat 64 w4, BitVec.ofNat 64 w5, 0, 0⟩

/-- The agent of a stoker that works for an arm. -/
def stkAgent (page job : Nat) : Agent :=
  { page := page, dbg := dbgPage page, node := engineNode page 0, job := some job, stoker := true }

/-! ### The expert directory (R291, R292) -/

/-- The words of a directory entry. -/
def World.exdWords (w : World) (i : Nat) : List U64 := (w.dev.stk.exd.lookup i).getD [0, 0, 0, 0]

def World.setExd (w : World) (i : Nat) (ws : List U64) : World :=
  w.modStk fun s => { s with exd := if ws = [0, 0, 0, 0] then s.exd.filter (fun e => e.1 ≠ i) else (i, ws) :: s.exd.filter fun e => e.1 ≠ i }

def exdValid (ws : List U64) : Bool := bit (ws.getD 0 0) 30
def exdJob (ws : List U64) : Nat := fld (ws.getD 0 0) 36 31
def exdNreg (ws : List U64) : Nat := fld (ws.getD 0 0) 28 27 + 1

/-- What LOAD checks of an entry (R292). -/
def exdOk (ws : List U64) : Bool :=
  !exdValid ws || (zeroBits (ws.getD 0 0) [(63, 58)] && zeroBits (ws.getD 1 0) [(63, 48)] && zeroBits (ws.getD 2 0) [(63, 48)] &&
    (Fmt.ofCode (fld (ws.getD 0 0) 40 37)).isSome)

/-- Whether an arm with a pass in progress names any of some entries (R292). -/
def World.exdBusy (w : World) (first count : Nat) : Bool :=
  w.dev.stk.rts.any fun a => a.pass.isSome &&
    (let lo := fld (a.words.getD 0 0) 47 32
     decide (lo < first + count) && decide (first < lo + fld (a.words.getD 1 0) 16 0))

/-- Drop the cached copies keyed by some entries (R292). -/
def World.dropCached (w : World) (first count : Nat) : World :=
  w.modStk fun s => { s with rts := s.rts.map fun a => { a with cache := a.cache.map fun c => match c.key with
    | some (i, _, _) => if first ≤ i ∧ i < first + count then { c with key := none } else c
    | none => c } }

/-- An EXD_CMD write (R292, R448). -/
def World.exdCmd (w : World) (writer : Nat) (v : U64) : World :=
  let first := fld v 15 0
  let count := fld v 32 16
  let fin := fun st (w : World) => w.opDone (rk 4 0x090) st 16 0
  let base := w.rf (rk 4 0x080) 47 12 * 4096
  let badJob := fun (w : World) (es : List (List U64)) => es.any fun e => exdValid e && decide (writer < 4) && !w.assignable (exdJob e) writer
  let range := decide (1 ≤ count) && decide (first + count ≤ 65536)
  if fld v 34 33 = 1 then
    if !range || !w.inHbm (base + 32 * first) (32 * count) then fin stOperand w
    else w.opRun (mantel 4) (rk 4 0x090) writer 4 0x088 v (do
      let es := chunks 4 (← opWords (base + 32 * first) (4 * count))
      if badJob w es then
        actW fun w => w.deny writer 4 0x088
        return stJob
      if w.exdBusy first count || !es.all exdOk then return stOperand
      actW fun w => (es.zipIdx.foldl (fun (w : World) e =>
        w.setExd (first + e.2) (e.1.set 0 (setBit (e.1.getD 0 0) 57 false))) w).dropCached first count
      return stOk) fin
  else if fld v 34 33 = 2 then
    if !range then fin stOperand w
    else if badJob w ((upTo first count).map w.exdWords) then fin stJob (w.deny writer 4 0x088)
    else if w.exdBusy first count then fin stOperand w
    else fin stOk (((upTo first count).foldl (fun w i => w.setExd i [0, 0, 0, 0]) w).dropCached first count)
  else w

def World.exdWrite (w : World) (writer : Nat) (v : U64) : World :=
  w.command writer 4 0x088 v (w.opBusy (rk 4 0x090)) fun w => w.exdCmd writer v

def execExdLoad (port first count : Nat) (s : State) : Host.Outcome State Fault Refusal :=
  s.port port 4 0x088 (BitVec.ofNat 64 (first % 2 ^ 16 + count % 2 ^ 17 * 2 ^ 16 + 2 ^ 33)) fun w =>
    w.exdWrite port (BitVec.ofNat 64 (first % 2 ^ 16 + count % 2 ^ 17 * 2 ^ 16 + 2 ^ 33))

def execExdClear (port first count : Nat) (s : State) : Host.Outcome State Fault Refusal :=
  s.port port 4 0x088 (BitVec.ofNat 64 (first % 2 ^ 16 + count % 2 ^ 17 * 2 ^ 16 + 2 ^ 34)) fun w =>
    w.exdWrite port (BitVec.ofNat 64 (first % 2 ^ 16 + count % 2 ^ 17 * 2 ^ 16 + 2 ^ 34))

/-! ### Routing arms (R281 to R283) -/

def RtArm.word (a : RtArm) (i : Nat) : U64 := a.words.getD i 0
def RtArm.group (a : RtArm) : Nat := fld (a.word 0) 7 0
def RtArm.xring (a : RtArm) : Nat := fld (a.word 0) 9 8
def RtArm.cring (a : RtArm) : RingId := ⟨6, fld (a.word 0) 13 10⟩
def RtArm.k (a : RtArm) : Nat := fld (a.word 0) 17 14
def RtArm.ovfd (a : RtArm) : Nat := fld (a.word 0) 21 18
def RtArm.cap (a : RtArm) : Nat := fld (a.word 0) 31 22 + 1
def RtArm.dir0 (a : RtArm) : Nat := fld (a.word 0) 47 32
def RtArm.nexp (a : RtArm) : Nat := fld (a.word 1) 16 0
def RtArm.nreg (a : RtArm) : Nat := fld (a.word 1) 18 17 + 1
def RtArm.tagbase (a : RtArm) : Nat := fld (a.word 1) 30 19
def RtArm.gsrc (a : RtArm) : Bool := bit (a.word 1) 31
def RtArm.nmb (a : RtArm) : Nat := fld (a.word 1) 41 32 + 1
def RtArm.ctag (a : RtArm) : Nat := fld (a.word 1) 53 42
def RtArm.recs (a : RtArm) : Nat := fld (a.word 2) 47 0
def RtArm.recstr (a : RtArm) : Nat := fld (a.word 3) 31 0
def RtArm.tpm (a : RtArm) : Nat := fld (a.word 3) 47 32
def RtArm.gate (a : RtArm) : Nat := fld (a.word 4) 47 0
def RtArm.disp (a : RtArm) : Nat := fld (a.word 5) 47 0
def RtArm.dsize (a : RtArm) : Nat := fld (a.word 6) 31 0
def RtArm.ech (a : RtArm) : Nat := fld (a.word 6) 63 32
def RtArm.cnt (a : RtArm) : Nat := fld (a.word 7) 47 0
def RtArm.cbase (a : RtArm) : Nat := fld (a.word 8) 47 0
def RtArm.cent (a : RtArm) : Nat := fld (a.word 9) 15 0
def RtArm.cesz (a : RtArm) : Nat := fld (a.word 9) 47 16 * 4096
def RtArm.emap (a : RtArm) : Nat := fld (a.word 10) 47 0
def RtArm.zlive (a : RtArm) : Nat := fld (a.word 13) 15 0
def RtArm.sync (a : RtArm) : Nat := fld (a.word 14) 47 0

/-- Fields of a program header (R296). -/
def progList (p : List U64) : Nat := fld (p.getD 0 0) 47 0
def progLstr (p : List U64) : Nat := fld (p.getD 1 0) 31 0
def progPre (p : List U64) : Nat := fld (p.getD 1 0) 47 32
def progBody (p : List U64) : Nat := fld (p.getD 1 0) 63 48
def progPost (p : List U64) : Nat := fld (p.getD 2 0) 15 0
def progDrop (p : List U64) : Nat := fld (p.getD 2 0) 31 16
def progPos (p : List U64) : Nat := fld (p.getD 5 0) 63 32
def progCount (p : List U64) : Nat := progPre p + progBody p + progPost p + progDrop p

def progOk (p : List U64) : Bool :=
  zeroBits (p.getD 0 0) [(63, 48)] && zeroBits (p.getD 3 0) [(63, 48)] && progList p % 64 == 0 && progPos p != 0 &&
  p.getD 6 0 == 0 && p.getD 7 0 == 0

def World.rt (w : World) (n : Nat) : Option RtArm := w.dev.stk.rts.find? fun a => a.num == n
def World.modRt (w : World) (n : Nat) (f : RtArm → RtArm) : World :=
  w.modStk fun s => { s with rts := updFirst (fun a => a.num == n) f s.rts }

/-- The checks of R282 and R323 on the job, the group and the expert ring: the first status that applies. -/
def World.armRefused (w : World) (page job group xring : Nat) : Option Nat :=
  match w.grp group with
  | none => some stJob
  | some g =>
    if g.job ≠ job then some stJob
    else
      let ok := g.members.all fun m =>
        let r : RingId := ⟨0x1000 + m.stove, xring⟩
        !w.isBound r && bit (w.reg (rgk r 0)) 0 && w.assignable job (w.ringPort r)
      let shared := fun pg gp xr => pg != page && xr == xring && (match w.grp gp with
        | some o => o.members.any fun m => g.members.any fun n => n.stove == m.stove
        | none => false)
      if xring ≤ g.ring || !ok || w.dev.stk.rts.any (fun a => shared a.page a.group a.xring) ||
          w.dev.stk.kvs.any (fun a => shared a.page (fld (a.words.getD 0 0) 7 0) (fld (a.words.getD 0 0) 9 8)) then some stOperand
      else none

/-- Whether a patch word is legal for a command's opcode (R297). -/
def patchOk (op : Nat) (pw : U64) : Bool :=
  let tile := op == 0x10 || op == 0x11 || op == 0x12
  zeroBits pw [(63, 17)] && decide (fld pw 3 0 ≤ 6) && decide (fld pw 7 4 ≤ 6) && decide (fld pw 11 8 ≤ 6) &&
  (!bit pw 12 || tile || op == 0x18 || op == 0x20) && (!bit pw 13 || op == 0x18) && (!bit pw 14 || op == 0x18) &&
  (!bit pw 15 || op == 0x11) && (!bit pw 16 || tile || op == 0x18)

/-- Whether no fault hides what a computation found. -/
def found (x : Except Nat α) (f : α → Bool) : Bool := match x with | .ok v => f v | .error _ => true

/-- End with the first of some translation faults, if any: after every other check of R282. -/
def firstFault (xs : List (Except Nat Unit)) : Act Unit :=
  match xs.findSome? fun x => match x with | .error va => some va | .ok _ => none with
  | some va => stopWith (.xlt va)
  | none => pure ()

/-- Check the header of a program and the templates of every member (R296, R297): the faults met. -/
def progCheck (va members : Nat) : Act (List U64 × List (Except Nat Unit)) := do
  match ← tryXlt (readWords va 8) with
  | .error va => return ([], [.error va])
  | .ok p =>
    need (progOk p) stOperand
    let n := progCount p
    let fs ← (List.range members).mapM fun k => do
      let ws ← tryXlt (readWords (progList p + k * progLstr p) (9 * n))
      need (found ws fun ws => (List.range n).all fun i => patchOk (fld (ws.getD (8 * i) 0) 7 0) (ws.getD (8 * n + i) 0)) stOperand
      return ws.map fun _ => ()
    return (p, fs)

/-- The descriptor of an arm and its checks on the job and the group (R282, R323): the words, whether another check of the list
refuses the arm, and the fault of its translation. -/
def armWords (va : Nat) (refused : World → List U64 → Option Nat) : Act (List U64 × Bool × List (Except Nat Unit)) := do
  match ← tryXlt (readWords va 16) with
  | .error f => return ([], false, [.error f])
  | .ok ws =>
    let bad := refused (← get).w ws
    need (bad != some stJob) stJob
    return (ws, bad.isSome, [])

/-- The fields of a routing descriptor that RT_ARM checks (R281, R282). -/
def RtArm.ok (a : RtArm) (members : Nat) : Bool :=
  let w := a.word
  let t := a.tpm * members
  zeroBits (w 0) [(63, 48)] && zeroBits (w 1) [(63, 54)] && zeroBits (w 2) [(63, 48)] && zeroBits (w 3) [(63, 48)] &&
  zeroBits (w 4) [(63, 48)] && zeroBits (w 5) [(63, 48)] && zeroBits (w 7) [(63, 48)] && zeroBits (w 8) [(63, 48)] &&
  zeroBits (w 9) [(63, 48)] && zeroBits (w 10) [(63, 48)] && zeroBits (w 11) [(63, 48)] && zeroBits (w 12) [(63, 48)] &&
  zeroBits (w 13) [(63, 16)] && zeroBits (w 14) [(63, 48)] && w 15 == 0 &&
  decide (1 ≤ a.k) && decide (a.k ≤ 8) && decide (a.ovfd ≤ 8) && decide (1 ≤ a.nexp) && decide (a.nexp ≤ 65536) &&
  decide (a.dir0 + a.nexp ≤ 65536) && decide (t ≤ 65536) && a.disp % 4096 == 0 && a.dsize % 4096 == 0 &&
  decide (64 + 8 * t * a.k + 2 * a.nexp ≤ a.dsize) && a.cbase % 4096 == 0 && decide (1 ≤ a.cent) && a.sync % 128 == 0 &&
  decide (a.tagbase + a.nexp * a.nreg ≤ 0x1000) && decide (a.k + a.ovfd ≤ a.nexp) && (a.gsrc || a.gate == 0)

/-- RT_ARM (R280 to R282). -/
def rtArmCmd (d : Desc) : Act Fin := do
  let x ← get
  let w := x.w
  let va := fld d.w2 47 0
  let num := fld d.w2 53 48
  let job := jobOf d
  let arm := fun ws => (⟨num, x.ag.page, job, ws, [], [], [], 0, [], none, none, [], [], none, []⟩ : RtArm)
  let (ws, bad, fault) ← armWords va fun w ws => w.armRefused x.ag.page job (arm ws).group (arm ws).xring
  need (va % 128 == 0 && (w.rt num).isNone && zeroBits d.w2 [(63, 54)] && d.w3 == 0 && d.w4 == 0 && d.w5 == 0 && d.w6 == 0 &&
    d.w7 == 0) stOperand
  firstFault fault
  let a := arm ws
  let members := match w.grp a.group with | some g => g.members.length | none => 0
  need (a.ok members) stOperand
  need (!bad) stOperand
  need ((List.range (a.nexp * a.nreg)).all (fun i => !w.chnTag (a.tagbase + i)) && !w.chnTag a.ctag) stOperand
  need ((List.range a.nexp).all fun e =>
    let ws := w.exdWords (a.dir0 + e)
    exdValid ws && exdJob ws == job && exdNreg ws == a.nreg) stOperand
  let ps ← tryXlt (xlateRange a.cbase (a.cent * a.cesz) true)
  need (found ps fun ps => ps.all fun p => w.inSlm p.1 p.2) stOperand
  let (f, fs) ← progCheck (fld (a.word 11) 47 0) members
  let (b, bs) ← progCheck (fld (a.word 12) 47 0) members
  firstFault (ps.map (fun _ => ()) :: fs ++ bs)
  let trig ← (List.range members).mapM fun k => xlateA (a.sync + 8 * k) true
  writeV a.sync (List.replicate (16 * members) 0)
  let cache := List.replicate a.cent (⟨none, false, 0, none⟩ : CacheEnt)
  actW fun w => w.modStk fun s => { s with rts := s.rts ++ [{ a with fprog := f, bprog := b, cache := cache, trig := trig }] }
  return .done stOk

def execRtArm (c : Cmd) (s : State) : Host.Outcome State Fault Refusal :=
  s.run fun w => w.runCmd c (fun d => opcodeOf d == 0xD0) rtArmCmd

/-- End a routing arm; a disarm that waited completes (R283). -/
def World.dropRt (w : World) (n : Nat) : World :=
  match w.rt n with
  | none => w
  | some a =>
    let w := w.modStk fun s => { s with
      rts := s.rts.filter fun x => x.num ≠ n, ready := s.ready.filter (· != (a.page, false, n)) }
    match a.disarm with
    | some (r, i) => w.endCmd r i stOk 0
    | none => w

/-- RT_DISARM (R280, R283). -/
def rtDisarm (d : Desc) : Act Fin := do
  let x ← get
  let num := fld d.w2 5 0
  need (zeroBits d.w2 [(63, 6)] && d.w3 == 0 && d.w4 == 0 && d.w5 == 0 && d.w6 == 0 && d.w7 == 0) stOperand
  match x.w.rt num with
  | none => fail stOperand
  | some a =>
    need (a.job == jobOf d && a.page == x.ag.page && a.disarm.isNone) stOperand
    if a.pass.isSome || !a.out.isEmpty then
      actW fun w => w.modRt num fun a => { a with disarm := x.ag.cmd }
      return .wait (.stoker num)
    else
      actW fun w => w.dropRt num
      return .done stOk

def execRtDisarm (c : Cmd) (s : State) : Host.Outcome State Fault Refusal :=
  s.run fun w => w.runCmd c (fun d => opcodeOf d == 0xD1) rtDisarm

/-! ### Placement (R278, R279, R288, R289) -/

/-- Fills of the experts and what a placement counts (R288). -/
structure Fill where
  fill : List Nat
  placed : Nat
  ovf : Nat
  full : Nat
  drop : Nat
  deriving DecidableEq, Repr

/-- A slot of a token: expert, row, gate and rank, or dropped. -/
abbrev SlotOf := Option (Nat × Nat × Nat × Nat)

/-- Walk down a token's ranked candidates (expert, score, gate) from rank q with r slots still free (R288). -/
def walkToken (k cap : Nat) : List (Nat × Nat × Nat) → Nat → Nat → Fill → List SlotOf × Fill
  | _, _, 0, f => ([], f)
  | [], _, r, f => (List.replicate r none, { f with drop := f.drop + r })
  | (e, v, g) :: cs, q, r + 1, f =>
    let x := (codeVal .l16 v).1
    if x.isNaN || v == 0xFF80 then walkToken k cap cs (q + 1) (r + 1) f
    else
      let n := f.fill.getD e cap
      if n < cap then
        let f := { f with fill := f.fill.set e (n + 1), placed := f.placed + 1, ovf := if k ≤ q then f.ovf + 1 else f.ovf }
        let t := walkToken k cap cs (q + 1) r f
        (some (e, n, g, q) :: t.1, t.2)
      else walkToken k cap cs (q + 1) (r + 1) { f with full := f.full + 1 }

/-- Place every token in increasing index: the slots, K for each token, and the fills (R288). -/
def placeAll (k cap nexp : Nat) (toks : List (List (Nat × Nat × Nat))) : List SlotOf × Fill :=
  toks.foldl (fun acc cs =>
    let t := walkToken k cap cs 0 k acc.2
    (acc.1 ++ t.1, t.2)) ([], ⟨List.replicate nexp 0, 0, 0, 0, 0⟩)

/-- The entry of a slot in a dispatch record (R289). -/
def slotWord : SlotOf → U64
  | some (e, p, g, q) => BitVec.ofNat 64 (e + p * 2 ^ 16 + 2 ^ 26 + q * 2 ^ 27 + g * 2 ^ 32)
  | none => 0

/-- The slot that an entry holds. -/
def slotOfWord (w : U64) : SlotOf :=
  if bit w 26 then some (fld w 15 0, fld w 25 16, fld w 47 32, fld w 30 27) else none

/-- Candidates of every token, in order (R278, R279, R114). -/
def readCands (a : RtArm) (members : Nat) : Act (List (List (Nat × Nat × Nat))) :=
  (List.range (a.tpm * members)).mapM fun t => do
    let n := a.k + a.ovfd
    let (bs, ps) ← readV (a.recs + t / max 1 a.tpm * a.recstr + t % max 1 a.tpm * 64) (4 * n)
    match ps with
    | g :: _ => throw (.poison g)
    | [] => pure ()
    let gs : List Nat ← if a.gsrc then do
        let (g, ps) ← readV (a.gate + t * n * 2) (2 * n)
        match ps with
        | p :: _ => throw (.poison p)
        | [] => pure ((chunks 2 g).map leNat)
      else pure []
    return (chunks 4 bs).zipIdx.map fun c =>
      let v := leNat c.1
      (v % 2 ^ 16, v / 2 ^ 16, if a.gsrc then gs.getD c.2 0 else v / 2 ^ 16)

/-- Address of the dispatch record of a step and micro-batch (R289). -/
def RtArm.recAt (a : RtArm) (s mbid : Nat) : Nat := a.disp + (s % 2 * a.nmb + mbid) * a.dsize

/-- Whether the record of a step and micro-batch is complete, and its version (R289). -/
def recHeld (a : RtArm) (s mbid : Nat) : Act (Option Nat) := do
  let ws ← readWords (a.recAt s mbid) 2
  let w0 := ws.getD 0 0
  return if fld w0 31 0 = s ∧ fld w0 41 32 = mbid ∧ bit w0 42 then some (fld (ws.getD 1 0) 15 0) else none

/-- The slots and fills of a record (R289). -/
def recRead (a : RtArm) (s mbid members : Nat) : Act (List SlotOf × List Nat) := do
  let n := a.tpm * members * a.k
  let ws ← readWords (a.recAt s mbid + 64) n
  let (bs, ps) ← readV (a.recAt s mbid + 64 + 8 * n) (2 * a.nexp)
  match ps with
  | g :: _ => throw (.poison g)
  | [] => return (ws.map slotOfWord, (chunks 2 bs).map leNat)

/-! ### A pass (R284, R285, R293 to R299) -/

/-- Chunks of a count bank, and a bank's address (R300). -/
def RtArm.bankChunks (a : RtArm) : Nat := ceilDiv a.nexp 256
def RtArm.bankAt (a : RtArm) (s : Nat) : Nat := a.cnt + s % 2 * 4 * a.bankChunks * 256

/-- The arm with a number, inside a computation. -/
def rtA (n : Nat) : Act RtArm := do
  match (← get).w.rt n with
  | some a => return a
  | none => throw .hold

/-- Begin to write the records of a step: the bank's earlier send has completed, and the bank is zeroed (R300). -/
def bankReady (a : RtArm) (s : Nat) : Act Unit := do
  let w := (← get).w
  if (a.written.lookup s).isNone then
    let old := (s + 2 ^ 32 - 2) % 2 ^ 32
    let due := (a.written.lookup old).getD 0 == a.nmb
    let sent := match a.sends.lookup old with | some i => w.idxDone a.cring i | none => false
    if due && !sent then throw .hold
    writeV (a.bankAt s) (List.replicate (1024 * a.bankChunks) 0)
    actW fun w => w.modRt a.num fun a => { a with written := (s, 0) :: (a.written.filter fun x => x.1 % 2 ≠ s % 2) }

/-- A forward pass places its tokens and writes the dispatch record and the counts (R288, R289, R300). -/
def placePass (a : RtArm) (s mbid ver members : Nat) : Act Unit := do
  if (← recHeld a s mbid).isNone then
    bankReady a s
    let (slots, f) := placeAll a.k a.cap a.nexp (← readCands a members)
    let va := a.recAt s mbid
    let head := fun (v : Bool) => BitVec.ofNat 64 (s + mbid * 2 ^ 32 + v.toNat * 2 ^ 42)
    let used := (f.fill.filter (· != 0)).length
    writeV va (([head false, BitVec.ofNat 64 (ver + used * 2 ^ 16), BitVec.ofNat 64 (f.placed + f.drop * 2 ^ 32),
      BitVec.ofNat 64 (f.ovf + f.full * 2 ^ 32), 0, 0, 0, 0] ++ slots.map slotWord).flatMap wordBytes)
    writeV (va + 64 + 8 * slots.length) (f.fill.flatMap (leBytes 2))
    writeV va (wordBytes (head true))
    let bank ← readV (a.bankAt s) (4 * a.nexp)
    writeV (a.bankAt s) (((chunks 4 bank.1).zip f.fill).flatMap fun x => leBytes 4 (leNat x.1 + x.2))
    actW fun w =>
      let w := (w.count (rk 5 0x080) 63 0 f.placed).count (rk 5 0x090) 63 0 f.drop
      let w := (w.count (rk 5 0x088) 31 0 f.ovf).count (rk 5 0x088) 63 32 f.full
      w.modRt a.num fun a => { a with written := a.written.map fun x => if x.1 = s then (s, x.2 + 1) else x }

/-- Order the EMPTY contributions of a backward pass for experts without tokens (R302). -/
def emptyCmds (a : RtArm) (s mbid : Nat) (fills : List Nat) : Act (List (RingId × Desc)) := do
  let es := (fills.zipIdx.filter fun f => f.1 == 0).map Prod.snd
  let cs ← (es.flatMap fun e => upTo (e * a.nreg) a.nreg).mapM fun i => do
    let d ← newCmd 0x82 a.job 0 s 0 (a.tagbase + i + mbid * 2 ^ 12 + 2 ^ 22) (a.ech * 2 ^ 32) 0 0
    return (a.cring, d)
  return cs

/-- The slot at the front of member 0's release queue (R285). -/
def World.frontSlot (w : World) (group : Nat) : Option (Group × RelSlot) :=
  match w.grp group with
  | some g => match g.members with
    | m :: _ => m.queue.head?.map fun q => (g, q)
    | [] => none
  | none => none

/-- Read every trigger word; a pass begins when all read 1, and they are written 0 (R284). -/
def takeTriggers (sync members : Nat) : Act Unit := do
  let ws ← readWords sync members
  if members = 0 || !ws.all (· == 1) then throw .hold
  writeV sync (List.replicate (8 * members) 0)

/-- Check the directory entries of the experts of a pass (R304). -/
def dirCheck (a : RtArm) (used : List Nat) : Act Unit := do
  let w := (← get).w
  let elem := match w.job a.job with | some j => fld (j.recipe.getD 0 (0, 0)).1 3 0 | none => 0
  if !used.all (fun e =>
    let ws := w.exdWords (a.dir0 + e)
    exdValid ws && exdJob ws == a.job && fld (ws.getD 0 0) 40 37 == elem) then fail 4

/-- Start a pass (R284, R285, R288, R302). -/
def startPass (n : Nat) : Act Unit := do
  let a ← rtA n
  let w := (← get).w
  let members := match w.grp a.group with | some g => g.members.length | none => 0
  takeTriggers a.sync members
  match w.frontSlot a.group with
  | none => fail 5
  | some (g, q) =>
    if (takesEntry q.op).isNone then fail 5
    if a.nmb ≤ q.mbid then fail 1
    let back := q.op == 2
    let ver ← (if back then do
        match ← recHeld a q.step q.mbid with
        | some v => return v
        | none => fail 1
      else return (w.slotStamp g q).ver)
    if !back then placePass a q.step q.mbid ver members
    let (_, fills) ← recRead a q.step q.mbid members
    let used := (fills.zipIdx.filter fun f => f.1 != 0).map Prod.snd
    dirCheck a used
    let out ← if back then emptyCmds a q.step q.mbid fills else pure []
    actW fun w =>
      let w := if back then w.count (rk 5 0x098) 63 32 1 else w.count (rk 5 0x098) 31 0 1
      w.modRt n fun a => { a with out := a.out ++ out, pass := some ⟨back, q.step, q.mbid, ver, used, 0, []⟩ }

/-- Bytes of a region's order A or B (R291). -/
def partBytes (ws : List U64) (back : Bool) : Nat := if back then fld (ws.getD 3 0) 63 32 else fld (ws.getD 3 0) 31 0

/-- The cache entry that holds a part, if any. -/
def RtArm.cached (a : RtArm) (key : Nat × Nat × Bool) : Option Nat := a.cache.findIdx? fun c => c.key == some key

/-- The free entry used longest ago (R293). -/
def RtArm.victim (a : RtArm) : Option Nat :=
  (a.cache.zipIdx.foldl (fun (b : Option (Nat × Nat)) c =>
    if c.1.pinned then b else match b with
      | some (u, _) => if c.1.used < u then some (c.1.used, c.2) else b
      | none => some (c.1.used, c.2)) none).map Prod.snd

/-- Match or fetch the part of an expert (R293, R294). -/
def fetchPart (n : Nat) (p : Pass) (e : Nat) : Act Unit := do
  let a ← rtA n
  let w := (← get).w
  let ws := w.exdWords (a.dir0 + e)
  let put := fun (f : Fetch) (w : World) => w.modRt n fun a => { a with
    pass := a.pass.map fun p => { p with fetches := p.fetches.filter (fun x => x.expert ≠ e) ++ [f] }, clock := a.clock + 1 }
  let z := partBytes ws p.back
  if a.cesz - 128 < a.nreg * z then fail 3
  match a.cached (a.dir0 + e, p.ver, p.back) with
  | some i => actW fun w => (put ⟨e, i, [], false⟩ (w.count (rk 4 0x0C0) 31 0 1)).modRt n fun a =>
      { a with cache := a.cache.modify i fun c => { c with pinned := true, used := a.clock, rel := none } }
  | none => match a.victim with
    | none => actW (put ⟨e, 0, [], true⟩)
    | some i =>
      let full := decide ((← roomOf a.cring) < a.nreg)
      if w.ringDown a.cring || full then actW (put ⟨e, 0, [], true⟩)
      else
        let lag := bit (ws.getD 0 0) 29
        let base := fld (ws.getD (if lag && p.ver % 2 == 1 then 2 else 1) 0) 47 0
        let ab := partBytes ws false + partBytes ws true
        let reads ← (List.range a.nreg).mapM fun r => do
          let src := base + r * ab + (if p.back then partBytes ws false else 0)
          let d ← newCmd 0x84 a.job 0 p.step 0 (src % 2 ^ 48 + fld (ws.getD 0 0) 12 0 * 2 ^ 48)
            ((a.cbase + i * a.cesz + 128 + r * z) % 2 ^ 48) z (p.ver + (fld (ws.getD 0 0) 26 13 + r) % 2 ^ 14 * 2 ^ 16 + 2 ^ 30)
          emitCmd a.cring d
        actW fun w => (put ⟨e, i, reads, false⟩ (w.count (rk 4 0x0C0) 63 32 1)).modRt n fun a =>
          { a with cache := a.cache.modify i fun _ => ⟨none, true, a.clock, none⟩ }

/-- Whether an expert's part is in the cache for the pass. -/
def Pass.ready (p : Pass) (e : Nat) : Option Fetch := p.fetches.find? fun f => f.expert == e && f.reads.isEmpty && !f.waiting

/-- What a copied command is patched with (R297). -/
structure Patch where
  j : Nat
  p : Nat
  t : Nat
  r : Nat
  e : Nat
  fill : Nat
  gate : Nat
  cache : Nat
  mbid : Nat
  step : Nat
  deriving DecidableEq, Repr

/-- The amount a selector adds (R297). -/
def Patch.add (x : Patch) (a : RtArm) (prog : List U64) (sel : Nat) : Nat :=
  let slot := x.t * a.k + x.r
  match sel with
  | 1 => x.j * fld (prog.getD 2 0) 63 32
  | 2 => x.j * fld (prog.getD 2 0) 63 32 + x.p * fld (prog.getD 5 0) 31 0
  | 3 => x.t * fld (prog.getD 4 0) 31 0
  | 4 => slot * fld (prog.getD 4 0) 63 32
  | 5 => slot * 256
  | 6 => x.cache + 128
  | _ => 0

/-- A copied command with its patch word applied (R297). -/
def Patch.apply (x : Patch) (a : RtArm) (prog : List U64) (d : Desc) (pw : U64) : Desc :=
  let op := opcodeOf d
  let at48 := fun (w : U64) sel => setFld w 47 0 (fld w 47 0 + x.add a prog sel)
  let d := { d with w1 := setFld d.w1 63 32 x.step, w2 := at48 d.w2 (fld pw 3 0), w3 := at48 d.w3 (fld pw 7 4),
                    w4 := at48 d.w4 (fld pw 11 8) }
  let d := if bit pw 12 then
      if op = 0x18 then { d with w7 := setFld d.w7 63 32 x.fill }
      else if op = 0x20 then { d with w4 := setFld d.w4 31 0 (x.fill * fld d.w4 31 0) }
      else { d with w5 := setFld d.w5 45 32 (x.fill - 1) }
    else d
  let d := if bit pw 13 then { d with w7 := setFld d.w7 31 0 x.p } else d
  let d := if bit pw 14 then { d with w6 := setFld d.w6 31 16 x.gate } else d
  if bit pw 15 then { d with w6 := setFld d.w6 59 48 (fld d.w6 59 48 + a.tagbase + x.e * a.nreg) } else d

/-- Copy commands i to i + n − 1 of member k's templates (R296, R297). -/
def copyCmds (a : RtArm) (prog : List U64) (k stove i n : Nat) (x : Patch) : Act (List (RingId × Desc)) :=
  (upTo i n).mapM fun i => do
    let base := progList prog + k * progLstr prog
    let ws ← readWords (base + 64 * i) 8
    let pw ← readWords (base + 64 * progCount prog + 8 * i) 1
    let pw := pw.getD 0 0
    let d := x.apply a prog ⟨ws.getD 0 0, ws.getD 1 0, ws.getD 2 0, ws.getD 3 0, ws.getD 4 0, ws.getD 5 0, ws.getD 6 0, ws.getD 7 0⟩ pw
    if bit pw 16 then
      let t := fld d.w4 47 0 + 24
      let old ← readWords t 1
      writeV t (wordBytes (setFld (old.getD 0 0) 25 16 x.mbid))
    return (⟨0x1000 + stove, a.xring⟩, d)

/-- A WRITE_LINE composed by the stoker (R133). -/
def lineCmd (r : RingId) (job step addr : Nat) (v : U64) : Act (RingId × Desc) := do
  let d ← newCmd 1 job 0 step 0 (addr % 2 ^ 48) v.toNat 0 0
  return (r, d)

/-- Member index that runs an expert (R281). -/
def memberOf (a : RtArm) (e : Nat) : Act Nat := do
  let (bs, _) ← readV (a.emap + e) 1
  return (bs.getD 0 0).toNat

/-- The commands of one used expert (R298): PRE for each row, BODY, POST for each row, and the write of its release line. -/
def expertCmds (a : RtArm) (p : Pass) (g : Group) (slots : List SlotOf) (fills : List Nat) (f : Fetch) : Act (List (RingId × Desc)) := do
  let prog := if p.back then a.bprog else a.fprog
  let k ← memberOf a f.expert
  let stove := (g.members.getD k ⟨0, [], []⟩).stove
  let before ← (p.used.filter (· < f.expert)).mapM (memberOf a)
  let rows := (slots.zipIdx.filterMap fun s => match s.1 with
    | some (e, row, gate, _) => if e = f.expert then some (row, gate, s.2) else none
    | none => none)
  let entry := a.cbase + f.entry * a.cesz
  let x : Patch := ⟨(before.filter (· == k)).length % max 1 (progPos prog), 0, 0, 0, f.expert, fills.getD f.expert 0, 0, entry, p.mbid, p.step⟩
  let perRow := fun i n => do
    let cs ← (List.range rows.length).mapM fun q => match rows.find? fun r => r.1 == q with
      | some r => copyCmds a prog k stove i n { x with p := q, gate := r.2.1, t := r.2.2 / a.k, r := r.2.2 % a.k }
      | none => return []
    return cs.flatten
  if g.members.length ≤ k then return []
  let pre ← perRow 0 (progPre prog)
  let body ← copyCmds a prog k stove (progPre prog) (progBody prog) x
  let post ← perRow (progPre prog + progBody prog) (progPost prog)
  let n ← actRun World.draw
  let rel ← lineCmd ⟨0x1000 + stove, a.xring⟩ a.job p.step entry (Config.freeWord n)
  return pre ++ body ++ post ++ [rel]

/-- The last commands of every member: DROP for each dropped slot, then the done word and the cheap point (R284, R298). -/
def lastCmds (a : RtArm) (p : Pass) (g : Group) (slots : List SlotOf) : Act (List (RingId × Desc)) := do
  let prog := if p.back then a.bprog else a.fprog
  let first := progPre prog + progBody prog + progPost prog
  let cs ← g.members.zipIdx.mapM fun m => do
    let r : RingId := ⟨0x1000 + m.1.stove, a.xring⟩
    let mine := slots.zipIdx.filter fun s => s.1.isNone && s.2 / a.k / max 1 a.tpm == m.2
    let drops ← mine.mapM fun s => copyCmds a prog m.2 m.1.stove first (progDrop prog)
      ⟨0, 0, s.2 / a.k, s.2 % a.k, 0, 0, 0, 0, p.mbid, p.step⟩
    let done ← lineCmd r a.job p.step (a.sync + 8 * (g.members.length + m.2)) 1
    let nop ← newCmd 0 a.job a.zlive p.step 1 0 0 0 0
    return drops.flatten ++ [done, (r, nop)]
  return cs.flatten

/-- Note which commands write release lines, as they are written into their rings. -/
def RtArm.noteRel (a : RtArm) (done : List (RingId × Nat × Desc)) : RtArm :=
  { a with cache := a.cache.zipIdx.map fun c =>
      match done.find? fun x => opcodeOf x.2.2 == 1 && fld x.2.2.w2 47 0 == a.cbase + c.2 * a.cesz with
      | some x => { c.1 with rel := some (x.1, x.2.1) }
      | none => c.1 }

/-- Write out what an arm holds ready; a CHM_EMPTY counts as it is issued (R306). -/
def rtPump (n : Nat) : Act Unit := do
  let a ← rtA n
  let (rest, done) ← pumpOut 6 a.out
  let empties := (done.filter fun x => x.1 == a.cring && opcodeOf x.2.2 == 0x82).length
  actW fun w => (w.count (rk 5 0x0A0) 63 0 empties).modRt n fun a => { a.noteRel done with out := rest }

/-- Carry a pass on: write out what is ready, fetch, emit the experts whose parts are there, in order, and end (R293 to R299). -/
def advance (n : Nat) : Act Unit := do
  rtPump n
  let a ← rtA n
  match a.pass with
  | none => pure ()
  | some p =>
    if a.out.any fun o => o.1 == a.cring then return ()
    let w := (← get).w
    let half := ceilDiv p.used.length 2
    let h0 := p.used.take half
    let stage := if h0.all (fun e => (p.ready e).isSome) then p.used else h0
    (stage.filter fun e => p.fetches.all fun f => f.expert != e || f.waiting).forM fun e => fetchPart n p e
    match w.grp a.group with
    | none => fail 5
    | some g =>
      let (slots, fills) ← recRead a p.step p.mbid g.members.length
      let p := (← rtA n).pass.getD p
      (p.used.drop p.emitted).foldlM (fun go e => do
        match (if go then p.ready e else none) with
        | none => return false
        | some f =>
          let cs ← expertCmds a p g slots fills f
          actW fun w => w.modRt n fun a => { a with out := a.out ++ cs, pass := a.pass.map fun p => { p with emitted := p.emitted + 1 } }
          return true) true >>= fun _ => pure ()
      let p := (← rtA n).pass.getD p
      if p.emitted = p.used.length then
        let cs ← lastCmds a p g slots
        actW fun w => w.modRt n fun a => { a with out := a.out ++ cs, pass := a.pass.map fun p => { p with emitted := p.emitted + 1 } }
      rtPump n

/-- A pass all of whose commands are in their rings has ended (R283). -/
def World.passEnd (w : World) (n : Nat) : World :=
  match w.rt n with
  | none => w
  | some a => match a.pass with
    | none => if a.out.isEmpty && a.disarm.isSome then w.dropRt n else w
    | some p =>
      if a.out.isEmpty && p.used.length < p.emitted then
        let w := w.modRt n fun a => { a with pass := none, last := some (p.back, p.mbid, p.step) }
        if a.disarm.isSome then w.dropRt n else w
      else w

/-- Write the done words of an arm, so that no WAIT_LINE is left waiting (R304); while a line must be asked for, they are written
later. -/
def World.doneWords (w : World) (page job sync members : Nat) : World :=
  let ag := stkAgent page job
  let body : Act Unit := do
    writeV sync (List.replicate (8 * members) 0)
    writeV (sync + 8 * members) ((List.replicate members (1 : U64)).flatMap wordBytes)
  match body.run (Run.init w ag) with
  | .ok (_, r) => r.w
  | .error (.xlt va) => (w.xltEvent ag va).2
  | .error (.poison _) | .error (.status _) => w
  | .error e => (w.ask ag e).modStk fun s => { s with dones := s.dones ++ [(page, job, sync, members)] }

/-- Done words that waited. -/
def World.pumpDones (w : World) : World :=
  w.dev.stk.dones.foldl (fun w x => w.doneWords x.1 x.2.1 x.2.2.1 x.2.2.2) (w.modStk fun s => { s with dones := [] })

/-- A pass fails (R304, R327): nothing more is emitted, the job's step is aborted, every done word is written, and the failure is
recorded and reported. -/
def World.failPass (w : World) (n code : Nat) : World :=
  match w.rt n with
  | none => w
  | some a =>
    let this := match a.pass with
      | some p => some (p.back, p.mbid, p.step)
      | none => match w.frontSlot a.group with
        | some (_, q) => some (q.op == 2, q.mbid, q.step)
        | none => none
    let (_, mbid, s) := this.getD (false, 0, 0)
    let w := w.modRt n fun a => { a with pass := none, out := [], last := this.or a.last }
    let members := match w.grp a.group with | some g => g.members.length | none => 0
    let w := match w.grp a.group with | some g => w.abortStep g w.tickNow | none => w
    let w := w.doneWords a.page a.job a.sync members
    let e := rk 5 0x0C0
    let w := if bit (w.reg e) 7 then w
      else w.setReg e (BitVec.ofNat 64 (n + 2 ^ 7 + code % 16 * 2 ^ 8 + mbid * 2 ^ 16 + s * 2 ^ 32))
    let w := w.event 5 0x13 0 (detail (some a.job) (n * 2 ^ 8 + code % 16 * 2 ^ 14 + mbid * 2 ^ 18)) (BitVec.ofNat 64 s)
    w.passEnd n

/-- Run a stoker's work for a routing arm: a failure of R304 by its code; a fault of translation or poison fails the pass with a code
that no rule states. -/
def World.rtRun (w : World) (n : Nat) (body : Act Unit) : World :=
  match w.rt n with
  | none => w
  | some a =>
    let ag := stkAgent a.page a.job
    let free := fun (w : World) => let (k, w) := w.draw; w.failPass n ((Config.freeWord k).toNat % 16)
    match body.run (Run.init w ag) with
    | .ok (_, r) => r.w.passEnd n
    | .error (.status code) => w.failPass n code
    | .error (.xlt va) => free (w.xltEvent ag va).2
    | .error (.poison g) => free (w.event a.page 0x02 0 (detail (some a.job) 0) (BitVec.ofNat 64 g))
    | .error e => w.ask ag e

/-- Whether a stoker has a pass in progress (R283). -/
def World.stkBusy (w : World) (page : Nat) : Bool :=
  w.dev.stk.rts.any (fun a => a.page == page && a.pass.isSome) || w.dev.stk.kvs.any fun a => a.page == page && a.busy

/-- Whether an arm's triggers were the first of its stoker's to complete (R283). -/
def World.firstReady (w : World) (page : Nat) (walk : Bool) (n : Nat) : Bool :=
  match w.dev.stk.ready.find? fun x => x.1 == page with
  | some x => x == (page, walk, n)
  | none => true

/-- A pass of a routing arm begins once every trigger word reads 1, in its turn; a pass in progress is carried on (R283 to R285). -/
def World.routingPass (w : World) (n : Nat) : World :=
  match w.rt n with
  | none => w
  | some a =>
    if a.pass.isSome then w.rtRun n (advance n)
    else if w.stkBusy a.page || a.disarm.isSome || !a.out.isEmpty || !w.firstReady a.page false n then w
    else
      let w' := w.rtRun n (startPass n)
      if ((w'.rt n).bind RtArm.pass).isSome then w'.rtRun n (advance n) else w'

def execRoutingPass (arm : Nat) (s : State) : Host.Outcome State Fault Refusal := s.run fun w => w.routingPass arm

/-- Where a completion record lies (R126), and the status byte of a written one (R144). -/
def World.recordAt (w : World) (r : RingId) (idx : Nat) : Nat := w.rf (rgk r 0x08) 47 12 * 4096 + idx % 2 ^ w.rf (rgk r 0) 5 1 * 64
def World.recStatus (w : World) (r : RingId) (idx : Nat) : Nat := (w.byte (w.recordAt r idx + 6)).toNat

/-- Every read of an expert's part has completed (R294, R295). -/
def World.fetchDone (w : World) (n e : Nat) : World :=
  match w.rt n with
  | none => w
  | some a => match a.pass with
    | none => w
    | some p => match p.fetches.find? fun f => f.expert == e && !f.reads.isEmpty with
      | none => w
      | some f =>
        let seen := fun (w : World) => w.act (stkAgent a.page a.job) (f.reads.forM fun i => do
          let _ ← readP (w.recordAt a.cring i) 64)
        if !f.reads.all (w.idxDone a.cring) then w
        else if f.reads.any fun i => w.lineAway (lineOf (w.recordAt a.cring i)) then seen w
        else if !f.reads.all fun i => w.recStatus a.cring i == stOk then w.failPass n 2
        else
          let ws := w.exdWords (a.dir0 + e)
          let w := w.setExd (a.dir0 + e) (ws.set 0 (setBit (setFld (ws.getD 0 0) 56 41 p.ver) 57 true))
          let w := w.modRt n fun a => { a with
            cache := a.cache.modify f.entry fun c => { c with key := some (a.dir0 + e, p.ver, p.back) }
            pass := a.pass.map fun p => { p with fetches := updFirst (fun x => x.expert == e) (fun x => { x with reads := [] }) p.fetches } }
          w.rtRun n (advance n)

def execExpertFetchDone (arm expert : Nat) (s : State) : Host.Outcome State Fault Refusal := s.run fun w => w.fetchDone arm expert

/-- The write to a cache entry's release line that the pass emitted has landed (R293): the entry is free, and a fetch that waits may
take it. -/
def World.cacheFree (w : World) (n i : Nat) : World :=
  match w.rt n with
  | none => w
  | some a => match (a.cache[i]?).bind CacheEnt.rel with
    | none => w
    | some (r, idx) =>
      if !w.idxEnded r idx then w
      else
        let w := w.modRt n fun a => { a with cache := a.cache.modify i fun c => { c with pinned := false, rel := none } }
        if a.pass.isSome then w.rtRun n (advance n) else w

def execCacheRelease (arm entry : Nat) (s : State) : Host.Outcome State Fault Refusal := s.run fun w => w.cacheFree arm entry

/-- The count bank of a step is sent once its forward passes have written NMB records (R300). -/
def World.bankSend (w : World) (n s : Nat) : World :=
  match w.rt n with
  | none => w
  | some a =>
    if a.written.lookup s != some a.nmb || (a.sends.lookup s).isSome || w.ringDown a.cring || w.ringRoom a.cring == 0 then w
    else w.act (stkAgent a.page a.job) do
      if (← roomOf a.cring) = 0 then throw .hold
      let d ← newCmd 0x81 a.job 0 s 0 (a.ctag + 8 * 2 ^ 23) (a.bankChunks * 2 ^ 32) (a.bankAt s) 0
      let i ← emitCmd a.cring d
      actW fun w => w.modRt n fun a => { a with sends := (s, i) :: a.sends.filter fun x => x.1 % 2 ≠ s % 2 }

def execCountBankSend (arm step : Nat) (s : State) : Host.Outcome State Fault Refusal := s.run fun w => w.bankSend arm step

end Sys2Proof.Machine
end

