-- ==== Sys2Proof/Machine/Walk.lean ====
section
/-! DEFINITION. The serving walk: walk arms and walk passes (R323 to R328). -/

namespace Sys2Proof.Machine

def KvArm.word (a : KvArm) (i : Nat) : U64 := a.words.getD i 0
def KvArm.group (a : KvArm) : Nat := fld (a.word 0) 7 0
def KvArm.xring (a : KvArm) : Nat := fld (a.word 0) 9 8
def KvArm.nh (a : KvArm) : Nat := fld (a.word 0) 12 10 + 1
def KvArm.zlive (a : KvArm) : Nat := fld (a.word 0) 34 19
def KvArm.sync (a : KvArm) : Nat := fld (a.word 9) 47 0

def World.kv (w : World) (n : Nat) : Option KvArm := w.dev.stk.kvs.find? fun a => a.num == n
def World.modKv (w : World) (n : Nat) (f : KvArm → KvArm) : World :=
  w.modStk fun s => { s with kvs := updFirst (fun a => a.num == n) f s.kvs }

/-- The walk descriptor's reserved bits and codes (R324). -/
def KvArm.ok (a : KvArm) : Bool :=
  let w := a.word
  zeroBits (w 0) [(63, 35)] && fld (w 0) 14 13 != 3 && (pFmt (fld (w 0) 18 15)).isSome &&
  (upTo 1 6).all (fun i => zeroBits (w i) [(63, 48)]) && zeroBits (w 8) [(63, 32)] && zeroBits (w 9) [(63, 48)] &&
  (upTo 10 6).all fun i => w i == 0

/-- KV_ARM (R323). -/
def kvArmCmd (d : Desc) : Act Fin := do
  let x ← get
  let w := x.w
  let va := fld d.w2 47 0
  let num := fld d.w2 53 48
  let job := jobOf d
  let arm := fun ws => (⟨num, x.ag.page, job, ws, [], false, none, []⟩ : KvArm)
  let (ws, bad, fault) ← armWords va fun w ws => w.armRefused x.ag.page job (arm ws).group (arm ws).xring
  need (va % 128 == 0 && (w.kv num).isNone && zeroBits d.w2 [(63, 54)] && d.w3 == 0 && d.w4 == 0 && d.w5 == 0 && d.w6 == 0 &&
    d.w7 == 0) stOperand
  firstFault fault
  let a := arm ws
  let members := match w.grp a.group with | some g => g.members.length | none => 0
  need (a.ok && !bad) stOperand
  let trig ← (List.range members).mapM fun k => xlateA (a.sync + 8 * k) true
  writeV a.sync (List.replicate (16 * members) 0)
  actW fun w => w.modStk fun s => { s with kvs := s.kvs ++ [{ a with trig := trig }] }
  return .done stOk

def execKvArm (c : Cmd) (s : State) : Host.Outcome State Fault Refusal :=
  s.run fun w => w.runCmd c (fun d => opcodeOf d == 0xD8) kvArmCmd

/-- End a walk arm; a disarm that waited completes (R283, R323). -/
def World.dropKv (w : World) (n : Nat) : World :=
  match w.kv n with
  | none => w
  | some a =>
    let w := w.modStk fun s => { s with
      kvs := s.kvs.filter fun x => x.num ≠ n, ready := s.ready.filter (· != (a.page, true, n)) }
    match a.disarm with
    | some (r, i) => w.endCmd r i stOk 0
    | none => w

/-- KV_DISARM (R323). -/
def kvDisarmCmd (d : Desc) : Act Fin := do
  let x ← get
  let num := fld d.w2 5 0
  need (zeroBits d.w2 [(63, 6)] && d.w3 == 0 && d.w4 == 0 && d.w5 == 0 && d.w6 == 0 && d.w7 == 0) stOperand
  match x.w.kv num with
  | none => fail stOperand
  | some a =>
    need (a.job == jobOf d && a.page == x.ag.page && a.disarm.isNone) stOperand
    if a.busy || !a.out.isEmpty then
      actW fun w => w.modKv num fun a => { a with disarm := x.ag.cmd }
      return .wait (.stoker num)
    else
      actW fun w => w.dropKv num
      return .done stOk

def execKvDisarm (c : Cmd) (s : State) : Host.Outcome State Fault Refusal :=
  s.run fun w => w.runCmd c (fun d => opcodeOf d == 0xD9) kvDisarmCmd

/-! ### The sequences of a pass (R325, R327) -/

/-- A sequence table entry (R325). -/
structure Seq where
  slot : Nat
  valid : Bool
  job : Nat
  win : Bool
  rpg : Nat
  seals : Bool
  len : Nat
  opn : Nat
  qn : Nat
  ptab : Nat
  page : Nat
  state : Nat
  qrow : Nat
  deriving DecidableEq, Repr

def seqOfWords (slot : Nat) (w : List U64) : Seq where
  slot := slot
  valid := bit (w.getD 0 0) 0
  job := fld (w.getD 0 0) 6 1
  win := bit (w.getD 0 0) 7
  rpg := fld (w.getD 0 0) 21 8
  seals := bit (w.getD 0 0) 22
  len := fld (w.getD 0 0) 63 32
  opn := fld (w.getD 1 0) 31 0
  qn := fld (w.getD 1 0) 47 32
  ptab := fld (w.getD 2 0) 47 0
  page := fld (w.getD 3 0) 47 0
  state := fld (w.getD 4 0) 47 0
  qrow := fld (w.getD 5 0) 31 0

/-- Whether an entry has a fault of R327. -/
def Seq.faulty (e : Seq) (job nh : Nat) : Bool :=
  !e.valid || e.job != job || e.qn == 0 || decide (1024 < e.qn * nh) || decide (e.len < e.qn) ||
  decide (min (256 * (e.opn + 1)) 4194304 < e.len) || (e.win && decide (e.len - e.qn < 256 * e.opn)) ||
  (e.seals && e.len != 256 * (e.opn + 1)) || (e.win && e.rpg == 0)

/-- The first page a step's queries read (R326). -/
def Seq.first (e : Seq) : Nat := if e.win then (e.len + 1 - e.qn - 256 * e.rpg) / 256 else 0

/-- The page table entry of a page (R325). -/
def Seq.slotOf (e : Seq) (n : Nat) : Nat := if e.win then n % e.rpg else n

/-- A fault of a named entry ends the pass: its code and slot number. -/
def walkFail (code slot : Nat) : Act α := fail (code + 16 * slot)

/-- No slot is named: codes 3 and 4 (R327). -/
def noSlot : Nat := 0x10000

/-- Check one entry and read the page table entries the pass needs: the sealed pages from the first on, and the one that a seal
writes (R325 to R327). -/
def readSeq (a : KvArm) (slot : Nat) : Act (Seq × List Nat × Option Nat) := do
  if 4096 ≤ slot then walkFail 1 slot
  let e := seqOfWords slot (← readWords (fld (a.word 1) 47 0 + 64 * slot) 8)
  if e.faulty a.job a.nh then walkFail 1 slot
  let pte := fun n => do
    let v := (← readWords (e.ptab + 8 * e.slotOf n) 1).getD 0 0
    if !bit v 0 then walkFail 2 slot
    return fld v 47 12 * 4096
  let pages ← (upTo e.first (e.opn - e.first)).mapM pte
  let sealAt : Option Nat ← if e.seals then do pure (some (← pte e.opn)) else pure none
  return (e, pages, sealAt)

/-! ### The commands of a pass (R326) -/

/-- BK minus one in its field; a count that the field cannot hold leaves it open. -/
def bkField (n : Nat) (bk : Int) : Nat :=
  if 1 ≤ bk ∧ bk ≤ 256 then (bk - 1).toNat else (Config.freeWord n).toNat % 256

/-- An attention command of a walk. -/
def walkCmd (a : KvArm) (stove op step : Nat) (w2 w3 w4 : Nat) (shape pos : Nat) : Act (RingId × Desc) := do
  let d ← newCmd op a.job 0 step 0 (w2 % 2 ^ 48) (w3 % 2 ^ 48) w4 0
  return (⟨0x1000 + stove, a.xring⟩, { d with w6 := BitVec.ofNat 64 shape, w7 := BitVec.ofNat 64 pos })

/-- The commands for one sequence to member k (R326). -/
def seqCmds (a : KvArm) (step k stove : Nat) (x : Seq × List Nat × Option Nat) : Act (List (RingId × Desc)) := do
  let (e, pages, sealAt) := x
  let dsel := fld (a.word 0) 14 13 * 2 ^ 13
  let heads := (a.nh - 1) * 2 ^ 10
  let pfmt := fld (a.word 0) 18 15 * 2 ^ 27
  let at_ := fun i => fld (a.word i) 47 0 + k * fld (a.word 7) 31 0
  let st := e.state + k * fld (a.word 7) 63 32
  let hpage := fun p => p + k * fld (a.word 8) 31 0
  let row := e.qrow % 2 ^ 20 * 2 ^ 44
  let start := e.len - e.qn
  let n ← actRun World.draw
  let app ← walkCmd a stove 0x55 step (at_ 4) (at_ 5) (hpage e.page % 2 ^ 48) (dsel + bkField n e.qn * 2 ^ 15)
    (start * 2 ^ 22 + row)
  let fwd ← (upTo e.first (e.opn + 1 - e.first)).mapM fun n => do
    let open' := n == e.opn
    let f ← actRun World.draw
    let bk := if open' then bkField f ((e.len : Int) - 256 * e.opn) else 255
    let pg := if open' then e.page else pages.getD (n - e.first) 0
    walkCmd a stove 0x50 step (at_ 3) (hpage pg) (st % 2 ^ 48)
      ((e.qn - 1) % 2 ^ 10 + heads + dsel + bk * 2 ^ 15 + (n == e.first).toNat * 2 ^ 23 + (if e.win then 2 else 1) * 2 ^ 25 +
        pfmt + open'.toNat * 2 ^ 31 + (if e.win then e.rpg else 0) * 2 ^ 32)
      (start % 2 ^ 22 + 256 * n % 2 ^ 22 * 2 ^ 22 + row)
  let fin ← walkCmd a stove 0x52 step st (at_ 6) 0 ((e.qn - 1) % 2 ^ 10 + heads + dsel) row
  match sealAt with
  | none => return app :: fwd ++ [fin]
  | some p =>
    let n ← actRun World.draw
    let s ← walkCmd a stove 0x56 step (hpage e.page) (hpage p) ((Config.freeWord n).toNat % 2 ^ 32) dsel
      (256 * e.opn % 2 ^ 22 * 2 ^ 22)
    return app :: fwd ++ [fin, s]

/-- The last commands of member k's part (R284). -/
def walkLast (a : KvArm) (step members k stove : Nat) : Act (List (RingId × Desc)) := do
  let r : RingId := ⟨0x1000 + stove, a.xring⟩
  let done ← lineCmd r a.job step (a.sync + 8 * (members + k)) 1
  let nop ← newCmd 0 a.job a.zlive step 1 0 0 0 0
  return [done, (r, nop)]

/-- Write out what an arm holds ready. -/
def kvPump (n : Nat) : Act Unit := do
  match (← get).w.kv n with
  | none => pure ()
  | some a =>
    let (rest, _) ← pumpOut (4 + 16 * noSlot) a.out
    actW fun w => w.modKv n fun a => { a with out := rest }

/-- Start a pass: triggers, step, batch list, checks, and every command (R284, R323 to R328). -/
def walkStart (n : Nat) : Act Unit := do
  match (← get).w.kv n with
  | none => throw .hold
  | some a =>
    let w := (← get).w
    let members := match w.grp a.group with | some g => g.members.length | none => 0
    takeTriggers a.sync members
    match w.frontSlot a.group with
    | none => walkFail 3 noSlot
    | some (g, q) =>
      if q.op != 1 && q.op != 5 then walkFail 3 noSlot
      let list := fld (a.word 2) 47 0 + q.step % 2 * 16384
      let (nb, ps) ← readV list 4
      match ps with
      | p :: _ => throw (.poison p)
      | [] => pure ()
      if 4096 < leNat nb then walkFail 1 noSlot
      let (sb, ps) ← readV (list + 64) (2 * leNat nb)
      match ps with
      | p :: _ => throw (.poison p)
      | [] => pure ()
      let seqs ← ((chunks 2 sb).map leNat).mapM (readSeq a)
      let cs ← seqs.mapM fun x => g.members.zipIdx.mapM fun m => seqCmds a q.step m.2 m.1.stove x
      let last ← g.members.zipIdx.mapM fun m => walkLast a q.step members m.2 m.1.stove
      actW fun w => w.modKv n fun a => { a with out := cs.flatten.flatten ++ last.flatten, busy := true }

/-- A pass all of whose commands are in their rings has ended. -/
def World.kvEnd (w : World) (n : Nat) : World :=
  match w.kv n with
  | none => w
  | some a =>
    if !a.out.isEmpty then w
    else
      let w := w.modKv n fun a => { a with busy := false }
      if a.disarm.isSome then w.dropKv n else w

/-- A pass fails (R304, R327). -/
def World.failWalk (w : World) (n code : Nat) : World :=
  match w.kv n with
  | none => w
  | some a =>
    let s := match w.frontSlot a.group with | some (_, q) => q.step | none => 0
    let (slot, w) := if code / 16 = noSlot then
        let (k, w) := w.draw
        ((Config.freeWord k).toNat % 2 ^ 16, w)
      else (code / 16, w)
    let w := w.modKv n fun a => { a with out := [], busy := false }
    let w := match w.grp a.group with | some g => w.abortStep g w.tickNow | none => w
    let members := match w.grp a.group with | some g => g.members.length | none => 0
    let w := w.doneWords a.page a.job a.sync members
    let w := w.event 5 0x14 0 (detail (some a.job) (n * 2 ^ 8 + code % 16 * 2 ^ 14 + slot * 2 ^ 18)) (BitVec.ofNat 64 s)
    w.kvEnd n

/-- Run a stoker's work for a walk arm; a fault of translation or poison fails the pass with a code that no rule states. -/
def World.kvRun (w : World) (n : Nat) (body : Act Unit) : World :=
  match w.kv n with
  | none => w
  | some a =>
    let ag := stkAgent a.page a.job
    let free := fun (w : World) =>
      let (k, w) := w.draw
      w.failWalk n ((Config.freeWord k).toNat % 16 + 16 * noSlot)
    match body.run (Run.init w ag) with
    | .ok (_, r) => r.w.kvEnd n
    | .error (.status code) => w.failWalk n code
    | .error (.xlt va) => free (w.xltEvent ag va).2
    | .error (.poison g) => free (w.event a.page 0x02 0 (detail (some a.job) 0) (BitVec.ofNat 64 g))
    | .error e => w.ask ag e

/-- A walk pass begins once every trigger word reads 1, in its turn; one in progress is carried on (R283, R323). -/
def World.walkPass (w : World) (n : Nat) : World :=
  match w.kv n with
  | none => w
  | some a =>
    if a.busy || !a.out.isEmpty then w.kvRun n (kvPump n)
    else if w.stkBusy a.page || a.disarm.isSome || !w.firstReady a.page true n then w
    else w.kvRun n do
      walkStart n
      kvPump n

def execWalkPass (arm : Nat) (s : State) : Host.Outcome State Fault Refusal := s.run fun w => w.walkPass arm

/-- Carry on every arm that waits for room in its rings (R299), and done words that wait (R304). -/
def World.pumpArms (w : World) : World :=
  let w := w.pumpDones
  let w := (w.dev.stk.rts.filter fun a => a.pass.isSome || !a.out.isEmpty).foldl (fun w a => w.rtRun a.num (advance a.num)) w
  (w.dev.stk.kvs.filter fun a => !a.out.isEmpty).foldl (fun w a => w.kvRun a.num (kvPump a.num)) w

end Sys2Proof.Machine
end

