-- ==== Sys2Proof/Machine/Rings.lean ====
section
/-! DEFINITION. Rings: the common commands NOP, WRITE_LINE and WAIT_LINE (R133), reading commands and watched lines (R127 to R129),
completion records (R144, R145), ring registers (R126), preemption on a stove (R135 to R142), and the arbiters (R146 to R149). -/

namespace Sys2Proof.Machine

/-! ### The common commands (R133) -/

def nopBody (d : Desc) : Act Fin := do
  need (d.w2 == 0 && d.w3 == 0 && d.w4 == 0 && d.w5 == 0 && d.w6 == 0 && d.w7 == 0) stOperand
  return .done stOk

def execNop (c : Cmd) (s : State) : Host.Outcome State Fault Refusal :=
  s.run fun w => w.runCmd c (fun d => opcodeOf d == 0) nopBody

def writeLineBody (d : Desc) : Act Fin := do
  let a := fld d.w2 47 0
  need (zeroBits d.w2 [(63, 48)] && a % 8 == 0 && d.w4 == 0 && d.w5 == 0 && d.w6 == 0 && d.w7 == 0) stOperand
  writeV a (wordBytes d.w3)
  return .done stOk

def execWriteLine (c : Cmd) (s : State) : Host.Outcome State Fault Refusal :=
  s.run fun w => w.runCmd c (fun d => opcodeOf d == 1) writeLineBody

/-- Whether the signed 64-bit difference of a word and the threshold is zero or positive. -/
def lineMet (v thr : U64) : Bool := decide (0 ≤ (v - thr).toInt)

def waitLineBody (d : Desc) : Act Fin := do
  let a := fld d.w2 47 0
  need (zeroBits d.w2 [(63, 48)] && a % 8 == 0 && zeroBits d.w4 [(63, 32)] && d.w5 == 0 && d.w6 == 0 && d.w7 == 0) stOperand
  let pa ← xlateA a false
  let (bs, ps) ← readP pa 8
  if !ps.isEmpty || lineMet (leWord bs) d.w3 then return .done stOk
  let now := (← get).w.dev.gtime
  return .wait (.waitLine pa d.w3 (if fld d.w4 31 0 = 0 then none else some (now + fld d.w4 31 0 * 1024)))

def execWaitLine (c : Cmd) (s : State) : Host.Outcome State Fault Refusal :=
  s.run fun w => w.runCmd c (fun d => opcodeOf d == 2) waitLineBody

/-- The WAIT_LINE that waits on a ring: its count, address, threshold and deadline. -/
def World.lineWait (w : World) (r : RingId) : Option (Nat × Nat × U64 × Option Nat) :=
  (w.ringRun r).entries.findSome? fun e => match e.phase with
    | .waitLine pa thr t => some (e.idx, pa, thr, t)
    | _ => none

/-- A write to the waited line has made the condition true, or its word reads as poison. -/
def World.lineWoken (w : World) (r : RingId) : World :=
  match w.lineWait r with
  | none => w
  | some (idx, pa, thr, _) => w.resume r idx do
    let (bs, ps) ← readP pa 8
    if ps.isEmpty && !lineMet (leWord bs) thr then throw .hold
    return .done stOk

def execWaitLineMet (r : RingId) (s : State) : Host.Outcome State Fault Refusal := s.run fun w => w.lineWoken r

/-- TIMEOUT elapses with the condition not met. -/
def World.lineTimeout (w : World) (r : RingId) : World :=
  match w.lineWait r with
  | some (idx, pa, thr, some t) =>
    let met := match w.place pa with
      | .host _ | .guest _ => false
      | _ => lineMet (w.word pa) thr
    if met then w else (w.at t).endCmd r idx stTimeout 0
  | _ => w

def execWaitLineTimeout (r : RingId) (s : State) : Host.Outcome State Fault Refusal := s.run fun w => w.lineTimeout r

/-! ### Reading commands (R127 to R129, R131, R132) -/

/-- Whether some command of the table has this descriptor's opcode, and Hob operation, on an engine of the page (R111, R131). -/
def commandFits (page : Nat) (d : Desc) : Bool :=
  opcodeFits page (opcodeOf d) && (opcodeOf d != 0x18 ||
    (let v := fld d.w6 7 0
     decide (v ≤ 0x11) || (decide (0x20 ≤ v) && decide (v ≤ 0x25)) || v == 0x30 || (decide (0x40 ≤ v) && decide (v ≤ 0x42))))

/-- The ring's next command, when it has a reserved opcode or another engine's, completes once its turn has come (R132). -/
def World.dropUnfit (w : World) (r : RingId) : Nat → World
  | 0 => w
  | n + 1 => match (w.ringRun r).entries.find? Entry.unstarted with
    | none => w
    | some e =>
      if commandFits r.page e.desc || w.holds r e then w
      else
        let st := (w.refusal r e.desc).getD stOperand
        (w.endUnrun r e st).dropUnfit r n

def World.settleRing (w : World) (r : RingId) : World := w.dropUnfit r (w.ringRun r).entries.length

/-- Run a read that a ring makes of its own: an error of R126 by its code; no answer yet changes nothing but the request. -/
def World.ringRead (w : World) (r : RingId) (a : Nat) (n : Nat) (f : List Byte → World → World) : World :=
  let ag := ringAgent r
  match w.place a with
  | .page | .nowhere | .lost _ => (w.unmapped ag a).haltRing r 3 false
  | _ => match (readP a n).run (Run.init w ag) with
    | .ok ((bs, []), x) => f bs x.w
    | .ok ((_, _ :: _), x) => x.w.haltRing r 2 false
    | .error s => w.ask ag s

/-- Read TAIL from the watched line (R127, R129). -/
def World.readTail (w : World) (r : RingId) : World :=
  if !ringExists r || !bit (w.reg (rgk r 0)) 0 || bit (w.reg (rgk r 0x30)) 3 || !(w.ringErr r == 0 || w.ringErr r == 4) ||
      w.isBound r then w
  else w.ringRead r (w.rf (rgk r 0x10) 47 7 * 128) 4 fun bs w =>
    let t := leNat bs
    let w := w.modRing r fun x => { x with tail := t }
    if w.overrun r t then w.haltRing r 1 false else w

def execWatchedLineWake (r : RingId) (s : State) : Host.Outcome State Fault Refusal := s.run fun w => w.readTail r

/-- Read one command ahead of execution, up to sixteen (R127). -/
def World.fetch (w : World) (r : RingId) : World :=
  if !ringExists r || !w.ringReads r || decide (16 ≤ ((w.ringRun r).entries.filter Entry.unstarted).length) then w
  else match w.ringGroup r with
    | some (g, m) => (w.fetchReleased r g m).settleRing r
    | none =>
      if (w.ringRun r).tail = w.ringHead r then w.settleRing r
      else (w.ringRead r (w.rf (rgk r 0) 47 12 * 4096 + w.ringHead r % 2 ^ w.rf (rgk r 0) 5 1 * 64) 64 fun bs w =>
        w.readCmd r (descOf bs) none).settleRing r

def execCommandFetch (r : RingId) (s : State) : Host.Outcome State Fault Refusal := s.run fun w => w.fetch r

/-! ### Completion records (R145) -/

/-- The next record of a ring is written, or becomes visible: a slot may have completed, a waiting stoker may write on. -/
def World.recordOut (w : World) (r : RingId) : World :=
  match w.writeRecord r with
  | (none, w) => w
  | (some e, w) => ((w.slotRecord r e).settleRing r).pumpArms

def execCompletionRecord (r : RingId) (s : State) : Host.Outcome State Fault Refusal := s.run fun w => w.recordOut r

/-! ### Ring registers (R126, R129) -/

/-- A write of RING_BASE that is performed. -/
def World.baseWrite (w : World) (r : RingId) (v : U64) : World :=
  let on := bit v 0
  let legal := decide (4 ≤ fld v 5 1) && decide (fld v 5 1 ≤ 16)
  let was := bit (w.reg (rgk r 0)) 0
  let keep := BitVec.ofNat 64 (fld v 5 1 * 2 + fld v 47 12 * 4096 + (on && legal).toNat)
  let w := w.setReg (rgk r 0) keep
  if on && !legal then
    let w := w.setRf (rgk r 0x30) 7 4 4
    (w.raise (some (w.ringPort r)) r.page 0x04 0 (BitVec.ofNat 64 (4 * 2 ^ 8 + r.n * 2 ^ 12)) 0).2
  else if on && !was then
    let w := (w.setReg (rgk r 0x20) 0).setRf (rgk r 0x30) 7 4 0
    let w := w.setRf (rgk r 0x30) 3 3 (bit (w.reg (rgk r 0x38)) 2).toNat
    w.modRing r fun x => { x with tail := 0 }
  else w

/-- A write of RING_CTL that is performed. -/
def World.ctlWrite (w : World) (r : RingId) (v : U64) : World :=
  let old := w.reg (rgk r 0x38)
  let w := w.setReg (rgk r 0x38) (BitVec.ofNat 64 (fld v 2 0))
  if bit v 2 then
    if w.ringHead r = w.ringDone r then w.setRf (rgk r 0x30) 3 3 1 else w
  else if bit old 2 && (w.ringErr r == 0 || w.ringErr r == 4) then (w.setRf (rgk r 0x30) 3 3 0).readTail r
  else w

/-- Whether a ring is disabled with commands whose records are not written: its address registers hold their writes (R126). -/
def World.ringDraining (w : World) (r : RingId) : Bool := !bit (w.reg (rgk r 0)) 0 && w.ringDone r != w.ringHead r

/-- A write to a register of a ring block. -/
def World.ringWrite (w : World) (writer : Nat) (r : RingId) (o : Nat) (v : U64) : World :=
  let off := 0x100 + 0x40 * r.n + o
  let cmd := fun busy f => w.command writer r.page off v busy f
  match o with
  | 0x00 => cmd (w.ringDraining r) fun w => w.baseWrite r v
  | 0x08 => cmd (w.ringDraining r) fun w => w.setReg (rgk r 8) (BitVec.ofNat 64 (fld v 47 12 * 4096))
  | 0x10 => cmd (w.ringDraining r) fun w => w.setReg (rgk r 0x10) (BitVec.ofNat 64 (fld v 47 7 * 128))
  | 0x18 => cmd (w.ringDraining r) fun w => w.setReg (rgk r 0x18) (BitVec.ofNat 64 (fld v 47 7 * 128))
  | 0x38 => w.owned writer r.page off v fun w => w.ctlWrite r v
  | _ => w.owned writer r.page off v id

def execRingBase (port : Nat) (r : RingId) (v : U64) (s : State) : Host.Outcome State Fault Refusal :=
  if ringExists r then s.port port r.page (0x100 + 0x40 * r.n) v fun w => w.ringWrite port r 0 v else .next s

def execRingCtl (port : Nat) (r : RingId) (v : U64) (s : State) : Host.Outcome State Fault Refusal :=
  if ringExists r then s.port port r.page (0x100 + 0x40 * r.n + 0x38) v fun w => w.ringWrite port r 0x38 v else .next s

/-- A write to DMP_FSLOT_CLR (R108). -/
def World.fslotClear (w : World) (writer page : Nat) (v : U64) : World :=
  match pageInfo page with
  | some (.stv, s) => w.owned writer page 0x0C0 v fun w => w.clearSlots s v
  | _ => w

def execFslotClr (port stove : Nat) (v : U64) (s : State) : Host.Outcome State Fault Refusal :=
  if stove < 256 then s.port port (0x1000 + stove) 0x0C0 v fun w => w.fslotClear port (0x1000 + stove) v else .next s

/-! ### Preemption (R135 to R142) -/

/-- Ring n of a stove. -/
def stoveRing (s n : Nat) : RingId := ⟨0x1000 + s, n⟩

/-- A lower ring that is current and a higher one with a command ready (R137). -/
def World.preemptPair (w : World) (s : Nat) : Option (Nat × Nat) :=
  ((List.range 4).find? fun n => w.ringCurrent (stoveRing s n)).bind fun l =>
    ((upTo (l + 1) (3 - l)).reverse.find? fun n => w.ringReady (stoveRing s n)).map fun h => (l, h)

/-- A preemption begins: the lower ring runs on, and PREEMPT_DEADLINE counts (R137, R138). -/
def World.preemptBegin (w : World) (s : Nat) : World :=
  match (w.stove s).pre, w.preemptPair s with
  | none, some (l, h) => w.modStove s fun x => { x with pre := some (l, h, w.dev.gtime + w.rf (rk (0x1000 + s) 0x290) 31 0) }
  | _, _ => w

def execPreempt (stove : Nat) (s : State) : Host.Outcome State Fault Refusal :=
  s.run fun w => if stove < 256 then w.preemptBegin stove else w

/-- Take a ring's waiting commands back to their start; they are re-executed on resume (R133, R241). -/
def World.takeBack (w : World) (r : RingId) : World :=
  ((w.ringRun r).entries.filter Entry.waiting).foldl (fun w e =>
    let w := match e.phase with
      | .channel c => w.upd fun d => { d with chn := { d.chn with
          sflows := updFirst (fun f => f.ctx == c) (fun f => { f with cmd := none, since := none }) d.chn.sflows } }
      | _ => w
    w.modEntry r e.idx fun x => { x with phase := .read, reads := 0, writes := 0 }) w

/-- The save engine's agent. -/
def saveAgent (s : Nat) : Agent := { page := 0x1000 + s, dbg := dbgPage (0x1000 + s), node := engineNode (0x1000 + s) 0, stove := some s }

/-- The words of an accumulator set of the given size (R119). -/
def accWords (a : AccSet) (rows : Nat) : List (U64 × Bool) :=
  (List.range rows).flatMap fun i =>
    let row := a.rows.getD i []
    (List.range 128).map fun j => match row[j]? with
      | some e => (wordOfAcc e.v, e.p)
      | none => (0, false)

/-- The regions of a mask, in increasing order, with where each stands in a save slot (R140). -/
def savedRegions (mask : U64) : List (Nat × Nat) :=
  ((List.range 64).filter (bit mask)).zipIdx.map fun q => (q.1, 0x1000 + 0x10000 * q.2)

/-- Write a save image (R137 to R140) and suspend the ring. -/
def World.saveRing (w : World) (s n job slot : Nat) (mask : U64) (full : Bool) : World :=
  let r := stoveRing s n
  let ag := saveAgent s
  let st := w.stove s
  let w := w.takeBack r
  let es := (w.ringRun r).entries
  let next := match es.find? Entry.unstarted with
    | some e => e.idx
    | none => w.ringHead r
  let (k, w) := w.draw
  let head := wordBytes mask ++ leBytes 8 (full.toNat + full.toNat * 2 + n * 4 + job * 2 ^ 4 + next * 2 ^ 32) ++
    (List.range 0xF0).map (Config.resumeByte k) ++ List.replicate 0xF00 0
  let w := w.store ag slot head
  let base := spAddr s
  let w := (savedRegions mask).foldl (fun w q =>
    let src := base + 0x10000 * q.1
    let w' := w.store ag (slot + q.2) (w.bytes src 0x10000)
    (((granules src 0x10000).filter w.poisoned).map fun g => lineOf (slot + q.2 + (g - src))).eraseDups.foldl
      (fun w' l => w'.poisonAt ag l) w') w
  let marks := (savedRegions mask).flatMap fun q => (granules (base + 0x10000 * q.1) 0x10000).filter w.poisoned
  let after := slot + 0x1000 + 0x10000 * (savedRegions mask).length
  let accs := if full then accWords st.set0 1024 ++ accWords st.set1 1024 ++ accWords st.os 128 else []
  let bad := (accs.zipIdx.filter fun a => a.1.2).map fun a => after + 8 * a.2
  let w := w.store ag after (accs.flatMap fun a => wordBytes a.1)
  let w := ((bad.map lineOf).eraseDups).foldl (fun w l => w.poisonAt ag l) w
  let img : SaveImg := ⟨n, slot, mask, full, job, [st.set0, st.set1, st.os].map fun a => (a.live, a.job, a.intPath), st.held, marks ++ bad⟩
  let w := w.modStove s fun x =>
    let off := fun (a : AccSet) => if full then { a with live := false } else a
    { x with pre := none, saved := x.saved ++ [img], held := none, set0 := off x.set0, set1 := off x.set1, os := off x.os }
  let w := (w.setRf (rgk r 0x30) 1 1 1).setRf (rgk r 0x30) 13 8 job
  let w := w.modRing r fun x => { x with entries := x.entries.map fun e => if e.unstarted then e else { e with preempts := e.preempts + 1 } }
  let w := if full then w.count (rk (0x1000 + s) 0x298) 63 32 1 else w.count (rk (0x1000 + s) 0x298) 31 0 1
  w.upd fun d =>
    { d with
      redirect := (savedRegions mask).map (fun q => (base + 0x10000 * q.1, slot + q.2)) ++ d.redirect
      gtime := d.gtime + ceilDiv (after - slot + 8 * accs.length) 128 }

/-- Go on with the save slot of a ring for a job, its entry of the save table and that of the live-mask table read as every agent sees
them (R139, R341); with no slot the preemption is given up. -/
def World.withSlot (w : World) (s l j : Nat) (mask : Option Nat) (f : Nat → World → World) : World :=
  match (w.entryAway (w.saveEntry s l j)).or (mask.bind fun q => w.entryAway (w.maskEntry j q)) with
  | some line => w.snoop line true none
  | none => match w.saveSlot s l j with
    | none => w.modStove s fun x => { x with pre := none }
    | some slot => f slot w

/-- The lower ring stands at a cheap point: its live regions are saved (R137). -/
def World.preemptSave (w : World) (s : Nat) : World :=
  match (w.stove s).pre with
  | none => w
  | some (l, _, _) =>
    let r := stoveRing s l
    match w.cheapAt r with
    | none => w
    | some (j, q) => w.withSlot s l j (some q) fun slot w => w.saveRing s l j slot (w.liveMask j q) false

def execPreemptSave (stove : Nat) (s : State) : Host.Outcome State Fault Refusal :=
  s.run fun w => if stove < 256 then w.preemptSave stove else w

/-- PREEMPT_DEADLINE passes with no cheap point: started commands have run to completion, and everything is saved (R138). -/
def World.preemptFull (w : World) (s : Nat) : World :=
  match (w.stove s).pre with
  | none => w
  | some (l, _, t) =>
    let r := stoveRing s l
    let run := w.ringRun r
    if (w.cheapAt r).isSome || run.entries.any (fun e => e.waiting && !w.takesBack e) then w
    else w.withSlot s l run.lastJob none fun slot w => (w.at t).saveRing s l run.lastJob slot (BitVec.allOnes 64) true

def execPreemptDeadline (stove : Nat) (s : State) : Host.Outcome State Fault Refusal :=
  s.run fun w => if stove < 256 then w.preemptFull stove else w

/-- An accumulator set read back from a save slot (R119, R140). -/
def World.accBack (w : World) (a rows : Nat) (marks : List Nat) (f : Bool × Nat × Bool) : AccSet where
  live := f.1
  job := f.2.1
  intPath := f.2.2
  rows := (List.range rows).map fun i => (List.range 128).map fun j =>
    let at_ := a + 8 * (128 * i + j)
    ⟨accOfWord (w.word at_), w.poisoned (lineOf at_) && marks.contains at_⟩

/-- Bytes of a save image (R140). -/
def SaveImg.bytes (img : SaveImg) : Nat :=
  0x1000 + 0x10000 * (savedRegions img.mask).length + if img.full then 0x220000 else 0

/-- Read a save image back (R137, R141): regions, accumulators and the record of the held tile; the ring resumes. -/
def World.restoreRing (w : World) (s : Nat) (img : SaveImg) : World :=
  let r := stoveRing s img.ring
  let base := spAddr s
  let regs := savedRegions img.mask
  let w := regs.foldl (fun w q =>
    let dst := base + 0x10000 * q.1
    let src := img.slot + q.2
    let w' := w.push (.bytes dst (w.bytes src 0x10000))
    (granules dst 0x10000).foldl (fun w' g =>
      let l := lineOf (src + (g - dst))
      let mine := img.marks.contains g || (upTo 0 4).all fun i => !img.marks.contains (lineOf g + 32 * i)
      if w.poisoned l && mine then w'.push (.poison g) else if w.poisoned g then w'.push (.cleanse g) else w') w') w
  let after := img.slot + 0x1000 + 0x10000 * regs.length
  let w := w.modStove s fun x =>
    let x := { x with
      saved := x.saved.dropLast
      held := img.held.map fun h => { h with elems := [] } }
    if img.full then
      { x with
        set0 := w.accBack after 1024 img.marks (img.sets.getD 0 (false, 0, false))
        set1 := w.accBack (after + 0x100000) 1024 img.marks (img.sets.getD 1 (false, 0, false))
        os := w.accBack (after + 0x200000) 128 img.marks (img.sets.getD 2 (false, 0, false)) }
    else x
  let w := (w.setRf (rgk r 0x30) 1 1 0).setRf (rgk r 0x30) 13 8 0
  w.upd fun d =>
    { d with
      redirect := d.redirect.filter fun x => !(decide (base ≤ x.1) && decide (x.1 < base + 0x400000) &&
        regs.any fun q => x.1 == base + 0x10000 * q.1 && x.2 == img.slot + q.2)
      gtime := d.gtime + ceilDiv img.bytes 128 }

/-- The lines of a range whose values must first come back from hosts. -/
def World.rangeAway (w : World) (a n : Nat) : List Nat :=
  ((w.dev.urk.dir.filter fun e => e.modified && decide (lineOf a ≤ e.line) && decide (e.line < a + n)).map DirEntry.line) ++
    (w.dev.urk.snoops.filter fun x => decide (lineOf a ≤ x.line) && decide (x.line < a + n)).map Snoop.line

/-- Whether the ring suspended last may resume: every higher ring is empty and QUIESCENT (R135, R142). -/
def World.restoreDue (w : World) (s : Nat) : Bool :=
  match (w.stove s).saved.getLast? with
  | none => false
  | some img => (w.stove s).pre.isNone && (upTo (img.ring + 1) (3 - img.ring)).all (fun n => w.ringIdle (stoveRing s n)) &&
      !(List.range 4).any fun n => w.ringCurrent (stoveRing s n)

/-- The ring suspended last resumes, once its image can be read as every agent sees it (R142, R341). -/
def World.preemptBack (w : World) (s : Nat) : World :=
  match (w.stove s).saved.getLast? with
  | none => w
  | some img =>
    if !w.restoreDue s || !w.rangeVisible img.slot img.bytes then w
    else match w.rangeAway img.slot img.bytes with
      | [] => w.restoreRing s img
      | ls => ls.foldl (fun w l => w.snoop l true none) w

def execPreemptRestore (stove : Nat) (s : State) : Host.Outcome State Fault Refusal :=
  s.run fun w => if stove < 256 then w.preemptBack stove else w

/-! ### Arbiters (R146 to R150) -/

/-- Hold instances of a page: how many, and how many requesters each has (R149). -/
def holdInstances (page : Nat) : Nat × Nat :=
  match pageInfo page with
  | some (.hrt, _) => (6, 6)
  | some (.wbx, _) => (12, 6)
  | some (.dbgM, _) => (16, 6)
  | some (.flu, _) => (1, 6)
  | some (.chm, _) => (128, 19)
  | _ => (0, 0)

/-- Offset of an instance's register on its page, and its requesters (R149, R150, R452, R276, R277, R348, R349). -/
def arbInstance (page i : Nat) : Option (Nat × Nat) :=
  let pick := fun base n k => if i < n then some (base + 8 * i, k) else none
  match pageInfo page with
  | some (.stv, _) => if i < 16 then some (0x208 + 8 * i, 8) else if i = 16 then some (0x288, 2) else none
  | some (.hrt, _) => pick 0x088 6 6
  | some (.wbx, _) => pick 0xB08 12 6
  | some (.dbgM, _) => pick 0x108 16 6
  | some (.flu, _) => pick 0x0B8 1 6
  | some (.chm, _) => pick 0x808 128 19
  | some (.hbm, _) => pick 0x0A8 32 16
  | some (.slm, _) => pick 0x0B8 32 17
  | _ => none

/-- Release what an ended waiting command holds beside its entry: its PERMUTE round or remote read, its flow's message or opening, its
gated read, its arm, its turn at a stoker's arm. -/
def World.letGo (w : World) (r : RingId) (e : Entry) : World :=
  let mine := fun (q : RingId) (i : Nat) => q == r && i == e.idx
  match e.phase with
  | .fabric _ => w.modChm fun c => { c with
      perm := c.perm.filter (fun p => !mine p.ring p.idx), rreads := c.rreads.filter fun q => !mine q.ring q.idx }
  | .channel c => match w.sflow c with
    | some f => if f.st == .opening then w.dropSflow c else w.modSflow c fun f => { f with cmd := none, since := none }
    | none => w
  | .gated =>
    let this := fun (g : GateRead) => match g.req with | .ring c => c.ring == r && c.desc == e.desc | .remote _ => false
    let w := (w.dev.blw.passed.filter fun p => this p.1).foldl (fun w p => w.modRegion p.1.wreg fun x =>
      if p.2 = 0 then { x with readers0 := x.readers0 - 1 } else { x with readers1 := x.readers1 - 1 }) w
    w.upd fun d => { d with blw := { d.blw with
      asks := d.blw.asks.filter (fun g => !this g), parked := d.blw.parked.filter (fun p => !this p.read)
      passed := d.blw.passed.filter fun p => !this p.1 } }
  | .armed =>
    let w := (w.dev.blw.regions.filter fun x => match x.arm with | some a => mine a.ring a.idx | none => false).foldl
      (fun w x => w.modRegion x.index fun x => { x with arm := none }) w
    (w.modChm fun c => { c with arms := c.arms.filter fun a => !mine a.ring a.idx }).showAcc
  | .stoker _ =>
    let drop := fun (o : Option (RingId × Nat)) => o.filter fun x => !mine x.1 x.2
    w.modStk fun s => { s with
      rts := s.rts.map (fun a => { a with disarm := drop a.disarm }), kvs := s.kvs.map fun a => { a with disarm := drop a.disarm } }
  | _ => w

/-- A Hold instance's grant reaches WDOG: the transaction is aborted, and the command that issued it completes (R147). -/
def World.watchdog (w : World) (page i q : Nat) (ring : Option RingId) : World :=
  let (n, k) := holdInstances page
  if n ≤ i || k ≤ q then w
  else
    let port := ring.map w.ringPort
    let (ev, w) := w.raise port page 0x05 0 (BitVec.ofNat 64 (i * 2 ^ 8 + q * 2 ^ 16)) 0
    match ring with
    | none => w
    | some r => match (w.ringRun r).entries.find? Entry.waiting with
      | some e => (w.letGo r e).endCmd r e.idx stAbortedWdog ev
      | none => w

def execArbWatchdog (page inst requester : Nat) (ring : Option RingId) (s : State) : Host.Outcome State Fault Refusal :=
  s.run fun w => w.watchdog page inst requester ring

/-- A requester's wait counter reaches STARVE (R148). -/
def World.starve (w : World) (page i q : Nat) : World :=
  match arbInstance page i with
  | none => w
  | some (off, k) =>
    if k ≤ q || bit (w.reg (rk page off)) q then w
    else (w.modReg (rk page off) fun v => setBit v q true).event page 0x06 0 (BitVec.ofNat 64 (i * 2 ^ 8 + q * 2 ^ 16)) 0

def execArbStarve (page inst requester : Nat) (s : State) : Host.Outcome State Fault Refusal :=
  s.run fun w => w.starve page inst requester

end Sys2Proof.Machine
end

