-- ==== Sys2Proof/Machine/Jobs.lean ====
section
/-! DEFINITION. Jobs: creation and destruction (R121 to R124), invalidation of translations (R38, R39), evaluation and zeroing of
health banks (R81 to R83). -/

namespace Sys2Proof.Machine

/-! ### CREATE (R121, R123) -/

/-- Read and check a job's descriptor and tables; the descriptor's address is the writer's own copy of MGT_JOB_DESC (R449). -/
def createJob (writer num : Nat) : Act Nat := do
  let w := (← get).w
  need ((w.job num).isNone) stJob
  need (bit (w.reg (rk 0x120 (0x800 + 8 * num))) 0) stJob
  let a := fld (w.banked writer (rk 0 0x400)) 47 6 * 64
  need (w.inHbm a 64) stOperand
  let ws ← opWords a 8
  let x := fun i => ws.getD i 0
  let recipe := fld (x 1) 47 0
  let health := fld (x 2) 47 0
  let live := fld (x 3) 47 0
  let save := fld (x 4) 47 0
  need (w.inHbm recipe 256 && w.inHbm health 0x800000 && w.inHbm live 0x80000 && w.inHbm save 0x2000) stOperand
  let rs ← opWords recipe 32
  need (recipe % 256 == 0 && health % 0x400000 == 0 && live % 4096 == 0 && save % 4096 == 0 &&
    (upTo 1 4).all (fun i => zeroBits (x i) [(63, 48)]) && zeroBits (x 5) [(63, 32)] && x 6 == 0 && x 7 == 0) stOperand
  let table := (chunks 2 rs).map fun c => (c.getD 0 0, c.getD 1 0)
  need (recipeTableOk table) stFormat
  let step := fld (x 5) 31 0
  actW fun w => (w.upd fun d => { d with jobs := d.jobs ++ [{
    num := num, seed := x 0, recipe := table, health := health, livetab := live, savetab := save, step := step, start := none
    step0 := step, running := false, aborted := false, stopX := none, stopB := (0, 0), stopEnding := false, lastTicks := []
    evaluated := [], zeroWait := [] }] }).modReg (rk 0 0x418) fun v => setBit v num true
  return stOk

/-! ### DESTROY (R124) -/

/-- Every ring that holds commands. -/
def World.ringsInUse (w : World) : List RingId := w.dev.rings.map RingRun.ring

/-- Change every command of a job in a phase class, ring by ring. -/
def World.overJob (w : World) (j : Nat) (p : Entry → Bool) (f : World → RingId → Entry → World) : World :=
  w.ringsInUse.foldl (fun w r =>
    ((w.ringRun r).entries.filter fun e => jobOf e.desc == j && p e).foldl (fun w e => f w r e) w) w

/-- A waiting command that DESTROY ends with PREEMPTED. -/
def World.endsPreempted (w : World) (e : Entry) : Bool :=
  match e.phase with
  | .waitLine _ _ _ => true
  | .optOpen => true
  | .fabric _ => opcodeOf e.desc == 0x85
  | .channel c => opcodeOf e.desc == 0x24 && (match w.sflow c with | some f => f.since.isSome | none => false)
  | _ => false

/-- Step 1 of R124. -/
def World.destroyBegin (w : World) (j : Nat) : World :=
  let w := w.overJob j Entry.unstarted fun w r e => w.endUnrun r e stPreempted
  let w := (w.dev.blw.regions.filter fun r => r.job == j).foldl (fun w r => match r.arm with
    | some a => (w.modRegion r.index fun r => { r with arm := none }).endCmd a.ring a.idx stJob 0
    | none => w) w
  let w := (w.dev.chm.arms.filter fun a => a.job == j).foldl (fun w a => w.armEnd a stJob) w
  let gone := (w.dev.blw.asks ++ w.dev.blw.parked.map Parked.read).filter fun g => g.job == j
  let w := w.upd fun d => { d with blw := { d.blw with
    asks := d.blw.asks.filter fun g => g.job ≠ j
    parked := d.blw.parked.filter fun p => p.read.job ≠ j } }
  let w := gone.foldl (fun w g => w.gateRefuse g stPreempted 0) w
  w.overJob j w.endsPreempted fun w r e => (w.letGo r e).endCmd r e.idx stPreempted 0

/-- Whether another started command of the job still runs (R124); a disarm that waits for its arm ends with the arm. -/
def World.jobBusy (w : World) (j : Nat) : Bool :=
  w.dev.rings.any fun r => r.entries.any fun e => jobOf e.desc == j && e.waiting && (match e.phase with | .stoker _ => false | _ => true)

/-- Drop cached translations (R39). -/
def World.dropXlt (w : World) (job : Nat) (vpn : Option Nat) : World :=
  w.upd fun d => { d with xlt := { d.xlt with
    cache := d.xlt.cache.filter fun e => !(e.job == job && (match vpn with | some v => e.vpn == v | none => true))
    roots := if vpn.isSome then d.xlt.roots else d.xlt.roots.filter fun r => r.1 ≠ job } }

/-- Steps 3 to 5 of R124. -/
def World.destroyEnd (w : World) (j : Nat) : World :=
  let w := (w.groupsOf j).foldl (fun w g =>
    let w := (w.unbindGroup g.num).setMbq g.num []
    w.upd fun d => { d with tik := { d.tik with mbwait := d.tik.mbwait.filter fun x => x.1 ≠ g.num } }) w
  let w := w.stopStatus j stJob
  let w := (w.dev.blw.regions.filter fun r => r.job == j).foldl (fun w r => w.dropRegion r.index) w
  let w := (w.dev.stk.rts.filter fun a => a.job == j).foldl (fun w a => w.dropRt a.num) w
  let w := (w.dev.stk.kvs.filter fun a => a.job == j).foldl (fun w a => w.dropKv a.num) w
  let flows := (w.dev.chn.sflows.filter fun f => f.job == j).map SFlow.ctx ++
    (w.dev.chn.rflows.filter fun f => f.job == j || f.ojob == j).map RFlow.ctx ++
    (w.dev.chn.gflows.filter fun f => f.job == j).map GFlow.ctx
  let w := flows.foldl (fun w c => w.abortFlow c) w
  let w := w.withdraw fun x => x.job == j
  let eps := (List.range 2048).filter fun e => w.rf (epKey (e / 8) (e % 8)) 6 1 == j
  let w := eps.foldl (fun w e => w.setEp (e / 8) (e % 8) (setBit (w.reg (epKey (e / 8) (e % 8))) 0 false)) w
  let w := (w.dropXlt j none).upd fun d => { d with
    jobs := d.jobs.filter (fun x => x.num ≠ j), xlt := { d.xlt with destroy := none }
    stk := { d.stk with dones := d.stk.dones.filter fun x => x.2.1 ≠ j } }
  let w := w.modReg (rk 0 0x418) fun v => setBit v j false
  w.opDone (rk 0 0x410) stOk 21 j

/-- Whether an access of a job made with an earlier translation, by a command or by a unit of the device, is still on its way: not yet
acknowledged, or waiting at its home (R39). -/
def World.jobAccess (w : World) (j : Nat) : Bool :=
  w.dev.urk.reqs.any (fun q => q.job == some j) || w.dev.urk.home.any fun h => h.job == some j

/-- Whether a suspended ring's save image belongs to a job. -/
def World.jobSaved (w : World) (j : Nat) : Bool := w.dev.stoves.any fun s => s.saved.any fun i => i.job == j

/-- A write of MGT_JOB_CMD that is performed (R123, R124). -/
def World.jobCmd (w : World) (writer : Nat) (v : U64) : World :=
  let j := fld v 5 0
  if fld v 7 6 = 1 then
    w.opRun (mantel 0) (rk 0 0x410) writer 0 0x408 v (createJob writer j) fun st w => w.opDone (rk 0 0x410) st 21 j
  else if fld v 7 6 = 2 then
    if (w.job j).isNone || w.jobSaved j then w.opDone (rk 0 0x410) stJob 21 j
    else
      let w := w.destroyBegin j
      if w.jobBusy j || w.jobAccess j then
        (w.modReg (rk 0 0x410) fun x => setBit x 0 false).upd fun d => { d with xlt := { d.xlt with destroy := some j } }
      else w.destroyEnd j
  else w

/-- A write of MGT_JOB_CMD (R123). -/
def World.jobWrite (w : World) (writer : Nat) (v : U64) : World :=
  w.command writer 0 0x408 v (w.opBusy (rk 0 0x410)) fun w => w.jobCmd writer v

def execCreate (port job : Nat) (s : State) : Host.Outcome State Fault Refusal :=
  s.port port 0 0x408 (BitVec.ofNat 64 (job % 64 + 0x40)) fun w => w.jobWrite port (BitVec.ofNat 64 (job % 64 + 0x40))

def execDestroy (port job : Nat) (s : State) : Host.Outcome State Fault Refusal :=
  s.port port 0 0x408 (BitVec.ofNat 64 (job % 64 + 0x80)) fun w => w.jobWrite port (BitVec.ofNat 64 (job % 64 + 0x80))

/-! ### Invalidation (R38, R39) -/

def xltSts : Nat := rk 0x120 0xA08

/-- A write of WBX_XLT_INV on W0. -/
def World.invWrite (w : World) (writer : Nat) (v : U64) : World :=
  w.command writer 0x120 0xA00 v w.dev.xlt.inv.isSome fun w =>
    (w.modReg xltSts fun x => setFld x 1 0 2).upd fun d => { d with xlt := { d.xlt with inv := some v } }

def execWbxXltInv (port : Nat) (v : U64) (s : State) : Host.Outcome State Fault Refusal :=
  s.port port 0x120 0xA00 v fun w => w.invWrite port v

/-- Every cache has dropped the named entries and every access translated with an old one has completed: the invalidation under
way ends, or the one that a DESTROY makes. -/
def World.invDone (w : World) : World :=
  match w.dev.xlt.inv with
  | some v =>
    let j := fld v 5 0
    if w.jobAccess j then w
    else
      let w := w.dropXlt j (if bit v 6 then none else some (fld v 47 21))
      (w.modReg xltSts fun x => setFld x 1 0 1).upd fun d => { d with xlt := { d.xlt with inv := none } }
  | none => match w.dev.xlt.destroy with
    | some j => if w.jobBusy j || w.jobAccess j then w else w.destroyEnd j
    | none => w

def execXltInvDone (s : State) : Host.Outcome State Fault Refusal := s.run World.invDone

/-! ### Health banks (R81 to R83) -/

/-- The evaluated first word of a record with elements, and whether a flag was set (R79, R81). -/
def healthWord (rec' : Nat → Recipe) (step : Nat) (ws : List U64) : U64 × Bool :=
  let x := fun i => ws.getD i 0
  let r := rec' (fld (x 0) 19 16)
  let elems := fld (x 1) 47 0
  let hi := fun (n th : Nat) => th != 0xFFFF && decide (th * elems < n * 65536)
  let z := hi (fld (x 2) 47 0) r.zeroTh
  let s := hi (fld (x 3) 47 0) r.satTh
  let n := hi (fld (x 4) 47 0) r.nonfinTh
  (setFld (setFld (x 0) 27 24 (1 + z.toNat * 2 + s.toNat * 4 + n.toNat * 8)) 63 32 step, z || s || n)

/-- The words of a record. -/
def World.healthRec (w : World) (a : Nat) : List U64 := (List.range 8).map fun i => w.word (a + 8 * i)

/-- Whether a slot of step s is still to be released, looking n slots on from slot p of a schedule table in step c (R204, R207). -/
def slotAhead (table : List (U64 × U64)) (s : Nat) : Nat → Nat → Nat → Bool
  | 0, _, _ => false
  | n + 1, p, c =>
    let e := table.getD p (0, 0)
    (c + 2 ^ 32 - slotSoff e) % 2 ^ 32 == s ||
      slotAhead table s n ((p + 1) % max 1 table.length) (if slotEnd e then (c + 1) % 2 ^ 32 else c)

/-- Whether a job's schedule still has commands of a step to release (R81, R207, R218). -/
def World.stepAhead (w : World) (j : Job) (s : Nat) : Bool :=
  (j.start.isSome && decide (0 ≤ stepDiff s j.step)) ||
  (j.running && !j.aborted && (decide (0 < stepDiff s j.step) || (w.groupsOf j.num).any fun g =>
    let e := g.table.getD g.ptr (0, 0)
    let most := (g.table.map slotSoff).foldl max 0
    slotAhead g.table s (g.table.length * (most + 1)) ((g.ptr + 1) % max 1 g.table.length)
      (if slotEnd e then (j.step + 1) % 2 ^ 32 else j.step)))

/-- Whether commands of a step of a job are still to complete, be released or be read. -/
def World.stepBusy (w : World) (j step : Nat) : Bool :=
  w.dev.rings.any (fun r => r.entries.any fun e => jobOf e.desc == j && stepOf e.desc == step && e.undone) ||
  ((w.groupsOf j).any fun g => g.members.any fun m => m.queue.any fun q => q.step == step && decide (q.read < q.count)) ||
  (w.job j).any fun x => w.stepAhead x step

/-- Evaluate a job's records of a step (R81, R82). -/
def World.evaluate (w : World) (j step : Nat) : World :=
  match w.job j with
  | none => w
  | some job =>
    let lo := healthAddr job step 0
    if job.evaluated.contains step || w.stepBusy j step || !w.rangeVisible lo 0x400000 then w
    else if !(w.rangeAway lo 0x400000).isEmpty then (w.rangeAway lo 0x400000).foldl (fun w l => w.snoop l true none) w
    else
      let ids := (List.range 65536).filter fun t =>
        let a := healthAddr job step t
        !w.poisoned (lineOf a) && fld (w.word (a + 8)) 47 0 != 0
      let flagged := ids.filter fun t => (healthWord (w.recipe j) step (w.healthRec (healthAddr job step t))).2
      let w := ids.foldl (fun w t =>
        let a := healthAddr job step t
        w.storeWord (mantel 0) a (healthWord (w.recipe j) step (w.healthRec a)).1) w
      let w := w.modJob j fun x => { x with evaluated := (step :: x.evaluated).take 4 }
      match flagged with
      | [] => w
      | t :: _ => w.event 0 0x0E 0 (detail (some j) (t * 2 ^ 8 + flagged.length * 2 ^ 32)) (BitVec.ofNat 64 step)

def execHealthEval (job step : Nat) (s : State) : Host.Outcome State Fault Refusal := s.run fun w => w.evaluate job step

/-- Zero the bank of a step at the boundary that begins the step two later, once it has been evaluated (R83); a step that the job has
not begun has nothing to evaluate. -/
def World.zeroBank (w : World) (j step : Nat) : World :=
  match w.job j with
  | none => w
  | some job =>
    let due := (step + 2) % 2 ^ 32
    let lo := healthAddr job step 0
    if !job.zeroWait.contains due || !(job.evaluated.contains step || !job.lastTicks.any fun x => x.1 == step) ||
        !w.rangeVisible lo 0x400000 then w
    else
      let held := w.dev.urk.dir.filter fun e => decide (lo ≤ e.line) && decide (e.line < lo + 0x400000)
      if !held.isEmpty || w.dev.urk.snoops.any (fun s => decide (lo ≤ s.line) && decide (s.line < lo + 0x400000)) then
        held.foldl (fun w e => w.snoop e.line false none) w
      else
        let w := (List.range 64).foldl (fun w i => w.snapBefore (lo + 0x10000 * i)) w
        (w.push (.wipe lo (lo + 0x400000))).modJob j fun x => { x with zeroWait := x.zeroWait.filter (· ≠ due) }

def execHealthBankZero (job step : Nat) (s : State) : Host.Outcome State Fault Refusal := s.run fun w => w.zeroBank job step

end Sys2Proof.Machine
end

