-- ==== Sys2Proof/Machine/MemNet.lean ====
section
/-! DEFINITION. Memory accesses that arrive as network packets (R341, R344, R405), the locality reservation (R331, R332), the SLM
split (R343), scrubbing (R338) and event packets (R370). -/

namespace Sys2Proof.Machine

/-! ### Nodes (R26) -/

/-- Whether an endpoint has this node number (R26). -/
def nodeUsed (n : Nat) : Bool :=
  let l := n % 256
  match n / 256 with
  | 0x20 => decide (l ≤ 0x10) || l == 0x20 || (decide (0x28 ≤ l) && decide (l ≤ 0x2B)) ||
      (decide (0x30 ≤ l) && decide (l ≤ 0x36)) || l == 0x38 || l == 0x39 || (decide (0x40 ≤ l) && decide (l ≤ 0x4F))
  | 0x30 | 0x31 => true
  | s =>
    if s < 8 then decide (l ≤ 0x21) || (decide (0x30 ≤ l) && decide (l ≤ 0x35))
    else if 0x10 ≤ s ∧ s < 0x14 then
      decide (l ≤ 4) || l == 8 || (decide (0x10 ≤ l) && decide (l ≤ 0x13)) || l == 0x18 || (decide (0x30 ≤ l) && decide (l ≤ 0x3B))
    else false

/-- The DBG page of the die a node number lies on; a die that is not there is the mantel's to report. -/
def nodeDbg (n : Nat) : Nat :=
  let s := n / 256
  if s < 8 then 0x80 + s else if 0x10 ≤ s ∧ s < 0x14 then 0x88 + (s - 0x10) else 0x8C

/-- A packet to an unused node is discarded and counted, with EV_UE (R26, R453). -/
def World.unusedNode (w : World) (p : NetPkt) : World :=
  (w.count (rk (nodeDbg p.dst) 0x088) 31 0 1).evUe (nodeDbg p.dst) 0x06 (if p.job = 0 then none else some p.job) 0 p.src

/-! ### Reads, writes and atomics (R341, R344) -/

/-- The requester of a packet; JOB zero stands for none (R405). -/
def pktAgent (p : NetPkt) : Agent :=
  { page := nodeDbg p.dst, dbg := nodeDbg p.dst, node := p.src, job := if p.job = 0 then none else some p.job
    regs := decide (0x2000 ≤ p.src) && decide (p.src < 0x2010) }

/-- The answer to a request: type, status and payload (R405, R406). -/
def netAnswer (p : NetPkt) (typ status : Nat) (poison : Bool) (data : List Byte) : NetPkt :=
  { p with dst := p.src, src := p.dst, vc := 1, typ := typ, poison := poison, a1 := 0, status := status, a2 := 0, a3 := 0, payload := data }

/-- What a request ends with: denied, met poison or an address nothing serves, or OK (R34, R410). -/
def runStatus (r : Run) : Nat := if r.denied then stFwDenied else if r.pois.isSome || r.lost then stPoison else stOk

/-- Serve a read of n bytes: `none` while a line must be asked for. -/
def World.netRead (w : World) (p : NetPkt) (n : Nat) : Option NetPkt × World :=
  let ag := pktAgent p
  match (readP p.a1.toNat n).run (Run.init w ag) with
  | .ok ((bs, ps), r) => (some (netAnswer p 0x10 (runStatus r) (!ps.isEmpty) bs), r.w)
  | .error s => (none, w.ask ag s)

/-- Store the payload of a write, poisoned when the packet is (R337, R457). -/
def netWriteA (p : NetPkt) : Act Unit := do
  writeP p.a1.toNat p.payload
  if p.poison then poisonP p.a1.toNat p.payload.length

/-- Serve a write: `none` while a line must be asked for. -/
def World.netWrite (w : World) (p : NetPkt) : Option NetPkt × World :=
  let ag := pktAgent p
  match (netWriteA p).run (Run.init w ag) with
  | .ok (_, r) => (some (netAnswer p 0x11 (runStatus r) false []), r.w)
  | .error s => (none, w.ask ag s)

/-- Serve an atomic (R344): HBM and the SLM scratchpad window at their home slice, a guest window through the firewall; `none` while
every tag of the guest's port is in use. -/
def World.netAtomic (w : World) (p : NetPkt) : Option NetPkt × World :=
  let ag := pktAgent p
  let a := p.a1.toNat / 8 * 8
  let done := fun st (w : World) => (some (netAnswer p 0x11 st false []), w)
  match w.place a with
  | .hbm | .slm _ => done stOk (w.atomicAt ag a (fld p.a3 1 0) (leWord (p.payload.take 8)))
  | .guest g =>
    if w.guestAdmits g 4 ag.job a 8 then
      if w.tagsFull (4 + g) then (none, w)
      else
        let (t, w) := w.newTag (4 + g)
        let w := w.sendGuest g { p with dst := 0x3000 + 0x100 * g, src := 0x2038 + g, tag := t }
        done stOk (w.addReq ⟨4 + g, t, 4, a, 8, none, ag.job, false⟩)
    else done stFwDenied (w.fwDeny g 1 4 ag.job ag.node a false)
  | .page | .nowhere => done stPoison (w.unmapped ag a)
  | .lost _ => done stPoison w
  | _ => done stOk w

/-- The answer to a request goes to its source, in this device or, behind a request of the fabric, in device RDEV (R249, R405). -/
def World.netReply (w : World) (p q : NetPkt) : World :=
  if p.rmt && p.rdev != w.devId then (w.fabricSend (if p.job = 0 then none else some p.job) p.rdev (.net q)).2
  else w.sendNet (.net q)

/-- Serve a write or atomic that nothing holds back; one that a line must be asked for waits in the network. -/
def World.netStore (w : World) (p : NetPkt) : World :=
  match w.netWrite p with
  | (some q, w) => w.netReply p q
  | (none, w) => w.backNet (.net p)

/-- Serve an atomic that nothing holds back; one that must wait stays in the network. -/
def World.netModify (w : World) (p : NetPkt) : World :=
  match w.netAtomic p with
  | (some q, w) => w.netReply p q
  | (none, w) => w.backNet (.net p)

/-- The granule of the snapshot set that holds a write of n bytes back, if any (R378). -/
def World.stallsAt (w : World) (a n : Nat) : Option Nat :=
  (granules a n).findSome? fun g => match w.place g with
    | .hbm | .slm _ => w.snapHolds g
    | _ => none

/-- Hold a write that the snapshot rule stalls, and promote its granule (R378). -/
def World.stall (w : World) (c : Instr) (g : Nat) : World :=
  (((w.count (rk 2 0x108) 31 0 1).setRun fun r =>
    { r with promoted := if r.promoted.contains g then r.promoted else r.promoted ++ [g] }).upd fun d =>
    { d with snp := { d.snp with stalled := d.snp.stalled ++ [⟨c, g, d.gtime⟩] } })

/-! ### Responses (R405, R406) -/

/-- A response reaches the guest port that reissued a request: it goes to the guest under its TAG. -/
def World.guestAnswer (w : World) (g : Nat) (p : NetPkt) : World :=
  match w.dev.guests.find? fun x => x.site == g with
  | none => w
  | some x => match x.asked.find? fun q => q.1 == p.tag with
    | none => w
    | some q =>
      let w := w.upd fun d => { d with guests := updFirst (fun x => x.site == g) (fun x => { x with asked := x.asked.erase q }) d.guests }
      w.sendGuest g { p with dst := q.2, src := 0x2038 + g }

/-- What may go on once writes have become visible or bytes have come: live masks, gathered slices, the Chimney's arms, packets and
reads, done words. -/
def World.settle (w : World) : World :=
  ((w.dev.rings.filter RingRun.maskDue).foldl (fun w x => w.readMask x.ring) w).creditGathers.chmPump.pumpDones

/-- A guest answers a device request: its bytes wait for the access that asked, or its write is done. -/
def World.guestReply (w : World) (g : Nat) (p : NetPkt) : World :=
  match w.dev.urk.reqs.find? fun q => q.port == 4 + g && q.tag == p.tag with
  | none => w
  | some q =>
    let w := w.upd fun d => { d with urk := { d.urk with reqs := d.urk.reqs.erase q } }
    World.settle <|
    if p.typ = 0x10 then
      let w := w.push (.bytes q.addr (p.payload.take q.len))
      w.upd fun d => { d with urk := { d.urk with
        got := d.urk.got.filter (fun h => h.addr ≠ q.addr) ++ [⟨q.addr, q.len, p.poison, p.status⟩] } }
    else match q.owner with
      | some (r, i) => if p.status = stOk then w else w.modEntry r i fun e => if e.status = stOk then { e with status := p.status } else e
      | none => w

/-- A response packet at its destination (R26, R405). -/
def World.netRsp (w : World) (p : NetPkt) : World :=
  if !nodeUsed p.dst then w.unusedNode p
  else if p.src / 256 = 0x30 ∨ p.src / 256 = 0x31 then w.guestReply (p.src / 256 - 0x30) p
  else if p.dst = 0x2038 ∨ p.dst = 0x2039 then w.guestAnswer (p.dst - 0x2038) p
  else w

/-! ### Event packets (R369, R370) -/

/-- An event packet reaches the mantel: it takes its port's next number and is written, or is dropped. -/
def World.eventPkt (w : World) (e : EventPkt) : World :=
  match w.eventPort none e.d0 with
  | none => w
  | some p => (w.deliver p (e.page % 2 ^ 16) (e.code % 256 + e.qual % 256 * 256) e.d0 e.d1).2

def execEvent (e : EventPkt) (s : State) : Host.Outcome State Fault Refusal := s.run fun w => w.eventPkt e

/-! ### The locality reservation (R331, R332) -/

/-- The address that a byte of a channel has under the mapping in force: the inverse of hbm_locate (R330). -/
def World.hbmAddr (w : World) (ch off : Nat) : Nat :=
  let l := w.locality
  let index := fun (ms : List Nat) => (ms.findIdx? (· == ch)).getD 0
  let on := (List.range 640).filter w.chanOn
  let at_ := fun (n i s : Nat) => (s * n + (i + n - s * 293 % n % n) % n) * 4096 + off % 4096
  let s := off / 4096
  if s < 393216 - l then at_ w.chans (index on) s
  else
    let wb := ch % 20 / 5
    w.wbase wb + at_ (w.cn wb) (index (on.filter fun c => c % 20 / 5 == wb)) (s - (393216 - l))

/-- Change the locality reservation: every byte of HBM, and every error in a burst, stays where it is in its stack, and reads at its
new address; the SLM caches are written back and hold nothing. -/
def World.relocate (w : World) (l : Nat) : World :=
  let cells := (memCommit w.mem w.log).cells.filter fun c => decide (c.1 < hbmEnd)
  let marks := (memCommit w.mem w.log).poison.filter fun g => decide (g < hbmEnd)
  let spot := fun a => w.hbmLocate a
  let w' := (List.range 4).foldl (fun w n => w.setReg (rk (0x120 + n) 0x088) (BitVec.ofNat 64 l)) w
  let back := fun (p : Option (Nat × Nat × Nat)) => match p with
    | some (s, q, off) => some (w'.hbmAddr (20 * q + s) off)
    | none => none
  let w' := w'.push (.wipe 0 hbmEnd)
  let w' := cells.foldl (fun w' c => match back (spot c.1) with
    | some a => w'.push (.bytes a [c.2])
    | none => w') w'
  let w' := marks.foldl (fun w' g => match back (spot g) with
    | some a => w'.push (.poison a)
    | none => w') w'
  let moved := w.dev.upsets.filterMap fun u =>
    if hbmEnd ≤ u.addr then some u else if u.inSlm then none else (back (spot u.addr)).map fun a => { u with addr := a }
  let w' := w'.upd fun d => { d with upsets := moved, slm := d.slm.map fun c => { c with lines := [] } }
  (List.range 4).foldl (fun x n => x.setRf (rk (0x120 + n) 0x090) 58 32 (w'.wbase n / 0x200000)) w'

/-- Whether a ring of any engine is enabled. -/
def World.anyRingOn (w : World) : Bool :=
  w.dev.regs.any fun c => match ringAt (c.1 / 0x1000) (c.1 % 0x1000) with
    | some (_, 0) => bit c.2 0
    | _ => false

/-- Whether the directory tracks a line of HBM (R332). -/
def World.tracksHbm (w : World) : Bool := w.dev.urk.dir.any fun e => decide (e.line < hbmEnd)

/-- A write of WBX_HBM_LOC (R332); instances other than W0 are read-only. -/
def World.locWrite (w : World) (writer inst : Nat) (v : U64) : World :=
  w.owned writer (0x120 + inst) 0x088 v fun w =>
    if inst ≠ 0 then w
    else
      let l := fld v 18 0
      let bad := !w.dev.jobs.isEmpty || w.anyRingOn || w.tracksHbm || l % 512 != 0 || decide (393216 < l)
      let w := if bad then w else w.relocate l
      (List.range 4).foldl (fun w n => w.modReg (rk (0x120 + n) 0x090) fun x => setBit (setBit x 0 true) 1 bad) w

def execWbxHbmLoc (port inst : Nat) (v : U64) (s : State) : Host.Outcome State Fault Refusal :=
  if inst < 4 then s.port port (0x120 + inst) 0x088 v fun w => w.locWrite port inst v else .next s

/-! ### The SLM split (R342, R343) -/

/-- Memory of [lo, hi) with its errors gone, zero, with valid ECC (R343). -/
def World.wipe (w : World) (lo hi : Nat) : World :=
  (w.push (.wipe lo hi)).upd fun d => { d with upsets := d.upsets.filter fun u => decide (u.addr < lo) || decide (hi ≤ u.addr) }

/-- First address of a slice's scratchpad window. -/
def slmAddr (n : Nat) : Nat := slmBase + n * 0x8000000

/-- A write of SLM_SPLIT: leaving segments are unmapped at once and their contents discarded; larger values are ignored. -/
def World.splitWrite (w : World) (writer n : Nat) (v : U64) : World :=
  let sts := rk (0x124 + n) 0x088
  w.command writer (0x124 + n) 0x080 v (w.opBusy sts) fun w =>
    let k := fld v 3 0
    if 8 < k then w
    else
      let old := w.slmK n
      let w := (w.setReg (rk (0x124 + n) 0x080) (BitVec.ofNat 64 k)).modReg sts fun x => setBit x 0 false
      if old ≤ k then w
      else (w.wipe (slmAddr n + k * 0x1000000) (slmAddr n + old * 0x1000000)).setRf sts 7 4 k

def execSlmSplit (port slice : Nat) (v : U64) (s : State) : Host.Outcome State Fault Refusal :=
  if slice < 4 then s.port port (0x124 + slice) 0x080 v fun w => w.splitWrite port slice v else .next s

/-- Joining segments are written back, zeroed and mapped; DONE is set (R343). -/
def World.splitDone (w : World) (n : Nat) : World :=
  let sts := rk (0x124 + n) 0x088
  if !w.opBusy sts then w
  else
    let k := w.rf (rk (0x124 + n) 0x080) 3 0
    let old := w.slmK n
    let w := if old < k then (w.slmShrink n k).wipe (slmAddr n + old * 0x1000000) (slmAddr n + k * 0x1000000) else w
    (w.setRf sts 7 4 k).modReg sts fun x => setBit x 0 true

def execSlmSplitDone (slice : Nat) (s : State) : Host.Outcome State Fault Refusal :=
  s.run fun w => if slice < 4 then w.splitDone slice else w

/-! ### Scrubbing (R336 to R338) -/

/-- Whether a burst is the last of its stack's enabled pseudo-channels. -/
def World.lastBurst (w : World) (s q off : Nat) : Bool :=
  off / 64 == 0x60000000 / 64 - 1 && (upTo (q + 1) (31 - q)).all fun x => !w.chanOn (20 * x + s)

/-- A scrub read of a burst (R338): what R336 and R337 lay down for what it finds there, an error that no read has met among it; a
poisoned line stays as it is. -/
def World.scrub (w : World) (pa : Nat) (found : ScrubFind) : World :=
  match w.place pa, w.hbmLocate pa with
  | .hbm, some (s, q, off) =>
    let page := 0x140 + s
    if w.rf (rk page 0x090) 31 0 = 0 then w
    else
      let l := lineOf pa
      let wb := s / 5
      let here := w.dev.upsets.find? fun u => !u.inSlm && u.word == pa / 64 * 64
      let found := match here with
        | some u => if u.bad then ScrubFind.uncorrectable else ScrubFind.corrected u.sym
        | none => found
      let w := match here with
        | some u => w.upd fun d => { d with upsets := d.upsets.erase u }
        | none => w
      let w := if w.poisoned l then w
        else match found with
          | .clean => w
          | .corrected sym =>
            let w := w.count (rk page 0x088) 31 0 1
            if bit (w.reg (rk (0x120 + wb) 0x098)) 6 then w.errRecord wb 5 s q 0x3F (sym % 32) l 0 else w
          | .uncorrectable =>
            let w := (w.count (rk page 0x088) 63 32 1).markPoison l
            (w.errRecord wb 6 s q 0x3F 0 l 0).evUe page 0x02 none l 0
      if w.lastBurst s q off then w.count (rk page 0x090) 63 32 1 else w
  | _, _ => w

def execScrubRead (pa : Nat) (found : ScrubFind) (s : State) : Host.Outcome State Fault Refusal :=
  s.run fun w => w.scrub pa found

end Sys2Proof.Machine
end

