-- ==== Sys2Proof/Machine/Home.lean ====
section
/-! DEFINITION. Link layers (R248, R350), the coherence directory and its home queues, host requests, foreign writes and streams
(R352 to R366). -/

namespace Sys2Proof.Machine

def urkPage (p : Nat) : Nat := 0x10 + p

/-! ### Links (R248, R350) -/

/-- BLK_STS.FAULT of a page rises; with FRZ_EN the freeze controller acts (R441, R428). -/
def World.setFault (w : World) (page : Nat) : World :=
  let was := bit (w.reg (rk page 0x018)) 2
  let w := w.modReg (rk page 0x018) fun v => setBit v 2 true
  if !was && bit (w.reg (rk page 0x010)) 2 && w.dev.pwr.freezeAt.isNone then
    w.upd fun d => { d with pwr := { d.pwr with freezeAt := some (d.gtime + 48) } }
  else w

def World.link (w : World) (page : Nat) : Option Link := w.dev.urk.links.lookup page

def World.setLink (w : World) (page : Nat) (l : Option Link) : World :=
  w.upd fun d => { d with urk := { d.urk with
    links := (match l with | some l => [(page, l)] | none => []) ++ d.urk.links.filter fun x => x.1 ≠ page } }

/-- A link frame that a port has received: taken when it is good and the expected one; each that fails is refused with a NAK naming the
expected number. -/
def World.frameIn (w : World) (page seq : Nat) (good : Bool) (nak : Nat → OutMsg) : World :=
  match w.link page with
  | none => w
  | some l =>
    if good then (if seq == l.rxNext then w.setLink page (some { l with rxNext := (l.rxNext + 1) % 4096 }) else w)
    else w.upd fun d => { d with out := d.out ++ [nak l.rxNext] }

/-- The frame that a NAK names has been replayed 16 times without being acknowledged: the port goes down. -/
def World.nakDowns (w : World) (page seq : Nat) : Bool :=
  match w.link page with
  | some l => decide (16 ≤ l.replays) && l.replay.head?.map Prod.fst == some seq
  | none => false

/-- A NAK: the frames before the one it names are received, that one and those behind it are sent again. Answers how many. -/
def World.nakIn (w : World) (page seq : Nat) : Nat × World :=
  match w.link page with
  | none => (0, w)
  | some l =>
    let rest := l.replay.dropWhile fun f => f.1 ≠ seq
    if rest.isEmpty then (0, w)
    else
      let same := l.replay.head?.map Prod.fst == some seq
      let w := w.setLink page (some { l with replay := rest, replays := if same then l.replays + 1 else 1 })
      (rest.length, w.upd fun d => { d with out := d.out ++ rest.map fun f => .replay page f.1 })

/-! ### The directory (R353, R354) -/

/-- Whether hosts may cache a line (R353). -/
def World.cacheable (w : World) (a : Nat) : Bool :=
  match w.place a with
  | .hbm | .slm _ => true
  | _ => false

/-- Change a line's directory entry; one that no port holds goes. -/
def World.modDir (w : World) (l : Nat) (f : DirEntry → DirEntry) : World :=
  w.upd fun d => { d with urk := { d.urk with
    dir := (updFirst (fun e => e.line == l) f d.urk.dir).filter fun e => !e.ports.isEmpty } }

/-- Record that a port holds a line, shared or modified. -/
def World.hold1 (w : World) (l p : Nat) (own : Bool) : World :=
  match w.dirOf l with
  | none => w.upd fun d => { d with urk := { d.urk with dir := d.urk.dir ++ [⟨l, own, [p]⟩] } }
  | some e => w.modDir l fun _ => { e with modified := own || (e.modified && e.ports == [p]), ports := insNat p e.ports }

/-- The victim of a line that finds its set full: another line of the set (R354). -/
def World.victim (w : World) (l : Nat) : Option DirEntry :=
  if (w.dirOf l).isSome then none
  else
    let es := w.dev.urk.dir.filter fun e => Config.dirSet e.line == Config.dirSet l
    if es.length < 16 then none else es[Config.dirVictim l % es.length]?

/-- Recall a victim from all its holders; counted as capacity recalls. -/
def World.evict (w : World) (e : DirEntry) : World :=
  e.ports.foldl (fun w p =>
    if w.dev.urk.snoops.any (fun s => s.line == e.line && s.port == p) then w
    else (w.snoop1 e.line false p).count (rk (urkPage p) 0x0F0) 63 32 1) w

/-! ### Answers -/

/-- A host port as an agent. -/
def hostAgent (p : Nat) : Agent := { page := urkPage p, dbg := 0x8C, node := 0x2028 + p, regs := true }

/-- Answer a host's request; a port that is down answers nothing. -/
def World.reply (w : World) (op : Nat) (m : UrkPkt) (data : List Byte) (poison nc : Bool) : World :=
  if w.portUp m.port then w.sendUrk op { m with poison := poison, nc := nc, len := data.length, mask := 0, data := data } else w

/-- Runs of set bits in a byte mask: offset and length (R352). -/
def maskRuns (mask : Nat) : List (Nat × Nat) :=
  ((List.range 128).foldl (fun (acc : List (Nat × Nat)) i =>
    if !mask.testBit i then acc
    else match acc with
      | (o, n) :: rest => if o + n = i then (o, n + 1) :: rest else (i, 1) :: acc
      | [] => [(i, 1)]) []).reverse

/-- The masked bytes of a WR_UC as pieces. -/
def maskedBytes (m : UrkPkt) : List (Nat × List Byte) :=
  (maskRuns m.mask).map fun r => (lineOf m.addr + r.1, (m.data.drop r.1).take r.2)

/-- Bytes of one line at its home, read by a port, and whether it is poisoned; counted (R336, R348, R349). -/
def World.lineRead (w : World) (p a n : Nat) : (List Byte × Bool) × World :=
  let l := lineOf a
  let w := (w.meet (hostAgent p) a n).touch a n false
  if w.poisoned l then ((w.bytes a n, true), w.countPoisonRead l) else ((w.bytes a n, false), w)

/-- The first line of a range that a host holds modified. -/
def World.modLine (w : World) (a n : Nat) : Option Nat :=
  (lines a n).find? fun l => match w.dirOf l with | some e => e.modified | none => false

/-- Read for a host outside the coherent protocol: the line to wait for, or the bytes. -/
def World.hostBytes (w : World) (p a n : Nat) : Except (Option Nat) (List Byte × Bool × Bool) × World :=
  match w.modLine a n with
  | some l => (.error (some l), w.snoop l true none)
  | none =>
    if (lines a n).all w.cacheable then
      let r := (lines a n).foldl (fun (acc : (List Byte × Bool) × World) l =>
        let lo := max a l
        let x := acc.2.lineRead p lo (min (a + n) (l + 128) - lo)
        ((acc.1.1 ++ x.1.1, acc.1.2 || x.1.2), x.2)) (([], false), w)
      (.ok (r.1.1, r.1.2, false), r.2)
    else match (readP a n).run (Run.init w (hostAgent p)) with
      | .ok ((bs, ps), r) => (.ok (bs, !ps.isEmpty, r.denied), r.w)
      | .error s => (.error none, w.ask (hostAgent p) s)

/-- Read and answer: the line to wait for when the answer must wait. -/
def World.hostRead (w : World) (m : UrkPkt) (n : Nat) (nc : Bool) : Option Nat × World :=
  match w.hostBytes m.port m.addr n with
  | (.ok (bs, poison, denied), w) => (none, if denied then w.reply 0x22 m [] false false else w.reply 0x20 m bs poison nc)
  | (.error l, w) => (some (l.getD (lineOf m.addr)), w)

/-! ### Foreign writes and streams (R364 to R366) -/

/-- A foreign write becomes visible; it waits on while it cannot be made. -/
def World.foreignLand (w : World) (f : Foreign) : World :=
  let body : Act Unit := do
    writeP f.addr f.data
    if f.poison then poisonP f.addr f.data.length
  match body.run (Run.init w (hostAgent f.port)) with
  | .ok (_, r) => r.w.upd fun d => { d with urk := { d.urk with foreign := d.urk.foreign.erase f } }
  | .error s => w.ask (hostAgent f.port) s

/-- Foreign writes that are not yet visible may become so, in any order (R364). -/
def World.foreignDrift (w : World) : World :=
  w.dev.urk.foreign.foldl (fun w f =>
    let (n, w) := w.draw
    if Config.foreignDelayed n then w else w.foreignLand f) w

/-- Every foreign write of a stream becomes visible. -/
def World.foreignFlush (w : World) (p x : Nat) : World :=
  (w.dev.urk.foreign.filter fun f => f.port == p && f.srcid == x).foldl World.foreignLand w

/-- A run of a stream buffer holds a range. -/
def Stream.covers (s : Stream) (m : UrkPkt) : Bool :=
  s.port == m.port && s.srcid == m.srcid && decide (s.base ≤ m.addr) && decide (m.addr + m.len ≤ s.base + s.data.length)

/-- What stays of a run of which a STREAM_RD has taken a range: the bytes before it and those behind it. -/
def Stream.rest (s : Stream) (m : UrkPkt) : List Stream :=
  let k := m.addr - s.base
  [{ s with data := s.data.take k }, { s with base := m.addr + m.len, data := s.data.drop (k + m.len) }].filter fun x => !x.data.isEmpty

/-- Bytes that the stream buffer of a port's SRCID holds. -/
def World.streamFill (w : World) (p x : Nat) : Nat :=
  w.dev.urk.streams.foldl (fun n s => if s.port == p && s.srcid == x then n + s.data.length else n) 0

/-- Read ahead from address a on behind the last address read: at most 64 KiB beyond it, into what is free of the stream buffer's
64 KiB, and not past memory that hosts may cache (R353, R366). -/
def World.readOn (w : World) (m : UrkPkt) (a k : Nat) : World :=
  let most := min (0x10000 - w.streamFill m.port m.srcid) (m.addr + m.len + 0x10000 - a)
  let n := min (Config.readAhead k) most
  let ls := (lines a n).takeWhile w.cacheable
  let n := match ls.getLast? with | some l => min n (l + 128 - a) | none => 0
  if n = 0 then w
  else
    let marks := ls.filter w.poisoned
    let w := marks.foldl World.countPoisonRead ((w.meet (hostAgent m.port) a n).touch a n false)
    w.upd fun d => { d with urk := { d.urk with
      streams := d.urk.streams ++ [⟨m.port, m.srcid, a, w.bytes a n, ls.filter w.poisoned⟩] } }

/-- A STREAM_RD: from a run of the stream buffer that holds it, or from memory; the port reads ahead behind what it holds (R366). -/
def World.streamRead (w : World) (m : UrkPkt) : Option Nat × World :=
  let (k, w) := w.draw
  match (if Config.streamHit k then w.dev.urk.streams.find? fun s => s.covers m else none) with
  | some s =>
    let bs := (s.data.drop (m.addr - s.base)).take m.len
    let bad := s.marks.any fun l => decide (l < m.addr + m.len) && decide (m.addr < l + 128)
    let w := w.upd fun d => { d with urk := { d.urk with streams := d.urk.streams.flatMap fun x => if x == s then s.rest m else [x] } }
    (none, (w.readOn m (s.base + s.data.length) k).reply 0x20 m bs bad false)
  | none => match w.hostBytes m.port m.addr m.len with
    | (.error l, w) => (some (l.getD (lineOf m.addr)), w)
    | (.ok (bs, poison, denied), w) =>
      if denied then (none, w.reply 0x22 m [] false false)
      else (none, (w.readOn m (m.addr + m.len) k).reply 0x20 m bs poison false)

/-- A FLUSH_RD: once the stream's foreign writes are visible it reads its 8 bytes and discards the stream buffer (R365). -/
def World.flushRead (w : World) (m : UrkPkt) : Option Nat × World :=
  let w := w.foreignFlush m.port m.srcid
  if w.dev.urk.foreign.any fun f => f.port == m.port && f.srcid == m.srcid then (some (lineOf m.addr), w)
  else match w.dev.urk.home.find? fun h => (match h.req with | .write _ _ | .poison _ => true | _ => false) && h.cmd.isNone with
  | some h => (some h.line, w)
  | none => match w.hostRead m 8 false with
    | (some l, w) => (some l, w)
    | (none, w) => (none, (w.count (rk (urkPage m.port) 0x100) 31 0 1).upd fun d => { d with urk := { d.urk with
        streams := d.urk.streams.filter fun s => !(s.port == m.port && s.srcid == m.srcid) } })

/-! ### Requests at the home (R354) -/

/-- A port gives a line up. -/
def World.giveUp (w : World) (l p : Nat) : World := w.modDir l fun e => { e with ports := e.ports.erase p }

/-- A WB or EVICT outside the lines that hosts may cache is not performed: a guest's firewall checks it, and nothing serves an unmapped
address (R34, R353, R358). -/
def World.badGiveUp (w : World) (type : Nat) (m : UrkPkt) : World :=
  match w.place m.addr with
  | .guest g =>
    (if w.guestAdmits g (type + 1) none (lineOf m.addr) 128 then w
      else w.fwDeny g 1 type none (0x2028 + m.port) m.addr false).reply 0x22 m [] false false
  | .nowhere => (w.unmapped (hostAgent m.port) m.addr).reply 0x21 m [] false false
  | _ => w.reply 0x22 m [] false false

/-- WB (R354): a port that holds the line modified writes it at its home and gives it up. A snoop of the line that the port has
answered before its WB could be made ends with it. -/
def World.writeBack (w : World) (m : UrkPkt) : World :=
  let l := lineOf m.addr
  if !w.cacheable m.addr then w.badGiveUp 2 m
  else
    let mine := match w.dirOf l with | some e => e.modified && e.ports.contains m.port | none => false
    let w := if mine then
        let w := ((w.touch l 128 true).snapBefore l).put l m.data
        if m.poison then w.markPoison l else w
      else w
    let w := w.upd fun d => { d with urk := { d.urk with
      snoops := d.urk.snoops.filter fun s => !(s.acked && s.line == l && s.port == m.port) } }
    (w.giveUp l m.port).reply 0x21 m [] false false

/-- EVICT (R354): a port gives up a clean line. -/
def World.evictLine (w : World) (m : UrkPkt) : World :=
  if !w.cacheable m.addr then w.badGiveUp 1 m
  else (w.giveUp (lineOf m.addr) m.port).reply 0x21 m [] false false

/-- The command of a request that the snapshot rule holds, and where it writes (R378): a WR_UC, a WB, or a request for ownership. -/
def World.hostStall (w : World) (op : Nat) (m : UrkPkt) : Option (Nat × Instr) :=
  match op with
  | 2 => (w.stallsAt (lineOf m.addr) 128).map fun g => (g, .rdOwn m)
  | 4 => ((maskedBytes m).findSome? fun c => w.stallsAt c.1 c.2.length).map fun g => (g, .wrUc m)
  | 5 => (w.stallsAt (lineOf m.addr) 128).map fun g => (g, .wb m)
  | _ => none

/-- A host's request at its line's home: done, or the line it must wait for. -/
def World.hostOrdered (w : World) (op : Nat) (m : UrkPkt) : Option Nat × World :=
  let l := lineOf m.addr
  let others := match w.dirOf l with | some e => e.ports.filter (· ≠ m.port) | none => []
  let dirty := match w.dirOf l with | some e => e.modified | none => false
  match op with
  | 1 =>
    if !w.cacheable m.addr then w.hostRead m m.len true
    else if dirty && !others.isEmpty then (some l, w.snoop l true none)
    else match w.victim l with
      | some e => (some e.line, w.evict e)
      | none =>
        let ((bs, p), w) := (w.hold1 l m.port false).lineRead m.port l 128
        (none, w.reply 0x20 m bs p false)
  | 2 =>
    if !w.cacheable m.addr then w.hostRead m m.len true
    else if !others.isEmpty then (some l, w.snoop l false (some m.port))
    else match w.victim l with
      | some e => (some e.line, w.evict e)
      | none =>
        let ((bs, p), w) := (w.hold1 l m.port true).lineRead m.port l 128
        (none, w.reply 0x20 m bs p false)
  | 3 => w.hostRead m m.len false
  | 4 =>
    if (w.dirOf l).isSome then (some l, w.snoop l false none)
    else if w.cacheable m.addr then
      let w := (maskedBytes m).foldl (fun w c => (w.snapBefore c.1).put c.1 c.2)
        ((if m.mask = 2 ^ 128 - 1 then w else w.meet (hostAgent m.port) l 128).touch l 128 true)
      (none, w.reply 0x21 m [] false false)
    else match ((maskedBytes m).forM fun c => writeP c.1 c.2).run (Run.init w (hostAgent m.port)) with
      | .ok (_, r) => (none, if r.denied then r.w.reply 0x22 m [] false false else r.w.reply 0x21 m [] false false)
      | .error s => (some l, w.ask (hostAgent m.port) s)
  | 5 => (none, w.writeBack m)
  | 6 => (none, w.evictLine m)
  | 8 => w.streamRead m
  | 9 => w.flushRead m
  | _ => (none, w)

/-- What waits at a home: done, or the line it must wait for. A request that the snapshot rule holds waits there (R378). -/
def World.homeTry (w : World) (h : HomeWait) : Option Nat × World :=
  match h.req with
  | .write a bs =>
    match w.place a with
    | .host p => if w.tagsFull p then (some h.line, w) else (none, w.hostWrite h.cmd h.job false p a bs)
    | .guest g => if w.tagsFull (4 + g) then (some h.line, w) else
        (none, (w.push (.bytes a bs)).guestPut g { page := 8 + g, dbg := 0x8C, node := 0x2038 + g, job := h.job, cmd := h.cmd } a bs)
    | .lost _ => (none, match h.cmd with
        | some (r, i) => w.modEntry r i fun e => if e.status = stOk then { e with status := stPoison } else e
        | none => w)
    | _ => if (w.dirOf h.line).isSome then (some h.line, w.snoop h.line false none) else (none, (w.snapBefore a).put a bs)
  | .poison g => (none, w.markPoison g)
  | .sink a bs =>
    match w.place a with
    | .host p => if w.tagsFull p then (some h.line, w) else (none, w.hostWrite h.cmd h.job true p a bs)
    | _ => (none, w.sinkFails)
  | .atomic a op v => if (w.dirOf h.line).isSome then (some h.line, w.snoop h.line false none)
    else
      let w := w.snapBefore a
      (none, w.put a (wordBytes (atomicResult op (w.word a) v)))
  | .host op m => match w.hostStall op m with
    | some (g, c) => (none, w.stall c g)
    | none => w.hostOrdered op m
  | .reg _ _ _ _ _ => (some h.line, w)

def World.modHome (w : World) (f : List HomeWait → List HomeWait) : World :=
  w.upd fun d => { d with urk := { d.urk with home := f d.urk.home } }

/-- A WB or EVICT that crosses a snoop of its line to its port is ordered first (R354). -/
def World.crosses (w : World) (op : Nat) (m : UrkPkt) : Bool :=
  (op == 5 || op == 6) && w.dev.urk.snoops.any fun s => s.line == lineOf m.addr && s.port == m.port

/-- Whether nothing of a request's port waits before it, if it is of SRCID 0 (R363). -/
def World.inOrder (w : World) (before : List HomeWait) (h : HomeWait) : Bool :=
  match h.req.hostPort with
  | none => true
  | some p => !before.any (fun x => x.req.hostPort == some p) && !w.dev.snp.stalled.any fun x => stalledPort x.cmd == some p

/-- Whether a waiting request, behind those before it, may be tried: no snoop of the line it waits for is outstanding, nothing before it
waits for its own line (R354), and, of SRCID 0, nothing of its port waits before it (R363). -/
def World.mayTry (w : World) (before : List HomeWait) (h : HomeWait) : Bool :=
  match h.req with
  | .reg _ _ _ _ _ => false
  | .host op m => w.crosses op m || (free before && w.inOrder before h)
  | _ => free before
where
  free (before : List HomeWait) : Bool :=
    !w.dev.urk.snoops.any (fun s => s.line == h.line || s.line == h.own) && !before.any fun x => x.own == h.own

/-- Try the waiting request in place i, if it may be tried: it is done, or waits on in its place. Answers the place of the next. -/
def World.pumpOne (w : World) (i : Nat) : Nat × World :=
  match w.dev.urk.home[i]? with
  | none => (i, w)
  | some h =>
    if !w.mayTry (w.dev.urk.home.take i) h then (i + 1, w)
    else match (w.modHome fun q => q.eraseIdx i).homeTry h with
      | (none, w) => (i, w)
      | (some l, w) => (i + 1, w.modHome fun q => q.take i ++ { h with line := l } :: q.drop i)

/-- Take what waits at the homes, in order of arrival; then what waited for it. -/
def World.pumpHome (w : World) : World :=
  ((w.dev.urk.home.foldl (fun (s : Nat × World) _ => s.2.pumpOne s.1) (0, w)).2).settle

/-- A host's request reaches its home: it waits behind what waits for its line there, and behind the earlier requests of its port. -/
def World.hostAsk (w : World) (op : Nat) (m : UrkPkt) : World :=
  let h : HomeWait := ⟨lineOf m.addr, .host op m, none, none⟩
  if (w.lineBusy h.line && op != 5 && op != 6) || (m.srcid == 0 && w.portWaits m.port && !w.crosses op m) then w.queueHome h
  else match w.homeTry h with
    | (none, w) => if op = 5 ∨ op = 6 then w.pumpHome else w
    | (some l, w) => w.queueHome { h with line := l }

/-- A packet arrives on a port that is up; its bytes count. -/
def World.urkRx (w : World) (op : Nat) (m : UrkPkt) (f : World → World) : World :=
  if m.port < 4 ∧ w.portUp m.port then f (w.count (rk (urkPage m.port) 0x108) 63 0 (urkBytes op m)) else w

/-- A request to the memory of a host, or a stream access to the register range, is not performed (R358). -/
def World.hostReq (w : World) (op : Nat) (m : UrkPkt) : World :=
  if hostBase ≤ m.addr || (decide (8 ≤ op) && w.place m.addr == .page) then w.reply 0x22 m [] false false else w.hostAsk op m

def execEvict (m : UrkPkt) (s : State) : Host.Outcome State Fault Refusal :=
  s.run fun w => w.urkRx 6 m fun w => w.hostReq 6 m

def execForeignWr (m : UrkPkt) (s : State) : Host.Outcome State Fault Refusal :=
  s.run fun w => w.urkRx 7 m fun w =>
    let w := w.count (rk (urkPage m.port) 0x100) 63 32 1
    if hostBase ≤ m.addr || w.place m.addr == .page then w
    else (w.upd fun d => { d with urk := { d.urk with
      foreign := d.urk.foreign ++ [⟨m.port, m.srcid, m.addr, m.data, m.poison⟩] } }).foreignDrift

def execStreamRd (m : UrkPkt) (s : State) : Host.Outcome State Fault Refusal :=
  s.run fun w => w.urkRx 8 m fun w => w.hostReq 8 m

def execFlushRd (m : UrkPkt) (s : State) : Host.Outcome State Fault Refusal :=
  s.run fun w => w.urkRx 9 m fun w => w.hostReq 9 m

/-- The WBs and EVICTs of a port for a line that wait for their turn. -/
def World.crossing (w : World) (l p : Nat) : List HomeWait :=
  w.dev.urk.home.filter fun h => match h.req with
    | .host op m => (op == 5 || op == 6) && lineOf m.addr == l && m.port == p
    | _ => false

/-- A host answers a snoop (R354): modified data is written at the home; what waits there proceeds. A WB that crossed the snoop is
ordered first: while the snapshot rule holds it the line is not free (R378). -/
def World.snoopAnswer (w : World) (m : UrkPkt) : World :=
  let l := lineOf m.addr
  match w.dev.urk.snoops.find? fun s => s.line == l && s.port == m.port && !s.acked with
  | none => w
  | some s =>
    let w := (w.crossing l m.port).foldl (fun w h => ((w.modHome fun q => q.erase h).homeTry h).2) w
    let held := w.dev.snp.stalled.any fun x => match x.cmd with
      | .wb k => lineOf k.addr == l && k.port == m.port
      | _ => false
    if held && m.data.isEmpty then w.upd fun d => { d with urk := { d.urk with
        snoops := updFirst (fun x => x == s) (fun x => { x with acked := true }) d.urk.snoops } }
    else
      let w := w.upd fun d => { d with urk := { d.urk with snoops := d.urk.snoops.erase s } }
      let w := if m.data.isEmpty then w else
        let w := ((w.touch l 128 true).snapBefore l).put l m.data
        if m.poison then w.markPoison l else w
      (w.modDir l fun e => if s.share then { e with modified := false } else { e with ports := e.ports.erase m.port }).pumpHome

def execSnpAck (m : UrkPkt) (s : State) : Host.Outcome State Fault Refusal :=
  s.run fun w => w.urkRx 0x23 m fun w => w.snoopAnswer m

end Sys2Proof.Machine
end

