-- ==== Sys2Proof/Machine/Snap.lean ====
section
/-! DEFINITION. Snapshots: the set, cuts, capture and the write stall (R374 to R379), halts (R380 to R383), ember copies (R384 to
R386), recovery (R387), checkpoints (R389 to R394). -/

namespace Sys2Proof.Machine

def snpSts : Nat := rk 2 0x0F8

def World.modSnap (w : World) (f : Snap → Snap) : World := w.upd fun d => { d with snp := f d.snp }
/-- SNP_CTL.JOB, EVERY and LEAD (R395). -/
def World.snpJob (w : World) : Nat := w.rf (rk 2 0x080) 15 10
def World.every (w : World) : Nat := max 1 (w.rf (rk 2 0x080) 31 16)
def World.lead (w : World) : Nat := max 1 (w.rf (rk 2 0x080) 39 32)
/-- The common copy's slot and step, when one exists (R386). -/
def World.common (w : World) : Option (Nat × Nat) :=
  if bit (w.reg snpSts) 5 then some (w.rf snpSts 6 6, w.rf snpSts 63 32) else none

/-- An operation ends with a result. -/
def World.snpEnd (w : World) (result : Nat) : World := (w.setRf snpSts 11 8 result).modReg snpSts fun v => setBit v 0 true
def World.snpBusy (w : World) : World := w.modReg snpSts fun v => setBit v 0 false

/-- EV_SNAP_DONE (R444). -/
def World.snapEvent (w : World) (result op dev step : Nat) : World :=
  w.event 2 0x11 0 (detail (some w.snpJob) (result * 2 ^ 8 + op * 2 ^ 12 + dev * 2 ^ 16)) (BitVec.ofNat 64 step)

/-- Send DONE(c) to the domain (R384). -/
def World.sendDone (w : World) (c result : Nat) : World :=
  let w := (w.setRf snpSts 11 8 result).snapEvent result 0 w.devId c
  (w.fabricCast (some w.snpJob) (w.rf (rk 2 0x088) 27 16) (.emberDone ⟨c, w.devId, result⟩)).2

/-- Whether DONE messages of a step, with a result of OK when `ok`, are held from every device (R384, R386). -/
def World.donesOf (w : World) (c : Nat) (ok : Bool) : Bool :=
  decide (w.rf (rk 2 0x088) 44 32 + 1 ≤ (w.dev.snp.dones.filter fun m => m.1 == c && (!ok || m.2.2 == 0)).length)

/-! ### The set (R374) -/

def extOf (a b : U64) : Extent := ⟨fld a 47 0, fld b 31 0, bit b 32, bit b 33⟩
def extWords (e : Extent) : List U64 :=
  [BitVec.ofNat 64 e.pa, BitVec.ofNat 64 (e.ngran + e.ember.toNat * 2 ^ 32 + e.ckpt.toNat * 2 ^ 33)]
/-- Whether two ranges meet. -/
def rangesMeet (a : Nat × Nat) (b : Nat × Nat) : Bool := decide (a.1 < b.1 + b.2 && b.1 < a.1 + a.2) && a.2 != 0 && b.2 != 0

/-- Whether [a, a + n) lies wholly in the mapped SLM scratchpad window. -/
def World.slmSpan (w : World) (a n : Nat) : Bool :=
  decide (slmBase ≤ a) && decide (a + n ≤ slmEnd) &&
  (List.range 4).all fun i => !rangesMeet (a, n) (slmBase + i * 0x8000000 + w.slmK i * 0x1000000, 0x8000000 - w.slmK i * 0x1000000)

/-- An extent that a set may hold by itself. -/
def World.extentOk (w : World) (e : Extent) : Bool :=
  e.pa % 0x10000 == 0 && e.ngran != 0 && (e.ember || e.ckpt) &&
  (w.inHbm e.pa (e.ngran * 0x10000) || w.slmSpan e.pa (e.ngran * 0x10000))

/-- The bitmap, stage, digest, keep and receive areas that a set uses. -/
def World.snapAreas (w : World) (es : List Extent) : List (Nat × Nat) :=
  let page := fun off => w.rf (rk 2 off) 47 12 * 4096
  let em := granTotal (es.filter (·.ember))
  let slot := fun off n => (w.rf (rk 2 off) 47 16 * 0x10000, n)
  let keep := if em = 0 then 0 else 0x10000 * (1 + em)
  let rx := w.rf (rk 2 0x0D0) 31 0 * 0x10000
  [(page 0x098, ceilDiv (granTotal es) 8), slot 0x0A0 (w.rf (rk 2 0x0A0) 7 0 * 0x10000),
    (page 0x0A8, 32 * granTotal (es.filter (·.ckpt))), slot 0x0B0 keep, slot 0x0B8 keep, slot 0x0C0 rx, slot 0x0C8 rx]

def extRange (e : Extent) : Nat × Nat := (e.pa, e.ngran * 0x10000)

/-- No two of the ranges meet. -/
def apart : List (Nat × Nat) → Bool
  | [] => true
  | r :: rs => rs.all (fun x => !rangesMeet r x) && apart rs

/-- LOAD_SET: the table is read and checked (R374). -/
def loadSetA : Act Nat := do
  let w := (← get).w
  let n := w.rf (rk 2 0x090) 11 0 + 1
  let (bs, ps) ← readP (w.rf (rk 2 0x090) 47 12 * 4096) (16 * n)
  if !ps.isEmpty then return 9
  let ws := (chunks 16 bs).map fun c => (leWord (c.take 8), leWord (c.drop 8))
  let es := ws.map fun p => extOf p.1 p.2
  let ok := ws.all (fun p => zeroBits p.1 [(63, 48)] && zeroBits p.2 [(63, 34)]) && es.all w.extentOk &&
    decide (granTotal es ≤ 16777216) && apart (es.map extRange) &&
    es.all fun e => (w.snapAreas es).all fun a => !rangesMeet (extRange e) a
  if ok then
    actW fun w => w.modSnap fun s => { s with set := es }
    return 0
  else return 8

/-- Run an operation of SNP_CMD that reads memory; while a line must be asked for, the operation is in progress. -/
def World.snpOp (w : World) (writer : Nat) (v : U64) (a : Act Nat) : World :=
  w.opRun (mantel 2) snpSts writer 2 0x0F0 v a fun r w => w.snpEnd r

/-! ### Cuts (R375) -/

/-- Whether a job is quiet (R375): nothing of it straddles the boundary that fell at GTIME b. -/
def World.quiet (w : World) (j b : Nat) : Bool :=
  let gs := w.groupsOf j
  gs.all (fun g => g.slip == 0 && g.members.all (fun m => m.queue.all fun q => q.tick == w.tickNow)) &&
  w.dev.rings.all (fun r => r.entries.all fun e => !(e.waiting && jobOf e.desc == j && decide (e.tStart < b))) &&
  gs.all (fun g => (w.mbqOf g.num).isEmpty && !w.dev.tik.mbwait.any fun e => e.1 == g.num) &&
  w.dev.chm.arms.all (fun a => a.job != j) &&
  w.dev.chn.sflows.all (fun f => f.job != j || f.since.isNone) &&
  w.dev.chn.rflows.all (fun f => f.job != j || (f.ash.isEmpty && f.tail == f.head)) &&
  w.dev.stk.rts.all (fun a => a.job != j || a.pass.isNone) &&
  w.dev.stk.kvs.all (fun a => a.job != j || !a.busy) &&
  w.dev.urk.dir.all fun e => !e.modified || (granNumber w.dev.snp.set e.line).isNone

/-- The ember header of a slot (R385). -/
def World.emberHeader (w : World) (r : SnapRun) : List Byte :=
  leBytes 8 (1 + w.devId * 2 + r.job * 2 ^ 14 + r.step * 2 ^ 32) ++ leBytes 8 r.tick ++
  leBytes 8 (granTotal (w.dev.snp.set.filter (·.ember))) ++ List.replicate (0x10000 - 24) 0

/-- First address of a keep slot (R385). -/
def World.keepAt (w : World) (slot : Nat) : Nat := w.rf (rk 2 (0x0B0 + 8 * slot)) 47 16 * 0x10000

/-- Write a slot's header, here and at the partner (R385). -/
def World.headers (w : World) (slot : Nat) (bs : List Byte) : World :=
  (w.engineWrite (w.keepAt slot) bs []).emberWrite (.emberData slot 0 [] bs)

/-- SNP_CHAIN as 32 bytes. -/
def World.chain (w : World) : List Byte := (List.range 4).flatMap fun i => wordBytes (w.reg (rk 2 (0x128 + 8 * i)))

/-- Step 1 of a checkpoint (R391): the slot's record becomes zero, and a read of it is sent. -/
def World.ckptStart (w : World) (r : SnapRun) : World :=
  let a := w.sinkAt r.kslot
  let es := w.dev.snp.set.filter (·.ckpt)
  if !w.portUp ((a - hostBase) / 0x200000000000) || decide (a < hostBase) ||
      decide (w.rf (rk 2 0x0E8) 31 0 < 1 + ceilDiv (16 * es.length) 0x10000 + granTotal es) then
    w.sinkFails
  else
    w.sinkWrite a (List.replicate 256 0)

/-- An 8-byte RD_UC of the slot's commit record (R391), behind the writes that wait for a tag, once. -/
def World.recordRead (w : World) (r : SnapRun) : World :=
  let a := w.sinkAt r.kslot
  let p := (a - hostBase) / 0x200000000000
  if w.tagsFull p || w.dev.urk.reqs.any (fun q => q.addr == a && q.op == 3) ||
      w.dev.urk.home.any (fun h => match h.req with | .sink _ _ => true | _ => false) then w
  else
    let (t, w) := w.newTag p
    let w := w.sendUrk 3 ⟨p, 0, t, false, false, 8, a % 2 ^ 45, 0, []⟩
    w.addReq ⟨p, t, 3, a, 8, none, none, false⟩

/-- Begin a snapshot (R377, R385, R391): the polarity is inverted; the slots' headers and records are made invalid. -/
def World.beginSnap (w : World) (ember ckpt halt cmd : Bool) (step tick bnd : Nat) : World :=
  let p := 1 - w.rf snpSts 2 2
  let w := ((w.setRf snpSts 2 2 p).setRf snpSts 1 1 1).setReg (rk 2 0x100) (BitVec.ofNat 64 (granTotal w.dev.snp.set * 2 ^ 32))
  let slot := match w.common with | some c => 1 - c.1 | none => 0
  let seq := (w.rf (rk 2 0x148) 63 0 + 1) % 2 ^ 64
  let r : SnapRun := {
    job := w.snpJob, ember := ember, hdr := false, ckpt := ckpt, cmd := cmd, eslot := slot, seq := seq, kslot := seq % 2
    step := step, tick := tick, bnd := bnd, halt := halt, captured := [], promoted := [], digests := [], staged := []
    phase := .firstRead, prev := w.chain, bad := none }
  let w := w.modSnap fun s => { s with
    run := some r, copies := if ember then s.copies.filter fun c => c.1 ≠ slot else s.copies }
  let w := if ember then (w.setRf (rk 2 0x150) 31 0 step).headers slot (List.replicate 8 0) else w
  if !ckpt then w
  else
    let w := (w.setReg (rk 2 0x148) (BitVec.ofNat 64 seq)).ckptStart r
    if w.dev.snp.run.any fun s => s.bad.isSome then w else w.recordRead r

/-! ### The end of a snapshot -/

/-- The host's request that a stalled command makes at its home, before those that wait behind it. -/
def stalledReq : Instr → Option HomeWait
  | .wb m => some ⟨lineOf m.addr, .host 5 m, none, none⟩
  | .rdOwn m => some ⟨lineOf m.addr, .host 2 m, none, none⟩
  | .wrUc m => some ⟨lineOf m.addr, .host 4 m, none, none⟩
  | _ => none

/-- Perform a write that was stalled (R378); a host's request goes to place k of the home queue. Answers the place of the next. -/
def World.perform (w : World) (k : Nat) (c : Instr) : Nat × World :=
  match c, stalledReq c with
  | .wr p, _ => (k, w.netStore p)
  | .atomic p, _ => (k, w.netModify p)
  | _, some h => (w.modHome fun q => q.insertIdx k h).pumpOne k
  | _, none => (k, w)

/-- Let stalled writers proceed, in order of arrival. -/
def World.unstall (w : World) (p : Stalled → Bool) : World :=
  let go := w.dev.snp.stalled.filter p
  let wait := go.foldl (fun m s => max m (w.dev.gtime - s.since)) (w.rf (rk 2 0x108) 63 32)
  let w := if go.isEmpty then w else w.setRf (rk 2 0x108) 63 32 (min wait 0xFFFFFFFF)
  let w := w.modSnap fun s => { s with stalled := s.stalled.filter fun x => !p x }
  ((go.foldl (fun (x : Nat × World) s => x.2.perform x.1 s.cmd) (0, w)).2).pumpHome

/-- Stalled writers whose granule has been captured proceed, whichever write had it captured. -/
def World.unstallDone (w : World) : World :=
  match w.dev.snp.run with
  | some r => w.unstall fun s => r.captured.contains s.gran
  | none => w

/-- A snapshot that serves nothing more is no longer active. -/
def World.settleSnap (w : World) : World :=
  match w.dev.snp.run with
  | some r => if r.ember || r.ckpt then w else ((w.modSnap fun s => { s with run := none }).setRf snpSts 1 1 0).unstall fun _ => true
  | none => w

/-- The bitmap with every bit of the set at the polarity (R379). -/
def World.fillBits (w : World) (r : SnapRun) : World :=
  let n := granTotal w.dev.snp.set
  let bm := w.rf (rk 2 0x098) 47 12 * 4096
  if n ≤ r.captured.length then w
  else w.engineWrite bm ((List.range (ceilDiv n 8)).map fun k =>
    bitmapByte (fun _ => true) n (w.rf snpSts 2 2) (w.byte (bm + k)).toNat k) []

/-- Whether the engine writes an area: HBM or the SLM scratchpad. -/
def World.inMemory (w : World) (a : Nat) : Bool := match w.place a with | .hbm | .slm _ => true | _ => false

/-- The first area of a snapshot that no memory backs (R34). -/
def World.noArea (w : World) (r : SnapRun) : Option Nat :=
  ([w.rf (rk 2 0x098) 47 12 * 4096] ++ (if r.ember then [w.keepAt r.eslot] else []) ++
    (if r.ckpt then [w.rf (rk 2 0x0A8) 47 12 * 4096] else [])).find? fun a => !w.inMemory a

/-- Abandon the active snapshot with a result (R379). -/
def World.snapAbandon (w : World) (result : Nat) : World :=
  match w.dev.snp.run with
  | none => w
  | some r =>
    let w := match (if result = 3 then w.noArea r else none) with
      | some a => w.unmapped { mantel 2 with job := some r.job } a
      | none => w
    let w := (w.fillBits r).setRf snpSts 1 1 0
    let w := w.modSnap fun s => { s with run := none }
    let w := w.upd fun d => { d with urk := { d.urk with got := d.urk.got.filter fun h => h.addr ≠ w.sinkAt r.kslot } }
    let w := w.setRf snpSts 11 8 result
    let dst := w.rf (rk 2 0x088) 12 0
    let w := if result = 3 && r.ember && dst != w.devId && (w.outPort dst).isNone then w.routeDrop (some r.job) dst 0 else w
    let w := if r.ckpt then (if r.cmd then w.snpEnd result else w).snapEvent result 2 w.devId r.step else w
    let w := if r.ember then w.sendDone r.step result else w
    w.unstall fun _ => true

/-! ### Checkpoints (R390 to R393) -/

/-- The commit record, and its CHAIN (R392, R393). -/
def World.commitRecord (w : World) (r : SnapRun) : List Byte × List Byte :=
  let es := w.dev.snp.set.filter (·.ckpt)
  let n := granTotal es
  let head := leBytes 4 0x5A434B31 ++ leBytes 2 1 ++ leBytes 2 r.kslot ++
    leBytes 8 (w.devId + r.job * 2 ^ 13 + r.halt.toNat * 2 ^ 19) ++ leBytes 8 r.step ++ leBytes 8 r.seq ++ leBytes 8 r.tick ++
    leBytes 8 r.bnd ++ leBytes 8 es.length ++ leBytes 8 n
  let data := sm3 ((List.range n).flatMap fun i => (r.digests.lookup i).getD [])
  let chain := sm3 (r.prev ++ data ++ head)
  (head ++ data ++ r.prev ++ chain ++ List.replicate 96 0, chain)

/-- Whether every granule of the set has been captured. -/
def World.allCaptured (w : World) (r : SnapRun) : Bool := decide (granTotal w.dev.snp.set ≤ r.captured.length)

/-- The read that was sent has returned: `some poisoned`. -/
def World.recordGot (w : World) (r : SnapRun) : Option Bool :=
  (w.dev.urk.got.find? fun h => h.addr == w.sinkAt r.kslot).map HostData.poison
def World.dropGot (w : World) (r : SnapRun) : World := w.takeGot (w.sinkAt r.kslot)

/-- The checkpoint is committed (R391 step 5). -/
def World.ckptEnd (w : World) (r : SnapRun) : World :=
  let chain := (w.commitRecord r).2
  let w := (List.range 4).foldl (fun w i => w.setReg (rk 2 (0x128 + 8 * i)) (leWord ((chain.drop (8 * i)).take 8))) w
  let w := w.setRf snpSts 11 8 0
  let w := (if r.cmd then w.snpEnd 0 else w).snapEvent 0 2 w.devId r.step
  (w.setRun fun s => { s with ckpt := false }).settleSnap

/-- The steps of a checkpoint that wait for the host (R391): after the first read the directory is written, and what was staged; once
all is captured and acknowledged the flush read is sent; once the record is acknowledged the checkpoint ends. -/
def World.ckptStep (w : World) : World :=
  match w.dev.snp.run with
  | none => w
  | some r =>
    if !r.ckpt || r.bad.isSome then w
    else match r.phase with
      | .firstRead => match w.recordGot r with
        | none => w.recordRead r
        | some true => w.sinkFails
        | some false =>
          let dir := (w.dev.snp.set.filter (·.ckpt)).flatMap fun e => (extWords e).flatMap wordBytes
          let w := ((w.dropGot r).setRun fun s => { s with phase := .writing, staged := [] }).sinkWrite (w.sinkAt r.kslot + 0x10000) dir
          r.staged.foldl (fun w x => w.sinkWrite (w.sinkData r.kslot + x.1 * 0x10000) x.2) w
      | .writing =>
        if !w.sinkBusy && w.allCaptured r then (w.recordRead r).setRun fun s => { s with phase := .flush } else w
      | .flush => if (w.recordGot r).isNone then w.recordRead r else w
      | .commit => if !w.sinkBusy then w.ckptEnd r else w

/-- What the snapshot engine does next: a failure abandons the snapshot; the checkpoint goes on; the ember headers become valid once
every granule is captured and visible (R379, R385, R391). -/
def World.snapAdvance (w : World) : World :=
  let w := w.ckptStep.ckptStep
  let w := match w.dev.snp.run with
    | some r => if r.ember && !r.hdr && r.bad.isNone && w.allCaptured r &&
          w.rangeVisible (w.keepAt r.eslot) (0x10000 * (1 + granTotal (w.dev.snp.set.filter (·.ember)))) then
        (w.setRun fun s => { s with hdr := true }).headers r.eslot (w.emberHeader r) else w
    | none => w
  match w.dev.snp.run with
  | some r => match r.bad with
    | some c => w.snapAbandon c
    | none => w
  | none => w

/-- The flush read has returned: the commit record is written (R391 step 4). -/
def World.flushReturn (w : World) : World :=
  match w.dev.snp.run with
  | none => w
  | some r =>
    if !r.ckpt || r.phase != .flush then w
    else match w.recordGot r with
      | none => w
      | some true => (w.dropGot r).snapAbandon 3
      | some false =>
        (((w.dropGot r).setRun fun s => { s with phase := .commit }).sinkWrite (w.sinkAt r.kslot) (w.commitRecord r).1).snapAdvance

def execCkptFlushReturn (s : State) : Host.Outcome State Fault Refusal := s.run World.flushReturn

/-! ### Capture (R377 to R379) -/

/-- The granule that the engine captures next: the oldest promoted one, else the first in set order. -/
def World.nextGranule (w : World) (r : SnapRun) : Option Nat :=
  match r.promoted.find? fun i => !r.captured.contains i with
  | some i => some i
  | none => (List.range (granTotal w.dev.snp.set)).find? fun i => !r.captured.contains i

/-- A granule read completes: its bit is set and its stalled writers proceed. -/
def World.captureNext (w : World) : World :=
  match w.dev.snp.run with
  | none => w
  | some r => match w.nextGranule r with
    | none => w.unstallDone.snapAdvance
    | some i => (w.capture i).unstallDone.snapAdvance

def execGranuleCapture (s : State) : Host.Outcome State Fault Refusal := s.run World.captureNext

/-- The longest stalled write has waited STALLMAX cycles (R379). -/
def World.stallLimit (w : World) : World :=
  match w.dev.snp.stalled, w.dev.snp.run with
  | x :: _, some _ => (w.at (x.since + w.rf (rk 2 0x110) 31 0)).snapAbandon 2
  | _, _ => w

def execSnapshotStallLimit (s : State) : Host.Outcome State Fault Refusal := s.run World.stallLimit

/-! ### Running cuts and ember copies (R375, R384) -/

/-- The step boundary that has just fallen, in this cycle: a waiting checkpoint and an eligible ember copy share one cut. -/
def World.boundaryCut (w : World) : World :=
  let j := w.snpJob
  match w.job j, w.dev.tik.bnd with
  | some x, some b =>
    if b ≠ w.dev.gtime || !w.dev.tik.stepped.contains j || x.step == x.step0 then w
    else
      let c := x.step
      let s := w.dev.snp
      let elig := bit (w.reg (rk 2 0x080)) 0 && c % w.every == 0 && s.elig.map Prod.snd != some b
      if !elig && !s.ckptWait then w
      else
        let prev := s.elig.map fun e => if 0 < stepDiff c e.1 then e.1 else (c + 2 ^ 32 - w.every) % 2 ^ 32
        let skip := s.run.isSome || (match prev with | some p => !w.donesOf p false | none => false)
        let em := elig && !skip
        let ck := s.ckptWait && s.run.isNone
        let w := if elig then w.modSnap fun s => { s with elig := some (c, b) } else w
        let w := if elig && skip then (w.count (rk 2 0x150) 63 32 1).sendDone c 7 else w
        if !em && !ck then w
        else
          let w := if ck then w.modSnap fun s => { s with ckptWait := false } else w
          if w.quiet j b then (w.beginSnap em ck false ck c w.tickNow b).snapAdvance
          else
            let w := if em then (w.count (rk 2 0x150) 63 32 1).sendDone c 1 else w
            if ck then w.snpEnd 1 else w
  | _, _ => w

def execRunningCut (s : State) : Host.Outcome State Fault Refusal := s.run World.boundaryCut

def execEmberCopy (s : State) : Host.Outcome State Fault Refusal := s.run World.boundaryCut

/-- A halt cut of the stopped job of SNP_CTL, and a checkpoint of it (R383, R375). -/
def World.haltCut (w : World) (cmd : Bool) : World :=
  match w.job w.snpJob with
  | none => w
  | some x =>
    if w.quiet x.num w.dev.gtime then (w.beginSnap false true true cmd x.step x.stopB.1 x.stopB.2).snapAdvance
    else if cmd then w.snpEnd 1 else w.setRf snpSts 11 8 1

/-- A stop completes; a checkpoint that waits for it is taken (R218, R383). -/
def World.stopEnd (w : World) (j : Nat) : World :=
  let was := (w.job j).any Job.stopEnding
  let w := w.stopDone j
  if !was || (w.job j).any Job.stopEnding || j ≠ w.snpJob then w
  else
    let s := w.dev.snp
    let due := s.ckptWait || (s.haltStop && bit (w.reg (rk 2 0x080)) 1)
    let w := w.modSnap fun s => { s with haltStop := false, ckptWait := false }
    if due && s.run.isNone then w.haltCut s.ckptWait else if s.ckptWait then w.snpEnd 6 else w

def execStopComplete (job : Nat) (s : State) : Host.Outcome State Fault Refusal := s.run fun w => w.stopEnd job

/-- Both slots are valid: the partner has acknowledged its header (R385, R384). -/
def World.emberComplete (w : World) : World :=
  match w.dev.snp.run with
  | none => w
  | some r =>
    if !r.ember || !r.hdr || !w.rangeVisible (w.keepAt r.eslot) 64 then w
    else
      let w := (w.setRun fun s => { s with ember := false }).modSnap fun s => { s with copies := (r.eslot, r.step) :: s.copies }
      (w.sendDone r.step 0).settleSnap

def execEmberCopyComplete (s : State) : Host.Outcome State Fault Refusal := s.run World.emberComplete

/-- The newest step that this device holds a copy of and every device has copied (R386). -/
def World.newCommon (w : World) : World :=
  let cs := w.dev.snp.copies.filter fun c => w.donesOf c.2 true
  let newer := fun (a b : Nat × Nat) => if 0 < stepDiff b.2 a.2 then b else a
  match cs with
  | [] => w
  | c :: rest =>
    let n := rest.foldl newer c
    match w.common with
    | some o => if 0 < stepDiff n.2 o.2 then ((w.setRf snpSts 6 6 n.1).setRf snpSts 63 32 n.2) else w
    | none => ((w.setRf snpSts 5 5 1).setRf snpSts 6 6 n.1).setRf snpSts 63 32 n.2

/-- A DONE message arrives (R384, R386). -/
def World.takeDone (w : World) (m : EmberMsg) : World :=
  let w := if m.dev = w.devId then w else w.snapEvent m.result 0 m.dev m.step
  (w.modSnap fun s => { s with
    dones := s.dones.filter (fun x => !(x.1 == m.step && x.2.1 == m.dev)) ++ [(m.step, m.dev, m.result)] }).newCommon

def execEmberDoneMsg (m : EmberMsg) (s : State) : Host.Outcome State Fault Refusal :=
  s.run fun w => w.onArrival (.emberDone m) fun w => w.takeDone m

/-- The partner's write to a receive slot (R385): one that passes the slot's size is refused, and one that no memory backs is not
performed (R34). Answers whether it was taken. -/
def World.emberLand (w : World) (slot off : Nat) (marks : List Nat) (data : List Byte) : Bool × World :=
  if w.rf (rk 2 0x0D0) 31 0 * 0x10000 < off + data.length then (false, w)
  else
    let a := w.rf (rk 2 (0x0C0 + 8 * (slot % 2))) 47 16 * 0x10000 + off
    if w.inMemory a && w.inMemory (a + data.length - 1) then (true, w.engineWrite a data (marks.map (a + ·)))
    else (false, w.unmapped (mantel 2) a)

/-! ### Recovery (R387) -/

/-- Copy a granule's bytes and poison marks. -/
def copyGranule (dst src : Nat) : Act Unit := do
  let (bs, ps) ← readP src 0x10000
  writeP dst bs
  modify fun r => { r with w := ps.foldl (fun w g => w.poisonAt r.ag (dst + (g - src))) r.w }

/-- The ember header in a slot: device, step and granules, when it is valid (R385). -/
def headerAt (a : Nat) : Act (Option (Nat × Nat × Nat)) := do
  let (bs, ps) ← readP a 24
  let w0 := leWord (bs.take 8)
  return if ps.isEmpty && bit w0 0 then some (fld w0 13 1, fld w0 63 32, fld (leWord (bs.drop 16)) 31 0) else none

/-- Addresses of the EMBER granules of the set, in set order. -/
def emberGranules (set : List Extent) : List Nat :=
  (set.filter (·.ember)).flatMap fun e => (List.range e.ngran).map fun i => e.pa + i * 0x10000

/-- ROLLBACK (R387). -/
def rollbackA : Act Nat := do
  let w := (← get).w
  match w.common with
  | none => return 5
  | some (slot, step) =>
    let a := w.rf (rk 2 (0x0B0 + 8 * slot)) 47 16 * 0x10000
    match ← headerAt a with
    | none => return 5
    | some (dev, c, _) =>
      if dev ≠ w.devId || c ≠ step then return 5
      (emberGranules w.dev.snp.set).zipIdx.forM fun g => copyGranule g.1 (a + 0x10000 * (1 + g.2))
      return 0

/-- Send a granule to a spare; whether it went. -/
def shipGranule (dev a i : Nat) : Act Bool := do
  let (bs, ps) ← readP a 0x10000
  actRun fun w => w.fabricSend none dev (.shipData i (ps.map (· - a)) bs)

/-- SHIP (R387): the granules, then the header. -/
def shipA (dev : Nat) : Act Nat := do
  let w := (← get).w
  match w.common with
  | none => return 5
  | some (_, step) =>
    let slot := fun k => w.rf (rk 2 (0x0C0 + 8 * k)) 47 16 * 0x10000
    let valid := fun (h : Option (Nat × Nat × Nat)) => match h with | some (_, c, _) => c == step | none => false
    let h0 ← headerAt (slot 0)
    let h1 ← if valid h0 then pure none else headerAt (slot 1)
    match (if valid h0 then h0.map fun h => (slot 0, h) else if valid h1 then h1.map fun h => (slot 1, h) else none) with
    | none => return 5
    | some (a, d, c, n) =>
      let ok ← (List.range n).foldlM (fun ok i => if ok then shipGranule dev (a + 0x10000 * (1 + i)) i else pure false) true
      if !ok then return 3
      let sent ← actRun fun w => w.fabricSend none dev (.shipHdr c d n)
      return if sent then 0 else 3

/-- A message of SHIP at a spare that runs RECV (R387). -/
def World.shipTake (w : World) (m : FabMsg) : World :=
  match w.dev.snp.recv, m with
  | some n, .shipData i marks data =>
    let w := (w.takeNet m).modSnap fun s => { s with recv := some (n + 1) }
    match (emberGranules w.dev.snp.set)[i]? with
    | none => w
    | some a => marks.foldl (fun w g => w.poisonAt (mantel 2) (a + g)) (w.store (mantel 2) a data)
  | some _, .shipHdr _ _ n =>
    let w := (w.takeNet m).modSnap fun s => { s with recv := none }
    w.snpEnd (if n = granTotal (w.dev.snp.set.filter (·.ember)) then 0 else 8)
  | _, _ => w

/-- What SHIP has sent so far is taken. -/
def World.pumpShip (w : World) : World := w.dev.net.foldl (fun w m => if w.arrives m then w.shipTake m else w) w

/-! ### RESTORE (R394) -/

/-- RESTORE: the record is checked, then every granule is copied to its address and the digests are compared. -/
def restoreA (slot : Nat) : Act Nat := do
  let w := (← get).w
  let a := w.sinkAt slot
  let (rec', ps) ← readP a 256
  if !ps.isEmpty then return 3
  let word := fun i => leWord ((rec'.drop (8 * i)).take 8)
  if fld (word 0) 31 0 ≠ 0x5A434B31 || fld (word 0) 47 32 ≠ 1 || fld (word 0) 55 48 ≠ slot then return 5
  let data := (rec'.drop 0x40).take 32
  let prev := (rec'.drop 0x60).take 32
  let chain := (rec'.drop 0x80).take 32
  if sm3 (prev ++ data ++ rec'.take 0x40) ≠ chain then return 4
  let n := fld (word 6) 31 0
  let (dir, ps) ← readP (a + 0x10000) (16 * n)
  if !ps.isEmpty then return 3
  let es := (chunks 16 dir).map fun c => extOf (leWord (c.take 8)) (leWord (c.drop 8))
  if !es.all w.extentOk || granTotal es ≠ (word 7).toNat then return 8
  let base := a + 0x10000 + ceilDiv (16 * n) 0x10000 * 0x10000
  let gs := es.flatMap fun e => (List.range e.ngran).map fun i => e.pa + i * 0x10000
  let got ← gs.zipIdx.mapM fun g => do
    let (bs, ps) ← readP (base + 0x10000 * g.2) 0x10000
    return (g.1, bs, ps.isEmpty)
  if !got.all fun g => g.2.2 then return 3
  got.forM fun g => writeP g.1 g.2.1
  if sm3 (got.flatMap fun g => sm3 g.2.1) ≠ data then return 4
  actW fun w => (List.range 4).foldl (fun w i => w.setReg (rk 2 (0x128 + 8 * i)) (leWord ((chain.drop (8 * i)).take 8)))
    (w.setReg (rk 2 0x148) (word 3))
  return 0

/-! ### SNP_CMD (R374 to R394) -/

/-- CHECKPOINT (R396): a stopped job's halt cut at once, else a running cut at the next step boundary. -/
def World.checkpoint (w : World) : World :=
  match w.job w.snpJob with
  | none => w.snpEnd 6
  | some x =>
    if w.dev.snp.run.isSome || x.aborted then w.snpEnd 6
    else if x.running || x.stopEnding then w.snpBusy.modSnap fun s => { s with ckptWait := true }
    else w.snpBusy.haltCut true

/-- A write of SNP_CMD. -/
def World.snpCmd (w : World) (writer : Nat) (v : U64) : World :=
  let free := (w.job w.snpJob).isNone
  match fld v 3 0 with
  | 1 => if w.dev.snp.run.isSome then w.snpEnd 6 else w.snpOp writer v loadSetA
  | 2 => w.checkpoint
  | 3 => if free then w.snpOp writer v rollbackA else w.snpEnd 6
  | 4 => if free then w.snpOp writer v (shipA (fld v 17 5)) else w.snpEnd 6
  | 5 => if free then (w.snpBusy.modSnap fun s => { s with recv := some 0 }).pumpShip else w.snpEnd 6
  | 6 => w.snpOp writer v (restoreA (fld v 4 4))
  | 7 => if w.dev.snp.ckptWait then (w.modSnap fun s => { s with ckptWait := false }).snpEnd 2 else w.snapAbandon 2
  | _ => w

/-- A write to SNP_CMD: held while an operation is in progress, but for ABANDON (R395). -/
def World.snpWrite (w : World) (writer : Nat) (v : U64) : World :=
  if fld v 3 0 = 7 then w.owned writer 2 0x0F0 v fun w => w.snpCmd writer v
  else w.command writer 2 0x0F0 v (w.opBusy snpSts) fun w => w.snpCmd writer v

def execLoadSet (port : Nat) (s : State) : Host.Outcome State Fault Refusal :=
  s.port port 2 0x0F0 1 fun w => w.snpWrite port 1
def execCheckpoint (port : Nat) (s : State) : Host.Outcome State Fault Refusal :=
  s.port port 2 0x0F0 2 fun w => w.snpWrite port 2
def execRollback (port : Nat) (s : State) : Host.Outcome State Fault Refusal :=
  s.port port 2 0x0F0 3 fun w => w.snpWrite port 3
def execShip (port dev : Nat) (s : State) : Host.Outcome State Fault Refusal :=
  s.port port 2 0x0F0 (BitVec.ofNat 64 (4 + dev % 8192 * 2 ^ 5)) fun w => w.snpWrite port (BitVec.ofNat 64 (4 + dev % 8192 * 2 ^ 5))
def execRecv (port : Nat) (s : State) : Host.Outcome State Fault Refusal :=
  s.port port 2 0x0F0 5 fun w => w.snpWrite port 5
def execRestore (port slot : Nat) (s : State) : Host.Outcome State Fault Refusal :=
  s.port port 2 0x0F0 (BitVec.ofNat 64 (6 + slot % 2 * 2 ^ 4)) fun w => w.snpWrite port (BitVec.ofNat 64 (6 + slot % 2 * 2 ^ 4))
def execAbandon (port : Nat) (s : State) : Host.Outcome State Fault Refusal :=
  s.port port 2 0x0F0 7 fun w => w.snpWrite port 7

/-! ### Halts (R380 to R382) -/

/-- EV_NOTICE (R380, R444). -/
def World.noticeEvent (w : World) (src h dev : Nat) : World :=
  w.event 2 0x10 0 (BitVec.ofNat 64 (src * 2 ^ 8 + dev * 2 ^ 10)) (BitVec.ofNat 64 h)

/-- A halt boundary is set: a new one, or one that replaces a later one (R381). Answers whether it was. -/
def World.setHalt (w : World) (h : Nat) : Bool × World :=
  let takes := match w.dev.snp.halt with | some o => decide (h < o) | none => true
  if takes && !w.tickBegun h then
    (true, ((w.modSnap fun s => { s with halt := some h }).setRf snpSts 3 3 1).setReg (rk 2 0x120) (BitVec.ofNat 64 h))
  else (false, w)

/-- A notice of this device, counted from a tick (R380). -/
def World.notice (w : World) (src tick : Nat) : World :=
  let h := (tick + w.lead) % 2 ^ 48
  let (took, w) := (w.noticeEvent src h w.devId).setHalt h
  let cast := fun (w : World) => (w.fabricCast none (w.rf (rk 2 0x088) 27 16) (.halt h w.devId)).2
  if took then cast w
  else if w.dev.snp.halt.isNone then (cast (w.setReg (rk 2 0x120) (BitVec.ofNat 64 h))).haltStops w.dev.tik.stepped
  else w

/-- The tick that a cycle no later than this one belongs to: a boundary's own cycle lies in the tick that begins there (R196, R427). -/
def World.tickOf (w : World) (t : Nat) : Nat :=
  match w.dev.tik.bnd with
  | some b => if b ≤ t then w.tickNow else (w.tickNow + 2 ^ 48 - ceilDiv (b - t) (max 1 w.period)) % 2 ^ 48
  | none => w.tickNow

/-- A falling edge of NOTICE_N sampled in cycle t; from the cycle on in which FREEZE_N's edge was sampled it is not acted on
(R427, R428). -/
def execNoticeN (t : Nat) (s : State) : Host.Outcome State Fault Refusal :=
  s.run fun w =>
    if bit (w.reg (rk 2 0x080)) 2 && w.dev.pwr.freezeAt.all fun f => decide (t + 48 < f) then
      (w.at t).notice 0 (w.tickOf t)
    else w

/-- A write of SNP_NOTICE (R380). -/
def World.noticeWrite (w : World) (writer : Nat) (v : U64) : World :=
  w.owned writer 2 0x118 v fun w => if bit v 0 then w.notice 1 w.tickNow else w

def execSnpNotice (port : Nat) (s : State) : Host.Outcome State Fault Refusal := s.port port 2 0x118 1 fun w => w.noticeWrite port 1

/-- A halt message from another device (R380, R382). -/
def World.haltTake (w : World) (tick dev : Nat) : World :=
  if dev = w.devId then w
  else
    let w := w.noticeEvent 2 tick dev
    if w.tickBegun tick then
      let w := w.setRf snpSts 4 4 1
      if w.dev.snp.halt.isSome then w
      else (w.setReg (rk 2 0x120) (BitVec.ofNat 64 w.tickNow)).haltStops w.dev.tik.stepped
    else (w.setHalt tick).2

def execHaltMessage (tick dev : Nat) (s : State) : Host.Outcome State Fault Refusal :=
  s.run fun w => w.onArrival (.halt tick dev) fun w => w.haltTake tick dev

/-- The boundary that begins the halt tick falls (R381). -/
def execHaltBoundary (s : State) : Host.Outcome State Fault Refusal :=
  s.run fun w => match w.dev.snp.halt with
    | some h => if h ≤ w.tickNext then w.boundary else w
    | none => w

end Sys2Proof.Machine
end

