-- ==== Sys2Proof/Machine/Urrek.lean ====
section
/-! DEFINITION. The device's own requests to host memory (R356), responses on the on-package network (R405), Urrek ports, ownership
and masks (R350 to R362). -/

namespace Sys2Proof.Machine

/-! ### The device's own requests to host memory (R356) -/

/-- A host snoops a line that the stokers' caches may hold (R352, R355). -/
def World.hostSnoop (w : World) (m : UrkPkt) (share : Bool) : World :=
  let a := lineOf (hostBase + m.port * 0x200000000000 + m.addr % 2 ^ 45)
  let held := w.dev.urk.lines.find? fun x => x.addr == a
  let data := match held with | some x => if x.dirty then w.bytes a 128 else [] | none => []
  let keep := if share then updFirst (fun x => x.addr == a) (fun x => { x with own := false, dirty := false }) w.dev.urk.lines
    else w.dev.urk.lines.filter fun x => x.addr ≠ a
  let w := w.upd fun d => { d with urk := { d.urk with lines := keep } }
  w.reply 0x23 m data false false

def execSnpInv (m : UrkPkt) (s : State) : Host.Outcome State Fault Refusal :=
  s.run fun w => w.urkRx 0x10 m fun w => w.hostSnoop m false

def execSnpShare (m : UrkPkt) (s : State) : Host.Outcome State Fault Refusal :=
  s.run fun w => w.urkRx 0x11 m fun w => w.hostSnoop m true

/-- Take the request that a response answers. -/
def World.takeReq (w : World) (port tag : Nat) : Option (DevReq × World) :=
  (w.dev.urk.reqs.find? fun q => q.port == port && q.tag == tag).map fun q =>
    (q, w.upd fun d => { d with urk := { d.urk with reqs := d.urk.reqs.erase q } })

/-- Bytes of a window line wait for the access that asked for them. -/
def World.putGot (w : World) (a n : Nat) (poison : Bool) : World :=
  w.upd fun d => { d with urk := { d.urk with got := d.urk.got.filter (fun h => h.addr ≠ a) ++ [⟨a, n, poison, 0⟩] } }

/-- DATA for a device request: a stoker's line is cached, unless it must not be; other bytes wait for their access. -/
def World.hostData (w : World) (m : UrkPkt) : World :=
  match w.takeReq m.port m.tag with
  | none => w
  | some (q, w) =>
    let w := w.push (.bytes q.addr (m.data.take q.len))
    let w := if q.op ≠ 3 ∧ !m.nc ∧ !m.poison then w.upd fun d => { d with urk := { d.urk with
        lines := d.urk.lines.filter (fun x => x.addr ≠ q.addr) ++ [⟨q.addr, q.op == 2, false⟩] } }
      else w.putGot q.addr q.len m.poison
    w.pumpHome.snapAdvance

def execData (m : UrkPkt) (s : State) : Host.Outcome State Fault Refusal :=
  s.run fun w => w.urkRx 0x20 m fun w => w.hostData m

/-- An acknowledged write is ordered at the host; what waited for its tag or its visibility goes on. -/
def World.hostAck (w : World) (m : UrkPkt) : World :=
  match w.takeReq m.port m.tag with
  | none => w
  | some (_, w) => w.pumpHome.snapAdvance

def execAck (m : UrkPkt) (s : State) : Host.Outcome State Fault Refusal :=
  s.run fun w => w.urkRx 0x21 m fun w => w.hostAck m

/-- A request that was not performed, or whose port went down: a read brings poison; a write's command completes with POISON
(R34, R356). -/
def World.reqFailed (w : World) (q : DevReq) : World :=
  if q.op = 4 then
    let w := if q.sink then w.sinkFails else w
    match q.owner with
    | some (r, i) => w.modEntry r i fun e => if e.status = stOk then { e with status := stPoison } else e
    | none => w
  else w.putGot q.addr q.len true

def execErr (m : UrkPkt) (s : State) : Host.Outcome State Fault Refusal :=
  s.run fun w => w.urkRx 0x22 m fun w => match w.takeReq m.port m.tag with
    | none => w
    | some (q, w) => (w.reqFailed q).pumpHome.snapAdvance

/-! ### Responses on the on-package network (R405) -/

def execRdRsp (p : NetPkt) (s : State) : Host.Outcome State Fault Refusal :=
  s.run fun w => if p.typ = 0x10 then w.onArrival (.net p) fun w => (w.netRsp p).pumpHome else w

/-- A write acknowledgement; one that refuses an ember write fails the copy (R385, R379). -/
def execWrAck (p : NetPkt) (s : State) : Host.Outcome State Fault Refusal :=
  s.run fun w =>
    if p.typ = 0x11 then w.onArrival (.net p) fun w =>
      let w := (w.netRsp p).pumpHome
      if p.dst = 0x2031 ∧ p.status ≠ stOk ∧ w.dev.snp.run.any SnapRun.ember then w.snapAbandon 3 else w
    else w

/-! ### Ports (R350, R351, R355, R362) -/

/-- A port comes up once its eight lanes have trained and the adapter has answered (R351). -/
def World.urkUp (w : World) (p : Nat) : Bool × World :=
  let sts := w.reg (rk (urkPage p) 0x088)
  let may := bit (w.reg (rk (urkPage p) 0x080)) 0 &&
    (fld sts 1 0 == 1 || (fld sts 1 0 == 0 && !w.dev.urk.attached.contains p))
  if !may then (false, w)
  else
    let w := w.setReg (rk (urkPage p) 0x088) (setFld (setFld sts 1 0 2) 9 2 0xFF)
    let w := w.setLink (urkPage p) (some ⟨0, 0, [], 0, false⟩)
    (true, w.upd fun d => { d with urk := { d.urk with attached := insNat p d.urk.attached } })

def execUrkPortUp (p : Nat) (s : State) : Host.Outcome State Fault Refusal :=
  s.run fun w => if p < 4 then (w.urkUp p).2 else w

/-- Requests that a port had sent before it went down: a write back or a write that has come is still made, by its host's right; a read
has nobody to answer and leaves no trace in the directory (R355, R362). -/
def World.dropAsks (w : World) (p : Nat) : World :=
  let wbs := (w.dev.urk.home.filterMap fun h => match h.req with | .host 5 m => some m | _ => none) ++
    w.dev.snp.stalled.filterMap fun x => match x.cmd with | .wb m => some m | _ => none
  let w := (wbs.filter fun m => m.port == p).foldl World.writeBack w
  let gone := fun (op : Nat) (m : UrkPkt) => m.port == p && op != 4
  (w.modHome fun q => q.filter fun h => match h.req with
    | .host op m => !gone op m
    | .reg q _ _ _ ask => !(q == p && ask.any fun x => x.1 != 4)
    | _ => true).modSnap fun s => { s with stalled := s.stalled.filter fun x => match x.cmd with
    | .wb m => !gone 5 m
    | .rdOwn m => !gone 2 m
    | _ => true }

/-- What R362 and R355 lay down when a port goes down. -/
def World.urkDrop (w : World) (p : Nat) (snpTo : Bool) : World :=
  let w := w.dropAsks p
  let w := (w.setReg (rk (urkPage p) 0x088) (BitVec.ofNat 64 (snpTo.toNat * 2 ^ 10))).setLink (urkPage p) none
  let lost := w.dev.urk.dir.filter fun e => e.modified && e.ports.contains p
  let mine := w.dev.urk.reqs.filter fun q => q.port == p
  let w := w.upd fun d => { d with urk := { d.urk with
    dir := (d.urk.dir.map fun e => { e with ports := e.ports.filter (· ≠ p) }).filter fun e => !e.ports.isEmpty
    snoops := d.urk.snoops.filter fun s => s.port ≠ p
    reqs := d.urk.reqs.filter fun q => q.port ≠ p
    lines := d.urk.lines.filter fun x => (x.addr - hostBase) / 0x200000000000 ≠ p
    owner := if d.urk.owner = some p then none else d.urk.owner } }
  let w := lost.foldl (fun w e => w.markPoison e.line) w
  let w := mine.foldl (fun w q => w.reqFailed q) w
  w.pumpHome.snapAdvance

/-- A port fails: FAULT and EV_UE on its page (R350). -/
def World.urkFail (w : World) (p : Nat) (snpTo : Bool) : World :=
  let w := (w.setRf (rk (urkPage p) 0x088) 1 0 0).setFault (urkPage p)
  (w.evUe (urkPage p) 0x05 none 0 0).urkDrop p snpTo

def execUrkPortDown (p : Nat) (s : State) : Host.Outcome State Fault Refusal :=
  s.run fun w => if p < 4 && w.portUp p then w.urkFail p false else w

/-- A snoop answer is missing after SNPWAIT (R355). -/
def World.snoopTimeout (w : World) (p : Nat) : World :=
  match (w.dev.urk.snoops.filter fun s => s.port == p).map Snoop.deadline with
  | [] => w
  | t :: ts => if w.portUp p then (w.at (ts.foldl min t)).urkFail p true else w

def execSnoopTimeout (p : Nat) (s : State) : Host.Outcome State Fault Refusal :=
  s.run fun w => if p < 4 then w.snoopTimeout p else w

/-- Training ends with fewer than eight lanes (R351). -/
def execUrkTrainingFail (p lanes : Nat) (s : State) : Host.Outcome State Fault Refusal :=
  s.run fun w =>
    if p < 4 ∧ bit (w.reg (rk (urkPage p) 0x080)) 0 ∧ w.rf (rk (urkPage p) 0x088) 1 0 ≤ 1 ∧ lanes % 256 ≠ 0xFF then
      w.modReg (rk (urkPage p) 0x088) fun v => setFld (setFld v 1 0 3) 9 2 lanes
    else w

/-- A write of URK_CTL: clearing EN takes the port down, setting it again trains it (R350). -/
def World.urkCtlWrite (w : World) (writer p : Nat) (v : U64) : World :=
  w.owned writer (urkPage p) 0x080 v fun w =>
    let was := bit (w.reg (rk (urkPage p) 0x080)) 0
    let on := bit v 0
    let w := w.setReg (rk (urkPage p) 0x080) (BitVec.ofNat 64 on.toNat)
    if was && !on then (if w.portUp p then w.urkDrop p false else w.modReg (rk (urkPage p) 0x088) fun v => setFld v 9 0 0)
    else if !was && on then
      (w.modReg (rk (urkPage p) 0x018) fun v => setBit v 2 false).modReg (rk (urkPage p) 0x088) fun v => setFld v 9 0 1
    else w

def execUrkCtl (port p : Nat) (v : U64) (s : State) : Host.Outcome State Fault Refusal :=
  if p < 4 then s.port port (urkPage p) 0x080 v fun w => w.urkCtlWrite port p v else .next s

def execUrkLinkFrame (p seq : Nat) (good : Bool) (_bytes : Nat) (s : State) : Host.Outcome State Fault Refusal :=
  s.run fun w => if p < 4 then w.frameIn (urkPage p) (seq % 4096) good (.urkNak p) else w

def execUrkLinkNak (p seq : Nat) (s : State) : Host.Outcome State Fault Refusal :=
  s.run fun w =>
    if 4 ≤ p then w
    else if w.nakDowns (urkPage p) (seq % 4096) then w.urkFail p false
    else (w.nakIn (urkPage p) (seq % 4096)).2

/-- A packet with a reserved OP is discarded (R352). -/
def execUrkReservedOp (p op : Nat) (s : State) : Host.Outcome State Fault Refusal :=
  s.run fun w =>
    if p < 4 ∧ w.portUp p ∧ !([1, 2, 3, 4, 5, 6, 7, 8, 9, 0x10, 0x11, 0x20, 0x21, 0x22, 0x23].contains (op % 256)) then
      (w.count (rk (urkPage p) 0x108) 63 0 16).evUe (urkPage p) 0x0C none 0 0
    else w

/-! ### Ownership and masks (R359, R360) -/

/-- A write of URK_OWN, which any port may make (R359, R448). -/
def World.ownWrite (w : World) (writer : Nat) (v : U64) : World :=
  let set' := fun o => w.upd fun d => { d with urk := { d.urk with owner := o } }
  if 4 ≤ writer then w
  else if fld v 1 0 = 1 ∧ w.dev.urk.owner.isNone then set' (some writer)
  else if fld v 1 0 = 2 ∧ w.dev.urk.owner = some writer then set' none
  else w

def execClaim (port : Nat) (s : State) : Host.Outcome State Fault Refusal :=
  s.port port (urkPage port) 0x090 1 fun w => w.ownWrite port 1

def execRelease (port : Nat) (s : State) : Host.Outcome State Fault Refusal :=
  s.port port (urkPage port) 0x090 2 fun w => w.ownWrite port 2

/-- A mask write that breaks a rule of R360 is discarded and counted. -/
def World.maskDeny (w : World) (writer page off : Nat) : World :=
  if 4 ≤ writer then w
  else w.modReg (rk (urkPage writer) 0x0F8) fun x => setFld (setFld (countUp x 31 0 1) 47 32 page) 59 48 off

/-- A write of one word of a port's job or stove mask; `free` says whether a bit may change (R360). -/
def World.maskWrite (w : World) (writer p off : Nat) (v : U64) (free : Nat → Bool) : World :=
  w.owned writer (urkPage p) off v fun w =>
    let old := w.reg (rk (urkPage p) off)
    let others := ((List.range 4).filter (· ≠ p)).map fun q => w.reg (rk (urkPage q) off)
    let ok := (List.range 64).all fun i =>
      (bit old i == bit v i || free i) && (!bit v i || others.all fun o => !bit o i)
    if ok then w.setReg (rk (urkPage p) off) v else w.maskDeny writer (urkPage p) off

def World.jobsWrite (w : World) (writer p : Nat) (v : U64) : World :=
  w.maskWrite writer p 0x098 v fun j => (w.job j).isNone

def World.stovesWrite (w : World) (writer p k : Nat) (v : U64) : World :=
  w.maskWrite writer p (0x0A0 + 8 * k) v fun b => (List.range 4).all fun n => !bit (w.reg (rgk ⟨0x1000 + 64 * k + b, n⟩ 0)) 0

def execUrkJobs (port p : Nat) (v : U64) (s : State) : Host.Outcome State Fault Refusal :=
  if p < 4 then s.port port (urkPage p) 0x098 v fun w => w.jobsWrite port p v else .next s

def execUrkStoves (port p w' : Nat) (v : U64) (s : State) : Host.Outcome State Fault Refusal :=
  if p < 4 ∧ w' < 4 then s.port port (urkPage p) (0x0A0 + 8 * w') v fun w => w.stovesWrite port p w' v else .next s

end Sys2Proof.Machine
end

