-- ==== Sys2Proof/Machine/Sec.lean ====
section
/-! DEFINITION. The security block: bundles and what makes them valid (R397, R398), the measurement log (R399), quotes and the
operations of SEC_CMD (R400, R401, R413). -/

namespace Sys2Proof.Machine

def secBoot : Nat := rk 3 0x080
def secMeas (i : Nat) : Nat := rk 3 (0x088 + 8 * i)
def secConfig : Nat := rk 3 0x0B0
def secSts : Nat := rk 3 0x0C8

/-- The little-endian number in n bytes at an offset. -/
def leAt (bs : List Byte) (off n : Nat) : Nat := leNat ((bs.drop off).take n)
def bytesAt (bs : List Byte) (off n : Nat) : List Byte := (bs.drop off).take n

/-! ### Bundles (R397, R398) -/

/-- What the checks of a header find (codes 1 to 4 of R398), 0 for none. -/
def headerCode (sec : Sec) (kind : Nat) (h : List Byte) : Nat :=
  if leAt h 0 4 ≠ 0x5A424E44 || leAt h 4 2 ≠ kind || leAt h 6 2 ≠ 1 || decide (Config.bundleSpace kind < leAt h 0x0C 4) then 1
  else if sm3 (bytesAt h 0x30 64) ≠ sec.keyHash then 2
  else if !Config.sm2Verify (bytesAt h 0x30 64) (h.take 0xC0) (bytesAt h 0xC0 64) then 3
  else if leAt h 8 1 < (if kind = 1 then sec.fwMin else sec.cfgMin) then 4
  else 0

/-- The error code of a bundle; 0 when it is valid. -/
def bundleCode (sec : Sec) (kind : Nat) (b : Bundle) : Nat :=
  if b.readErr then 6
  else match headerCode sec kind b.header with
    | 0 => if sm3 (b.body.take (leAt b.header 0x0C 4)) ≠ bytesAt b.header 0x10 32 then 5 else 0
    | c => c

/-- The bundle of a KIND in a slot of the flash. -/
def Sec.bundle (sec : Sec) (slot kind : Nat) : Option Bundle :=
  (sec.flash.find? fun f => f.slot == slot && f.kind == kind).map FlashSlot.bundle

/-- The error code of a slot for a KIND; a slot with no bundle shows no MAGIC. -/
def Sec.slotCode (sec : Sec) (slot kind : Nat) : Nat :=
  match sec.bundle slot kind with
  | some b => bundleCode sec kind b
  | none => 1

def bundleSvn (b : Bundle) : Nat := leAt b.header 8 1

/-- The slot that boots for a KIND: the valid bundle of the higher SVN, slot A on a tie. -/
def Sec.pick (sec : Sec) (kind : Nat) : Option (Nat × Bundle) :=
  let ok := fun slot => if sec.slotCode slot kind = 0 then sec.bundle slot kind else none
  match ok 0, ok 1 with
  | some a, some b => if bundleSvn a < bundleSvn b then some (1, b) else some (0, a)
  | some a, none => some (0, a)
  | none, some b => some (1, b)
  | none, none => none

/-! ### The measurement log (R399) -/

/-- An entry of the log. -/
def logEntry (index kind svn : Nat) (object : List Byte) : List Byte :=
  leBytes 4 index ++ leBytes 2 kind ++ leBytes 2 svn ++ List.replicate 24 0 ++ sm3 object

/-- MEAS after an entry. -/
def extend (meas entry : List Byte) : List Byte := sm3 (meas ++ entry)

/-- MEAS of a log, from 32 zero bytes. -/
def measOf (log : List (List Byte)) : List Byte := log.foldl extend (List.replicate 32 0)

/-- Append an entry. -/
def Sec.measure (sec : Sec) (kind svn : Nat) (object : List Byte) : Sec :=
  let e := logEntry sec.log.length kind svn object
  { sec with log := sec.log ++ [e], meas := extend sec.meas e }

/-- The bytes that stand for the fuse state: serial number, sites ordered, minimums, key hash. -/
def Sec.fuses (sec : Sec) : List Byte :=
  wordBytes sec.serial ++ leBytes 8 sec.ordered ++ leBytes 8 sec.fwMin ++ leBytes 8 sec.cfgMin ++ sec.keyHash

/-! ### SEC_CMD (R413) -/

/-- Buffer of SEC_ARG. -/
def World.secArg (w : World) : Nat := w.rf (rk 3 0x0B8) 47 6 * 64

/-- Write an operation's result; what was read from poison is poisoned. -/
def secPut (a : Nat) (bs : List Byte) (poison : Bool) : Act Unit := do
  writeP a bs
  if poison then poisonP a bs.length

/-- Whether a guest site is up (R414). -/
def World.siteUp (w : World) (g : Nat) : Bool := w.rf (rk (8 + g) 0x080) 1 0 == 2

/-- The 128 bytes of a quote that are signed (R401). -/
def World.quoteBody (w : World) (sec : Sec) (nonce : List Byte) : List Byte :=
  let boot := w.reg secBoot
  leBytes 4 0x5A515431 ++ leBytes 2 1 ++ leBytes 2 0 ++ wordBytes sec.serial ++ leBytes 8 w.devId ++ leBytes 8 w.dev.gtime ++
  nonce ++ sec.meas ++ leBytes 4 sec.log.length ++ leBytes 1 (fld boot 15 8) ++ leBytes 1 (fld boot 23 16) ++
  leBytes 1 sec.fwMin ++
  leBytes 1 ((bit (w.reg secConfig) 2).toNat + (bit boot 2).toNat * 2 + (w.siteUp 0).toNat * 4 + (w.siteUp 1).toNat * 8 +
    (bit (w.reg (rk 0 0x080)) 1).toNat * 16) ++ List.replicate 24 0

/-- QUOTE (R401): bytes written. -/
def quoteA (sec : Sec) : Act Nat := do
  let w := (← get).w
  let (nonce, ps) ← readP w.secArg 32
  let body := w.quoteBody sec nonce
  let n ← actRun World.draw
  secPut (w.secArg + 0x40) (body ++ (List.range 64).map (Config.sm2Sign n body)) (!ps.isEmpty)
  return 192

/-- UPDATE (R413): the code of R398, and the flash after it. -/
def updateA (sec : Sec) : Act (Nat × Sec) := do
  let w := (← get).w
  let a := w.secArg
  let (h, ps) ← readP a 256
  if !ps.isEmpty then return (6, sec)
  let kind := if leAt h 4 2 = 2 then 2 else 1
  match headerCode sec kind h with
  | 0 =>
    let (body, ps) ← readP (a + 256) (leAt h 0x0C 4)
    let b : Bundle := ⟨h, body, false⟩
    let code := if ps.isEmpty then bundleCode sec kind b else 6
    let slot := 1 - fld (w.reg secBoot) (kind - 1) (kind - 1)
    if code ≠ 0 then return (code, sec)
    else return (0, { sec with flash := ⟨slot, kind, b⟩ :: sec.flash.filter fun f => !(f.slot == slot && f.kind == kind) })
  | c => return (c, sec)

/-- An operation of SEC_CMD: ERR, LEN and the security state after it. -/
def secA (sec : Sec) (op : Nat) : Act (Nat × Nat × Sec) := do
  let w := (← get).w
  match op with
  | 1 => return (0, ← quoteA sec, sec)
  | 2 =>
    secPut w.secArg Config.certificate false
    return (0, Config.certificate.length, sec)
  | 3 =>
    secPut w.secArg sec.log.flatten false
    return (0, 64 * sec.log.length, sec)
  | 4 =>
    let (code, sec) ← updateA sec
    return (code, 0, sec)
  | _ =>
    let boot := w.reg secBoot
    let sec := { sec with fwMin := max sec.fwMin (fld boot 15 8), cfgMin := max sec.cfgMin (fld boot 23 16) }
    actW fun w => w.modReg secBoot fun v => setFld (setFld v 31 24 sec.fwMin) 39 32 sec.cfgMin
    return (0, 0, sec)

/-- A write of SEC_CMD; while a line of its buffer must be asked for it is in progress. -/
def State.secWrite (s : State) (writer : Nat) (v : U64) : State :=
  let w := s.toWorld
  if !w.mayWrite writer 3 0x0C0 v then s.commit (w.deny writer 3 0x0C0)
  else if fld v 2 0 = 0 ∨ 5 < fld v 2 0 then s
  else if w.heldAt 3 0x0C0 then s.commit (w.hold writer 3 0x0C0 v)
  else match (secA s.sec (fld v 2 0)).run (Run.init w (mantel 3)) with
    | .ok ((err, len, sec), r) =>
      { s.commit (r.w.setReg secSts (BitVec.ofNat 64 (1 + err * 2 ^ 8 + len % 2 ^ 32 * 2 ^ 32))) with sec := sec }
    | .error x => s.commit (((w.ask (mantel 3) x).modReg secSts fun y => setBit y 0 false).upd fun d =>
        { d with held := ⟨rk 3 0x0C0, writer, 3, 0x0C0, v, some secSts⟩ :: d.held })

/-- A host's write of SEC_CMD on a running device. -/
def State.secPort (s : State) (port op : Nat) : Host.Outcome State Fault Refusal :=
  s.portState port 3 0x0C0 (BitVec.ofNat 64 op) fun s => s.secWrite port (BitVec.ofNat 64 op)

def execQuote (port : Nat) (s : State) : Host.Outcome State Fault Refusal := s.secPort port 1
def execCert (port : Nat) (s : State) : Host.Outcome State Fault Refusal := s.secPort port 2
def execLog (port : Nat) (s : State) : Host.Outcome State Fault Refusal := s.secPort port 3
def execUpdate (port : Nat) (s : State) : Host.Outcome State Fault Refusal := s.secPort port 4
def execCommitSvn (port : Nat) (s : State) : Host.Outcome State Fault Refusal := s.secPort port 5

end Sys2Proof.Machine
end

