-- ==== Sys2Proof/Machine/Guest.lean ====
section
/-! DEFINITION. Guest sites: link flits (R404), the guest port and its firewall (R406 to R410), isolation and reset (R411, R412). -/

namespace Sys2Proof.Machine

def gstPage (g : Nat) : Nat := 8 + g

def World.modGuest (w : World) (g : Nat) (f : Guest → Guest) : World :=
  w.upd fun d => { d with guests := updFirst (fun x => x.site == g) f d.guests }

/-! ### Isolation (R411) -/

/-- Device requests to a site complete with FW_DENIED. -/
def World.failGuestReqs (w : World) (g : Nat) : World :=
  let mine := w.dev.urk.reqs.filter fun q => q.port == 4 + g
  let w := w.upd fun d => { d with urk := { d.urk with reqs := d.urk.reqs.filter fun q => q.port ≠ 4 + g } }
  (mine.foldl (fun w q =>
    if q.op = 4 then match q.owner with
      | some (r, i) => w.modEntry r i fun e => if e.status = stOk then { e with status := stFwDenied } else e
      | none => w
    else w.upd fun d => { d with urk := { d.urk with
      got := d.urk.got.filter (fun h => h.addr ≠ q.addr) ++ [⟨q.addr, q.len, true, stFwDenied⟩] } }) w).pumpHome

/-- A site becomes isolated. -/
def World.isolate (w : World) (g : Nat) : World := (w.setRf (rk (gstPage g) 0x080) 2 2 1).failGuestReqs g

/-- Whether a strike count isolates the site. -/
def World.strikesOut (w : World) (g n : Nat) : Bool :=
  let lim := w.rf (rk (gstPage g) 0x090) 15 0
  lim != 0 && decide (lim ≤ n)

/-- A packet of a guest is denied: a strike, which may isolate the site (R410, R411). -/
def World.strike (w : World) (g : Nat) (p : NetPkt) (a : Nat) : World :=
  let n := min 0xFFFF (w.rf (rk (gstPage g) 0x098) 47 32 + 1)
  let out := w.strikesOut g n
  let w := (w.setRf (rk (gstPage g) 0x098) 47 32 n).fwDeny g 0 p.typ (some p.job) p.src a out
  if out then w.isolate g else w

/-! ### The firewall for guest packets (R407 to R410) -/

/-- Whether some window admits traffic by a right, in the packet's job when `jobs`. -/
def World.guestRight (w : World) (g right : Nat) (job : Option Nat) : Bool :=
  (List.range 16).any fun i =>
    let ctl := w.reg (rk (gstPage g) (0x110 + 32 * i))
    bit ctl 0 && !bit ctl 1 && bit ctl right &&
    (match job with | some j => bit (w.reg (rk (gstPage g) (0x118 + 32 * i))) j | none => true)

/-- The node that an address is reached at (R26, R341). -/
def World.nodeOf (w : World) (a : Nat) : Nat :=
  match w.place a with
  | .hbm | .slm _ => (0x10 + w.homeSlice a) * 256 + 8
  | .scratch s => s / 32 * 256 + s % 32
  | .guest g => 0x2038 + g
  | .host p | .lost p => 0x2028 + p
  | .page => engineNode ((a - regBase) / 0x1000) 0
  | .nowhere => 0x2036

/-- Bytes that a RD asks for; 0 units stand for one register word. -/
def rdBytes (p : NetPkt) : Nat := if fld p.a3 5 0 = 0 then 8 else fld p.a3 5 0 * 32

/-- Whether an access in the register range is one aligned word (R454). -/
def wordAccess (a n : Nat) : Bool := a % 8 == 0 && n == 8

/-- The guest port reissues a packet with its own node as SRC; the response will go to the guest (R406). -/
def World.reissue (w : World) (g : Nat) (p : NetPkt) : World :=
  let w := w.modGuest g fun x => { x with asked := x.asked ++ [(p.tag, p.src)] }
  let q := { p with dst := if p.dst = 0x2038 + g then w.nodeOf p.a1.toNat else p.dst, src := 0x2038 + g }
  if p.rmt && p.rdev != w.devId then (w.fabricSend (some p.job) p.rdev (.net q)).2 else w.sendNet (.net { q with rmt := false })

/-- A raw channel packet of a guest at the receiving side (R229, R230, R242): DATA goes where it is addressed in ring or landing
area; TAIL covers what was placed. A message that begins when the endpoint has another epoch, and every later one of the flow, is
refused as stale once its last packet has come. -/
def World.chnRaw (w : World) (p : NetPkt) : World :=
  match (w.rflow p.a2).bind fun f => ((w.rxOf f).or f.shut).map fun x => (f, x) with
  | none => w
  | some (f, x) =>
    let ag := mantel (chnPage (x.stove / 32))
    let a := p.a1.toNat
    let r0 := fld (x.word 0) 47 0
    let inRing := decide (r0 ≤ a) && decide (a + p.payload.length ≤ r0 + x.size)
    if p.typ = 0x34 then
      if f.shut.isNone && decide (f.tail ≤ a) && decide (a ≤ f.head + x.size) then
        w.modRflow f.ctx fun f => { f with tail := a, due := true } else w
    else if f.shut.isSome || f.stale.isSome || (bit p.a3 32 && w.isStale f) then
      let bs := f.stale.getD [] ++ (if inRing then p.payload else [])
      if bit p.a3 33 then (w.modRflow f.ctx fun f => { f with stale := none }).staleTake { f with stale := none }
        (bs.take (16 + leNat (bs.take 8) % 2 ^ 17))
      else w.modRflow f.ctx fun f => { f with stale := some bs }
    else
      let w := if bit p.a3 33 then w.modRflow f.ctx fun f => { f with mseq := fld p.a3 31 0, taken := f.taken + 1 } else w
      if inRing then w.pieceStore ag x.ring (a - r0) p.payload
      else if x.land0 ≤ a ∧ a + p.payload.length ≤ x.land0 + x.nb * x.bsz then w.pieceStore ag x.land (a - x.land0) p.payload
      else w

/-- A flow of a guest that the receiving side has closed as stale ends for good when the guest opens another with its context. -/
def World.endShut (w : World) (g ctx : Nat) : World :=
  match w.gflowOf g ctx with
  | some q => match q.shut, q.rctx with
    | true, some c => ((w.dropGflow g ctx).fabricSend (some q.job) (q.target % 2 ^ 13) (.chnClose c stClosed)).2
    | _, _ => w
  | none => w

/-- A channel packet of a guest (R407): within its contexts, as a sender only. `none` when it is denied. -/
def World.guestChnPkt (w : World) (g : Nat) (p : NetPkt) : Option World :=
  let own := fun c => decide (w.rf (rk (gstPage g) 0x0B0) 11 0 ≤ c) && decide (c ≤ w.rf (rk (gstPage g) 0x0B0) 27 16)
  if !w.guestRight g 5 (some p.job) then none
  else if p.typ = 0x30 then
    let w := if own p.a2 then w.endShut g p.a2 else w
    if !own p.a2 || (w.gflowOf g p.a2).isSome then none
    else
      let m : OpenMsg := ⟨p.job, w.devId, 0x3000 + 0x100 * g, p.a2, fld p.a1 31 0, fld p.a1 47 32, fld p.a1 63 48, fld p.a3 16 0, fld p.a3 63 32⟩
      let w := w.upd fun d => { d with chn := { d.chn with
        gflows := d.chn.gflows ++ [⟨g, p.a2, none, p.job, m.target, false, false⟩] } }
      some (w.fabricSend (some p.job) (m.target % 2 ^ 13) (.chnOpen m)).2
  else match w.dev.chn.gflows.find? fun q => q.site == g && q.rctx == some p.a2 with
    | none => none
    | some q =>
      if !own q.ctx then none
      else
        let dev := q.target % 2 ^ 13
        match p.typ with
        | 0x33 | 0x34 => some (if dev = w.devId then w.chnRaw p
            else (w.fabricSend (some p.job) dev (.net { p with src := 0x2038 + g, rmt := true, rdev := dev })).2)
        | 0x36 => some ((w.dropGflow g q.ctx).fabricSend (some p.job) dev (.chnClose p.a2 (fld p.a3 7 0))).2
        | _ => none

/-- The elements of a contribution's payload (R260, R405). -/
def contribElems (cfmt : Nat) (bs : List Byte) : List Nat :=
  let n := if cfmt = 8 then 4 else if cfmt < 2 then 2 else 1
  ((chunks n bs).map leNat).take 256

/-- A contribution of a guest (R408): within its indices, for an arm of this device. `none` when it is denied. -/
def World.guestContrib (w : World) (g : Nat) (p : NetPkt) : Option World :=
  let red := w.reg (rk (gstPage g) 0x0B8)
  let tag := fld p.a3 11 0
  let cix := fld p.a3 24 12
  let empty := bit p.a3 29
  let chunk := fld p.a1 31 0
  let n := if empty then fld p.a1 63 32 else 1
  if !w.guestRight g 6 (some p.job) || decide (cix < fld red 12 0) || decide (fld red 28 16 < cix) then none
  else match w.arm tag p.a2 with
    | none => none
    | some a =>
      if !a.isContrib || decide (a.ncontrib ≤ cix) || decide (a.nchunk < chunk + n) then none
      else
        let cfmt := fld p.a3 28 25
        let m : FabMsg := .contrib ⟨a.job, tag, p.a2, cix, chunk, n, cfmt, empty, bit p.a3 30, fld p.a3 40 31, p.poison,
          if empty then [] else contribElems cfmt p.payload⟩
        let w := w.modArm tag p.a2 fun a => { a with used := insNat cix a.used }
        some (if a.mode = 1 then w.sendNet m
          else
            let devs := (upTo chunk n).foldl (fun ds c => insNat (a.homeOf c) ds) []
            devs.foldl (fun w d => (w.fabricSend (some a.job) d m).2) w)

/-- An event of a guest (R447): of one of its own pages, with a guest's code. `none` when it is denied. -/
def World.guestEvent (w : World) (g : Nat) (p : NetPkt) : Option World :=
  let ws := (chunks 8 p.payload).map leWord
  let w0 := ws.getD 0 0
  let page := fld w0 47 32
  let own := decide (0x8000 + 0x100 * g ≤ page) && decide (page < 0x8100 + 0x100 * g)
  if !w.guestRight g 7 none || !own || decide (fld w0 55 48 < 0x80) then none
  else some (w.eventPkt ⟨page, fld w0 55 48, fld w0 63 56, ws.getD 2 0, ws.getD 3 0⟩)

/-- What the guest port does with a packet that is denied (R410). -/
def World.denied (w : World) (g : Nat) (p : NetPkt) : World :=
  let back := fun (w : World) (q : NetPkt) => w.sendGuest g { q with dst := p.src, src := 0x2038 + g }
  let a := if p.typ = 1 ∨ p.typ = 2 ∨ p.typ = 4 then p.a1.toNat % 2 ^ 48 else 0
  let w := match p.typ with
    | 1 => back w (netAnswer p 0x10 stFwDenied true (List.replicate (rdBytes p) 0))
    | 2 => back w (netAnswer p 0x11 stFwDenied false [])
    | 4 => back w (netAnswer p 0x11 stFwDenied false [])
    | 0x30 => back w (guestChn g 0x32 p.a2 0 (BitVec.ofNat 64 stFwDenied) [])
    | _ => w
  w.strike g p a

/-- A packet from a guest (R26, R406 to R410): one for a node that nobody uses is discarded; answers go to what asked; others pass the
firewall or are denied. -/
def World.guestPkt (w : World) (g : Nat) (p : NetPkt) : World :=
  let a := p.a1.toNat
  let access := fun right n =>
    if w.guestWindow g 0 right (some p.job) a n && (w.place a != .page || wordAccess a n) then some (w.reissue g p) else none
  if !w.guestUp g then w
  else if !nodeUsed p.dst then w.unusedNode p
  else match p.typ with
    | 0x10 | 0x11 => (w.guestReply g p).pumpHome
    | 0x01 => (access 2 (rdBytes p)).getD (w.denied g p)
    | 0x02 => (access 3 p.payload.length).getD (w.denied g p)
    | 0x04 => (access 4 8).getD (w.denied g p)
    | 0x20 => (w.guestContrib g p).getD (w.denied g p)
    | 0x40 => (w.guestEvent g p).getD (w.denied g p)
    | t => if 0x30 ≤ t ∧ t ≤ 0x36 then (w.guestChnPkt g p).getD (w.denied g p) else w.denied g p

def execGuestPacket (site : Nat) (p : NetPkt) (s : State) : Host.Outcome State Fault Refusal :=
  s.run fun w => if site < 2 then w.guestPkt site p else w

/-! ### Link flits (R404) -/

/-- A packet of the raw stream: the 32-byte header, and LEN units of payload behind it (R405). -/
def parsePkt (bs : List Byte) : NetPkt :=
  let w := fun i => leWord ((bs.drop (8 * i)).take 8)
  { dst := fld (w 0) 15 0, src := fld (w 0) 31 16, vc := fld (w 0) 34 32, typ := fld (w 0) 42 35, job := fld (w 0) 48 43
    poison := bit (w 0) 49, rmt := bit (w 0) 50, rdev := fld (w 0) 63 51, a1 := w 1, status := fld (w 2) 13 6
    tag := fld (w 2) 31 16, a2 := fld (w 2) 63 32, a3 := w 3, payload := bs.drop 32 }

/-- Bytes of the first packet of a stream, once its header is there. -/
def pktBytes (bs : List Byte) : Option Nat :=
  if bs.length < 32 then none else some (32 + fld (leWord ((bs.drop 16).take 8)) 5 0 * 32)

/-- Whole packets leave the stream. -/
def World.drainStream (w : World) (g : Nat) : Nat → World
  | 0 => w
  | n + 1 =>
    match (w.dev.guests.find? fun x => x.site == g).bind fun x => (pktBytes x.stream).map fun k => (x.stream, k) with
    | none => w
    | some (bs, k) =>
      if bs.length < k then w
      else ((w.modGuest g fun x => { x with stream := bs.drop k }).guestPkt g (parsePkt (bs.take k))).drainStream g n

/-- The credits that a flit returns; packets that waited for them go out. -/
def World.guestCredits (w : World) (g : Nat) (bs : List Byte) : World :=
  match w.dev.guests.find? fun x => x.site == g with
  | none => w
  | some x =>
    let cs := x.credits.zipIdx.map fun c => min 32 (c.1 + (bs.getD (2 + c.2) 0).toNat)
    let r := creditGo g x.waiting cs
    (w.modGuest g fun x => { x with waiting := r.1, credits := r.2.1 }).upd fun d => { d with out := d.out ++ r.2.2 }

/-- A link flit: one that fails its CRC takes the link down and isolates the site. -/
def World.guestFlit (w : World) (g : Nat) (bs : List Byte) (good : Bool) : World :=
  if !w.siteUp g then w
  else if !good then
    let page := gstPage g
    (((w.setRf (rk page 0x080) 1 0 3).evUe page 0x0D none 0 0).modGuest g fun x => { x with stream := [] }).isolate g
  else
    let w := w.guestCredits g bs
    if bs.getD 0 0 = 1 then
      (w.modGuest g fun x => { x with stream := x.stream ++ (bs.drop 8).take 246 }).drainStream g 64
    else w

def execGuestFlit (site : Nat) (bytes : List Byte) (good : Bool) (s : State) : Host.Outcome State Fault Refusal :=
  s.run fun w => if site < 2 then w.guestFlit site bytes good else w

/-! ### Isolation by count, reset and the strike count (R411, R412) -/

def World.isolateByCount (w : World) (g : Nat) : World :=
  if w.siteUp g && w.guestUp g && w.strikesOut g (w.rf (rk (gstPage g) 0x098) 47 32) then
    (w.event (gstPage g) 0x12 1 (detail none (g * 2 ^ 8)) 0).isolate g
  else w

def execGuestIsolate (site : Nat) (s : State) : Host.Outcome State Fault Refusal :=
  s.run fun w => if site < 2 then w.isolateByCount site else w

/-- A write of GST_CTL: GRST resets the guest and retrains its link; a main band that did not train in bring-up stays failed. -/
def World.grstWrite (w : World) (writer g : Nat) (v : U64) : World :=
  w.owned writer (gstPage g) 0x088 v fun w =>
    if !bit v 0 || w.rf (rk (gstPage g) 0x080) 1 0 == 0 then w
    else
      let dead := bit (w.reg (rk 0 0x080)) (17 + g)
      let w := w.failGuestReqs g
      let w := w.modReg (rk (gstPage g) 0x080) fun x => setFld (setFld x 1 0 (if dead then 3 else 2)) 2 2 0
      (w.setRf (rk (gstPage g) 0x098) 47 32 0).modGuest g fun x =>
        { x with stream := [], credits := List.replicate 6 32, asked := [], waiting := [] }

def execGrst (port site : Nat) (s : State) : Host.Outcome State Fault Refusal :=
  if site < 2 then s.port port (gstPage site) 0x088 1 fun w => w.grstWrite port site 1 else .next s

/-- A write of GST_FW_CLR. -/
def World.fwClrWrite (w : World) (writer g : Nat) (v : U64) : World :=
  w.owned writer (gstPage g) 0x0A0 v fun w => if bit v 0 then w.setRf (rk (gstPage g) 0x098) 47 32 0 else w

def execGstFwClr (port site : Nat) (s : State) : Host.Outcome State Fault Refusal :=
  if site < 2 then s.port port (gstPage site) 0x0A0 1 fun w => w.fwClrWrite port site 1 else .next s

end Sys2Proof.Machine
end

