-- ==== Sys2Proof/Machine/Power.lean ====
section
/-! DEFINITION. Power, reset and bring-up (R415 to R426), freeze (R428), die links that fail (R20), throttles, thresholds and the
power limit (R424, R435, R436), the module's output pins (R417, R418). -/

namespace Sys2Proof.Machine

def devSts : Nat := rk 0 0x080

/-! ### Reset and supply (R420, R425, R426) -/

/-- Everything volatile is gone: every unit at reset, memory empty, the measurement log empty; what has left the device has
left. -/
def State.restart (s : State) (p : Pwr) : State :=
  { s with
    mem := ⟨[], []⟩
    dev := { Dev.reset with free := s.dev.free, out := s.dev.out, pwr := p }
    sec := { s.sec with log := [], meas := List.replicate 32 0 } }

/-- Power and pins after a restart: every die reports 0x1 while RESET_N is low, else 0x2, and nothing is reported unpowered. A strap
error stands (R22). -/
def Pwr.fresh (p : Pwr) (supply : Supply) (reset : Bool) : Pwr :=
  { Pwr.start with
    supply := supply, vin := p.vin, reset := reset, trst := p.trst, badStraps := p.badStraps
    die := List.replicate 15 (match supply with | .on => if reset then 1 else 2 | _ => 0) }

/-- Whether an input voltage in mV turns the module on: above 38.5 V, and not above 63 V, or below 61 V after overvoltage. -/
def turnsOn (p : Pwr) (mv : Nat) : Bool := decide (38500 ≤ mv) && (if 63000 < p.vin then decide (mv < 61000) else decide (mv ≤ 63000))

def execPowerOn (mv : Nat) (s : State) : Host.Outcome State Fault Refusal :=
  let p := s.dev.pwr
  let now : Pwr := { p with vin := mv }
  .next (if p.supply == .off && turnsOn p mv then s.restart (now.fresh .on p.reset)
    else if p.supply == .off && decide (63000 < p.vin) && decide (38500 ≤ mv) then s
    else { s with dev := { s.dev with pwr := now } })

/-- The input leaves its range: every rail is removed; a module that tripped by heat can turn on again once the input has fallen. -/
def execPowerOff (mv : Nat) (s : State) : Host.Outcome State Fault Refusal :=
  let p := s.dev.pwr
  let now : Pwr := { p with vin := mv }
  .next (if p.supply == .on && (decide (mv < 36000) || decide (63000 < mv)) then s.restart (now.fresh .off p.reset)
    else if p.supply == .tripped && decide (mv < 36000) then s.restart (now.fresh .off p.reset)
    else { s with dev := { s.dev with pwr := now } })

def execResetN (high : Bool) (s : State) : Host.Outcome State Fault Refusal :=
  let p := s.dev.pwr
  .next (if p.reset == !high then s
    else if p.supply == .on then s.restart (p.fresh .on (!high))
    else { s with dev := { s.dev with pwr := { p with reset := !high } } })

/-- A write of MGT_RESET: KEY 0x8205 from the owner resets the device (R426). -/
def State.resetWrite (s : State) (writer : Nat) (v : U64) : State :=
  let w := s.toWorld
  if !w.mayWrite writer 0 0x0A8 v then s.commit (w.deny writer 0 0x0A8)
  else if fld v 15 0 = 0x8205 then s.restart (s.dev.pwr.fresh .on false)
  else s

def execMgtReset (port : Nat) (s : State) : Host.Outcome State Fault Refusal :=
  s.portState port 0 0x0A8 0x8205 fun s => s.resetWrite port 0x8205

/-- A die at 110 °C or above: every rail is removed (R436). -/
def execThermalTrip (temp : Nat) (s : State) : Host.Outcome State Fault Refusal :=
  .next (if s.dev.pwr.supply == .on && decide (110 ≤ temp) then s.restart (s.dev.pwr.fresh .tripped s.dev.pwr.reset) else s)

/-! ### Bring-up (R422, R423) -/

/-- Whether a strap byte is valid for a die of a class (R21, R22). -/
def strapOk (b cls : Nat) : Bool :=
  let c := bits b 7 5
  let i := bits b 4 1
  ((List.range 8).filter b.testBit).length % 2 == 1 && c == cls &&
  decide (i < (match c with | 0 => 8 | 1 => 4 | 2 => 1 | 3 => 2 | _ => 0))

/-- The site code a strap byte gives (R25). -/
def strapSite (b : Nat) : Nat := bits b 7 5 * 16 + bits b 4 1

/-- DBG page of on-package site i in the order H0 to H7, W0 to W3, M. -/
def siteDbg (i : Nat) : Nat := 0x80 + i

/-- Step 2 (R422): every die reads its straps; one that holds itself in reset reports 0x5, for good (R22). -/
def World.straps (w : World) (b : BringUp) : World :=
  (List.range 13).foldl (fun w i =>
    let x := b.straps.getD i 0 % 256
    let ok := strapOk x (b.silicon.getD i 8) && !w.dev.pwr.badStraps.contains i
    let w := w.upd fun d => { d with pwr := { d.pwr with
      die := d.pwr.die.set i (if ok then 2 else 5), badStraps := if ok then d.pwr.badStraps else insNat i d.pwr.badStraps } }
    w.setReg (rk (siteDbg i) 0x080) (BitVec.ofNat 64 (x * 2 ^ 8 + strapSite x % 256 * 2 ^ 16))) w

/-- Failing lanes of a pseudo-channel or channel of a stack. -/
def badLanes (l : List (Nat × Nat × Nat)) (s q : Nat) : Nat := l.foldl (fun n x => if x.1 = s ∧ x.2.1 = q then n + x.2.2 else n) 0

/-- Whether training keeps a pseudo-channel: its stack trains, no more of its data lanes fail than it has spares, two, and no more
command and address lanes of its channel than one (R334). -/
def lanesKeep (b : BringUp) (s q : Nat) : Bool :=
  !b.stackFail.contains s && decide (badLanes b.dataLanes s q ≤ 2) && decide (badLanes b.caLanes s (q / 2) ≤ 1)

/-- Spare lanes switched in on a stack: one for each failing lane, as far as there are spares (R334). -/
def sparesIn (b : BringUp) (s : Nat) : Nat :=
  if b.stackFail.contains s then 0
  else (List.range 32).foldl (fun n q => n + min 2 (badLanes b.dataLanes s q)) 0 +
    (List.range 16).foldl (fun n c => n + min 1 (badLanes b.caLanes s c)) 0

/-- Whether training disables a pseudo-channel. -/
def lanesLose (b : BringUp) : Bool := (List.range 20).any fun s => (List.range 32).any fun q => !lanesKeep b s q

/-- HBM training (R334, R335): enabled pseudo-channels, spares, capacity, window bases, and what is degraded. -/
def World.trainHbm (w : World) (b : BringUp) : World :=
  let on := lanesKeep b
  let w := (List.range 20).foldl (fun w s =>
    let en := (List.range 32).foldl (fun e q => if on s q then e + 2 ^ q else e) 0
    let up := !b.stackFail.contains s
    let w := w.setReg (rk (0x140 + s) 0x080) (BitVec.ofNat 64 (en + sparesIn b s % 256 * 2 ^ 32 + up.toNat * 2 ^ 40))
    if en = 2 ^ 32 - 1 then w else w.modReg (rk (0x140 + s) 0x018) fun v => setBit v 4 true) w
  let cn := fun n => ((List.range 5).flatMap fun i => (List.range 32).filter (on (5 * n + i))).length
  let c := (List.range 4).foldl (fun a n => a + cn n) 0
  let w := (List.range 4).foldl (fun w n =>
    let w := w.setReg (rk (0x120 + n) 0x080) (BitVec.ofNat 64 (c + cn n * 2 ^ 16 + c * 768 * 2 ^ 32))
    if cn n < 80 then w.modReg (rk (0x120 + n) 0x018) fun v => setBit v 2 true else w) w
  (List.range 4).foldl (fun w n => w.setRf (rk (0x120 + n) 0x090) 58 32 (w.wbase n / 0x200000)) w

/-- Urrek training (R351). -/
def World.trainUrk (w : World) (b : BringUp) : World :=
  (List.range 4).foldl (fun w p => match b.adapters.lookup p with
    | none => w
    | some lanes => if lanes % 256 = 0xFF then (w.urkUp p).2
        else w.setReg (rk (0x10 + p) 0x088) (BitVec.ofNat 64 (3 + lanes % 256 * 4))) w

/-- Guest sites (R403). -/
def World.trainGuests (w : World) (b : BringUp) : World :=
  (List.range 2).foldl (fun w g => match b.guests[g]? with
    | none => w
    | some x =>
      if !x.present then w.upd fun d => { d with pwr := { d.pwr with die := d.pwr.die.set (13 + g) 0 } }
      else
        let w := w.upd fun d => { d with pwr := { d.pwr with die := d.pwr.die.set (13 + g) (x.status % 16) } }
        let w := w.setReg (rk (8 + g) 0x080)
          (BitVec.ofNat 64 ((if x.mainOk then 2 else 3) + x.status % 16 * 2 ^ 4 + x.strap % 256 * 2 ^ 8))
        if x.mainOk then w else w.modReg (rk (8 + g) 0x018) fun v => setBit v 4 true) w

/-- Die-to-die links (R451, R452): a bit for each port that has trained. -/
def World.trainLinks (w : World) (b : BringUp) : World :=
  let up := fun page n => (List.range n).foldl (fun v i => if b.linkFail.contains (page, i) then v else v + 2 ^ i) 0
  let w := (List.range 8).foldl (fun w h => w.setReg (rk (0x100 + h) 0x0B8) (BitVec.ofNat 64 (up (0x100 + h) 6))) w
  let w := (List.range 4).foldl (fun w n => w.setReg (rk (0x120 + n) 0xB68) (BitVec.ofNat 64 (up (0x120 + n) 12))) w
  w.setReg (rk 0x8C 0x188) (BitVec.ofNat 64 (up 0x8C 16))

/-- What SEC_BOOT shows after verification (R398, R413). -/
def bootWord (sec : Sec) : U64 :=
  let pick := fun kind => (sec.pick kind).map fun x => (x.1, bundleSvn x.2)
  let slot := fun kind => ((pick kind).map Prod.fst).getD 0
  let svn := fun kind => ((pick kind).map Prod.snd).getD 0
  let refused := fun kind => (sec.bundle (1 - slot kind) kind).isSome && sec.slotCode (1 - slot kind) kind != 0
  BitVec.ofNat 64 (slot 1 + slot 2 * 2 + (refused 1 || refused 2).toNat * 4 + svn 1 * 2 ^ 8 + svn 2 * 2 ^ 16 +
    sec.fwMin % 256 * 2 ^ 24 + sec.cfgMin % 256 * 2 ^ 32 + sec.slotCode 0 1 * 2 ^ 40 + sec.slotCode 1 1 * 2 ^ 44 +
    sec.slotCode 0 2 * 2 ^ 48 + sec.slotCode 1 2 * 2 ^ 52)

/-- The measurement log of a bring-up, in the order of R399. -/
def Sec.measureBoot (sec : Sec) (b : BringUp) : Sec :=
  let bundle := fun (sec : Sec) kind => match sec.pick kind with
    | some (_, x) => sec.measure (kind + 1) (bundleSvn x) (x.header ++ x.body)
    | none => sec
  let guest := fun (sec : Sec) g => match b.guests[g]? with
    | some x => if x.present then sec.measure (5 + g) 0 x.ident else sec
    | none => sec
  let sec := bundle (bundle (sec.measure 1 0 b.bootRom) 1) 2
  guest (guest (sec.measure 4 0 sec.fuses) 0) 1

/-- The measured state shown in registers (R413). -/
def World.showSec (w : World) (sec : Sec) : World :=
  let w := (w.setReg secBoot (bootWord sec)).setRf secConfig 31 16 sec.log.length
  (List.range 4).foldl (fun w i => w.setReg (secMeas i) (leWord ((sec.meas.drop (8 * i)).take 8))) w

/-- The first fatal condition found in calibration, in the order of R423; 0 for none. -/
def calFault (sec : Sec) (b : BringUp) (w : World) : Nat :=
  let found := (List.range 2).foldl (fun v g => if (b.guests[g]?).any GuestFound.present then v + 2 ^ g else v) 0
  if !b.linkFail.isEmpty then 2
  else if (List.range 4).any fun n => decide (w.cn n < 80) then 3
  else if (sec.pick 1).isNone || (sec.pick 2).isNone then 4
  else if found ≠ sec.ordered % 4 then 5
  else if b.guests.any fun g => g.present && g.status == 5 then 6
  else 0

/-- The degrading conditions of R423. -/
def degOf (b : BringUp) : Nat :=
  let bad := fun g => (b.guests[g]?).any fun x => x.present && !x.mainOk
  (lanesLose b).toNat + (bad 0).toNat * 2 + (bad 1).toNat * 4 + (!b.blwFail.isEmpty).toNat * 8

/-- Bring-up stops: DEV_STS shows the cause, and FAULT unless the mantel itself is held in reset. -/
def World.stopAt (w : World) (cause : Nat) (fault : Bool) : World :=
  w.setReg devSts (BitVec.ofNat 64 (fault.toNat * 4 + 7 * 2 ^ 8 + cause * 2 ^ 20))

/-- Bring-up from the strap read on (R422, R423). -/
def State.bringUp (s : State) (b : BringUp) : State :=
  let w := s.toWorld.straps b
  if w.dev.pwr.die.take 13 |>.contains 5 then
    s.commit ((w.stopAt 1 (w.dev.pwr.die.getD 12 0 != 5)))
  else
    let sec := s.sec.measureBoot b
    let w := (((((w.trainLinks b).trainHbm b).trainUrk b).trainGuests b)).showSec sec
    let w := w.setRf secConfig 1 0 sec.ordered
    let c := calFault s.sec b w
    if c ≠ 0 then { s.commit (w.stopAt c true) with sec := sec }
    else if b.selfTestFail then
      let w := w.upd fun d => { d with pwr := { d.pwr with die := d.pwr.die.zipIdx.map fun x => if x.2 < 13 then 3 else x.1 } }
      { s.commit (w.stopAt 7 true) with sec := sec }
    else
      let w := (b.blwFail.filter (· < 8)).foldl (fun w h =>
        (w.modReg (rk (0x108 + h) 0x080) fun v => setBit v 8 true).modReg (rk (0x108 + h) 0x018) fun v => setBit v 4 true) w
      let deg := degOf b
      let w := w.upd fun d => { d with
        gtime := b.ms * 850000
        pwr := { d.pwr with die := d.pwr.die.zipIdx.map fun x => if x.2 < 13 then 0 else x.1 } }
      let w := w.setReg devSts (BitVec.ofNat 64 (1 + (deg != 0).toNat * 2 + 6 * 2 ^ 8 + deg * 2 ^ 16))
      { s.commit (w.setReg (rk 0 0x0B0) (BitVec.ofNat 64 (b.ms % 2 ^ 32))) with sec := sec }

/-- Bring-up begins at step 2, once, on a module that is powered and out of reset. -/
def execBringUp (b : BringUp) (s : State) : Host.Outcome State Fault Refusal :=
  let p := s.dev.pwr
  .next (if p.supply == .on && !p.reset && !p.frozen && fld (s.toWorld.reg devSts) 11 8 == 2 then s.bringUp b else s)

/-! ### Freeze (R428) -/

/-- A falling edge of FREEZE_N sampled in cycle t. -/
def execFreezeN (t : Nat) (s : State) : Host.Outcome State Fault Refusal :=
  s.run fun w =>
    let w := w.at t
    if w.dev.pwr.freezeAt.isSome then w else w.upd fun d => { d with pwr := { d.pwr with freezeAt := some (t + 48) } }

/-- Every link drops. -/
def World.dropLinks (w : World) : World :=
  let w := (List.range 4).foldl (fun w p => w.setRf (rk (0x10 + p) 0x088) 9 0 0) w
  let w := (List.range 18).foldl (fun w p => w.setRf (rk (0x20 + p) 0x088) 10 0 0) w
  let w := (List.range 2).foldl (fun w g => if w.siteUp g then w.setRf (rk (8 + g) 0x080) 1 0 3 else w) w
  let w := (List.range 8).foldl (fun w h => w.setReg (rk (0x100 + h) 0x0B8) 0) w
  let w := (List.range 4).foldl (fun w n => w.setReg (rk (0x120 + n) 0xB68) 0) w
  (w.setReg (rk 0x8C 0x188) 0).upd fun d => { d with urk := { d.urk with links := [] } }

/-- Cycle F: every die stops. -/
def World.freeze (w : World) : World :=
  match w.dev.pwr.freezeAt with
  | none => w
  | some f =>
    (((w.at f).dropLinks).upd fun d => { d with pwr := { d.pwr with
      frozen := true, freezeAt := none, die := d.pwr.die.zipIdx.map fun x => if x.2 < 13 then 4 else x.1 } })

def execFreezeTime (s : State) : Host.Outcome State Fault Refusal := s.run World.freeze

/-! ### Die links in service (R20, R452) -/

/-- The page's link state register and how many ports it shows. -/
def linkReg (page : Nat) : Option (Nat × Nat) :=
  if 0x100 ≤ page ∧ page < 0x108 then some (rk page 0x0B8, 6)
  else if 0x120 ≤ page ∧ page < 0x124 then some (rk page 0xB68, 12)
  else if page = 0x8C then some (rk page 0x188, 16)
  else none

/-- A link fails after its retries: FAULT and EV_UE on the page of its arbiter; its traffic stops. -/
def World.linkDown (w : World) (page link : Nat) : World :=
  match linkReg page with
  | none => w
  | some (k, n) =>
    if n ≤ link || !bit (w.reg k) link then w
    else ((w.modReg k fun v => setBit v link false).setFault page).evUe page 0x03 none 0 0

def execD2dLinkFail (page link : Nat) (s : State) : Host.Outcome State Fault Refusal := s.run fun w => w.linkDown page link

/-! ### Throttles, thresholds, limit (R424, R435, R436) -/

def thermalDemand (hot : Nat) : Nat := if hot < 100 then 0 else if 105 ≤ hot then 15 else 3 * (hot - 99)

/-- One millisecond (R435): sensors and averages are shown, the three demands are recomputed. -/
def World.throttle (w : World) (x : PowerSample) : World :=
  let p := w.dev.pwr
  let above := decide (w.rf (rk 0 0x098) 15 0 < x.avg100)
  let under := if above then 0 else p.under + 1
  let demand := if above then min 15 (p.demand + 1) else if under = 10 then p.demand - 1 else p.demand
  let overs := if 4600 < x.avg1 then p.overs + 1 else 0
  let peak := decide (5000 < x.avg1) || decide (10 < overs)
  let thermal := thermalDemand x.hot
  let level := max thermal (max demand (if peak then 8 else 0))
  let w := w.upd fun d => { d with pwr := { d.pwr with demand := demand, under := under % 10, overs := overs } }
  let w := (List.range 8).foldl (fun w h =>
    if x.hotSite = h then w.setReg (rk (0x100 + h) 0x0C0) (BitVec.ofNat 64 (x.hot % 256))
    else
      let (k, w) := w.draw
      w.setReg (rk (0x100 + h) 0x0C0) (BitVec.ofNat 64 (min (x.hot % 256) (fld (Config.freeWord k) 7 0)))) w
  let w := w.setReg (rk 0 0x088) (BitVec.ofNat 64
    (x.hot % 256 + x.hotSite % 256 * 2 ^ 8 + x.hbmHot % 256 * 2 ^ 16 + x.hbmStack % 32 * 2 ^ 24))
  let old := w.reg (rk 0 0x090)
  let w := w.setReg (rk 0 0x090) (BitVec.ofNat 64
    (x.avg100 % 2 ^ 16 + max (fld old 31 16) (x.avg1 % 2 ^ 16) * 2 ^ 16 + x.vin % 2 ^ 16 * 2 ^ 32 + x.iin % 2 ^ 16 * 2 ^ 48))
  let was := w.rf (rk 0 0x0A0) 3 0
  let flags := (thermal != 0).toNat + (demand != 0).toNat * 2 + peak.toNat * 4
  let w := w.modReg (rk 0 0x0A0) fun v =>
    let v := setFld v 6 0 (level + flags * 16)
    if level = 0 then v else countUp v 63 32 1
  let w := w.modReg devSts fun v => setBit v 3 (level != 0)
  if was = 0 ∧ level ≠ 0 then w.event 0 0x16 0 (BitVec.ofNat 64 (level * 2 ^ 8 + flags * 2 ^ 12)) 0 else w

def execThrottleUpdate (x : PowerSample) (s : State) : Host.Outcome State Fault Refusal := s.run fun w => w.throttle x

/-- A sensor crosses a threshold (R436). -/
def World.threshold (w : World) (t : TempReading) : World :=
  match t with
  | .dies hot =>
    let low := if 103 ≤ hot then true else if hot < 101 then false else w.dev.pwr.therm
    (w.modReg devSts fun v => setBit v 4 low).upd fun d => { d with pwr := { d.pwr with therm := low } }
  | .hbm stack temp =>
    if 20 ≤ stack then w
    else w.upd fun d => { d with pwr := { d.pwr with
      refresh := if 85 ≤ temp then markIns stack d.pwr.refresh else d.pwr.refresh.filter (· ≠ stack)
      hot := if 95 ≤ temp then markIns stack d.pwr.hot else if temp < 93 then d.pwr.hot.filter (· ≠ stack) else d.pwr.hot } }

def execTempThreshold (t : TempReading) (s : State) : Host.Outcome State Fault Refusal := s.run fun w => w.threshold t

/-- The power limit takes a value within 2,000 to 4,000 W. -/
def World.setLimit (w : World) (v : Nat) : World := w.setReg (rk 0 0x098) (BitVec.ofNat 64 (max 2000 (min 4000 v)))

/-- A write of MGT_PWR_LIMIT. -/
def World.limitWrite (w : World) (writer : Nat) (v : U64) : World :=
  w.owned writer 0 0x098 v fun w => w.setLimit (fld v 15 0)

def execMgtPwrLimit (port : Nat) (v : U64) (s : State) : Host.Outcome State Fault Refusal :=
  s.port port 0 0x098 v fun w => w.limitWrite port v

/-! ### Output pins (R417, R418) -/

/-- What an output pin does: not driven, high, or low. -/
inductive Level where
  | z | high | low
  deriving DecidableEq, Repr

/-- Whether the module drives its sideband outputs. -/
def Dev.drives (d : Dev) : Bool := d.pwr.supply == .on && !d.pwr.reset

def Dev.sts (d : Dev) : U64 := mapGet d.regs (regReset devSts) devSts

/-- READY is push-pull. -/
def Dev.pinReady (d : Dev) : Level := if !d.drives then .z else if bit d.sts 0 then .high else .low

/-- FAULT_N, ALERT_N and THERM_N are open-drain: low or not driven. -/
def Dev.pinFault (d : Dev) : Level := if d.drives && bit d.sts 2 then .low else .z
def Dev.pinAlert (d : Dev) : Level := if d.drives && bit d.sts 3 then .low else .z
def Dev.pinTherm (d : Dev) : Level := if d.drives && d.pwr.therm then .low else .z

end Sys2Proof.Machine
end

