-- ==== Sys2Proof/Machine/Fabric.lean ====
section
/-! DEFINITION. Flue ports (R247 to R250, R277), route tables (R251), and packets that arrive from the fabric (R249, R252). -/

namespace Sys2Proof.Machine

def fluPage (p : Nat) : Nat := 0x20 + p

/-! ### Ports (R247, R248, R250) -/

/-- The port stops: nothing of its link is left. -/
def World.flueStop (w : World) (p : Nat) : World := (w.setRf (rk (fluPage p) 0x088) 10 0 0).setLink (fluPage p) none

/-- A write of FLU_CTL: clearing EN takes the port down, setting it trains it. -/
def World.fluCtlWrite (w : World) (writer p : Nat) (v : U64) : World :=
  w.owned writer (fluPage p) 0x080 v fun w =>
    let was := bit (w.reg (rk (fluPage p) 0x080)) 0
    let w := w.setReg (rk (fluPage p) 0x080) (BitVec.ofNat 64 (fld v 1 0))
    if was && !bit v 0 then w.flueStop p
    else if !was && bit v 0 then
      (w.modReg (rk (fluPage p) 0x018) fun x => setBit x 2 false).setRf (rk (fluPage p) 0x088) 10 0 1
    else w

def execFluCtl (port p : Nat) (v : U64) (s : State) : Host.Outcome State Fault Refusal :=
  if p < 18 then s.port port (fluPage p) 0x080 v fun w => w.fluCtlWrite port p v else .next s

/-- All eight lanes of a training port have trained; the ends exchange CHM_ID and port number: this one sends its own and shows what
comes. -/
def World.fluePeer (w : World) (p peer pport : Nat) : World :=
  let page := fluPage p
  if !bit (w.reg (rk page 0x080)) 0 || w.rf (rk page 0x088) 1 0 ≠ 1 then w
  else
    ((w.setReg (rk page 0x088) (BitVec.ofNat 64
      (2 + 0xFF * 2 ^ 2 + 2 ^ 10 + peer % 2 ^ 13 * 2 ^ 11 + pport % 32 * 2 ^ 24))).setLink page
      (some ⟨0, 0, [], 0, bit (w.reg (rk page 0x080)) 1⟩)).upd fun d => { d with out := d.out ++ [.train p w.devId] }

def execFluePortUp (p peer pport : Nat) (s : State) : Host.Outcome State Fault Refusal :=
  s.run fun w => if p < 18 then w.fluePeer p peer pport else w

/-- A frame: its codewords that the FEC corrected or could not correct count, on a port that has a link; one of the latter has the
frame refused (R248, R277). -/
def World.flueFrame (w : World) (p seq : Nat) (good : Bool) (fec : Fec) : World :=
  let page := fluPage p
  if (w.link page).isNone then w
  else ((w.count (rk page 0x090) 31 0 fec.corrected).count (rk page 0x090) 63 32 fec.uncorrectable).frameIn page seq
    (good && fec.uncorrectable == 0) (.flueNak p)

def execFlueFrame (p seq : Nat) (good : Bool) (fec : Fec) (s : State) : Host.Outcome State Fault Refusal :=
  s.run fun w => if p < 18 then w.flueFrame p (seq % 4096) good fec else w

/-- A port goes down for good, until driver software trains it again. -/
def World.flueFail (w : World) (p : Nat) : World :=
  (((w.flueStop p).setFault (fluPage p)).evUe (fluPage p) 0x04 none 0 0).count (rk (fluPage p) 0x098) 63 32 1

/-- A NAK; every replay counts in FLU_RETRY. -/
def World.flueNakIn (w : World) (p seq : Nat) : World :=
  if w.nakDowns (fluPage p) seq then w.flueFail p
  else
    let r := w.nakIn (fluPage p) seq
    r.2.count (rk (fluPage p) 0x098) 31 0 r.1

def execFlueNak (p seq : Nat) (s : State) : Host.Outcome State Fault Refusal :=
  s.run fun w => if p < 18 then w.flueNakIn p (seq % 4096) else w

/-- A frame has been replayed 16 times without being acknowledged: the port goes down. -/
def World.flueDown (w : World) (p : Nat) : World :=
  if (w.link (fluPage p)).any fun l => decide (16 ≤ l.replays) then w.flueFail p else w

def execFluePortDown (p : Nat) (s : State) : Host.Outcome State Fault Refusal :=
  s.run fun w => if p < 18 then w.flueDown p else w

/-- A lane fails in service or in training. -/
def World.laneFail (w : World) (p lane : Nat) : World :=
  let sts := rk (fluPage p) 0x088
  if bit (w.reg (rk (fluPage p) 0x080)) 0 && (w.rf sts 1 0 == 1 || w.rf sts 1 0 == 2) then
    (w.modReg sts fun v => setBit (setFld v 1 0 3) (2 + lane) false).setLink (fluPage p) none
  else w

def execFlueLaneFail (p lane : Nat) (s : State) : Host.Outcome State Fault Refusal :=
  s.run fun w => if p < 18 ∧ lane < 8 then w.laneFail p lane else w

/-- A write of CHM_ID. -/
def World.chmIdWrite (w : World) (writer : Nat) (v : U64) : World :=
  w.owned writer 6 0x080 v fun w => w.setReg (rk 6 0x080) (BitVec.ofNat 64 (fld v 13 0))

def execChmId (port : Nat) (v : U64) (s : State) : Host.Outcome State Fault Refusal :=
  s.port port 6 0x080 v fun w => w.chmIdWrite port v

/-! ### Route tables (R251) -/

/-- The nonzero entries of a table by index. -/
def tableOf (bs : List Byte) : List (Nat × Nat) :=
  (((chunks 4 bs).map leNat).zipIdx.map fun x => (x.2, x.1)).filter fun x => x.2 ≠ 0

/-- Both tables as memory holds them. -/
def readTables (uni multi : Nat) : Act Nat := do
  let (u, ps) ← readP uni 32768
  if !ps.isEmpty then return 1
  let (m, qs) ← readP multi 16384
  if !qs.isEmpty then return 1
  actW fun w => w.upd fun d => { d with routes := tableOf u, groups := tableOf m }
  return 0

/-- A write of CHM_RT_CMD: LOAD copies both tables; on an error the old ones remain. -/
def World.rtCmd (w : World) (writer : Nat) (v : U64) : World :=
  let sts := rk 6 0x0A0
  w.command writer 6 0x098 v (w.opBusy sts) fun w =>
    if !bit v 0 then w
    else
      let base := fun off => w.rf (rk 6 off) 47 12 * 4096
      w.opRun (mantel 6) sts writer 6 0x098 v (readTables (base 0x088) (base 0x090)) fun st w =>
        w.setReg sts (BitVec.ofNat 64 (1 + (if st = 0 then 0 else 2)))

def execRouteLoad (port : Nat) (s : State) : Host.Outcome State Fault Refusal :=
  s.port port 6 0x098 1 fun w => w.rtCmd port 1

/-! ### Packets from the fabric (R249, R252) -/

/-- The job of a message, where it names one. -/
def fabJob : FabMsg → Option Nat
  | .contrib m => some m.job
  | .mcast m => some m.job
  | .rreadReq m => some m.job
  | .chnOpen m => some m.job
  | .net p => if p.job = 0 then none else some p.job
  | _ => none

/-- Answer an ember write to the device that sent it (R385). -/
def World.emberAck (w : World) (src status : Nat) : World :=
  (w.fabricSend none src (.net ⟨0x2031, 0x2031, 1, 0x11, 0, false, true, src, 0, status, 0, 0, 0, []⟩)).2

/-- Deliver a message to the device: what no command stands for takes effect at once, the rest waits inside the device. -/
def World.fabricTake (w : World) (src : Nat) (m : FabMsg) : World :=
  match m with
  | .chnReport c n => w.reported c n
  | .chnDrain c a t b => w.drained c a t b
  | .rreadRsp r => w.rreadDone r
  | .emberData slot off marks data =>
    let r := w.emberLand slot off marks data
    if !r.1 then r.2.emberAck src stPoison else if off = 0 then r.2.emberAck src stOk else r.2
  | .shipData _ _ _ | .shipHdr _ _ _ => (w.sendNet m).pumpShip
  | .net p => if p.typ = 0x33 ∨ p.typ = 0x34 then w.chnRaw p else w.sendNet (.net { p with rmt := true, rdev := src })
  | _ => w.sendNet m

/-- Discard a request by routing: its issuing command completes with POISON (R252, R34). -/
def World.bounce (w : World) (src : Nat) (m : FabMsg) : World :=
  match m with
  | .rreadReq r => (w.fabricSend (some r.job) src (.rreadRsp ⟨r.tag, stPoison, true, []⟩)).2
  | .emberData _ _ _ _ => w.emberAck src stPoison
  | .net p =>
    if p.typ = 1 then (w.fabricSend (fabJob m) src (.net (netAnswer p 0x10 stPoison true []))).2
    else if p.typ = 2 ∨ p.typ = 4 then (w.fabricSend (fabJob m) src (.net (netAnswer p 0x11 stPoison false []))).2
    else w
  | _ => w

/-- Whether an armed ARRIVAL bucket here takes a contribution or partial that passes (R269). -/
def World.takesArrival (w : World) (m : FabMsg) : Bool :=
  let armed := fun tag step => (w.arm tag step).any fun a => a.mode == 1
  match m with
  | .contrib c => armed c.tag c.step
  | .part p => armed p.tag p.step
  | _ => false

/-- A packet that arrives on a port: delivered, forwarded, copied to a group's ports, or discarded. -/
def World.fabricIn (w : World) (p : Nat) (h : FabHdr) (m : FabMsg) : World :=
  let h' := { h with ttl := h.ttl - 1 }
  let drop := fun (w : World) => w.routeDrop (fabJob m) h.dst h.vc
  if h.mc then
    let here := (w.group h.dst).testBit 19 && (w.group h.dst).testBit 18
    let ports := if h.ttl = 0 then [] else w.groupPorts h.dst (some p)
    if !here && ports.isEmpty then drop w
    else
      let w := ports.foldl (fun w q => w.onPort (fabJob m) q h' m) w
      if here then w.fabricTake h.src m else w
  else if h.dst = w.devId || w.takesArrival m then w.fabricTake h.src m
  else if h.ttl = 0 then drop w
  else match w.outPort h.dst with
    | some q => w.onPort (fabJob m) q h' m
    | none => (drop w).bounce h.src m

def execFabricPacket (p : Nat) (h : FabHdr) (m : FabMsg) (s : State) : Host.Outcome State Fault Refusal :=
  s.run fun w =>
    if p < 18 && w.flueUp p then
      (w.count (rk (fluPage p) 0x0A8) 63 0 (40 + fabPayload m)).fabricIn p ⟨h.dst % 8192, h.mc, h.src % 8192, h.ttl % 64, h.vc % 8⟩ m
    else w

end Sys2Proof.Machine
end

