-- ==== Sys2Proof/Machine/Views.lean ====
section
/-! DEFINITION. Reading a register (R438 to R442, R449): stored values, and what the block shows of its state. `reader` is a Urrek port,
the debug port (4), or an agent inside (5). -/

namespace Sys2Proof.Machine

/-- A word of fields: values at bit positions. -/
def wordOf (fs : List (Nat × Nat)) : U64 := BitVec.ofNat 64 (fs.foldl (fun a f => a + f.2 * 2 ^ f.1) 0)

/-! ### The common header (R440, R442) -/

/-- Status registers of command operations on a page: offsets of those whose bit 0 is DONE. -/
def Blk.doneRegs : Blk → List Nat
  | .mgt => [0x410]
  | .tik => [0x0E8, 0x0F8]
  | .snp => [0x0F8]
  | .sec => [0x0C8]
  | .exd => [0x090]
  | .chm => [0x0A0]
  | .blw => [0x0A0]
  | .wbx => [0x090, 0xA08]
  | .slm => [0x088]
  | _ => []

/-- BLK_STS.READY of a page. -/
def World.pageReady (w : World) (b : Blk) (i page : Nat) : Bool :=
  bit (w.reg devSts) 0 && match b with
  | .hbm => bit (w.reg (rk page 0x080)) 40
  | .gst => w.rf (rk page 0x080) 1 0 == 2
  | .urk => w.portUp i
  | .flu => w.rf (rk page 0x088) 1 0 == 2
  | _ => true

/-- BLK_STS.BUSY of a page. -/
def World.pageBusy (w : World) (b : Blk) (page : Nat) : Bool :=
  (w.dev.rings.any fun r => r.ring.page == page && r.entries.any Entry.undone) ||
  b.doneRegs.any fun off => w.opBusy (rk page off)

def World.blkSts (w : World) (b : Blk) (i page : Nat) : U64 :=
  let v := w.reg (rk page 0x018)
  let deg := if b == .mgt then bit (w.reg devSts) 1 else bit v 4
  wordOf [(0, (w.pageReady b i page).toNat), (1, (w.pageBusy b page).toNat), (2, fld v 2 2), (3, w.dev.pwr.frozen.toNat), (4, deg.toNat)]

/-! ### Rings and the stove (R126, R120) -/

/-- RING_STS: ACTIVE while a command of the ring executes. -/
def World.ringSts (w : World) (r : RingId) : U64 :=
  setBit (w.reg (rgk r 0x30)) 0 ((w.ringRun r).entries.any Entry.waiting && !w.suspended r)

/-- What a tile command does, by its opcode (R90, R91). -/
def tileBody (op : Nat) : Option (Desc → Act Fin) := 
  match op with | 0x10 => some (tileWs false 0) | 0x11 => some (tileOs 0) | 0x12 => some (tileWs true 0) | _ => none

/-- The tile command, next to start on a stove, whose scratchpad regions an earlier command still has pending (R117). -/
def World.scoreWait (w : World) (s : Nat) : Option Entry :=
  (List.range 4).findSome? fun n =>
    let r := stoveRing s n
    let es := (w.ringRun r).entries
    match es.find? Entry.unstarted with
    | none => none
    | some e => match tileBody (opcodeOf e.desc) with
      | none => none
      | some body =>
        let waits := !w.holds r e && es.any Entry.waiting && match (body e.desc).run (Run.init w (agentOf r e)) with
          | .ok (_, x) => x.clashes
          | .error x => x == .hold
        if waits then some e else none

/-- STV_STATE: a tile that waits for its replay, for its release or on the scoreboard; a run to a cheap point, the save there, a restore
that is due; else idle. What only timing shows, a wait for a set, a stationary load or a bank port, is not shown (log entry 43). -/
def World.stvState (w : World) (s : Nat) : U64 :=
  let es := (List.range 4).flatMap fun n => (w.ringRun (stoveRing s n)).entries
  let show' := fun (st : Nat) (e : Entry) => wordOf [(0, jobOf e.desc), (8, st), (32, seqOf e.desc)]
  match es.find? fun e => e.phase == .replay with
  | some e => show' 7 e
  | none => match es.find? fun e => e.phase == .over with
    | some e => show' 1 e
    | none => match (w.stove s).pre with
      | some (l, _, _) =>
        let run := w.ringRun (stoveRing s l)
        if (w.cheapAt (stoveRing s l)).isSome then wordOf [(0, run.lastJob), (8, 5)]
        else match run.entries.find? Entry.undone with
          | some e => show' 4 e
          | none => wordOf [(0, run.lastJob), (8, 4)]
      | none =>
        if w.restoreDue s then wordOf [(0, ((w.stove s).saved.getLast?.map SaveImg.job).getD 0), (8, 6)]
        else match w.scoreWait s with
          | some e => show' 2 e
          | none => 0

def accField (a : AccSet) (b j : Nat) : List (Nat × Nat) := [(b, a.live.toNat), (j, if a.live then a.job else 0)]

/-- GRT_ACC. -/
def Stove.accWord (x : Stove) : U64 := wordOf (accField x.set0 0 8 ++ accField x.set1 1 16 ++ accField x.os 2 24)

/-- DMP_FSLOT_OWN: slots from first on. -/
def Stove.ownWord (x : Stove) (first : Nat) : U64 :=
  wordOf ((List.range 8).flatMap fun i => match x.slots.find? fun y => y.slot == first + i with
    | some y => [(8 * i, y.job + 0x80)]
    | none => [])

/-- STV_SCOREBOARD. -/
def World.scoreboard (w : World) (s : Nat) : U64 :=
  BitVec.ofNat 64 (((List.range 4).flatMap fun n => (w.ringRun (stoveRing s n)).entries).foldl (fun a e => if e.undone then a ||| e.writes else a) 0)

/-! ### TIK (R221) -/

def World.gqueryState (w : World) (g : Nat) : U64 :=
  let mbq := (w.mbqOf g).length
  match w.grp g with
  | none => wordOf [(22, mbq)]
  | some x =>
    let j := w.job x.job
    wordOf [(0, x.ptr), (14, min x.slip 15), (18, 1), (19, (j.any Job.running).toNat), (20, x.fault.toNat), (21, (j.any Job.aborted).toNat),
      (22, mbq), (32, (j.map Job.step).getD 0)]

def World.jqueryState (w : World) (j : Nat) : U64 :=
  match w.job j with
  | none => 0
  | some x =>
    let halts := w.dev.snp.halt.isSome && bit (w.reg (rk 2 0x158)) j
    wordOf [(0, x.step), (32, x.running.toNat), (33, (x.stopX.isSome || x.stopEnding || halts).toNat), (34, x.aborted.toNat)]

/-- The words of a micro-batch queue entry (R210). -/
def MbEntry.words (e : MbEntry) : List U64 :=
  [wordOf [(0, e.stamp.mbid), (10, e.stamp.dir), (11, 1), (16, e.stamp.ver % 2 ^ 16), (32, e.stamp.step)], BitVec.ofNat 64 e.flow,
    BitVec.ofNat 64 e.payload, 0] ++ e.desc

/-- GTIME of the next boundary. -/
def World.nextBnd (w : World) : Nat :=
  match w.dev.tik.next with
  | some b => b
  | none => match w.dev.tik.bnd with
    | some b => if w.running then b + w.period else 0
    | none => 0

/-! ### Chimney, channels, Bellows, experts -/

/-- The tag of the bucket that a CHM_BUCKET at the front of a ring names (R256). -/
def World.waitingTag (w : World) (r : RingId) : Option Nat :=
  match (w.ringRun r).entries.find? Entry.unstarted with
  | some e =>
    if opcodeOf e.desc ≠ 0x80 then none
    else match (readWordV (fld e.desc.w2 47 0)).run (Run.init w (agentOf r e)) with
      | .ok ((v, _), _) => some (fld v 11 0)
      | .error _ => none
  | none => none

/-- The arm that CHM_TQUERY selects. -/
def World.queriedArm (w : World) (q : U64) : Option Arm :=
  let arms := w.dev.chm.arms.filter fun a => a.tag == fld q 11 0
  if bit q 12 then (if 2 ≤ arms.length then arms.head? else none) else arms.getLast?

def World.tqueryState (w : World) (q : U64) : U64 :=
  let queued := (List.range 16).any fun n => w.waitingTag ⟨6, n⟩ == some (fld q 11 0)
  match w.queriedArm q with
  | none => wordOf [(5, queued.toNat)]
  | some a =>
    let units := (a.chunks.map fun c => c.num / a.unit).eraseDups.length
    let early := a.isHome && !(w.homeUnits a).isEmpty && (w.homeUnits a).all a.closed.contains
    let st := if a.ticked.isNone then (if early then 2 else 1) else if a.isContrib && decide (a.sums.length < a.nhdev) then 3 else 2
    wordOf [(0, st), (2, a.roles), (5, queued.toNat), (6, a.step), (38, a.sums.length), (52, min units 0xFFF)]

def World.rxqueryState (w : World) (die : Nat) (q : U64) : U64 :=
  match w.dev.chn.rings.find? fun x => x.stove == 32 * die + fld q 4 0 && x.slot == fld q 11 8 with
  | none => 0
  | some x => wordOf [(0, if x.flow.isSome then 2 else 1), (2, x.ep), (5, x.mbq.toNat), (6, x.flow.getD 0)]

/-- Cycles since a time, as a counter shows them. -/
def World.waited (w : World) (t : Option Nat) : Nat := match t with | some t => min (w.dev.gtime - t) 0xFFFFFFFF | none => 0

/-- A sending context shows its oldest waiting message, a spilled one first (R240). -/
def World.fqueryState (w : World) (c : Nat) : U64 :=
  match w.sflow c, w.rflow c, w.gflow c with
  | some f, _, _ =>
    let (since, stalled) := match f.spilled.head? with
      | some p => (some p.since, p.stalled)
      | none => (f.since, f.since.isSome && f.stalled)
    wordOf [(0, if f.st == .closing || f.reason.isSome then 2 else 1), (3, (!f.spilled.isEmpty).toNat), (4, since.isSome.toNat),
      (5, stalled.toNat), (6, f.mbq.toNat), (8, f.log2), (16, f.epoch), (32, w.waited since)]
  | none, some f, _ =>
    let x := (w.rxOf f).or f.shut
    wordOf [(0, if f.shut.isSome then 2 else 1), (2, 1), (3, (!f.ash.isEmpty).toNat), (6, (x.any RxRing.mbq).toNat), (7, f.bad.toNat), (8, (x.map RxRing.log2).getD 0),
      (16, f.epoch)]
  | none, none, some g => wordOf [(0, if g.shut then 2 else 1), (4, g.stalled.toNat), (5, g.stalled.toNat)]
  | none, none, none => 0

/-- The header of a flow's head entry (R246). -/
def World.fqueryHdr (w : World) (c : Nat) : U64 × U64 :=
  match w.sflow c, w.rflow c with
  | some f, _ => match f.spilled.head? with
   | some p => (p.h0, p.h1)
   | none => match f.cmd with
    | some (r, i) => match (w.ringRun r).entries.find? fun e => e.idx == i && f.since.isSome with
      | some e => recHeader (fld e.desc.w4 16 0) (fld e.desc.w6 31 0 != 0) f.mseq e.stamp
      | none => (0, 0)
    | none => (0, 0)
  | none, some f => match (w.rxOf f).or f.shut with
    | some x =>
      if f.head = f.tail then (0, 0)
      else
        let bs := w.pieceBytes x.ring (f.head % x.size) 16
        (leWord (bs.take 8), leWord (bs.drop 8))
    | none => (0, 0)
  | none, none => (0, 0)

def World.fquery (w : World) (c off : Nat) : U64 :=
  let s := w.sflow c
  let r := w.rflow c
  match off with
  | 0x0A8 => w.fqueryState c
  | 0x0B0 => BitVec.ofNat 64 ((s.map SFlow.tail).getD ((r.map RFlow.tail).getD 0))
  | 0x0B8 => BitVec.ofNat 64 ((s.map SFlow.head).getD ((r.map RFlow.head).getD 0))
  | 0x0C0 => match s, r with
    | some f, _ => wordOf [(0, f.aTail - f.aHead), (32, f.spilled.length)]
    | none, some f => wordOf [(0, f.aTail - f.aHead), (32, f.ash.length)]
    | none, none => 0
  | 0x0C8 => (w.fqueryHdr c).1
  | 0x0D0 => (w.fqueryHdr c).2
  | _ => match s, r with
    | some f, _ => wordOf [(0, f.peerDev), (13, f.peerNode), (29, f.peerCtx)]
    | none, some f => wordOf [(0, f.peerDev), (13, f.peerNode), (29, f.peerCtx)]
    | none, none => 0

def World.gatePend (w : World) (die : Nat) : U64 :=
  let mine := w.dev.blw.regions.filter fun r => r.die == die
  wordOf [(0, (w.dev.blw.parked.filter fun p => p.die == die).length), (16, (mine.filter fun r => r.arm.isSome).length), (25, mine.length)]

def World.wregState (w : World) (die i : Nat) : U64 :=
  match w.dev.blw.regions.find? fun r => r.index == i && r.die == die with
  | none => 0
  | some r => wordOf [(0, r.cv), (16, 1), (17, r.arm.isSome.toNat), (18, r.isOpen.toNat), (19, (r.arm.any UpdArm.streams).toNat),
      (20, r.credits % 2 ^ 16), (36, min r.readers0 0xFFF), (48, min r.readers1 0xFFF)]

def World.aqueryState (w : World) (n : Nat) : U64 :=
  match w.dev.stk.rts.find? fun a => a.num == n with
  | none => 0
  | some a =>
    let p := match a.pass with
      | some p => some (p.back, p.mbid, p.step)
      | none => a.last
    let (back, mbid, step) := p.getD (false, 0, 0)
    wordOf [(0, 1), (1, a.pass.isSome.toNat), (2, back.toNat), (3, a.page - 0x40), (7, a.group), (15, a.job), (21, mbid), (32, step)]

def World.aqueryCache (w : World) (n : Nat) : U64 :=
  match w.dev.stk.rts.find? fun a => a.num == n with
  | none => 0
  | some a => wordOf [(0, (a.cache.filter CacheEnt.pinned).length), (16, (a.cache.filter fun c => c.key.isSome).length)]

/-! ### Urrek, memory -/

def World.urkOwn (w : World) (reader : Nat) : U64 :=
  match w.dev.urk.owner with
  | none => 0
  | some p => wordOf [(8, 1), (9, p), (11, (reader == p).toNat)]

def World.urkDir (w : World) (p : Nat) : U64 :=
  wordOf [(0, (w.dev.urk.dir.filter fun e => e.ports.contains p).length), (32, w.dev.urk.dir.length)]

/-- WBX_CE_STS: copy engine e executes a command of one of its four rings (R125). -/
def World.ceBusy (w : World) (page : Nat) : U64 :=
  wordOf ((List.range 4).map fun e => (e, ((upTo (4 * e) 4).any fun n => (w.ringRun ⟨page, n⟩).entries.any Entry.waiting).toNat))

/-- Accesses of a slice's cache that hit, and that missed (R349). -/
def World.slmCounts (w : World) (n : Nat) : Nat × Nat := match w.dev.slm[n]? with | some c => (c.hits, c.misses) | none => (0, 0)

/-! ### Reading -/

/-- Where a register that several pages show is stored (R38, R193, R347, R373). -/
def homePage (b : Blk) (page off : Nat) : Nat :=
  match b with
  | .wbx => if (0x800 ≤ off ∧ off ≤ 0xA08) ∨ off = 0x088 then 0x120 else page
  | .blw => if off = 0x090 then 0x108 else page
  | .urk => if off = 0x0E0 then 0x10 else page
  | _ => page

/-- The value of a block register. -/
def World.blockReg (w : World) (sec : Sec) (reader : Nat) (b : Blk) (i page off : Nat) : U64 :=
  let sel := fun o => w.banked reader (rk page o)
  let stored := w.reg (rk (homePage b page off) off)
  if bankedReg b off then sel off
  else match b with
  | .tik => match off with
    | 0x0A8 => BitVec.ofNat 64 w.dev.gtime
    | 0x0B8 => BitVec.ofNat 64 w.nextBnd
    | 0x108 => w.gqueryState (fld (sel 0x100) 7 0)
    | 0x160 => w.jqueryState (fld (sel 0x158) 5 0)
    | _ => if 0x118 ≤ off ∧ off < 0x158 then
        match (w.mbqOf (fld (sel 0x100) 7 0))[fld (sel 0x110) 5 0]? with
        | some e => e.words.getD ((off - 0x118) / 8) 0
        | none => 0
      else stored
  | .sec => match off with
    | 0x0A8 => sec.serial
    | 0x0B0 => setFld stored 1 0 (sec.ordered % 4)
    | _ => stored
  | .exd => if 0x0A0 ≤ off ∧ off < 0x0C0 then (w.exdWords (fld (sel 0x098) 15 0)).getD ((off - 0x0A0) / 8) 0 else stored
  | .rtr => match off with
    | 0x0B0 => w.aqueryState (fld (sel 0x0A8) 5 0)
    | 0x0B8 => w.aqueryCache (fld (sel 0x0A8) 5 0)
    | _ => stored
  | .chm => match off with
    | 0x0D0 => w.tqueryState (sel 0x0C8)
    | 0x0D8 => match w.queriedArm (sel 0x0C8) with
      | some a => BitVec.ofNat 64 a.close
      | none => 0
    | _ => stored
  | .chnH => if off = 0x0A8 then w.rxqueryState i (sel 0x0A0) else stored
  | .chnM => if 0x0A8 ≤ off ∧ off ≤ 0x0D8 then w.fquery (fld (sel 0x0A0) 11 0) off else stored
  | .urk => match off with
    | 0x090 => w.urkOwn reader
    | 0x0E8 => w.urkDir i
    | _ => stored
  | .dbg => if off = 0x080 then setFld stored 3 0 (w.dev.pwr.die.getD i 0) else stored
  | .dbgM => if off = 0x080 then setFld stored 3 0 (w.dev.pwr.die.getD i 0) else stored
  | .blw => match off with
    | 0x0C0 => w.gatePend i
    | 0x0D0 => w.wregState i (fld (sel 0x0C8) 13 0)
    | _ => stored
  | .wbx => if off = 0x0B0 then w.ceBusy page else stored
  | .slm => match off with
    | 0x098 => BitVec.ofNat 64 (w.slmCounts i).1
    | 0x0A0 => BitVec.ofNat 64 (w.slmCounts i).2
    | _ => stored
  | .stv => match off with
    | 0x080 => w.stvState i
    | 0x0A8 => (w.stove i).accWord
    | 0x0B0 => (w.stove i).ownWord 0
    | 0x0B8 => (w.stove i).ownWord 8
    | 0x0D0 => w.scoreboard i
    | _ => stored
  | _ => stored

/-- What a read of a register of a populated page returns; a reserved offset reads zero (R438). -/
def World.regRead (w : World) (sec : Sec) (reader page off : Nat) : U64 :=
  match pageInfo page, rowOf page off with
  | some (b, i), some _ =>
    match off with
    | 0x000 => wordOf [(0, 0xB1), (16, b.site i), (32, i), (48, b.type)]
    | 0x008 => wordOf [(0, b.rings), (8, b.instances)]
    | 0x018 => w.blkSts b i page
    | _ => match ringAt page off with
      | some (r, o) => if o = 0x30 then w.ringSts r else w.reg (rk page off)
      | none => if off < 0x80 then w.reg (rk page off) else w.blockReg sec reader b i page off
  | _, _ => 0

end Sys2Proof.Machine
end

