-- ==== Sys2Proof/Machine/Registers.lean ====
section
/-! DEFINITION. Writing a register (R16, R361, R438, R441, R448 to R455): BLK_CTL, ring set-up words, registers whose write does
more than store, held writes; and what other agents' register accesses do. -/

namespace Sys2Proof.Machine

/-! ### Plain registers (R16) -/

/-- RW bits take the value, RW1C bits clear where it has 1, others stay. -/
def RegRow.write (r : RegRow) (old v : U64) : U64 :=
  let rw := BitVec.ofNat 64 r.rw
  ((old &&& ~~~rw) ||| (v &&& rw)) &&& ~~~(v &&& BitVec.ofNat 64 r.w1c)

def World.plainWrite (w : World) (page off : Nat) (v : U64) : World :=
  match rowOf page off with
  | some r => w.modReg (rk page off) fun old => r.write old v
  | none => w

/-- A set-up register of a ring of records: a LOG2SZ outside 12 to 24 leaves EN 0 (R455). -/
def World.setupWrite (w : World) (page off : Nat) (v : U64) : World :=
  let legal := decide (12 ≤ fld v 5 1) && decide (fld v 5 1 ≤ 24)
  w.plainWrite page off (if legal then v else setBit v 0 false)

/-! ### BLK_CTL (R441) -/

/-- Rings of a page. -/
def pageRings (page : Nat) : List RingId :=
  match pageInfo page with
  | some (b, _) => (List.range b.rings).map fun n => ⟨page, n⟩
  | none => []

/-- EN changes: its clearing acts on every ring as a set STOP does; its setting resumes each ring whose STOP is 0. -/
def World.pageEn (w : World) (page : Nat) (on : Bool) : World :=
  let was := bit (w.reg (rk page 0x010)) 0
  let w := w.modReg (rk page 0x010) fun v => setBit v 0 on
  if on == was then w
  else (pageRings page).foldl (fun w r =>
    if !on then (if w.ringHead r = w.ringDone r then w.setRf (rgk r 0x30) 3 3 1 else w)
    else if !bit (w.reg (rgk r 0x38)) 2 && (w.ringErr r == 0 || w.ringErr r == 4) then (w.setRf (rgk r 0x30) 3 3 0).readTail r
    else w) w

/-- Clear the counter and RW1C bits of a page's registers. -/
def World.clearCounts (w : World) (page : Nat) : World :=
  match pageInfo page with
  | none => w
  | some (b, _) => (commonRegs ++ b.rows).foldl (fun w r =>
      if r.srst = 0 then w
      else (List.range r.count).foldl (fun w i => w.modReg (rk page (r.base + r.stride * i)) fun v => v &&& ~~~(BitVec.ofNat 64 r.srst)) w) w

/-- A soft reset of a page. -/
def World.softReset (w : World) (page : Nat) : World :=
  match pageInfo page with
  | some (.tik, _) => if w.running then w
      else (w.clearCounts page).upd fun d => { d with bound := d.bound.map fun g => { g with fault := false } }
  | some (.flu, p) => (w.clearCounts page).flueStop p
  | some (.urk, p) =>
    let w := w.clearCounts page
    if w.portUp p then w.urkDrop p false else w.setRf (rk page 0x088) 9 0 0
  | some (.slm, n) => (w.clearCounts page).upd fun d => { d with slm := d.slm.modify n fun c => { c with hits := 0, misses := 0 } }
  | _ => w.clearCounts page

/-- A write of BLK_CTL. -/
def World.blkCtlWrite (w : World) (writer page : Nat) (v : U64) : World :=
  w.owned writer page 0x010 v fun w =>
    let w := if bit v 1 then w.softReset page else w
    (w.pageEn page (bit v 0)).modReg (rk page 0x010) fun x => setBit (setBit x 2 (bit v 2)) 3 (bit v 3)

/-! ### Registers whose write does more -/

/-- A write of WBX_XLT_ROOT j on W0: a cleared V acts only after an invalidation of the whole job (R39). -/
def World.rootWrite (w : World) (writer j : Nat) (v : U64) : World :=
  w.owned writer 0x120 (0x800 + 8 * j) v fun w =>
    let k := rk 0x120 (0x800 + 8 * j)
    let old := w.reg k
    let w := w.plainWrite 0x120 (0x800 + 8 * j) v
    if bit old 0 && !bit v 0 then
      w.upd fun d => { d with xlt := { d.xlt with roots := (j, old) :: d.xlt.roots.filter fun r => r.1 ≠ j } }
    else w

/-- A write of a window's GST_WIN_CTL: on an empty site EN is ignored (R411, R414). -/
def World.winWrite (w : World) (writer page off : Nat) (v : U64) : World :=
  w.owned writer page off v fun w =>
    w.plainWrite page off (if w.rf (rk page 0x080) 1 0 = 0 then setBit v 0 (bit (w.reg (rk page off)) 0) else v)

/-- A write of TIK_GQUERY_STATE clears FAULT of the group that the writer's copy of TIK_GQUERY selects (R216, R449). -/
def World.faultClear (w : World) (writer : Nat) (v : U64) : World :=
  w.owned writer 1 0x108 v fun w =>
    if bit v 20 then w.modGroup (fld (w.banked writer (rk 1 0x100)) 7 0) fun g => { g with fault := false } else w

/-- A write of a banked register changes the writer's copy (R449). -/
def World.bankWrite (w : World) (writer page off : Nat) (v : U64) : World :=
  match rowOf page off with
  | some r => w.setBanked writer (rk page off) (r.write (w.banked writer (rk page off)) v)
  | none => w

/-- A write of a block register. -/
def World.blockWrite (w : World) (writer : Nat) (b : Blk) (i page off : Nat) (v : U64) : World :=
  let plain := w.owned writer page off v fun w => w.plainWrite page off v
  let nothing := w.owned writer page off v id
  let setup := w.owned writer page off v fun w => w.setupWrite page off v
  if bankedReg b off then w.bankWrite writer page off v
  else match b with
  | .mgt => match off with
    | 0x408 => w.jobWrite writer v
    | 0x098 => w.limitWrite writer v
    | _ => plain
  | .tik => match off with
    | 0x080 => w.tikCtlWrite writer v
    | 0x088 => w.owned writer 1 off v fun w => w.periodWrite v
    | 0x090 => w.owned writer 1 off v fun w => w.slewWrite v
    | 0x0E0 => w.grpWrite writer v
    | 0x0F0 => w.tikJobWrite writer v
    | 0x108 => w.faultClear writer v
    | _ => plain
  | .snp => match off with
    | 0x080 => w.owned writer 2 off v fun w => w.plainWrite 2 off (if fld v 31 16 = 0 then setFld v 31 16 1 else v)
    | 0x0F0 => w.snpWrite writer v
    | 0x118 => w.noticeWrite writer v
    | _ => plain
  | .exd => if off = 0x088 then w.exdWrite writer v else plain
  | .chm => match off with
    | 0x080 => w.chmIdWrite writer v
    | 0x098 => w.rtCmd writer v
    | _ => plain
  | .chnH => if off = 0x080 then setup else if 0x800 ≤ off then w.epWrite writer i ((off - 0x800) / 8) v else plain
  | .chnM => if off = 0x098 then w.abortWrite writer v else plain
  | .gst =>
    if off = 0x088 then w.grstWrite writer i v
    else if off = 0x0A0 then w.fwClrWrite writer i v
    else if 0x100 ≤ off ∧ off % 32 = 0x10 then w.winWrite writer page off v
    else plain
  | .urk =>
    if off = 0x080 then w.urkCtlWrite writer i v
    else if off = 0x090 then w.ownWrite writer v
    else if off = 0x098 then w.jobsWrite writer i v
    else if 0x0A0 ≤ off ∧ off < 0x0C0 then w.stovesWrite writer i ((off - 0x0A0) / 8) v
    else if off = 0x0C0 then setup
    else if off = 0x0E0 then w.owned writer page off v fun w => w.plainWrite 0x10 off v
    else plain
  | .flu => if off = 0x080 then w.fluCtlWrite writer i v else plain
  | .blw =>
    if off = 0x090 then (if i = 0 then plain else nothing)
    else if off = 0x098 then (if i = 0 then w.wregWrite writer v else w)
    else plain
  | .wbx =>
    if off = 0x088 then w.locWrite writer i v
    else if off = 0x098 then setup
    else if 0x800 ≤ off ∧ off < 0xA00 then (if i = 0 then w.rootWrite writer ((off - 0x800) / 8) v else nothing)
    else if off = 0xA00 then (if i = 0 then w.invWrite writer v else nothing)
    else plain
  | .slm => if off = 0x080 then w.splitWrite writer i v else plain
  | .stv => if off = 0x0C0 then w.fslotClear writer page v else plain
  | _ => plain

/-- A write of a register of a populated page, but for the two that act on the whole block; a reserved offset ignores it. -/
def World.regWrite (w : World) (writer page off : Nat) (v : U64) : World :=
  match pageInfo page, rowOf page off with
  | some (b, i), some _ =>
    if off = 0x010 then w.blkCtlWrite writer page v
    else if off < 0x80 then w.owned writer page off v fun w => w.plainWrite page off v
    else match ringAt page off with
      | some (r, o) => w.ringWrite writer r o v
      | none => w.blockWrite writer b i page off v
  | _, _ => w

/-- A write of any register of a populated page. -/
def State.regWrite (s : State) (writer page off : Nat) (v : U64) : State :=
  if page = 0 ∧ off = 0x0A8 then s.resetWrite writer v
  else if page = 3 ∧ off = 0x0C0 then s.secWrite writer v
  else s.commit (s.toWorld.regWrite writer page off v)

/-! ### Register writes by hosts (R358, R361, R450) -/

/-- A host's write of one word of the register range: performed, sent to a guest, or of a page that is not there (R34, R438, R439). -/
def State.regDo (s : State) (port page off : Nat) (v : U64) : State :=
  if (pageInfo page).isSome then s.regWrite port page off v
  else s.commit (s.toWorld.act (hostAgent port) (writeP (regBase + 0x1000 * page + off) (wordBytes v)))

/-- A host's write of one word of the register range on a running device: by a port that is up, in the order of its requests (R351,
R363). -/
def State.hostRegWrite (s : State) (port page off : Nat) (v : U64) : State :=
  if !s.dev.live || decide (4 ≤ port) || !s.toWorld.portUp port || decide (0x1000 ≤ off) || off % 8 != 0 then s
  else if s.toWorld.portWaits port then s.commit (s.toWorld.waitReg port page off v none)
  else s.regDo port page off v

def execRegisterWrite (port page off : Nat) (v : U64) (s : State) : Host.Outcome State Fault Refusal :=
  .next (s.hostRegWrite port page off v)

/-- A write of BLK_CTL that changes EN alone. -/
def execBlkCtlEn (port page : Nat) (on : Bool) (s : State) : Host.Outcome State Fault Refusal :=
  .next (s.hostRegWrite port page 0x010 (setBit (s.toWorld.reg (rk page 0x010)) 0 on))

/-- A write of BLK_CTL that sets SRST and changes nothing else. -/
def execSrst (port page : Nat) (s : State) : Host.Outcome State Fault Refusal :=
  .next (s.hostRegWrite port page 0x010 (setBit (s.toWorld.reg (rk page 0x010)) 1 true))

/-- The set-up registers of R455. -/
def setupReg (page off : Nat) : Bool :=
  match pageInfo page with
  | some (.wbx, _) => off == 0x098
  | some (.urk, _) => off == 0x0C0
  | some (.chnH, _) => off == 0x080
  | _ => false

def execRingSetupBase (port page off : Nat) (v : U64) (s : State) : Host.Outcome State Fault Refusal :=
  .next (if setupReg page off then s.hostRegWrite port page off v else s)

end Sys2Proof.Machine
end

