-- ==== Sys2Proof/Machine/HostMem.lean ====
section
/-! DEFINITION. Reads, writes and atomics at their homes: from the on-package network (R341, R344, R405, R454) and from hosts (R353,
R354, R358), with the snapshot rule for writers (R378) and the register pages they may reach. -/

namespace Sys2Proof.Machine

/-- Page and offset of an address of the register range (R438). -/
def pageOf (a : Nat) : Nat := (a - regBase) / 0x1000
def offOf (a : Nat) : Nat := (a - regBase) % 0x1000

/-- Whether an address lies on a populated page of the device's own blocks. -/
def World.onPage (w : World) (a : Nat) : Bool := w.place a == .page && (pageInfo (pageOf a)).isSome

/-- Whether the sender of a packet may reach register pages (R454): stoker firmware, or a guest through its port. -/
def reachesPages (src : Nat) : Bool := (decide (0x2000 ≤ src) && decide (src < 0x2010)) || src == 0x2038 || src == 0x2039

/-! ### The on-package network (R341, R344, R454) -/

/-- A packet arrives in its turn (R28): for a node that nobody uses it is discarded (R26); another is served. -/
def State.pkt (s : State) (p : NetPkt) (f : State → State) : Host.Outcome State Fault Refusal :=
  .next (
    if !s.dev.live || !s.toWorld.arrives (.net p) then s
    else
      let w := s.toWorld.takeNet (.net p)
      if nodeUsed p.dst then f (s.commit w) else s.commit (w.unusedNode p))

/-- RD: a register word, or memory. -/
def State.netRd (s : State) (p : NetPkt) : State :=
  let w := s.toWorld
  let a := p.a1.toNat
  if w.onPage a && reachesPages p.src && wordAccess a (rdBytes p) then
    s.commit (w.netReply p (netAnswer p 0x10 stOk false (wordBytes (w.regRead s.sec wInside (pageOf a) (offOf a)))))
  else match w.netRead p (rdBytes p) with
    | (some q, w) => s.commit (w.netReply p q)
    | (none, w) => s.commit (w.backNet (.net p))

def execRd (p : NetPkt) (s : State) : Host.Outcome State Fault Refusal := s.pkt p fun s => s.netRd p

/-- WR: a register word, or memory, where it may have to wait for its granule. -/
def State.netWr (s : State) (p : NetPkt) : State :=
  let w := s.toWorld
  let a := p.a1.toNat
  if w.onPage a && reachesPages p.src && wordAccess a p.payload.length then
    let s := s.regWrite wInside (pageOf a) (offOf a) (leWord p.payload)
    s.commit (s.toWorld.netReply p (netAnswer p 0x11 stOk false []))
  else match w.stallsAt a p.payload.length with
    | some g => s.commit (w.stall (.wr p) g)
    | none => s.commit (w.netStore p)

def execWr (p : NetPkt) (s : State) : Host.Outcome State Fault Refusal := s.pkt p fun s => s.netWr p

/-- ATOMIC. -/
def World.netAtom (w : World) (p : NetPkt) : World :=
  match w.stallsAt (p.a1.toNat / 8 * 8) 8 with
  | some g => w.stall (.atomic p) g
  | none => w.netModify p

def execAtomic (p : NetPkt) (s : State) : Host.Outcome State Fault Refusal :=
  s.pkt p fun s => s.commit (s.toWorld.netAtom p)

/-! ### Hosts (R353, R354, R358, R450) -/

/-- A packet that arrives on a port that is up; its bytes count. -/
def State.hostRx (s : State) (op : Nat) (m : UrkPkt) (f : State → State) : State :=
  let w := s.toWorld
  if m.port < 4 ∧ w.portUp m.port then f (s.commit (w.count (rk (urkPage m.port) 0x108) 63 0 (urkBytes op m))) else s

/-- A read that is not cacheable, of 8 bytes of a register page: performed when aligned, else ERR. -/
def State.pageRead (s : State) (m : UrkPkt) (nc : Bool) : State :=
  let w := s.toWorld
  s.commit (
    if wordAccess m.addr m.len then
      w.reply 0x20 m (wordBytes (w.regRead s.sec m.port (pageOf m.addr) (offOf m.addr))) false nc
    else w.reply 0x22 m [] false false)

/-- Whether a request waits behind its port's earlier ones (R363). -/
def State.behind (s : State) (m : UrkPkt) : Bool := m.srcid == 0 && s.toWorld.portWaits m.port

/-- A read by a host: before READY, of registers only (R450). -/
def State.hostRd (s : State) (op : Nat) (m : UrkPkt) : Host.Outcome State Fault Refusal :=
  let up := s.dev.pwr.supply == .on && !s.dev.pwr.reset && !s.dev.pwr.frozen
  let page := s.toWorld.onPage m.addr
  let range := s.toWorld.place m.addr == .page
  .next (
    if !up then s
    else s.hostRx op m fun s =>
      if page then
        if s.behind m then s.commit (s.toWorld.waitReg m.port (pageOf m.addr) (offOf m.addr) 0 (some (op, m)))
        else s.pageRead m (op != 3)
      else if !s.dev.live then s
      else if range && !wordAccess m.addr m.len then s.commit (s.toWorld.reply 0x22 m [] false false)
      else s.commit (s.toWorld.hostReq op m))

def execRdShared (m : UrkPkt) (s : State) : Host.Outcome State Fault Refusal := s.hostRd 1 m

def execRdOwn (m : UrkPkt) (s : State) : Host.Outcome State Fault Refusal := s.hostRd 2 m

def execRdUc (m : UrkPkt) (s : State) : Host.Outcome State Fault Refusal := s.hostRd 3 m

/-- The one aligned word that a WR_UC to the register range writes. -/
def maskedWord (m : UrkPkt) : Option (Nat × U64) :=
  match maskedBytes m with
  | [(a, bs)] => if wordAccess a bs.length then some (a, leWord bs) else none
  | _ => none

/-- A write by a packet of a word of a register page: acknowledged and performed. -/
def State.pageWrite (s : State) (m : UrkPkt) (page off : Nat) (v : U64) : State :=
  (s.commit (s.toWorld.reply 0x21 m [] false false)).regWrite m.port page off v

/-- A write by a host: of a register page, one aligned word, refused with ERR before READY. -/
def State.hostWr (s : State) (m : UrkPkt) : State :=
  let w := s.toWorld
  let err := s.commit (w.reply 0x22 m [] false false)
  if w.place m.addr == .page then
    match maskedWord m with
    | none => err
    | some (a, v) =>
      if !s.dev.live then err
      else if (pageInfo (pageOf a)).isSome then
        if s.behind m then s.commit (w.waitReg m.port (pageOf a) (offOf a) v (some (4, m)))
        else s.pageWrite m (pageOf a) (offOf a) v
      else s.commit (w.hostReq 4 m)
  else if !s.dev.live then s
  else s.commit (w.hostReq 4 m)

def execWrUc (m : UrkPkt) (s : State) : Host.Outcome State Fault Refusal :=
  let up := s.dev.pwr.supply == .on && !s.dev.pwr.reset && !s.dev.pwr.frozen
  .next (if up then s.hostRx 4 m fun s => s.hostWr m else s)

def execWb (m : UrkPkt) (s : State) : Host.Outcome State Fault Refusal := s.run fun w => w.urkRx 5 m fun w => w.hostReq 5 m

/-! ### Register writes that wait (R123, R126, R363) -/

/-- The register access of a key at the front of its port's requests that wait, if nothing holds that port (R363). -/
def World.regTurn (w : World) (key : Nat) : Option HomeWait :=
  (w.dev.urk.home.zipIdx.find? fun x => match x.1.req with
    | .reg port page off _ _ => rk page off == key && w.inOrder (w.dev.urk.home.take x.2) x.1
    | _ => false).map Prod.fst

/-- Perform a register access that has waited for its turn. -/
def State.regTaken (s : State) (h : HomeWait) : State :=
  let s := s.commit (s.toWorld.modHome fun q => q.erase h)
  let s := match h.req with
    | .reg _ page off v (some (4, m)) => s.pageWrite m page off v
    | .reg _ _ _ _ (some (op, m)) => s.pageRead m (op != 3)
    | .reg port page off v none => s.regDo port page off v
    | _ => s
  s.commit s.toWorld.pumpHome

/-- An access to a register that waits in its port's order and whose turn has come is performed; else the first held write to it is,
once its condition has ended, and the others stay, in order; while it must still be held nothing changes. -/
def State.releaseHeld (s : State) (key : Nat) : State :=
  match s.toWorld.regTurn key, s.dev.held.filter fun h => h.key == key with
  | some h, _ => s.regTaken h
  | none, [] => s
  | none, h :: rest =>
    let a := match h.sts with
      | some k => s.commit (s.toWorld.modReg k fun x => setBit x 0 true)
      | none => s
    let b := ({ a with dev := { a.dev with held := a.dev.held.filter fun x => x.key ≠ key } }).regWrite h.port h.page h.off h.val
    if b.dev.held.any fun x => x.key == key then s else { b with dev := { b.dev with held := b.dev.held ++ rest } }

def execHeldWriteRelease (key : Nat) (s : State) : Host.Outcome State Fault Refusal :=
  .next (if s.dev.live then s.releaseHeld key else s)

end Sys2Proof.Machine
end

