-- ==== Sys2Proof/Machine/Debug.lean ====
section
/-! DEFINITION. The debug port (R429, R430) and the management bus (R431). -/

namespace Sys2Proof.Machine

/-! ### The debug port (R429) -/

/-- Whether the TAP operates: powered, out of reset, TRST_N high. -/
def Dev.tapOn (d : Dev) : Bool := d.pwr.supply == .on && !d.pwr.reset && !d.pwr.trst

def State.modPwr (s : State) (f : Pwr → Pwr) : State := { s with dev := { s.dev with pwr := f s.dev.pwr } }

/-- An instruction, whose code of R429 the instruction register then holds, and its data scan; every instruction but BYPASS and IDCODE
sets SEC_CONFIG.DBG_USED. -/
def State.scan (s : State) (code : Nat) (used : Bool) (f : State → State) : Host.Outcome State Fault Refusal :=
  .next (
    if !s.dev.tapOn then s
    else
      let s := s.modPwr fun p => { p with ir := code }
      f (if used then s.commit (s.toWorld.setRf secConfig 2 2 1) else s))

def State.tdo (s : State) (v : Option Nat) : State := s.modPwr fun p => { p with tdo := v }

/-- What boundary-scan cells capture: the spec gives no cell order. -/
def State.capturePins (s : State) : State :=
  let (k, w) := s.toWorld.draw
  (s.commit w).tdo (some (Config.freeWord k).toNat)

def execExtest (v : Nat) (s : State) : Host.Outcome State Fault Refusal :=
  s.scan 0x00 true fun s => s.capturePins.modPwr fun p => { p with bsr := v }

def execIdcode (s : State) : Host.Outcome State Fault Refusal := s.scan 0x01 false fun s => s.tdo (some 0x10820001)

def execSample (s : State) : Host.Outcome State Fault Refusal := s.scan 0x02 true State.capturePins

def execPreload (v : Nat) (s : State) : Host.Outcome State Fault Refusal :=
  s.scan 0x03 true fun s => s.modPwr fun p => { p with bsr := v }

/-- DIESTAT: a nibble for each site, and which guest sites are populated. -/
def Dev.dieStat (d : Dev) : Nat :=
  let there := fun (g : Nat) => fld (mapGet d.regs (regReset (rk (8 + g) 0x080)) (rk (8 + g) 0x080)) 1 0 != 0
  (List.range 15).foldl (fun a i => a + (if 13 ≤ i ∧ !there (i - 13) then 0 else d.pwr.die.getD i 0 % 16) * 2 ^ (4 * i)) 0 + (there 0).toNat * 2 ^ 60 + (there 1).toNat * 2 ^ 61

def execDiestat (s : State) : Host.Outcome State Fault Refusal := s.scan 0x10 true fun s => s.tdo (some s.dev.dieStat)

/-- DBGADDR: an 8-byte aligned address in [47:0], WRITE in [48]. -/
def execDbgaddr (v : U64) (s : State) : Host.Outcome State Fault Refusal :=
  s.scan 0x20 true fun s => s.modPwr fun p => { p with dbgAddr := BitVec.ofNat 64 (fld v 48 3 * 8) }

/-- One bit passes through the bypass register. -/
def execBypass (b : Bool) (s : State) : Host.Outcome State Fault Refusal :=
  s.scan 0xFF false fun s => s.modPwr fun p => { p with tdo := some p.byp.toNat, byp := b }

/-- TRST_N low puts the TAP in Test-Logic-Reset, which selects IDCODE (IEEE 1149.1; log entry 8). -/
def execTrstN (high : Bool) (s : State) : Host.Outcome State Fault Refusal :=
  .next (s.modPwr fun p => if high then { p with trst := false } else { p with trst := true, ir := 0x01 })

/-! ### DBGDATA (R430) -/

/-- The debug port as an agent. -/
def debugAgent : Agent := { mantel 0x8C with regs := true }

/-- A word that a stopped device still holds: its value and poison, or nothing (R430). -/
def State.storedWord (s : State) (a : Nat) : U64 × Bool :=
  let w := s.toWorld
  match w.place a with
  | .hbm | .slm _ | .scratch _ => (w.word a, w.poisoned (granOf a))
  | .page => if (pageInfo (pageOf a)).isSome then (w.regRead s.sec wDebug (pageOf a) (offOf a), false) else (0, true)
  | _ => (0, true)

/-- Show a word read, and advance the address. -/
def State.dbgShow (s : State) (v : U64) (poison : Bool) : State :=
  s.modPwr fun p => { p with tdo := some (v.toNat + poison.toNat * 2 ^ 64), dbgAddr := setFld p.dbgAddr 47 0 (fld p.dbgAddr 47 0 + 8) }

/-- A read of a running device; one that a line must be asked for answers nothing yet. -/
def State.dbgRead (s : State) (a : Nat) : State :=
  let w := s.toWorld
  if w.onPage a then s.dbgShow (w.regRead s.sec wDebug (pageOf a) (offOf a)) false
  else match (readP a 8).run (Run.init w debugAgent) with
    | .ok ((bs, ps), r) => (s.commit r.w).dbgShow (leWord bs) (!ps.isEmpty)
    | .error x => (s.commit (w.ask debugAgent x)).tdo none

/-- A write of a running device. -/
def State.dbgWrite (s : State) (a : Nat) (v : U64) : State :=
  let w := s.toWorld
  let next := fun (s : State) => (s.tdo none).modPwr fun p => { p with dbgAddr := setFld p.dbgAddr 47 0 (fld p.dbgAddr 47 0 + 8) }
  if w.onPage a then next (s.regWrite wDebug (pageOf a) (offOf a) v)
  else match (writeP a (wordBytes v)).run (Run.init w debugAgent) with
    | .ok (_, r) => next (s.commit r.w)
    | .error x => (s.commit (w.ask debugAgent x)).tdo none

/-- One Update-DR of DBGDATA. -/
def State.dbgData (s : State) (v : U64) : State :=
  let a := fld s.dev.pwr.dbgAddr 47 0
  let wr := bit s.dev.pwr.dbgAddr 48
  if s.dev.live then (if wr then s.dbgWrite a v else s.dbgRead a)
  else if wr then (s.tdo none).modPwr fun p => { p with dbgAddr := setFld p.dbgAddr 47 0 (a + 8) }
  else
    let r := s.storedWord a
    s.dbgShow r.1 r.2

def execDbgdata (v : U64) (s : State) : Host.Outcome State Fault Refusal := s.scan 0x21 true fun s => s.dbgData v

/-! ### The management bus (R431) -/

/-- Whether the target answers: from the start of bring-up step 3 until reset, freeze or power loss. -/
def Dev.smbOn (d : Dev) : Bool :=
  let ph := fld d.sts 11 8
  d.pwr.supply == .on && !d.pwr.reset && !d.pwr.frozen && decide (3 ≤ ph) && !(ph == 7 && fld d.sts 27 20 == 1)

/-- A transaction: its answer, or none when the address is not acknowledged. -/
def State.smbus (s : State) (v : State → Nat) : Host.Outcome State Fault Refusal :=
  .next (s.modPwr fun p => { p with smb := if s.dev.smbOn then some (v s) else none })

def State.mgtField (s : State) (off hi lo : Nat) : Nat := s.toWorld.rf (rk 0 off) hi lo

def execSmbReadDevSts (s : State) : Host.Outcome State Fault Refusal := s.smbus fun s => s.mgtField 0x080 15 0
def execSmbReadTemp (s : State) : Host.Outcome State Fault Refusal := s.smbus fun s => s.mgtField 0x088 15 0
def execSmbReadPin (s : State) : Host.Outcome State Fault Refusal := s.smbus fun s => s.mgtField 0x090 15 0
def execSmbReadVin (s : State) : Host.Outcome State Fault Refusal := s.smbus fun s => s.mgtField 0x090 47 32
def execSmbReadIin (s : State) : Host.Outcome State Fault Refusal := s.smbus fun s => s.mgtField 0x090 63 48
def execSmbReadThrottle (s : State) : Host.Outcome State Fault Refusal := s.smbus fun s => s.mgtField 0x0A0 15 0
def execSmbReadPwrLimit (s : State) : Host.Outcome State Fault Refusal := s.smbus fun s => s.mgtField 0x098 15 0

/-- The block read returns SEC_SERIAL, as a little-endian number. -/
def execSmbReadSerial (s : State) : Host.Outcome State Fault Refusal := s.smbus fun s => s.sec.serial.toNat

/-- A write of the limit takes the effect of an owner write (R424). -/
def execSmbWritePwrLimit (v : Nat) (s : State) : Host.Outcome State Fault Refusal :=
  .next (if s.dev.smbOn then (s.commit (s.toWorld.setLimit (v % 2 ^ 16))).modPwr fun p => { p with smb := some 0 }
    else s.modPwr fun p => { p with smb := none })

end Sys2Proof.Machine
end

