-- ==== Sys2Proof/Machine/Dispatch.lean ====
section
/-! DEFINITION. One arm per command of the table: a direct call of its meaning. -/

namespace Sys2Proof.Machine

/-- The meaning of a command: its effect on everything but the queue. -/
def exec (i : Instr) (s : State) : Host.Outcome State Fault Refusal :=
  match i with
  | .nop c => Sys2Proof.Machine.execNop c s
  | .writeLine c => Sys2Proof.Machine.execWriteLine c s
  | .waitLine c => Sys2Proof.Machine.execWaitLine c s
  | .waitLineMet r => Sys2Proof.Machine.execWaitLineMet r s
  | .waitLineTimeout r => Sys2Proof.Machine.execWaitLineTimeout r s
  | .tileWs c => Sys2Proof.Machine.execTileWs c s
  | .tileOs c => Sys2Proof.Machine.execTileOs c s
  | .tileAdapt c => Sys2Proof.Machine.execTileAdapt c s
  | .fireguardReplay r => Sys2Proof.Machine.execFireguardReplay r s
  | .fgOver r => Sys2Proof.Machine.execFgOver r s
  | .vecCopy c => Sys2Proof.Machine.execVecCopy c s
  | .add c => Sys2Proof.Machine.execAdd c s
  | .sub c => Sys2Proof.Machine.execSub c s
  | .mul c => Sys2Proof.Machine.execMul c s
  | .fma c => Sys2Proof.Machine.execFma c s
  | .max c => Sys2Proof.Machine.execMax c s
  | .min c => Sys2Proof.Machine.execMin c s
  | .abs c => Sys2Proof.Machine.execAbs c s
  | .neg c => Sys2Proof.Machine.execNeg c s
  | .scale c => Sys2Proof.Machine.execScale c s
  | .div c => Sys2Proof.Machine.execDiv c s
  | .sqrt c => Sys2Proof.Machine.execSqrt c s
  | .rsqrt c => Sys2Proof.Machine.execRsqrt c s
  | .recip c => Sys2Proof.Machine.execRecip c s
  | .exp2 c => Sys2Proof.Machine.execExp2 c s
  | .log2 c => Sys2Proof.Machine.execLog2 c s
  | .fn c => Sys2Proof.Machine.execFn c s
  | .fnDeriv c => Sys2Proof.Machine.execFnDeriv c s
  | .rowSum c => Sys2Proof.Machine.execRowSum c s
  | .rowMax c => Sys2Proof.Machine.execRowMax c s
  | .rowSumSq c => Sys2Proof.Machine.execRowSumSq c s
  | .softmax c => Sys2Proof.Machine.execSoftmax c s
  | .rmsNorm c => Sys2Proof.Machine.execRmsNorm c s
  | .layerNorm c => Sys2Proof.Machine.execLayerNorm c s
  | .topK c => Sys2Proof.Machine.execTopK c s
  | .optSlice c => Sys2Proof.Machine.execOptSlice c s
  | .optCommit c => Sys2Proof.Machine.execOptCommit c s
  | .optOpen c => Sys2Proof.Machine.execOptOpen c s
  | .move c => Sys2Proof.Machine.execMove c s
  | .fslot c => Sys2Proof.Machine.execFslot c s
  | .chnPost c => Sys2Proof.Machine.execChnPost c s
  | .chnOpen c => Sys2Proof.Machine.execChnOpen c s
  | .chnSend c => Sys2Proof.Machine.execChnSend c s
  | .chnClose c => Sys2Proof.Machine.execChnClose c s
  | .chnWithdraw c => Sys2Proof.Machine.execChnWithdraw c s
  | .attnFwd c => Sys2Proof.Machine.execAttnFwd c s
  | .attnBwd c => Sys2Proof.Machine.execAttnBwd c s
  | .attnFin c => Sys2Proof.Machine.execAttnFin c s
  | .attnDelta c => Sys2Proof.Machine.execAttnDelta c s
  | .attnAppend c => Sys2Proof.Machine.execAttnAppend c s
  | .attnSeal c => Sys2Proof.Machine.execAttnSeal c s
  | .updArm c => Sys2Proof.Machine.execUpdArm c s
  | .regen c => Sys2Proof.Machine.execRegen c s
  | .copy c => Sys2Proof.Machine.execCopy c s
  | .fill c => Sys2Proof.Machine.execFill c s
  | .copy2d c => Sys2Proof.Machine.execCopy2d c s
  | .chmBucket c => Sys2Proof.Machine.execChmBucket c s
  | .chmContrib c => Sys2Proof.Machine.execChmContrib c s
  | .chmEmpty c => Sys2Proof.Machine.execChmEmpty c s
  | .chmMcast c => Sys2Proof.Machine.execChmMcast c s
  | .chmRread c => Sys2Proof.Machine.execChmRread c s
  | .chmPermute c => Sys2Proof.Machine.execChmPermute c s
  | .rtArm c => Sys2Proof.Machine.execRtArm c s
  | .rtDisarm c => Sys2Proof.Machine.execRtDisarm c s
  | .kvArm c => Sys2Proof.Machine.execKvArm c s
  | .kvDisarm c => Sys2Proof.Machine.execKvDisarm c s
  | .routingPass arm => Sys2Proof.Machine.execRoutingPass arm s
  | .expertFetchDone arm expert => Sys2Proof.Machine.execExpertFetchDone arm expert s
  | .cacheRelease arm entry => Sys2Proof.Machine.execCacheRelease arm entry s
  | .countBankSend arm step => Sys2Proof.Machine.execCountBankSend arm step s
  | .walkPass arm => Sys2Proof.Machine.execWalkPass arm s
  | .commandFetch r => Sys2Proof.Machine.execCommandFetch r s
  | .watchedLineWake r => Sys2Proof.Machine.execWatchedLineWake r s
  | .completionRecord r => Sys2Proof.Machine.execCompletionRecord r s
  | .ringBase port r v => Sys2Proof.Machine.execRingBase port r v s
  | .ringCtl port r v => Sys2Proof.Machine.execRingCtl port r v s
  | .heldWriteRelease key => Sys2Proof.Machine.execHeldWriteRelease key s
  | .preempt stove => Sys2Proof.Machine.execPreempt stove s
  | .preemptSave stove => Sys2Proof.Machine.execPreemptSave stove s
  | .preemptDeadline stove => Sys2Proof.Machine.execPreemptDeadline stove s
  | .preemptRestore stove => Sys2Proof.Machine.execPreemptRestore stove s
  | .arbWatchdog page inst requester ring => Sys2Proof.Machine.execArbWatchdog page inst requester ring s
  | .arbStarve page inst requester => Sys2Proof.Machine.execArbStarve page inst requester s
  | .fslotClr port stove v => Sys2Proof.Machine.execFslotClr port stove v s
  | .healthEval job step => Sys2Proof.Machine.execHealthEval job step s
  | .healthBankZero job step => Sys2Proof.Machine.execHealthBankZero job step s
  | .create port job => Sys2Proof.Machine.execCreate port job s
  | .destroy port job => Sys2Proof.Machine.execDestroy port job s
  | .wbxXltInv port v => Sys2Proof.Machine.execWbxXltInv port v s
  | .draughtSync t => Sys2Proof.Machine.execDraughtSync t s
  | .run port on => Sys2Proof.Machine.execRun port on s
  | .syncEn port on => Sys2Proof.Machine.execSyncEn port on s
  | .relock port => Sys2Proof.Machine.execRelock port s
  | .tikPeriod port v => Sys2Proof.Machine.execTikPeriod port v s
  | .tikSlew port v => Sys2Proof.Machine.execTikSlew port v s
  | .bind port group => Sys2Proof.Machine.execBind port group s
  | .unbind port group => Sys2Proof.Machine.execUnbind port group s
  | .start port job tick => Sys2Proof.Machine.execStart port job tick s
  | .stop port job step => Sys2Proof.Machine.execStop port job step s
  | .stopComplete job => Sys2Proof.Machine.execStopComplete job s
  | .slotStart group stove => Sys2Proof.Machine.execSlotStart group stove s
  | .mbqEntryRetire group => Sys2Proof.Machine.execMbqEntryRetire group s
  | .slipLimitFault group => Sys2Proof.Machine.execSlipLimitFault group s
  | .chnEp port die e v => Sys2Proof.Machine.execChnEp port die e v s
  | .chnFabort port ctx => Sys2Proof.Machine.execChnFabort port ctx s
  | .chnOpenPkt m => Sys2Proof.Machine.execChnOpenPkt m s
  | .chnAccept m => Sys2Proof.Machine.execChnAccept m s
  | .chnRefuse ctx reason => Sys2Proof.Machine.execChnRefuse ctx reason s
  | .openTimeout ctx => Sys2Proof.Machine.execOpenTimeout ctx s
  | .chnData m => Sys2Proof.Machine.execChnData m s
  | .chnTail ctx => Sys2Proof.Machine.execChnTail ctx s
  | .headLineWrite ctx => Sys2Proof.Machine.execHeadLineWrite ctx s
  | .chnCredit ctx head => Sys2Proof.Machine.execChnCredit ctx head s
  | .chnClosePkt ctx reason => Sys2Proof.Machine.execChnClosePkt ctx reason s
  | .ashSpill ctx => Sys2Proof.Machine.execAshSpill ctx s
  | .ashDrain ctx => Sys2Proof.Machine.execAshDrain ctx s
  | .chnStall ctx => Sys2Proof.Machine.execChnStall ctx s
  | .fluCtl port p v => Sys2Proof.Machine.execFluCtl port p v s
  | .fluePortUp p peer pport => Sys2Proof.Machine.execFluePortUp p peer pport s
  | .flueFrame p seq good fec => Sys2Proof.Machine.execFlueFrame p seq good fec s
  | .flueNak p seq => Sys2Proof.Machine.execFlueNak p seq s
  | .fluePortDown p => Sys2Proof.Machine.execFluePortDown p s
  | .chmId port v => Sys2Proof.Machine.execChmId port v s
  | .routeLoad port => Sys2Proof.Machine.execRouteLoad port s
  | .fabricPacket p h m => Sys2Proof.Machine.execFabricPacket p h m s
  | .contrib m => Sys2Proof.Machine.execContrib m s
  | .unitEarlyClose tag step unit => Sys2Proof.Machine.execUnitEarlyClose tag step unit s
  | .closeTick tag step => Sys2Proof.Machine.execCloseTick tag step s
  | .localBlwDelivery tag step unit => Sys2Proof.Machine.execLocalBlwDelivery tag step unit s
  | .closeSummarySend tag step => Sys2Proof.Machine.execCloseSummarySend tag step s
  | .closeSummary m => Sys2Proof.Machine.execCloseSummary m s
  | .summaryTimeout tag step => Sys2Proof.Machine.execSummaryTimeout tag step s
  | .arrivalForward tag step chunk => Sys2Proof.Machine.execArrivalForward tag step chunk s
  | .arrivalClose tag step => Sys2Proof.Machine.execArrivalClose tag step s
  | .mcastReceive m => Sys2Proof.Machine.execMcastReceive m s
  | .gatherSlice m => Sys2Proof.Machine.execGatherSlice m s
  | .rreadRequest m => Sys2Proof.Machine.execRreadRequest m s
  | .permutePiece m => Sys2Proof.Machine.execPermutePiece m s
  | .permuteDone round dev => Sys2Proof.Machine.execPermuteDone round dev s
  | .wregLoad port index => Sys2Proof.Machine.execWregLoad port index s
  | .wregUnload port index => Sys2Proof.Machine.execWregUnload port index s
  | .blwSliceUpdate die => Sys2Proof.Machine.execBlwSliceUpdate die s
  | .regionCommit index => Sys2Proof.Machine.execRegionCommit index s
  | .gatedRead g => Sys2Proof.Machine.execGatedRead g s
  | .parkedReadRelease die => Sys2Proof.Machine.execParkedReadRelease die s
  | .versionWaitTimeout die => Sys2Proof.Machine.execVersionWaitTimeout die s
  | .readerRelease index slot => Sys2Proof.Machine.execReaderRelease index slot s
  | .exdLoad port first count => Sys2Proof.Machine.execExdLoad port first count s
  | .exdClear port first count => Sys2Proof.Machine.execExdClear port first count s
  | .rd p => Sys2Proof.Machine.execRd p s
  | .wr p => Sys2Proof.Machine.execWr p s
  | .atomic p => Sys2Proof.Machine.execAtomic p s
  | .rdRsp p => Sys2Proof.Machine.execRdRsp p s
  | .wrAck p => Sys2Proof.Machine.execWrAck p s
  | .event e => Sys2Proof.Machine.execEvent e s
  | .wbxHbmLoc port inst v => Sys2Proof.Machine.execWbxHbmLoc port inst v s
  | .slmSplit port slice v => Sys2Proof.Machine.execSlmSplit port slice v s
  | .slmSplitDone slice => Sys2Proof.Machine.execSlmSplitDone slice s
  | .scrubRead pa found => Sys2Proof.Machine.execScrubRead pa found s
  | .ringSetupBase port page off v => Sys2Proof.Machine.execRingSetupBase port page off v s
  | .urkPortUp p => Sys2Proof.Machine.execUrkPortUp p s
  | .urkPortDown p => Sys2Proof.Machine.execUrkPortDown p s
  | .urkCtl port p v => Sys2Proof.Machine.execUrkCtl port p v s
  | .rdShared m => Sys2Proof.Machine.execRdShared m s
  | .rdOwn m => Sys2Proof.Machine.execRdOwn m s
  | .rdUc m => Sys2Proof.Machine.execRdUc m s
  | .wrUc m => Sys2Proof.Machine.execWrUc m s
  | .wb m => Sys2Proof.Machine.execWb m s
  | .evict m => Sys2Proof.Machine.execEvict m s
  | .foreignWr m => Sys2Proof.Machine.execForeignWr m s
  | .streamRd m => Sys2Proof.Machine.execStreamRd m s
  | .flushRd m => Sys2Proof.Machine.execFlushRd m s
  | .snpInv m => Sys2Proof.Machine.execSnpInv m s
  | .snpShare m => Sys2Proof.Machine.execSnpShare m s
  | .snpAck m => Sys2Proof.Machine.execSnpAck m s
  | .data m => Sys2Proof.Machine.execData m s
  | .ack m => Sys2Proof.Machine.execAck m s
  | .err m => Sys2Proof.Machine.execErr m s
  | .snoopTimeout p => Sys2Proof.Machine.execSnoopTimeout p s
  | .claim port => Sys2Proof.Machine.execClaim port s
  | .release port => Sys2Proof.Machine.execRelease port s
  | .urkJobs port p v => Sys2Proof.Machine.execUrkJobs port p v s
  | .urkStoves port p w v => Sys2Proof.Machine.execUrkStoves port p w v s
  | .registerWrite port page off v => Sys2Proof.Machine.execRegisterWrite port page off v s
  | .blkCtlEn port page on => Sys2Proof.Machine.execBlkCtlEn port page on s
  | .srst port page => Sys2Proof.Machine.execSrst port page s
  | .loadSet port => Sys2Proof.Machine.execLoadSet port s
  | .checkpoint port => Sys2Proof.Machine.execCheckpoint port s
  | .rollback port => Sys2Proof.Machine.execRollback port s
  | .ship port dev => Sys2Proof.Machine.execShip port dev s
  | .recv port => Sys2Proof.Machine.execRecv port s
  | .restore port slot => Sys2Proof.Machine.execRestore port slot s
  | .abandon port => Sys2Proof.Machine.execAbandon port s
  | .emberDoneMsg m => Sys2Proof.Machine.execEmberDoneMsg m s
  | .noticeN t => Sys2Proof.Machine.execNoticeN t s
  | .snpNotice port => Sys2Proof.Machine.execSnpNotice port s
  | .haltMessage tick dev => Sys2Proof.Machine.execHaltMessage tick dev s
  | .quote port => Sys2Proof.Machine.execQuote port s
  | .cert port => Sys2Proof.Machine.execCert port s
  | .log port => Sys2Proof.Machine.execLog port s
  | .update port => Sys2Proof.Machine.execUpdate port s
  | .commitSvn port => Sys2Proof.Machine.execCommitSvn port s
  | .guestPacket site p => Sys2Proof.Machine.execGuestPacket site p s
  | .guestFlit site bytes good => Sys2Proof.Machine.execGuestFlit site bytes good s
  | .guestIsolate site => Sys2Proof.Machine.execGuestIsolate site s
  | .grst port site => Sys2Proof.Machine.execGrst port site s
  | .gstFwClr port site => Sys2Proof.Machine.execGstFwClr port site s
  | .powerOn mv => Sys2Proof.Machine.execPowerOn mv s
  | .powerOff mv => Sys2Proof.Machine.execPowerOff mv s
  | .resetN high => Sys2Proof.Machine.execResetN high s
  | .bringUp b => Sys2Proof.Machine.execBringUp b s
  | .mgtReset port => Sys2Proof.Machine.execMgtReset port s
  | .freezeN t => Sys2Proof.Machine.execFreezeN t s
  | .d2dLinkFail page link => Sys2Proof.Machine.execD2dLinkFail page link s
  | .throttleUpdate x => Sys2Proof.Machine.execThrottleUpdate x s
  | .tempThreshold t => Sys2Proof.Machine.execTempThreshold t s
  | .thermalTrip temp => Sys2Proof.Machine.execThermalTrip temp s
  | .mgtPwrLimit port v => Sys2Proof.Machine.execMgtPwrLimit port v s
  | .extest v => Sys2Proof.Machine.execExtest v s
  | .preload v => Sys2Proof.Machine.execPreload v s
  | .dbgaddr v => Sys2Proof.Machine.execDbgaddr v s
  | .dbgdata v => Sys2Proof.Machine.execDbgdata v s
  | .bypass bit => Sys2Proof.Machine.execBypass bit s
  | .smbWritePwrLimit w => Sys2Proof.Machine.execSmbWritePwrLimit w s
  | .urkLinkFrame p seq good bytes => Sys2Proof.Machine.execUrkLinkFrame p seq good bytes s
  | .urkLinkNak p seq => Sys2Proof.Machine.execUrkLinkNak p seq s
  | .urkTrainingFail p lanes => Sys2Proof.Machine.execUrkTrainingFail p lanes s
  | .flueLaneFail p lane => Sys2Proof.Machine.execFlueLaneFail p lane s
  | .mcastMemResult m => Sys2Proof.Machine.execMcastMemResult m s
  | .arrivalPartial m => Sys2Proof.Machine.execArrivalPartial m s
  | .urkReservedOp p op => Sys2Proof.Machine.execUrkReservedOp p op s
  | .trstN high => Sys2Proof.Machine.execTrstN high s
  | .xltInvDone => Sys2Proof.Machine.execXltInvDone s
  | .tickBoundary => Sys2Proof.Machine.execTickBoundary s
  | .boundaryAnnounce => Sys2Proof.Machine.execBoundaryAnnounce s
  | .syncSlip => Sys2Proof.Machine.execSyncSlip s
  | .permuteTimeout => Sys2Proof.Machine.execPermuteTimeout s
  | .runningCut => Sys2Proof.Machine.execRunningCut s
  | .emberCopy => Sys2Proof.Machine.execEmberCopy s
  | .granuleCapture => Sys2Proof.Machine.execGranuleCapture s
  | .snapshotStallLimit => Sys2Proof.Machine.execSnapshotStallLimit s
  | .emberCopyComplete => Sys2Proof.Machine.execEmberCopyComplete s
  | .ckptFlushReturn => Sys2Proof.Machine.execCkptFlushReturn s
  | .haltBoundary => Sys2Proof.Machine.execHaltBoundary s
  | .freezeTime => Sys2Proof.Machine.execFreezeTime s
  | .idcode => Sys2Proof.Machine.execIdcode s
  | .sample => Sys2Proof.Machine.execSample s
  | .diestat => Sys2Proof.Machine.execDiestat s
  | .smbReadDevSts => Sys2Proof.Machine.execSmbReadDevSts s
  | .smbReadTemp => Sys2Proof.Machine.execSmbReadTemp s
  | .smbReadPin => Sys2Proof.Machine.execSmbReadPin s
  | .smbReadVin => Sys2Proof.Machine.execSmbReadVin s
  | .smbReadIin => Sys2Proof.Machine.execSmbReadIin s
  | .smbReadThrottle => Sys2Proof.Machine.execSmbReadThrottle s
  | .smbReadPwrLimit => Sys2Proof.Machine.execSmbReadPwrLimit s
  | .smbReadSerial => Sys2Proof.Machine.execSmbReadSerial s

end Sys2Proof.Machine
end

