-- ==== Sys2Proof/Machine/Step.lean ====
section
/-! DEFINITION. One step: the command at the front of the queue, or an idle core cycle. -/

namespace Sys2Proof.Machine

/-- The block idles for one core cycle: GTIME counts while the device runs (R15, R40, R425), and a memory error may arise. DESIGN
CHOICE, log entries 2 and 76. -/
def State.idle (s : State) : State :=
  if s.dev.live then s.commit s.toWorld.idleCycle else s

/-- Take the command at the front of the queue and execute it with the queue's rest; on an empty queue the block
idles. -/
def step (s : State) : Host.Outcome State Fault Refusal :=
  match s.pending with
  | [] => .next s.idle
  | c :: rest => exec c { s with pending := rest }

/-- The state with the command a table word spells in front of its queue: unchanged, as no word spells one. -/
def State.withFetchWord (s : State) (nbits w : Nat) : State :=
  match decodeTableWord nbits w with
  | some c => { s with pending := c :: s.pending }
  | none => s

end Sys2Proof.Machine
end

