-- ==== Sys2Proof/Safety.lean ====
section
/-! DEFINITION. What a safe state is, and the terms the statements are made in: reading a state, when a command may start and
how its computation ends, what a step leaves as it was, and who may write which register. -/

namespace Sys2Proof.Machine

/-! ### Safe states -/

/-- The state every step keeps: memory in its canonical form. -/
def State.Inv (s : State) : Prop := s.mem.wf = true

/-- MEAS is the chain of the measurement log (R399). -/
def State.Measured (s : State) : Prop := s.sec.meas = measOf s.sec.log

/-! ### Reading a state -/

/-- The stored value of a register, and bits [hi:lo] of it. -/
def State.reg (s : State) (k : Nat) : U64 := mapGet s.dev.regs (regReset k) k
def State.rf (s : State) (k hi lo : Nat) : Nat := fld (s.reg k) hi lo

/-- The byte at a physical address, and whether a granule is poisoned. -/
def State.byteAt (s : State) (a : Nat) : Byte := cellGet s.mem.cells a
def State.poisonAt (s : State) (g : Nat) : Bool := s.mem.poison.contains g

/-- The command with a count in a ring. -/
def State.entry (s : State) (r : RingId) (idx : Nat) : Option Entry :=
  (s.toWorld.ringRun r).entries.find? fun e => e.idx == idx

/-- A command of a ring has completed with a status, its record not yet written. -/
def State.doneIn (s : State) (r : RingId) (idx status : Nat) : Prop :=
  ∃ e, s.entry r idx = some e ∧ e.phase = .done ∧ e.status = status

/-! ### What stays as it was -/

/-- Only registers differ, and none but those named. -/
def State.OnlyRegs (s t : State) (ks : List Nat) : Prop :=
  ({ t with dev := { t.dev with regs := s.dev.regs } } : State) = s ∧ ∀ k, k ∉ ks → t.reg k = s.reg k

/-- Memory, the queue and the security state are as before. -/
def State.SameStore (s t : State) : Prop := t.mem = s.mem ∧ t.pending = s.pending ∧ t.sec = s.sec

/-! ### Commands of engines -/

/-- A command of a running device's ring is the next to start: it stands first among those not started, nothing holds it
back (R84, R117, R130, R133 to R137), and its opcode, header and job are admitted (R131, R132). -/
def State.starts (s : State) (c : Cmd) (e : Entry) : Bool :=
  s.dev.live && ringExists c.ring && (s.toWorld.ringRun c.ring).entries.find? Entry.unstarted == some e &&
    e.desc == c.desc && !s.toWorld.holds c.ring e && (s.toWorld.refusal c.ring c.desc).isNone

/-- Where a command's computation begins: its own ring, job and counters; a step that it belongs to is evaluated again (R81). -/
def State.begin (s : State) (c : Cmd) (e : Entry) : Run :=
  { Run.init (s.toWorld.reopenStep (jobOf c.desc) (stepOf c.desc)) (agentOf c.ring e) with cnt := e.counts, stamp := e.stamp }

/-- A command's computation from the state it finds. -/
def State.compute (s : State) (c : Cmd) (e : Entry) (body : Desc → Act Fin) : Except Stop (Fin × Run) :=
  (body c.desc).run (s.begin c e)

/-- A computation ends as `fin` and leaves `r`; nothing it reads is poisoned, nothing it accesses is denied or lost, and no
earlier command that still waits stands in its way (R117); the command still stands in its ring, and no host holds the live mask of a
command of its ring (R136). -/
def State.computes (s : State) (c : Cmd) (e : Entry) (body : Desc → Act Fin) (fin : Fin) (r : Run) : Prop :=
  s.compute c e body = .ok (fin, r) ∧ r.pois = none ∧ r.denied = false ∧ r.lost = false ∧
    ((ringStove c.ring).isSome && clash (s.toWorld.ringRun c.ring).entries e.idx r.rd r.wr) = false ∧
    ((r.w.ringRun c.ring).entries.find? fun x => x.idx == e.idx).isSome = true ∧
    ((ringStove c.ring).isSome = true → ∀ q ∈ (r.w.ringRun c.ring).entries,
      r.w.entryAway (r.w.maskEntry (jobOf q.desc) (liveOf q.desc)) = none)

/-- The commands of a row of the table: the one that may start, whose operands its computation accepts, completes with OK in
one step; memory and every unit's own state are what the computation has made of them (but for the function slots that waited to be
cleared, R108). -/
def Completes (row : Cmd → Instr) (is : Desc → Prop) (body : Desc → Act Fin) : Prop :=
  ∀ (s : State) (c : Cmd) (e : Entry) (r : Run), s.starts c e = true → is c.desc → s.computes c e body (.done stOk) r →
    ∃ t, exec (row c) s = .next t ∧ t.doneIn c.ring e.idx stOk ∧ t.mem = memCommit s.mem r.w.log ∧
      t.pending = s.pending ∧ t.sec = s.sec ∧
      { t.dev with regs := r.w.dev.regs, rings := r.w.dev.rings, stoves := r.w.dev.stoves } = r.w.dev ∧
      ((∀ k, (r.w.stove k).clr = []) → t.dev.stoves = r.w.dev.stoves)

/-- The same for a command whose own effect is to be accepted and to wait: it has started, stands in the phase named, and what
its computation has done stands. -/
def Accepts (row : Cmd → Instr) (is : Desc → Prop) (body : Desc → Act Fin) : Prop :=
  ∀ (s : State) (c : Cmd) (e : Entry) (r : Run) (p : Phase), s.starts c e = true → is c.desc →
    s.computes c e body (.wait p) r →
    ∃ t x, exec (row c) s = .next t ∧ t.entry c.ring e.idx = some x ∧ x.phase = p ∧ t.mem = memCommit s.mem r.w.log ∧
      t.pending = s.pending ∧ t.sec = s.sec ∧
      { t.dev with regs := r.w.dev.regs, rings := r.w.dev.rings } = r.w.dev

/-- A descriptor's opcode; and its Hob operation (R111, R131). -/
def hasOp (n : Nat) (d : Desc) : Prop := opcodeOf d = n
def hobOp (n : Nat) (d : Desc) : Prop := opcodeOf d = 0x18 ∧ fld d.w6 7 0 = n

/-- A computation of a command that has started and waits goes on, from the same ring, job and counters. -/
def State.resumes (s : State) (r : RingId) (e : Entry) (a : Act Fin) (fin : Fin) (x : Run) : Prop :=
  a.run { Run.init s.toWorld (agentOf r e) with cnt := e.counts, stamp := e.stamp } = .ok (fin, x) ∧ x.pois = none ∧
    x.denied = false ∧ x.lost = false ∧ ((ringStove r).isSome && clash (s.toWorld.ringRun r).entries e.idx x.rd x.wr) = false ∧
    ((x.w.ringRun r).entries.find? fun y => y.idx == e.idx).isSome = true

/-- [a, a + n) is HBM within one line that no host holds, that no request waits for, that no failed link cuts off from a
node, and whose granule no snapshot is to capture (R20, R354, R378); no memory error waits to be met (R336). -/
def State.plain (s : State) (node a n : Nat) : Bool :=
  let w := s.toWorld
  decide (a / 128 = (a + n - 1) / 128) && w.place a == .hbm && !w.linkCut node a && (w.dirOf (lineOf a)).isNone &&
    !w.lineBusy (lineOf a) && (w.snapHolds a).isNone && w.dev.upsets.isEmpty

/-- The bytes of [a, a + n) are `bs`, and every other byte of memory is as in `s`. -/
def State.StoredAt (s t : State) (a : Nat) (bs : List Byte) : Prop :=
  (∀ i, i < bs.length → t.byteAt (a + i) = bs.getD i 0) ∧ ∀ x, x < a ∨ a + bs.length ≤ x → t.byteAt x = s.byteAt x

/-- A packet arrives on a port that is up, of a running device (R351, R352). -/
def State.hears (s : State) (m : UrkPkt) : Prop := s.dev.live = true ∧ m.port < 4 ∧ s.toWorld.portUp m.port = true

/-- A message arrives at a running device, in its turn (R20, R28). -/
def State.arrives (s : State) (m : FabMsg) : Prop := s.dev.live = true ∧ s.toWorld.arrives m = true

/-- Such a packet in its turn: no earlier SRCID 0 request of its port waits before one of SRCID 0 (R363). -/
def State.asks (s : State) (m : UrkPkt) : Prop := s.hears m ∧ (m.srcid = 0 → s.toWorld.portWaits m.port = false)

/-- Nothing waits for a write to become visible or for bytes to come: no live mask (R136), gathered slice (R271), RINFO entry
(R266), multicast packet (R270), answer of a remote read (R272), PERMUTE round (R273) or done word (R304). -/
def State.rests (s : State) : Prop :=
  (∀ x ∈ s.dev.rings, x.maskDue = false) ∧ (∀ r ∈ s.dev.blw.regions, r.unseen = 0) ∧ (∀ a ∈ s.dev.chm.arms, a.due = []) ∧
  s.dev.chm.mcasts = [] ∧ (∀ q ∈ s.dev.chm.rreads, q.rsp = none) ∧ s.dev.chm.perm = none ∧ s.dev.stk.dones = []

/-- Nothing waits at the homes or in the network or for anything there, no snapshot is active. -/
def State.calm (s : State) : Prop :=
  s.dev.urk.home = [] ∧ s.dev.net = [] ∧ s.dev.snp.run = none ∧ s.dev.snp.stalled = [] ∧ s.rests

/-- A line has one directory entry, this one. -/
def State.dirIs (s : State) (e : DirEntry) : Prop := s.dev.urk.dir.filter (fun x => x.line == e.line) = [e]

/-- Only the Urrek ports' own state, the registers and what has been sent differ. -/
def State.OnlyUrk (s t : State) : Prop :=
  ({ t with dev := { t.dev with urk := s.dev.urk, regs := s.dev.regs, out := s.dev.out } } : State) = s

/-! ### What an access of a command finds -/

/-- No host holds or is asked for a line, no write or request waits at a home, no error, poison or suspended ring is there, no
snapshot runs, every die link is up: an access of HBM, of the SLM or of a scratchpad takes effect at once. -/
def State.still (s : State) : Prop :=
  s.dev.urk.dir = [] ∧ s.dev.urk.home = [] ∧ s.dev.urk.snoops = [] ∧ s.dev.upsets = [] ∧ s.mem.poison = [] ∧ s.dev.snp.run = none ∧
  (∀ x ∈ s.dev.stoves, x.saved = []) ∧ ∀ x y, s.toWorld.dieCut x y = false

/-- The command is the next to start (R84, R117, R130 to R137), and nothing holds its accesses; and no earlier command of its ring
waits. -/
def State.able (s : State) (c : Cmd) (e : Entry) (op : Nat) : Prop := s.starts c e = true ∧ opcodeOf c.desc = op ∧ s.still
def State.ready (s : State) (c : Cmd) (e : Entry) (op : Nat) : Prop :=
  s.able c e op ∧ ∀ x ∈ (s.toWorld.ringRun c.ring).entries, x.waiting = false

/-- The physical address that both tables and the translation caches give an agent's job for a virtual one (R35 to R37), if the page
admits the access. -/
def State.mapped (s : State) (ag : Agent) (va : Nat) (write : Bool) : Option Nat :=
  match s.toWorld.walk ag.node (ag.job.getD 0) (bits va 47 21) with
  | .ok e =>
    if (s.toWorld.cachedXlt (ag.job.getD 0) (bits va 47 21)).all (fun c => c.entry.toNat == e) && e.testBit (if write then 2 else 1)
    then some (bits e 47 21 * 0x200000 + va % 0x200000) else none
  | _ => none

/-- The physical address of n bytes of one page, all of them in HBM, the SLM or a scratchpad. -/
def State.span (s : State) (ag : Agent) (va n : Nat) (write : Bool) : Option Nat :=
  (s.mapped ag va write).filter fun pa => decide (va % 0x200000 + n ≤ 0x200000) && (lines pa n).all fun l =>
    match s.toWorld.place l with | .hbm | .slm _ | .scratch _ => true | _ => false

/-- Whether such bytes lie in the scratchpad of the agent's own stove (R97). -/
def State.inPad (s : State) (ag : Agent) (va n : Nat) (write : Bool) : Bool :=
  (s.span ag va n write).any fun pa => inScratch (ag.stove.getD 0) [(pa, n)]

/-- The bytes, the words and the tensor descriptor (R95) that a job reads at a virtual address. -/
def State.readAt (s : State) (ag : Agent) (va n : Nat) : Option (List Byte) :=
  (s.span ag va n false).map fun pa => s.toWorld.bytes pa n
def State.wordsAt (s : State) (ag : Agent) (va n : Nat) : Option (List U64) :=
  (s.readAt ag va (8 * n)).map fun bs => (chunks 8 bs).map leWord
def State.tensorAt (s : State) (ag : Agent) (va : Nat) : Option Tensor :=
  (s.wordsAt ag va 4).map fun ws => tensorOf (ws.getD 0 0) (ws.getD 1 0) (ws.getD 2 0) (ws.getD 3 0)

/-- The elements of an unscaled tensor that a job reads: rows i to i + m − 1, columns c to c + n − 1 (R43, R50). -/
def State.elemsAt (s : State) (ag : Agent) (t : Tensor) (r : Recipe) (i m c n : Nat) : Option (List (List Elem)) :=
  (upTo i m).mapM fun x =>
    let sp := rowSpan r.fmt.width c n
    (s.readAt ag (t.base + x * t.pitch + sp.1) sp.2).map fun bs =>
      (unpack r.fmt.width (c * r.fmt.width % 8) n (bs.map fun b => (b, false))).map fun y => elemOf r.fmt y.1 (Val.ofNat 1) y.2

/-- Each range may be read, or written, and lies within one page of HBM, the SLM or a scratchpad. -/
def State.reach (s : State) (ag : Agent) (rs : List (Nat × Nat)) (write : Bool) : Prop :=
  ∀ x ∈ rs, (s.span ag x.1 x.2 write).isSome = true

/-- A recipe without scales (R49). -/
def Recipe.plain (r : Recipe) : Prop := r.sf = .none ∧ r.block = 0

/-- A region of an unscaled tensor that an executing stove may read: the rules of R95 and R97, and its elements. -/
def State.operand (s : State) (ag : Agent) (t : Tensor) (i m c n : Nat) (es : List (List Elem)) : Prop :=
  let r := s.toWorld.recipe (ag.job.getD 0) t.kind
  r.plain ∧ t.aligned r = true ∧ t.holds i m c n = true ∧ (∀ x ∈ t.ranges r i m c n, s.inPad ag x.1 x.2 false = true) ∧
    s.elemsAt ag t r i m c n = some es

/-- A region of an unscaled tensor that it may write (R59, R95, R97). -/
def State.result (s : State) (ag : Agent) (t : Tensor) (i m c n : Nat) : Prop :=
  let r := s.toWorld.recipe (ag.job.getD 0) t.kind
  r.plain ∧ r.perCh = false ∧ t.aligned r = true ∧ t.holds i m c n = true ∧ t.srFits r = true ∧
    ∀ x ∈ t.ranges r i m c n, s.inPad ag x.1 x.2 true = true

/-- A command's conversions may add to its step's health bank: it is zeroed already (R83). -/
def State.banked (s : State) (job step : Nat) : Prop := ∀ x, s.toWorld.job job = some x → x.zeroWait.contains step = false

/-- The lines of the table entries that translate a job's virtual address (R35). -/
def State.tables (s : State) (job va : Nat) : List Nat :=
  let vpn := bits va 47 21
  let l1 := fld (s.toWorld.root job) 47 21 * 0x200000 + 8 * (vpn / 512)
  [lineOf l1, lineOf (bits (s.toWorld.word l1).toNat 47 12 * 4096 + 8 * (vpn % 512))]

/-- None of n bytes at a physical address lies in a line whose table entries translate one of the ranges (R35); and ranges that may be
read and written one after another, no write changing how any is translated. -/
def State.spares (s : State) (job : Nat) (rs : List (Nat × Nat)) (pa n : Nat) : Prop :=
  ∀ y ∈ rs, ∀ l ∈ s.tables job y.1, l + 128 ≤ pa ∨ pa + n ≤ l
def State.undisturbed (s : State) (ag : Agent) (reads writes : List (Nat × Nat)) : Prop :=
  s.reach ag reads false ∧ s.reach ag writes true ∧ ∀ x ∈ writes, ∀ pa, s.span ag x.1 x.2 true = some pa →
    s.spares (ag.job.getD 0) (reads ++ writes) pa x.2

/-- The health record of a tensor for a step lies in no line that translates one of the ranges (R79, R80). -/
def State.recordApart (s : State) (job step tid : Nat) (rs : List (Nat × Nat)) : Prop :=
  ∀ x, s.toWorld.job job = some x → s.spares job rs (healthAddr x step tid) 64

/-- The binary32 words of bytes, and the words 64-bit by 64-bit. -/
def f32s (bs : List Byte) : List F32 := (chunks 4 bs).map fun c => (leNat c, false)
def words64 (bs : List Byte) : List U64 := (chunks 8 bs).map leWord

/-- The rows of an attention command: head h of query i at row h × BQ + i (R307). -/
def Shape.heads (s : Shape) (es : List (List Elem)) : List (List Elem) :=
  (List.range s.nh).flatMap fun h => es.map fun q => (q.drop (h * s.dim)).take s.dim

/-- The rows m, l and O of a query state block's bytes, and the bytes of rows, from its word 16 on (R312). -/
def Shape.stateOf (s : Shape) (bs : List Byte) : List (F32 × F32 × List F32) :=
  let part := fun k n => ((f32s bs).drop k).take n
  ((part 16 s.rows).zip ((part (16 + s.rows) s.rows).zip (chunks s.dim (part (16 + 2 * s.rows) (s.rows * s.dim))))).map
    fun x => (x.1, x.2.1, x.2.2)
def Shape.image (rows : List (F32 × F32 × List F32)) : List Byte :=
  (rows.map (fun r => r.1) ++ rows.map (fun r => r.2.1) ++ rows.flatMap fun r => r.2.2).flatMap fun x => leBytes 4 x.1

/-- A page's elements, K by key and V by feature, unscaled under recipe r (R308, R321). -/
def State.pageAt (s : State) (ag : Agent) (sh : Shape) (page : Nat) (r : Recipe) (ks vs : List (List Elem)) : Prop :=
  let p := pageTensors page sh.dim r 0 0 0
  r.plain ∧ r.perCh = false ∧ s.elemsAt ag p.1 r 0 sh.bk 0 sh.dim = some ks ∧ s.elemsAt ag p.2 r 0 sh.dim 0 sh.bk = some vs

/-- Packets to a device stay here or leave on a port that is up and not in LEGACY mode (R252, R269); a multicast group has somewhere to
send (R252). -/
def State.leads (s : State) (dst : Nat) : Prop :=
  dst = s.toWorld.devId ∨ ∃ p, s.toWorld.outPort dst = some p ∧
    (match s.dev.urk.links.lookup (0x20 + p) with | some l => l.legacy = false | none => True)
def State.casts (s : State) (g : Nat) : Prop :=
  (s.toWorld.group g).testBit 19 = true ∧ ((s.toWorld.group g).testBit 18 = true ∨ s.toWorld.groupPorts g none ≠ [])

/-- A stoker program's header and templates for each member, legal and readable (R296, R297). -/
def State.programAt (s : State) (ag : Agent) (va members : Nat) (p : List U64) : Prop :=
  s.wordsAt ag va 8 = some p ∧ progOk p = true ∧ ∀ k, k < members →
    ∃ ws, s.wordsAt ag (progList p + k * progLstr p) (9 * progCount p) = some ws ∧ ∀ i, i < progCount p →
      patchOk (fld (ws.getD (8 * i) 0) 7 0) (ws.getD (8 * progCount p + i) 0) = true

/-- A TILE_WS that loads its stationary tile, adds to no live accumulators and drains none, on unscaled operands in its stove's own
scratchpad (R86, R95 to R99): its tensors and their elements. -/
def State.wsTile (s : State) (ag : Agent) (d : Desc) (stat strm : Tensor) (xs ys : List (List Elem)) : Prop :=
  let k0 := fld d.w3 63 48 * 16
  let kt := (fld d.w5 51 46 + 1) * 16
  d.w4 = 0 ∧ d.w6 = 0 ∧ d.w7 = 0 ∧ fld d.w5 53 52 = 0 ∧ bit d.w5 55 = false ∧ bit d.w5 63 = false ∧
    fld d.w2 47 0 % 32 = 0 ∧ fld d.w3 47 0 % 32 = 0 ∧
    s.tensorAt ag (fld d.w2 47 0) = some stat ∧ s.tensorAt ag (fld d.w3 47 0) = some strm ∧
    s.operand ag stat k0 kt (fld d.w2 63 48 * 128) (fld d.w5 62 56 + 1) xs ∧
    s.operand ag strm (fld d.w5 31 0) (fld d.w5 45 32 + 1) k0 kt ys ∧
    kt ≤ kmax (s.toWorld.recipe (ag.job.getD 0) stat.kind).fmt ∧ fld d.w5 45 32 < 1024 ∧
    ((s.toWorld.stove (ag.stove.getD 0)).set (fld d.w5 54 54)).live = false

/-- Fresh accumulators, m × n. -/
def freshAcc (int : Bool) (m n : Nat) : List (List AccEnt) :=
  List.replicate m (List.replicate n ⟨if int then .int 0 else .a32 (.zero false), false⟩)

/-! ### Registers and their writers -/

/-- A host's port that is up, of a running device, with no earlier request in its order that waits (R351, R363). -/
def State.hosts (s : State) (p : Nat) : Prop :=
  s.dev.live = true ∧ p < 4 ∧ s.toWorld.portUp p = true ∧ s.toWorld.portWaits p = false

/-- Such a port that is the device's owner (R359). -/
def State.owned (s : State) (p : Nat) : Prop := s.hosts p ∧ s.dev.urk.owner = some p

/-- No earlier write to a register is held. -/
def State.notHeld (s : State) (page off : Nat) : Prop := s.toWorld.heldAt page off = false

end Sys2Proof.Machine
end

