-- ==== Sys2Proof/Certificates/Slice0/Obligations.lean ====
section
/-! DEFINITION. The statements for the provers: what a step does, what every command of the table does when its rule's
conditions hold, what it leaves as it was, and what stays true of every state. -/

open Sys2Proof Sys2Proof.Machine

/-- A step takes the command at the front of the queue and executes it with the queue's rest. -/
def Obligations.StepExecutesTheFrontCommand : Prop :=
  ∀ (s : State) (c : Instr) (rest : List Instr), s.pending = c :: rest → step s = exec c { s with pending := rest }

/-- On an empty queue the block idles: GTIME of a running device counts one core cycle, a memory error may arise that no
access has met yet, and nothing else changes (the model's choice, log entries 2 and 76). Every command answers a next state,
and none touches the queue of waiting commands. -/
def Obligations.TheQueueIsLeftToTheStep : Prop :=
  (
  ∀ s : State, s.pending = [] → ∃ t, step s = .next t ∧
    (s.dev.live = true → t.dev.gtime = (s.dev.gtime + 1) % 2 ^ 64) ∧ (s.dev.live = false → t = s) ∧
    (∀ u ∈ s.dev.upsets, u ∈ t.dev.upsets) ∧
    { t with dev := { t.dev with gtime := s.dev.gtime, upsets := s.dev.upsets } } = s) ∧
  (
  ∀ (c : Instr) (s : State), ∃ t, exec c s = .next t ∧ t.pending = s.pending)

/-- Memory stays in its canonical form: addresses strictly rising, no byte 0 listed, poison marks strictly rising. -/
def Obligations.EveryStepKeepsMemoryCanonical : Prop :=
  ∀ s t : State, s.Inv → step s = .next t → t.Inv

/-- MEAS stays the chain of the measurement log over every step (R399). -/
def Obligations.EveryStepKeepsTheMeasurementChain : Prop :=
  ∀ s t : State, s.Measured → step s = .next t → t.Measured

/-- No command changes what the fuses hold but COMMIT_SVN, and the fused minimum versions never fall. -/
def Obligations.FusesKeepAndMinimumsNeverFall : Prop :=
  ∀ (c : Instr) (s t : State), exec c s = .next t →
    t.sec.serial = s.sec.serial ∧ t.sec.ordered = s.sec.ordered ∧ t.sec.keyHash = s.sec.keyHash ∧
    s.sec.fwMin ≤ t.sec.fwMin ∧ s.sec.cfgMin ≤ t.sec.cfgMin

/-- State.reset meets both invariants, waits for no command, holds every register of the page tables at its reset value and
GTIME 0, and is not yet READY. -/
def Obligations.ResetMeetsTheInvariants : Prop :=
  State.reset.Inv ∧ State.reset.Measured ∧ State.reset.pending = [] ∧ State.reset.dev.gtime = 0 ∧
    (∀ k, State.reset.reg k = regReset k) ∧ State.reset.dev.live = false

/-- Of the stored bytes, poison marks and registers a byte written is read back and leaves every other as it was: one stored
byte range, and one register. -/
def Obligations.ReadAfterWrite : Prop :=
  (∀ (m : Mem) (a : Nat) (bs : List Byte) (x : Nat),
    cellGet (memApply m (.bytes a bs)).cells x = if a ≤ x ∧ x < a + bs.length then bs.getD (x - a) 0 else cellGet m.cells x) ∧
  (∀ (m : Mem) (log : List MemOp) (d : Dev) (x : Nat),
    cellGet (memCommit m log).cells x = (World.mk d m log).byte x) ∧
  (∀ (w : World) (k j : Nat) (v : U64), (w.setReg k v).reg j = if j = k then v else w.reg j) ∧
  (∀ (w : World) (k hi lo v : Nat), hi < 64 → lo ≤ hi → (w.setRf k hi lo v).rf k hi lo = v % 2 ^ (hi - lo + 1))

/-- R46: the sixteen E2M1 codes have the values of its table, every one of them is valid, and none is flushed when read or
written. -/
def Obligations.E2m1CodesAreAFixedSet : Prop :=
  (List.range 16).map (fun c => (codeVal .e2m1 c).1) =
    [.zero false, .fin 1 2, .fin 1 1, .fin 3 2, .fin 2 1, .fin 3 1, .fin 4 1, .fin 6 1,
     .zero true, .fin (-1) 2, .fin (-1) 1, .fin (-3) 2, .fin (-2) 1, .fin (-3) 1, .fin (-4) 1, .fin (-6) 1] ∧
  (∀ c, c < 16 → invalidCode .e2m1 c = false) ∧
  (∀ (c : Nat) (sc : Val), sc.isNaN = false → (decodeElem .e2m1 c sc).2 = .none) ∧
  (∀ (x : Val) (m : Rnd), (encodeElem x .e2m1 m).2 ≠ .flushZero) ∧
  (encodeElem (.fin 1 2) .e2m1 .rne = (1, .none) ∧ encodeElem (.fin (-1) 2) .e2m1 .rne = (9, .none))

/-- R45, R47, R54: encode, in every mode and for every value, gives a code of the format's width that is never an invalid and
never a subnormal one. R44 to R47, R54: every code of a format that is valid, not subnormal and not NaN decodes to a value
that encodes to the same code, in either rounding mode. -/
def Obligations.EncodedAndValidCodesAgree : Prop :=
  (
  ∀ (x : Val) (fmt : Fmt) (m : Rnd), (∀ n d, x = .fin n d → n ≠ 0 ∧ d ≠ 0) →
    (encodeElem x fmt m).1 < 2 ^ fmt.width ∧ invalidCode fmt (encodeElem x fmt m).1 = false ∧
    (codeVal fmt (encodeElem x fmt m).1).2 = false) ∧
  (
  ∀ (fmt : Fmt) (c : Nat) (m : Rnd), c < 2 ^ fmt.width → invalidCode fmt c = false → (codeVal fmt c).2 = false →
    (codeVal fmt c).1.isNaN = false → (encodeElem (codeVal fmt c).1 fmt m).1 = c)

/-- R311: query i is at QPOS + i and key j at KPOS + j; MASK 0 masks no key, MASK 1 every later one, MASK 2 also those at or
before the query's position less 256 × WPG. -/
def Obligations.MaskedKeys : Prop :=
  ∀ (h : Shape) (i j : Nat),
    (h.mask = 0 → h.masked i j = false) ∧
    (h.mask = 1 → (h.masked i j = true ↔ h.kpos + j > h.qpos + i)) ∧
    (h.mask = 2 → (h.masked i j = true ↔
      h.kpos + j > h.qpos + i ∨ ((h.kpos + j : Nat) : Int) ≤ ((h.qpos + i : Nat) : Int) - 256 * h.wpg))

/-- NOP, WRITE_LINE and WAIT_LINE as R133 gives them: NOP does nothing and completes; WRITE_LINE stores its 64-bit value at
the translated address and completes; WAIT_LINE completes when the word at its address has reached the threshold, and waits
with its deadline when it has not. A waiting WAIT_LINE completes with OK when the watched word reaches its threshold, and
with WAIT_TIMEOUT, not before its deadline, when it does not. -/
def Obligations.CommonCommandsAndWaits : Prop :=
  (
  (∀ (s : State) (c : Cmd) (e : Entry), s.starts c e = true → opcodeOf c.desc = 0 →
    [c.desc.w2, c.desc.w3, c.desc.w4, c.desc.w5, c.desc.w6, c.desc.w7] = [0, 0, 0, 0, 0, 0] →
    ∃ t, exec (.nop c) s = .next t ∧ t.doneIn c.ring e.idx stOk ∧ s.SameStore t) ∧
  (∀ (s : State) (c : Cmd) (e : Entry) (pa : Nat) (w : World), s.starts c e = true → opcodeOf c.desc = 1 →
    [c.desc.w4, c.desc.w5, c.desc.w6, c.desc.w7] = [0, 0, 0, 0] → fld c.desc.w2 63 48 = 0 → fld c.desc.w2 47 0 % 8 = 0 →
    s.toWorld.xlate (agentOf c.ring e) (jobOf c.desc) (fld c.desc.w2 47 0) true = (.ok pa, w) →
    s.plain (engineNode c.ring.page c.ring.n) pa 8 = true →
    ∃ t, exec (.writeLine c) s = .next t ∧ t.doneIn c.ring e.idx stOk ∧ s.StoredAt t pa (wordBytes c.desc.w3) ∧
      (∀ g, t.poisonAt g = s.poisonAt g) ∧ t.pending = s.pending ∧ t.sec = s.sec) ∧
  (∀ (s : State) (c : Cmd) (e : Entry) (pa : Nat) (w : World), s.starts c e = true → opcodeOf c.desc = 2 →
    [c.desc.w5, c.desc.w6, c.desc.w7] = [0, 0, 0] → fld c.desc.w2 63 48 = 0 → fld c.desc.w2 47 0 % 8 = 0 →
    fld c.desc.w4 63 32 = 0 → s.toWorld.xlate (agentOf c.ring e) (jobOf c.desc) (fld c.desc.w2 47 0) false = (.ok pa, w) →
    s.plain (engineNode c.ring.page c.ring.n) pa 8 = true → s.poisonAt (lineOf pa) = false →
    ∃ t, exec (.waitLine c) s = .next t ∧ t.mem = s.mem ∧ t.pending = s.pending ∧ t.sec = s.sec ∧
      (0 ≤ (s.toWorld.word pa - c.desc.w3).toInt → t.doneIn c.ring e.idx stOk) ∧
      ((s.toWorld.word pa - c.desc.w3).toInt < 0 → ∃ x, t.entry c.ring e.idx = some x ∧
        x.phase = .waitLine pa c.desc.w3 (if fld c.desc.w4 31 0 = 0 then none
          else some (s.dev.gtime + fld c.desc.w4 31 0 * 1024))))) ∧
  (
  (∀ (s : State) (r : RingId) (idx pa : Nat) (thr : U64) (d : Option Nat), s.dev.live = true →
    s.toWorld.lineWait r = some (idx, pa, thr, d) → s.plain (engineNode r.page r.n) pa 8 = true →
    s.poisonAt (lineOf pa) = false → 0 ≤ (s.toWorld.word pa - thr).toInt →
    ∃ t, exec (.waitLineMet r) s = .next t ∧ t.doneIn r idx stOk ∧ s.SameStore t) ∧
  (∀ (s : State) (r : RingId) (idx pa : Nat) (thr : U64) (d : Nat), s.dev.live = true →
    s.toWorld.lineWait r = some (idx, pa, thr, some d) → s.toWorld.place pa = .hbm →
    (s.toWorld.word pa - thr).toInt < 0 →
    ∃ t, exec (.waitLineTimeout r) s = .next t ∧ t.doneIn r idx stTimeout ∧ t.dev.gtime = max s.dev.gtime d ∧ s.SameStore t))

/-- R127: a ring that may read takes its next command from the slot HEAD names, HEAD and SEQ_IN advance, and the command
stands read; and R127, R129: a watched line gives TAIL, and more commands than the ring has slots stop it with ERR 1. R126,
R129: writes of RING_BASE and RING_CTL by the ring's port. A legal RING_BASE with EN sets a disabled ring to HEAD 0, DONE 0,
TAIL 0 and ERR 0; without EN it stores the fields alone. STOP of RING_CTL stops reading, with HALTED at once when every
record is written. R123, R126: a held write to RING_CBASE is performed once every record of its disabled ring is written;
R363: a port's register write behind an earlier request of it that waits, waits in its place. -/
def Obligations.RingsReadAndTheirRegistersAct : Prop :=
  (
  (∀ (s : State) (r : RingId) (a : Nat), s.dev.live = true → ringExists r = true → s.toWorld.ringReads r = true →
    s.toWorld.ringGroup r = none → ((s.toWorld.ringRun r).entries.filter Entry.unstarted).length < 16 →
    (s.toWorld.ringRun r).tail ≠ s.toWorld.ringHead r → s.entry r (s.toWorld.ringHead r) = none →
    a = s.rf (rgk r 0) 47 12 * 4096 + s.toWorld.ringHead r % 2 ^ s.rf (rgk r 0) 5 1 * 64 →
    s.plain (engineNode r.page r.n) a 64 = true → s.poisonAt (lineOf a) = false →
    ∃ t x, exec (.commandFetch r) s = .next t ∧ t.entry r (s.toWorld.ringHead r) = some x ∧
      x.desc = descOf (s.toWorld.bytes a 64) ∧ t.toWorld.ringHead r = (s.toWorld.ringHead r + 1) % 2 ^ 32 ∧
      t.rf (rgk r 0x28) 31 0 = seqOf x.desc ∧ t.toWorld.ringDone r = s.toWorld.ringDone r ∧ s.SameStore t) ∧
  (∀ (s : State) (r : RingId) (a : Nat), s.dev.live = true → ringExists r = true → s.toWorld.ringReads r = true →
    s.toWorld.isBound r = false → a = s.rf (rgk r 0x10) 47 7 * 128 →
    s.plain (engineNode r.page r.n) a 4 = true → s.poisonAt (lineOf a) = false →
    ∃ t, exec (.watchedLineWake r) s = .next t ∧ (t.toWorld.ringRun r).tail = leNat (s.toWorld.bytes a 4) ∧
      ((leNat (s.toWorld.bytes a 4) + 2 ^ 32 - s.toWorld.ringDone r) % 2 ^ 32 ≤ 2 ^ s.rf (rgk r 0) 5 1 →
        s.SameStore t ∧ s.OnlyRegs { t with dev := { t.dev with rings := s.dev.rings, slm := s.dev.slm } } []) ∧
      (2 ^ s.rf (rgk r 0) 5 1 < (leNat (s.toWorld.bytes a 4) + 2 ^ 32 - s.toWorld.ringDone r) % 2 ^ 32 →
        t.toWorld.ringErr r = 1))) ∧
  (
  (∀ (s : State) (p : Nat) (r : RingId) (v : U64), s.hosts p → ringExists r = true →
    s.toWorld.ringPort r = p → s.toWorld.ringDraining r = false → s.notHeld r.page (0x100 + 0x40 * r.n) →
    bit (s.reg (rgk r 0)) 0 = false → 4 ≤ fld v 5 1 → fld v 5 1 ≤ 16 → bit v 0 = true →
    ∃ t, exec (.ringBase p r v) s = .next t ∧ bit (t.reg (rgk r 0)) 0 = true ∧ t.rf (rgk r 0) 5 1 = fld v 5 1 ∧
      t.rf (rgk r 0) 47 12 = fld v 47 12 ∧ t.toWorld.ringHead r = 0 ∧ t.toWorld.ringDone r = 0 ∧ t.toWorld.ringErr r = 0 ∧
      (t.toWorld.ringRun r).tail = 0 ∧ s.SameStore t ∧
      s.OnlyRegs { t with dev := { t.dev with rings := s.dev.rings } } [rgk r 0, rgk r 0x20, rgk r 0x30]) ∧
  (∀ (s : State) (p : Nat) (r : RingId) (v : U64), s.hosts p → ringExists r = true →
    s.toWorld.ringPort r = p → fld v 1 0 = p → bit v 2 = true → s.toWorld.ringHead r = s.toWorld.ringDone r →
    ∃ t, exec (.ringCtl p r v) s = .next t ∧ bit (t.reg (rgk r 0x38)) 2 = true ∧ t.toWorld.ringPort r = p ∧
      bit (t.reg (rgk r 0x30)) 3 = true ∧ s.OnlyRegs t [rgk r 0x38, rgk r 0x30])) ∧
  (
  (∀ (s : State) (p : Nat) (r : RingId) (v : U64), s.dev.live = true → p < 4 → ringExists r = true →
    s.toWorld.ringPort r = p → s.toWorld.ringDraining r = false → s.dev.urk.home = [] →
    s.dev.held = [⟨rk r.page (0x108 + 0x40 * r.n), p, r.page, 0x108 + 0x40 * r.n, v, none⟩] →
    ∃ t, exec (.heldWriteRelease (rk r.page (0x108 + 0x40 * r.n))) s = .next t ∧ t.dev.held = [] ∧
      t.rf (rgk r 8) 47 12 = fld v 47 12 ∧ s.SameStore t ∧
      s.OnlyRegs { t with dev := { t.dev with held := s.dev.held } } [rgk r 8]) ∧
  (∀ (s : State) (p : Nat) (r : RingId) (v : U64), s.dev.live = true → p < 4 → ringExists r = true → s.toWorld.portUp p = true →
    s.toWorld.portWaits p = true →
    ∃ t, exec (.ringBase p r v) s = .next t ∧ t.dev.regs = s.dev.regs ∧ s.SameStore t ∧
      t.dev.urk.home.map HomeWait.req = s.dev.urk.home.map HomeWait.req ++
        [.reg p r.page (0x100 + 0x40 * r.n) v none]))

/-- R144, R145: COMPLETION_RECORD writes the 64-byte record of the ring's oldest command at its slot of the completion area,
advances DONE and SEQ_OUT, and the command leaves the ring (a command without NOTIFY, no stoker arm waiting for it). A
completion record's layout (R144): SEQ, OPCODE, JOB, STATUS and the count of preemptions in word 0, the completion time in
word 1, the start time in word 2, and 64 bytes in all. -/
def Obligations.CompletionRecordsAreWritten : Prop :=
  (
  ∀ (s : State) (r : RingId) (e : Entry) (rest : List Entry) (a : Nat), s.dev.live = true →
    (s.toWorld.ringRun r).entries = e :: rest → e.phase = .done → s.dev.urk.reqs = [] → s.dev.urk.home = [] →
    s.dev.stk.rts = [] → s.dev.stk.kvs = [] → notifyOf e.desc = false →
    a = s.rf (rgk r 0x08) 47 12 * 4096 + e.idx % 2 ^ e.log2 * 64 →
    s.plain (engineNode r.page r.n) a 64 = true →
    ∃ t, exec (.completionRecord r) s = .next t ∧ s.StoredAt t a e.record ∧
      t.toWorld.ringDone r = (e.idx + 1) % 2 ^ 32 ∧ t.rf (rgk r 0x28) 63 32 = seqOf e.desc ∧
      (t.toWorld.ringRun r).entries.map Entry.idx = rest.map Entry.idx ∧ t.pending = s.pending ∧ t.sec = s.sec) ∧
  (
  ∀ e : Entry, e.status < 256 → e.record.length = 64 ∧
    fld (leWord (e.record.take 8)) 31 0 = seqOf e.desc ∧ fld (leWord (e.record.take 8)) 39 32 = opcodeOf e.desc ∧
    fld (leWord (e.record.take 8)) 45 40 = jobOf e.desc ∧ fld (leWord (e.record.take 8)) 55 48 = e.status ∧
    fld (leWord (e.record.take 8)) 63 56 = min e.preempts 255 ∧
    leWord ((e.record.drop 8).take 8) = BitVec.ofNat 64 e.tEnd ∧ leWord ((e.record.drop 16).take 8) = BitVec.ofNat 64 e.tStart)

/-- R132: a command that may start but for its header, opcode or job completes with the status of R132 in the same step, and
changes neither memory nor any unit but its ring. R130, R133: a command with FENCE stays read, and nothing changes, while an
earlier command's record is not written; so does any command behind a waiting WAIT_LINE. -/
def Obligations.CommandsAreRefusedAndHeld : Prop :=
  (
  ∀ (s : State) (c : Cmd) (e : Entry) (st : Nat), s.dev.live = true → ringExists c.ring = true →
    (s.toWorld.ringRun c.ring).entries.find? Entry.unstarted = some e → e.desc = c.desc →
    s.toWorld.holds c.ring e = false → s.toWorld.refusal c.ring c.desc = some st →
    (opcodeOf c.desc = 0x70 → ∃ t, exec (.copy c) s = .next t ∧ t.doneIn c.ring e.idx st ∧ s.SameStore t) ∧
    (opcodeOf c.desc = 0x20 → ∃ t, exec (.move c) s = .next t ∧ t.doneIn c.ring e.idx st ∧ s.SameStore t) ∧
    (opcodeOf c.desc = 0x10 → ∃ t, exec (.tileWs c) s = .next t ∧ t.doneIn c.ring e.idx st ∧ s.SameStore t) ∧
    (opcodeOf c.desc = 0xD0 → ∃ t, exec (.rtArm c) s = .next t ∧ t.doneIn c.ring e.idx st ∧ s.SameStore t)) ∧
  (
  ∀ (s : State) (c : Cmd) (e : Entry), s.dev.live = true → ringExists c.ring = true →
    (s.toWorld.ringRun c.ring).entries.find? Entry.unstarted = some e → e.desc = c.desc →
    (fenceOf e.desc = true ∧ s.toWorld.ringDone c.ring ≠ e.idx) ∨
      (∃ x ∈ (s.toWorld.ringRun c.ring).entries.takeWhile (fun x => x.idx != e.idx), x.waitsLine = true) →
    (opcodeOf c.desc = 0 → exec (.nop c) s = .next s) ∧ (opcodeOf c.desc = 1 → exec (.writeLine c) s = .next s) ∧
    (opcodeOf c.desc = 0x71 → exec (.fill c) s = .next s) ∧ (opcodeOf c.desc = 0x18 → exec (.add c) s = .next s))

/-- R137 to R142: a preemption begins with its deadline; at a cheap point with a save slot the lower ring is saved and
suspended, SAVES counts; past the deadline everything is saved, not earlier than the deadline, and FULL counts; the ring
suspended last resumes and leaves the list of save images. R147, R148, R108: a Hold instance's grant that reaches WDOG ends
the command that issued it with ABORTED_WDOG; a wait that reaches STARVE sets its bit; DMP_FSLOT_CLR empties the function
slots of its mask. -/
def Obligations.PreemptionAndArbitersAct : Prop :=
  (
  (∀ (s : State) (i l h : Nat), s.dev.live = true → i < 256 → (s.toWorld.stove i).pre = none →
    s.toWorld.preemptPair i = some (l, h) →
    ∃ t, exec (.preempt i) s = .next t ∧
      (t.toWorld.stove i).pre = some (l, h, s.dev.gtime + s.rf (rk (0x1000 + i) 0x290) 31 0) ∧ s.SameStore t) ∧
  (∀ (s : State) (i l h d j q slot : Nat), s.dev.live = true → i < 256 → (s.toWorld.stove i).pre = some (l, h, d) →
    s.toWorld.cheapAt (stoveRing i l) = some (j, q) → s.toWorld.saveSlot i l j = some slot →
    s.toWorld.entryAway (s.toWorld.saveEntry i l j) = none → s.toWorld.entryAway (s.toWorld.maskEntry j q) = none →
    ∃ t img, exec (.preemptSave i) s = .next t ∧ t.toWorld.suspended (stoveRing i l) = true ∧
      (t.toWorld.stove i).pre = none ∧ (t.toWorld.stove i).saved = (s.toWorld.stove i).saved ++ [img] ∧
      img.ring = l ∧ img.slot = slot ∧ img.job = j ∧ img.mask = s.toWorld.liveMask j q ∧ img.full = false ∧
      t.rf (rk (0x1000 + i) 0x298) 31 0 = min (2 ^ 32 - 1) (s.rf (rk (0x1000 + i) 0x298) 31 0 + 1)) ∧
  (∀ (s : State) (i l h d slot : Nat), s.dev.live = true → i < 256 → (s.toWorld.stove i).pre = some (l, h, d) →
    s.toWorld.cheapAt (stoveRing i l) = none →
    (∀ e ∈ (s.toWorld.ringRun (stoveRing i l)).entries, e.waiting = true → s.toWorld.takesBack e = true) →
    s.toWorld.saveSlot i l (s.toWorld.ringRun (stoveRing i l)).lastJob = some slot →
    s.toWorld.entryAway (s.toWorld.saveEntry i l (s.toWorld.ringRun (stoveRing i l)).lastJob) = none →
    ∃ t img, exec (.preemptDeadline i) s = .next t ∧ d ≤ t.dev.gtime ∧ t.toWorld.suspended (stoveRing i l) = true ∧
      (t.toWorld.stove i).saved = (s.toWorld.stove i).saved ++ [img] ∧ img.full = true ∧ img.mask = BitVec.allOnes 64 ∧
      t.rf (rk (0x1000 + i) 0x298) 63 32 = min (2 ^ 32 - 1) (s.rf (rk (0x1000 + i) 0x298) 63 32 + 1)) ∧
  (∀ (s : State) (i : Nat) (img : SaveImg), s.dev.live = true → i < 256 → (s.toWorld.stove i).saved.getLast? = some img →
    (s.toWorld.stove i).pre = none →
    (∀ n, img.ring < n → n < 4 → s.toWorld.ringIdle (stoveRing i n) = true) →
    (∀ n, n < 4 → s.toWorld.ringCurrent (stoveRing i n) = false) →
    s.toWorld.rangeVisible img.slot img.bytes = true → s.toWorld.rangeAway img.slot img.bytes = [] →
    ∃ t, exec (.preemptRestore i) s = .next t ∧ t.toWorld.suspended (stoveRing i img.ring) = false ∧
      (t.toWorld.stove i).saved = (s.toWorld.stove i).saved.dropLast ∧ s.dev.gtime ≤ t.dev.gtime)) ∧
  (
  (∀ (s : State) (page i q : Nat) (r : RingId) (e : Entry), s.dev.live = true → i < (holdInstances page).1 →
    q < (holdInstances page).2 → bit (s.reg (rk page 0x010)) 3 = false →
    (s.toWorld.ringRun r).entries.find? Entry.waiting = some e →
    ∃ t, exec (.arbWatchdog page i q (some r)) s = .next t ∧ t.doneIn r e.idx stAbortedWdog ∧ s.SameStore t) ∧
  (∀ (s : State) (page i q off k : Nat), s.dev.live = true → arbInstance page i = some (off, k) → q < k →
    bit (s.reg (rk page off)) q = false → bit (s.reg (rk page 0x010)) 3 = false →
    ∃ t, exec (.arbStarve page i q) s = .next t ∧ bit (t.reg (rk page off)) q = true ∧
      s.OnlyRegs t [rk page off, rk page 0x020, rk page 0x030]) ∧
  (∀ (s : State) (p i n : Nat) (v : U64), s.owned p → i < 256 → (∀ k, s.toWorld.slotUsers (0x1000 + i) k = []) → n < 16 →
    ∃ t, exec (.fslotClr p i v) s = .next t ∧ s.SameStore t ∧
      ((t.toWorld.stove i).slots.find? fun x => x.slot == n) =
        if bit v n then none else (s.toWorld.stove i).slots.find? fun x => x.slot == n))

/-- R194, R201: the owner's write that sets RUN of a stopped tick starts it, waiting for its arming edge when SYNC_EN is 1;
the write that clears RUN of a running tick leaves no boundary fixed and locking off. R200: setting SYNC_EN of a running tick
locks it (STATE 2, SLIP count 0), clearing it ends locking (STATE 0); RELOCK leaves free-run. -/
def Obligations.TheTickStartsLocksAndStops : Prop :=
  (
  (∀ (s : State) (p : Nat), s.owned p → bit (s.reg tikCtl) 0 = false →
    ∃ t, exec (.run p true) s = .next t ∧ t.toWorld.running = true ∧ t.dev.tik.bnd = none ∧ t.dev.tik.next = none ∧
      t.dev.tik.runAt = s.dev.gtime ∧ t.dev.tik.load = s.rf (rk 1 0x098) 47 0 ∧
      t.toWorld.syncState = (bit (s.reg tikCtl) 1).toNat ∧ s.SameStore t ∧
      s.OnlyRegs { t with dev := { t.dev with tik := s.dev.tik } } [tikCtl, tikSync]) ∧
  (∀ (s : State) (p : Nat), s.owned p → bit (s.reg tikCtl) 0 = true → bit (s.reg tikCtl) 2 = false →
    ∃ t, exec (.run p false) s = .next t ∧ t.toWorld.running = false ∧ t.dev.tik.next = none ∧ t.toWorld.syncState = 0 ∧
      s.OnlyRegs { t with dev := { t.dev with tik := s.dev.tik } } [tikCtl, tikSync])) ∧
  (
  (∀ (s : State) (p : Nat), s.owned p → bit (s.reg tikCtl) 0 = true → bit (s.reg tikCtl) 1 = false →
    ∃ t, exec (.syncEn p true) s = .next t ∧ bit (t.reg tikCtl) 1 = true ∧ t.toWorld.syncState = 2 ∧
      t.rf tikSync 4 2 = 0 ∧ s.OnlyRegs { t with dev := { t.dev with tik := s.dev.tik } } [tikCtl, tikSync]) ∧
  (∀ (s : State) (p : Nat), s.owned p → bit (s.reg tikCtl) 0 = true → bit (s.reg tikCtl) 1 = true →
    ∃ t, exec (.syncEn p false) s = .next t ∧ bit (t.reg tikCtl) 1 = false ∧ t.toWorld.syncState = 0 ∧
      t.dev.tik.win = false ∧ t.dev.tik.nwin = false ∧
      s.OnlyRegs { t with dev := { t.dev with tik := s.dev.tik } } [tikCtl, tikSync]) ∧
  (∀ (s : State) (p : Nat), s.owned p → bit (s.reg tikCtl) 0 = true → s.toWorld.syncState = 3 →
    ∃ t, exec (.relock p) s = .next t ∧ t.toWorld.syncState = 2 ∧ t.rf tikSync 4 2 = 0 ∧ t.dev.tik.bnd = s.dev.tik.bnd ∧
      t.dev.tik.next = s.dev.tik.next ∧
      s.OnlyRegs { t with dev := { t.dev with tik := s.dev.tik } } [tikCtl, tikSync]))

/-- R194, R198: a write of TIK_PERIOD applies and reads at least 8,500, and clamps a stored SLEW to floor(PERIOD / 16); a
write of TIK_SLEW clamps SLEW to that limit and DLY to at least 8; nothing else changes. R198 to R201: the arming edge locks
a waiting tick at its target; the first edge in the window of the last boundary locks the next one; a window that closes
without an edge is a SLIP, the fourth in a row enters free-run. -/
def Obligations.PeriodsEdgesAndSlips : Prop :=
  (
  (∀ (s : State) (p : Nat) (v : U64), s.owned p →
    ∃ t, exec (.tikPeriod p v) s = .next t ∧ t.toWorld.period = max 8500 (fld v 31 0) ∧
      t.rf tikSlewKey 31 0 = min (s.rf tikSlewKey 31 0) (t.toWorld.period / 16) ∧ s.OnlyRegs t [tikPeriodKey, tikSlewKey]) ∧
  (∀ (s : State) (p : Nat) (v : U64), s.owned p →
    ∃ t, exec (.tikSlew p v) s = .next t ∧ t.rf tikSlewKey 31 0 = min (fld v 31 0) (s.toWorld.period / 16) ∧
      t.rf tikSlewKey 39 32 = max 8 (fld v 39 32) ∧ s.OnlyRegs t [tikSlewKey])) ∧
  (
  (∀ (s : State) (g a : Nat), s.dev.live = true → s.toWorld.running = true → s.toWorld.synced = true →
    s.toWorld.syncState = 1 → a = g + s.rf tikSlewKey 39 32 → s.dev.tik.runAt + 8500 ≤ a →
    ∃ t, exec (.draughtSync g) s = .next t ∧ t.dev.tik.armed = some a ∧ t.toWorld.syncState = 2 ∧ t.rf tikSync 4 2 = 0 ∧
      t.dev.gtime = max s.dev.gtime g ∧ s.SameStore t) ∧
  (∀ (s : State) (g b : Nat), s.dev.live = true → s.toWorld.running = true → s.toWorld.synced = true →
    s.toWorld.syncState = 2 → s.dev.tik.bnd = some b → s.dev.tik.win = true → s.dev.tik.lock = none →
    s.dev.tik.decided = false → b ≤ g + s.dev.tik.dly + s.dev.tik.slew → g + s.dev.tik.dly ≤ b + s.dev.tik.slew →
    ∃ t, exec (.draughtSync g) s = .next t ∧ t.dev.tik.lock = some (g + s.dev.tik.dly) ∧
      t.toWorld.fixedAt = some (g + s.dev.tik.dly + s.toWorld.period) ∧ t.rf tikSync 4 2 = 0 ∧ s.SameStore t) ∧
  (∀ (s : State) (b : Nat), s.dev.live = true → s.toWorld.running = true → s.toWorld.synced = true →
    s.toWorld.syncState = 2 → s.dev.tik.bnd = some b → s.dev.tik.win = true → s.dev.tik.lock = none →
    s.dev.tik.decided = false →
    ∃ t, exec .syncSlip s = .next t ∧ t.dev.tik.decided = true ∧ b + s.dev.tik.slew + 1 ≤ t.dev.gtime ∧
      t.toWorld.fixedAt = some (b + s.toWorld.period) ∧
      t.toWorld.syncState = (if 3 ≤ s.rf tikSync 4 2 then 3 else 2)))

/-- R195, R194: once the next boundary can be told it is fixed, whatever comes; at the boundary the tick number advances,
GTIME has reached it, and no next boundary is fixed yet. R208, R212, R216: a slot that takes no micro-batch starts not before
its time; a used entry whose slot has completed on every member leaves its queue; a slip above SLIP_LIMIT sets the group's
FAULT. -/
def Obligations.BoundariesSlotsAndSlip : Prop :=
  (
  (∀ (s : State) (b : Nat), s.dev.live = true → s.dev.tik.next = none → s.toWorld.fixedAt = some b →
    ∃ t, exec .boundaryAnnounce s = .next t ∧ t.dev.tik.next = some b ∧ t.dev.tik.bnd = s.dev.tik.bnd ∧
      t.dev.regs = s.dev.regs ∧ t.dev.gtime = s.dev.gtime ∧ s.SameStore t) ∧
  (∀ (s : State) (b : Nat), s.dev.live = true → s.toWorld.running = true → s.dev.tik.next = some b →
    ∃ t, exec .tickBoundary s = .next t ∧ t.dev.tik.bnd = some b ∧ t.dev.tik.next = none ∧
      t.toWorld.tickNow = s.toWorld.tickNext % 2 ^ 48 ∧ t.reg (rk 1 0x0B0) = BitVec.ofNat 64 b ∧ b ≤ t.dev.gtime ∧
      s.dev.gtime ≤ t.dev.gtime)) ∧
  (
  (∀ (s : State) (g i : Nat) (x : Group) (m : Member) (q : RelSlot) (qs : List RelSlot), s.dev.live = true →
    s.toWorld.grp g = some x → x.members.find? (fun m => m.stove == i) = some m → m.queue = q :: qs → q.fed = false →
    takesEntry q.op = none → 0 < q.count → q.recs < q.count →
    ∃ t y n, exec (.slotStart g i) s = .next t ∧ t.toWorld.grp g = some y ∧
      y.members.find? (fun m => m.stove == i) = some n ∧ n.queue = { q with fed := true } :: qs ∧
      t.dev.gtime = max s.dev.gtime q.ready ∧ t.dev.regs = s.dev.regs ∧ s.SameStore t) ∧
  (∀ (s : State) (g : Nat) (x : Group) (e : MbEntry), s.dev.live = true → s.toWorld.grp g = some x →
    (s.toWorld.mbqOf g).find? (fun e => e.used && x.members.all fun m => m.queue.all fun q => !matchesSlot q e) = some e →
    s.dev.tik.mbwait = [] →
    ∃ t, exec (.mbqEntryRetire g) s = .next t ∧ t.toWorld.mbqOf g = (s.toWorld.mbqOf g).erase e) ∧
  (∀ (s : State) (g : Nat) (x : Group), s.dev.live = true → s.toWorld.grp g = some x → x.slipLimit < x.slip →
    x.pastLimit = false → x.abort = false →
    ∃ t, exec (.slipLimitFault g) s = .next t ∧ t.toWorld.grp g = some { x with pastLimit := true, fault := true }))

/-- R205: BIND whose checks hold shows OK and the group is bound with its job, ring and members; UNBIND of a bound group of a
job that does not run shows OK and frees it. R202 to R205: BIND of a legal group descriptor and schedule table completes with
OK and the group stands with their fields. R218: START of a bound, idle job names its tick; STOP of a running job names its
step and waits; the boundary after step X stops the job, its step being X + 1; the stop completes once every released command
has. -/
def Obligations.GroupsAndJobsStartAndStop : Prop :=
  (
  (∀ (s : State) (p g j : Nat) (x : Run), s.hosts p → g < 256 → s.notHeld 1 0x0E0 →
    bit (s.reg (rk 1 0x0E8)) 0 = true →
    j = fld (s.toWorld.word (s.rf (rk 1 0x0D8) 47 6 * 64 + g * 64)) 5 0 → s.toWorld.assignable j p = true →
    (bindGroup p g).run (Run.init s.toWorld (mantel 1)) = .ok (stOk, x) →
    ∃ t y, exec (.bind p g) s = .next t ∧ bit (t.reg (rk 1 0x0E8)) 0 = true ∧ t.rf (rk 1 0x0E8) 15 8 = stOk ∧
      t.rf (rk 1 0x0E8) 23 16 = g ∧ t.dev.bound = s.dev.bound ++ [y] ∧ y.num = g ∧ y.job = j ∧ y.slip = 0 ∧ y.fault = false) ∧
  (∀ (s : State) (p g : Nat) (x : Group), s.hosts p → g < 256 → s.notHeld 1 0x0E0 →
    bit (s.reg (rk 1 0x0E8)) 0 = true → s.toWorld.grp g = some x → s.toWorld.assignable x.job p = true →
    (s.toWorld.job x.job).any Job.running = false → (s.toWorld.job x.job).any Job.aborted = false →
    ∃ t, exec (.unbind p g) s = .next t ∧ t.toWorld.grp g = none ∧ bit (t.reg (rk 1 0x0E8)) 0 = true ∧
      t.rf (rk 1 0x0E8) 15 8 = stOk ∧ t.rf (rk 1 0x0E8) 23 16 = g ∧ s.SameStore t ∧
      (∀ h, h ≠ g → t.toWorld.grp h = s.toWorld.grp h))) ∧
  (
  ∀ (s : State) (p g a j n ring : Nat) (ws : List U64) (tab : Nat → List U64) (es : List (U64 × U64)), s.hosts p → g < 256 →
    s.notHeld 1 0x0E0 → bit (s.reg (rk 1 0x0E8)) 0 = true → s.still → a = s.rf (rk 1 0x0D8) 47 6 * 64 + g * 64 →
    s.toWorld.inHbm a 64 = true → ws = words64 (s.toWorld.bytes a 64) → j = fld (ws.getD 0 0) 5 0 → s.toWorld.assignable j p = true →
    (s.toWorld.job j).isSome = true → s.toWorld.grp g = none → ring = fld (ws.getD 0 0) 8 7 → n = fld (ws.getD 0 0) 23 10 + 1 →
    bit (ws.getD 0 0) 6 = true → fld (ws.getD 0 0) 63 29 = 0 → fld (ws.getD 1 0) 63 48 = 0 → fld (ws.getD 2 0) 31 22 = 0 →
    ws.getD 3 0 = 0 → membersOf ws ≠ [] → fld (ws.getD 0 0) 27 24 ≠ 0 → fld (ws.getD 2 0) 21 0 % 32 = 0 →
    fld (ws.getD 2 0) 63 32 % 64 = 0 → fld (ws.getD 1 0) 47 0 % 4096 = 0 →
    (∀ m ∈ membersOf ws, s.toWorld.isBound ⟨0x1000 + m, ring⟩ = false ∧ bit (s.reg (rgk ⟨0x1000 + m, ring⟩ 0)) 0 = true ∧
      s.toWorld.assignable j (s.toWorld.ringPort ⟨0x1000 + m, ring⟩) = true) →
    (∀ b, b < ceilDiv n 256 → s.wordsAt { mantel 1 with job := some j } (fld (ws.getD 1 0) 47 0 + 4096 * b)
      (2 * min 256 (n - 256 * b)) = some (tab b)) →
    es = (List.range (ceilDiv n 256)).flatMap (fun b => (chunks 2 (tab b)).map fun c => (c.getD 0 0, c.getD 1 0)) →
    (∀ x ∈ es, slotOk x = true) → es.any slotEnd = true →
    (∀ o ∈ s.toWorld.groupsOf j, o.table.map slotEnd = es.map slotEnd) →
    ∃ t, exec (.bind p g) s = .next t ∧ bit (t.reg (rk 1 0x0E8)) 0 = true ∧ t.rf (rk 1 0x0E8) 15 8 = stOk ∧
      t.rf (rk 1 0x0E8) 23 16 = g ∧ s.SameStore t ∧ t.dev.bound = s.dev.bound ++ [{
        num := g, job := j, ring := ring, lag1 := bit (ws.getD 0 0) 9, slipLimit := fld (ws.getD 0 0) 27 24
        abort := bit (ws.getD 0 0) 28, table := es, inoff := fld (ws.getD 2 0) 21 0, lstride := fld (ws.getD 2 0) 63 32
        members := (membersOf ws).map fun m => ⟨m, [], []⟩, ptr := 0, fresh := true, slip := 0, fault := false, pastLimit := false }]) ∧
  (
  (∀ (s : State) (p j k : Nat) (x : Job), s.hosts p → j < 64 → k < 2 ^ 48 → s.notHeld 1 0x0F0 →
    bit (s.reg (rk 1 0x0F8)) 0 = true → s.toWorld.assignable j p = true → s.toWorld.job j = some x →
    s.toWorld.groupsOf j ≠ [] → x.running = false → x.start = none → x.aborted = false →
    (s.dev.tik.bnd.isSome = true → s.toWorld.tickNow < k) →
    ∃ t, exec (.start p j k) s = .next t ∧ t.toWorld.job j = some { x with start := some k } ∧
      bit (t.reg (rk 1 0x0F8)) 0 = true ∧ t.rf (rk 1 0x0F8) 15 8 = stOk ∧ s.SameStore t ∧
      s.OnlyRegs { t with dev := { t.dev with jobs := s.dev.jobs } } [rk 1 0x0F8]) ∧
  (∀ (s : State) (p j k : Nat) (x : Job), s.hosts p → j < 64 → k < 2 ^ 32 → s.notHeld 1 0x0F0 →
    bit (s.reg (rk 1 0x0F8)) 0 = true → s.toWorld.assignable j p = true → s.toWorld.job j = some x →
    x.running = true → x.aborted = false → x.stopX = none →
    ∃ t, exec (.stop p j k) s = .next t ∧ t.toWorld.job j = some { x with stopX := some k } ∧
      bit (t.reg (rk 1 0x0F8)) 0 = false ∧ t.rf (rk 1 0x0F8) 21 16 = j ∧ s.SameStore t ∧
      s.OnlyRegs { t with dev := { t.dev with jobs := s.dev.jobs } } [rk 1 0x0F8]) ∧
  (∀ (w : World) (j tick k : Nat) (x : Job), w.job j = some x → x.aborted = false → x.start = none → x.running = true →
    x.stopX = some k → (w.groupsOf j).any (fun g => slotEnd (g.table.getD g.ptr (0, 0))) = true →
    0 ≤ stepDiff ((x.step + 1) % 2 ^ 32) ((k + 2) % 2 ^ 32) →
    (w.jobBoundary j tick).job j = some { x with
      running := false, stopEnding := true, stopX := none, stopB := (tick, w.dev.gtime), step := (k + 1) % 2 ^ 32 }) ∧
  (∀ (s : State) (j : Nat) (x : Job), s.dev.live = true → s.toWorld.job j = some x → x.stopEnding = true →
    (∀ g ∈ s.toWorld.groupsOf j, ∀ m ∈ g.members, m.queue = []) → s.dev.snp.haltStop = false → s.dev.snp.ckptWait = false →
    ∃ t, exec (.stopComplete j) s = .next t ∧ t.toWorld.job j = some { x with stopEnding := false } ∧ s.SameStore t ∧
      (bit (s.reg (rk 1 0x0F8)) 0 = false → s.rf (rk 1 0x0F8) 21 16 = j →
        bit (t.reg (rk 1 0x0F8)) 0 = true ∧ t.rf (rk 1 0x0F8) 15 8 = stOk)))

/-- R121, R123: a CREATE whose checks hold shows OK, the job exists with its descriptor's fields and stands at its step;
R124: a DESTROY of a job with nothing saved and nothing running shows OK and the job is gone. R121, R123: CREATE of a legal
descriptor in HBM completes with OK and the job stands with its fields. -/
def Obligations.JobsAreCreatedAndDestroyed : Prop :=
  (
  (∀ (s : State) (p j : Nat) (x : Run), s.hosts p → j < 64 → s.notHeld 0 0x408 →
    bit (s.reg (rk 0 0x410)) 0 = true → s.toWorld.assignable j p = true →
    (createJob p j).run (Run.init s.toWorld (mantel 0)) = .ok (stOk, x) →
    ∃ t y, exec (.create p j) s = .next t ∧ t.dev.jobs = s.dev.jobs ++ [y] ∧ y.num = j ∧ y.running = false ∧
      y.aborted = false ∧ y.step = y.step0 ∧ bit (t.reg (rk 0 0x418)) j = true ∧ bit (t.reg (rk 0 0x410)) 0 = true ∧
      t.rf (rk 0 0x410) 15 8 = stOk ∧ t.rf (rk 0 0x410) 21 16 = j ∧ s.SameStore t) ∧
  (∀ (s : State) (p j : Nat), s.hosts p → j < 64 → s.notHeld 0 0x408 → bit (s.reg (rk 0 0x410)) 0 = true →
    s.toWorld.assignable j p = true → (s.toWorld.job j).isSome = true → s.toWorld.jobSaved j = false →
    (s.toWorld.destroyBegin j).jobBusy j = false → (s.toWorld.destroyBegin j).jobAccess j = false →
    ∃ t, exec (.destroy p j) s = .next t ∧ t.toWorld.job j = none ∧ bit (t.reg (rk 0 0x418)) j = false ∧
      bit (t.reg (rk 0 0x410)) 0 = true ∧ t.rf (rk 0 0x410) 15 8 = stOk ∧ t.rf (rk 0 0x410) 21 16 = j ∧
      (∀ y ∈ t.dev.stk.rts, y.job ≠ j) ∧ (∀ y ∈ t.dev.stk.kvs, y.job ≠ j))) ∧
  (
  ∀ (s : State) (p j a : Nat) (x : Nat → U64) (tab : List (U64 × U64)), s.hosts p → j < 64 → s.notHeld 0 0x408 →
    bit (s.reg (rk 0 0x410)) 0 = true → s.toWorld.assignable j p = true → s.still → s.toWorld.job j = none →
    bit (s.reg (rk 0x120 (0x800 + 8 * j))) 0 = true → a = fld (s.toWorld.banked p (rk 0 0x400)) 47 6 * 64 →
    s.toWorld.inHbm a 64 = true → x = (fun i => (words64 (s.toWorld.bytes a 64)).getD i 0) →
    s.toWorld.inHbm (fld (x 1) 47 0) 256 = true → s.toWorld.inHbm (fld (x 2) 47 0) 0x800000 = true →
    s.toWorld.inHbm (fld (x 3) 47 0) 0x80000 = true → s.toWorld.inHbm (fld (x 4) 47 0) 0x2000 = true →
    fld (x 1) 7 0 = 0 → fld (x 2) 21 0 = 0 → fld (x 3) 11 0 = 0 → fld (x 4) 11 0 = 0 →
    (∀ i, 1 ≤ i → i < 5 → fld (x i) 63 48 = 0) → fld (x 5) 63 32 = 0 → x 6 = 0 → x 7 = 0 →
    tab = (chunks 2 (words64 (s.toWorld.bytes (fld (x 1) 47 0) 256))).map (fun c => (c.getD 0 0, c.getD 1 0)) →
    recipeTableOk tab = true →
    ∃ t y, exec (.create p j) s = .next t ∧ t.dev.jobs = s.dev.jobs ++ [y] ∧ y.num = j ∧ y.seed = x 0 ∧ y.recipe = tab ∧
      y.health = fld (x 2) 47 0 ∧ y.livetab = fld (x 3) 47 0 ∧ y.savetab = fld (x 4) 47 0 ∧ y.step = fld (x 5) 31 0 ∧
      y.step0 = y.step ∧ y.running = false ∧ y.aborted = false ∧ bit (t.reg (rk 0 0x418)) j = true ∧
      bit (t.reg (rk 0 0x410)) 0 = true ∧ t.rf (rk 0 0x410) 15 8 = stOk ∧ t.rf (rk 0 0x410) 21 16 = j ∧ s.SameStore t)

/-- R38, R39: a write of WBX_XLT_INV starts an invalidation; when it ends, no cached translation of its pages is left, and
DONE shows. R81 to R83: a step's records are evaluated once; the bank of an evaluated step is zeroed and clean at the
boundary two steps later, every byte outside it as before (no snapshot running). -/
def Obligations.TranslationsAndHealthBanks : Prop :=
  (
  (∀ (s : State) (p : Nat) (v : U64), s.hosts p → s.notHeld 0x120 0xA00 → s.dev.xlt.inv = none →
    s.toWorld.assignable (fld v 5 0) p = true →
    ∃ t, exec (.wbxXltInv p v) s = .next t ∧ t.dev.xlt.inv = some v ∧ t.rf xltSts 1 0 = 2 ∧ s.SameStore t ∧
      s.OnlyRegs { t with dev := { t.dev with xlt := s.dev.xlt } } [xltSts]) ∧
  (∀ (s : State) (v : U64), s.dev.live = true → s.dev.xlt.inv = some v → s.toWorld.jobAccess (fld v 5 0) = false →
    ∃ t, exec .xltInvDone s = .next t ∧ t.dev.xlt.inv = none ∧ t.rf xltSts 1 0 = 1 ∧ s.SameStore t ∧
      (∀ e ∈ t.dev.xlt.cache, e.job ≠ fld v 5 0 ∨ (bit v 6 = false ∧ e.vpn ≠ fld v 47 21)) ∧
      (∀ e ∈ s.dev.xlt.cache, e.job ≠ fld v 5 0 → e ∈ t.dev.xlt.cache) ∧
      s.OnlyRegs { t with dev := { t.dev with xlt := s.dev.xlt } } [xltSts])) ∧
  (
  (∀ (s : State) (j k : Nat) (x : Job), s.dev.live = true → s.toWorld.job j = some x → x.evaluated.contains k = false →
    s.toWorld.stepBusy j k = false → s.toWorld.rangeVisible (healthAddr x k 0) 0x400000 = true →
    s.toWorld.rangeAway (healthAddr x k 0) 0x400000 = [] →
    ∃ t y, exec (.healthEval j k) s = .next t ∧ t.toWorld.job j = some y ∧ y.evaluated = (k :: x.evaluated).take 4) ∧
  (∀ (s : State) (j k : Nat) (x : Job), s.dev.live = true → s.toWorld.job j = some x →
    x.zeroWait.contains ((k + 2) % 2 ^ 32) = true → x.evaluated.contains k = true → s.dev.urk.dir = [] →
    s.toWorld.rangeVisible (healthAddr x k 0) 0x400000 = true → s.dev.urk.snoops = [] → s.dev.snp.run = none →
    ∃ t y, exec (.healthBankZero j k) s = .next t ∧ t.toWorld.job j = some y ∧
      y.zeroWait = x.zeroWait.filter (· ≠ (k + 2) % 2 ^ 32) ∧
      (∀ a, healthAddr x k 0 ≤ a → a < healthAddr x k 0 + 0x400000 → t.byteAt a = 0 ∧ t.poisonAt a = false) ∧
      (∀ a, a < healthAddr x k 0 ∨ healthAddr x k 0 + 0x400000 ≤ a → t.byteAt a = s.byteAt a ∧ t.poisonAt a = s.poisonAt a)))

/-- R226, R227, R232, R244: the stove's channel commands complete, or are accepted and wait on their flow. R226, R229:
CHN_POST of a legal ring descriptor on an enabled endpoint posts the ring and writes its tail line FREE. R227, R232, R235,
R244: CHN_OPEN opens a flow in the lowest free context; CHN_SEND on an open flow whose ring has room sends its record;
CHN_CLOSE of an idle flow sends its close; each waits for its answer; CHN_CLOSE with POSTED completes and the ring is gone.
R226, R227: what an accepted CHN_POST and CHN_OPEN leave: a posted ring of the stove with no flow; an opening flow with the
target, epoch and job of the command, whose OPEN has gone out. -/
def Obligations.ChannelCommandsAndPostedRings : Prop :=
  (
  Completes .chnPost (hasOp 0x22) chnPost ∧ Accepts .chnOpen (hasOp 0x23) chnOpen ∧
  Accepts .chnSend (hasOp 0x24) chnSend ∧ Accepts .chnClose (fun d => opcodeOf d = 0x25 ∧ bit d.w2 12 = false) chnClose ∧
  Completes .chnWithdraw (fun d => opcodeOf d = 0x25 ∧ bit d.w2 12 = true) chnWithdraw) ∧
  (
  (∀ (s : State) (c : Cmd) (e : Entry) (ag : Agent) (i a k pr pt ph pl pp : Nat) (ws : List U64) (x : RxRing),
    s.ready c e 0x22 → ringStove c.ring = some i → ag = agentOf c.ring e → a = fld c.desc.w2 47 0 → fld c.desc.w2 63 48 = 0 →
    a % 64 = 0 → [c.desc.w3, c.desc.w4, c.desc.w5, c.desc.w6, c.desc.w7] = [0, 0, 0, 0, 0] → s.wordsAt ag a 8 = some ws →
    x = ⟨i, k, fld (ws.getD 0 0) 55 53, jobOf c.desc, a, ws, [(pr, 2 ^ fld (ws.getD 0 0) 52 48)], pt, ph,
      if x.nb * x.bsz = 0 then [] else [(pl, x.nb * x.bsz)], if x.ashSize = 0 then [] else [(pp, x.ashSize)], none⟩ →
    fld (x.word 0) 63 56 = 0 → (∀ n, n = 1 ∨ n = 2 ∨ n = 4 ∨ n = 6 → fld (x.word n) 63 48 = 0) → fld (x.word 3) 63 26 = 0 →
    fld (x.word 5) 63 32 = 0 → fld (x.word 7) 63 32 = 0 → 12 ≤ x.log2 → x.log2 ≤ 20 → fld (x.word 0) 47 0 % x.size = 0 →
    fld (x.word 1) 47 0 % 128 = 0 → fld (x.word 2) 47 0 % 128 = 0 → fld (x.word 3) 16 0 ≤ 65536 → x.land0 % 4096 = 0 →
    fld (x.word 6) 47 0 % 4096 = 0 → x.ashSize % 4096 = 0 → s.rf (epKey i x.ep) 0 0 = 1 → s.rf (epKey i x.ep) 6 1 = jobOf c.desc →
    ((List.range 16).find? fun n => !s.dev.chn.rings.any fun y => y.stove == i && y.slot == n) = some k →
    s.span ag (fld (x.word 0) 47 0) x.size true = some pr → s.toWorld.inHbm pr x.size = true →
    s.span ag (fld (x.word 1) 47 0) 128 true = some pt → s.toWorld.inHbm pt 128 = true →
    s.span ag (fld (x.word 2) 47 0) 128 x.mbq = some ph → s.toWorld.inHbm ph 128 = true →
    x.nb * x.bsz = 0 ∨ s.span ag x.land0 (x.nb * x.bsz) true = some pl →
    x.ashSize = 0 ∨ (s.span ag (fld (x.word 6) 47 0) x.ashSize true = some pp ∧ s.toWorld.inHbm pp x.ashSize = true) →
    ∃ t, exec (.chnPost c) s = .next t ∧ t.doneIn c.ring e.idx stOk ∧ t.dev.chn.rings = s.dev.chn.rings ++ [x] ∧
      s.StoredAt t pt (List.replicate 128 0) ∧ t.pending = s.pending ∧ t.sec = s.sec) ∧
  (∀ (s : State) (c : Cmd) (e : Entry) (i ctx dev target : Nat),
    s.ready c e 0x23 → ringStove c.ring = some i → fld c.desc.w3 31 17 = 0 → fld c.desc.w3 16 0 ≤ 65536 →
    fld c.desc.w4 63 48 = 0 → fld c.desc.w4 47 0 % 32 = 0 → [c.desc.w5, c.desc.w6, c.desc.w7] = [0, 0, 0] →
    (s.span (agentOf c.ring e) (fld c.desc.w4 47 0) 32 true).isSome = true → target = fld c.desc.w2 31 0 → dev = target % 2 ^ 13 →
    bits target 31 24 = 0 → dev = s.toWorld.devId ∨ (s.toWorld.outPort dev).isSome = true → s.toWorld.freeCtx = some ctx →
    ∃ t x f, exec (.chnOpen c) s = .next t ∧ t.entry c.ring e.idx = some x ∧ x.phase = .channel ctx ∧
      t.toWorld.sflow ctx = some f ∧ f.st = .opening ∧ f.target = target ∧ f.epoch = fld c.desc.w2 63 48 ∧
      f.job = jobOf c.desc ∧ f.stove = i ∧ f.result = fld c.desc.w4 47 0 ∧ f.cmd = some (c.ring, e.idx) ∧
      (dev = s.toWorld.devId → t.dev.net = s.dev.net ++ [.chnOpen ⟨jobOf c.desc, dev, (agentOf c.ring e).node, ctx, target,
        fld c.desc.w2 47 32, f.epoch, fld c.desc.w3 16 0, fld c.desc.w3 63 32⟩]) ∧
      t.mem = s.mem ∧ t.pending = s.pending ∧ t.sec = s.sec) ∧
  (∀ (s : State) (c : Cmd) (e : Entry) (ag : Agent) (i ctx len blen n : Nat) (f : SFlow) (ps bs : List Byte),
    s.ready c e 0x24 → ringStove c.ring = some i → ag = agentOf c.ring e → ctx = fld c.desc.w2 11 0 → fld c.desc.w2 63 12 = 0 →
    fld c.desc.w3 63 48 = 0 → fld c.desc.w3 47 0 % 32 = 0 → fld c.desc.w4 63 18 = 0 → fld c.desc.w5 63 48 = 0 →
    fld c.desc.w5 47 0 % 32 = 0 → fld c.desc.w6 63 32 = 0 → c.desc.w7 = 0 → len = fld c.desc.w4 16 0 → blen = fld c.desc.w6 31 0 →
    blen % 32 = 0 → bit c.desc.w4 17 = false ∨ (blen ≠ 0 ∧ 32 ≤ len) → s.toWorld.sflow ctx = some f → f.stove = i →
    f.st = .isOpen → f.reason = none → f.cmd = none → f.spilled = [] → len ≤ f.maxmsg → blen ≤ f.maxbulk →
    f.mbq = false ∨ (e.stamp.isSome = true ∧ 32 ≤ len) → f.place false len blen = .placed n →
    s.readAt ag (fld c.desc.w3 47 0) len = some ps → (blen = 0 ∧ bs = []) ∨ s.readAt ag (fld c.desc.w5 47 0) blen = some bs →
    ∃ t x g, exec (.chnSend c) s = .next t ∧ t.entry c.ring e.idx = some x ∧ x.phase = .channel ctx ∧
      t.toWorld.sflow ctx = some g ∧ g.tail = f.tail + n ∧ g.mseq = f.mseq + 1 ∧ g.spilled = [] ∧ g.since = none ∧
      g.cmd = some (c.ring, e.idx) ∧ g.res.1 = stOk ∧
      (f.peerDev = s.toWorld.devId → t.dev.net = s.dev.net ++ [.chnData ⟨f.peerCtx, f.tail,
        (recHeader len (blen != 0) f.mseq e.stamp).1, (recHeader len (blen != 0) f.mseq e.stamp).2, ps, bs, false, false,
        bit c.desc.w4 17, [], []⟩]) ∧
      t.mem = s.mem ∧ t.pending = s.pending ∧ t.sec = s.sec) ∧
  (∀ (s : State) (c : Cmd) (e : Entry) (i ctx : Nat) (f : SFlow),
    s.ready c e 0x25 → ringStove c.ring = some i → ctx = fld c.desc.w2 11 0 → fld c.desc.w2 63 12 = 0 →
    fld c.desc.w3 63 48 = 0 → [c.desc.w4, c.desc.w5, c.desc.w6, c.desc.w7] = [0, 0, 0, 0] → s.toWorld.sflow ctx = some f →
    f.stove = i → f.st = .isOpen → f.reason = none → f.cmd = none → f.spilled = [] →
    ∃ t x g, exec (.chnClose c) s = .next t ∧ t.entry c.ring e.idx = some x ∧ x.phase = .channel ctx ∧
      t.toWorld.sflow ctx = some g ∧ g.st = .closing ∧ g.reason = none ∧ g.cmd = some (c.ring, e.idx) ∧
      (f.peerDev = s.toWorld.devId → t.dev.net = s.dev.net ++ [.chnClose f.peerCtx stOk]) ∧
      t.mem = s.mem ∧ t.pending = s.pending ∧ t.sec = s.sec) ∧
  (∀ (s : State) (c : Cmd) (e : Entry) (i : Nat) (x : RxRing),
    s.ready c e 0x25 → ringStove c.ring = some i → bit c.desc.w2 12 = true → fld c.desc.w2 63 13 = 0 →
    fld c.desc.w3 63 48 = 0 → [c.desc.w4, c.desc.w5, c.desc.w6, c.desc.w7] = [0, 0, 0, 0] →
    s.dev.chn.rings.find? (fun y => y.stove == i && y.addr == fld c.desc.w3 47 0 && y.job == jobOf c.desc && y.flow.isNone) =
      some x →
    ∃ t, exec (.chnWithdraw c) s = .next t ∧ t.doneIn c.ring e.idx stOk ∧
      (∀ y ∈ t.dev.chn.rings, y.stove = i → y.addr = x.addr → y.job = x.job → y.slot = x.slot → y.flow ≠ none) ∧
      (∀ y ∈ s.dev.chn.rings, y.slot ≠ x.slot → y ∈ t.dev.chn.rings) ∧ t.pending = s.pending ∧ t.sec = s.sec)) ∧
  (
  (∀ (x y : Run) (d : Desc), (chnPost d).run x = .ok (.done stOk, y) →
    ∃ r, y.w.dev.chn.rings = x.w.dev.chn.rings ++ [r] ∧ r.stove = x.ag.stove.getD 0 ∧ r.addr = fld d.w2 47 0 ∧
      r.job = jobOf d ∧ r.flow = none ∧ r.slot < 16 ∧ y.w.dev.chn.sflows = x.w.dev.chn.sflows) ∧
  (∀ (x y : Run) (d : Desc) (p : Phase), (chnOpen d).run x = .ok (.wait p, y) →
    ∃ f, p = .channel f.ctx ∧ x.w.freeCtx = some f.ctx ∧ y.w.dev.chn.sflows = x.w.dev.chn.sflows ++ [f] ∧ f.st = .opening ∧
      f.target = fld d.w2 31 0 ∧ f.epoch = fld d.w2 63 48 ∧ f.job = jobOf d ∧ f.cmd = x.ag.cmd ∧
      f.deadline = x.w.dev.gtime + x.w.rf (rk 7 0x080) 63 32))

/-- R222, R223, R245: a write of CHN_EP sets EN, JOB and ROLE, counts EPOCH and withdraws the endpoint's posted rings;
CHN_FABORT ends an open flow of this device from its sending side with CHN_CLOSED, and from its receiving side. R227, R228:
an OPEN whose endpoint is enabled with its ROLE and EPOCH and has a ring posted opens the ring's flow in the lowest free
context; with another ROLE or EPOCH it opens nothing, and is counted. R227, R228: an accept opens the flow, writes context
and negotiated sizes to the result block and completes CHN_OPEN; a refusal, or STALL without an answer, frees the context and
completes CHN_OPEN with the reason. -/
def Obligations.FlowsOpenAndEnd : Prop :=
  (
  (∀ (s : State) (p die e : Nat) (v : U64), s.hosts p → die < 8 → e < 256 →
    s.toWorld.assignable (s.rf (rk (chnPage die) (0x800 + 8 * e)) 6 1) p = true →
    s.toWorld.assignable (fld v 6 1) p = true → (∀ f ∈ s.dev.chn.rflows, f.ash = []) →
    ∃ t, exec (.chnEp p die e v) s = .next t ∧ bit (t.reg (rk (chnPage die) (0x800 + 8 * e))) 0 = bit v 0 ∧
      t.rf (rk (chnPage die) (0x800 + 8 * e)) 6 1 = fld v 6 1 ∧ t.rf (rk (chnPage die) (0x800 + 8 * e)) 31 16 = fld v 31 16 ∧
      t.rf (rk (chnPage die) (0x800 + 8 * e)) 47 32 = (s.rf (rk (chnPage die) (0x800 + 8 * e)) 47 32 + 1) % 2 ^ 16 ∧
      (∀ r ∈ t.dev.chn.rings, r.flow = none → r.stove ≠ 32 * die + e / 8 ∨ r.ep ≠ e % 8) ∧
      (∀ r ∈ s.dev.chn.rings, r.flow ≠ none → r ∈ t.dev.chn.rings)) ∧
  (∀ (s : State) (p ctx i : Nat) (f : SFlow) (r : RingId), s.hosts p → ctx < 4096 →
    s.toWorld.sflow ctx = some f → s.toWorld.assignable f.job p = true → f.cmd = some (r, i) → (s.entry r i).isSome = true →
    ∃ t, exec (.chnFabort p ctx) s = .next t ∧ t.toWorld.sflow ctx = none ∧ t.doneIn r i stClosed) ∧
  (∀ (s : State) (p ctx : Nat) (f : RFlow), s.hosts p → ctx < 4096 → s.toWorld.sflow ctx = none →
    s.toWorld.rflow ctx = some f → s.toWorld.assignable f.ojob p = true →
    ∃ t, exec (.chnFabort p ctx) s = .next t ∧ t.toWorld.rflow ctx = none)) ∧
  (
  (∀ (s : State) (m : OpenMsg) (x : RxRing) (c : Nat) (k : Nat), s.arrives (.chnOpen m) → m.target % 2 ^ 13 = s.toWorld.devId →
    bits m.target 31 24 = 0 → k = epKey (bits m.target 20 13) (bits m.target 23 21) → bit (s.reg k) 0 = true →
    s.rf k 31 16 = m.role → s.rf k 47 32 = m.epoch →
    s.dev.chn.rings.find? (fun x => x.stove == bits m.target 20 13 && x.ep == bits m.target 23 21 && x.flow.isNone) = some x →
    s.toWorld.freeCtx = some c →
    ∃ t f, exec (.chnOpenPkt m) s = .next t ∧ t.toWorld.rflow c = some f ∧ f.stove = x.stove ∧ f.slot = x.slot ∧
      f.target = m.target ∧ f.ojob = m.job ∧ f.epoch = m.epoch ∧ f.job = s.rf k 6 1 ∧ f.tail = 0 ∧ f.head = 0 ∧
      f.peerDev = m.srcDev ∧ f.peerCtx = m.srcCtx) ∧
  (∀ (s : State) (m : OpenMsg) (k : Nat), s.arrives (.chnOpen m) → m.target % 2 ^ 13 = s.toWorld.devId →
    bits m.target 31 24 = 0 → k = epKey (bits m.target 20 13) (bits m.target 23 21) →
    bit (s.reg k) 0 = false ∨ s.rf k 31 16 ≠ m.role ∨ s.rf k 47 32 ≠ m.epoch →
    ∃ t, exec (.chnOpenPkt m) s = .next t ∧ t.dev.chn.rflows = s.dev.chn.rflows ∧ t.dev.chn.rings = s.dev.chn.rings ∧
      t.rf (rk (chnPage (bits m.target 20 13 / 32)) 0x098) 31 0 =
        min (2 ^ 32 - 1) (s.rf (rk (chnPage (bits m.target 20 13 / 32)) 0x098) 31 0 + 1))) ∧
  (
  (∀ (s : State) (m : AcceptMsg) (f : SFlow) (r : RingId) (i pa : Nat) (e : Entry) (w : World), s.arrives (.chnAccept m) →
    s.toWorld.sflow m.ctx = some f → f.st = .opening → f.cmd = some (r, i) → s.entry r i = some e → f.result % 32 = 0 →
    s.toWorld.xlate (agentOf r e) (jobOf e.desc) f.result true = (.ok pa, w) → s.plain (engineNode r.page r.n) pa 24 = true →
    ∃ t g, exec (.chnAccept m) s = .next t ∧ t.doneIn r i stOk ∧ t.toWorld.sflow m.ctx = some g ∧ g.st = .isOpen ∧
      g.peerDev = m.peerDev ∧ g.peerCtx = m.peerCtx ∧ g.maxmsg = m.maxmsg ∧ g.maxbulk = m.maxbulk ∧ g.log2 = m.log2sz ∧
      s.StoredAt t pa (leBytes 8 m.ctx ++ leBytes 8 (m.maxmsg + m.maxbulk * 2 ^ 32) ++ leBytes 8 (m.log2sz + m.mbq.toNat * 32))) ∧
  (∀ (s : State) (ctx reason : Nat) (f : SFlow) (r : RingId) (i pa : Nat) (e : Entry) (w : World), s.dev.live = true →
    s.toWorld.sflow ctx = some f → f.st = .opening → f.cmd = some (r, i) → s.entry r i = some e → f.result % 32 = 0 →
    s.toWorld.xlate (agentOf r e) (jobOf e.desc) (f.result + 24) true = (.ok pa, w) → s.plain (engineNode r.page r.n) pa 8 = true →
    (s.arrives (.chnRefuse ctx reason) → ∃ t, exec (.chnRefuse ctx reason) s = .next t ∧ t.doneIn r i (if reason = 0 then stNackStale else stRefused) ∧
      t.toWorld.sflow ctx = none ∧ s.StoredAt t pa (leBytes 8 reason)) ∧
    (∃ t, exec (.openTimeout ctx) s = .next t ∧ t.doneIn r i stRefused ∧ t.toWorld.sflow ctx = none ∧
      s.StoredAt t pa (leBytes 8 4) ∧ t.dev.gtime = max s.dev.gtime f.deadline)))

/-- R229, R230, R232, R236: a record of a flow whose endpoint keeps its epoch is placed: TAIL, MSEQ and the count of messages
taken advance, and the tail line falls due; CHN_TAIL writes it, once everything placed is visible, and reports; a head line
between HEAD and TAIL moves HEAD, and any other value marks the flow. R236, R233, R244: a credit moves the sender's HEAD; the
answer to a close completes CHN_CLOSE and frees the context; a close from the peer frees a receiving context. -/
def Obligations.RecordsCreditsAndCloses : Prop :=
  (
  (∀ (s : State) (m : DataMsg) (f : RFlow) (x : RxRing), s.arrives (.chnData m) → s.toWorld.rflow m.ctx = some f →
    f.shut = none → s.toWorld.rxOf f = some x → m.wrap = false → m.toAsh = false →
    s.rf (epKey f.stove (bits f.target 23 21)) 47 32 = f.epoch →
    ∃ t g, exec (.chnData m) s = .next t ∧ t.toWorld.rflow m.ctx = some g ∧ g.tail = f.tail + up64 (16 + m.payload.length) ∧
      g.mseq = fld m.h0 63 32 ∧ g.taken = f.taken + 1 ∧ g.due = true ∧ g.head = f.head) ∧
  (∀ (s : State) (c : Nat) (f : RFlow) (x : RxRing), s.dev.live = true → s.toWorld.rflow c = some f →
    f.due = true → s.toWorld.rxOf f = some x → s.toWorld.flowCut f = false → s.toWorld.placedVisible x = true →
    ∃ t, exec (.chnTail c) s = .next t ∧ t.toWorld.rflow c = some { f with due := false, shown := f.tail }) ∧
  (∀ (s : State) (c h : Nat) (f : RFlow) (x : RxRing), s.dev.live = true → s.toWorld.rflow c = some f →
    s.toWorld.rxOf f = some x → x.mbq = false → s.toWorld.lineAway x.hline = false →
    h = (s.toWorld.word x.hline).toNat →
    (f.head ≤ h ∧ h ≤ f.tail → ∃ t g, exec (.headLineWrite c) s = .next t ∧ t.toWorld.rflow c = some g ∧ g.head = h ∧
      g.tail = f.tail ∧ (∀ e ∈ g.bulkEnds, h < e)) ∧
    (h < f.head ∨ f.tail < h → exec (.headLineWrite c) s =
      .next { s with dev := { s.dev with chn := { s.dev.chn with
        rflows := updFirst (fun y => y.ctx == c) (fun y => { y with bad := true }) s.dev.chn.rflows } } }))) ∧
  (
  (∀ (s : State) (c h : Nat) (f : SFlow), s.arrives (.chnCredit c h) → s.toWorld.sflow c = some f → f.st ≠ .opening → f.head < h →
    f.since = none →
    ∃ t, exec (.chnCredit c h) s = .next t ∧
      t.toWorld.sflow c = some { f with head := h, bulkEnds := f.bulkEnds.filter fun e => decide (h < e) } ∧ s.SameStore t) ∧
  (∀ (s : State) (c i : Nat) (f : SFlow) (r : RingId), s.arrives (.chnClose c stOk) → s.toWorld.sflow c = some f →
    f.st = .closing →
    f.cmd = some (r, i) → (s.entry r i).isSome = true →
    ∃ t, exec (.chnClosePkt c stOk) s = .next t ∧ t.doneIn r i stOk ∧ t.toWorld.sflow c = none) ∧
  (∀ (s : State) (c q : Nat) (f : RFlow), s.arrives (.chnClose c q) → s.toWorld.sflow c = none → s.toWorld.rflow c = some f →
    ∃ t, exec (.chnClosePkt c q) s = .next t ∧ t.toWorld.rflow c = none ∧
      ∀ x ∈ t.dev.chn.rings, x.flow ≠ some c))

/-- R238 to R240: a message that has waited OVF_WAIT is placed again, in the ash pit; the pit's oldest message moves into the
ring as room allows; a wait of STALL is reported once. R238, R240: a message that has waited OVF_WAIT on a flow whose ash pit
has room for it enters the pit. -/
def Obligations.AshPitAndStalls : Prop :=
  (
  (∀ (s : State) (c i : Nat) (f g : SFlow) (r : RingId) (e : Entry) (p : Phase) (x : Run), s.dev.live = true →
    s.toWorld.sflow c = some f → f.since.isSome = true → f.ash ≠ 0 → f.spilled = [] → f.ovfAt ≤ s.dev.gtime →
    f.cmd = some (r, i) → s.entry r i = some e → opcodeOf e.desc = 0x24 →
    s.resumes r e (sendStep c e.desc true 3) (.wait p) x → x.w.sflow c = some g → g.spilled ≠ [] →
    ∃ t, exec (.ashSpill c) s = .next t ∧ t.toWorld.sflow c = some g ∧ t.mem = memCommit s.mem x.w.log) ∧
  (∀ (s : State) (c : Nat) (f : RFlow) (x : RxRing) (m : AshMsg) (rest : List AshMsg) (n : Nat), s.dev.live = true →
    s.toWorld.rflow c = some f → s.toWorld.rxOf f = some x → f.ash = m :: rest → f.peerDev ≠ s.toWorld.devId →
    s.toWorld.flowCut f = false → s.toWorld.isStale f = false → s.toWorld.areaAway x.ash (m.off % x.ashSize) m.size = [] →
    n = up64 (16 + leNat ((s.toWorld.pieceBytes x.ash (m.off % x.ashSize) 16).take 8) % 2 ^ 17) →
    n ≤ x.size - f.tail % x.size → n ≤ x.size - (f.tail - f.head) → m.bulk = 0 ∨ f.bulkEnds.length < x.nb →
    ∃ t g, exec (.ashDrain c) s = .next t ∧ t.toWorld.rflow c = some g ∧ g.ash = rest ∧ g.due = true ∧
      g.aHead = (match rest with | q :: _ => q.off | [] => f.aTail)) ∧
  (∀ (s : State) (c k : Nat) (f : SFlow), s.dev.live = true → s.toWorld.sflow c = some f → f.spilled = [] →
    f.since = some k → f.stalled = false →
    ∃ t, exec (.chnStall c) s = .next t ∧ t.toWorld.sflow c = some { f with stalled := true } ∧
      t.dev.gtime = max s.dev.gtime f.stallAt)) ∧
  (
  ∀ (s : State) (ctx i len blen n : Nat) (f : SFlow) (r : RingId) (e : Entry) (ps : List Byte), s.dev.live = true → s.still →
    s.toWorld.sflow ctx = some f → f.since.isSome = true → f.ash ≠ 0 → f.spilled = [] → f.cmd = some (r, i) →
    s.entry r i = some e → opcodeOf e.desc = 0x24 → (∀ x ∈ (s.toWorld.ringRun r).entries, x.idx < i → x.waiting = false) →
    len = fld e.desc.w4 16 0 → blen = fld e.desc.w6 31 0 → f.place true len blen = .placed n →
    s.readAt (agentOf r e) (fld e.desc.w3 47 0) len = some ps →
    blen = 0 ∨ (s.readAt (agentOf r e) (fld e.desc.w5 47 0) blen).isSome = true →
    ∃ t g, exec (.ashSpill ctx) s = .next t ∧ t.toWorld.sflow ctx = some g ∧ g.spilled.length = 1 ∧ g.aTail = f.aTail + n ∧
      g.tail = f.tail ∧ g.mseq = f.mseq + 1 ∧ g.since = none ∧ t.dev.gtime = max s.dev.gtime f.ovfAt ∧ t.mem = s.mem ∧
      t.pending = s.pending ∧ t.sec = s.sec)

/-- R261, R262: at its home a contribution in time, of an index its chunk has not taken, is accepted into the open chunk: it
counts in n, enters the roster and adds each decoded element exactly; a late one is discarded and counted, as is one whose
index was taken (with EV_UE) or that finds no arm (with EV_LATE); none changes the chunk. One whose unit finds no room waits
in the network (R275). -/
def Obligations.ContributionsAreAcceptedOrDiscarded : Prop :=
  (∀ (s : State) (m : Contrib) (a : Arm), s.arrives (.contrib m) → s.toWorld.arm m.tag m.step = some a → a.isHome = true → a.mode = 0 →
    m.empty = false →
    (s.toWorld.isLate a m.chunk = true → ∃ t, exec (.contrib m) s = .next t ∧ s.SameStore t ∧ t.dev.chm = s.dev.chm ∧
      t.dev.net = s.dev.net.erase (.contrib m) ∧
      t.rf chmDiscard 31 0 = min (2 ^ 32 - 1) (s.rf chmDiscard 31 0 + 1)) ∧
    (s.toWorld.isLate a m.chunk = false → cfmtOk m.cfmt = true → m.cix < a.ncontrib → m.chunk < a.nchunk →
      a.homeOf m.chunk = s.toWorld.devId →
      (∀ k, a.chunks.filter (fun x => x.num == m.chunk) = [k] → k.roster.contains m.cix = false →
        ∃ t x, exec (.contrib m) s = .next t ∧ t.toWorld.arm m.tag m.step = some x ∧
          x.chunks.filter (fun y => y.num == m.chunk) = [k.accept m] ∧
          x.chunks.filter (fun y => y.num != m.chunk) = a.chunks.filter (fun y => y.num != m.chunk) ∧ s.SameStore t ∧
          t.dev.net = s.dev.net.erase (.contrib m)) ∧
      (∀ k, a.chunks.filter (fun x => x.num == m.chunk) = [k] → k.roster.contains m.cix = true →
        bit (s.reg (rk 6 0x010)) 3 = false →
        ∃ t, exec (.contrib m) s = .next t ∧ t.dev.chm = s.dev.chm ∧ s.SameStore t ∧
          t.rf chmDiscard 63 32 = min (2 ^ 32 - 1) (s.rf chmDiscard 63 32 + 1) ∧ bit (t.reg (rk 6 0x020)) 1 = true) ∧
      (a.unitOpen (m.chunk / a.unit) = false → (∀ x ∈ a.chunks, x.num ≠ m.chunk) →
        (s.toWorld.roomFor a (m.chunk / a.unit) = true → ∃ t x, exec (.contrib m) s = .next t ∧ t.toWorld.arm m.tag m.step = some x ∧
          x.chunks.length = a.chunks.length + a.unit ∧ x.chunkOf m.chunk = (Chunk.start m.chunk).accept m ∧ s.SameStore t) ∧
        (s.toWorld.roomFor a (m.chunk / a.unit) = false → ∃ t, exec (.contrib m) s = .next t ∧ t.dev.chm = s.dev.chm ∧ s.SameStore t ∧
          t.dev.net = .contrib m :: s.dev.net.erase (.contrib m))))) ∧
  (∀ (s : State) (m : Contrib), s.arrives (.contrib m) → s.toWorld.arm m.tag m.step = none → m.empty = false →
    s.dev.chm.past.contains (m.tag, m.step) = false → bit (s.reg (rk 6 0x010)) 3 = false →
    ∃ t, exec (.contrib m) s = .next t ∧ t.dev.chm = s.dev.chm ∧ s.SameStore t ∧
      t.rf chmDiscard2 31 0 = min (2 ^ 32 - 1) (s.rf chmDiscard2 31 0 + 1) ∧ bit (t.reg (rk 6 0x020)) 12 = true)

/-- R261, R262: two orders of the same contributions leave a chunk with the same sums, flags, count and roster, so its result
is the same bit for bit. -/
def Obligations.ArrivalOrderNeverChangesAChunk : Prop :=
  ∀ (c : Chunk) (l₁ l₂ : List Contrib), l₁.Perm l₂ → c.roster.Pairwise (· < ·) →
    l₁.foldl Chunk.accept c = l₂.foldl Chunk.accept c ∧ (l₁.foldl Chunk.accept c).n = c.n + l₁.length ∧
    (∀ i, i ∈ (l₁.foldl Chunk.accept c).roster ↔ i ∈ c.roster ∨ ∃ m ∈ l₁, m.cix = i)

/-- R263, R264: the code -2^31 is never written; a chunk that took nothing gives a NOTOK result of zeros with n = 0; a
result's FULL is n = NCONTRIB, and with a full roster SUM_RESCALED gives what SUM gives. -/
def Obligations.ClosedChunksAreRoundedByTheRule : Prop :=
  (∀ v, (encodeInt32 v).1 ≠ 0x80000000 ∧ (encodeInt32 v).1 < 2 ^ 32) ∧
  (∀ (a : Arm) (seed : U64) (c : Nat), a.mode = 0 → rfmtOk a.rfmt = true → (∀ x ∈ a.chunks, x.num ≠ c) →
    (a.closeChunk seed c).1.codes = List.replicate 256 0 ∧ (a.closeChunk seed c).1.notok = true ∧
    (a.closeChunk seed c).1.n = 0 ∧ (a.closeChunk seed c).1.full = false) ∧
  (∀ (a : Arm) (seed : U64) (c : Nat), a.mode = 0 → (a.closeChunk seed c).1.full = ((a.chunkOf c).n == a.ncontrib) ∧
    (a.closeChunk seed c).1.notok = !(a.chunkOf c).data ∧ (a.closeChunk seed c).1.roster = (a.chunkOf c).roster) ∧
  (∀ (n : Nat) (e : CElem), n ≠ 0 → closeVal 2 n n e.val = closeVal 0 n n e.val)

/-- R265 to R267: a unit whose chunks are all full closes early, is marked closed, and its results wait or are delivered; at
the close tick a home closes its units and marks the tick once all are closed; a waiting LOCAL_BLW unit goes to its bound
Bellows while that has a slice credit; then the home's summary is sent. R265, R269: where an arm's HOMEST byte may be written
and its step's bank is zeroed, a unit whose chunks are all full closes early, and the home of an ARRIVAL arm closes its unit
one tick after the close tick. R266, R268: a multicast result chunk at a receiver whose memory may be written is stored, then
its RINFO entry, and the chunk counts. -/
def Obligations.UnitsCloseAndAreHandedOn : Prop :=
  (
  (∀ (s : State) (a : Arm) (tag step u : Nat), s.dev.live = true → s.toWorld.arm tag step = some a → a.isHome = true → a.mode = 0 →
    a.unitOpen u = true → s.toWorld.tickBegun a.close = false →
    (∀ c ∈ a.unitChunks u, (a.chunkOf c).n = a.ncontrib) → a.closed.contains u = false →
    (s.toWorld.job a.job).all (fun j => !j.zeroWait.contains a.step) = true →
    (s.toWorld.chmRun a.agent (markUnit a u)).1 = true →
    ∃ t b, exec (.unitEarlyClose tag step u) s = .next t ∧ t.toWorld.arm tag step = some b ∧ u ∈ b.closed ∧
      (∀ x ∈ b.chunks, x.num / a.unit ≠ u) ∧ (u ∈ b.delivered ∨ ∃ rs, (u, rs) ∈ b.wait) ∧ t.pending = s.pending ∧ t.sec = s.sec ∧
      (a.rdel = 1 → s.toWorld.boundTo tag step = none →
        (u, (a.unitChunks u).map fun c => (a.closeChunk (match s.toWorld.job a.job with | some j => j.seed | none => 0) c).1) ∈
          b.wait)) ∧
  (∀ (s : State) (a : Arm) (tag step : Nat), s.dev.live = true → s.toWorld.arm tag step = some a → a.ticked = none →
    s.toWorld.tickBegun a.close = true →
    ((a.isHome = false ∨ a.mode ≠ 0) → a.wait = [] →
      ∃ t, exec (.closeTick tag step) s = .next t ∧
        t.toWorld.arm tag step = some { a with ticked := some (s.toWorld.tickGtime a.close) } ∧ s.SameStore t) ∧
    (a.isHome = true → a.mode = 0 → ∃ t b, exec (.closeTick tag step) s = .next t ∧ t.toWorld.arm tag step = some b ∧
      b.ticked.isSome = (s.toWorld.homeUnits a).all b.closed.contains ∧ (∀ u ∈ a.closed, u ∈ b.closed))) ∧
  (∀ (s : State) (a : Arm) (tag step u : Nat) (rs : List ResultMsg) (r : Region) (ua : UpdArm), s.dev.live = true →
    s.toWorld.arm tag step = some a → a.rdel = 1 → (a.wait.find? fun x => x.1 == u) = some (u, rs) →
    s.toWorld.boundTo tag step = some (r, ua) →
    ((s.dev.blw.slices.filter fun x => x.1 == r.die).length < 8 →
      ∃ t b, exec (.localBlwDelivery tag step u) s = .next t ∧ t.toWorld.arm tag step = some b ∧ u ∈ b.delivered ∧
        (∀ x ∈ b.wait, x.1 ≠ u) ∧ s.SameStore t ∧ t.dev.blw.slices = s.dev.blw.slices ++ [(r.die,
          ⟨tag, step, u, a.rfmt, rs.flatMap ResultMsg.codes, rs.map ResultMsg.notok, rs.any ResultMsg.poison⟩)]) ∧
    (8 ≤ (s.dev.blw.slices.filter fun x => x.1 == r.die).length → exec (.localBlwDelivery tag step u) s = .next s)) ∧
  (∀ (s : State) (a : Arm) (tag step : Nat), s.dev.live = true → s.toWorld.arm tag step = some a → a.isHome = true →
    a.sumSent = false → a.wait = [] → s.toWorld.homeUnits a ≠ [] →
    (∀ u ∈ s.toWorld.homeUnits a, u ∈ a.delivered) → a.isContrib = true → a.sums.length < a.nhdev →
    (s.toWorld.group a.cgrp).testBit 19 = true → (s.toWorld.group a.cgrp).testBit 18 = true →
    s.toWorld.groupPorts a.cgrp none = [] →
    ∃ t, exec (.closeSummarySend tag step) s = .next t ∧ t.toWorld.arm tag step = some { a with sumSent := true } ∧
      t.dev.net = s.dev.net ++ [.summary ⟨tag, step, s.toWorld.devId, a.miss, a.notFull⟩] ∧ t.dev.regs = s.dev.regs ∧ s.SameStore t)) ∧
  (
  (∀ (s : State) (a : Arm) (tag step u pa : Nat), s.dev.live = true → s.still → s.toWorld.arm tag step = some a → a.isHome = true →
    a.closed.contains u = false → s.banked a.job step → s.span a.agent (a.homest + u / 8) 1 true = some pa →
    (a.mode = 0 → a.unitOpen u = true → s.toWorld.tickBegun a.close = false → (∀ c ∈ a.unitChunks u, (a.chunkOf c).n = a.ncontrib) →
      ∃ t b, exec (.unitEarlyClose tag step u) s = .next t ∧ t.toWorld.arm tag step = some b ∧ u ∈ b.closed ∧
        (∀ x ∈ b.chunks, x.num / a.unit ≠ u) ∧ (u ∈ b.delivered ∨ ∃ rs, (u, rs) ∈ b.wait) ∧ t.pending = s.pending ∧
        t.sec = s.sec) ∧
    (a.mode = 1 → s.toWorld.homeUnits a = [u] → s.toWorld.tickBegun (a.close + 1) = true →
      ∃ t b, exec (.arrivalClose tag step) s = .next t ∧ t.toWorld.arm tag step = some b ∧ u ∈ b.closed ∧ t.pending = s.pending ∧
        t.sec = s.sec)) ∧
  (∀ (s : State) (m : ResultMsg) (a : Arm) (z pd pi : Nat), s.arrives (.result m) → s.still → s.dev.urk.reqs = [] →
    s.toWorld.arm m.tag m.step = some a → a.isRecv = true → m.chunk < a.nchunk → (insNat m.chunk a.recv).length < a.nchunk →
    a.due = [] → z = redBytes a.rfmt → m.codes.length = 256 → m.poison = false →
    s.span a.agent (a.resultAt m.chunk) (256 * z) true = some pd → s.span a.agent (a.rinfo + 8 * m.chunk) 8 true = some pi →
    s.spares a.job [(a.resultAt m.chunk, 256 * z), (a.rinfo + 8 * m.chunk, 8)] pd (256 * z) →
    ∃ t b, exec (.mcastMemResult m) s = .next t ∧ t.toWorld.arm m.tag m.step = some b ∧ b.due = [] ∧ b.recv = insNat m.chunk a.recv ∧
      t.toWorld.bytes pi 8 = leBytes 8 (m.n % 2 ^ 14 + m.full.toNat * 2 ^ 14 + m.notok.toNat * 2 ^ 15 + m.step * 2 ^ 32) ∧
      (pi + 8 ≤ pd ∨ pd + 256 * z ≤ pi → t.toWorld.bytes pd (256 * z) = m.codes.flatMap (leBytes z)) ∧
      (∀ x, x < pd ∨ pd + 256 * z ≤ x → x < pi ∨ pi + 8 ≤ x → t.byteAt x = s.byteAt x) ∧ t.pending = s.pending ∧ t.sec = s.sec))

/-- R268: a summary enters a CONTRIB arm; when it was the last and the arm has no other role, the arm ends with LATE where an
index this device used was missed, else OK; an arm whose summaries do not come in time ends with WAIT_TIMEOUT; the data of a
multicast result chunk is written, and the chunk counts once its RINFO entry is, or is still to be. R269: a child partial
adds to a Chimney's partial in binary32; a non-home Chimney forwards a partial once its subtree is in or the close tick has
begun, and takes nothing more for it; the home closes one tick after the close tick. -/
def Obligations.ArmsEndAndPartialsClimb : Prop :=
  (
  (∀ (s : State) (m : SummaryMsg) (a : Arm), s.arrives (.summary m) → s.toWorld.arm m.tag m.step = some a → a.isContrib = true →
    ((insNat m.home a.sums).length < a.nhdev → ∃ t, exec (.closeSummary m) s = .next t ∧
      t.toWorld.arm m.tag m.step = some { a with
        sums := insNat m.home a.sums, missed := m.miss.foldl (fun s i => insNat i s) a.missed } ∧
      s.SameStore t ∧ t.dev.regs = s.dev.regs ∧ t.dev.net = s.dev.net.erase (.summary m)) ∧
    (∀ e, a.roles = 2 → a.poisoned = false → a.nhdev ≤ (insNat m.home a.sums).length → s.entry a.ring a.idx = some e →
      bit (s.reg (rk 6 0x010)) 3 = false →
      ∃ t, exec (.closeSummary m) s = .next t ∧ t.toWorld.arm m.tag m.step = none ∧ s.SameStore t ∧
        ((∀ i ∈ a.used, i ∉ a.missed ∧ i ∉ m.miss) → t.doneIn a.ring a.idx stOk) ∧
        (∀ i, i ∈ a.used → i ∈ a.missed ∨ i ∈ m.miss → t.doneIn a.ring a.idx stLate))) ∧
  (∀ (s : State) (a : Arm) (tag step b : Nat) (e : Entry), s.dev.live = true → s.toWorld.arm tag step = some a → a.ticked = some b →
    a.isContrib = true → a.sums.length < a.nhdev → s.entry a.ring a.idx = some e → a.poisoned = false →
    ∃ t, exec (.summaryTimeout tag step) s = .next t ∧ t.toWorld.arm tag step = none ∧ t.doneIn a.ring a.idx stTimeout ∧
      t.dev.gtime = max s.dev.gtime (b + s.rf chmCfg 31 0) ∧ s.SameStore t) ∧
  (∀ (s : State) (m : ResultMsg) (a : Arm) (r : Run), s.arrives (.result m) → s.toWorld.arm m.tag m.step = some a → a.isRecv = true →
    m.chunk < a.nchunk → (insNat m.chunk a.recv).length < a.nchunk → a.due = [] →
    (resultData a m).run (Run.init (s.toWorld.takeNet (.result m)) a.agent) = .ok ((), r) →
    ∃ t b, exec (.mcastMemResult m) s = .next t ∧ t.toWorld.arm m.tag m.step = some b ∧
      ((b.due = [m] ∧ b.recv = a.recv) ∨ (b.due = [] ∧ b.recv = insNat m.chunk a.recv)) ∧
      t.pending = s.pending ∧ t.sec = s.sec)) ∧
  (
  (∀ (s : State) (m : PartialMsg) (a : Arm), s.arrives (.part m) → s.toWorld.arm m.tag m.step = some a → a.mode = 1 →
    m.chunk < a.nchunk →
    (s.toWorld.isLate a m.chunk = false → ∃ t x, exec (.arrivalPartial m) s = .next t ∧ t.toWorld.arm m.tag m.step = some x ∧
      (x.part m.chunk).n = (a.part m.chunk).n + m.n ∧
      (x.part m.chunk).vals = ((a.part m.chunk).vals.zip m.vals).map (fun e =>
        f32Code (rneF32 ((f32Val e.1).add (f32Val e.2)))) ∧ (∀ c, c ≠ m.chunk → x.part c = a.part c) ∧ s.SameStore t) ∧
    (s.toWorld.isLate a m.chunk = true → ∃ t, exec (.arrivalPartial m) s = .next t ∧ t.dev.chm = s.dev.chm ∧ s.SameStore t ∧
      t.rf chmDiscard 31 0 = min (2 ^ 32 - 1) (s.rf chmDiscard 31 0 + 1))) ∧
  (∀ (s : State) (a : Arm) (tag step c : Nat) (p : Part), s.dev.live = true → s.toWorld.arm tag step = some a → a.mode = 1 →
    a.isHome = false → p = a.part c → p.sent = false → p.n ≠ 0 → (a.subtree ≤ p.n ∨ s.toWorld.tickBegun a.close = true) →
    ∃ t x, exec (.arrivalForward tag step c) s = .next t ∧ t.toWorld.arm tag step = some x ∧ (x.part c).sent = true ∧
      t.toWorld.isLate x c = true ∧
      (a.homeOf c = s.toWorld.devId → s.SameStore t ∧ t.dev.net = s.dev.net ++ [.part ⟨tag, step, c, p.vals, p.roster, p.n, p.data, p.poison⟩])) ∧
  (∀ (s : State) (a : Arm) (tag step u : Nat), s.dev.live = true → s.toWorld.arm tag step = some a → a.mode = 1 → a.isHome = true →
    s.toWorld.homeUnits a = [u] → a.closed.contains u = false → s.toWorld.tickBegun (a.close + 1) = true →
    (s.toWorld.job a.job).all (fun j => !j.zeroWait.contains a.step) = true →
    (s.toWorld.chmRun a.agent (markUnit a u)).1 = true →
    ∃ t b, exec (.arrivalClose tag step) s = .next t ∧ t.toWorld.arm tag step = some b ∧ u ∈ b.closed ∧
      t.pending = s.pending ∧ t.sec = s.sec))

/-- R270 to R273: a multicast packet whose range is translated is written with what its computation makes; a remote read
without a gate is answered with the bytes it names, one with a gate is asked for; a gathered slice without an armed region is
discarded and counted; pieces and DONEs count in the round that runs and are discarded elsewhere; the round's timer ends it
with WAIT_TIMEOUT. R270: a multicast packet whose range may be written is stored. R272: a remote read without a gate whose
range may be read is answered with its bytes. R271: a gathered slice of an armed region without readers is written and earns
its credit. -/
def Obligations.CollectivesMoveTheirData : Prop :=
  (
  (∀ (s : State) (m : McastMsg) (r : Run) (ps : List (Nat × Nat)), s.arrives (.mcast m) → m.nline = 0 →
    (mcastData m).run (Run.init (s.toWorld.takeNet (.mcast m)) (chmFor m.job)) = .ok (some ps, r) →
    ∃ t, exec (.mcastReceive m) s = .next t ∧ t.mem = memCommit s.mem r.w.log ∧ t.dev = r.w.dev ∧ t.pending = s.pending ∧
      t.sec = s.sec) ∧
  (∀ (s : State) (m : RReadMsg), s.arrives (.rreadReq m) →
    (m.vchk = true → ∃ t, exec (.rreadRequest m) s = .next t ∧ s.SameStore t ∧ t.dev.regs = s.dev.regs ∧
      t.dev.blw.asks = s.dev.blw.asks ++ [⟨m.job, m.wreg, m.expver, .remote m⟩] ∧
      t.dev.net = s.dev.net.erase (.rreadReq m)) ∧
    (∀ bs r, m.vchk = false →
      (readVB m.addr m.len).run (Run.init (s.toWorld.takeNet (.rreadReq m)) (chmFor m.job)) = .ok (bs, r) → r.denied = false →
      exec (.rreadRequest m) s =
        .next (s.commit (r.w.rreadAnswer m ⟨m.tag, stOk, bs.any Prod.snd, bs.map Prod.fst⟩)))) ∧
  (∀ (s : State) (m : GatherMsg), s.arrives (.gather m) → bit (s.reg (rk 6 0x010)) 3 = false →
    (∀ r a, r ∈ s.dev.blw.regions → r.arm = some a → r.gtag ≠ m.gtag ∨ m.gtag = 0 ∨ a.step ≠ m.step) →
    ∃ t, exec (.gatherSlice m) s = .next t ∧ s.SameStore t ∧ t.dev.blw = s.dev.blw ∧
      t.rf chmDiscard2 31 0 = min (2 ^ 32 - 1) (s.rf chmDiscard2 31 0 + 1) ∧ bit (t.reg (rk 6 0x020)) 1 = true) ∧
  (∀ (s : State) (m : GatherMsg) (r : Region) (a : UpdArm), s.arrives (.gather m) → s.dev.blw.regions = [r] → r.arm = some a →
    r.gtag = m.gtag → m.gtag ≠ 0 → a.step = m.step → r.readers r.target ≠ 0 →
    ∃ t, exec (.gatherSlice m) s = .next t ∧ s.SameStore t ∧ t.dev.regs = s.dev.regs ∧
      t.dev.blw.regions = [{ r with isOpen := true, pend := r.pend ++ [.gather m] }]) ∧
  (∀ (s : State) (p : PermRound), s.dev.live = true → s.dev.chm.perm = some p →
    (∀ m, s.arrives (.piece m) → p.round ≠ m.round → ∃ t, exec (.permutePiece m) s = .next t ∧ s.SameStore t ∧ t.dev.chm = s.dev.chm ∧
      t.rf chmDiscard2 31 0 = min (2 ^ 32 - 1) (s.rf chmDiscard2 31 0 + 1)) ∧
    (∀ m, s.arrives (.piece m) → p.round = m.round → p.excess = false → p.got + m.data.length < p.inbytes → p.got + m.data.length ≤ p.stagesz →
      m.poison = false → m.data ≠ [] → s.dev.urk.home = [] → s.dev.snp.run = none → s.dev.urk.dir = [] → s.dev.urk.snoops = [] → s.dev.upsets = [] →
      s.toWorld.inSlm (p.stage + p.got) m.data.length = true →
      ∃ t, exec (.permutePiece m) s = .next t ∧ s.StoredAt t (p.stage + p.got) m.data ∧
        t.dev.chm.perm = some { p with got := p.got + m.data.length, pieces := p.pieces ++ [(m.dst, p.got, m.data.length, false)],
                                       deadline := s.toWorld.permDeadline }) ∧
    (∀ round dev, s.arrives (.permDone round dev) → p.round ≠ round → ∃ t, exec (.permuteDone round dev) s = .next t ∧ s.SameStore t ∧ t.dev.chm = s.dev.chm ∧
      t.rf chmDiscard2 31 0 = min (2 ^ 32 - 1) (s.rf chmDiscard2 31 0 + 1)) ∧
    (∀ round dev, s.arrives (.permDone round dev) → p.round = round → p.excess = false → p.got ≠ p.inbytes ∨ p.dones + 1 < p.npart →
      ∃ t, exec (.permuteDone round dev) s = .next t ∧ s.SameStore t ∧ t.dev.regs = s.dev.regs ∧
        t.dev.chm.perm = some { p with dones := p.dones + 1, deadline := s.toWorld.permDeadline }) ∧
    (∀ d e, p.deadline = some d → s.entry p.ring p.idx = some e →
      ∃ t, exec .permuteTimeout s = .next t ∧ s.SameStore t ∧ t.dev.chm.perm = none ∧ t.doneIn p.ring p.idx stTimeout ∧
        t.dev.gtime = max s.dev.gtime d))) ∧
  (
  (∀ (s : State) (m : McastMsg) (pd : Nat), s.arrives (.mcast m) → s.still → (s.toWorld.job m.job).isSome = true → m.nline = 0 →
    m.poison = false → m.data ≠ [] → s.span (chmFor m.job) m.dst m.data.length true = some pd →
    ∃ t, exec (.mcastReceive m) s = .next t ∧ s.StoredAt t pd m.data ∧ t.pending = s.pending ∧ t.sec = s.sec) ∧
  (∀ (s : State) (m : RReadMsg) (bs : List Byte), s.arrives (.rreadReq m) → s.still → m.vchk = false →
    s.readAt (chmFor m.job) m.addr m.len = some bs → m.srcDev ≠ s.toWorld.devId → (s.toWorld.outPort m.srcDev).isSome = true →
    ∃ t p h, exec (.rreadRequest m) s = .next t ∧ s.toWorld.outPort m.srcDev = some p ∧
      t.dev.out = s.dev.out ++ [.flue p h (.rreadRsp ⟨m.tag, stOk, false, bs⟩)] ∧ t.mem = s.mem ∧ t.pending = s.pending ∧
      t.sec = s.sec) ∧
  (∀ (s : State) (m : GatherMsg) (r : Region) (a : UpdArm) (z : SliceAt) (p : Spot × Spot × Spot × Spot × Spot),
    s.arrives (.gather m) → s.still → s.dev.urk.reqs = [] → s.dev.blw.regions = [r] → r.arm = some a → r.gtag = m.gtag →
    m.gtag ≠ 0 → a.step = m.step → r.readers r.target = 0 → r.unseen = 0 → r.credits < r.nslice → m.poison = false →
    z = r.sliceAt m.slice → p = r.spots (s.toWorld.recipe r.job) m.slice r.target → p.2.2.2.1.r.plain → p.2.2.2.2.r.plain →
    m.codesA.length = z.kk * z.nn → m.codesB.length = z.nn * z.kk →
    s.undisturbed (r.agent a) [] (p.2.2.2.1.t.ranges p.2.2.2.1.r p.2.2.2.1.i z.kk p.2.2.2.1.c z.nn ++
      p.2.2.2.2.t.ranges p.2.2.2.2.r p.2.2.2.2.i z.nn p.2.2.2.2.c z.kk) →
    ∃ t, exec (.gatherSlice m) s = .next t ∧ t.dev.blw.regions = [{ r with isOpen := true, credits := r.credits + 1 }] ∧
      t.pending = s.pending ∧ t.sec = s.sec))

/-- R179: a LOAD whose checks hold adds a region, unarmed, closed, without credits and readers, at the version of its
descriptor, and shows OK; an UNLOAD of a region nobody uses drops it, writes its version to its descriptor's first two bytes,
and shows OK. R177 to R179: LOAD of a legal region descriptor whose tensors agree completes with OK and the region stands,
unarmed, closed, without credits or readers, at its descriptor's version. R182, R183, R192: a result slice all of whose
chunks are NOTOK leaves masters and moments as they are, has its orders written and earns its credit. R182, R183, R187: a
result slice whose tag nothing is bound to is dropped; one that the bound region owns is updated, with what its computation
makes, and counts as updated or skipped; a region that holds all its credits commits: its version is the arm's step + 1, it
is closed and unarmed, its version is written to its descriptor, its parked reads are due, its UPD_ARM completes; short of
credits nothing happens. -/
def Obligations.RegionsLoadUpdateAndCommit : Prop :=
  (
  (∀ (s : State) (p i a : Nat) (x : Run), s.hosts p → i < 2 ^ 14 → s.notHeld 0x108 0x098 →
    bit (s.reg (rk 0x108 0x0A0)) 0 = true → a = s.rf (rk 0x108 0x090) 47 12 * 4096 + 64 * i → s.toWorld.inHbm a 64 = true →
    s.poisonAt (lineOf a) = false → s.toWorld.assignable (fld (s.toWorld.word a) 21 16) p = true →
    (loadRegion p i).run (Run.init s.toWorld (mantel 0x108)) = .ok (stOk, x) →
    ∃ t r, exec (.wregLoad p i) s = .next t ∧ t.dev.blw.regions = s.dev.blw.regions ++ [r] ∧ r.index = i ∧ r.arm = none ∧
      r.isOpen = false ∧ r.credits = 0 ∧ r.readers0 = 0 ∧ r.readers1 = 0 ∧ r.cv = fld (r.word 0) 15 0 ∧
      bit (t.reg (rk 0x108 0x0A0)) 0 = true ∧ t.rf (rk 0x108 0x0A0) 15 8 = stOk ∧ t.rf (rk 0x108 0x0A0) 29 16 = i ∧
      t.mem = memCommit s.mem x.w.log ∧ t.pending = s.pending ∧ t.sec = s.sec) ∧
  (∀ (s : State) (p i a : Nat) (r : Region), s.hosts p → i < 2 ^ 14 → s.notHeld 0x108 0x098 →
    bit (s.reg (rk 0x108 0x0A0)) 0 = true → s.toWorld.region i = some r → s.toWorld.assignable r.job p = true →
    r.arm = none → r.readers0 = 0 → r.readers1 = 0 → (∀ q ∈ s.dev.blw.parked, q.read.wreg ≠ i) →
    a = s.rf (rk 0x108 0x090) 47 12 * 4096 + 64 * i → s.plain 0 a 2 = true →
    ∃ t, exec (.wregUnload p i) s = .next t ∧ t.toWorld.region i = none ∧ s.StoredAt t a (leBytes 2 r.cv) ∧
      (∀ q ∈ s.dev.blw.regions, q.index ≠ i → q ∈ t.dev.blw.regions) ∧ bit (t.reg (rk 0x108 0x0A0)) 0 = true ∧
      t.rf (rk 0x108 0x0A0) 15 8 = stOk ∧ t.rf (rk 0x108 0x0A0) 29 16 = i ∧ t.pending = s.pending ∧ t.sec = s.sec ∧
      ∀ k, k ≠ rk 0x108 0x0A0 → t.reg k = s.reg k)) ∧
  (
  (∀ (s : State) (p i a j k n : Nat) (ws : List U64) (ds : Nat → List U64) (there : Nat → Bool) (q : Nat → Tensor),
    s.hosts p → i < 2 ^ 14 → s.notHeld 0x108 0x098 → bit (s.reg (rk 0x108 0x0A0)) 0 = true → s.still →
    a = s.rf (rk 0x108 0x090) 47 12 * 4096 + 64 * i → s.toWorld.inHbm a 64 = true → ws = words64 (s.toWorld.bytes a 64) →
    j = fld (ws.getD 0 0) 21 16 → s.toWorld.assignable j p = true → (s.toWorld.job j).isSome = true → s.toWorld.region i = none →
    bit (ws.getD 0 0) 22 = true → fld (ws.getD 0 0) 63 53 = 0 → (∀ x, 3 ≤ x → x < 8 → fld (ws.getD x 0) 63 48 = 0) →
    s.toWorld.chnTag (fld (ws.getD 0 0) 39 28) = false →
    fld (ws.getD 0 0) 51 40 = 0 ∨ s.toWorld.chnTag (fld (ws.getD 0 0) 51 40) = false →
    (∀ x, 5 ≤ x → x < 7 → (fld (ws.getD (x + 1) 0) 47 0 ≠ 0 ↔ bit (ws.getD 0 0) 24 = true)) →
    there = (fun x => decide (x < 5 ∨ bit (ws.getD 0 0) 24 = true) &&
      !(bit (ws.getD 0 0) 23 && decide (x < 3) && decide (fld (ws.getD (x + 1) 0) 47 0 = 0))) →
    (∀ x, x < 7 → if there x = true then
      s.wordsAt { mantel 0x108 with job := some j } (fld (ws.getD (x + 1) 0) 47 0) 4 = some (ds x) else ds x = []) →
    q = (fun x => tensorOf ((ds x).getD 0 0) ((ds x).getD 1 0) ((ds x).getD 2 0) ((ds x).getD 3 0)) →
    k = (q 3).rows → n = (q 3).cols → (∀ x, x < 7 → there x = true → (q x).rsv = true ∧
      (q x).rows = (if x = 4 ∨ x = 6 then n else k) ∧ (q x).cols = (if x = 4 ∨ x = 6 then k else n) ∧
      (x ≠ 0 → (q x).kind = [0, 5, 6, 0, 1, 0, 1].getD x 0 ∧ (q x).blocksFit (s.toWorld.recipe j (q x).kind) = true)) →
    fld (ws.getD 1 0) 63 48 ≤ fld (ws.getD 2 0) 63 48 → fld (ws.getD 2 0) 63 48 < ceilDiv k 128 * ceilDiv n 128 →
    ceilDiv k 128 * ceilDiv n 128 ≤ 65536 → (s.dev.blw.regions.filter fun r => r.die == fld (ws.getD 0 0) 27 25).length < 4096 →
    (s.toWorld.recipe j 0).perCh = false → (s.toWorld.recipe j 1).perCh = false →
    ∃ t, exec (.wregLoad p i) s = .next t ∧ t.dev.blw.regions = s.dev.blw.regions ++
        [⟨i, ws, (List.range 7).map ds, fld (ws.getD 0 0) 15 0, none, false, 0, 0, 0, [], 0⟩] ∧
      bit (t.reg (rk 0x108 0x0A0)) 0 = true ∧ t.rf (rk 0x108 0x0A0) 15 8 = stOk ∧ t.rf (rk 0x108 0x0A0) 29 16 = i ∧ s.SameStore t) ∧
  (∀ (s : State) (die : Nat) (m : SliceMsg) (r : Region) (a : UpdArm) (z : SliceAt) (sp : Spot × Spot × Spot × Spot × Spot)
      (reads writes : List (Nat × Nat)), s.dev.live = true → s.still →
    (s.dev.blw.slices.find? fun x => x.1 == die) = some (die, m) → s.toWorld.boundTo m.tag m.step = some (r, a) →
    s.toWorld.region r.index = some r → r.owns m.slice = true → m.notok.all id = true → m.poison = false → r.gtag = 0 →
    r.readers r.target = 0 → r.credits < r.nslice → z = r.sliceAt m.slice →
    sp = r.spots (s.toWorld.recipe r.job) m.slice r.target →
    reads = sp.1.t.ranges sp.1.r sp.1.i z.kk sp.1.c z.nn →
    writes = sp.2.2.2.1.t.ranges sp.2.2.2.1.r sp.2.2.2.1.i z.kk sp.2.2.2.1.c z.nn ++
      sp.2.2.2.2.t.ranges sp.2.2.2.2.r sp.2.2.2.2.i z.nn sp.2.2.2.2.c z.kk →
    s.undisturbed (r.agent a) reads writes → s.banked r.job a.step →
    (∀ b, s.recordApart r.job a.step (r.order b r.target).tid (reads ++ writes)) →
    ∃ t, exec (.blwSliceUpdate die) s = .next t ∧ t.dev.blw.slices = s.dev.blw.slices.erase (die, m) ∧
      t.toWorld.region r.index = some { r with isOpen := true, credits := r.credits + 1 } ∧
      t.rf (rk (blwPage die) 0x0A8) 63 32 = min (2 ^ 32 - 1) (s.rf (rk (blwPage die) 0x0A8) 63 32 + 1) ∧
      t.pending = s.pending ∧ t.sec = s.sec)) ∧
  (
  (∀ (s : State) (die : Nat) (m : SliceMsg), s.dev.live = true → (s.dev.blw.slices.find? fun x => x.1 == die) = some (die, m) →
    (s.toWorld.boundTo m.tag m.step = none → ∃ t, exec (.blwSliceUpdate die) s = .next t ∧
      t.dev.blw.slices = s.dev.blw.slices.erase (die, m) ∧ s.SameStore t ∧
      { t.dev with blw := s.dev.blw } = s.dev ∧ t.dev.blw.regions = s.dev.blw.regions) ∧
    (∀ r a x, s.toWorld.boundTo m.tag m.step = some (r, a) → r.owns m.slice = true →
      (sliceBody { r with isOpen := true } a m).run (Run.init (s.toWorld.modRegion r.index fun r => { r with isOpen := true })
        (r.agent a)) = .ok ((), x) → x.pois = none → m.poison = false →
      ∃ t, exec (.blwSliceUpdate die) s = .next t ∧ t.mem = memCommit s.mem x.w.log ∧
        t.dev.blw.slices = x.w.dev.blw.slices.erase (die, m) ∧ t.dev.blw.regions = x.w.dev.blw.regions ∧
        t.pending = s.pending ∧ t.sec = s.sec ∧
        (m.notok.all id = true → t.rf (rk (blwPage die) 0x0A8) 63 32 = min (2 ^ 32 - 1) (x.w.rf (rk (blwPage die) 0x0A8) 63 32 + 1)) ∧
        (m.notok.all id = false → t.rf (rk (blwPage die) 0x0A8) 31 0 =
          min (2 ^ 32 - 1) (x.w.rf (rk (blwPage die) 0x0A8) 31 0 + 1)))) ∧
  (∀ (s : State) (i : Nat) (r : Region) (a : UpdArm), s.dev.live = true → s.toWorld.region i = some r → r.arm = some a →
    (r.credits ≠ r.nslice → exec (.regionCommit i) s = .next s) ∧
    (∀ e d, r.credits = r.nslice → s.toWorld.visible a.ring a.idx = true → s.entry a.ring a.idx = some e →
      d = s.rf (rk 0x108 0x090) 47 12 * 4096 + 64 * i → s.plain 0 d 2 = true →
      ∃ t, exec (.regionCommit i) s = .next t ∧ t.toWorld.region i =
          some { r with cv := (a.step + 1) % 2 ^ 16, isOpen := false, credits := 0, arm := none, pend := [], unseen := 0 } ∧
        t.doneIn a.ring a.idx a.status ∧ s.StoredAt t d (leBytes 2 ((a.step + 1) % 2 ^ 16)) ∧
        (∀ q ∈ t.dev.blw.parked, q.read.wreg = i → q.due = true) ∧ t.pending = s.pending ∧ t.sec = s.sec)))

/-- R188 to R190: the gate passes, holds or refuses a read by the version it expects; a read that passes counts as a reader
of its slot, one that must wait is parked, a stale one ends with VERSION_STALE, one of no region with OPERAND_INVALID; a
parked read that is due is checked again; the one whose wait ends first ends with VERSION_TIMEOUT; a read whose data has
returned is no reader any more. R189, R272: a passed read of another device whose range may be read is answered with its
bytes, and is no reader any more. -/
def Obligations.GatesPassParkAndRefuseReads : Prop :=
  (
  (∀ (r : Region) (e : Nat), r.cv < 2 ^ 16 →
    (r.frozen = true → r.gate e = .pass (if r.lag1 then e % 2 else 0)) ∧
    (r.frozen = false →
      (e = r.cv → r.gate e = if r.isOpen && !r.lag1 then .stale else .pass (if r.lag1 then e % 2 else 0)) ∧
      (e = (r.cv + 1) % 2 ^ 16 → r.gate e = .wait) ∧
      (e = (r.cv + 2 ^ 16 - 1) % 2 ^ 16 → r.gate e = if !r.isOpen && r.lag1 then .pass (e % 2) else .stale) ∧
      (e = (r.cv + 2 ^ 16 - 2) % 2 ^ 16 → r.gate e = .stale))) ∧
  (∀ (s : State) (g : GateRead), s.dev.live = true → g ∈ s.dev.blw.asks →
    (∀ slot r, s.toWorld.gateOf g = .pass slot → slot < 2 → s.toWorld.region g.wreg = some r →
      ∃ t x, exec (.gatedRead g) s = .next t ∧ t.toWorld.region g.wreg = some x ∧ x.readers slot = r.readers slot + 1 ∧
        x.readers (1 - slot) = r.readers (1 - slot) ∧ t.dev.blw.passed = s.dev.blw.passed ++ [(g, slot)] ∧
        t.dev.blw.asks = s.dev.blw.asks.erase g ∧ s.SameStore t ∧ { t.dev with blw := s.dev.blw } = s.dev) ∧
    (s.toWorld.gateOf g = .wait → ∃ t q, exec (.gatedRead g) s = .next t ∧ t.dev.blw.parked = s.dev.blw.parked ++ [q] ∧
      q.read = g ∧ q.die = s.toWorld.gateDie g ∧ q.due = false ∧ t.dev.blw.asks = s.dev.blw.asks.erase g ∧ s.SameStore t ∧
      s.OnlyRegs { t with dev := { t.dev with blw := s.dev.blw } } [rk (blwPage (s.toWorld.gateDie g)) 0x0B8]) ∧
    (∀ c e, g.req = .ring c → s.toWorld.gateEntry c = some e → (s.toWorld.ringRun c.ring).entries.filter (fun x => x.idx == e.idx) = [e] →
      (s.toWorld.gateOf g = .stale → ∃ t, exec (.gatedRead g) s = .next t ∧ t.doneIn c.ring e.idx stVersionStale ∧ s.SameStore t) ∧
      (s.toWorld.gateOf g = .invalid → ∃ t, exec (.gatedRead g) s = .next t ∧ t.doneIn c.ring e.idx stOperand ∧ s.SameStore t))) ∧
  (∀ (s : State) (q : Parked), s.dev.live = true → s.dev.blw.parked = [q] → q.due = true →
    (∀ slot, s.toWorld.gateOf q.read = .pass slot → ∃ t, exec (.parkedReadRelease q.die) s = .next t ∧ t.dev.blw.parked = [] ∧
      t.dev.blw.passed = s.dev.blw.passed ++ [(q.read, slot)] ∧ s.SameStore t) ∧
    (s.toWorld.gateOf q.read = .wait → ∃ t, exec (.parkedReadRelease q.die) s = .next t ∧
      t.dev.blw.parked = [{ q with due := false }] ∧ s.SameStore t)) ∧
  (∀ (s : State) (q : Parked) (d : Nat) (c : Cmd) (e : Entry), s.dev.live = true → s.dev.blw.parked = [q] → q.deadline = some d →
    q.read.req = .ring c → s.toWorld.gateEntry c = some e →
    (s.toWorld.ringRun c.ring).entries.filter (fun x => x.idx == e.idx) = [e] →
    bit (s.reg (rk (blwPage q.die) 0x010)) 3 = false →
    ∃ t, exec (.versionWaitTimeout q.die) s = .next t ∧ t.dev.blw.parked = [] ∧ t.doneIn c.ring e.idx stVersionTimeout ∧
      t.dev.gtime = max s.dev.gtime d ∧ bit (t.reg (rk (blwPage q.die) 0x020)) 15 = true ∧ s.SameStore t) ∧
  (∀ (s : State) (i slot : Nat) (q : GateRead × Nat) (w : World) (r : Region), s.dev.live = true → slot < 2 →
    (s.dev.blw.passed.find? fun p => p.1.wreg == i && p.2 == slot) = some q → (s.toWorld.gateServe q.1).1 = some w →
    w.region i = some r → r.arm = none →
    ∃ t x, exec (.readerRelease i slot) s = .next t ∧ t.dev.blw.passed = w.dev.blw.passed.erase q ∧
      t.toWorld.region i = some x ∧ x.readers slot = r.readers slot - 1 ∧ t.mem = memCommit s.mem w.log ∧
      t.pending = s.pending ∧ t.sec = s.sec)) ∧
  (
  ∀ (s : State) (i slot : Nat) (g : GateRead) (m : RReadMsg) (r : Region) (bs : List Byte), s.dev.live = true → s.still → slot < 2 →
    (s.dev.blw.passed.find? fun p => p.1.wreg == i && p.2 == slot) = some (g, slot) → g.req = .remote m →
    s.toWorld.region i = some r → r.arm = none → (∀ q ∈ s.dev.rings, ∀ x ∈ q.entries, x.phase ≠ .optOpen) →
    s.readAt (chmFor m.job) m.addr m.len = some bs → m.srcDev ≠ s.toWorld.devId → (s.toWorld.outPort m.srcDev).isSome = true →
    ∃ t x p h, exec (.readerRelease i slot) s = .next t ∧ t.dev.blw.passed = s.dev.blw.passed.erase (g, slot) ∧
      t.toWorld.region i = some x ∧ x.readers slot = r.readers slot - 1 ∧ x.readers (1 - slot) = r.readers (1 - slot) ∧
      t.dev.out = s.dev.out ++ [.flue p h (.rreadRsp ⟨m.tag, stOk, false, bs⟩)] ∧ t.mem = s.mem ∧ t.pending = s.pending ∧
      t.sec = s.sec)

/-- TILE_WS, TILE_OS and TILE_ADAPT (R98 to R100, R167): each completes with what its first attempt computes, or waits with
its fireguard's replay pending when that attempt passed the limit (R72). R72 to R76: the replay of a tile completes the
command that waits for it with OK, its release over the limit with FIREGUARD_LIMIT, and their own store is all they change of
memory; the replay counts once on the stove's page. R95 to R100, R167: TILE_WS and TILE_OS on unscaled operands that stream
as stored, without live accumulators and draining nothing, complete with OK and leave their accumulators live with the
products added to fresh entries; TILE_ADAPT that drains both parts completes with OK and its set is free. R72 to R76: the
replay of a TILE_WS completes it with OK when its count is not above FG_LIMIT, the release of one above it with
FIREGUARD_LIMIT. -/
def Obligations.TilesAndTheirReplays : Prop :=
  (
  Completes .tileWs (hasOp 0x10) (tileWs false 0) ∧ Accepts .tileWs (hasOp 0x10) (tileWs false 0) ∧
  Completes .tileOs (hasOp 0x11) (tileOs 0) ∧ Accepts .tileOs (hasOp 0x11) (tileOs 0) ∧
  Completes .tileAdapt (hasOp 0x12) (tileWs true 0) ∧ Accepts .tileAdapt (hasOp 0x12) (tileWs true 0)) ∧
  (
  (∀ (s : State) (r : RingId) (e : Entry) (x : Run), s.dev.live = true →
    (s.toWorld.ringRun r).entries.find? (fun y => y.phase == .over) = some e → s.entry r e.idx = some e →
    s.resumes r e (tileAttempt 2 e.desc) (.done stFireguard) x →
    ∃ t, exec (.fgOver r) s = .next t ∧ t.doneIn r e.idx stFireguard ∧ t.mem = memCommit s.mem x.w.log ∧
      t.pending = s.pending ∧ t.sec = s.sec) ∧
  (∀ (s s' : State) (r : RingId) (e : Entry) (x : Run), s.dev.live = true →
    (s.toWorld.ringRun r).entries.find? (fun y => y.phase == .replay) = some e → s.entry r e.idx = some e →
    s' = { s with dev := (s.toWorld.count (rk r.page 0x0A0) 31 0 1).dev } →
    s'.resumes r e (tileAttempt 1 e.desc) (.done stOk) x →
    ∃ t, exec (.fireguardReplay r) s = .next t ∧ t.doneIn r e.idx stOk ∧ t.mem = memCommit s.mem x.w.log ∧
      t.pending = s.pending ∧ t.sec = s.sec)) ∧
  (
  (∀ (s : State) (c : Cmd) (e : Entry) (stat strm : Tensor) (xs ys : List (List Elem)) (p : Part') (i m n z : Nat),
    s.ready c e 0x10 → ringStove c.ring = some i → s.wsTile (agentOf c.ring e) c.desc stat strm xs ys →
    (s.toWorld.recipe (jobOf c.desc) strm.kind).stream = none → m = fld c.desc.w5 45 32 + 1 → n = fld c.desc.w5 62 56 + 1 →
    p = ⟨(s.toWorld.recipe (jobOf c.desc) strm.kind).fmt, 0, ys, (s.toWorld.recipe (jobOf c.desc) stat.kind).fmt, 0, transpose n xs⟩ →
    z = fld c.desc.w5 54 54 →
    ∃ t, exec (.tileWs c) s = .next t ∧ t.doneIn c.ring e.idx stOk ∧ t.mem = s.mem ∧ t.pending = s.pending ∧ t.sec = s.sec ∧
      (t.toWorld.stove i).set z = ⟨true, jobOf c.desc, p.int,
        overlay ((s.toWorld.stove i).set z).rows (p.apply (freshAcc p.int m n))⟩) ∧
  (∀ (s : State) (c : Cmd) (e : Entry) (row col : Tensor) (xs ys : List (List Elem)) (p : Part') (i t0 k m n : Nat),
    s.ready c e 0x11 → ringStove c.ring = some i → c.desc.w4 = 0 → c.desc.w6 = 0 → fld c.desc.w7 31 7 = 0 →
    fld c.desc.w5 55 46 = 0 → bit c.desc.w5 63 = false → fld c.desc.w2 47 0 % 32 = 0 → fld c.desc.w3 47 0 % 32 = 0 →
    s.tensorAt (agentOf c.ring e) (fld c.desc.w2 47 0) = some row → s.tensorAt (agentOf c.ring e) (fld c.desc.w3 47 0) = some col →
    t0 = fld c.desc.w5 31 0 → k = fld c.desc.w5 45 32 + 1 → m = fld c.desc.w5 62 56 + 1 → n = fld c.desc.w7 6 0 + 1 →
    s.operand (agentOf c.ring e) row t0 k (fld c.desc.w2 63 48 * 128) m xs →
    s.operand (agentOf c.ring e) col t0 k (fld c.desc.w3 63 48 * 128) n ys →
    (s.toWorld.recipe (jobOf c.desc) row.kind).stream = none → (s.toWorld.recipe (jobOf c.desc) col.kind).stream = none →
    (s.toWorld.stove i).os.live = false →
    p = ⟨(s.toWorld.recipe (jobOf c.desc) row.kind).fmt, 0, transpose m xs, (s.toWorld.recipe (jobOf c.desc) col.kind).fmt, 0,
      transpose n ys⟩ →
    ∃ t, exec (.tileOs c) s = .next t ∧ t.doneIn c.ring e.idx stOk ∧ t.mem = s.mem ∧ t.pending = s.pending ∧ t.sec = s.sec ∧
      (t.toWorld.stove i).os = ⟨true, jobOf c.desc, p.int,
        overlay (s.toWorld.stove i).os.rows (p.apply (freshAcc p.int m n))⟩) ∧
  (∀ (s : State) (c : Cmd) (e : Entry) (stat strm astat astrm out : Tensor) (xs ys us vs : List (List Elem))
      (ag : Agent) (i k0 kt n0 n m0 m k : Nat),
    s.ready c e 0x12 → ringStove c.ring = some i → ag = agentOf c.ring e → fld c.desc.w4 63 48 = 0 → c.desc.w6 = 0 →
    fld c.desc.w7 63 8 = 0 → fld c.desc.w5 53 52 = 2 → bit c.desc.w5 55 = false → bit c.desc.w5 63 = false →
    fld c.desc.w2 47 0 % 64 = 0 → fld c.desc.w3 47 0 % 64 = 0 → fld c.desc.w4 47 0 % 32 = 0 →
    s.tensorAt ag (fld c.desc.w2 47 0) = some stat → s.tensorAt ag (fld c.desc.w2 47 0 + 32) = some astat →
    s.tensorAt ag (fld c.desc.w3 47 0) = some strm → s.tensorAt ag (fld c.desc.w3 47 0 + 32) = some astrm →
    s.tensorAt ag (fld c.desc.w4 47 0) = some out →
    k0 = fld c.desc.w3 63 48 * 16 → kt = (fld c.desc.w5 51 46 + 1) * 16 → n0 = fld c.desc.w2 63 48 * 128 →
    n = fld c.desc.w5 62 56 + 1 → m0 = fld c.desc.w5 31 0 → m = fld c.desc.w5 45 32 + 1 → m ≤ 1024 → k = fld c.desc.w7 7 0 + 1 →
    s.operand ag stat k0 kt n0 n xs → s.operand ag strm m0 m k0 kt ys → s.operand ag astat 0 k n0 n us →
    s.operand ag astrm m0 m 0 k vs → s.result ag out m0 m n0 n → s.banked (jobOf c.desc) (stepOf c.desc) →
    astat.kind = 9 → strm.kind = astrm.kind → kt ≤ kmax (s.toWorld.recipe (jobOf c.desc) stat.kind).fmt →
    k ≤ kmax (s.toWorld.recipe (jobOf c.desc) astat.kind).fmt → (s.toWorld.recipe (jobOf c.desc) strm.kind).stream = none →
    ((s.toWorld.stove i).set (fld c.desc.w5 54 54)).live = false →
    ∃ t, exec (.tileAdapt c) s = .next t ∧ t.doneIn c.ring e.idx stOk ∧ t.pending = s.pending ∧ t.sec = s.sec ∧
      ((t.toWorld.stove i).set (fld c.desc.w5 54 54)).live = false) ∧
  (∀ (s : State) (r : RingId) (e : Entry) (d : Desc) (stat strm : Tensor) (xs ys : List (List Elem)) (o : StreamOp),
    s.dev.live = true → s.still → (s.toWorld.ringRun r).entries = [e] → e.desc = d → opcodeOf d = 0x10 → (ringStove r).isSome = true →
    s.wsTile (agentOf r e) d stat strm xs ys → o = ⟨strm, s.toWorld.recipe (jobOf d) strm.kind, ys⟩ →
    s.banked (jobOf d) (stepOf d) →
    (e.phase = .replay → fgVerdict 1 (fgCount [(o, (o.enter true).2.2.2)]) = none →
      ∃ t, exec (.fireguardReplay r) s = .next t ∧ t.doneIn r e.idx stOk ∧
        t.rf (rk r.page 0x0A0) 31 0 = min (2 ^ 32 - 1) (s.rf (rk r.page 0x0A0) 31 0 + 1) ∧ t.pending = s.pending ∧ t.sec = s.sec) ∧
    (e.phase = .over →
      ∃ t, exec (.fgOver r) s = .next t ∧ t.doneIn r e.idx stFireguard ∧ t.pending = s.pending ∧ t.sec = s.sec)))

/-- The elementwise operations of the Hob (R109 to R111): each row of the result is the operation of the rows of its sources,
element by element, every result rounded to binary32 once. The row operations of the Hob (R111 to R114) and the optimiser
commands of STREAMS mode (R185); OPT_OPEN may also wait. -/
def Obligations.HobCommandsComplete : Prop :=
  (
  Completes .vecCopy (hobOp 0x00) (vecRows 1 false noBad (un id)) ∧
  Completes .add (hobOp 0x01) (vecRows 2 false noBad (bin fun a b => rneF32 (a.add b))) ∧
  Completes .sub (hobOp 0x02) (vecRows 2 false noBad (bin fun a b => rneF32 (a.sub b))) ∧
  Completes .mul (hobOp 0x03) (vecRows 2 false noBad (bin fun a b => rneF32 (a.mul b))) ∧
  Completes .fma (hobOp 0x04) (vecRows 3 false noBad (tern fun a b c => rneF32 ((a.mul b).add c))) ∧
  Completes .max (hobOp 0x05) (vecRows 2 false noBad (bin hmax)) ∧
  Completes .min (hobOp 0x06) (vecRows 2 false noBad (bin hmin)) ∧
  Completes .abs (hobOp 0x07) (vecRows 1 false noBad (un Val.abs)) ∧
  Completes .neg (hobOp 0x08) (vecRows 1 false noBad (un Val.neg)) ∧
  Completes .scale (hobOp 0x09) (vecRows 1 false noBad fun v s j => un (fun a => rneF32 (a.mul v.imm)) v s j) ∧
  Completes .div (hobOp 0x0A) (vecRows 2 false noBad (bin fun a b => rneF32 (a.div b))) ∧
  Completes .sqrt (hobOp 0x0B) (vecRows 1 false noBad (un hobSqrt)) ∧
  Completes .rsqrt (hobOp 0x0C) (vecRows 1 false noBad (un hobRsqrt)) ∧
  Completes .recip (hobOp 0x0D) (vecRows 1 false noBad (un fun a => rneF32 a.inv)) ∧
  Completes .exp2 (hobOp 0x0E) (vecRows 1 false noBad (un hobExp2)) ∧
  Completes .log2 (hobOp 0x0F) (vecRows 1 false noBad (un hobLog2)) ∧
  Completes .fn (hobOp 0x10) (vecRows 1 false slotBad fun v s j => un (fun a => rneF32 (slotFn false v s j a)) v s j) ∧
  Completes .fnDeriv (hobOp 0x11) (vecRows 2 false slotBad fun v s j =>
    bin (fun a b => rneF32 (a.mul (slotFn true v s j b))) v s j)) ∧
  (
  Completes .rowSum (hobOp 0x20) (vecRows 1 true noBad (whole rowSum)) ∧
  Completes .rowMax (hobOp 0x21) (vecRows 1 true noBad (whole rowMax)) ∧
  Completes .rowSumSq (hobOp 0x22) (vecRows 1 true noBad (whole rowSumSq)) ∧
  Completes .softmax (hobOp 0x23) softmax ∧
  Completes .rmsNorm (hobOp 0x24) (vecWhole 2 fun v xs => match xs with | [a, b] => rmsRow v.imm a b | _ => []) ∧
  Completes .layerNorm (hobOp 0x25) (vecWhole 3 fun v xs => match xs with | [a, b, g] => layerRow v.imm a b g | _ => []) ∧
  Completes .topK (hobOp 0x30) topk ∧
  Completes .optSlice (hobOp 0x40) optSlice ∧ Completes .optCommit (hobOp 0x41) optCommit ∧
  Completes .optOpen (hobOp 0x42) optOpen ∧ Accepts .optOpen (hobOp 0x42) optOpen)

/-- R112: a row sum starts 256 lanes from +0 and combines them pairwise in a fixed tree of eight levels, every addition
rounded, shown for a row of four elements; R111: a maximum or minimum is NaN when an element is. -/
def Obligations.RowReductionsFollowTheTree : Prop :=
  (∀ a b c d : Val, rowSum [a, b, c, d] =
    (List.range 6).foldl (fun x _ => rneF32 (x.add (.zero false)))
      (rneF32 ((rneF32 ((rneF32 ((Val.zero false).add a)).add (rneF32 ((Val.zero false).add b)))).add
        (rneF32 ((rneF32 ((Val.zero false).add c)).add (rneF32 ((Val.zero false).add d))))))) ∧
  (∀ a b : Val, a.isNaN = true ∨ b.isNaN = true → hmax a b = .nan ∧ hmin a b = .nan) ∧
  (∀ xs : List Val, xs.length ≤ 256 → xs.any Val.isNaN = true → (rowMax xs).isNaN = true)

/-- The attention commands (R309 to R322): each completes with what its rules compute. R307 to R317, R97: with legal fields
(R310), operands in the stove's own scratchpad and a page that it may read, ATTN_FWD completes with OK and its state block
holds the new rows, ATTN_DELTA completes and the block's word l of each row is that row's sum, ATTN_BWD completes and changes
no byte outside its two state blocks, and ATTN_FIN of mode 1 completes. R321, R322: ATTN_APPEND and ATTN_SEAL complete where
the page's ranges may be written. MOVE (R101) completes, or goes to the version gate (R188); FSLOT (R106) completes; REGEN
(R184) completes; UPD_ARM (R181) waits armed, with no OPT_OPEN waiting anywhere. R101: MOVE without a gate completes with OK
and copies its bytes; R106: FSLOT of a legal image fills its slot. R181: UPD_ARM arms its region, UNIT or STREAMS, and waits.
R184: REGEN completes where the slices it owns may be read and their orders written. -/
def Obligations.AttentionMoveAndUpdateCommands : Prop :=
  (
  Completes .attnFwd (hasOp 0x50) attnFwd ∧ Completes .attnBwd (hasOp 0x51) attnBwd ∧
  Completes .attnFin (hasOp 0x52) attnFin ∧ Completes .attnDelta (hasOp 0x53) attnDelta ∧
  Completes .attnAppend (hasOp 0x55) attnAppend ∧ Completes .attnSeal (hasOp 0x56) attnSeal) ∧
  (
  (∀ (s : State) (c : Cmd) (e : Entry) (sh : Shape) (ag : Agent) (i st pa : Nat) (rv : Recipe) (qt : Tensor)
      (q ks vs : List (List Elem)) (bs : List Byte),
    s.ready c e 0x50 → ringStove c.ring = some i → ag = agentOf c.ring e → sh = shapeOf c.desc → sh.ok = true →
    zeroElse c.desc [(23, 0), (45, 25)] [(63, 0)] = true → pFmtCode c.desc = true → fld c.desc.w2 63 48 = 0 →
    fld c.desc.w3 63 48 = 0 → fld c.desc.w4 63 48 = 0 → c.desc.w5 = 0 → fld c.desc.w2 47 0 % 32 = 0 →
    fld c.desc.w3 47 0 % 256 = 0 → st = fld c.desc.w4 47 0 → st % 64 = 0 →
    rv = (if sh.isOpen then l16Recipe else s.toWorld.recipe (jobOf c.desc) 7) →
    s.tensorAt ag (fld c.desc.w2 47 0) = some qt → (s.toWorld.recipe (jobOf c.desc) qt.kind).perCh = false →
    s.operand ag qt sh.m0 sh.bq 0 (sh.nh * sh.dim) q → s.pageAt ag sh (fld c.desc.w3 47 0) rv ks vs →
    s.inPad ag st sh.stateBytes true = true → s.span ag st sh.stateBytes true = some pa → s.readAt ag st sh.stateBytes = some bs →
    ∃ t, exec (.attnFwd c) s = .next t ∧ t.doneIn c.ring e.idx stOk ∧ t.pending = s.pending ∧ t.sec = s.sec ∧
      s.StoredAt t (pa + 64) (Shape.image (((sh.heads q).zip (sh.stateOf bs)).zipIdx.map fun x =>
        (fwdRow sh (s.toWorld.recipe (jobOf c.desc) qt.kind) rv ((f32s bs).getD 0 (0, false)) (x.2 % sh.bq) x.1.1 ks
          (transpose sh.bk vs) x.1.2).1))) ∧
  (∀ (s : State) (c : Cmd) (e : Entry) (sh : Shape) (ag : Agent) (i st : Nat) (bs : List Byte) (out : Tensor),
    s.ready c e 0x52 → ringStove c.ring = some i → ag = agentOf c.ring e → sh = shapeOf c.desc → sh.ok = true →
    zeroElse c.desc [(14, 0)] [(63, 44)] = true → fld c.desc.w2 63 48 = 0 → fld c.desc.w3 63 48 = 0 → c.desc.w4 = 1 →
    c.desc.w5 = 0 → st = fld c.desc.w2 47 0 → st % 64 = 0 → fld c.desc.w3 47 0 % 32 = 0 →
    s.inPad ag st sh.stateBytes false = true → s.readAt ag st sh.stateBytes = some bs →
    s.tensorAt ag (fld c.desc.w3 47 0) = some out → s.result ag out sh.m0 sh.bq 0 (sh.nh * sh.dim) →
    s.banked (jobOf c.desc) (stepOf c.desc) →
    ∃ t, exec (.attnFin c) s = .next t ∧ t.doneIn c.ring e.idx stOk ∧ t.pending = s.pending ∧ t.sec = s.sec) ∧
  (∀ (s : State) (c : Cmd) (e : Entry) (sh : Shape) (ag : Agent) (i sq pa : Nat) (a b : Tensor) (xs ys : List (List Elem)),
    s.ready c e 0x53 → ringStove c.ring = some i → ag = agentOf c.ring e → sh = shapeOf c.desc → sh.ok = true →
    zeroElse c.desc [(14, 0)] [(63, 44)] = true → fld c.desc.w2 63 48 = 0 → fld c.desc.w3 63 48 = 0 → fld c.desc.w4 63 48 = 0 →
    c.desc.w5 = 0 → fld c.desc.w2 47 0 % 32 = 0 → fld c.desc.w3 47 0 % 32 = 0 → sq = fld c.desc.w4 47 0 → sq % 64 = 0 →
    (s.toWorld.recipe (jobOf c.desc) 7).block = 0 → (s.toWorld.recipe (jobOf c.desc) 7).perCh = false →
    s.tensorAt ag (fld c.desc.w2 47 0) = some a → (s.toWorld.recipe (jobOf c.desc) a.kind).perCh = false →
    s.operand ag a sh.m0 sh.bq 0 (sh.nh * sh.dim) xs → s.tensorAt ag (fld c.desc.w3 47 0) = some b →
    (s.toWorld.recipe (jobOf c.desc) b.kind).perCh = false → s.operand ag b sh.m0 sh.bq 0 (sh.nh * sh.dim) ys →
    s.inPad ag sq sh.stateBytes true = true → s.span ag sq sh.stateBytes true = some pa →
    ∃ t, exec (.attnDelta c) s = .next t ∧ t.doneIn c.ring e.idx stOk ∧ t.pending = s.pending ∧ t.sec = s.sec ∧
      s.StoredAt t (pa + 64 + 4 * sh.rows) (((sh.heads xs).zip (sh.heads ys)).flatMap fun x =>
        leBytes 4 (f32Code (rowSum ((x.1.zip x.2).map fun y => hmul (hin y.1) (hin y.2)))))) ∧
  (∀ (s : State) (c : Cmd) (e : Entry) (sh : Shape) (ag : Agent) (i opb sq sk pq pk : Nat) (ws : List U64) (rv : Recipe)
      (a b : Tensor) (xs ys ks vs : List (List Elem)) (bs cs : List Byte),
    s.ready c e 0x51 → ringStove c.ring = some i → ag = agentOf c.ring e → sh = shapeOf c.desc → sh.ok = true →
    zeroElse c.desc [(63, 0)] [(63, 0)] = true → pFmtCode c.desc = true → fld c.desc.w2 63 48 = 0 → fld c.desc.w3 63 48 = 0 →
    c.desc.w4 = 0 → c.desc.w5 = 0 → opb = fld c.desc.w2 47 0 → opb % 64 = 0 → fld c.desc.w3 47 0 % 256 = 0 →
    s.wordsAt ag opb 8 = some ws → (∀ k, k < 4 → fld (ws.getD k 0) 63 48 = 0) → fld (ws.getD 4 0) 63 16 = 0 →
    (∀ k, 5 ≤ k → ws.getD k 0 = 0) → fld (ws.getD 0 0) 47 0 % 32 = 0 → fld (ws.getD 1 0) 47 0 % 32 = 0 →
    sq = fld (ws.getD 2 0) 47 0 → sq % 64 = 0 → sk = fld (ws.getD 3 0) 47 0 → sk % 64 = 0 →
    (s.toWorld.recipe (jobOf c.desc) 7).block = 0 → (s.toWorld.recipe (jobOf c.desc) 7).perCh = false →
    rv = (if sh.isOpen then l16Recipe else s.toWorld.recipe (jobOf c.desc) 7) →
    s.tensorAt ag (fld (ws.getD 0 0) 47 0) = some a → (s.toWorld.recipe (jobOf c.desc) a.kind).perCh = false →
    s.operand ag a sh.m0 sh.bq 0 (sh.nh * sh.dim) xs → s.tensorAt ag (fld (ws.getD 1 0) 47 0) = some b →
    (s.toWorld.recipe (jobOf c.desc) b.kind).perCh = false → s.operand ag b sh.m0 sh.bq 0 (sh.nh * sh.dim) ys →
    s.pageAt ag sh (fld c.desc.w3 47 0) rv ks vs → s.inPad ag sq sh.stateBytes true = true →
    s.readAt ag sq sh.stateBytes = some bs → s.inPad ag sk sh.keyBytes true = true → s.readAt ag sk sh.keyBytes = some cs →
    s.span ag sq sh.stateBytes true = some pq → s.span ag sk sh.keyBytes true = some pk →
    ∃ t, exec (.attnBwd c) s = .next t ∧ t.doneIn c.ring e.idx stOk ∧ t.pending = s.pending ∧ t.sec = s.sec ∧
      ∀ x, (x < pq ∨ pq + sh.stateBytes ≤ x) → (x < pk ∨ pk + sh.keyBytes ≤ x) → t.byteAt x = s.byteAt x) ∧
  (∀ (s : State) (c : Cmd) (e : Entry) (sh : Shape) (ag : Agent) (i page slot : Nat) (a b : Tensor) (kr vr : Recipe)
      (xs ys : List (List Elem)) (p : Tensor × Tensor),
    s.ready c e 0x55 → ringStove c.ring = some i → ag = agentOf c.ring e → sh = shapeOf c.desc → sh.ok = true →
    zeroElse c.desc [(22, 13)] [(63, 22)] = true → fld c.desc.w2 63 48 = 0 → fld c.desc.w3 63 48 = 0 → fld c.desc.w4 63 48 = 0 →
    c.desc.w5 = 0 → page = fld c.desc.w4 47 0 → page % 256 = 0 → fld c.desc.w2 47 0 % 32 = 0 → fld c.desc.w3 47 0 % 32 = 0 →
    slot = sh.kpos % 256 → slot + sh.bk ≤ 256 → s.tensorAt ag (fld c.desc.w2 47 0) = some a →
    s.tensorAt ag (fld c.desc.w3 47 0) = some b → kr = s.toWorld.recipe (jobOf c.desc) a.kind →
    vr = s.toWorld.recipe (jobOf c.desc) b.kind → kr.plain → vr.plain → a.aligned kr = true → b.aligned vr = true →
    a.holds sh.m0 sh.bk 0 sh.dim = true → b.holds sh.m0 sh.bk 0 sh.dim = true →
    s.elemsAt ag a kr sh.m0 sh.bk 0 sh.dim = some xs → s.elemsAt ag b vr sh.m0 sh.bk 0 sh.dim = some ys →
    p = pageTensors page sh.dim l16Recipe 0 0 0 →
    s.undisturbed ag [] (p.1.ranges l16Recipe slot sh.bk 0 sh.dim ++ p.2.ranges l16Recipe 0 sh.dim slot sh.bk) →
    ∃ t, exec (.attnAppend c) s = .next t ∧ t.doneIn c.ring e.idx stOk ∧ t.pending = s.pending ∧ t.sec = s.sec) ∧
  (∀ (s : State) (c : Cmd) (e : Entry) (sh : Shape) (ag : Agent) (i opn sealed : Nat) (r : Recipe) (xs ys : List (List Elem))
      (rs : List (Nat × Nat)),
    s.ready c e 0x56 → ringStove c.ring = some i → ag = agentOf c.ring e → sh = shapeOf c.desc → sh.ok = true →
    zeroElse c.desc [(14, 13)] [(43, 22)] = true → fld c.desc.w2 63 48 = 0 → fld c.desc.w3 63 48 = 0 → fld c.desc.w4 63 32 = 0 →
    c.desc.w5 = 0 → opn = fld c.desc.w2 47 0 → opn % 256 = 0 → sealed = fld c.desc.w3 47 0 → sealed % 256 = 0 →
    r = s.toWorld.recipe (jobOf c.desc) 7 → r.perCh = false → r.axis = 0 → pageFits r sh.dim = true →
    s.pageAt ag { sh with bk := 256 } opn l16Recipe xs ys →
    rs = (pageTensors sealed sh.dim r 0 0 0).1.ranges r 0 256 0 sh.dim ++
      (pageTensors sealed sh.dim r 0 0 0).2.ranges r 0 sh.dim 0 256 →
    s.undisturbed ag [] rs → s.banked (jobOf c.desc) (stepOf c.desc) →
    s.recordApart (jobOf c.desc) (stepOf c.desc) (fld c.desc.w4 15 0) rs →
    ∃ t, exec (.attnSeal c) s = .next t ∧ t.doneIn c.ring e.idx stOk ∧ t.pending = s.pending ∧ t.sec = s.sec)) ∧
  (
  Completes .move (hasOp 0x20) move ∧ Accepts .move (hasOp 0x20) move ∧ Completes .fslot (hasOp 0x21) fslot ∧
  Completes .regen (hasOp 0x61) regen ∧
  (∀ (s : State) (c : Cmd) (e : Entry) (r : Run), s.starts c e = true → opcodeOf c.desc = 0x60 →
    s.computes c e updArm (.wait .armed) r → (∀ q ∈ s.dev.rings, ∀ x ∈ q.entries, x.phase ≠ .optOpen) →
    ∃ t x g a, exec (.updArm c) s = .next t ∧ t.entry c.ring e.idx = some x ∧ x.phase = .armed ∧
      t.toWorld.region (fld c.desc.w2 13 0) = some g ∧ g.arm = some a ∧ a.step = stepOf c.desc ∧
      a.streams = bit c.desc.w2 14 ∧ a.ring = c.ring ∧ a.idx = e.idx ∧ t.mem = s.mem ∧ t.pending = s.pending ∧ t.sec = s.sec)) ∧
  (
  (∀ (s : State) (c : Cmd) (e : Entry) (ag : Agent) (i src dst n pd : Nat) (bs : List Byte),
    s.ready c e 0x20 → ringStove c.ring = some i → ag = agentOf c.ring e → src = fld c.desc.w2 47 0 → fld c.desc.w2 63 48 = 0 →
    dst = fld c.desc.w3 47 0 → fld c.desc.w3 63 48 = 0 → n = fld c.desc.w4 31 0 → fld c.desc.w4 63 32 = 0 →
    fld c.desc.w5 63 30 = 0 → c.desc.w6 = 0 → c.desc.w7 = 0 → src % 32 = 0 → dst % 32 = 0 → n % 32 = 0 → 0 < n →
    s.inPad ag src n false = true ∨ s.inPad ag dst n true = true → s.readAt ag src n = some bs → s.span ag dst n true = some pd →
    ∃ t, exec (.move c) s = .next t ∧ t.doneIn c.ring e.idx stOk ∧ s.StoredAt t pd bs ∧ t.pending = s.pending ∧ t.sec = s.sec) ∧
  (∀ (s : State) (c : Cmd) (e : Entry) (i a n : Nat) (ws : List U64),
    s.ready c e 0x21 → ringStove c.ring = some i → a = fld c.desc.w2 47 0 → fld c.desc.w2 63 48 = 0 → n = fld c.desc.w3 3 0 →
    fld c.desc.w3 63 4 = 0 → [c.desc.w4, c.desc.w5, c.desc.w6, c.desc.w7] = [0, 0, 0, 0] → a % 32 = 0 →
    s.wordsAt (agentOf c.ring e) a 528 = some ws → tableOk (slotTable ws false) = true → tableOk (slotTable ws true) = true →
    (s.toWorld.slotsNamed c.ring.page).testBit n = false → (s.toWorld.stove i).clr = [] →
    ∃ t, exec (.fslot c) s = .next t ∧ t.doneIn c.ring e.idx stOk ∧ t.mem = s.mem ∧ t.pending = s.pending ∧ t.sec = s.sec ∧
      (t.toWorld.stove i).slots = ⟨n, jobOf c.desc, ws⟩ :: (s.toWorld.stove i).slots.filter fun x => x.slot ≠ n) ∧
  (∀ (s : State) (c : Cmd) (e : Entry) (k pa : Nat) (r : Region) (streams : Bool) (ps : List U64),
    s.able c e 0x60 → k = fld c.desc.w2 13 0 → streams = bit c.desc.w2 14 → fld c.desc.w2 63 15 = 0 → pa = fld c.desc.w3 47 0 →
    fld c.desc.w3 63 48 = 0 → [c.desc.w4, c.desc.w5, c.desc.w6, c.desc.w7] = [0, 0, 0, 0] → s.toWorld.region k = some r →
    r.job = jobOf c.desc → r.arm = none → r.frozen = false → r.cv = stepOf c.desc % 2 ^ 16 →
    (∀ o ∈ s.dev.blw.regions, o.tag = r.tag → ∀ a, o.arm = some a → a.step ≠ stepOf c.desc) → s.toWorld.armedOn r.die < 256 →
    (streams = true ∧ ps = []) ∨ (streams = false ∧ s.rf (rk (blwPage r.die) 0x080) 0 0 = 1 ∧
      s.rf (rk (blwPage r.die) 0x080) 8 8 = 0 ∧ pa % 32 = 0 ∧ s.wordsAt (agentOf c.ring e) pa 4 = some ps ∧ paramsOk ps = true) →
    (∀ q ∈ s.dev.rings, ∀ x ∈ q.entries, x.phase ≠ .optOpen) →
    ∃ t x q, exec (.updArm c) s = .next t ∧ t.entry c.ring e.idx = some x ∧ x.phase = .armed ∧ t.toWorld.region k = some q ∧
      q = { r with arm := some ⟨stepOf c.desc, streams, c.ring, e.idx, seqOf c.desc, ps, stOk, 0⟩ } ∧ t.mem = s.mem ∧
      t.pending = s.pending ∧ t.sec = s.sec) ∧
  (∀ (s : State) (c : Cmd) (e : Entry) (ag : Agent) (r : Region) (slot : Nat) (slices : List Nat)
      (spots : Nat → Spot × Spot × Spot × Spot × Spot) (reads writes : List (Nat × Nat)),
    s.able c e 0x61 → ag = agentOf c.ring e → fld c.desc.w2 63 14 = 0 →
    [c.desc.w3, c.desc.w4, c.desc.w5, c.desc.w6, c.desc.w7] = [0, 0, 0, 0, 0] →
    s.toWorld.region (fld c.desc.w2 13 0) = some r → r.job = jobOf c.desc → r.arm = none → r.frozen = false →
    slot = (if r.lag1 then r.cv % 2 else 0) → (∀ b, (r.order b slot).blocksFit (s.toWorld.recipe r.job b.toNat) = true) →
    slices = (List.range r.nslice).filter r.owns → (∀ sl, spots sl = r.spots (s.toWorld.recipe r.job) sl slot) →
    reads = slices.flatMap (fun sl => (spots sl).1.t.ranges (spots sl).1.r (spots sl).1.i (r.sliceAt sl).kk (spots sl).1.c
      (r.sliceAt sl).nn) →
    writes = slices.flatMap (fun sl =>
      (spots sl).2.2.2.1.t.ranges (spots sl).2.2.2.1.r (spots sl).2.2.2.1.i (r.sliceAt sl).kk (spots sl).2.2.2.1.c
        (r.sliceAt sl).nn ++
      (spots sl).2.2.2.2.t.ranges (spots sl).2.2.2.2.r (spots sl).2.2.2.2.i (r.sliceAt sl).nn (spots sl).2.2.2.2.c
        (r.sliceAt sl).kk) →
    s.undisturbed ag reads writes → s.banked (jobOf c.desc) (stepOf c.desc) →
    (∀ b, s.recordApart (jobOf c.desc) (stepOf c.desc) (r.order b slot).tid (reads ++ writes)) →
    ∃ t, exec (.regen c) s = .next t ∧ t.doneIn c.ring e.idx stOk ∧ t.pending = s.pending ∧ t.sec = s.sec))

/-- COPY, FILL and COPY2D (R345, R346) complete; under PHYS on the owner's ring, FILL stores its 64-bit value over its range,
and COPY stores the bytes of its source range over its destination, and no other byte changes. R345: COPY2D under PHYS on the
owner's ring stores each row of its source at its row of the destination, and no other byte changes, where no row of either
is poisoned or shares a byte with a row of the other. -/
def Obligations.CopyCommandsComplete : Prop :=
  (
  Completes .copy (hasOp 0x70) copyCmd ∧ Completes .fill (hasOp 0x71) fillCmd ∧ Completes .copy2d (hasOp 0x72) copy2dCmd ∧
  (∀ (s : State) (c : Cmd) (e : Entry) (a n : Nat), s.starts c e = true → opcodeOf c.desc = 0x71 →
    s.dev.urk.owner = some (s.toWorld.ringPort c.ring) → a = fld c.desc.w2 47 0 → n = fld c.desc.w4 39 0 →
    bit c.desc.w2 48 = true → fld c.desc.w2 63 49 = 0 → fld c.desc.w4 63 40 = 0 →
    [c.desc.w5, c.desc.w6, c.desc.w7] = [0, 0, 0] → a % 32 = 0 → n % 32 = 0 → 0 < n →
    s.plain (engineNode c.ring.page c.ring.n) a n = true →
    ∃ t, exec (.fill c) s = .next t ∧ t.doneIn c.ring e.idx stOk ∧
      s.StoredAt t a (List.replicate (n / 8) (wordBytes c.desc.w3)).flatten ∧
      (∀ g, g ≠ lineOf a → t.poisonAt g = s.poisonAt g) ∧ t.pending = s.pending ∧ t.sec = s.sec) ∧
  (∀ (s : State) (c : Cmd) (e : Entry) (a b n : Nat), s.starts c e = true → opcodeOf c.desc = 0x70 →
    s.dev.urk.owner = some (s.toWorld.ringPort c.ring) → a = fld c.desc.w2 47 0 → b = fld c.desc.w3 47 0 →
    n = fld c.desc.w4 39 0 → bit c.desc.w2 48 = true → fld c.desc.w2 63 50 = 0 → fld c.desc.w3 63 48 = 0 →
    fld c.desc.w4 63 40 = 0 → [c.desc.w5, c.desc.w6, c.desc.w7] = [0, 0, 0] → a % 32 = 0 → b % 32 = 0 → n % 32 = 0 →
    0 < n → a + n ≤ b ∨ b + n ≤ a → s.plain (engineNode c.ring.page c.ring.n) a n = true →
    s.plain (engineNode c.ring.page c.ring.n) b n = true → s.poisonAt (lineOf a) = false →
    ∃ t, exec (.copy c) s = .next t ∧ t.doneIn c.ring e.idx stOk ∧ s.StoredAt t b (s.toWorld.bytes a n) ∧
      (∀ g, g ≠ lineOf b → t.poisonAt g = s.poisonAt g) ∧ t.pending = s.pending ∧ t.sec = s.sec)) ∧
  (
  ∀ (s : State) (c : Cmd) (e : Entry) (src dst n rows sp dp node : Nat), s.starts c e = true → opcodeOf c.desc = 0x72 →
    s.dev.urk.owner = some (s.toWorld.ringPort c.ring) → node = engineNode c.ring.page c.ring.n → bit c.desc.w2 48 = true →
    fld c.desc.w2 63 50 = 0 → fld c.desc.w3 63 48 = 0 → [c.desc.w6, c.desc.w7] = [0, 0] → src = fld c.desc.w2 47 0 →
    dst = fld c.desc.w3 47 0 → n = fld c.desc.w4 31 0 → rows = fld c.desc.w4 63 32 → sp = fld c.desc.w5 31 0 →
    dp = fld c.desc.w5 63 32 → src % 32 = 0 → dst % 32 = 0 → n % 32 = 0 → sp % 32 = 0 → dp % 32 = 0 → 0 < n → n ≤ dp →
    (∀ i, i < rows → s.plain node (src + i * sp) n = true ∧ s.plain node (dst + i * dp) n = true ∧
      s.poisonAt (lineOf (src + i * sp)) = false) →
    (∀ i j, i < rows → j < rows → src + i * sp + n ≤ dst + j * dp ∨ dst + j * dp + n ≤ src + i * sp) →
    ∃ t, exec (.copy2d c) s = .next t ∧ t.doneIn c.ring e.idx stOk ∧ t.pending = s.pending ∧ t.sec = s.sec ∧
      (∀ i j, i < rows → j < n → t.byteAt (dst + i * dp + j) = s.byteAt (src + i * sp + j)) ∧
      ∀ x, (∀ i, i < rows → x < dst + i * dp ∨ dst + i * dp + n ≤ x) → t.byteAt x = s.byteAt x)

/-- The Chimney's commands (R256, R260, R270, R272, R273): CHM_BUCKET waits armed; CHM_CONTRIB, CHM_EMPTY and CHM_MCAST
complete; CHM_RREAD completes on this device or waits for its answer; CHM_PERMUTE waits while its round is not whole. R256 to
R258: CHM_BUCKET of a legal descriptor arms its tag and waits. R259, R260: CHM_CONTRIB and CHM_EMPTY of an arm here complete
and their index counts as used, their packets inside where every chunk's home is this device. R270: CHM_MCAST completes.
R272: CHM_RREAD on this device completes and copies; to another it waits for its answer. R273: CHM_PERMUTE whose pieces go to
other devices starts the round and waits. The stokers' commands (R278, R284, R303, R307): RT_ARM and KV_ARM, RT_DISARM and
KV_DISARM complete with what they compute. R280 to R283, R323, R324: RT_ARM and KV_ARM of legal descriptors complete, the arm
standing with its trigger and done words zero; RT_DISARM and KV_DISARM of an arm without a pass complete and it is gone, else
they wait for the pass. -/
def Obligations.ChimneyAndStokerCommands : Prop :=
  (
  Accepts .chmBucket (hasOp 0x80) chmBucket ∧ Completes .chmContrib (hasOp 0x81) chmContrib ∧
  Completes .chmEmpty (hasOp 0x82) chmEmpty ∧ Completes .chmMcast (hasOp 0x83) chmMcast ∧
  Completes .chmRread (hasOp 0x84) chmRread ∧ Accepts .chmRread (hasOp 0x84) chmRread ∧
  (∀ (s : State) (c : Cmd) (e : Entry) (r : Run) (p : PermRound), s.starts c e = true → opcodeOf c.desc = 0x85 →
    s.computes c e chmPermute (.wait (.fabric (fld c.desc.w5 63 48))) r → r.w.dev.chm.perm = some p → p.excess = false →
    p.got ≠ p.inbytes ∨ p.dones < p.npart →
    ∃ t x, exec (.chmPermute c) s = .next t ∧ t.entry c.ring e.idx = some x ∧ x.phase = .fabric (fld c.desc.w5 63 48) ∧
      t.dev.chm.perm = some p ∧ t.mem = memCommit s.mem r.w.log ∧ t.pending = s.pending ∧ t.sec = s.sec)) ∧
  (
  (∀ (s : State) (c : Cmd) (e : Entry) (ag : Agent) (va close : Nat) (ws ms : List U64) (a b : Arm),
    s.able c e 0x80 → ag = agentOf c.ring e → va = fld c.desc.w2 47 0 → va % 64 = 0 → fld c.desc.w2 63 51 = 0 →
    [c.desc.w3, c.desc.w4, c.desc.w5, c.desc.w6, c.desc.w7] = [0, 0, 0, 0, 0] → s.wordsAt ag va 8 = some ws →
    a = ⟨fld (ws.getD 0 0) 11 0, stepOf c.desc, jobOf c.desc, c.ring, e.idx, seqOf c.desc, ws, [], 0, fld c.desc.w2 50 48, [], [], [],
      [], [], [], 0, false, [], [], false, [], [], none, []⟩ → fld (a.word 0) 17 12 = jobOf c.desc → bucketOk a = true →
    s.toWorld.chnTag a.tag = false → s.toWorld.arm a.tag a.step = none →
    s.wordsAt ag (fld (a.word 2) 47 0) (fld (a.word 2) 57 48 + 1) = some ms → homeMapOk ms a.nchunk a.nhdev a.cunit = true →
    (a.mode = 1 → ms.length = 1) → s.toWorld.closeTickOf a = some close → s.toWorld.tickBegun close = false →
    rfmtOk a.rfmt = true → a.round ≤ 1 → (a.round = 1 → a.nchunk * 256 < 2 ^ 38 ∧ a.rfmt ≠ 8) →
    b = { a with hm := ms.map (fun m => (fld m 31 0, fld m 44 32)), close := close } → s.reach ag (b.writes s.toWorld.devId) true →
    (s.dev.chm.arms.filter fun x => x.tag == a.tag).length < 2 →
    ∃ t x, exec (.chmBucket c) s = .next t ∧ t.entry c.ring e.idx = some x ∧ x.phase = .armed ∧
      t.dev.chm.arms = s.dev.chm.arms ++ [b] ∧ (b.isHome = false → t.mem = s.mem) ∧ t.pending = s.pending ∧ t.sec = s.sec) ∧
  (∀ (s : State) (c : Cmd) (e : Entry) (tag mbid cfmt z c0 nch src : Nat) (permb : Bool) (a : Arm) (bs : Nat → List Byte),
    s.able c e 0x81 → tag = fld c.desc.w2 11 0 → mbid = fld c.desc.w2 21 12 → permb = bit c.desc.w2 22 →
    cfmt = fld c.desc.w2 26 23 → fld c.desc.w2 63 27 = 0 → c0 = fld c.desc.w3 31 0 → nch = fld c.desc.w3 63 32 →
    src = fld c.desc.w4 47 0 → fld c.desc.w4 63 48 = 0 → [c.desc.w5, c.desc.w6, c.desc.w7] = [0, 0, 0] → src % 32 = 0 →
    cfmtOk cfmt = true → z = redBytes cfmt → s.toWorld.chnTag tag = false → s.toWorld.arm tag (stepOf c.desc) = some a →
    s.toWorld.contribRefused tag (stepOf c.desc) mbid permb c0 nch = false →
    (∀ i, i < nch → s.readAt (agentOf c.ring e) (src + i * 256 * z) (256 * z) = some (bs i)) →
    a.mode = 1 ∨ (∀ i, i < nch → s.leads (a.homeOf (c0 + i))) →
    ∃ t x, exec (.chmContrib c) s = .next t ∧ t.doneIn c.ring e.idx stOk ∧ t.mem = s.mem ∧
      t.toWorld.arm tag (stepOf c.desc) = some x ∧ (0 < nch → a.cix mbid permb ∈ x.used) ∧ t.pending = s.pending ∧ t.sec = s.sec ∧
      (a.mode = 1 ∨ (∀ i, i < nch → a.homeOf (c0 + i) = s.toWorld.devId) → t.dev.net = s.dev.net ++ (List.range nch).map fun i =>
        .contrib ⟨a.job, tag, stepOf c.desc, a.cix mbid permb, c0 + i, 1, cfmt, false, permb, mbid, false,
          (chunks z (bs i)).map leNat⟩)) ∧
  (∀ (s : State) (c : Cmd) (e : Entry) (tag mbid c0 nch : Nat) (permb : Bool) (a : Arm),
    s.able c e 0x82 → tag = fld c.desc.w2 11 0 → mbid = fld c.desc.w2 21 12 → permb = bit c.desc.w2 22 →
    fld c.desc.w2 63 23 = 0 → c0 = fld c.desc.w3 31 0 → nch = fld c.desc.w3 63 32 →
    [c.desc.w4, c.desc.w5, c.desc.w6, c.desc.w7] = [0, 0, 0, 0] → s.toWorld.chnTag tag = false →
    s.toWorld.arm tag (stepOf c.desc) = some a → s.toWorld.contribRefused tag (stepOf c.desc) mbid permb c0 nch = false →
    a.mode = 1 ∨ (∀ i, i < nch → s.leads (a.homeOf (c0 + i))) →
    ∃ t x, exec (.chmEmpty c) s = .next t ∧ t.doneIn c.ring e.idx stOk ∧ t.mem = s.mem ∧
      t.toWorld.arm tag (stepOf c.desc) = some x ∧ a.cix mbid permb ∈ x.used ∧ t.pending = s.pending ∧ t.sec = s.sec ∧
      (a.mode = 1 → t.dev.net = s.dev.net ++ [.contrib ⟨a.job, tag, stepOf c.desc, a.cix mbid permb, c0, nch, 0, true, permb, mbid,
        false, []⟩])) ∧
  (∀ (s : State) (c : Cmd) (e : Entry) (src dst len nline g : Nat) (bs : List Byte),
    s.able c e 0x83 → src = fld c.desc.w2 47 0 → fld c.desc.w2 63 48 = 0 → dst = fld c.desc.w3 47 0 → fld c.desc.w3 63 48 = 0 →
    len = fld c.desc.w4 31 0 → g = fld c.desc.w4 43 32 → fld c.desc.w4 63 44 = 0 → nline = fld c.desc.w5 47 0 →
    fld c.desc.w5 63 48 = 0 → c.desc.w6 = 0 → c.desc.w7 = 0 → src % 32 = 0 → dst % 32 = 0 → len % 32 = 0 → nline % 8 = 0 →
    s.readAt (agentOf c.ring e) src len = some bs → s.casts g →
    ∃ t, exec (.chmMcast c) s = .next t ∧ t.doneIn c.ring e.idx stOk ∧ t.mem = s.mem ∧ t.pending = s.pending ∧ t.sec = s.sec ∧
      ((s.toWorld.group g).testBit 18 = true → t.dev.net = s.dev.net ++ (chunks 1024 bs).zipIdx.map fun p =>
        .mcast ⟨jobOf c.desc, dst + 1024 * p.2, nline, false, p.1⟩)) ∧
  (∀ (s : State) (c : Cmd) (e : Entry) (ag : Agent) (src dev dst len : Nat),
    s.able c e 0x84 → ag = agentOf c.ring e → src = fld c.desc.w2 47 0 → dev = fld c.desc.w2 60 48 → fld c.desc.w2 63 61 = 0 →
    dst = fld c.desc.w3 47 0 → fld c.desc.w3 63 48 = 0 → len = fld c.desc.w4 31 0 → fld c.desc.w4 63 32 = 0 →
    fld c.desc.w5 63 31 = 0 → c.desc.w6 = 0 → c.desc.w7 = 0 → src % 32 = 0 → dst % 32 = 0 → len % 32 = 0 →
    (∀ pd bs, dev = s.toWorld.devId → bit c.desc.w5 30 = false → s.readAt ag src len = some bs → s.span ag dst len true = some pd →
      ∃ t, exec (.chmRread c) s = .next t ∧ t.doneIn c.ring e.idx stOk ∧ s.StoredAt t pd bs ∧ t.pending = s.pending ∧
        t.sec = s.sec) ∧
    (dev ≠ s.toWorld.devId → (s.toWorld.outPort dev).isSome = true → (s.span ag dst len true).isSome = true →
      ∃ t x, exec (.chmRread c) s = .next t ∧ t.entry c.ring e.idx = some x ∧ x.phase = .fabric s.dev.chm.nextTag ∧
        t.dev.chm.rreads = s.dev.chm.rreads ++ [⟨s.dev.chm.nextTag, c.ring, e.idx, dst, len, none⟩] ∧
        t.dev.chm.nextTag = (s.dev.chm.nextTag + 1) % 2 ^ 16 ∧ t.mem = s.mem ∧ t.pending = s.pending ∧ t.sec = s.sec)) ∧
  (∀ (s : State) (c : Cmd) (e : Entry) (ag : Agent) (n stage sz round : Nat) (ws : List U64) (p : PermRound),
    s.able c e 0x85 → ag = agentOf c.ring e → n = fld c.desc.w2 63 48 → stage = fld c.desc.w3 47 0 → fld c.desc.w3 63 48 = 0 →
    sz = fld c.desc.w4 31 0 → fld c.desc.w4 63 57 = 0 → round = fld c.desc.w5 63 48 → c.desc.w6 = 0 → c.desc.w7 = 0 →
    sz = 0 ∨ s.toWorld.inSlm stage sz = true → s.dev.chm.perm = none → s.wordsAt ag (fld c.desc.w2 47 0) (4 * n) = some ws →
    (∀ i, i < n → (s.readAt ag (fld (ws.getD (4 * i) 0) 47 0) (fld (ws.getD (4 * i + 2) 0) 31 0)).isSome = true ∧
      fld (ws.getD (4 * i + 3) 0) 12 0 ≠ s.toWorld.devId ∧ s.leads (fld (ws.getD (4 * i + 3) 0) 12 0)) →
    s.casts (fld c.desc.w4 56 45) → fld c.desc.w4 44 32 ≠ 0 ∨ fld c.desc.w5 47 0 ≠ 0 →
    p = ⟨c.ring, e.idx, jobOf c.desc, round, stage, sz, fld c.desc.w4 44 32, fld c.desc.w5 47 0, 0, [], 0, false,
      s.toWorld.permDeadline⟩ →
    ∃ t x, exec (.chmPermute c) s = .next t ∧ t.entry c.ring e.idx = some x ∧ x.phase = .fabric round ∧ t.dev.chm.perm = some p ∧
      t.mem = s.mem ∧ t.pending = s.pending ∧ t.sec = s.sec)) ∧
  (
  Completes .rtArm (hasOp 0xD0) rtArmCmd ∧ Completes .rtDisarm (hasOp 0xD1) rtDisarm ∧
  Completes .kvArm (hasOp 0xD8) kvArmCmd ∧ Completes .kvDisarm (hasOp 0xD9) kvDisarmCmd) ∧
  (
  (∀ (s : State) (c : Cmd) (e : Entry) (ag : Agent) (va num members pc ps : Nat) (ws f b : List U64) (a : RtArm) (g : Group),
    s.able c e 0xD0 → ag = agentOf c.ring e → va = fld c.desc.w2 47 0 → va % 128 = 0 → num = fld c.desc.w2 53 48 →
    fld c.desc.w2 63 54 = 0 → [c.desc.w3, c.desc.w4, c.desc.w5, c.desc.w6, c.desc.w7] = [0, 0, 0, 0, 0] →
    s.wordsAt ag va 16 = some ws → a = ⟨num, c.ring.page, jobOf c.desc, ws, [], [], [], 0, [], none, none, [], [], none, []⟩ →
    s.toWorld.armRefused c.ring.page (jobOf c.desc) a.group a.xring = none → s.toWorld.rt num = none →
    s.toWorld.grp a.group = some g → members = g.members.length → a.ok members = true →
    (∀ i, i < a.nexp * a.nreg → s.toWorld.chnTag (a.tagbase + i) = false) → s.toWorld.chnTag a.ctag = false →
    (∀ i, i < a.nexp → exdValid (s.toWorld.exdWords (a.dir0 + i)) = true ∧ exdJob (s.toWorld.exdWords (a.dir0 + i)) = jobOf c.desc ∧
      exdNreg (s.toWorld.exdWords (a.dir0 + i)) = a.nreg) →
    s.span ag a.cbase (a.cent * a.cesz) true = some pc → s.toWorld.inSlm pc (a.cent * a.cesz) = true →
    s.programAt ag (fld (a.word 11) 47 0) members f → s.programAt ag (fld (a.word 12) 47 0) members b →
    s.span ag a.sync (16 * members) true = some ps →
    ∃ t, exec (.rtArm c) s = .next t ∧ t.doneIn c.ring e.idx stOk ∧ t.dev.stk.rts = s.dev.stk.rts ++ [{ a with
        fprog := f, bprog := b, cache := List.replicate a.cent ⟨none, false, 0, none⟩
        trig := (List.range members).map fun k => ps + 8 * k }] ∧
      s.StoredAt t ps (List.replicate (16 * members) 0) ∧ t.pending = s.pending ∧ t.sec = s.sec) ∧
  (∀ (s : State) (c : Cmd) (e : Entry) (ag : Agent) (va num members ps : Nat) (ws : List U64) (a : KvArm) (g : Group),
    s.able c e 0xD8 → ag = agentOf c.ring e → va = fld c.desc.w2 47 0 → va % 128 = 0 → num = fld c.desc.w2 53 48 →
    fld c.desc.w2 63 54 = 0 → [c.desc.w3, c.desc.w4, c.desc.w5, c.desc.w6, c.desc.w7] = [0, 0, 0, 0, 0] →
    s.wordsAt ag va 16 = some ws → a = ⟨num, c.ring.page, jobOf c.desc, ws, [], false, none, []⟩ →
    s.toWorld.armRefused c.ring.page (jobOf c.desc) a.group (fld (a.word 0) 9 8) = none → s.toWorld.kv num = none →
    s.toWorld.grp a.group = some g → members = g.members.length → a.ok = true → s.span ag a.sync (16 * members) true = some ps →
    ∃ t, exec (.kvArm c) s = .next t ∧ t.doneIn c.ring e.idx stOk ∧ t.dev.stk.kvs = s.dev.stk.kvs ++ [{ a with
        trig := (List.range members).map fun k => ps + 8 * k }] ∧
      s.StoredAt t ps (List.replicate (16 * members) 0) ∧ t.pending = s.pending ∧ t.sec = s.sec) ∧
  (∀ (s : State) (c : Cmd) (e : Entry) (num : Nat) (a : RtArm),
    s.able c e 0xD1 → num = fld c.desc.w2 5 0 → fld c.desc.w2 63 6 = 0 →
    [c.desc.w3, c.desc.w4, c.desc.w5, c.desc.w6, c.desc.w7] = [0, 0, 0, 0, 0] → s.toWorld.rt num = some a →
    a.job = jobOf c.desc → a.page = c.ring.page → a.disarm = none →
    (a.pass = none → a.out = [] → ∃ t, exec (.rtDisarm c) s = .next t ∧ t.doneIn c.ring e.idx stOk ∧ t.toWorld.rt num = none ∧
      t.mem = s.mem ∧ t.pending = s.pending ∧ t.sec = s.sec) ∧
    (a.pass.isSome = true ∨ a.out ≠ [] → ∃ t x, exec (.rtDisarm c) s = .next t ∧ t.entry c.ring e.idx = some x ∧
      x.phase = .stoker num ∧ t.toWorld.rt num = some { a with disarm := some (c.ring, e.idx) } ∧ t.mem = s.mem ∧
      t.pending = s.pending ∧ t.sec = s.sec)) ∧
  (∀ (s : State) (c : Cmd) (e : Entry) (num : Nat) (a : KvArm),
    s.able c e 0xD9 → num = fld c.desc.w2 5 0 → fld c.desc.w2 63 6 = 0 →
    [c.desc.w3, c.desc.w4, c.desc.w5, c.desc.w6, c.desc.w7] = [0, 0, 0, 0, 0] → s.toWorld.kv num = some a →
    a.job = jobOf c.desc → a.page = c.ring.page → a.disarm = none →
    (a.busy = false → a.out = [] → ∃ t, exec (.kvDisarm c) s = .next t ∧ t.doneIn c.ring e.idx stOk ∧ t.toWorld.kv num = none ∧
      t.mem = s.mem ∧ t.pending = s.pending ∧ t.sec = s.sec) ∧
    (a.busy = true ∨ a.out ≠ [] → ∃ t x, exec (.kvDisarm c) s = .next t ∧ t.entry c.ring e.idx = some x ∧
      x.phase = .stoker num ∧ t.toWorld.kv num = some { a with disarm := some (c.ring, e.idx) } ∧ t.mem = s.mem ∧
      t.pending = s.pending ∧ t.sec = s.sec)))

/-- R16, R361: a write of EVT_MASK by the owner stores it, and by another port changes no register but that port's own:
URK_DENY counts it and shows the page and the offset, and its cause bit of EV_URK_DENY sets. R441: a write of BLK_CTL.EN on a
page without rings sets that bit alone; a soft reset of such a page whose block does no more clears its EVT_COUNT and
EVT_CAUSE and changes no other page. R455: a write with EN 1 of a set-up register of a ring of records enables the ring when
LOG2SZ lies from 12 to 24, and otherwise leaves EN 0; the other fields take effect either way. -/
def Obligations.RegisterWritesAct : Prop :=
  (
  (∀ (s : State) (p page : Nat) (v : U64), s.owned p → (pageInfo page).isSome = true →
    ∃ t, exec (.registerWrite p page 0x028 v) s = .next t ∧ t.reg (rk page 0x028) = v ∧ s.OnlyRegs t [rk page 0x028]) ∧
  (∀ (s : State) (p page : Nat) (v : U64), s.hosts p → s.dev.urk.owner ≠ some p →
    (pageInfo page).isSome = true → page < 0x4000 → bit (s.reg (rk (0x10 + p) 0x010)) 3 = false →
    ∃ t, exec (.registerWrite p page 0x028 v) s = .next t ∧
      t.rf (rk (0x10 + p) 0x0F8) 31 0 = min (2 ^ 32 - 1) (s.rf (rk (0x10 + p) 0x0F8) 31 0 + 1) ∧
      t.rf (rk (0x10 + p) 0x0F8) 47 32 = page ∧ t.rf (rk (0x10 + p) 0x0F8) 59 48 = 0x028 ∧
      bit (t.reg (rk (0x10 + p) 0x020)) 0x15 = true ∧
      s.OnlyRegs t [rk (0x10 + p) 0x0F8, rk (0x10 + p) 0x020, rk (0x10 + p) 0x030])) ∧
  (
  (∀ (s : State) (p page : Nat) (on : Bool), s.owned p → (pageInfo page).isSome = true → pageRings page = [] →
    bit (s.reg (rk page 0x010)) 1 = false →
    ∃ t, exec (.blkCtlEn p page on) s = .next t ∧ bit (t.reg (rk page 0x010)) 0 = on ∧
      (∀ i, 1 ≤ i → i < 4 → bit (t.reg (rk page 0x010)) i = bit (s.reg (rk page 0x010)) i) ∧
      s.OnlyRegs t [rk page 0x010]) ∧
  (∀ (s : State) (p page i : Nat) (b : Blk), s.owned p → pageInfo page = some (b, i) → b ∈ [.mgt, .snp, .sec, .hrt, .hbm, .gst] →
    ∃ t, exec (.srst p page) s = .next t ∧ t.reg (rk page 0x020) = 0 ∧ t.reg (rk page 0x030) = 0 ∧ t.mem = s.mem ∧
      t.pending = s.pending ∧ t.sec = s.sec ∧ { t.dev with regs := s.dev.regs } = s.dev ∧
      (∀ k, k / 0x1000 ≠ page → t.reg k = s.reg k))) ∧
  (
  ∀ (s : State) (p page off : Nat) (v : U64), s.hosts p → setupReg page off = true →
    s.toWorld.mayWrite p page off v = true → bit v 0 = true →
    ∃ t, exec (.ringSetupBase p page off v) s = .next t ∧
      t.rf (rk page off) 5 1 = fld v 5 1 ∧ t.rf (rk page off) 47 12 = fld v 47 12 ∧
      bit (t.reg (rk page off)) 0 = (decide (12 ≤ fld v 5 1) && decide (fld v 5 1 ≤ 24)) ∧ s.OnlyRegs t [rk page off])

/-- R368, R370, R371, R443, R446: an event sets its cause bit and counts as raised; masked, or with EVT_EN 0, it does nothing
more; else it counts as sent and takes the next number of its port, which skips 0. -/
def Obligations.EventsAreCountedAndNumbered : Prop :=
  ∀ (w : World) (rp : Option Nat) (page code qual : Nat) (d0 d1 : U64) (p : Nat), code < 0x40 →
    (page < 0x10 ∨ 0x14 ≤ page) → w.eventPort rp d0 = some p → p < 4 →
    (bit (w.reg (rk page 0x010)) 3 = false ∨ bit (w.reg (rk page 0x028)) code = true →
      (w.raise rp page code qual d0 d1).1 = 0 ∧
      bit ((w.raise rp page code qual d0 d1).2.reg (rk page 0x020)) code = true ∧
      (w.raise rp page code qual d0 d1).2.rf (rk page 0x030) 31 0 = min (2 ^ 32 - 1) (w.rf (rk page 0x030) 31 0 + 1) ∧
      (w.raise rp page code qual d0 d1).2.rf (rk page 0x030) 63 32 = w.rf (rk page 0x030) 63 32 ∧
      (∀ k, k ≠ rk page 0x020 → k ≠ rk page 0x030 → (w.raise rp page code qual d0 d1).2.reg k = w.reg k)) ∧
    (bit (w.reg (rk page 0x010)) 3 = true → bit (w.reg (rk page 0x028)) code = false →
      bit (w.reg (rk (0x10 + p) 0x0C0)) 0 = false →
      (w.raise rp page code qual d0 d1).1 = (if w.rf (rk (0x10 + p) 0x040) 31 0 = 2 ^ 32 - 1 then 1
        else w.rf (rk (0x10 + p) 0x040) 31 0 + 1) ∧
      bit ((w.raise rp page code qual d0 d1).2.reg (rk page 0x020)) code = true ∧
      (w.raise rp page code qual d0 d1).2.rf (rk page 0x030) 63 32 = min (2 ^ 32 - 1) (w.rf (rk page 0x030) 63 32 + 1) ∧
      (w.raise rp page code qual d0 d1).2.rf (rk (0x10 + p) 0x0D8) 63 32 =
        min (2 ^ 32 - 1) (w.rf (rk (0x10 + p) 0x0D8) 63 32 + 1))

/-- R353, R354, R358: RD_UC of bytes in one plain line answers them; RD_SHARED and RD_OWN of a line answer its 128 bytes and
enter the port in the line's directory entry, shared or modified. Memory stays as it was. R352, R354: WR_UC stores the bytes
of its mask and is acknowledged; WB of a line that the port alone holds modified stores its 128 bytes, and EVICT of a clean
line stores nothing; both take the port out of the line's directory entry. -/
def Obligations.HostReadsAndWrites : Prop :=
  (
  (∀ (s : State) (m : UrkPkt), s.asks m → 0 < m.len → s.plain (0x2028 + m.port) m.addr m.len = true →
    s.poisonAt (lineOf m.addr) = false →
    ∃ t, exec (.rdUc m) s = .next t ∧ t.mem = s.mem ∧ t.pending = s.pending ∧ t.sec = s.sec ∧ t.dev.urk.dir = s.dev.urk.dir ∧
      t.dev.out = s.dev.out ++ [.urk 0x20 { m with
        poison := false, nc := false, len := m.len, mask := 0, data := s.toWorld.bytes m.addr m.len }]) ∧
  (∀ (s : State) (m : UrkPkt) (l : Nat), s.asks m → l = lineOf m.addr → s.toWorld.place m.addr = .hbm →
    s.plain (0x2028 + m.port) l 128 = true → s.poisonAt l = false → s.toWorld.victim l = none →
    ∃ t, exec (.rdShared m) s = .next t ∧ t.mem = s.mem ∧ t.pending = s.pending ∧ t.sec = s.sec ∧
      t.toWorld.dirOf l = some ⟨l, false, [m.port]⟩ ∧
      t.dev.out = s.dev.out ++ [.urk 0x20 { m with
        poison := false, nc := false, len := 128, mask := 0, data := s.toWorld.bytes l 128 }]) ∧
  (∀ (s : State) (m : UrkPkt) (l : Nat), s.asks m → l = lineOf m.addr → s.toWorld.place m.addr = .hbm →
    s.plain (0x2028 + m.port) l 128 = true → s.poisonAt l = false → s.toWorld.victim l = none →
    ∃ t, exec (.rdOwn m) s = .next t ∧ t.mem = s.mem ∧ t.pending = s.pending ∧ t.sec = s.sec ∧
      t.toWorld.dirOf l = some ⟨l, true, [m.port]⟩ ∧
      t.dev.out = s.dev.out ++ [.urk 0x20 { m with
        poison := false, nc := false, len := 128, mask := 0, data := s.toWorld.bytes l 128 }])) ∧
  (
  (∀ (s : State) (m : UrkPkt) (a : Nat) (bs : List Byte), s.asks m → s.toWorld.place m.addr = .hbm → maskedBytes m = [(a, bs)] →
    bs ≠ [] → s.plain (0x2028 + m.port) (lineOf m.addr) 128 = true → s.plain (0x2028 + m.port) a bs.length = true →
    lineOf a = lineOf m.addr →
    ∃ t, exec (.wrUc m) s = .next t ∧ s.StoredAt t a bs ∧ (∀ g, g ≠ lineOf a → t.poisonAt g = s.poisonAt g) ∧
      t.pending = s.pending ∧ t.sec = s.sec ∧
      t.dev.out = s.dev.out ++ [.urk 0x21 { m with poison := false, nc := false, len := 0, mask := 0, data := [] }]) ∧
  (∀ (s : State) (m : UrkPkt) (l : Nat), s.asks m → s.calm → l = lineOf m.addr → s.toWorld.place m.addr = .hbm →
    s.dirIs ⟨l, true, [m.port]⟩ → m.data.length = 128 → m.poison = false →
    ∃ t, exec (.wb m) s = .next t ∧ s.StoredAt t l m.data ∧ t.poisonAt l = false ∧ t.toWorld.dirOf l = none ∧
      t.pending = s.pending ∧ t.sec = s.sec ∧
      t.dev.out = s.dev.out ++ [.urk 0x21 { m with poison := false, nc := false, len := 0, mask := 0, data := [] }]) ∧
  (∀ (s : State) (m : UrkPkt) (e : DirEntry), s.asks m → s.calm → e.line = lineOf m.addr → s.toWorld.place m.addr = .hbm →
    s.dirIs e →
    ∃ t, exec (.evict m) s = .next t ∧ t.mem = s.mem ∧ t.pending = s.pending ∧ t.sec = s.sec ∧
      t.toWorld.dirOf e.line = (if e.ports.erase m.port = [] then none else some { e with ports := e.ports.erase m.port }) ∧
      t.dev.out = s.dev.out ++ [.urk 0x21 { m with poison := false, nc := false, len := 0, mask := 0, data := [] }]))

/-- R364 to R366: a foreign write is visible or still pending, as the free value of the device says; FLUSH_RD makes its
stream's pending write visible, then answers 8 bytes and discards the stream buffer; STREAM_RD without a buffer answers from
memory, and may read on behind it. -/
def Obligations.ForeignWritesAndStreams : Prop :=
  (∀ (s : State) (m : UrkPkt), s.hears m → s.dev.urk.foreign = [] → m.poison = false → m.data ≠ [] →
    s.plain (0x2028 + m.port) m.addr m.data.length = true →
    ∃ t, exec (.foreignWr m) s = .next t ∧ t.pending = s.pending ∧ t.sec = s.sec ∧
      (Config.foreignDelayed s.dev.free = true → t.mem = s.mem ∧
        t.dev.urk.foreign = [⟨m.port, m.srcid, m.addr, m.data, false⟩]) ∧
      (Config.foreignDelayed s.dev.free = false → s.StoredAt t m.addr m.data ∧ t.dev.urk.foreign = [])) ∧
  (∀ (s : State) (m : UrkPkt) (f : Foreign), s.asks m → s.dev.urk.home = [] → s.dev.urk.foreign = [f] → f.port = m.port →
    f.srcid = m.srcid → f.poison = false → f.data ≠ [] → s.plain (0x2028 + m.port) f.addr f.data.length = true →
    s.plain (0x2028 + m.port) m.addr 8 = true → s.poisonAt (lineOf m.addr) = false →
    ∃ t, exec (.flushRd m) s = .next t ∧ s.StoredAt t f.addr f.data ∧ t.dev.urk.foreign = [] ∧ t.pending = s.pending ∧
      t.sec = s.sec ∧ (∀ x ∈ t.dev.urk.streams, x.port = m.port → x.srcid ≠ m.srcid) ∧
      t.dev.out = s.dev.out ++ [.urk 0x20 { m with
        poison := false, nc := false, len := 8, mask := 0, data := t.toWorld.bytes m.addr 8 }]) ∧
  (∀ (s : State) (m : UrkPkt), s.asks m → 0 < m.len → s.plain (0x2028 + m.port) m.addr m.len = true →
    s.poisonAt (lineOf m.addr) = false → (∀ x ∈ s.dev.urk.streams, x.port = m.port → x.srcid ≠ m.srcid) →
    ∃ t, exec (.streamRd m) s = .next t ∧ t.mem = s.mem ∧ t.pending = s.pending ∧ t.sec = s.sec ∧
      (∀ x ∈ t.dev.urk.streams, x.port = m.port → x.srcid = m.srcid → x.base = m.addr + m.len ∧ x.data.length ≤ 0x10000 ∧
        x.data = s.toWorld.bytes x.base x.data.length) ∧
      t.dev.out = s.dev.out ++ [.urk 0x20 { m with
        poison := false, nc := false, len := m.len, mask := 0, data := s.toWorld.bytes m.addr m.len }])

/-- R354 to R356: the answer to a snoop stores what it brings and updates the directory; a host's own snoop takes the line
from the stokers' cache and answers what was written there; DATA, ACK and ERR end the device request they answer. -/
def Obligations.SnoopsAndAnswersTakeEffect : Prop :=
  (∀ (s : State) (m : UrkPkt) (q : Snoop) (e : DirEntry), s.hears m → s.calm → s.toWorld.place q.line = .hbm →
    q.line = lineOf m.addr → q.port = m.port → q.acked = false → s.dev.urk.snoops.filter (fun x => x.line == q.line && x.port == q.port) = [q] →
    e.line = q.line → s.dirIs e → m.data.length = 128 → m.poison = false →
    ∃ t, exec (.snpAck m) s = .next t ∧ s.StoredAt t q.line m.data ∧ q ∉ t.dev.urk.snoops ∧ t.pending = s.pending ∧
      t.sec = s.sec ∧ (e.ports ≠ [] → t.toWorld.dirOf q.line = if q.share then some { e with modified := false }
        else if e.ports.erase m.port = [] then none else some { e with ports := e.ports.erase m.port })) ∧
  (∀ (s : State) (m : UrkPkt) (x : HostLine), s.hears m → s.dev.urk.lines.filter (fun y => y.addr == x.addr) = [x] →
    x.addr = lineOf (hostBase + m.port * 0x200000000000 + m.addr % 2 ^ 45) →
    (∃ t, exec (.snpInv m) s = .next t ∧ t.mem = s.mem ∧ s.OnlyUrk t ∧ (∀ y ∈ t.dev.urk.lines, y.addr ≠ x.addr) ∧
      t.dev.out = s.dev.out ++ [.urk 0x23 { m with
        poison := false, nc := false, mask := 0, len := if x.dirty then 128 else 0
        data := if x.dirty then s.toWorld.bytes x.addr 128 else [] }]) ∧
    (∃ t, exec (.snpShare m) s = .next t ∧ t.mem = s.mem ∧ s.OnlyUrk t ∧
      t.dev.urk.lines.filter (fun y => y.addr == x.addr) = [{ x with own := false, dirty := false }] ∧
      t.dev.out = s.dev.out ++ [.urk 0x23 { m with
        poison := false, nc := false, mask := 0, len := if x.dirty then 128 else 0
        data := if x.dirty then s.toWorld.bytes x.addr 128 else [] }])) ∧
  (∀ (s : State) (m : UrkPkt) (q : DevReq), s.hears m → s.calm →
    s.dev.urk.reqs.find? (fun x => x.port == m.port && x.tag == m.tag) = some q → q.op = 3 → q.len ≤ m.data.length →
    ∃ t, exec (.data m) s = .next t ∧ t.dev.urk.reqs = s.dev.urk.reqs.erase q ∧ s.StoredAt t q.addr (m.data.take q.len) ∧
      ⟨q.addr, q.len, m.poison, 0⟩ ∈ t.dev.urk.got ∧ t.pending = s.pending ∧ t.sec = s.sec) ∧
  (∀ (s : State) (m : UrkPkt) (q : DevReq), s.hears m → s.calm →
    s.dev.urk.reqs.find? (fun x => x.port == m.port && x.tag == m.tag) = some q →
    (∃ t, exec (.ack m) s = .next t ∧ t.dev.urk.reqs = s.dev.urk.reqs.erase q ∧ t.mem = s.mem ∧ s.OnlyUrk t) ∧
    (q.op ≠ 4 → ∃ t, exec (.err m) s = .next t ∧ t.dev.urk.reqs = s.dev.urk.reqs.erase q ∧
      ⟨q.addr, q.len, true, 0⟩ ∈ t.dev.urk.got ∧ t.mem = s.mem ∧ s.OnlyUrk t) ∧
    (∀ (r : RingId) (i : Nat) (e : Entry), q.op = 4 → q.owner = some (r, i) → s.entry r i = some e → e.status = stOk →
      ∃ t x, exec (.err m) s = .next t ∧ t.dev.urk.reqs = s.dev.urk.reqs.erase q ∧ t.entry r i = some x ∧
        x.status = stPoison ∧ t.mem = s.mem))

/-- R350, R351, R355, R362: a port that trains comes up with a fresh link; a port that fails, or whose host leaves a snoop
unanswered, goes down: FAULT shows, it holds no line and owes no request, its modified lines are poisoned, and it owns the
device no more. -/
def Obligations.PortsComeUpAndGoDown : Prop :=
  (∀ (s : State) (p : Nat), s.dev.live = true → p < 4 → bit (s.reg (rk (0x10 + p) 0x080)) 0 = true →
    s.rf (rk (0x10 + p) 0x088) 1 0 = 1 →
    ∃ t, exec (.urkPortUp p) s = .next t ∧ t.toWorld.portUp p = true ∧ p ∈ t.dev.urk.attached ∧
      t.toWorld.link (0x10 + p) = some ⟨0, 0, [], 0, false⟩ ∧ s.OnlyUrk t ∧
      ∀ k, k ≠ rk (0x10 + p) 0x088 → t.reg k = s.reg k) ∧
  (∀ (s : State) (p : Nat), s.dev.live = true → p < 4 → s.calm → s.toWorld.portUp p = true →
    bit (s.reg (rk (0x10 + p) 0x010)) 3 = false →
    ∃ t, exec (.urkPortDown p) s = .next t ∧ t.toWorld.portUp p = false ∧ bit (t.reg (rk (0x10 + p) 0x018)) 2 = true ∧
      (∀ e ∈ t.dev.urk.dir, p ∉ e.ports) ∧ (∀ q ∈ t.dev.urk.reqs, q.port ≠ p) ∧ t.dev.urk.owner ≠ some p ∧
      (∀ e ∈ s.dev.urk.dir, e.modified = true → p ∈ e.ports → t.poisonAt e.line = true) ∧
      (∀ a, t.byteAt a = s.byteAt a) ∧ t.pending = s.pending ∧ t.sec = s.sec) ∧
  (∀ (s : State) (p : Nat) (q : Snoop), s.dev.live = true → p < 4 → s.calm → s.toWorld.portUp p = true →
    bit (s.reg (rk (0x10 + p) 0x010)) 3 = false → s.dev.urk.snoops = [q] → q.port = p →
    ∃ t, exec (.snoopTimeout p) s = .next t ∧ t.toWorld.portUp p = false ∧ q.deadline ≤ t.dev.gtime ∧
      bit (t.reg (rk (0x10 + p) 0x088)) 10 = true ∧ t.dev.urk.snoops = [] ∧ (∀ e ∈ t.dev.urk.dir, p ∉ e.ports) ∧
      (∀ e ∈ s.dev.urk.dir, e.modified = true → p ∈ e.ports → t.poisonAt e.line = true) ∧
      (∀ a, t.byteAt a = s.byteAt a)) ∧
  (∀ (s : State) (o p : Nat) (v : U64), s.owned o → p < 4 → s.toWorld.portUp p = false →
    ∃ t, exec (.urkCtl o p v) s = .next t ∧ bit (t.reg (rk (0x10 + p) 0x080)) 0 = bit v 0 ∧
      (bit (s.reg (rk (0x10 + p) 0x080)) 0 = false → bit v 0 = true → t.rf (rk (0x10 + p) 0x088) 1 0 = 1 ∧
        bit (t.reg (rk (0x10 + p) 0x018)) 2 = false) ∧
      (bit (s.reg (rk (0x10 + p) 0x080)) 0 = true → bit v 0 = false → t.rf (rk (0x10 + p) 0x088) 1 0 = 0) ∧
      s.OnlyRegs t [rk (0x10 + p) 0x080, rk (0x10 + p) 0x018, rk (0x10 + p) 0x088])

/-- R350 to R352: on an Urrek link a good frame of the expected number is taken and each that fails is refused with a NAK; a
NAK sends the frames from the one it names again; a training with fewer than eight lanes shows; a packet with a reserved OP
is counted and discarded. R359, R360: a claim of a free device makes the port its owner and a claim of an owned one changes
nothing; the owner's release frees it; the owner writes a port's job and stove masks where no bit is another port's and none
that changes is in use. -/
def Obligations.UrrekLinksAndOwnership : Prop :=
  (
  (∀ (s : State) (p n bytes : Nat) (l : Link), s.dev.live = true → p < 4 → s.toWorld.link (0x10 + p) = some l → n < 4096 →
    (n = l.rxNext → ∃ t, exec (.urkLinkFrame p n true bytes) s = .next t ∧
      t.toWorld.link (0x10 + p) = some { l with rxNext := (l.rxNext + 1) % 4096 } ∧ s.OnlyUrk t ∧
      t.dev.out = s.dev.out) ∧
    (∃ t, exec (.urkLinkFrame p n false bytes) s = .next t ∧
      t.toWorld.link (0x10 + p) = some l ∧ t.dev.out = s.dev.out ++ [.urkNak p l.rxNext] ∧
      s.OnlyUrk t)) ∧
  (∀ (s : State) (p n : Nat) (l : Link) (pre post : List (Nat × Nat)) (f : Nat × Nat), s.dev.live = true → p < 4 → n < 4096 →
    s.toWorld.link (0x10 + p) = some l → l.replay = pre ++ f :: post → f.1 = n → (∀ x ∈ pre, x.1 ≠ n) →
    pre ≠ [] ∨ l.replays < 16 →
    ∃ t k, exec (.urkLinkNak p n) s = .next t ∧
      t.toWorld.link (0x10 + p) = some { l with replay := f :: post, replays := k } ∧
      k = (if pre = [] then l.replays + 1 else 1) ∧ s.OnlyUrk t ∧
      t.dev.out = s.dev.out ++ (f :: post).map (fun x => .replay (0x10 + p) x.1)) ∧
  (∀ (s : State) (p lanes : Nat), s.dev.live = true → p < 4 → bit (s.reg (rk (0x10 + p) 0x080)) 0 = true →
    s.rf (rk (0x10 + p) 0x088) 1 0 ≤ 1 → lanes < 255 →
    ∃ t, exec (.urkTrainingFail p lanes) s = .next t ∧ t.rf (rk (0x10 + p) 0x088) 1 0 = 3 ∧
      t.rf (rk (0x10 + p) 0x088) 9 2 = lanes ∧ s.OnlyRegs t [rk (0x10 + p) 0x088]) ∧
  (∀ (s : State) (p op : Nat), s.dev.live = true → p < 4 → s.toWorld.portUp p = true → 0x24 ≤ op → op < 256 →
    bit (s.reg (rk (0x10 + p) 0x010)) 3 = false →
    ∃ t, exec (.urkReservedOp p op) s = .next t ∧ bit (t.reg (rk (0x10 + p) 0x020)) 1 = true ∧
      (t.reg (rk (0x10 + p) 0x108)).toNat = min (2 ^ 64 - 1) ((s.reg (rk (0x10 + p) 0x108)).toNat + 16) ∧
      s.OnlyRegs t [rk (0x10 + p) 0x108, rk (0x10 + p) 0x020, rk (0x10 + p) 0x030])) ∧
  (
  (∀ (s : State) (p : Nat), s.hosts p →
    (s.dev.urk.owner = none → ∃ t, exec (.claim p) s = .next t ∧ t.dev.urk.owner = some p ∧
      { t with dev := { t.dev with urk := { t.dev.urk with owner := none } } } = s) ∧
    (s.dev.urk.owner.isSome = true → exec (.claim p) s = .next s) ∧
    (s.dev.urk.owner = some p → ∃ t, exec (.release p) s = .next t ∧ t.dev.urk.owner = none ∧
      { t with dev := { t.dev with urk := { t.dev.urk with owner := some p } } } = s) ∧
    (s.dev.urk.owner ≠ some p → exec (.release p) s = .next s)) ∧
  (∀ (s : State) (o p : Nat) (v : U64), s.owned o → p < 4 →
    (∀ j, j < 64 → bit v j = bit (s.reg (rk (0x10 + p) 0x098)) j ∨ s.toWorld.job j = none) →
    (∀ j q, j < 64 → bit v j = true → q < 4 → q ≠ p → bit (s.reg (rk (0x10 + q) 0x098)) j = false) →
    ∃ t, exec (.urkJobs o p v) s = .next t ∧ t.reg (rk (0x10 + p) 0x098) = v ∧ s.OnlyRegs t [rk (0x10 + p) 0x098]) ∧
  (∀ (s : State) (o p k : Nat) (v : U64), s.owned o → p < 4 → k < 4 →
    (∀ b n, b < 64 → n < 4 → bit v b = bit (s.reg (rk (0x10 + p) (0x0A0 + 8 * k))) b ∨
      bit (s.reg (rgk ⟨0x1000 + 64 * k + b, n⟩ 0)) 0 = false) →
    (∀ b q, b < 64 → bit v b = true → q < 4 → q ≠ p → bit (s.reg (rk (0x10 + q) (0x0A0 + 8 * k))) b = false) →
    ∃ t, exec (.urkStoves o p k v) s = .next t ∧ t.reg (rk (0x10 + p) (0x0A0 + 8 * k)) = v ∧
      s.OnlyRegs t [rk (0x10 + p) (0x0A0 + 8 * k)]))

/-- R374, R387, R394, R395: an operation of SNP_CMD from the owner, while none is in progress, runs to its end, shows its
RESULT and DONE; what needs a free job, or an idle snapshot engine, ends with JOB_STATE (0x6) otherwise. R374, R387, R394:
LOAD_SET of a legal table, ROLLBACK to a valid slot of the common copy, SHIP of a valid receive slot and RESTORE of a sound
checkpoint whose lines are at hand end with RESULT OK and do what they are for: the set is the table's; every EMBER granule
holds the slot's copy; the granules and then the header have left; every granule of the checkpoint is at its address,
SNP_CHAIN and SNP_SEQ are the record's. R375, R379, R389: a CHECKPOINT of a job that does not exist ends with JOB_STATE, of a
running job waits for its next step boundary, of a stopped job that is not quiet ends with NOT_QUIET, of a quiet one begins a
snapshot: the polarity is inverted and SEQ counts; ABANDON ends a waiting checkpoint or the active snapshot with ABANDONED. -/
def Obligations.SnapshotOperationsAndCheckpoints : Prop :=
  (
  (∀ (w : World) (k : Nat), k < 16 → (w.snpEnd k).rf snpSts 11 8 = k ∧ bit ((w.snpEnd k).reg snpSts) 0 = true ∧
    ∀ j, j ≠ snpSts → (w.snpEnd k).reg j = w.reg j) ∧
  (∀ (s : State) (p : Nat), s.owned p → s.notHeld 2 0x0F0 → bit (s.reg snpSts) 0 = true →
    (∀ x, s.dev.snp.run = none → loadSetA.run (Run.init s.toWorld (mantel 2)) = .ok (0, x) →
      ∃ t, exec (.loadSet p) s = .next t ∧ t.rf snpSts 11 8 = 0 ∧ (∀ e ∈ t.dev.snp.set, s.toWorld.extentOk e = true) ∧
        granTotal t.dev.snp.set ≤ 2 ^ 24 ∧ apart (t.dev.snp.set.map extRange) = true ∧ t.mem = memCommit s.mem x.w.log ∧
        t.pending = s.pending ∧ t.sec = s.sec) ∧
    (s.dev.snp.run.isSome = true → ∃ t, exec (.loadSet p) s = .next t ∧ t.rf snpSts 11 8 = 6 ∧ s.OnlyRegs t [snpSts]) ∧
    (s.toWorld.job s.toWorld.snpJob = none →
      (∀ k x, rollbackA.run (Run.init s.toWorld (mantel 2)) = .ok (k, x) → exec (.rollback p) s =
        .next (s.commit (x.w.snpEnd k))) ∧
      (∀ d k x, d < 8192 → (shipA d).run (Run.init s.toWorld (mantel 2)) = .ok (k, x) → exec (.ship p d) s =
        .next (s.commit (x.w.snpEnd k))) ∧
      (s.dev.net = [] → ∃ t, exec (.recv p) s = .next t ∧ t.dev.snp = { s.dev.snp with recv := some 0 } ∧
        bit (t.reg snpSts) 0 = false ∧ s.SameStore t)) ∧
    ((s.toWorld.job s.toWorld.snpJob).isSome = true → ∀ c, c = .rollback p ∨ c = .recv p ∨ (∃ d, c = .ship p d) →
      ∃ t, exec c s = .next t ∧ t.rf snpSts 11 8 = 6 ∧ s.OnlyRegs t [snpSts]) ∧
    (∀ i k x, i < 2 → (restoreA i).run (Run.init s.toWorld (mantel 2)) = .ok (k, x) → exec (.restore p i) s =
      .next (s.commit (x.w.snpEnd k))))) ∧
  (
  ∀ (s : State) (p : Nat), s.owned p → s.notHeld 2 0x0F0 → bit (s.reg snpSts) 0 = true → s.still →
    (∀ (a n : Nat) (ps : List (U64 × U64)) (es : List Extent), a = s.rf (rk 2 0x090) 47 12 * 4096 → n = s.rf (rk 2 0x090) 11 0 + 1 →
      s.toWorld.inHbm a (16 * n) = true →
      ps = (chunks 2 (words64 (s.toWorld.bytes a (16 * n)))).map (fun c => (c.getD 0 0, c.getD 1 0)) →
      (∀ x ∈ ps, fld x.1 63 48 = 0 ∧ fld x.2 63 34 = 0) → es = ps.map (fun x => extOf x.1 x.2) →
      (∀ e ∈ es, s.toWorld.extentOk e = true ∧ ∀ z ∈ s.toWorld.snapAreas es, rangesMeet (extRange e) z = false) →
      granTotal es ≤ 2 ^ 24 → apart (es.map extRange) = true →
      ∃ t, exec (.loadSet p) s = .next t ∧ t.dev.snp.set = es ∧ t.rf snpSts 11 8 = 0 ∧ bit (t.reg snpSts) 0 = true ∧ s.SameStore t) ∧
    (∀ (slot step a : Nat) (h : List U64), s.toWorld.job s.toWorld.snpJob = none → s.toWorld.common = some (slot, step) →
      a = s.toWorld.keepAt slot → s.toWorld.inHbm a (0x10000 * (1 + (emberGranules s.dev.snp.set).length)) = true →
      h = words64 (s.toWorld.bytes a 24) → bit (h.getD 0 0) 0 = true → fld (h.getD 0 0) 13 1 = s.toWorld.devId →
      fld (h.getD 0 0) 63 32 = step → (∀ e ∈ s.dev.snp.set, e.ember = true → s.toWorld.extentOk e = true ∧
        rangesMeet (extRange e) (a, 0x10000 * (1 + (emberGranules s.dev.snp.set).length)) = false) →
      apart ((s.dev.snp.set.filter (·.ember)).map extRange) = true →
      ∃ t, exec (.rollback p) s = .next t ∧ t.rf snpSts 11 8 = 0 ∧ bit (t.reg snpSts) 0 = true ∧
        (∀ i g, (emberGranules s.dev.snp.set)[i]? = some g →
          t.toWorld.bytes g 0x10000 = s.toWorld.bytes (a + 0x10000 * (1 + i)) 0x10000) ∧ t.pending = s.pending ∧ t.sec = s.sec) ∧
    (∀ (d step slot port a n : Nat) (h : List U64), d < 8192 → s.toWorld.job s.toWorld.snpJob = none →
      s.toWorld.common = some (slot, step) → d ≠ s.toWorld.devId → s.toWorld.outPort d = some port → s.leads d →
      a = s.rf (rk 2 0x0C0) 47 16 * 0x10000 → h = words64 (s.toWorld.bytes a 24) → bit (h.getD 0 0) 0 = true →
      fld (h.getD 0 0) 63 32 = step → n = fld (h.getD 2 0) 31 0 → s.toWorld.inHbm a (0x10000 * (1 + n)) = true →
      ∃ t, exec (.ship p d) s = .next t ∧ t.rf snpSts 11 8 = 0 ∧ bit (t.reg snpSts) 0 = true ∧
        ((t.dev.out.drop s.dev.out.length).map fun o => match o with | .flue q _ m => some (q, m) | _ => none) =
          (List.range n).map (fun i => some (port, .shipData i [] (s.toWorld.bytes (a + 0x10000 * (1 + i)) 0x10000))) ++
            [some (port, .shipHdr step (fld (h.getD 0 0) 13 1) n)] ∧ t.mem = s.mem ∧ t.pending = s.pending ∧ t.sec = s.sec) ∧
    (∀ (k a n base : Nat) (hand : Nat → Nat → Prop) (rec' : List Byte) (w : List U64) (es : List Extent) (gs : List Nat), k < 2 →
      a = s.toWorld.sinkAt k → (∀ b m, hand b m ↔ ∀ l ∈ lines b m, s.toWorld.place l = .hbm ∨ ((∃ q, s.toWorld.place l = .host q) ∧
        ∃ g, (s.dev.urk.got.find? fun g => g.addr == l) = some g ∧ g.poison = false)) → hand a 256 →
      rec' = s.toWorld.bytes a 256 → w = words64 rec' → fld (w.getD 0 0) 31 0 = 0x5A434B31 → fld (w.getD 0 0) 47 32 = 1 →
      fld (w.getD 0 0) 55 48 = k →
      sm3 ((rec'.drop 0x60).take 32 ++ (rec'.drop 0x40).take 32 ++ rec'.take 0x40) = (rec'.drop 0x80).take 32 →
      n = fld (w.getD 6 0) 31 0 → hand (a + 0x10000) (16 * n) →
      es = (chunks 2 (words64 (s.toWorld.bytes (a + 0x10000) (16 * n)))).map (fun c => extOf (c.getD 0 0) (c.getD 1 0)) →
      (∀ e ∈ es, s.toWorld.extentOk e = true) → apart (es.map extRange) = true → granTotal es = (w.getD 7 0).toNat →
      base = a + 0x10000 + ceilDiv (16 * n) 0x10000 * 0x10000 →
      gs = es.flatMap (fun e => (List.range e.ngran).map fun i => e.pa + i * 0x10000) → hand base (0x10000 * gs.length) →
      sm3 ((List.range gs.length).flatMap fun i => sm3 (s.toWorld.bytes (base + 0x10000 * i) 0x10000)) = (rec'.drop 0x40).take 32 →
      ∃ t, exec (.restore p k) s = .next t ∧ t.rf snpSts 11 8 = 0 ∧ bit (t.reg snpSts) 0 = true ∧
        (∀ i g, gs[i]? = some g → t.toWorld.bytes g 0x10000 = s.toWorld.bytes (base + 0x10000 * i) 0x10000) ∧
        (∀ i, i < 4 → t.reg (rk 2 (0x128 + 8 * i)) = w.getD (16 + i) 0) ∧ t.reg (rk 2 0x148) = w.getD 3 0 ∧
        t.pending = s.pending ∧ t.sec = s.sec)) ∧
  (
  (∀ (s : State) (p : Nat), s.owned p → s.notHeld 2 0x0F0 → bit (s.reg snpSts) 0 = true →
    (s.toWorld.job s.toWorld.snpJob = none → ∃ t, exec (.checkpoint p) s = .next t ∧ t.rf snpSts 11 8 = 6 ∧ s.OnlyRegs t [snpSts]) ∧
    (∀ x, s.toWorld.job s.toWorld.snpJob = some x → s.dev.snp.run = none → x.aborted = false →
      (x.running = true → ∃ t, exec (.checkpoint p) s = .next t ∧ t.dev.snp = { s.dev.snp with ckptWait := true } ∧
        bit (t.reg snpSts) 0 = false ∧ s.SameStore t) ∧
      (x.running = false → x.stopEnding = false → s.toWorld.quiet x.num s.dev.gtime = false → ∃ t, exec (.checkpoint p) s = .next t ∧
        t.rf snpSts 11 8 = 1 ∧ bit (t.reg snpSts) 0 = true ∧ s.OnlyRegs t [snpSts]) ∧
      (x.running = false → x.stopEnding = false → s.toWorld.quiet x.num s.dev.gtime = true → ∃ t, exec (.checkpoint p) s = .next t ∧
        t.rf snpSts 2 2 = 1 - s.rf snpSts 2 2 ∧ (t.reg (rk 2 0x148)).toNat = ((s.reg (rk 2 0x148)).toNat + 1) % 2 ^ 64))) ∧
  (∀ (s : State) (p : Nat), s.owned p →
    (s.dev.snp.ckptWait = true → ∃ t, exec (.abandon p) s = .next t ∧ t.dev.snp = { s.dev.snp with ckptWait := false } ∧
      t.rf snpSts 11 8 = 2 ∧ bit (t.reg snpSts) 0 = true ∧ s.SameStore t) ∧
    (s.dev.snp.ckptWait = false → s.dev.snp.run = none → exec (.abandon p) s = .next s) ∧
    (∀ r, s.dev.snp.ckptWait = false → s.dev.snp.run = some r → s.dev.snp.stalled = [] → ∃ t, exec (.abandon p) s = .next t ∧
      t.dev.snp.run = none ∧ t.rf snpSts 1 1 = 0 ∧ t.rf snpSts 11 8 = 2)) ∧
  (∀ (s : State) (r : SnapRun) (x : Stalled), s.dev.live = true → s.dev.snp.run = some r → s.dev.snp.stalled = [x] →
    (∃ m, x.cmd = .wb m) → s.dev.urk.home = [] →
    ∃ t, exec .snapshotStallLimit s = .next t ∧ t.dev.snp.run = none ∧ t.dev.snp.stalled = [] ∧
      t.dev.gtime = max s.dev.gtime (x.since + s.rf (rk 2 0x110) 31 0)))

/-- R375, R384, R389: at the step boundary that has just fallen an eligible ember copy or a waiting checkpoint takes a cut of
a quiet job, which inverts the polarity; one of a job that is not quiet is skipped, counted and reported NOT_QUIET. R377,
R378, R385, R391: a granule read marks its granule captured, and the bits of its byte of the bitmap are at the polarity for
the granules captured and at its opposite for the others; once both ember slots are valid the copy is held, and the snapshot
ends when it serves nothing more; the checkpoint's flush read, returned clean, lets the commit record be written to the sink
slot, and returned poisoned abandons the snapshot with SINK_ERR (0x3). -/
def Obligations.CutsCapturesAndCopies : Prop :=
  (
  ∀ (s : State) (x : Job) (c : Instr), c = .runningCut ∨ c = .emberCopy → s.dev.live = true →
    s.toWorld.job s.toWorld.snpJob = some x → s.dev.tik.bnd = some s.dev.gtime →
    s.dev.tik.stepped.contains s.toWorld.snpJob = true → x.step ≠ x.step0 → s.dev.snp.run = none → s.dev.snp.elig = none →
    (bit (s.reg (rk 2 0x080)) 0 = true → x.step % s.toWorld.every = 0 → s.dev.snp.ckptWait = false →
      s.toWorld.quiet s.toWorld.snpJob s.dev.gtime = true →
      ∃ t, exec c s = .next t ∧ t.rf snpSts 2 2 = 1 - s.rf snpSts 2 2 ∧ t.dev.snp.elig = some (x.step, s.dev.gtime)) ∧
    (bit (s.reg (rk 2 0x080)) 0 = true → x.step % s.toWorld.every = 0 → s.dev.snp.ckptWait = false →
      s.toWorld.quiet s.toWorld.snpJob s.dev.gtime = false →
      ∃ t, exec c s = .next t ∧ t.dev.snp.run = none ∧ t.rf snpSts 11 8 = 1 ∧
        t.rf (rk 2 0x150) 63 32 = min (2 ^ 32 - 1) (s.rf (rk 2 0x150) 63 32 + 1)) ∧
    (bit (s.reg (rk 2 0x080)) 0 = false → s.dev.snp.ckptWait = true →
      s.toWorld.quiet s.toWorld.snpJob s.dev.gtime = true →
      ∃ t, exec c s = .next t ∧ t.rf snpSts 2 2 = 1 - s.rf snpSts 2 2 ∧ t.dev.snp.ckptWait = false) ∧
    (bit (s.reg (rk 2 0x080)) 0 = false → s.dev.snp.ckptWait = true →
      s.toWorld.quiet s.toWorld.snpJob s.dev.gtime = false →
      ∃ t, exec c s = .next t ∧ t.dev.snp = { s.dev.snp with ckptWait := false } ∧ t.rf snpSts 11 8 = 1 ∧
        s.OnlyRegs { t with dev := { t.dev with snp := s.dev.snp } } [snpSts])) ∧
  (
  (∀ (s : State) (r : SnapRun) (i : Nat), s.dev.live = true → s.dev.snp.run = some r → s.toWorld.nextGranule r = some i →
    (granAddr s.dev.snp.set i).isSome = true → s.dev.snp.stalled = [] →
    (∃ t, exec .granuleCapture s = .next t ∧ ∀ q, t.dev.snp.run = some q → i ∈ q.captured) ∧
    (∀ a e b, granAddr s.dev.snp.set i = some (a, e) → e.ember = false → r.ckpt = false → r.bad = none →
      r.captured.length + 1 < granTotal s.dev.snp.set → b = s.rf (rk 2 0x098) 47 12 * 4096 + i / 8 →
      s.toWorld.place b = .hbm → s.dev.urk.dir = [] → s.dev.urk.home = [] → s.dev.urk.snoops = [] → s.rests →
      ∃ t, exec .granuleCapture s = .next t ∧
        t.dev.snp.run = some { r with captured := r.captured ++ [i], promoted := r.promoted.filter (· ≠ i) } ∧
        (∀ j, j / 8 = i / 8 → (t.byteAt b).toNat.testBit (j % 8) =
          if granTotal s.dev.snp.set ≤ j then (s.byteAt b).toNat.testBit (j % 8)
          else (decide (j = i ∨ j ∈ r.captured) == (s.rf snpSts 2 2 == 1))) ∧
        (∀ x, x ≠ b → t.byteAt x = s.byteAt x) ∧ t.mem.poison = s.mem.poison ∧ t.pending = s.pending ∧ t.sec = s.sec)) ∧
  (∀ (s : State) (r : SnapRun), s.dev.live = true → s.dev.snp.run = some r → r.ember = true → r.hdr = true →
    s.toWorld.rangeVisible (s.toWorld.keepAt r.eslot) 64 = true →
    ∃ t, exec .emberCopyComplete s = .next t ∧ t.dev.snp.copies = (r.eslot, r.step) :: s.dev.snp.copies ∧
      t.rf snpSts 11 8 = 0 ∧ (r.ckpt = false → t.dev.snp.run = none ∧ t.rf snpSts 1 1 = 0) ∧
      (r.ckpt = true → ∃ q, t.dev.snp.run = some q ∧ q.ember = false)) ∧
  (∀ (s : State) (r : SnapRun), s.dev.live = true → s.dev.snp.run = some r → r.ckpt = true → r.phase = .flush →
    (s.toWorld.recordGot r = some true → s.dev.snp.stalled = [] → ∃ t, exec .ckptFlushReturn s = .next t ∧
      t.dev.snp.run = none ∧ t.rf snpSts 11 8 = 3) ∧
    (s.toWorld.recordGot r = some false → r.ember = false → r.bad = none → r.prev.length = 32 → s.dev.urk.reqs = [] →
      s.dev.urk.home = [] →
      s.toWorld.portUp ((s.toWorld.sinkAt r.kslot - hostBase) / 0x200000000000) = true →
      ∃ t q, exec .ckptFlushReturn s = .next t ∧ t.dev.snp.run = some q ∧ q.phase = .commit ∧ t.dev.urk.reqs.length = 2 ∧
        (∀ x ∈ t.dev.urk.reqs, x.sink = true) ∧
        s.StoredAt t (s.toWorld.sinkAt r.kslot) (s.toWorld.commitRecord r).1 ∧ t.pending = s.pending ∧ t.sec = s.sec)))

/-- R380 to R382, R386: a notice sets the halt tick LEAD ticks on and multicasts it; a halt message in time sets it, one
whose tick has begun shows HALT_LATE; at the boundary that begins the halt tick every running job of SNP_HALT_JOBS is given
its last step, or stops; a DONE message is held, and one that every device's makes complete names a new common copy. -/
def Obligations.NoticesHaltAndDonesAreHeld : Prop :=
  (∀ (s : State) (c : Instr) (tk h : Nat), s.dev.live = true → s.dev.snp.halt = none → bit (s.reg (rk 2 0x010)) 3 = false →
    h = (tk + s.toWorld.lead) % 2 ^ 48 →
    ((∃ g, c = .noticeN g ∧ bit (s.reg (rk 2 0x080)) 2 = true ∧ s.dev.pwr.freezeAt = none ∧ tk = s.toWorld.tickOf g ∧
        (s.toWorld.at g).tickBegun h = false) ∨
      (∃ p, c = .snpNotice p ∧ s.owned p ∧ tk = s.toWorld.tickNow ∧ s.toWorld.tickBegun h = false)) →
    ∃ t, exec c s = .next t ∧ t.dev.snp.halt = some h ∧ t.rf snpSts 3 3 = 1 ∧
      (t.reg (rk 2 0x120)).toNat = h ∧ bit (t.reg (rk 2 0x020)) 16 = true ∧
      ((s.toWorld.group (s.rf (rk 2 0x088) 27 16)).testBit 19 = true →
        (s.toWorld.group (s.rf (rk 2 0x088) 27 16)).testBit 18 = true →
        s.toWorld.groupPorts (s.rf (rk 2 0x088) 27 16) none = [] →
        t.dev.net = s.dev.net ++ [.halt h s.toWorld.devId] ∧ s.SameStore t)) ∧
  (∀ (s : State) (tk dev : Nat), s.arrives (.halt tk dev) → bit (s.reg (rk 2 0x010)) 3 = false →
    (dev = s.toWorld.devId → ∃ t, exec (.haltMessage tk dev) s = .next t ∧ t.dev.net = s.dev.net.erase (.halt tk dev) ∧
      { t with dev := { t.dev with net := s.dev.net } } = s) ∧
    (dev ≠ s.toWorld.devId → s.toWorld.tickBegun tk = false → s.dev.snp.halt = none → tk < 2 ^ 64 →
      ∃ t, exec (.haltMessage tk dev) s = .next t ∧ t.dev.snp = { s.dev.snp with halt := some tk } ∧ t.rf snpSts 3 3 = 1 ∧
        (t.reg (rk 2 0x120)).toNat = tk ∧ s.SameStore t) ∧
    (dev ≠ s.toWorld.devId → s.toWorld.tickBegun tk = true → ∃ t, exec (.haltMessage tk dev) s = .next t ∧
      t.rf snpSts 4 4 = 1 ∧ s.SameStore t)) ∧
  (∀ (s : State) (h b : Nat), s.dev.live = true → s.dev.snp.halt = some h → s.dev.tik.next = some b → s.dev.tik.bnd.isSome = true →
    s.toWorld.running = true → h ≤ s.toWorld.tickNext →
    ∃ t, exec .haltBoundary s = .next t ∧ t.toWorld.tickNow = s.toWorld.tickNext ∧ t.dev.snp.halt = none ∧ t.dev.tik.bnd = some b ∧
      ∀ j x, s.toWorld.job j = some x → x.running = true → bit (s.reg (rk 2 0x158)) j = true →
        ∃ y, t.toWorld.job j = some y ∧ (y.stopX.isSome = true ∨ y.stopEnding = true)) ∧
  (∀ (s : State) (m : EmberMsg), s.arrives (.emberDone m) → bit (s.reg (rk 2 0x010)) 3 = false →
    (∃ t, exec (.emberDoneMsg m) s = .next t ∧ (m.step, m.dev, m.result) ∈ t.dev.snp.dones ∧
      t.dev.net = s.dev.net.erase (.emberDone m) ∧ t.dev.snp.run = s.dev.snp.run ∧ s.SameStore t) ∧
    (∀ slot, slot < 2 → m.step < 2 ^ 32 → m.result = 0 → s.toWorld.common = none → s.dev.snp.copies = [(slot, m.step)] →
      s.rf (rk 2 0x088) 44 32 = 0 → ∃ t, exec (.emberDoneMsg m) s = .next t ∧ t.toWorld.common = some (slot, m.step)))

/-- R341, R344, R405: an RD of plain memory is answered with its bytes, a WR stores its payload, and an ATOMIC its result:
ADD64 the sum, ADD48S the saturating 48-bit sum below the upper 16 bits, MAXU16 the greater upper 16 bits. R405, R406: a
guest's RD_RSP brings the bytes that a request asked for and its WR_ACK ends a write; a packet for a node that nobody uses is
counted and discarded (R26). -/
def Obligations.NetworkAccessesAndResponses : Prop :=
  (
  (∀ (s : State) (p : NetPkt), s.arrives (.net p) → nodeUsed p.dst = true → p.rmt = false →
    s.plain p.src p.a1.toNat (rdBytes p) = true → s.poisonAt (lineOf p.a1.toNat) = false →
    ∃ t, exec (.rd p) s = .next t ∧ t.mem = s.mem ∧ t.pending = s.pending ∧ t.sec = s.sec ∧ t.dev.regs = s.dev.regs ∧
      t.dev.net = s.dev.net.erase (.net p) ++ [.net (netAnswer p 0x10 stOk false (s.toWorld.bytes p.a1.toNat (rdBytes p)))]) ∧
  (∀ (s : State) (p : NetPkt), s.arrives (.net p) → nodeUsed p.dst = true → p.rmt = false → p.poison = false → p.payload ≠ [] →
    s.plain p.src p.a1.toNat p.payload.length = true → s.plain p.src (lineOf p.a1.toNat) 128 = true →
    ∃ t, exec (.wr p) s = .next t ∧ s.StoredAt t p.a1.toNat p.payload ∧
      (∀ g, g ≠ lineOf p.a1.toNat → t.poisonAt g = s.poisonAt g) ∧ t.pending = s.pending ∧ t.sec = s.sec ∧
      t.dev.regs = s.dev.regs ∧ t.dev.net = s.dev.net.erase (.net p) ++ [.net (netAnswer p 0x11 stOk false [])]) ∧
  (∀ (s : State) (p : NetPkt) (a : Nat) (v : U64), s.arrives (.net p) → nodeUsed p.dst = true → p.rmt = false →
    a = p.a1.toNat / 8 * 8 → v = leWord (p.payload.take 8) → s.plain p.src a 8 = true → s.plain p.src (lineOf a) 128 = true →
    ∃ t x, exec (.atomic p) s = .next t ∧ s.StoredAt t a (wordBytes x) ∧
      (fld p.a3 1 0 = 0 → x = s.toWorld.word a + v) ∧
      (fld p.a3 1 0 = 1 → fld x 47 0 = min (2 ^ 48 - 1) (fld (s.toWorld.word a) 47 0 + fld v 47 0) ∧
        fld x 63 48 = fld (s.toWorld.word a) 63 48) ∧
      (fld p.a3 1 0 = 2 → fld x 63 48 = max (fld (s.toWorld.word a) 63 48) (fld v 63 48) ∧
        fld x 47 0 = fld (s.toWorld.word a) 47 0) ∧
      (∀ g, t.poisonAt g = s.poisonAt g) ∧ t.pending = s.pending ∧ t.sec = s.sec ∧
      t.dev.net = s.dev.net.erase (.net p) ++ [.net (netAnswer p 0x11 stOk false [])])) ∧
  (
  (∀ (s : State) (p : NetPkt) (g : Nat) (q : DevReq), s.arrives (.net p) → nodeUsed p.dst = true → s.calm → g < 2 → p.src / 256 = 0x30 + g →
    s.dev.urk.reqs.find? (fun x => x.port == 4 + g && x.tag == p.tag) = some q →
    (p.typ = 0x10 → q.len ≤ p.payload.length → ∃ t, exec (.rdRsp p) s = .next t ∧ t.dev.urk.reqs = s.dev.urk.reqs.erase q ∧
      s.StoredAt t q.addr (p.payload.take q.len) ∧ ⟨q.addr, q.len, p.poison, p.status⟩ ∈ t.dev.urk.got ∧
      t.pending = s.pending ∧ t.sec = s.sec) ∧
    (p.typ = 0x11 → q.owner = none → ∃ t, exec (.wrAck p) s = .next t ∧ t.dev.urk.reqs = s.dev.urk.reqs.erase q ∧
      t.mem = s.mem ∧ s.OnlyUrk t)) ∧
  (∀ (s : State) (p : NetPkt), s.arrives (.net p) → nodeUsed p.dst = false → bit (s.reg (rk (nodeDbg p.dst) 0x010)) 3 = false →
    ∃ t, exec (.rd p) s = .next t ∧ t.dev.net = s.dev.net.erase (.net p) ∧ t.mem = s.mem ∧
      t.rf (rk (nodeDbg p.dst) 0x088) 31 0 = min (2 ^ 32 - 1) (s.rf (rk (nodeDbg p.dst) 0x088) 31 0 + 1) ∧
      bit (t.reg (rk (nodeDbg p.dst) 0x020)) 1 = true))

/-- R369 to R371: an event packet takes its port's next number; it is dropped and counted while the event ring is disabled,
and its 32-byte record is written at TAIL, which moves on, while the ring is enabled with room for it. -/
def Obligations.EventRecordsAreWrittenOrDropped : Prop :=
  ∀ (s : State) (e : EventPkt) (p n : Nat), s.dev.live = true → s.toWorld.eventPort none e.d0 = some p → p < 4 →
    n = (if s.rf (rk (0x10 + p) 0x040) 31 0 = 2 ^ 32 - 1 then 1 else s.rf (rk (0x10 + p) 0x040) 31 0 + 1) →
    (bit (s.reg (rk (0x10 + p) 0x0C0)) 0 = false →
      ∃ t, exec (.event e) s = .next t ∧ t.rf (rk (0x10 + p) 0x040) 31 0 = n ∧
        t.rf (rk (0x10 + p) 0x0D8) 63 32 = min (2 ^ 32 - 1) (s.rf (rk (0x10 + p) 0x0D8) 63 32 + 1) ∧
        s.OnlyRegs t [rk (0x10 + p) 0x040, rk (0x10 + p) 0x0D8]) ∧
    (∀ (z a : Nat), bit (s.reg (rk (0x10 + p) 0x0C0)) 0 = true → s.toWorld.portUp p = true →
      z = 2 ^ s.rf (rk (0x10 + p) 0x0C0) 5 1 →
      32 + (s.rf (rk (0x10 + p) 0x0C8) 31 0 + 2 ^ 32 - s.rf (rk (0x10 + p) 0x0C8) 63 32) % 2 ^ 32 ≤ z →
      s.rf (rk (0x10 + p) 0x0D0) 47 7 = 0 →
      a = s.rf (rk (0x10 + p) 0x0C0) 47 12 * 4096 + s.rf (rk (0x10 + p) 0x0C8) 31 0 % z → s.plain 0x2036 a 32 = true →
      ∃ t, exec (.event e) s = .next t ∧ t.rf (rk (0x10 + p) 0x040) 31 0 = n ∧
        t.rf (rk (0x10 + p) 0x0C8) 31 0 = (s.rf (rk (0x10 + p) 0x0C8) 31 0 + 32) % 2 ^ 32 ∧
        t.rf (rk (0x10 + p) 0x0D8) 31 0 = min (2 ^ 32 - 1) (s.rf (rk (0x10 + p) 0x0D8) 31 0 + 1) ∧
        s.StoredAt t a (leBytes 8 (n + e.page % 2 ^ 16 * 2 ^ 32 + (e.code % 256 + e.qual % 256 * 256) * 2 ^ 48) ++
          leBytes 8 s.dev.gtime ++ wordBytes e.d0 ++ wordBytes e.d1) ∧
        t.pending = s.pending ∧ t.sec = s.sec)

/-- R331, R332: a legal WBX_HBM_LOC on W0 with nothing running sets L and DONE on every woodbox; one that a rule bars sets
ERR and changes nothing else; the other instances take no write. R343: a write of SLM_SPLIT clears DONE; segments that leave
the scratchpad are unmapped at once and their bytes discarded; when the change is done, segments that join are zero and
mapped and DONE is set. A value above 8 is ignored. R336 to R338: a scrub read of a burst counts a corrected error and
changes no byte; an uncorrectable one poisons the line and counts; a poisoned line, or a clean burst, changes nothing. (A
burst that is not the stack's last, with no error in it but the one that the command brings.) -/
def Obligations.LocalitySplitAndScrubbing : Prop :=
  (
  ∀ (s : State) (p : Nat) (v : U64), s.owned p →
    (s.dev.jobs = [] → s.toWorld.anyRingOn = false → s.toWorld.tracksHbm = false → fld v 18 0 % 512 = 0 →
      fld v 18 0 ≤ 393216 → ∃ t, exec (.wbxHbmLoc p 0 v) s = .next t ∧ t.toWorld.locality = fld v 18 0 ∧
        (∀ n, n < 4 → bit (t.reg (rk (0x120 + n) 0x090)) 0 = true ∧ bit (t.reg (rk (0x120 + n) 0x090)) 1 = false) ∧
        t.pending = s.pending ∧ t.sec = s.sec) ∧
    (s.dev.jobs ≠ [] ∨ s.toWorld.anyRingOn = true ∨ s.toWorld.tracksHbm = true ∨ fld v 18 0 % 512 ≠ 0 ∨
        393216 < fld v 18 0 → ∃ t, exec (.wbxHbmLoc p 0 v) s = .next t ∧ t.toWorld.locality = s.toWorld.locality ∧
        (∀ n, n < 4 → bit (t.reg (rk (0x120 + n) 0x090)) 1 = true) ∧
        s.OnlyRegs t [rk 0x120 0x090, rk 0x121 0x090, rk 0x122 0x090, rk 0x123 0x090]) ∧
    (∀ i, 0 < i → i < 4 → exec (.wbxHbmLoc p i v) s = .next s)) ∧
  (
  (∀ (s : State) (p n : Nat) (v : U64), s.owned p → n < 4 → s.notHeld (0x124 + n) 0x080 →
    bit (s.reg (rk (0x124 + n) 0x088)) 0 = true →
    (fld v 3 0 ≤ 8 → ∃ t, exec (.slmSplit p n v) s = .next t ∧ (t.reg (rk (0x124 + n) 0x080)).toNat = fld v 3 0 ∧
      bit (t.reg (rk (0x124 + n) 0x088)) 0 = false ∧ t.toWorld.slmK n = min (fld v 3 0) (s.toWorld.slmK n) ∧
      (∀ a, t.byteAt a = if slmAddr n + fld v 3 0 * 0x1000000 ≤ a ∧ a < slmAddr n + s.toWorld.slmK n * 0x1000000 then 0
        else s.byteAt a) ∧
      s.OnlyRegs { t with mem := s.mem, dev := { t.dev with upsets := s.dev.upsets } }
        [rk (0x124 + n) 0x080, rk (0x124 + n) 0x088]) ∧
    (8 < fld v 3 0 → exec (.slmSplit p n v) s = .next s)) ∧
  (∀ (s : State) (n k : Nat), s.dev.live = true → n < 4 → bit (s.reg (rk (0x124 + n) 0x088)) 0 = false →
    k = s.rf (rk (0x124 + n) 0x080) 3 0 →
    ∃ t, exec (.slmSplitDone n) s = .next t ∧ bit (t.reg (rk (0x124 + n) 0x088)) 0 = true ∧ t.toWorld.slmK n = k ∧
      (∀ a, t.byteAt a = if slmAddr n + s.toWorld.slmK n * 0x1000000 ≤ a ∧ a < slmAddr n + k * 0x1000000 then 0
        else s.byteAt a) ∧
      s.OnlyRegs { t with mem := s.mem, dev := { t.dev with upsets := s.dev.upsets, slm := s.dev.slm } } [rk (0x124 + n) 0x088])) ∧
  (
  ∀ (s : State) (pa k q off : Nat), s.dev.live = true → s.toWorld.place pa = .hbm → s.toWorld.hbmLocate pa = some (k, q, off) →
    k < 20 → s.rf (rk (0x140 + k) 0x090) 31 0 ≠ 0 → s.toWorld.lastBurst k q off = false →
    (∀ u ∈ s.dev.upsets, u.inSlm = true ∨ u.word ≠ pa / 64 * 64) →
    exec (.scrubRead pa .clean) s = .next s ∧
    (s.poisonAt (lineOf pa) = true → exec (.scrubRead pa .uncorrectable) s = .next s) ∧
    (∀ sym, s.poisonAt (lineOf pa) = false → bit (s.reg (rk (0x120 + k / 5) 0x098)) 6 = false →
      ∃ t, exec (.scrubRead pa (.corrected sym)) s = .next t ∧
        t.rf (rk (0x140 + k) 0x088) 31 0 = min (2 ^ 32 - 1) (s.rf (rk (0x140 + k) 0x088) 31 0 + 1) ∧
        s.OnlyRegs t [rk (0x140 + k) 0x088]) ∧
    (s.poisonAt (lineOf pa) = false → bit (s.reg (rk (0x120 + k / 5) 0x098)) 0 = false →
      bit (s.reg (rk (0x140 + k) 0x010)) 3 = false →
      ∃ t, exec (.scrubRead pa .uncorrectable) s = .next t ∧ t.poisonAt (lineOf pa) = true ∧
        (∀ g, g ≠ lineOf pa → t.poisonAt g = s.poisonAt g) ∧ (∀ a, t.byteAt a = s.byteAt a) ∧
        t.rf (rk (0x140 + k) 0x088) 63 32 = min (2 ^ 32 - 1) (s.rf (rk (0x140 + k) 0x088) 63 32 + 1) ∧
        t.rf (rk (0x120 + k / 5) 0x0A8) 63 32 = min (2 ^ 32 - 1) (s.rf (rk (0x120 + k / 5) 0x0A8) 63 32 + 1) ∧
        bit (t.reg (rk (0x140 + k) 0x020)) 1 = true))

/-- R247, R248, R250, R277: the owner enables and disables a flue port; a port that has trained is up with what its peer
said, and tells it this device's number; frames and NAKs act as on a Urrek link, codewords counting in FLU_FEC and replays in
FLU_RETRY; a frame replayed sixteen times takes the port down, and so does a failed lane; CHM_ID holds the device's number
and V. R249 to R252: LOAD copies the unicast entry of every device and the entry of every group out of memory; a packet for
this device is taken in, one for another leaves on the port of its entry with one less TTL, and one whose TTL is 0 is
discarded with an event. -/
def Obligations.FluePortsAndRoutes : Prop :=
  (
  (∀ (s : State) (o p : Nat) (v : U64), s.owned o → p < 18 →
    ∃ t, exec (.fluCtl o p v) s = .next t ∧ t.rf (rk (0x20 + p) 0x080) 1 0 = fld v 1 0 ∧
      (bit (s.reg (rk (0x20 + p) 0x080)) 0 = false → bit v 0 = true → t.rf (rk (0x20 + p) 0x088) 1 0 = 1 ∧
        bit (t.reg (rk (0x20 + p) 0x018)) 2 = false) ∧
      (bit (s.reg (rk (0x20 + p) 0x080)) 0 = true → bit v 0 = false → t.rf (rk (0x20 + p) 0x088) 1 0 = 0 ∧
        t.toWorld.link (0x20 + p) = none) ∧
      s.OnlyRegs { t with dev := { t.dev with urk := s.dev.urk } }
        [rk (0x20 + p) 0x080, rk (0x20 + p) 0x018, rk (0x20 + p) 0x088]) ∧
  (∀ (s : State) (p peer pp : Nat), s.dev.live = true → p < 18 → peer < 8192 → pp < 32 →
    bit (s.reg (rk (0x20 + p) 0x080)) 0 = true → s.rf (rk (0x20 + p) 0x088) 1 0 = 1 →
    ∃ t, exec (.fluePortUp p peer pp) s = .next t ∧ t.rf (rk (0x20 + p) 0x088) 1 0 = 2 ∧
      t.rf (rk (0x20 + p) 0x088) 9 2 = 255 ∧ t.rf (rk (0x20 + p) 0x088) 23 11 = peer ∧
      t.rf (rk (0x20 + p) 0x088) 28 24 = pp ∧
      t.toWorld.link (0x20 + p) = some ⟨0, 0, [], 0, bit (s.reg (rk (0x20 + p) 0x080)) 1⟩ ∧
      t.toWorld.flueUp p = s.toWorld.idValid ∧ t.dev.out = s.dev.out ++ [.train p s.toWorld.devId] ∧
      s.OnlyRegs { t with dev := { t.dev with urk := s.dev.urk, out := s.dev.out } } [rk (0x20 + p) 0x088]) ∧
  (∀ (s : State) (p n corr : Nat) (l : Link), s.dev.live = true → p < 18 → s.toWorld.link (0x20 + p) = some l → n < 4096 →
    (n = l.rxNext → ∃ t, exec (.flueFrame p n true ⟨corr, 0⟩) s = .next t ∧
      t.toWorld.link (0x20 + p) = some { l with rxNext := (l.rxNext + 1) % 4096 } ∧ s.OnlyUrk t ∧
      t.rf (rk (0x20 + p) 0x090) 31 0 = min (2 ^ 32 - 1) (s.rf (rk (0x20 + p) 0x090) 31 0 + corr) ∧ t.dev.out = s.dev.out) ∧
    (∀ good uncorr, good = false ∨ uncorr ≠ 0 → ∃ t, exec (.flueFrame p n good ⟨corr, uncorr⟩) s = .next t ∧
      t.toWorld.link (0x20 + p) = some l ∧
      t.rf (rk (0x20 + p) 0x090) 63 32 = min (2 ^ 32 - 1) (s.rf (rk (0x20 + p) 0x090) 63 32 + uncorr) ∧ t.dev.out = s.dev.out ++ [.flueNak p l.rxNext] ∧
      s.OnlyUrk t) ∧
    (∀ (pre post : List (Nat × Nat)) (f : Nat × Nat), l.replay = pre ++ f :: post → f.1 = n → (∀ x ∈ pre, x.1 ≠ n) →
      pre ≠ [] ∨ l.replays < 16 →
      ∃ t k, exec (.flueNak p n) s = .next t ∧ t.toWorld.link (0x20 + p) = some { l with replay := f :: post, replays := k } ∧
        k = (if pre = [] then l.replays + 1 else 1) ∧
        t.rf (rk (0x20 + p) 0x098) 31 0 = min (2 ^ 32 - 1) (s.rf (rk (0x20 + p) 0x098) 31 0 + (post.length + 1)) ∧
        s.OnlyUrk t ∧ t.dev.out = s.dev.out ++ (f :: post).map (fun x => .replay (0x20 + p) x.1)) ∧
    (16 ≤ l.replays → bit (s.reg (rk (0x20 + p) 0x010)) 3 = false →
      ∃ t, exec (.fluePortDown p) s = .next t ∧ t.toWorld.link (0x20 + p) = none ∧ t.rf (rk (0x20 + p) 0x088) 10 0 = 0 ∧
        bit (t.reg (rk (0x20 + p) 0x018)) 2 = true ∧ bit (t.reg (rk (0x20 + p) 0x020)) 1 = true ∧
        t.rf (rk (0x20 + p) 0x098) 63 32 = min (2 ^ 32 - 1) (s.rf (rk (0x20 + p) 0x098) 63 32 + 1) ∧ t.mem = s.mem)) ∧
  (∀ (s : State) (p lane : Nat), s.dev.live = true → p < 18 → lane < 8 → bit (s.reg (rk (0x20 + p) 0x080)) 0 = true →
    s.rf (rk (0x20 + p) 0x088) 1 0 = 2 →
    ∃ t, exec (.flueLaneFail p lane) s = .next t ∧ t.rf (rk (0x20 + p) 0x088) 1 0 = 3 ∧
      bit (t.reg (rk (0x20 + p) 0x088)) (2 + lane) = false ∧ t.toWorld.link (0x20 + p) = none ∧
      s.OnlyRegs { t with dev := { t.dev with urk := s.dev.urk } } [rk (0x20 + p) 0x088]) ∧
  (∀ (s : State) (o : Nat) (v : U64), s.owned o → ∃ t, exec (.chmId o v) s = .next t ∧ t.toWorld.devId = fld v 12 0 ∧
    t.toWorld.idValid = bit v 13 ∧ s.OnlyRegs t [rk 6 0x080])) ∧
  (
  (∀ (s : State) (o u m : Nat), s.owned o → s.notHeld 6 0x098 → bit (s.reg (rk 6 0x0A0)) 0 = true →
    u = s.rf (rk 6 0x088) 47 12 * 4096 → m = s.rf (rk 6 0x090) 47 12 * 4096 →
    (∀ i, i < 256 → s.plain 0x2020 (u + 128 * i) 128 = true ∧ s.poisonAt (u + 128 * i) = false) →
    (∀ i, i < 128 → s.plain 0x2020 (m + 128 * i) 128 = true ∧ s.poisonAt (m + 128 * i) = false) →
    ∃ t, exec (.routeLoad o) s = .next t ∧ (∀ i, i < 8192 → t.toWorld.route i = leNat (s.toWorld.bytes (u + 4 * i) 4)) ∧
      (∀ i, i < 4096 → t.toWorld.group i = leNat (s.toWorld.bytes (m + 4 * i) 4)) ∧
      bit (t.reg (rk 6 0x0A0)) 0 = true ∧ bit (t.reg (rk 6 0x0A0)) 1 = false ∧ s.SameStore t) ∧
  (∀ (s : State) (p : Nat) (h : FabHdr) (m : FabMsg), s.dev.live = true → p < 18 → s.toWorld.flueUp p = true → h.mc = false →
    h.dst < 8192 → h.src < 8192 → h.ttl < 64 → h.vc < 8 → s.toWorld.takesArrival m = false →
    (h.dst = s.toWorld.devId →
      (match m with
        | .chnReport _ _ | .chnDrain _ _ _ _ | .rreadRsp _ | .emberData _ _ _ _ | .shipData _ _ _ | .shipHdr _ _ _ | .net _ => False
        | _ => True) →
      ∃ t, exec (.fabricPacket p h m) s = .next t ∧ t.dev.net = s.dev.net ++ [m] ∧ s.SameStore t ∧ t.dev.out = s.dev.out) ∧
    (∀ q, h.dst ≠ s.toWorld.devId → 0 < h.ttl → s.toWorld.outPort h.dst = some q → s.toWorld.legacyBars q false m = false →
      ∃ t, exec (.fabricPacket p h m) s = .next t ∧ t.dev.out = s.dev.out ++ [.flue q { h with ttl := h.ttl - 1 } m] ∧
        t.dev.net = s.dev.net ∧ s.SameStore t) ∧
    (h.dst ≠ s.toWorld.devId → h.ttl = 0 → bit (s.reg (rk 6 0x010)) 3 = false →
      ∃ t, exec (.fabricPacket p h m) s = .next t ∧ t.dev.out = s.dev.out ∧ t.dev.net = s.dev.net ∧
        bit (t.reg (rk 6 0x020)) 1 = true ∧ s.SameStore t)))

/-- R287, R288: a placement gives every token K slots, no expert more than CAP rows, and every row of an expert to one slot;
the fills add up to the slots placed, and the slots placed and dropped to K for each token. R291, R292: EXD CLEAR and LOAD by
a port to which every entry's job is assignable, over entries no pass uses, complete with OK: the entries are zero, or as
memory holds them with RES clear. R292: EXD LOAD of legal entries in HBM, by a port to which their jobs are assignable,
completes with OK and the directory holds them with RES clear. -/
def Obligations.PlacementAndTheExpertDirectory : Prop :=
  (
  ∀ (k cap nexp : Nat) (toks : List (List (Nat × Nat × Nat))),
    (placeAll k cap nexp toks).1.length = k * toks.length ∧
    (placeAll k cap nexp toks).2.fill.length = nexp ∧
    (∀ n ∈ (placeAll k cap nexp toks).2.fill, n ≤ cap) ∧
    (placeAll k cap nexp toks).2.fill.sum = (placeAll k cap nexp toks).2.placed ∧
    (placeAll k cap nexp toks).2.placed + (placeAll k cap nexp toks).2.drop = k * toks.length ∧
    (∀ e p g q, some (e, p, g, q) ∈ (placeAll k cap nexp toks).1 → p < (placeAll k cap nexp toks).2.fill.getD e 0) ∧
    ((placeAll k cap nexp toks).1.filterMap (fun x => x.map fun y => (y.1, y.2.1))).Nodup) ∧
  (
  (∀ (s : State) (p first n : Nat), s.hosts p → s.notHeld 4 0x088 → bit (s.reg (rk 4 0x090)) 0 = true →
    1 ≤ n → first + n ≤ 65536 → s.toWorld.exdBusy first n = false →
    (∀ i, first ≤ i → i < first + n → exdValid (s.toWorld.exdWords i) = true →
      s.toWorld.assignable (exdJob (s.toWorld.exdWords i)) p = true) →
    ∃ t, exec (.exdClear p first n) s = .next t ∧
      (∀ i, t.toWorld.exdWords i = if first ≤ i ∧ i < first + n then [0, 0, 0, 0] else s.toWorld.exdWords i) ∧
      bit (t.reg (rk 4 0x090)) 0 = true ∧ t.rf (rk 4 0x090) 15 8 = stOk ∧ s.SameStore t) ∧
  (∀ (s : State) (p first n a : Nat) (ws : List U64) (x : Run), s.hosts p → s.notHeld 4 0x088 →
    bit (s.reg (rk 4 0x090)) 0 = true → 1 ≤ n → first + n ≤ 65536 → s.toWorld.exdBusy first n = false →
    a = s.rf (rk 4 0x080) 47 12 * 4096 + 32 * first → s.toWorld.inHbm a (32 * n) = true →
    (opWords a (4 * n)).run (Run.init s.toWorld (mantel 4)) = .ok (ws, x) →
    (∀ e ∈ chunks 4 ws, exdOk e = true ∧ (exdValid e = true → s.toWorld.assignable (exdJob e) p = true)) →
    ∃ t, exec (.exdLoad p first n) s = .next t ∧
      (∀ i, i < n → t.toWorld.exdWords (first + i) =
        ((ws.drop (4 * i)).take 4).set 0 (setBit (ws.getD (4 * i) 0) 57 false)) ∧
      (∀ i, i < first ∨ first + n ≤ i → t.toWorld.exdWords i = s.toWorld.exdWords i) ∧
      bit (t.reg (rk 4 0x090)) 0 = true ∧ t.rf (rk 4 0x090) 15 8 = stOk ∧ s.SameStore t)) ∧
  (
  ∀ (s : State) (p first n a : Nat) (ws : List U64), s.hosts p → s.notHeld 4 0x088 → bit (s.reg (rk 4 0x090)) 0 = true → s.still →
    1 ≤ n → first + n ≤ 65536 → s.toWorld.exdBusy first n = false → a = s.rf (rk 4 0x080) 47 12 * 4096 + 32 * first →
    s.toWorld.inHbm a (32 * n) = true → ws = words64 (s.toWorld.bytes a (32 * n)) →
    (∀ e ∈ chunks 4 ws, exdOk e = true ∧ (exdValid e = true → s.toWorld.assignable (exdJob e) p = true)) →
    ∃ t, exec (.exdLoad p first n) s = .next t ∧
      (∀ i, i < n → t.toWorld.exdWords (first + i) =
        ((ws.drop (4 * i)).take 4).set 0 (setBit (ws.getD (4 * i) 0) 57 false)) ∧
      (∀ i, i < first ∨ first + n ≤ i → t.toWorld.exdWords i = s.toWorld.exdWords i) ∧
      bit (t.reg (rk 4 0x090)) 0 = true ∧ t.rf (rk 4 0x090) 15 8 = stOk ∧ s.SameStore t)

/-- R284, R285, R293 to R300, R323 to R327: a routing pass begins and goes on, and a walk pass too, with what its computation
has made of memory and the rings; a fetch whose reads have all completed makes its directory entry resident with its version;
a release frees its cache entry; a count bank whose forward passes are all written is sent once, the TAIL of the arm's ring
moving on. R128, R283, R299: the last command of a routing pass all of whose experts are emitted, and of a walk pass, is
written into a ring that has room, its descriptor before the TAIL that covers it, and the pass ends. -/
def Obligations.PassesFetchesAndBanks : Prop :=
  (
  (∀ (s : State) (n : Nat) (a : RtArm) (p : Pass) (x : Run), s.dev.live = true → s.toWorld.rt n = some a → a.pass = some p →
    (advance n).run (Run.init s.toWorld (stkAgent a.page a.job)) = .ok ((), x) →
    exec (.routingPass n) s = .next (s.commit (x.w.passEnd n))) ∧
  (∀ (s : State) (n : Nat) (a b : RtArm) (p : Pass) (x y : Run), s.dev.live = true → s.toWorld.rt n = some a → a.pass = none →
    s.toWorld.stkBusy a.page = false → a.disarm = none → a.out = [] → s.toWorld.firstReady a.page false n = true →
    (startPass n).run (Run.init s.toWorld (stkAgent a.page a.job)) = .ok ((), x) → x.w.rt n = some b → b.pass = some p →
    p.emitted ≤ p.used.length → (advance n).run (Run.init x.w (stkAgent b.page b.job)) = .ok ((), y) →
    exec (.routingPass n) s = .next (s.commit (y.w.passEnd n))) ∧
  (∀ (s : State) (n : Nat) (a : KvArm) (x : Run), s.dev.live = true → s.toWorld.kv n = some a →
    (a.busy = false → a.out = [] → s.toWorld.stkBusy a.page = false → a.disarm = none → s.toWorld.firstReady a.page true n = true →
      (do walkStart n; kvPump n : Act Unit).run (Run.init s.toWorld (stkAgent a.page a.job)) = .ok ((), x) →
      exec (.walkPass n) s = .next (s.commit (x.w.kvEnd n))) ∧
    (a.busy = true → (kvPump n).run (Run.init s.toWorld (stkAgent a.page a.job)) = .ok ((), x) →
      exec (.walkPass n) s = .next (s.commit (x.w.kvEnd n)))) ∧
  (∀ (s : State) (n e : Nat) (a : RtArm) (p : Pass) (f : Fetch), s.dev.live = true → s.toWorld.rt n = some a →
    a.pass = some p → p.fetches.find? (fun y => y.expert == e && !y.reads.isEmpty) = some f →
    f.reads.all (s.toWorld.idxDone a.cring) = true →
    (f.reads.any fun i => s.toWorld.lineAway (lineOf (s.toWorld.recordAt a.cring i))) = false →
    f.reads.all (fun i => s.toWorld.recStatus a.cring i == stOk) = true →
    exdValid (s.toWorld.exdWords (a.dir0 + e)) = true →
    ∃ t, exec (.expertFetchDone n e) s = .next t ∧ fld ((t.toWorld.exdWords (a.dir0 + e)).getD 0 0) 56 41 = p.ver % 2 ^ 16 ∧
      bit ((t.toWorld.exdWords (a.dir0 + e)).getD 0 0) 57 = true ∧ t.pending = s.pending) ∧
  (∀ (s : State) (n i idx : Nat) (a : RtArm) (c : CacheEnt) (r : RingId), s.dev.live = true → s.toWorld.rt n = some a →
    a.pass = none → a.cache[i]? = some c → c.rel = some (r, idx) → s.toWorld.idxEnded r idx = true →
    ∃ t b, exec (.cacheRelease n i) s = .next t ∧ t.toWorld.rt n = some b ∧
      b.cache[i]? = some { c with pinned := false, rel := none } ∧ (∀ j, j ≠ i → b.cache[j]? = a.cache[j]?) ∧
      s.SameStore t ∧ t.dev.regs = s.dev.regs) ∧
  (∀ (s : State) (n k : Nat) (a : RtArm) (d l : Nat), s.dev.live = true → s.toWorld.rt n = some a →
    a.written.lookup k = some a.nmb → a.sends.lookup k = none → s.toWorld.ringDown a.cring = false →
    s.toWorld.ringRoom a.cring ≠ 0 → l = s.rf (rgk a.cring 0x10) 47 7 * 128 →
    d = s.rf (rgk a.cring 0) 47 12 * 4096 + s.toWorld.lineTail a.cring % 2 ^ s.rf (rgk a.cring 0) 5 1 * 64 →
    s.plain (engineNode a.page 0) d 64 = true → s.plain (engineNode a.page 0) l 4 = true → lineOf d ≠ lineOf l →
    ∃ t b, exec (.countBankSend n k) s = .next t ∧ t.toWorld.rt n = some b ∧
      b.sends.lookup k = some (s.toWorld.lineTail a.cring) ∧ t.byteAt d = 0x81 ∧
      leNat (t.toWorld.bytes l 4) = (s.toWorld.lineTail a.cring + 1) % 2 ^ 32 ∧
      (∀ x, x < d ∨ d + 64 ≤ x → x < l ∨ l + 4 ≤ x → t.byteAt x = s.byteAt x) ∧ t.pending = s.pending ∧ t.sec = s.sec)) ∧
  (
  (∀ (s : State) (n : Nat) (a : RtArm) (p : Pass) (g : Group) (r : RingId) (d : Desc) (x l m : Nat) (rs : List (Nat × Nat)),
    s.dev.live = true → s.still → s.toWorld.rt n = some a → a.pass = some p → p.emitted = p.used.length + 1 →
    (∀ e ∈ p.used, (p.ready e).isSome = true) → a.out = [(r, d)] → a.disarm = none → s.toWorld.ringDown r = false →
    s.toWorld.ringRoom r ≠ 0 → s.toWorld.grp a.group = some g → m = a.tpm * g.members.length * a.k →
    rs = [(a.recAt p.step p.mbid + 64, 8 * m), (a.recAt p.step p.mbid + 64 + 8 * m, 2 * a.nexp)] →
    s.reach (stkAgent a.page a.job) rs false → l = s.rf (rgk r 0x10) 47 7 * 128 →
    x = s.rf (rgk r 0) 47 12 * 4096 + s.toWorld.lineTail r % 2 ^ s.rf (rgk r 0) 5 1 * 64 →
    s.toWorld.inHbm x 64 = true → s.toWorld.inHbm l 4 = true → lineOf x ≠ lineOf l → s.spares a.job rs x 64 → s.spares a.job rs l 4 →
    ∃ t b, exec (.routingPass n) s = .next t ∧ t.toWorld.rt n = some b ∧ b.pass = none ∧ b.out = [] ∧
      b.last = some (p.back, p.mbid, p.step) ∧ t.toWorld.bytes x 64 = descBytes d ∧
      leNat (t.toWorld.bytes l 4) = (s.toWorld.lineTail r + 1) % 2 ^ 32 ∧
      (∀ y, y < x ∨ x + 64 ≤ y → y < l ∨ l + 4 ≤ y → t.byteAt y = s.byteAt y) ∧ t.pending = s.pending ∧ t.sec = s.sec) ∧
  (∀ (s : State) (n : Nat) (a : KvArm) (r : RingId) (d : Desc) (x l : Nat), s.dev.live = true → s.still →
    s.toWorld.kv n = some a → a.busy = true → a.out = [(r, d)] → a.disarm = none → s.toWorld.ringDown r = false →
    s.toWorld.ringRoom r ≠ 0 → l = s.rf (rgk r 0x10) 47 7 * 128 →
    x = s.rf (rgk r 0) 47 12 * 4096 + s.toWorld.lineTail r % 2 ^ s.rf (rgk r 0) 5 1 * 64 →
    s.toWorld.inHbm x 64 = true → s.toWorld.inHbm l 4 = true → lineOf x ≠ lineOf l →
    ∃ t, exec (.walkPass n) s = .next t ∧ t.toWorld.kv n = some { a with busy := false, out := [] } ∧
      t.toWorld.bytes x 64 = descBytes d ∧ leNat (t.toWorld.bytes l 4) = (s.toWorld.lineTail r + 1) % 2 ^ 32 ∧
      (∀ y, y < x ∨ x + 64 ≤ y → y < l ∨ l + 4 ≤ y → t.byteAt y = s.byteAt y) ∧ t.pending = s.pending ∧ t.sec = s.sec))

/-- R400, R401, R413: from the owner QUOTE writes the signed 128 bytes and a signature behind the nonce it reads, CERT the
certificate, LOG the measurement log, each with its length in LEN and ERR 0 (buffers in plain HBM); UPDATE ends with the code
of its checks and stores the bundle only when they all hold; COMMIT_SVN raises the fused minimums to the versions that run.
R397, R398, R401: UPDATE of a bundle in HBM ends with the first code its checks give; with 0 the flash holds it in the slot
that did not boot, with any other nothing changes. -/
def Obligations.SecurityOperationsAnswerInTheirBuffer : Prop :=
  (
  (∀ (s : State) (p a : Nat), s.owned p → s.notHeld 3 0x0C0 → a = s.toWorld.secArg →
    ((∀ i, i < 256 → s.plain 0x2033 (a + i) 1 = true) → s.mem.poison = [] →
      ∃ t body, exec (.quote p) s = .next t ∧ body = s.toWorld.quoteBody s.sec (s.toWorld.bytes a 32) ∧
        s.StoredAt t (a + 0x40) (body ++ (List.range 64).map (Config.sm2Sign s.dev.free body)) ∧ t.sec = s.sec ∧
        bit (t.reg secSts) 0 = true ∧ t.rf secSts 15 8 = 0 ∧ t.rf secSts 63 32 = 192 ∧ t.pending = s.pending) ∧
    ((∀ i, i = 0 ∨ i < Config.certificate.length → s.plain 0x2033 (a + i) 1 = true) →
      ∃ t, exec (.cert p) s = .next t ∧ s.StoredAt t a Config.certificate ∧ t.sec = s.sec ∧ bit (t.reg secSts) 0 = true ∧
        t.rf secSts 15 8 = 0 ∧ t.rf secSts 63 32 = Config.certificate.length ∧ t.pending = s.pending) ∧
    ((∀ i, i = 0 ∨ i < s.sec.log.flatten.length → s.plain 0x2033 (a + i) 1 = true) →
      ∃ t, exec (.log p) s = .next t ∧ s.StoredAt t a s.sec.log.flatten ∧ t.sec = s.sec ∧ bit (t.reg secSts) 0 = true ∧
        t.rf secSts 15 8 = 0 ∧ t.rf secSts 63 32 = 64 * s.sec.log.length % 2 ^ 32 ∧ t.pending = s.pending)) ∧
  (∀ (s : State) (p code : Nat) (sec : Sec) (x : Run), s.owned p → s.notHeld 3 0x0C0 →
    (updateA s.sec).run (Run.init s.toWorld (mantel 3)) = .ok ((code, sec), x) →
    ∃ t, exec (.update p) s = .next t ∧ t.sec = sec ∧ t.rf secSts 15 8 = code ∧ t.mem = memCommit s.mem x.w.log ∧
      t.pending = s.pending ∧ (code ≠ 0 → t.sec = s.sec) ∧
      (code = 0 → { t.sec with flash := s.sec.flash } = s.sec ∧
        ∃ slot kind b, slot < 2 ∧ t.sec.bundle slot kind = some b ∧ bundleCode s.sec kind b = 0 ∧
          t.sec.bundle (1 - slot) kind = s.sec.bundle (1 - slot) kind)) ∧
  (∀ (s : State) (p : Nat), s.owned p → s.notHeld 3 0x0C0 →
    ∃ t, exec (.commitSvn p) s = .next t ∧ t.sec.fwMin = max s.sec.fwMin (s.rf secBoot 15 8) ∧
      t.sec.cfgMin = max s.sec.cfgMin (s.rf secBoot 23 16) ∧
      { t.sec with fwMin := s.sec.fwMin, cfgMin := s.sec.cfgMin } = s.sec ∧ t.rf secSts 15 8 = 0 ∧ t.rf secSts 63 32 = 0 ∧
      s.OnlyRegs { t with sec := s.sec } [secBoot, secSts])) ∧
  (
  ∀ (s : State) (p a kind slot : Nat) (h body : List Byte), s.owned p → s.notHeld 3 0x0C0 → s.still → a = s.toWorld.secArg →
    s.toWorld.inHbm a 256 = true → h = s.toWorld.bytes a 256 → kind = (if leAt h 4 2 = 2 then 2 else 1) →
    slot = 1 - s.rf secBoot (kind - 1) (kind - 1) → body = s.toWorld.bytes (a + 256) (leAt h 0x0C 4) →
    (headerCode s.sec kind h ≠ 0 → ∃ t, exec (.update p) s = .next t ∧ t.rf secSts 15 8 = headerCode s.sec kind h ∧ s.SameStore t) ∧
    (headerCode s.sec kind h = 0 → s.toWorld.inHbm (a + 256) (leAt h 0x0C 4) = true →
      (bundleCode s.sec kind ⟨h, body, false⟩ ≠ 0 → ∃ t, exec (.update p) s = .next t ∧
        t.rf secSts 15 8 = bundleCode s.sec kind ⟨h, body, false⟩ ∧ s.SameStore t) ∧
      (bundleCode s.sec kind ⟨h, body, false⟩ = 0 → ∃ t, exec (.update p) s = .next t ∧ t.rf secSts 15 8 = 0 ∧ t.mem = s.mem ∧
        t.pending = s.pending ∧ t.sec = { s.sec with
          flash := ⟨slot, kind, ⟨h, body, false⟩⟩ :: s.sec.flash.filter fun f => !(f.slot == slot && f.kind == kind) })))

/-- R406, R409 to R411: a guest's RD that a window of its site admits is reissued with the guest port's own node; one that no
window admits is denied: it counts as a denial and a strike, and the strike that reaches the limit isolates the site. R404,
R411, R412: a flit that fails its CRC takes the link down and isolates the site; a good one returns its credits; a site whose
strikes have reached the limit is isolated, its requests ended; GRST brings a site back with no strike and fresh credits,
GST_FW_CLR clears the strikes alone. -/
def Obligations.GuestsAreCheckedAndReset : Prop :=
  (
  (∀ (s : State) (g : Nat) (p : NetPkt), s.dev.live = true → g < 2 → s.toWorld.guestUp g = true → p.typ = 1 → p.rmt = false →
    nodeUsed p.dst = true → s.toWorld.guestWindow g 0 2 (some p.job) p.a1.toNat (rdBytes p) = true →
    (s.toWorld.place p.a1.toNat = .page → wordAccess p.a1.toNat (rdBytes p) = true) →
    ∃ t, exec (.guestPacket g p) s = .next t ∧ s.SameStore t ∧ t.dev.regs = s.dev.regs ∧ t.dev.net = s.dev.net ++ [.net { p with
      dst := if p.dst = 0x2038 + g then s.toWorld.nodeOf p.a1.toNat else p.dst, src := 0x2038 + g }]) ∧
  (∀ (s : State) (g lim n : Nat) (p : NetPkt), s.dev.live = true → g < 2 → s.calm → s.toWorld.guestUp g = true → p.typ = 1 →
    nodeUsed p.dst = true → s.toWorld.guestWindow g 0 2 (some p.job) p.a1.toNat (rdBytes p) = false → bit (s.reg (rk (8 + g) 0x010)) 3 = false →
    lim = s.rf (rk (8 + g) 0x090) 15 0 → n = min 0xFFFF (s.rf (rk (8 + g) 0x098) 47 32 + 1) →
    ∃ t, exec (.guestPacket g p) s = .next t ∧ s.SameStore t ∧ t.rf (rk (8 + g) 0x098) 47 32 = n ∧
      t.rf (rk (8 + g) 0x098) 31 0 = min (2 ^ 32 - 1) (s.rf (rk (8 + g) 0x098) 31 0 + 1) ∧
      bit (t.reg (rk (8 + g) 0x020)) 18 = true ∧ bit (t.reg (rk (8 + g) 0x0A8)) 63 = true ∧
      (bit (t.reg (rk (8 + g) 0x080)) 2 = (decide (lim ≠ 0) && decide (lim ≤ n))))) ∧
  (
  (∀ (s : State) (g : Nat) (bs : List Byte), s.dev.live = true → g < 2 → s.toWorld.siteUp g = true →
    (s.calm → bit (s.reg (rk (8 + g) 0x010)) 3 = false → ∃ t, exec (.guestFlit g bs false) s = .next t ∧
      t.rf (rk (8 + g) 0x080) 1 0 = 3 ∧ bit (t.reg (rk (8 + g) 0x080)) 2 = true ∧ t.toWorld.guestUp g = false ∧
      bit (t.reg (rk (8 + g) 0x020)) 1 = true ∧ (∀ q ∈ t.dev.urk.reqs, q.port ≠ 4 + g) ∧ s.SameStore t) ∧
    (∀ x, s.dev.guests.filter (fun y => y.site == g) = [x] → x.waiting = [] → bs.getD 0 0 ≠ 1 →
      ∃ t, exec (.guestFlit g bs true) s = .next t ∧ t.dev.guests.filter (fun y => y.site == g) = [{ x with
        credits := x.credits.zipIdx.map fun c => min 32 (c.1 + (bs.getD (2 + c.2) 0).toNat) }] ∧
        { t with dev := { t.dev with guests := s.dev.guests } } = s)) ∧
  (∀ (s : State) (g : Nat), s.dev.live = true → g < 2 → s.calm → s.toWorld.guestUp g = true →
    bit (s.reg (rk (8 + g) 0x010)) 3 = false →
    (s.toWorld.strikesOut g (s.rf (rk (8 + g) 0x098) 47 32) = true → ∃ t, exec (.guestIsolate g) s = .next t ∧
      bit (t.reg (rk (8 + g) 0x080)) 2 = true ∧ t.toWorld.guestUp g = false ∧ (∀ q ∈ t.dev.urk.reqs, q.port ≠ 4 + g) ∧
      bit (t.reg (rk (8 + g) 0x020)) 18 = true ∧ s.SameStore t) ∧
    (s.toWorld.strikesOut g (s.rf (rk (8 + g) 0x098) 47 32) = false → exec (.guestIsolate g) s = .next s)) ∧
  (∀ (s : State) (p g : Nat), s.owned p → g < 2 →
    (∃ t, exec (.gstFwClr p g) s = .next t ∧ t.rf (rk (8 + g) 0x098) 47 32 = 0 ∧
      t.rf (rk (8 + g) 0x098) 31 0 = s.rf (rk (8 + g) 0x098) 31 0 ∧ s.OnlyRegs t [rk (8 + g) 0x098]) ∧
    (∀ x, s.calm → s.rf (rk (8 + g) 0x080) 1 0 ≠ 0 → s.dev.guests.filter (fun y => y.site == g) = [x] →
      ∃ t, exec (.grst p g) s = .next t ∧ bit (t.reg (rk (8 + g) 0x080)) 2 = false ∧ t.rf (rk (8 + g) 0x098) 47 32 = 0 ∧
        t.rf (rk (8 + g) 0x080) 1 0 = (if bit (s.reg (rk 0 0x080)) (17 + g) then 3 else 2) ∧
        t.dev.guests.filter (fun y => y.site == g) = [⟨x.site, [], List.replicate 6 32, [], []⟩] ∧
        (∀ q ∈ t.dev.urk.reqs, q.port ≠ 4 + g) ∧ s.SameStore t)))

/-- R420, R425, R426, R436: a supply that comes into range, or leaves it, an edge of RESET_N, the owner's write of MGT_RESET
and a thermal trip leave nothing volatile: memory is empty, every register is at its reset value, nothing runs, the
measurement log is empty; the fuses, the flash and the queue of waiting commands stay. A level or a voltage that crosses no
threshold changes no more than the voltage seen. R398, R399, R422, R423: bring-up of a powered module out of reset, with
every strap valid, everything trained, valid bundles and no guest ordered, ends READY at the GTIME of its duration, with a
measurement log of four entries; an invalid strap stops it with cause 1, as one read before does (R22), a failed self-test
with cause 7, in neither case is the device READY. R428: an edge of FREEZE_N announces the freeze time 48 cycles on, a
further one nothing; at the freeze time the device stops: it runs no more, GTIME has reached it, every port is down, every
die reports 0x4, and memory is kept. -/
def Obligations.PowerBringUpAndFreeze : Prop :=
  (
  (∀ (s : State) (c : Instr) (sup : Supply) (low : Bool),
    ((∃ mv, c = .powerOn mv ∧ s.dev.pwr.supply = .off ∧ turnsOn s.dev.pwr mv = true ∧ sup = .on ∧ low = s.dev.pwr.reset) ∨
     (∃ mv, c = .powerOff mv ∧ s.dev.pwr.supply = .on ∧ (mv < 36000 ∨ 63000 < mv) ∧ sup = .off ∧ low = s.dev.pwr.reset) ∨
     (∃ h, c = .resetN h ∧ s.dev.pwr.supply = .on ∧ s.dev.pwr.reset = h ∧ sup = .on ∧ low = !h) ∨
     (∃ p, c = .mgtReset p ∧ s.owned p ∧ sup = .on ∧ low = false) ∨
     (∃ temp, c = .thermalTrip temp ∧ s.dev.pwr.supply = .on ∧ 110 ≤ temp ∧ sup = .tripped ∧ low = s.dev.pwr.reset)) →
    ∃ t, exec c s = .next t ∧ t.mem = ⟨[], []⟩ ∧ (∀ k, t.reg k = regReset k) ∧ t.dev.live = false ∧ t.dev.gtime = 0 ∧
      t.dev.jobs = [] ∧ t.dev.urk = Urk.empty ∧ t.dev.rings = [] ∧ t.dev.pwr.supply = sup ∧ t.dev.pwr.reset = low ∧
      (∀ i, i < 15 → t.dev.pwr.die.getD i 9 = if sup = .on then (if low then 1 else 2) else 0) ∧
      t.pending = s.pending ∧ t.sec = { s.sec with log := [], meas := List.replicate 32 0 }) ∧
  (∀ (s : State) (mv : Nat), s.dev.pwr.supply = .on → 36000 ≤ mv → mv ≤ 63000 →
    exec (.powerOff mv) s = .next (s.modPwr fun p => { p with vin := mv })) ∧
  (∀ (s : State) (h : Bool), s.dev.pwr.reset = !h → exec (.resetN h) s = .next s) ∧
  (∀ (s : State) (temp : Nat), temp < 110 → exec (.thermalTrip temp) s = .next s)) ∧
  (
  ∀ (s : State) (b : BringUp), s.dev.pwr.supply = .on → s.dev.pwr.reset = false → s.dev.pwr.frozen = false →
    s.rf devSts 11 8 = 2 → s.dev.pwr.die.length = 15 → s.Measured →
    ((∃ i, i < 13 ∧ (strapOk (b.straps.getD i 0 % 256) (b.silicon.getD i 8) = false ∨ i ∈ s.dev.pwr.badStraps)) →
      ∃ t, exec (.bringUp b) s = .next t ∧ t.dev.live = false ∧ t.rf devSts 27 20 = 1 ∧ t.sec = s.sec ∧ t.mem = s.mem) ∧
    ((∀ i, i < 13 → strapOk (b.straps.getD i 0 % 256) (b.silicon.getD i 8) = true) →
      s.dev.pwr.badStraps = [] → b.linkFail = [] → b.dataLanes = [] → b.caLanes = [] → b.stackFail = [] → b.blwFail = [] → b.guests = [] →
      s.sec.ordered % 4 = 0 → (s.sec.pick 1).isSome = true → (s.sec.pick 2).isSome = true → s.sec.log = [] →
      (b.selfTestFail = true → ∃ t, exec (.bringUp b) s = .next t ∧ t.dev.live = false ∧ t.rf devSts 27 20 = 7 ∧
        bit (t.reg devSts) 2 = true) ∧
      (b.selfTestFail = false → ∃ t, exec (.bringUp b) s = .next t ∧ t.dev.live = true ∧ bit (t.reg devSts) 1 = false ∧
        t.dev.gtime = b.ms * 850000 ∧ t.sec.log.length = 4 ∧ t.Measured ∧ t.sec.flash = s.sec.flash ∧
        (∀ n, n < 4 → t.toWorld.cn n = 160) ∧ (∀ i, i < 13 → t.dev.pwr.die.getD i 9 = 0) ∧ t.pending = s.pending))) ∧
  (
  (∀ (s : State) (g : Nat), s.dev.live = true →
    (s.dev.pwr.freezeAt = none → ∃ t, exec (.freezeN g) s = .next t ∧ t.dev.pwr = { s.dev.pwr with freezeAt := some (g + 48) } ∧
      t.dev.gtime = max s.dev.gtime g ∧ s.SameStore t ∧ t.dev.regs = s.dev.regs) ∧
    (∀ f, s.dev.pwr.freezeAt = some f → ∃ t, exec (.freezeN g) s = .next t ∧ t.dev.pwr = s.dev.pwr ∧ s.SameStore t ∧
      t.dev.regs = s.dev.regs)) ∧
  (∀ (s : State) (f : Nat), s.dev.live = true → s.dev.pwr.freezeAt = some f → s.dev.pwr.die.length = 15 →
    ∃ t, exec .freezeTime s = .next t ∧ t.dev.pwr.frozen = true ∧ t.dev.live = false ∧ t.dev.gtime = max s.dev.gtime f ∧
      (∀ p, p < 4 → t.toWorld.portUp p = false) ∧ (∀ p, p < 18 → t.toWorld.flueUp p = false) ∧
      (∀ i, i < 13 → t.dev.pwr.die.getD i 9 = 4) ∧ s.SameStore t))

/-- R20, R424, R435, R436, R452: a die link that fails clears its bit and shows FAULT and EV_UE, one that has failed before
changes nothing; the throttle's level is the greatest of its three demands and ALERT shows when it is not 0; THERM_N follows
the dies with two degrees of hysteresis, a stack's refresh doubles from 85 degrees; the power limit takes a value within
2,000 to 4,000 W. -/
def Obligations.LinksThrottlesAndLimits : Prop :=
  (∀ (s : State) (page link k n : Nat), s.dev.live = true → linkReg page = some (k, n) → link < n →
    (bit (s.reg k) link = true → bit (s.reg (rk page 0x010)) 2 = false → bit (s.reg (rk page 0x010)) 3 = false →
      ∃ t, exec (.d2dLinkFail page link) s = .next t ∧ bit (t.reg k) link = false ∧
        (∀ j, j ≠ link → j < 64 → bit (t.reg k) j = bit (s.reg k) j) ∧ bit (t.reg (rk page 0x018)) 2 = true ∧
        bit (t.reg (rk page 0x020)) 1 = true ∧ s.OnlyRegs t [k, rk page 0x018, rk page 0x020, rk page 0x030]) ∧
    (bit (s.reg k) link = false → exec (.d2dLinkFail page link) s = .next s)) ∧
  (∀ (s : State) (x : PowerSample), s.dev.live = true → bit (s.reg (rk 0 0x010)) 3 = false → s.dev.pwr.demand ≤ 15 →
    ∃ t level, exec (.throttleUpdate x) s = .next t ∧
      level = max (thermalDemand x.hot) (max t.dev.pwr.demand (if 5000 < x.avg1 ∨ 10 < t.dev.pwr.overs then 8 else 0)) ∧
      t.rf (rk 0 0x0A0) 3 0 = level ∧ bit (t.reg devSts) 3 = decide (level ≠ 0) ∧
      (s.rf (rk 0 0x098) 15 0 < x.avg100 → t.dev.pwr.demand = min 15 (s.dev.pwr.demand + 1)) ∧
      (x.avg100 ≤ s.rf (rk 0 0x098) 15 0 → s.dev.pwr.under + 1 = 10 → t.dev.pwr.demand = s.dev.pwr.demand - 1) ∧
      t.rf (rk 0 0x090) 15 0 = x.avg100 % 2 ^ 16 ∧ s.SameStore t) ∧
  (∀ (s : State) (hot : Nat), s.dev.live = true → ∃ t, exec (.tempThreshold (.dies hot)) s = .next t ∧
    (103 ≤ hot → t.dev.pinTherm = .low ∧ bit (t.reg devSts) 4 = true) ∧
    (hot < 101 → t.dev.pinTherm = .z ∧ bit (t.reg devSts) 4 = false) ∧
    (101 ≤ hot → hot < 103 → t.dev.pinTherm = s.dev.pinTherm) ∧ s.SameStore t) ∧
  (∀ (s : State) (st temp : Nat), s.dev.live = true → st < 20 → ∃ t, exec (.tempThreshold (.hbm st temp)) s = .next t ∧
    (st ∈ t.dev.pwr.refresh ↔ 85 ≤ temp) ∧ (95 ≤ temp → st ∈ t.dev.pwr.hot) ∧ (temp < 93 → st ∉ t.dev.pwr.hot) ∧
    (∀ u, u ≠ st → (u ∈ t.dev.pwr.refresh ↔ u ∈ s.dev.pwr.refresh)) ∧ t.dev.regs = s.dev.regs ∧ s.SameStore t) ∧
  (∀ (s : State) (p : Nat) (v : U64), s.owned p → ∃ t, exec (.mgtPwrLimit p v) s = .next t ∧
    (t.reg (rk 0 0x098)).toNat = max 2000 (min 4000 (fld v 15 0)) ∧ s.OnlyRegs t [rk 0 0x098])

/-- R429, R430: while the TAP operates each instruction answers on TDO what its register holds, the instruction register
holds its code, and all but BYPASS and IDCODE set DBG_USED; DBGDATA reads or writes one word of plain memory and moves the
address on; nothing happens while the TAP is held in reset. (What boundary-scan cells capture is a free value.) R431: while
the target answers, each read of the management bus returns its field of the management page, or the serial number, and the
write of the power limit takes the effect of an owner's; else nothing is acknowledged. No transaction changes anything else. -/
def Obligations.DebugAndManagementPorts : Prop :=
  (
  (∀ (s : State) (c : Instr), s.dev.tapOn = false →
    c ∈ [Instr.idcode, .sample, .diestat] ∨ (∃ v, c ∈ [Instr.extest v, .preload v]) ∨ (∃ v, c ∈ [Instr.dbgaddr v, .dbgdata v]) ∨
      (∃ b, c = .bypass b) → exec c s = .next s) ∧
  (∀ (s : State) (high : Bool), ∃ t, exec (.trstN high) s = .next t ∧ t.dev.pwr.trst = !high ∧
    t.dev.pwr.ir = (if high then s.dev.pwr.ir else 0x01) ∧
    t.modPwr (fun p => { p with trst := s.dev.pwr.trst, ir := s.dev.pwr.ir }) = s) ∧
  (∀ (s : State), s.dev.tapOn = true →
    (exec .idcode s = .next (s.modPwr fun p => { p with ir := 0x01, tdo := some 0x10820001 })) ∧
    (∀ b, exec (.bypass b) s = .next (s.modPwr fun p => { p with ir := 0xFF, tdo := some p.byp.toNat, byp := b })) ∧
    (∀ v, ∃ t, exec (.extest v) s = .next t ∧ t.dev.pwr = { s.dev.pwr with
      bsr := v, ir := 0x00, tdo := some (Config.freeWord s.dev.free).toNat } ∧ bit (t.reg secConfig) 2 = true ∧ s.SameStore t) ∧
    (∃ t, exec .sample s = .next t ∧ t.dev.pwr = { s.dev.pwr with
      ir := 0x02, tdo := some (Config.freeWord s.dev.free).toNat } ∧ bit (t.reg secConfig) 2 = true ∧ s.SameStore t) ∧
    (∀ v, ∃ t, exec (.preload v) s = .next t ∧ t.dev.pwr = { s.dev.pwr with bsr := v, ir := 0x03 } ∧
      s.OnlyRegs (t.modPwr fun _ => s.dev.pwr) [secConfig] ∧ bit (t.reg secConfig) 2 = true) ∧
    (∃ t, exec .diestat s = .next t ∧ t.dev.pwr = { s.dev.pwr with tdo := some s.dev.dieStat, ir := 0x10 } ∧
      s.OnlyRegs (t.modPwr fun _ => s.dev.pwr) [secConfig] ∧ bit (t.reg secConfig) 2 = true) ∧
    (∀ v, ∃ t, exec (.dbgaddr v) s = .next t ∧ fld t.dev.pwr.dbgAddr 47 0 = fld v 47 0 / 8 * 8 ∧
      bit t.dev.pwr.dbgAddr 48 = bit v 48 ∧ t.dev.pwr.ir = 0x20 ∧ s.OnlyRegs (t.modPwr fun _ => s.dev.pwr) [secConfig])) ∧
  (∀ (s : State) (v : U64) (a : Nat), s.dev.tapOn = true → s.dev.live = true → a = fld s.dev.pwr.dbgAddr 47 0 → a % 8 = 0 →
    s.plain 0x2036 a 8 = true →
    (bit s.dev.pwr.dbgAddr 48 = true → ∃ t, exec (.dbgdata v) s = .next t ∧ s.StoredAt t a (wordBytes v) ∧
      fld t.dev.pwr.dbgAddr 47 0 = (a + 8) % 2 ^ 48 ∧ t.pending = s.pending ∧ t.sec = s.sec) ∧
    (bit s.dev.pwr.dbgAddr 48 = false → s.poisonAt (lineOf a) = false → ∃ t, exec (.dbgdata v) s = .next t ∧ s.SameStore t ∧
      t.dev.pwr.tdo = some (s.toWorld.word a).toNat ∧ fld t.dev.pwr.dbgAddr 47 0 = (a + 8) % 2 ^ 48)) ∧
  (∀ (s : State) (v : U64) (a : Nat), s.dev.tapOn = true → s.dev.live = false → a = fld s.dev.pwr.dbgAddr 47 0 →
    (bit s.dev.pwr.dbgAddr 48 = true → ∃ t, exec (.dbgdata v) s = .next t ∧ s.SameStore t ∧ t.dev.pwr.tdo = none ∧
      s.OnlyRegs (t.modPwr fun _ => s.dev.pwr) [secConfig]) ∧
    (bit s.dev.pwr.dbgAddr 48 = false → s.toWorld.place a = .hbm → ∃ t, exec (.dbgdata v) s = .next t ∧
      t.dev.pwr.tdo = some ((s.toWorld.word a).toNat + (s.poisonAt (lineOf a)).toNat * 2 ^ 64) ∧ s.SameStore t ∧
      s.OnlyRegs (t.modPwr fun _ => s.dev.pwr) [secConfig]))) ∧
  (
  (∀ (s : State) (c : Instr) (v : Nat),
    (c, v) ∈ [(Instr.smbReadDevSts, s.rf (rk 0 0x080) 15 0), (.smbReadTemp, s.rf (rk 0 0x088) 15 0),
      (.smbReadPin, s.rf (rk 0 0x090) 15 0), (.smbReadVin, s.rf (rk 0 0x090) 47 32), (.smbReadIin, s.rf (rk 0 0x090) 63 48),
      (.smbReadThrottle, s.rf (rk 0 0x0A0) 15 0), (.smbReadPwrLimit, s.rf (rk 0 0x098) 15 0),
      (.smbReadSerial, s.sec.serial.toNat)] →
    exec c s = .next (s.modPwr fun p => { p with smb := if s.dev.smbOn then some v else none })) ∧
  (∀ (s : State) (v : Nat),
    (s.dev.smbOn = true → ∃ t, exec (.smbWritePwrLimit v) s = .next t ∧
      (t.reg (rk 0 0x098)).toNat = max 2000 (min 4000 (v % 2 ^ 16)) ∧ t.dev.pwr = { s.dev.pwr with smb := some 0 } ∧
      s.OnlyRegs (t.modPwr fun _ => s.dev.pwr) [rk 0 0x098]) ∧
    (s.dev.smbOn = false → exec (.smbWritePwrLimit v) s = .next (s.modPwr fun p => { p with smb := none }))))
end

