-- ==== Sys2Proof/Laws/Bits.lean ====
section
/-! SUPPORT. Bit fields: bits of a field, of a word with a field or a bit replaced, and of a counter. -/

namespace Sys2Proof.Machine

theorem testBit_fld (w : U64) (hi lo i : Nat) : (fld w hi lo).testBit i = (decide (i < hi - lo + 1) && bit w (lo + i)) := by
  simp [fld, bits, bit, Nat.testBit_mod_two_pow, Nat.testBit_shiftRight]

theorem fld_lt (w : U64) (hi lo : Nat) : fld w hi lo < 2 ^ (hi - lo + 1) := Nat.mod_lt _ (Nat.two_pow_pos _)

theorem bit_ge (w : U64) (i : Nat) (h : 64 ≤ i) : bit w i = false :=
  Nat.testBit_lt_two_pow (lt_of_lt_of_le w.isLt (Nat.pow_le_pow_right (by decide) h))

/-- Bit i of a word whose bits [hi:lo] have been replaced. -/
theorem bit_setFld (w : U64) (hi lo v i : Nat) (hlo : lo ≤ hi) (hhi : hi < 64) :
    bit (setFld w hi lo v) i = if lo ≤ i ∧ i ≤ hi then v.testBit (i - lo) else bit w i := by
  by_cases hi64 : i < 64
  · have hm : (BitVec.ofNat 64 ((2 ^ (hi - lo + 1) - 1) <<< lo)).getLsbD i = decide (lo ≤ i ∧ i ≤ hi) := by
      simp only [BitVec.getLsbD_ofNat, Nat.testBit_shiftLeft, Nat.testBit_two_pow_sub_one, hi64, decide_true, Bool.true_and]
      by_cases h1 : lo ≤ i
      · simp [h1]; constructor <;> intro h <;> omega
      · simp [h1]
    have hv : (BitVec.ofNat 64 ((v % 2 ^ (hi - lo + 1)) <<< lo)).getLsbD i = (decide (lo ≤ i ∧ i ≤ hi) && v.testBit (i - lo)) := by
      simp only [BitVec.getLsbD_ofNat, Nat.testBit_shiftLeft, Nat.testBit_mod_two_pow, hi64, decide_true, Bool.true_and]
      by_cases h1 : lo ≤ i
      · by_cases h2 : i ≤ hi
        · have : i - lo < hi - lo + 1 := by omega
          simp [h1, h2, this]
        · have : ¬ i - lo < hi - lo + 1 := by omega
          simp [h1, h2, this]
      · simp [h1]
    show (setFld w hi lo v).getLsbD i = _
    simp only [setFld, BitVec.getLsbD_or, BitVec.getLsbD_and, BitVec.getLsbD_not, hm, hv, hi64, decide_true, Bool.true_and]
    by_cases h : lo ≤ i ∧ i ≤ hi
    · simp [h]
    · simp only [h, decide_false, Bool.not_false, Bool.and_true, Bool.false_and, Bool.or_false, ite_false]; rfl
  · have h : ¬ (lo ≤ i ∧ i ≤ hi) := by omega
    rw [bit_ge _ _ (by omega), bit_ge _ _ (by omega), if_neg h]

@[simp] theorem bit_setBit (w : U64) (n i : Nat) (b : Bool) (h : n < 64) :
    bit (setBit w n b) i = if i = n then b else bit w i := by
  rw [setBit, bit_setFld _ _ _ _ _ (Nat.le_refl n) h]
  by_cases hi : i = n
  · subst hi; cases b <;> simp
  · rw [if_neg (by omega), if_neg hi]

/-- A field replaced reads as what was put there, cut to its width. -/
theorem fld_setFld (w : U64) (hi lo v : Nat) (hlo : lo ≤ hi) (hhi : hi < 64) :
    fld (setFld w hi lo v) hi lo = v % 2 ^ (hi - lo + 1) := by
  apply Nat.eq_of_testBit_eq
  intro i
  rw [testBit_fld, bit_setFld _ _ _ _ _ hlo hhi, Nat.testBit_mod_two_pow]
  by_cases h : i < hi - lo + 1
  · rw [if_pos (by omega)]; simp [h]
  · simp [h]

/-- A field outside the one replaced is as before. -/
theorem fld_setFld_other (w : U64) (hi lo v h l : Nat) (hlo : lo ≤ hi) (hhi : hi < 64) (hl : l ≤ h) (hd : h < lo ∨ hi < l) :
    fld (setFld w hi lo v) h l = fld w h l := by
  apply Nat.eq_of_testBit_eq
  intro i
  rw [testBit_fld, testBit_fld, bit_setFld _ _ _ _ _ hlo hhi]
  by_cases hi' : i < h - l + 1
  · rw [if_neg (by omega)]
  · simp [hi']

/-- A field with other bits of the word than a bit replaced. -/
theorem fld_setBit_other (w : U64) (n : Nat) (b : Bool) (h l : Nat) (hn : n < 64) (hl : l ≤ h) (hd : h < n ∨ n < l) :
    fld (setBit w n b) h l = fld w h l := fld_setFld_other w n n _ h l (Nat.le_refl n) hn hl hd

/-- A counter field counts up to its largest value. -/
theorem fld_countUp (w : U64) (hi lo n : Nat) (hlo : lo ≤ hi) (hhi : hi < 64) :
    fld (countUp w hi lo n) hi lo = min (2 ^ (hi - lo + 1) - 1) (fld w hi lo + n) := by
  have := Nat.two_pow_pos (hi - lo + 1)
  rw [countUp, fld_setFld _ _ _ _ hlo hhi, satAdd, Nat.mod_eq_of_lt (by omega)]

theorem fld_countUp_other (w : U64) (hi lo n h l : Nat) (hlo : lo ≤ hi) (hhi : hi < 64) (hl : l ≤ h) (hd : h < lo ∨ hi < l) :
    fld (countUp w hi lo n) h l = fld w h l := fld_setFld_other w hi lo _ h l hlo hhi hl hd

/-- The bits of a small number put in a word. -/
theorem fld_ofNat (n hi lo : Nat) (h : hi < 64) (hlo : lo ≤ hi) : fld (BitVec.ofNat 64 n) hi lo = n / 2 ^ lo % 2 ^ (hi - lo + 1) := by
  apply Nat.eq_of_testBit_eq
  intro i
  rw [testBit_fld, Nat.testBit_mod_two_pow, Nat.testBit_div_two_pow]
  simp only [bit, BitVec.toNat_ofNat, Nat.testBit_mod_two_pow]
  by_cases hi' : i < hi - lo + 1
  · have : lo + i < 64 := by omega
    simp [hi', this, Nat.add_comm]
  · simp [hi']

@[simp] theorem leBytes_length : ∀ n v : Nat, (leBytes n v).length = n
  | 0, _ => rfl
  | n + 1, v => by simp [leBytes, leBytes_length n]

@[simp] theorem wordBytes_length (w : U64) : (wordBytes w).length = 8 := leBytes_length 8 _

theorem leNat_leBytes : ∀ n v : Nat, leNat (leBytes n v) = v % 256 ^ n
  | 0, v => by simp [leBytes, leNat, Nat.mod_one]
  | n + 1, v => by
    have ih := leNat_leBytes n (v / 256)
    simp only [leNat] at ih
    simp only [leBytes, leNat, List.foldr_cons, ih, BitVec.toNat_ofNat]
    have e : 256 ^ (n + 1) = 256 * 256 ^ n := by ring
    rw [e, Nat.mod_mul]

/-- A word's bytes are the word again. -/
@[simp] theorem leWord_wordBytes (w : U64) : leWord (wordBytes w) = w := by
  have : w.toNat < 256 ^ 8 := by have := w.isLt; omega
  rw [leWord, wordBytes, leNat_leBytes, Nat.mod_eq_of_lt this, BitVec.ofNat_toNat, BitVec.setWidth_eq]

@[simp] theorem length_upTo (lo n : Nat) : (upTo lo n).length = n := by simp [upTo]
@[simp] theorem mem_upTo (lo n x : Nat) : x ∈ upTo lo n ↔ lo ≤ x ∧ x < lo + n := by
  simp only [upTo, List.mem_map, List.mem_range]
  constructor
  · rintro ⟨i, hi, rfl⟩; omega
  · rintro ⟨h1, h2⟩; exact ⟨x - lo, by omega, by omega⟩

/-! ### The first entry that satisfies a test, changed -/

theorem find_updFirst {α : Type} (p : α → Bool) (f : α → α) (hp : ∀ x, p x = true → p (f x) = true) :
    ∀ xs : List α, (updFirst p f xs).find? p = (xs.find? p).map f
  | [] => rfl
  | x :: xs => by
    simp only [updFirst]
    by_cases h : p x = true
    · simp [h, hp x h]
    · simp [h, find_updFirst p f hp xs]

theorem find_updFirst_other {α : Type} (p q : α → Bool) (f : α → α) (hd : ∀ x, p x = true → q x = false ∧ q (f x) = false) :
    ∀ xs : List α, (updFirst p f xs).find? q = xs.find? q
  | [] => rfl
  | x :: xs => by
    simp only [updFirst]
    by_cases h : p x = true
    · simp [h, hd x h]
    · simp only [h, Bool.false_eq_true, if_false, List.find?_cons, find_updFirst_other p q f hd xs]

@[simp] theorem length_updFirst {α : Type} (p : α → Bool) (f : α → α) : ∀ xs : List α, (updFirst p f xs).length = xs.length
  | [] => rfl
  | x :: xs => by simp only [updFirst]; split <;> simp [length_updFirst p f xs]

end Sys2Proof.Machine
end

