-- ==== Sys2Proof/Laws/State.lean ====
section
/-! SUPPORT. What each update of a state and of a world leaves and changes, field by field. -/

namespace Sys2Proof.Machine

/-! ### A command's world and its commit -/

@[simp] theorem State.toWorld_dev (s : State) : s.toWorld.dev = s.dev := rfl
@[simp] theorem State.toWorld_mem (s : State) : s.toWorld.mem = s.mem := rfl
@[simp] theorem State.toWorld_log (s : State) : s.toWorld.log = [] := rfl
@[simp] theorem State.commit_dev (s : State) (w : World) : (s.commit w).dev = w.dev := rfl
@[simp] theorem State.commit_mem (s : State) (w : World) : (s.commit w).mem = memCommit s.mem w.log := rfl
@[simp] theorem State.commit_pending (s : State) (w : World) : (s.commit w).pending = s.pending := rfl
@[simp] theorem State.commit_sec (s : State) (w : World) : (s.commit w).sec = s.sec := rfl
@[simp] theorem memCommit_nil (m : Mem) : memCommit m [] = m := rfl
@[simp] theorem memCommit_cons (m : Mem) (op : MemOp) (l : List MemOp) : memCommit m (op :: l) = memApply (memCommit m l) op := rfl

/-- A command that changes nothing leaves the state as it was. -/
@[simp] theorem State.commit_toWorld (s : State) : s.commit s.toWorld = s := rfl

@[simp] theorem State.toWorld_reg (s : State) (k : Nat) : s.toWorld.reg k = s.reg k := rfl
@[simp] theorem State.toWorld_rf (s : State) (k hi lo : Nat) : s.toWorld.rf k hi lo = s.rf k hi lo := rfl
@[simp] theorem State.commit_reg (s : State) (w : World) (k : Nat) : (s.commit w).reg k = w.reg k := rfl
@[simp] theorem State.commit_rf (s : State) (w : World) (k hi lo : Nat) : (s.commit w).rf k hi lo = w.rf k hi lo := rfl
@[simp] theorem State.toWorld_byte (s : State) (a : Nat) : s.toWorld.byte a = s.byteAt a := rfl
@[simp] theorem State.toWorld_poisoned (s : State) (g : Nat) : s.toWorld.poisoned g = s.poisonAt g := rfl

/-! ### The queue and the power fields -/

@[simp] theorem State.withPending_dev (s : State) (q : List Instr) : ({ s with pending := q } : State).dev = s.dev := rfl
@[simp] theorem State.withPending_mem (s : State) (q : List Instr) : ({ s with pending := q } : State).mem = s.mem := rfl
@[simp] theorem State.withPending_sec (s : State) (q : List Instr) : ({ s with pending := q } : State).sec = s.sec := rfl
@[simp] theorem State.modPwr_mem (s : State) (f : Pwr → Pwr) : (s.modPwr f).mem = s.mem := rfl
@[simp] theorem State.modPwr_pending (s : State) (f : Pwr → Pwr) : (s.modPwr f).pending = s.pending := rfl
@[simp] theorem State.modPwr_sec (s : State) (f : Pwr → Pwr) : (s.modPwr f).sec = s.sec := rfl
@[simp] theorem State.modPwr_dev (s : State) (f : Pwr → Pwr) : (s.modPwr f).dev = { s.dev with pwr := f s.dev.pwr } := rfl
@[simp] theorem State.restart_mem (s : State) (p : Pwr) : (s.restart p).mem = ⟨[], []⟩ := rfl
@[simp] theorem State.restart_pending (s : State) (p : Pwr) : (s.restart p).pending = s.pending := rfl
@[simp] theorem State.restart_dev (s : State) (p : Pwr) :
    (s.restart p).dev = { Dev.reset with free := s.dev.free, out := s.dev.out, pwr := p } := rfl
@[simp] theorem State.restart_sec (s : State) (p : Pwr) :
    (s.restart p).sec = { s.sec with log := [], meas := List.replicate 32 0 } := rfl

/-! ### Updates of a world -/

@[simp] theorem World.upd_dev (w : World) (f : Dev → Dev) : (w.upd f).dev = f w.dev := rfl
@[simp] theorem World.upd_mem (w : World) (f : Dev → Dev) : (w.upd f).mem = w.mem := rfl
@[simp] theorem World.upd_log (w : World) (f : Dev → Dev) : (w.upd f).log = w.log := rfl
@[simp] theorem World.push_dev (w : World) (op : MemOp) : (w.push op).dev = w.dev := rfl
@[simp] theorem World.push_mem (w : World) (op : MemOp) : (w.push op).mem = w.mem := rfl
@[simp] theorem World.push_log (w : World) (op : MemOp) : (w.push op).log = op :: w.log := rfl
@[simp] theorem World.setReg_mem (w : World) (k : Nat) (v : U64) : (w.setReg k v).mem = w.mem := rfl
@[simp] theorem World.setReg_log (w : World) (k : Nat) (v : U64) : (w.setReg k v).log = w.log := rfl
@[simp] theorem World.setReg_dev (w : World) (k : Nat) (v : U64) :
    (w.setReg k v).dev = { w.dev with regs := mapSet w.dev.regs (regReset k) k v } := rfl
@[simp] theorem World.modReg_mem (w : World) (k : Nat) (f : U64 → U64) : (w.modReg k f).mem = w.mem := rfl
@[simp] theorem World.modReg_log (w : World) (k : Nat) (f : U64 → U64) : (w.modReg k f).log = w.log := rfl
@[simp] theorem World.modReg_dev (w : World) (k : Nat) (f : U64 → U64) :
    (w.modReg k f).dev = { w.dev with regs := mapSet w.dev.regs (regReset k) k (f (w.reg k)) } := rfl
@[simp] theorem World.setRf_mem (w : World) (k hi lo v : Nat) : (w.setRf k hi lo v).mem = w.mem := rfl
@[simp] theorem World.setRf_log (w : World) (k hi lo v : Nat) : (w.setRf k hi lo v).log = w.log := rfl
@[simp] theorem World.setRf_dev (w : World) (k hi lo v : Nat) :
    (w.setRf k hi lo v).dev = { w.dev with regs := mapSet w.dev.regs (regReset k) k (setFld (w.reg k) hi lo v) } := rfl
@[simp] theorem World.count_mem (w : World) (k hi lo n : Nat) : (w.count k hi lo n).mem = w.mem := rfl
@[simp] theorem World.count_log (w : World) (k hi lo n : Nat) : (w.count k hi lo n).log = w.log := rfl
@[simp] theorem World.count_dev (w : World) (k hi lo n : Nat) :
    (w.count k hi lo n).dev = { w.dev with regs := mapSet w.dev.regs (regReset k) k (countUp (w.reg k) hi lo n) } := rfl
@[simp] theorem World.sendNet_mem (w : World) (m : FabMsg) : (w.sendNet m).mem = w.mem := rfl
@[simp] theorem World.sendNet_log (w : World) (m : FabMsg) : (w.sendNet m).log = w.log := rfl
@[simp] theorem World.sendNet_dev (w : World) (m : FabMsg) : (w.sendNet m).dev = { w.dev with net := w.dev.net ++ [m] } := rfl
@[simp] theorem World.takeNet_mem (w : World) (m : FabMsg) : (w.takeNet m).mem = w.mem := rfl
@[simp] theorem World.takeNet_log (w : World) (m : FabMsg) : (w.takeNet m).log = w.log := rfl
@[simp] theorem World.takeNet_dev (w : World) (m : FabMsg) : (w.takeNet m).dev = { w.dev with net := w.dev.net.erase m } := rfl
@[simp] theorem World.at_mem (w : World) (t : Nat) : (w.at t).mem = w.mem := rfl
@[simp] theorem World.at_log (w : World) (t : Nat) : (w.at t).log = w.log := rfl
@[simp] theorem World.at_dev (w : World) (t : Nat) : (w.at t).dev = { w.dev with gtime := max w.dev.gtime t } := rfl
@[simp] theorem World.draw_mem (w : World) : w.draw.2.mem = w.mem := rfl
@[simp] theorem World.draw_log (w : World) : w.draw.2.log = w.log := rfl
@[simp] theorem World.draw_dev (w : World) : w.draw.2.dev = { w.dev with free := w.dev.free + 1 } := rfl

/-! ### What a changed unit leaves of memory -/

@[simp] theorem World.modRing_mem (w : World) (r : RingId) (f : RingRun → RingRun) : (w.modRing r f).mem = w.mem := rfl
@[simp] theorem World.modRing_log (w : World) (r : RingId) (f : RingRun → RingRun) : (w.modRing r f).log = w.log := rfl
@[simp] theorem World.modEntry_mem (w : World) (r : RingId) (i : Nat) (f : Entry → Entry) : (w.modEntry r i f).mem = w.mem := rfl
@[simp] theorem World.modEntry_log (w : World) (r : RingId) (i : Nat) (f : Entry → Entry) : (w.modEntry r i f).log = w.log := rfl
@[simp] theorem World.modJob_mem (w : World) (j : Nat) (f : Job → Job) : (w.modJob j f).mem = w.mem := rfl
@[simp] theorem World.modJob_log (w : World) (j : Nat) (f : Job → Job) : (w.modJob j f).log = w.log := rfl
@[simp] theorem World.modArm_mem (w : World) (t n : Nat) (f : Arm → Arm) : (w.modArm t n f).mem = w.mem := rfl
@[simp] theorem World.modArm_log (w : World) (t n : Nat) (f : Arm → Arm) : (w.modArm t n f).log = w.log := rfl
@[simp] theorem World.modRegion_mem (w : World) (i : Nat) (f : Region → Region) : (w.modRegion i f).mem = w.mem := rfl
@[simp] theorem World.modRegion_log (w : World) (i : Nat) (f : Region → Region) : (w.modRegion i f).log = w.log := rfl
@[simp] theorem World.modSnap_mem (w : World) (f : Snap → Snap) : (w.modSnap f).mem = w.mem := rfl
@[simp] theorem World.modSnap_log (w : World) (f : Snap → Snap) : (w.modSnap f).log = w.log := rfl
@[simp] theorem World.modTik_mem (w : World) (f : Tik → Tik) : (w.modTik f).mem = w.mem := rfl
@[simp] theorem World.modTik_log (w : World) (f : Tik → Tik) : (w.modTik f).log = w.log := rfl
@[simp] theorem World.modGuest_mem (w : World) (g : Nat) (f : Guest → Guest) : (w.modGuest g f).mem = w.mem := rfl
@[simp] theorem World.modGuest_log (w : World) (g : Nat) (f : Guest → Guest) : (w.modGuest g f).log = w.log := rfl

end Sys2Proof.Machine
end

