-- ==== Sys2Proof/Laws/Memory.lean ====
section
/-! SUPPORT. Memory: what is stored is read back and nothing else changes, and every change keeps the canonical form; the same of
registers. -/

namespace Sys2Proof.Machine

/-! ### Cells -/

theorem lookup_cons_ite {β : Type} (k x : Nat) (v : β) (cs : List (Nat × β)) :
    ((k, v) :: cs).lookup x = if x = k then some v else cs.lookup x := by
  rw [List.lookup_cons]
  by_cases h : x = k
  · simp [h]
  · have : (x == k) = false := by simpa using h
    simp [h, this]

/-- What is filtered out of a map by its key is not found; every other key is as before. -/
theorem lookup_filter_ne {β : Type} (a x : Nat) : ∀ cs : List (Nat × β),
    (cs.filter fun c => c.1 ≠ a).lookup x = if x = a then none else cs.lookup x
  | [] => by simp
  | (k, v) :: cs => by
    have ih := lookup_filter_ne a x cs
    by_cases hk : k = a
    · rw [List.filter_cons_of_neg (by simpa using hk), ih, lookup_cons_ite, hk]
      by_cases hx : x = a <;> simp [hx]
    · rw [List.filter_cons_of_pos (by simpa using hk), lookup_cons_ite, lookup_cons_ite, ih]
      by_cases hx : x = k
      · subst hx; simp [hk]
      · simp [hx]

theorem cellIns_lookup (a : Nat) (b : Byte) (x : Nat) : ∀ cs : List Host.Cell, (∀ c ∈ cs, c.1 ≠ a) →
    (cellIns a b cs).lookup x = if x = a then some b else cs.lookup x
  | [], _ => lookup_cons_ite a x b []
  | (k, v) :: cs, h => by
    have hc : k ≠ a := h (k, v) (by simp)
    have ih := cellIns_lookup a b x cs fun d hd => h d (by simp [hd])
    simp only [cellIns]
    split
    · exact lookup_cons_ite a x b _
    · rw [lookup_cons_ite, lookup_cons_ite, ih]
      by_cases hx : x = k
      · subst hx; simp [hc]
      · simp [hx]

/-- A byte stored is read back, and every other byte is as before. -/
theorem cellGet_cellSet (cs : List Host.Cell) (a : Nat) (b : Byte) (x : Nat) :
    cellGet (cellSet cs a b) x = if x = a then b else cellGet cs x := by
  simp only [cellGet, cellSet]
  split
  · rename_i hb; subst hb
    rw [lookup_filter_ne]
    by_cases hx : x = a <;> simp [hx]
  · rw [cellIns_lookup _ _ _ _ (by simp), lookup_filter_ne]
    by_cases hx : x = a <;> simp [hx]

theorem cellGet_cellsPut (x : Nat) : ∀ (bs : List Byte) (cs : List Host.Cell) (a : Nat),
    cellGet (cellsPut cs a bs) x = if a ≤ x ∧ x < a + bs.length then bs.getD (x - a) 0 else cellGet cs x
  | [], cs, a => by simp [cellsPut]
  | b :: bs, cs, a => by
    rw [cellsPut, cellGet_cellsPut x bs, cellGet_cellSet]
    by_cases h1 : a + 1 ≤ x ∧ x < a + 1 + bs.length
    · obtain ⟨n, rfl⟩ : ∃ n, x = a + 1 + n := ⟨x - (a + 1), by omega⟩
      have e1 : a + 1 + n - (a + 1) = n := by omega
      have e2 : a + 1 + n - a = n + 1 := by omega
      rw [if_pos h1, if_pos (by simp; omega), e1, e2, List.getD_cons_succ]
    · rw [if_neg h1]
      by_cases hx : x = a
      · subst hx; simp
      · rw [if_neg hx, if_neg (by simp; omega)]

/-! ### The canonical form -/

/-- The canonical form of the listed cells. -/
def CellsOk (cs : List Host.Cell) : Prop := (cs.Pairwise fun a b => a.1 < b.1) ∧ ∀ c ∈ cs, c.2 ≠ 0

theorem mem_cellIns (a : Nat) (b : Byte) (d : Host.Cell) : ∀ cs : List Host.Cell, d ∈ cellIns a b cs ↔ d = (a, b) ∨ d ∈ cs
  | [] => by simp [cellIns]
  | c :: cs => by
    simp only [cellIns]; split
    · simp
    · simp [mem_cellIns a b d cs]; tauto

theorem CellsOk.cellIns {a : Nat} {b : Byte} (hb : b ≠ 0) : ∀ {cs : List Host.Cell}, CellsOk cs → (∀ c ∈ cs, c.1 ≠ a) →
    CellsOk (cellIns a b cs)
  | [], _, _ => ⟨by simp [Machine.cellIns], by intro c hc; rw [List.mem_singleton.1 hc]; exact hb⟩
  | c :: cs, h, ha => by
    obtain ⟨h1, h2⟩ := h
    rw [List.pairwise_cons] at h1
    have hc := ha c (by simp)
    have ih := CellsOk.cellIns hb (cs := cs) ⟨h1.2, fun d hd => h2 d (by simp [hd])⟩ fun d hd => ha d (by simp [hd])
    simp only [Machine.cellIns]
    split
    · rename_i hlt
      refine ⟨?_, ?_⟩
      · rw [List.pairwise_cons]
        refine ⟨fun d hd => ?_, List.pairwise_cons.2 h1⟩
        rcases List.mem_cons.1 hd with rfl | hd
        · exact hlt
        · exact lt_trans hlt (h1.1 d hd)
      · intro d hd
        rcases List.mem_cons.1 hd with rfl | hd
        · exact hb
        · exact h2 d hd
    · refine ⟨?_, ?_⟩
      · rw [List.pairwise_cons]
        refine ⟨fun d hd => ?_, ih.1⟩
        rcases (mem_cellIns a b d cs).1 hd with rfl | hd
        · show c.1 < a; omega
        · exact h1.1 d hd
      · intro d hd
        rcases List.mem_cons.1 hd with rfl | hd
        · exact h2 _ (by simp)
        · exact ih.2 d hd

theorem CellsOk.filter {cs : List Host.Cell} (p : Host.Cell → Bool) (h : CellsOk cs) : CellsOk (cs.filter p) :=
  ⟨h.1.filter p, fun c hc => h.2 c (List.mem_filter.1 hc).1⟩

theorem CellsOk.cellSet {cs : List Host.Cell} (h : CellsOk cs) (a : Nat) (b : Byte) : CellsOk (cellSet cs a b) := by
  simp only [Machine.cellSet]
  split
  · exact h.filter _
  · rename_i hb; exact CellsOk.cellIns hb (h.filter _) (by simp)

theorem CellsOk.cellsPut : ∀ (bs : List Byte) {cs : List Host.Cell} (a : Nat), CellsOk cs → CellsOk (cellsPut cs a bs)
  | [], _, _, h => h
  | b :: bs, _, a, h => CellsOk.cellsPut bs (a + 1) (h.cellSet a b)

theorem mem_insNat (n m : Nat) : ∀ l : List Nat, m ∈ insNat n l ↔ m = n ∨ m ∈ l
  | [] => by simp [insNat]
  | x :: xs => by
    simp only [insNat]; split
    · simp
    · split
      · rename_i h; subst h; simp
      · simp [mem_insNat n m xs]; tauto

theorem insNat_pairwise (n : Nat) : ∀ l : List Nat, l.Pairwise (· < ·) → (insNat n l).Pairwise (· < ·)
  | [], _ => by simp [insNat]
  | x :: xs, h => by
    rw [List.pairwise_cons] at h
    simp only [insNat]; split
    · rename_i hlt
      rw [List.pairwise_cons]
      refine ⟨fun d hd => ?_, List.pairwise_cons.2 h⟩
      rcases List.mem_cons.1 hd with rfl | hd
      · exact hlt
      · exact lt_trans hlt (h.1 d hd)
    · split
      · exact List.pairwise_cons.2 h
      · rw [List.pairwise_cons]
        refine ⟨fun d hd => ?_, insNat_pairwise n xs h.2⟩
        rcases (mem_insNat n d xs).1 hd with rfl | hd
        · omega
        · exact h.1 d hd

theorem Mem.wf_iff (m : Mem) : m.wf = true ↔ CellsOk m.cells ∧ m.poison.Pairwise (· < ·) := by
  simp [Mem.wf, CellsOk]

/-- Every change of memory keeps the canonical form. -/
theorem memApply_wf {m : Mem} (h : m.wf = true) (op : MemOp) : (memApply m op).wf = true := by
  rw [Mem.wf_iff] at *
  cases op with
  | bytes a bs => exact ⟨CellsOk.cellsPut bs a h.1, h.2⟩
  | poison g => exact ⟨h.1, insNat_pairwise _ _ (h.2.filter _)⟩
  | cleanse g => exact ⟨h.1, h.2.filter _⟩
  | wipe lo hi => exact ⟨h.1.filter _, h.2.filter _⟩

theorem memCommit_wf {m : Mem} (h : m.wf = true) : ∀ log : List MemOp, (memCommit m log).wf = true
  | [] => h
  | op :: l => memApply_wf (memCommit_wf h l) op

/-- What a command stores keeps the canonical form. -/
theorem State.commit_inv {s : State} (h : s.Inv) (w : World) : (s.commit w).Inv := memCommit_wf h w.log

theorem State.reset_mem_wf : State.reset.mem.wf = true := by decide

/-! ### Registers -/

theorem regIns_lookup (k : Nat) (v : U64) (x : Nat) : ∀ cs : List (Nat × U64), (∀ c ∈ cs, c.1 ≠ k) →
    (regIns k v cs).lookup x = if x = k then some v else cs.lookup x
  | [], _ => lookup_cons_ite k x v []
  | (j, u) :: cs, h => by
    have hc : j ≠ k := h (j, u) (by simp)
    have ih := regIns_lookup k v x cs fun d hd => h d (by simp [hd])
    simp only [regIns]
    split
    · exact lookup_cons_ite k x v _
    · rw [lookup_cons_ite, lookup_cons_ite, ih]
      by_cases hx : x = j
      · subst hx; simp [hc]
      · simp [hx]

/-- A register set is read back, and every other register reads as before, whatever its reset value. -/
theorem mapGet_mapSet (m : List (Nat × U64)) (d e : U64) (k j : Nat) (v : U64) (h : j = k → e = d) :
    mapGet (mapSet m d k v) e j = if j = k then v else mapGet m e j := by
  simp only [mapGet, mapSet]
  split
  · rename_i hv; subst hv
    rw [lookup_filter_ne]
    by_cases hj : j = k
    · simp [hj, h hj]
    · simp [hj]
  · rw [regIns_lookup _ _ _ _ (by simp), lookup_filter_ne]
    by_cases hj : j = k <;> simp [hj]

@[simp] theorem World.reg_setReg (w : World) (k j : Nat) (v : U64) :
    (w.setReg k v).reg j = if j = k then v else w.reg j := by
  simp only [World.reg, World.setReg_dev]
  exact mapGet_mapSet _ _ _ _ _ _ fun h => by rw [h]

@[simp] theorem World.reg_modReg (w : World) (k j : Nat) (f : U64 → U64) :
    (w.modReg k f).reg j = if j = k then f (w.reg k) else w.reg j := World.reg_setReg w k j _

@[simp] theorem World.reg_setRf (w : World) (k j hi lo v : Nat) :
    (w.setRf k hi lo v).reg j = if j = k then setFld (w.reg k) hi lo v else w.reg j := World.reg_setReg w k j _

@[simp] theorem World.reg_count (w : World) (k j hi lo n : Nat) :
    (w.count k hi lo n).reg j = if j = k then countUp (w.reg k) hi lo n else w.reg j := World.reg_setReg w k j _

@[simp] theorem World.reg_push (w : World) (op : MemOp) (k : Nat) : (w.push op).reg k = w.reg k := rfl

end Sys2Proof.Machine
end

