-- ==== Sys2Proof/Laws/Commands.lean ====
section
/-! SUPPORT. What State.run, a ring's entries, the end of a command and a row of the table do, said once. -/

namespace Sys2Proof.Machine

/-! ### Running a command -/

theorem State.run_live {s : State} (h : s.dev.live = true) (f : World → World) : s.run f = .next (s.commit (f s.toWorld)) := by
  simp [State.run, h]

theorem State.run_dead {s : State} (h : s.dev.live = false) (f : World → World) : s.run f = .next s := by
  simp [State.run, h]

/-- All that a command of a running or stopped device can do. -/
theorem State.run_spec (s : State) (f : World → World) : ∃ t, s.run f = .next t ∧ t.pending = s.pending ∧ t.sec = s.sec ∧
    (s.Inv → t.Inv) := by
  by_cases h : s.dev.live = true
  · exact ⟨_, State.run_live h f, rfl, rfl, fun hi => State.commit_inv hi _⟩
  · exact ⟨s, State.run_dead (by simpa using h) f, rfl, rfl, id⟩

theorem State.port_spec (s : State) (p page off : Nat) (v : U64) (f : World → World) :
    ∃ t, s.port p page off v f = .next t ∧ t.pending = s.pending ∧ t.sec = s.sec ∧ (s.Inv → t.Inv) := State.run_spec s _

theorem State.port_hosts {s : State} {p : Nat} (h : s.hosts p) (page off : Nat) (v : U64) (f : World → World) :
    s.port p page off v f = .next (s.commit (f s.toWorld)) := by
  obtain ⟨h1, h2, h3, h4⟩ := h
  simp [State.port, State.run, h1, h2, h3, h4]

/-! ### Worlds that agree but for registers and rings -/

/-- `b` differs from `a` in registers and rings alone. -/
def World.OnlyRings (a b : World) : Prop :=
  { b.dev with regs := a.dev.regs, rings := a.dev.rings } = a.dev ∧ b.mem = a.mem ∧ b.log = a.log

theorem World.OnlyRings.refl (w : World) : w.OnlyRings w := ⟨rfl, rfl, rfl⟩

theorem World.OnlyRings.trans {a b c : World} (h : a.OnlyRings b) (k : b.OnlyRings c) : a.OnlyRings c := by
  obtain ⟨h1, h2, h3⟩ := h
  obtain ⟨k1, k2, k3⟩ := k
  refine ⟨?_, k2.trans h2, k3.trans h3⟩
  rw [← h1]
  have := congrArg (fun d : Dev => { d with regs := a.dev.regs, rings := a.dev.rings }) k1
  simpa using this

theorem World.onlyRings_setReg (w : World) (k : Nat) (v : U64) : w.OnlyRings (w.setReg k v) := ⟨rfl, rfl, rfl⟩
theorem World.onlyRings_setRf (w : World) (k hi lo v : Nat) : w.OnlyRings (w.setRf k hi lo v) := ⟨rfl, rfl, rfl⟩

theorem World.onlyRings_modRing (w : World) (r : RingId) (f : RingRun → RingRun) : w.OnlyRings (w.modRing r f) := by
  refine ⟨?_, rfl, rfl⟩
  simp only [World.modRing, World.upd_dev]
  split <;> rfl

theorem World.onlyRings_modEntry (w : World) (r : RingId) (i : Nat) (f : Entry → Entry) : w.OnlyRings (w.modEntry r i f) :=
  w.onlyRings_modRing r _

/-! ### The same, but for function slots that waited to be cleared (R108) -/

def World.OnlyEnds (a b : World) : Prop :=
  { b.dev with regs := a.dev.regs, rings := a.dev.rings, stoves := a.dev.stoves } = a.dev ∧
    ((∀ k, (a.stove k).clr = []) → b.dev.stoves = a.dev.stoves) ∧ b.mem = a.mem ∧ b.log = a.log

theorem World.OnlyRings.ends {a b : World} (h : a.OnlyRings b) : a.OnlyEnds b := by
  obtain ⟨h1, h2, h3⟩ := h
  have hs : b.dev.stoves = a.dev.stoves := by rw [← h1]
  refine ⟨?_, fun _ => hs, h2, h3⟩
  rw [← hs]; exact h1

theorem World.OnlyEnds.trans {a b c : World} (h : a.OnlyEnds b) (k : b.OnlyEnds c) : a.OnlyEnds c := by
  obtain ⟨h1, h4, h2, h3⟩ := h
  obtain ⟨k1, k4, k2, k3⟩ := k
  refine ⟨?_, fun z => ?_, k2.trans h2, k3.trans h3⟩
  · rw [← h1]
    have := congrArg (fun d : Dev => { d with regs := a.dev.regs, rings := a.dev.rings, stoves := a.dev.stoves }) k1
    simpa using this
  · have hb := h4 z
    refine (k4 fun n => ?_).trans hb
    have : b.stove n = a.stove n := by simp only [World.stove, hb]
    rw [this]; exact z n

/-! ### A ring's commands -/

theorem World.ringRun_setReg (w : World) (k : Nat) (v : U64) (r : RingId) : (w.setReg k v).ringRun r = w.ringRun r := rfl
theorem World.ringRun_setRf (w : World) (k hi lo v : Nat) (r : RingId) : (w.setRf k hi lo v).ringRun r = w.ringRun r := rfl

theorem World.ringRun_modRing (w : World) (r : RingId) (f : RingRun → RingRun) (hf : ∀ x, (f x).ring = x.ring) :
    (w.modRing r f).ringRun r = f (w.ringRun r) := by
  simp only [World.ringRun, World.modRing, World.upd_dev]
  by_cases h : w.dev.rings.any (fun x => x.ring == r) = true
  · simp only [h, if_true]
    rw [find_updFirst _ _ fun x hx => by rw [hf]; exact hx]
    cases hq : w.dev.rings.find? (fun x => x.ring == r) with
    | some x => rfl
    | none =>
      rw [List.find?_eq_none] at hq
      rw [List.any_eq_true] at h
      obtain ⟨x, hx, hr⟩ := h
      exact absurd hr (hq x hx)
  · have hn : w.dev.rings.find? (fun x => x.ring == r) = none := by
      rw [List.find?_eq_none]
      intro x hx hr
      exact h (List.any_eq_true.2 ⟨x, hx, hr⟩)
    simp [h, hn, List.find?_append, hf]

/-- A change of a ring that keeps its commands. -/
theorem World.entries_modRing (w : World) (r : RingId) (f : RingRun → RingRun) (hf : ∀ x, (f x).ring = x.ring)
    (he : ∀ x, (f x).entries = x.entries) : ((w.modRing r f).ringRun r).entries = (w.ringRun r).entries := by
  rw [World.ringRun_modRing w r f hf, he]

theorem World.entries_modEntry (w : World) (r : RingId) (i : Nat) (f : Entry → Entry) :
    ((w.modEntry r i f).ringRun r).entries = updFirst (fun e => e.idx == i) f (w.ringRun r).entries := by
  exact congrArg RingRun.entries (World.ringRun_modRing w r (fun x => { x with entries := updFirst (fun e => e.idx == i) f x.entries })
    fun _ => rfl)

/-- A changed command is found, changed, under its count. -/
theorem World.find_modEntry (w : World) (r : RingId) (i : Nat) (f : Entry → Entry) (hf : ∀ e, (f e).idx = e.idx) :
    ((w.modEntry r i f).ringRun r).entries.find? (fun e => e.idx == i) =
      ((w.ringRun r).entries.find? fun e => e.idx == i).map f := by
  rw [World.entries_modEntry, find_updFirst _ _ fun e he => by rw [hf]; exact he]

theorem World.onlyEnds_settleSlots (w : World) (k : Nat) : w.OnlyEnds (w.settleSlots k) := by
  unfold World.settleSlots
  split
  · exact (World.OnlyRings.refl w).ends
  · rename_i h
    exact ⟨rfl, fun z => absurd (by rw [z k]; rfl) h, rfl, rfl⟩

/-- Reading the live mask of a cheap point that no host holds: only registers and rings change, and no ring's commands. -/
theorem World.readMask_spec (w : World) (r : RingId)
    (h : ∀ j q, (w.ringRun r).cheap = some (j, q) → w.entryAway (w.maskEntry j q) = none) :
    w.OnlyRings (w.readMask r) ∧ ((w.readMask r).ringRun r).entries = (w.ringRun r).entries := by
  unfold World.readMask
  split
  · exact ⟨World.onlyRings_modRing _ _ _, World.entries_modRing _ _ _ (fun _ => rfl) fun _ => rfl⟩
  · rename_i j q hc
    rw [h j q hc]
    refine ⟨(World.onlyRings_modRing _ _ _).trans (World.onlyRings_setRf _ _ _ _ _), ?_⟩
    rw [World.ringRun_setRf]
    exact World.entries_modRing _ _ _ (fun _ => rfl) fun _ => rfl

/-- The mask of a cheap point is that of a command of the ring. -/
theorem cheapPoint_mem {es : List Entry} {j q : Nat} (h : cheapPoint es = some (j, q)) :
    ∃ e ∈ es, j = jobOf e.desc ∧ q = liveOf e.desc := by
  unfold cheapPoint at h
  split at h
  · rename_i e he
    split at h
    · obtain ⟨rfl, rfl⟩ : jobOf e.desc = j ∧ liveOf e.desc = q := by simpa using h
      exact ⟨e, (List.mem_filter.1 (List.mem_of_mem_getLast? he)).1, rfl, rfl⟩
    · cases h
  · cases h

theorem mem_updFirst {α : Type} (p : α → Bool) (f : α → α) (y : α) : ∀ xs : List α, y ∈ updFirst p f xs → y ∈ xs ∨ ∃ x ∈ xs, y = f x
  | [], h => by simp [updFirst] at h
  | x :: xs, h => by
    simp only [updFirst] at h
    split at h
    · rcases List.mem_cons.1 h with rfl | h
      · exact .inr ⟨x, by simp, rfl⟩
      · exact .inl (by simp [h])
    · rcases List.mem_cons.1 h with rfl | h
      · exact .inl (by simp)
      · rcases mem_updFirst p f y xs h with h | ⟨z, hz, rfl⟩
        · exact .inl (by simp [h])
        · exact .inr ⟨z, by simp [hz], rfl⟩

/-- No host holds the live mask of a command of a stove's ring (R136). -/
def World.masksHome (w : World) (r : RingId) : Prop :=
  (ringStove r).isSome = true → ∀ q ∈ (w.ringRun r).entries, w.entryAway (w.maskEntry (jobOf q.desc) (liveOf q.desc)) = none

/-- What the reading of masks rests on is as before where only registers, rings and stoves differ. -/
theorem World.OnlyEnds.away {a b : World} (h : a.OnlyEnds b) (j q : Nat) :
    b.entryAway (b.maskEntry j q) = a.entryAway (a.maskEntry j q) := by
  obtain ⟨h1, -⟩ := h
  have hu : b.dev.urk = a.dev.urk := by rw [← h1]
  have hj : b.dev.jobs = a.dev.jobs := by rw [← h1]
  have hl : ∀ l, b.lineAway l = a.lineAway l := fun l => by
    simp only [World.lineAway, World.lineBusy, World.dirOf, hu]
  have hm : b.maskEntry j q = a.maskEntry j q := by simp only [World.maskEntry, World.job, hj]
  simp only [World.entryAway, hm]
  cases a.maskEntry j q with
  | none => rfl
  | some x => simp [Option.filter, hl]

/-- A change of commands that keeps their descriptors keeps the masks at home. -/
theorem World.masksHome.change {a b : World} {r : RingId} (h : a.masksHome r) (o : a.OnlyEnds b)
    (he : ∀ y ∈ (b.ringRun r).entries, ∃ x ∈ (a.ringRun r).entries, y.desc = x.desc) : b.masksHome r := fun hr y hy => by
  obtain ⟨x, hx, hd⟩ := he y hy
  rw [o.away, hd]
  exact h hr x hx

theorem World.modEntry_descs (w : World) (r : RingId) (i : Nat) (f : Entry → Entry) (hf : ∀ e, (f e).desc = e.desc) :
    ∀ y ∈ ((w.modEntry r i f).ringRun r).entries, ∃ x ∈ (w.ringRun r).entries, y.desc = x.desc := fun y hy => by
  rw [World.entries_modEntry] at hy
  rcases mem_updFirst _ _ _ _ hy with h | ⟨x, hx, rfl⟩
  · exact ⟨y, h, rfl⟩
  · exact ⟨x, hx, hf x⟩

/-- The end of a command: it stands completed in its ring, with its status and counters; only registers, rings and the function
slots that waited for it change. -/
theorem World.finish_spec (w : World) (r : RingId) (i st : Nat) (cnt : Counts) (ev : Nat) (hm : w.masksHome r) :
    w.OnlyEnds (w.finish r i st cnt ev) ∧
    ((w.finish r i st cnt ev).ringRun r).entries.find? (fun e => e.idx == i) =
      ((w.ringRun r).entries.find? fun e => e.idx == i).map fun e =>
        { e with phase := .done, status := st, counts := cnt, evseq := ev, tEnd := w.dev.gtime, reads := 0, writes := 0 } := by
  let f : Entry → Entry := fun e =>
    { e with phase := .done, status := st, counts := cnt, evseq := ev, tEnd := w.dev.gtime, reads := 0, writes := 0 }
  let w1 := w.modEntry r i f
  have h1 : w.OnlyRings w1 := w.onlyRings_modEntry r i f
  have hfind := w.find_modEntry r i f fun _ => rfl
  have hm1 : w1.masksHome r := hm.change h1.ends (w.modEntry_descs r i f fun _ => rfl)
  have key : ∃ w2, w.finish r i st cnt ev = w2 ∧ w1.OnlyEnds w2 ∧ (w2.ringRun r).entries = (w1.ringRun r).entries := by
    refine ⟨_, rfl, ?_⟩
    simp only [World.finish]
    split
    · rename_i k e hk _
      have a1 := w1.onlyEnds_settleSlots k
      have r1 : (w1.settleSlots k).ringRun r = w1.ringRun r := by
        simp only [World.settleSlots]
        split <;> rfl
      set c := if w1.accLive k then none else cheapPoint (w1.ringRun r).entries with hc
      let g : RingRun → RingRun := fun x => { x with cheap := c, lastJob := jobOf e.desc }
      let w3 := (w1.settleSlots k).modRing r g
      have a2 : (w1.settleSlots k).OnlyRings w3 := World.onlyRings_modRing _ _ _
      have a3 := w3.onlyRings_setRf (rgk r 0x30) 2 2 0
      have a123 := (a1.trans a2.ends).trans a3.ends
      have e3 : ((w3.setRf (rgk r 0x30) 2 2 0).ringRun r).entries = (w1.ringRun r).entries := by
        rw [World.ringRun_setRf, World.entries_modRing _ _ g (fun _ => rfl) (fun _ => rfl), r1]
      obtain ⟨b1, b2⟩ := World.readMask_spec (w3.setRf (rgk r 0x30) 2 2 0) r (by
        intro j q hj
        have hjc : c = some (j, q) := by
          rw [World.ringRun_setRf, World.ringRun_modRing _ _ g (fun _ => rfl)] at hj
          exact hj
        rw [a123.away]
        have hcp : cheapPoint (w1.ringRun r).entries = some (j, q) := by
          rw [hc] at hjc
          split at hjc
          · cases hjc
          · exact hjc
        obtain ⟨y, hy, rfl, rfl⟩ := cheapPoint_mem hcp
        exact hm1 (by rw [hk]; rfl) y hy)
      exact ⟨a123.trans b1.ends, b2.trans e3⟩
    · exact ⟨(World.OnlyRings.refl _).ends, rfl⟩
  obtain ⟨w2, e, h2, h3⟩ := key
  rw [e, h3]
  exact ⟨h1.ends.trans h2, hfind⟩

/-- Ending a waiting command: as its end, with the counters it has. -/
theorem World.endCmd_spec (w : World) (r : RingId) (i st ev : Nat) (e : Entry)
    (h : (w.ringRun r).entries.find? (fun x => x.idx == i) = some e) (hm : w.masksHome r) :
    w.OnlyEnds (w.endCmd r i st ev) ∧ ∃ x, ((w.endCmd r i st ev).ringRun r).entries.find? (fun y => y.idx == i) = some x ∧
      x.phase = .done ∧ x.status = st ∧ x.evseq = ev ∧ x.desc = e.desc := by
  simp only [World.endCmd, h]
  obtain ⟨h1, h2⟩ := w.finish_spec r i st e.counts ev hm
  rw [h] at h2
  exact ⟨h1, _, h2, rfl, rfl, rfl, rfl⟩

/-! ### The life of a command -/

/-- What its own computation leaves to be read of a command, when nothing stands in its way. -/
theorem closing_ok (r : Run) (h1 : r.pois = none) (h2 : r.denied = false) (h3 : r.lost = false) :
    (closing stOk).run r = .ok (stOk, r) := by
  simp [closing, stOk, StateT.run, poisonEvent, h1, h2, h3, bind, StateT.bind, get, getThe, MonadStateOf.get, StateT.get, pure,
    StateT.pure, Except.pure, Except.bind]

/-- Starting a command takes its stove: only registers and rings change, no ring's commands. -/
theorem World.takeStove_spec (w : World) (r : RingId) :
    w.OnlyRings (w.takeStove r) ∧ ((w.takeStove r).ringRun r).entries = (w.ringRun r).entries := by
  unfold World.takeStove
  split
  · exact ⟨World.OnlyRings.refl w, rfl⟩
  · let g : RingRun → RingRun := fun x => { x with cheap := none, maskDue := false }
    let t : RingRun → RingRun := fun x => if x.ring.page = r.page then { x with turn := x.ring == r } else x
    have ht : ∀ x, (t x).ring = x.ring ∧ (t x).entries = x.entries := fun x => by
      simp only [t]; split <;> exact ⟨rfl, rfl⟩
    let w2 := (w.setRf (rgk r 0x30) 2 2 0).modRing r g
    have a := (w.onlyRings_setRf (rgk r 0x30) 2 2 0).trans (World.onlyRings_modRing _ r g)
    have e2 : (w2.ringRun r).entries = (w.ringRun r).entries :=
      (World.entries_modRing _ _ g (fun _ => rfl) fun _ => rfl).trans (by rw [World.ringRun_setRf])
    refine ⟨a.trans ⟨rfl, rfl, rfl⟩, ?_⟩
    rw [← e2]
    show ((List.find? _ (w2.dev.rings.map t)).getD _).entries = ((List.find? _ w2.dev.rings).getD _).entries
    have hf : (fun x : RingRun => x.ring == r) ∘ t = fun x => x.ring == r := by
      funext x; simp only [Function.comp, (ht x).1]
    rw [List.find?_map, hf]
    cases w2.dev.rings.find? fun x => x.ring == r with
    | none => rfl
    | some x => exact (ht x).2

/-- What a command's computation leaves, once it has its start time, its counters and its stove. -/
theorem World.started_spec (x : Run) (r : RingId) (e q : Entry)
    (h5 : (x.w.ringRun r).entries.find? (fun y => y.idx == e.idx) = some q) :
    ∃ w2 q2, (let w' := (x.w.startTime r e.idx).modEntry r e.idx fun z => { z with counts := x.cnt }
        if e.phase == .read then w'.takeStove r else w') = w2 ∧ x.w.OnlyRings w2 ∧
      (w2.ringRun r).entries.find? (fun y => y.idx == e.idx) = some q2 ∧
      ∀ y ∈ (w2.ringRun r).entries, ∃ z ∈ (x.w.ringRun r).entries, y.desc = z.desc := by
  let f : Entry → Entry := fun z => { z with tStart := if z.phase = .read then x.w.dev.gtime else z.tStart }
  let g : Entry → Entry := fun z => { z with counts := x.cnt }
  let wa := x.w.modEntry r e.idx f
  let wb := wa.modEntry r e.idx g
  have oa := (x.w.onlyRings_modEntry r e.idx f).trans (wa.onlyRings_modEntry r e.idx g)
  have fa : (wb.ringRun r).entries.find? (fun y => y.idx == e.idx) = some (g (f q)) := by
    rw [wa.find_modEntry r e.idx g fun _ => rfl, x.w.find_modEntry r e.idx f fun _ => rfl, h5]; rfl
  have da : ∀ y ∈ (wb.ringRun r).entries, ∃ z ∈ (x.w.ringRun r).entries, y.desc = z.desc := fun y hy => by
    obtain ⟨z, hz, h1⟩ := wa.modEntry_descs r e.idx g (fun _ => rfl) y hy
    obtain ⟨u, hu, h2⟩ := x.w.modEntry_descs r e.idx f (fun _ => rfl) z hz
    exact ⟨u, hu, h1.trans h2⟩
  refine ⟨_, g (f q), rfl, ?_⟩
  dsimp only
  split
  · obtain ⟨t1, t2⟩ := wb.takeStove_spec r
    exact ⟨oa.trans t1, (congrArg (List.find? fun y : Entry => y.idx == e.idx) t2).trans fa, fun y hy => da y (t2 ▸ hy)⟩
  · exact ⟨oa, fa, da⟩

/-- A computation that completes: the command stands done with OK, all its changes made. -/
theorem World.runBody_done (w : World) (r : RingId) (e : Entry) (a : Act Fin) (x : Run)
    (h : a.run { Run.init w (agentOf r e) with cnt := e.counts, stamp := e.stamp } = .ok (.done stOk, x))
    (h1 : x.pois = none) (h2 : x.denied = false) (h3 : x.lost = false)
    (h4 : ((ringStove r).isSome && clash (w.ringRun r).entries e.idx x.rd x.wr) = false)
    (h5 : ((x.w.ringRun r).entries.find? fun y => y.idx == e.idx).isSome = true) (h6 : x.w.masksHome r) :
    x.w.OnlyEnds (w.runBody r e e.counts a) ∧
      ∃ y, ((w.runBody r e e.counts a).ringRun r).entries.find? (fun z => z.idx == e.idx) = some y ∧ y.phase = .done ∧
        y.status = stOk := by
  obtain ⟨q, hq⟩ := Option.isSome_iff_exists.1 h5
  have hc : (closed a).run
      { Run.init w (agentOf r e) with cnt := e.counts, stamp := e.stamp } = .ok ((.done stOk, stOk), x) := by
    have hk := closing_ok x h1 h2 h3
    simp only [StateT.run] at h hk
    simp [closed, StateT.run, bind, StateT.bind, Except.bind, h, hk, pure, StateT.pure, Except.pure]
  unfold World.runBody
  dsimp only at hc ⊢
  rw [hc]
  simp only [h4, Bool.false_eq_true, if_false]
  obtain ⟨w2, q2, e2, o2, f2, d2⟩ := World.started_spec x r e q hq
  dsimp only at e2
  rw [e2]
  obtain ⟨g1, g2⟩ := w2.finish_spec r e.idx stOk x.cnt x.evseq (h6.change o2.ends d2)
  rw [f2] at g2
  exact ⟨o2.ends.trans g1, _, g2, rfl, rfl⟩

/-- A computation that ends waiting: the command stands in that phase, all its changes made. -/
theorem World.runBody_wait (w : World) (r : RingId) (e : Entry) (a : Act Fin) (x : Run) (p : Phase)
    (h : a.run { Run.init w (agentOf r e) with cnt := e.counts, stamp := e.stamp } = .ok (.wait p, x))
    (h4 : ((ringStove r).isSome && clash (w.ringRun r).entries e.idx x.rd x.wr) = false)
    (h5 : ((x.w.ringRun r).entries.find? fun y => y.idx == e.idx).isSome = true) :
    x.w.OnlyRings (w.runBody r e e.counts a) ∧
      ∃ y, ((w.runBody r e e.counts a).ringRun r).entries.find? (fun z => z.idx == e.idx) = some y ∧ y.phase = p := by
  obtain ⟨q, hq⟩ := Option.isSome_iff_exists.1 h5
  have hc : (closed a).run
      { Run.init w (agentOf r e) with cnt := e.counts, stamp := e.stamp } = .ok ((.wait p, 0), x) := by
    simp only [StateT.run] at h
    simp [closed, StateT.run, bind, StateT.bind, Except.bind, h, pure, StateT.pure, Except.pure]
  unfold World.runBody
  dsimp only at hc ⊢
  rw [hc]
  simp only [h4, Bool.false_eq_true, if_false]
  obtain ⟨w2, q2, e2, o2, f2, -⟩ := World.started_spec x r e q hq
  dsimp only at e2
  rw [e2]
  have b := w2.find_modEntry r e.idx (fun z => { z with phase := p, reads := x.rd, writes := x.wr, slots := x.slots }) fun _ => rfl
  rw [f2] at b
  exact ⟨o2.trans (World.onlyRings_modEntry _ _ _ _), _, b, rfl⟩

/-- Evaluating a step again changes no memory and no ring. -/
theorem World.reopenStep_spec (w : World) (j k : Nat) :
    (w.reopenStep j k).mem = w.mem ∧ (w.reopenStep j k).log = w.log ∧ (w.reopenStep j k).dev.rings = w.dev.rings := by
  unfold World.reopenStep
  split <;> exact ⟨rfl, rfl, rfl⟩

theorem World.reopenStep_ringRun (w : World) (j k : Nat) (r : RingId) : (w.reopenStep j k).ringRun r = w.ringRun r := by
  simp only [World.ringRun, (w.reopenStep_spec j k).2.2]

/-- The command that may start is the one its row runs. -/
theorem World.runCmd_starts {s : State} {c : Cmd} {e : Entry} (h : s.starts c e = true) (is : Desc → Bool) (hi : is c.desc = true)
    (body : Desc → Act Fin) : e.desc = c.desc ∧ s.toWorld.runCmd c is body =
      (s.toWorld.reopenStep (jobOf c.desc) (stepOf c.desc)).runBody c.ring e e.counts (body c.desc) := by
  simp only [State.starts, Bool.and_eq_true, beq_iff_eq, Bool.not_eq_true', Option.isNone_iff_eq_none] at h
  obtain ⟨⟨⟨⟨⟨-, h2⟩, h3⟩, h4⟩, h5⟩, h6⟩ := h
  exact ⟨h4, by simp [World.runCmd, hi, World.pick, h2, h3, h4, h5, World.startCmd, h6]⟩

theorem State.starts_live {s : State} {c : Cmd} {e : Entry} (h : s.starts c e = true) : s.dev.live = true := by
  simp only [State.starts, Bool.and_eq_true] at h
  exact h.1.1.1.1.1

/-- A row whose meaning is to run its command completes it. -/
theorem completes_of_runCmd {row : Cmd → Instr} {is' : Desc → Prop} {body : Desc → Act Fin} (is : Desc → Bool)
    (hr : ∀ c s, exec (row c) s = s.run fun w => w.runCmd c is body) (hi : ∀ d, is' d → is d = true) :
    Completes row is' body := by
  intro s c e r h1 h2 h3
  obtain ⟨k1, k2, k3, k4, k5, k6, k7⟩ := h3
  obtain ⟨hd, he⟩ := World.runCmd_starts h1 is (hi _ h2) body
  have hb := World.runBody_done (s.toWorld.reopenStep (jobOf c.desc) (stepOf c.desc)) c.ring e (body c.desc) r k1 k2 k3
    k4 (by rw [World.reopenStep_ringRun]; exact k5) k6 k7
  rw [← he] at hb
  obtain ⟨⟨o1, o4, o2, o3⟩, y, y1, y2, y3⟩ := hb
  refine ⟨s.commit (s.toWorld.runCmd c is body), by rw [hr, State.run_live (State.starts_live h1)], ⟨y, y1, y2, y3⟩, ?_, rfl,
    rfl, o1, o4⟩
  rw [State.commit_mem, o3]

/-- A row whose meaning is to run its command accepts it. -/
theorem accepts_of_runCmd {row : Cmd → Instr} {is' : Desc → Prop} {body : Desc → Act Fin} (is : Desc → Bool)
    (hr : ∀ c s, exec (row c) s = s.run fun w => w.runCmd c is body) (hi : ∀ d, is' d → is d = true) :
    Accepts row is' body := by
  intro s c e r p h1 h2 h3
  obtain ⟨k1, -, -, -, k5, k6, -⟩ := h3
  obtain ⟨-, he⟩ := World.runCmd_starts h1 is (hi _ h2) body
  have hb := World.runBody_wait (s.toWorld.reopenStep (jobOf c.desc) (stepOf c.desc)) c.ring e (body c.desc) r p k1
    (by rw [World.reopenStep_ringRun]; exact k5) k6
  rw [← he] at hb
  obtain ⟨⟨o1, o2, o3⟩, y, y1, y2⟩ := hb
  refine ⟨s.commit (s.toWorld.runCmd c is body), y, by rw [hr, State.run_live (State.starts_live h1)], y1, y2, ?_, rfl, rfl, o1⟩
  rw [State.commit_mem, o3]

end Sys2Proof.Machine
end

