-- ==== Sys2Proof/Tests/Base.lean ====
section
/-! SUPPORT. The states and commands the tests and witnesses are built from. -/

namespace Sys2Proof.Tests
open Sys2Proof.Machine

/-- A legal recipe table: L16 but for the key and value caches, which are E4M3 in blocks of 32 with S8 scales. -/
def recipes : List (U64 × U64) :=
  [0xF04000, 0xF04000, 0xF04000, 0xF05000, 0xF05000, 0xF04A13, 0xF04A13, 0xF04000, 0xF04000, 0xF04000, 0, 0, 0, 0, 0, 0].map
    fun w => (w, 0)

/-- A job with number 0 whose tables lie in HBM. -/
def job0 : Job where
  num := 0
  seed := 7
  recipe := recipes
  health := 0x40000000
  livetab := 0x30000
  savetab := 0x40000
  step := 5
  start := none
  step0 := 5
  running := false
  aborted := false
  stopX := none
  stopB := (0, 0)
  stopEnding := false
  lastTicks := []
  evaluated := []
  zeroWait := []

/-- Registers of a running device: READY, 640 channels, port 0 up, job 0 assigned to it and rooted at 0x200000. -/
def baseRegs : List (Nat × U64) :=
  [(rk 0 0x080, 0x201), (rk 0 0x418, 1), (rk 0x10 0x088, 2), (rk 0x10 0x098, 1), (rk 0x120 0x080, 0xA00280), (rk 0x120 0x800, 0x200001)]

/-- Registers set one by one. -/
def regsWith (rs : List (Nat × U64)) : List (Nat × U64) := rs.foldl (fun m x => mapSet m (regReset x.1) x.1 x.2) baseRegs

/-- A running device with job 0, whose virtual addresses below 2 MiB are the physical ones, and further registers. -/
def ready (rs : List (Nat × U64) := []) : State where
  pending := []
  mem := ⟨[(0x200000, 0x01), (0x200002, 0x40), (0x400000, 0x07)], []⟩
  dev := { Dev.reset with gtime := 1000, regs := regsWith rs, jobs := [job0] }
  sec := State.reset.sec

/-- A descriptor: opcode, sequence number 9, job 0, and words 2 to 7. -/
def desc (op : Nat) (w2 w3 w4 w5 w6 w7 : U64) : Desc := ⟨BitVec.ofNat 64 (op + 9 * 0x100000000), 0, w2, w3, w4, w5, w6, w7⟩

/-- Ring registers of a ring with one command read: EN with sixteen slots, HEAD 1, SEQ_IN 9. -/
def ringRegs (r : RingId) : List (Nat × U64) := [(rgk r 0, 0x9), (rgk r 0x20, 1), (rgk r 0x28, 9)]

/-- The command of a ring, read and not started. -/
def entry (d : Desc) : Entry := { idx := 0, desc := d, phase := .read }

/-- A state with one command read in a ring. -/
def withCmd (s : State) (r : RingId) (d : Desc) : State :=
  { s with dev := { s.dev with
      regs := (ringRegs r).foldl (fun m x => mapSet m (regReset x.1) x.1 x.2) s.dev.regs
      rings := ⟨r, 1, [entry d], none, 0, false, false⟩ :: s.dev.rings } }

/-- One command of a ring in a phase. -/
def withPhase (s : State) (r : RingId) (d : Desc) (p : Phase) : State :=
  { withCmd s r d with dev := { (withCmd s r d).dev with rings := [⟨r, 1, [{ entry d with phase := p }], none, 0, false, false⟩] } }

/-- Words of memory. -/
def withWords (s : State) (ws : List (Nat × U64)) : State :=
  { s with mem := ws.foldl (fun m x => memApply m (.bytes x.1 (wordBytes x.2))) s.mem }

/-- Port 0's copies of banked registers. -/
def withBank (s : State) (rs : List (Nat × U64)) : State :=
  { s with dev := { s.dev with bank := rs.foldl (fun m x => mapSet m (regReset x.1) (bankKey 0 x.1) x.2) s.dev.bank } }

/-- The same device with port 0 as its owner. -/
def owned (s : State) : State := { s with dev := { s.dev with urk := { s.dev.urk with owner := some 0 } } }

/-- Rings of stove 0, woodbox 0, Bellows 0, the Chimney and stoker 0. -/
def rStv : RingId := ⟨0x1000, 0⟩
def rWbx : RingId := ⟨0x120, 0⟩
def rBlw : RingId := ⟨0x108, 0⟩
def rChm : RingId := ⟨6, 0⟩
def rStk : RingId := ⟨0x40, 0⟩

/-- A tensor descriptor's words at an address: base, kind, rows, columns, pitch, static scale, scale array. -/
def tensorAt (a base kind rows cols pitch : Nat) (static : Nat := 0) (sbase : Nat := 0) : List (Nat × U64) :=
  [(a, BitVec.ofNat 64 (base + kind * 2 ^ 48)), (a + 8, BitVec.ofNat 64 (sbase + static * 2 ^ 48)),
   (a + 16, BitVec.ofNat 64 (rows + cols * 2 ^ 32)), (a + 24, BitVec.ofNat 64 (pitch * 2 ^ 32))]

/-- The device with stove 0's scratchpad mapped at 0x200000. -/
def stoved (ws : List (Nat × U64)) : State := withWords (ready []) ((0x400008, 0x11000000007) :: ws)

/-- Whether a ring's command, alone in it, may start, and its computation ends as wanted with nothing in its way. -/
def runsAs (s : State) (r : RingId) (d : Desc) (body : Desc → Act Fin) (fin : Fin → Bool) : Bool :=
  let s := withCmd s r d
  s.starts ⟨r, d⟩ (entry d) &&
  match s.compute ⟨r, d⟩ (entry d) body with
  | .ok (f, x) => fin f && x.pois.isNone && !x.denied && !x.lost &&
      !((ringStove r).isSome && clash (s.toWorld.ringRun r).entries 0 x.rd x.wr) &&
      ((x.w.ringRun r).entries.find? fun y => y.idx == 0).isSome &&
      (x.w.ringRun r).entries.all fun q => (x.w.entryAway (x.w.maskEntry (jobOf q.desc) (liveOf q.desc))).isNone
  | .error _ => false

/-- The command meets what `Completes` asks. -/
def Ends (s : State) (r : RingId) (d : Desc) (body : Desc → Act Fin) : Prop :=
  (withCmd s r d).starts ⟨r, d⟩ (entry d) = true ∧ ∃ x, (withCmd s r d).computes ⟨r, d⟩ (entry d) body (.done stOk) x

/-- The command meets what `Accepts` asks. -/
def Waits (s : State) (r : RingId) (d : Desc) (body : Desc → Act Fin) : Prop :=
  (withCmd s r d).starts ⟨r, d⟩ (entry d) = true ∧ ∃ p x, (withCmd s r d).computes ⟨r, d⟩ (entry d) body (.wait p) x

def isWait : Fin → Bool
  | .wait _ => true
  | .done _ => false

theorem runsAs_spec {s : State} {r : RingId} {d : Desc} {body : Desc → Act Fin} {fin : Fin → Bool}
    (h : runsAs s r d body fin = true) : (withCmd s r d).starts ⟨r, d⟩ (entry d) = true ∧
    ∃ f x, fin f = true ∧ (withCmd s r d).computes ⟨r, d⟩ (entry d) body f x := by
  simp only [runsAs, Bool.and_eq_true] at h
  refine ⟨h.1, ?_⟩
  have h2 := h.2
  split at h2
  · rename_i f x e
    simp only [Bool.and_eq_true, Bool.not_eq_true', Option.isNone_iff_eq_none] at h2
    obtain ⟨⟨⟨⟨⟨⟨a, b⟩, c⟩, d'⟩, g⟩, i⟩, j⟩ := h2
    exact ⟨f, x, a, e, b, c, d', g, i, fun _ q hq => by simpa using List.all_eq_true.1 j q hq⟩
  · cases h2

theorem ends_of_run {s : State} {r : RingId} {d : Desc} {body : Desc → Act Fin}
    (h : runsAs s r d body (· == .done stOk) = true) : Ends s r d body := by
  obtain ⟨a, f, x, hf, c⟩ := runsAs_spec h
  rw [eq_of_beq hf] at c
  exact ⟨a, x, c⟩

theorem waits_of_run {s : State} {r : RingId} {d : Desc} {body : Desc → Act Fin} (h : runsAs s r d body isWait = true) :
    Waits s r d body := by
  obtain ⟨a, f, x, hf, c⟩ := runsAs_spec h
  cases f with
  | done _ => cases hf
  | wait p => exact ⟨a, p, x, c⟩

/-! ### The terms of the statements, decided -/

/-- A host's port with no earlier request that waits; and the owner's. -/
def hostB (s : State) (p : Nat) : Bool := s.dev.live && decide (p < 4) && s.toWorld.portUp p && !s.toWorld.portWaits p
def ownerB (s : State) (p : Nat) : Bool := hostB s p && s.dev.urk.owner == some p

theorem hosts_of {s : State} {p : Nat} (h : hostB s p = true) : s.hosts p := by
  simp only [hostB, Bool.and_eq_true, decide_eq_true_eq, Bool.not_eq_true'] at h
  exact ⟨h.1.1.1, h.1.1.2, h.1.2, h.2⟩

theorem owned_of {s : State} {p : Nat} (h : ownerB s p = true) : s.owned p := by
  simp only [ownerB, Bool.and_eq_true, beq_iff_eq] at h
  exact ⟨hosts_of h.1, h.2⟩

/-- No die reports a failed link. -/
def linksUp (s : State) : Bool :=
  (List.range 8).all (fun d => !bit (s.reg (rk (0x100 + d) 0x018)) 2) && (List.range 4).all (fun d => !bit (s.reg (rk (0x120 + d) 0x018)) 2) &&
    !bit (s.reg (rk 0x8C 0x018)) 2

theorem endFailed_of {s : State} (h : linksUp s = true) (x y : Nat) : s.toWorld.endFailed x y = false := by
  simp only [linksUp, Bool.and_eq_true, List.all_eq_true, Bool.not_eq_true', List.mem_range] at h
  obtain ⟨⟨h1, h2⟩, h3⟩ := h
  unfold World.endFailed linkState
  split
  · rfl
  · rename_i page off n e
    have hb : bit (s.toWorld.reg (rk page 0x018)) 2 = false := by
      split at e
      · cases e; exact h1 x ‹_›
      · split at e
        · cases e; exact h2 (x - 0x10) (by omega)
        · split at e
          · cases e; exact h3
          · cases e
    rw [hb, Bool.false_and]

theorem dieCut_of {s : State} (h : linksUp s = true) (x y : Nat) : s.toWorld.dieCut x y = false := by
  unfold World.dieCut
  rw [List.any_eq_false]
  intro l _
  simp [endFailed_of h]

/-- The state of `still`. -/
def stillB (s : State) : Bool :=
  decide (s.dev.urk.dir = [] ∧ s.dev.urk.home = [] ∧ s.dev.urk.snoops = [] ∧ s.dev.upsets = [] ∧ s.mem.poison = []) &&
    s.dev.snp.run.isNone && s.dev.stoves.all (fun x => x.saved.isEmpty) && linksUp s

theorem still_of {s : State} (h : stillB s = true) : s.still := by
  simp only [stillB, Bool.and_eq_true, decide_eq_true_eq, Option.isNone_iff_eq_none, List.all_eq_true, List.isEmpty_iff] at h
  obtain ⟨⟨⟨⟨h1, h2, h3, h4, h5⟩, h6⟩, h7⟩, h8⟩ := h
  exact ⟨h1, h2, h3, h4, h5, h6, h7, dieCut_of h8⟩

/-- Nothing waits anywhere. -/
def restB (s : State) : Bool :=
  s.dev.rings.all (fun x => !x.maskDue) && s.dev.blw.regions.all (fun r => r.unseen == 0) && s.dev.chm.arms.all (fun a => a.due.isEmpty) &&
    s.dev.chm.mcasts.isEmpty && s.dev.chm.rreads.all (fun q => q.rsp.isNone) && s.dev.chm.perm.isNone && s.dev.stk.dones.isEmpty
def calmB (s : State) : Bool :=
  s.dev.urk.home.isEmpty && s.dev.net.isEmpty && s.dev.snp.run.isNone && s.dev.snp.stalled.isEmpty && restB s

theorem rests_of {s : State} (h : restB s = true) : s.rests := by
  simp only [restB, Bool.and_eq_true, List.all_eq_true, Bool.not_eq_true', beq_iff_eq, List.isEmpty_iff,
    Option.isNone_iff_eq_none] at h
  obtain ⟨⟨⟨⟨⟨⟨a, b⟩, c⟩, d⟩, e⟩, f⟩, g⟩ := h
  exact ⟨a, b, c, d, e, f, g⟩

theorem calm_of {s : State} (h : calmB s = true) : s.calm := by
  simp only [calmB, Bool.and_eq_true, List.isEmpty_iff, Option.isNone_iff_eq_none] at h
  obtain ⟨⟨⟨⟨a, b⟩, c⟩, d⟩, e⟩ := h
  exact ⟨a, b, c, d, rests_of e⟩

/-- A ring's only command, of this opcode, may start. -/
def readyB (s : State) (c : Cmd) (e : Entry) (op : Nat) : Bool :=
  s.starts c e && opcodeOf c.desc == op && stillB s && (s.toWorld.ringRun c.ring).entries.all fun x => !x.waiting

theorem ready_of {s : State} {c : Cmd} {e : Entry} {op : Nat} (h : readyB s c e op = true) : s.ready c e op := by
  simp only [readyB, Bool.and_eq_true, beq_iff_eq, List.all_eq_true, Bool.not_eq_true'] at h
  exact ⟨⟨h.1.1.1, h.1.1.2, still_of h.1.2⟩, h.2⟩

theorem able_of {s : State} {c : Cmd} {e : Entry} {op : Nat} (h : readyB s c e op = true) : s.able c e op := (ready_of h).1

end Sys2Proof.Tests
end

