-- ==== Sys2Proof/Tests/Slice0.lean ====
section
/-! SUPPORT. An ill-formed term for each check of WellFormed, refused; the word decoder; and the spec's own worked examples. -/

namespace Sys2Proof.Tests
open Sys2Proof.Machine
set_option Elab.async false

/-! ### Well-formedness: the boundary values accepted and the next ones refused -/

theorem smoke_ringId : (∀ r ∈ [(⟨0x1000, 3⟩ : RingId), ⟨0x10FF, 0⟩, ⟨0x108, 3⟩, ⟨0x10F, 0⟩, ⟨0x120, 15⟩, ⟨0x123, 0⟩, ⟨6, 15⟩, ⟨0x40, 3⟩, ⟨0x4F, 0⟩], r.wf = true) ∧
    ∀ r ∈ [(⟨0x1000, 4⟩ : RingId), ⟨0x1100, 0⟩, ⟨0xFFF, 0⟩, ⟨0x108, 4⟩, ⟨0x107, 0⟩, ⟨0x110, 0⟩, ⟨0x120, 16⟩, ⟨0x11F, 0⟩, ⟨0x124, 0⟩, ⟨6, 16⟩, ⟨5, 0⟩,
      ⟨0x40, 4⟩, ⟨0x3F, 0⟩, ⟨0x50, 0⟩], r.wf = false := by decide +kernel

theorem smoke_command : (Instr.tileWs ⟨⟨0x1000, 0⟩, default⟩).wf = true ∧
    ∀ i ∈ [Instr.tileWs ⟨⟨0x1000, 4⟩, default⟩, .chmBucket ⟨⟨7, 0⟩, default⟩, .waitLineMet ⟨6, 16⟩, .completionRecord ⟨0x50, 0⟩], i.wf = false := by
  decide +kernel

/-- A network packet that is well formed, and the ways to leave a field's width. -/
def pkt : NetPkt := { (default : NetPkt) with vc := 5, typ := 255, payload := List.replicate 1024 0 }

theorem smoke_netPkt : pkt.wf = true ∧ { pkt with payload := List.replicate 8 0 }.wf = true ∧
    ∀ p ∈ [{ pkt with dst := 0x10000 }, { pkt with src := 0x10000 }, { pkt with vc := 6 }, { pkt with typ := 256 }, { pkt with job := 64 },
      { pkt with rdev := 8192 }, { pkt with status := 256 }, { pkt with tag := 0x10000 }, { pkt with a2 := 0x100000000 },
      { pkt with payload := List.replicate 1056 0 }, { pkt with payload := List.replicate 24 0 }],
      p.wf = false ∧ (Instr.rd p).wf = false ∧ (Instr.guestPacket 0 p).wf = false := by decide +kernel

/-- A Urrek packet that is well formed. -/
def urk : UrkPkt := { (default : UrkPkt) with port := 3, srcid := 255, tag := 4095, len := 4096, data := List.replicate 4096 0 }

theorem smoke_urkPkt : urk.wf = true ∧
    ∀ m ∈ [{ urk with port := 4 }, { urk with srcid := 256 }, { urk with tag := 4096 }, { urk with len := 4097 }, { urk with addr := 2 ^ 48 },
      { urk with mask := 2 ^ 128 }, { urk with data := List.replicate 4097 0 }], m.wf = false ∧ (Instr.wrUc m).wf = false := by decide +kernel

/-- A contribution that is well formed. -/
def contr : Contrib := { (default : Contrib) with job := 63, tag := 4095, cix := 8191, cfmt := 15, mbid := 1023, elems := List.replicate 256 0 }

theorem smoke_contrib : contr.wf = true ∧ { contr with empty := true, elems := [] }.wf = true ∧
    ∀ m ∈ [{ contr with job := 64 }, { contr with tag := 4096 }, { contr with step := 2 ^ 32 }, { contr with cix := 8192 }, { contr with chunk := 2 ^ 32 },
      { contr with nch := 2 ^ 32 }, { contr with cfmt := 16 }, { contr with mbid := 1024 }, { contr with elems := [0] }, { contr with empty := true }],
      (Instr.contrib m).wf = false := by decide +kernel

/-- A chunk partial and a result that are well formed, and a summary and a remote read at the top of their fields. -/
def partl : PartialMsg := { (default : PartialMsg) with tag := 4095, vals := List.replicate 256 0 }
def resul : ResultMsg := { (default : ResultMsg) with tag := 4095, codes := List.replicate 256 0 }
def summ : SummaryMsg := { (default : SummaryMsg) with tag := 4095, home := 8191 }
def rrd : RReadMsg := { (default : RReadMsg) with job := 63, dev := 8191, srcDev := 8191, wreg := 0x3FFF, expver := 0xFFFF }

theorem smoke_results : partl.wf = true ∧ resul.wf = true ∧ summ.wf = true ∧
    (∀ m ∈ [{ partl with tag := 4096 }, { partl with step := 2 ^ 32 }, { partl with vals := [] }], (Instr.arrivalPartial m).wf = false) ∧
    (∀ m ∈ [{ resul with tag := 4096 }, { resul with step := 2 ^ 32 }, { resul with codes := [] }], (Instr.mcastMemResult m).wf = false) ∧
    ∀ m ∈ [{ summ with tag := 4096 }, { summ with step := 2 ^ 32 }, { summ with home := 8192 }], (Instr.closeSummary m).wf = false := by decide +kernel

theorem smoke_rread : rrd.wf = true ∧
    ∀ m ∈ [{ rrd with job := 64 }, { rrd with dev := 8192 }, { rrd with srcDev := 8192 }, { rrd with addr := 2 ^ 48 }, { rrd with wreg := 0x4000 },
      { rrd with expver := 0x10000 }], (Instr.rreadRequest m).wf = false := by decide +kernel

/-- A fabric header, an event and an OPEN at the top of their fields. -/
def hdr : FabHdr := ⟨8191, false, 8191, 63, 5⟩
def evnt : EventPkt := ⟨0xFFFF, 255, 255, 0, 0⟩
def opn : OpenMsg := { (default : OpenMsg) with job := 63, srcDev := 8191, srcNode := 0xFFFF, srcCtx := 4095, target := 0xFFFFFFFF, role := 0xFFFF, epoch := 0xFFFF }

theorem smoke_packets : hdr.wf = true ∧ evnt.wf = true ∧ opn.wf = true ∧
    (∀ h ∈ [{ hdr with dst := 8192 }, { hdr with src := 8192 }, { hdr with ttl := 64 }, { hdr with vc := 6 }], (Instr.fabricPacket 17 h default).wf = false) ∧
    (∀ e ∈ [{ evnt with page := 0x10000 }, { evnt with code := 256 }, { evnt with qual := 256 }], (Instr.event e).wf = false) ∧
    ∀ m ∈ [{ opn with job := 64 }, { opn with srcDev := 8192 }, { opn with srcNode := 0x10000 }, { opn with srcCtx := 4096 }, { opn with target := 2 ^ 32 },
      { opn with role := 0x10000 }, { opn with epoch := 0x10000 }], (Instr.chnOpenPkt m).wf = false := by decide +kernel

/-- Well formed: every operand at the top of its range. -/
theorem smoke_operands_ok : ∀ i ∈ [Instr.create 3 63, .chnStall 4095, .fluePortDown 17, .preempt 255, .registerWrite 3 0xFFFF 0xFF8 0, .closeTick 4095 0xFFFFFFFF,
    .routingPass 63, .expertFetchDone 63 0xFFFF, .countBankSend 63 0xFFFFFFFF, .heldWriteRelease 0xFFFFFFF, .arbStarve 0xFFFF 127 31, .bind 3 255,
    .start 3 63 0xFFFFFFFFFFFF, .chnEp 3 7 255 0, .fluePortUp 17 8191 31, .flueFrame 17 4095 true ⟨0xFFFFFFFF, 0xFFFFFFFF⟩, .wregLoad 3 0x3FFF, .readerRelease 0x3FFF 1,
    .exdLoad 3 0xFFFF 0x1FFFF, .wbxHbmLoc 3 3 0, .scrubRead 0xFFFFFFFFFFFF (.corrected 31), .restore 3 1, .guestFlit 1 (List.replicate 256 0) true,
    .d2dLinkFail 0xFFFF 15, .urkReservedOp 3 255, .smbWritePwrLimit 0xFFFF, .bringUp { (default : BringUp) with straps := List.replicate 15 0 }], i.wf = true := by
  decide +kernel

/-- Ill formed: a port, a job, a context, a flue port, a stove, a register, a bucket, an arm or a key out of its range. -/
theorem smoke_operands : ∀ i ∈ [Instr.create 4 0, .create 0 64, .destroy 0 64, .start 0 0 0x1000000000000, .stop 0 0 0x100000000, .chnStall 4096, .chnFabort 0 4096,
    .chnRefuse 0 256, .chnCredit 0 (2 ^ 64), .chnEp 0 8 0 0, .chnEp 0 0 256 0, .fluePortDown 18, .fluePortUp 0 8192 0, .fluePortUp 0 0 32, .flueFrame 0 4096 true ⟨0, 0⟩, .flueFrame 0 0 true ⟨0, 0x100000000⟩,
    .flueNak 18 0, .preempt 256, .slotStart 256 0, .bind 0 256, .mbqEntryRetire 256, .registerWrite 4 0 0 0, .registerWrite 0 0x10000 0 0, .registerWrite 0 0 0x1000 0,
    .registerWrite 0 0 4 0, .closeTick 4096 0, .closeTick 0 0x100000000, .routingPass 64, .walkPass 64, .expertFetchDone 0 0x10000, .cacheRelease 64 0,
    .countBankSend 0 0x100000000, .ringBase 4 ⟨6, 0⟩ 0, .ringCtl 0 ⟨6, 16⟩ 0, .heldWriteRelease 0x10000000, .fslotClr 0 256 0, .healthEval 64 0, .draughtSync (2 ^ 64)], i.wf = false := by
  decide +kernel

/-- Ill formed: instance numbers, region and expert numbers, link numbers and widths of the remaining commands. -/
theorem smoke_operands2 : ∀ i ∈ [Instr.arbWatchdog 0x10000 0 0 none, .arbWatchdog 0 128 0 none, .arbWatchdog 0 0 32 none, .arbWatchdog 0 0 0 (some ⟨6, 16⟩), .arbStarve 0 0 32,
    .arrivalForward 0 0 0x100000000, .mcastReceive { (default : McastMsg) with job := 64 }, .gatherSlice { (default : GatherMsg) with gtag := 4096 },
    .permutePiece { (default : PieceMsg) with dst := 2 ^ 48 }, .permuteDone 0 8192, .wregLoad 0 0x4000, .blwSliceUpdate 8, .regionCommit 0x4000,
    .gatedRead ⟨64, 0, 0, .remote default⟩, .readerRelease 0 2, .exdLoad 0 0x10000 0, .exdClear 0 0 0x20000, .wbxHbmLoc 0 4 0, .slmSplitDone 4, .scrubRead (2 ^ 48) .clean,
    .scrubRead 0 (.corrected 32), .urkPortUp 4, .urkStoves 0 0 4 0, .ship 0 8192, .restore 0 2, .emberDoneMsg ⟨0, 0, 16⟩, .noticeN (2 ^ 64), .haltMessage (2 ^ 48) 0,
    .guestFlit 0 [] true, .guestIsolate 2, .grst 0 2, .powerOn (2 ^ 32), .bringUp default, .d2dLinkFail 0 16, .throttleUpdate { (default : PowerSample) with hot := 256 },
    .thermalTrip 256, .extest (2 ^ 64), .smbWritePwrLimit 0x10000, .urkLinkFrame 0 4096 true 0, .urkTrainingFail 0 256, .flueLaneFail 0 8, .urkReservedOp 0 256], i.wf = false := by
  decide +kernel

/-- No row of the table has bits, so no word spells a command. -/
theorem test_decodeTableWord : ∀ w ∈ [0, 1, 0xFFFF], decodeTableWord 16 w = none := by decide

/-! ### The spec's worked examples -/

/-- 02_number_formats.md: the L16 code 0x4316 is 150, and E4M3 writes it, 460, 464, 470, 500 and +Inf as the table says. -/
theorem test_convert_e4m3 : codeVal .l16 0x4316 = (.fin 150 1, false) ∧
    [(Val.fin 150 1), .fin 460 1, .fin 464 1, .fin 470 1, .fin 500 1, .inf false].map (fun v => encodeElem v .e4m3 .rne) =
      [(0x71, .none), (0x7E, .none), (0x7E, .none), (0x7E, .sat), (0x7E, .sat), (0x7E, .nonfin)] ∧
    encodeElem (.fin 150 1) .e4m3 (.sr 0x5A3C0000) = (0x72, .none) ∧ encodeElem (.fin 150 1) .e4m3 (.sr 0x60000000) = (0x71, .none) := by decide +kernel

/-- 02_number_formats.md: the narrow formats' cases, all by RNE but one by SR. -/
theorem test_convert_narrow : encodeElem (.fin 11 4) .e2m1 .rne = (5, .none) ∧ encodeElem (.fin 11 4) .e2m1 (.sr 0xD1E00000) = (4, .none) ∧
    encodeElem (.fin (-3) 16) .e2m1 .rne = (8, .zero) ∧ encodeElem (.fin 37 5) .int4 .rne = (7, .none) ∧ encodeElem (.fin 15 2) .int4 .rne = (7, .sat) ∧
    encodeElem (.fin 1 2) .t2 .rne = (0, .zero) ∧ encodeElem (.fin (-3) 2) .t2 .rne = (3, .sat) := by decide +kernel

/-- 02_number_formats.md: a subnormal H16 operand is flushed, and 1 + 2^-10 is 1.0 in L16. -/
theorem test_convert_h16 : decodeElem .h16 0x0200 (.fin 1 1) = (.zero false, .flush) ∧
    encodeElem (decodeElem .h16 0x3C01 (.fin 1 1)).1 .l16 .rne = (0x3F80, .none) := by decide +kernel

/-- 10_chimney.md: the sum 3.875 of seven of eight contributors as SUM, MEAN and SUM_RESCALED. -/
theorem test_close : [0, 1, 2].map (fun op => (encodeElem (closeVal op 8 7 (.fin 31 8)) .l16 .rne).1) = [0x4078, 0x3F0E, 0x408E] := by decide +kernel

/-- 01_organization.md: the strap byte of site H5, and the scratchpad of stove 177. -/
theorem test_organization : strapOk 0x0B 0 = true ∧ strapOk 0x0A 0 = false ∧ strapOk 0x0B 1 = false ∧ spAddr 177 = 0x01102C400000 := by decide

/-- Registers of the four woodboxes with 160 channels each, L, and the channels of S7 that are enabled. -/
def mapS (c l s7 : Nat) : World :=
  (ready ([0, 1, 2, 3].flatMap fun n => [(rk (0x120 + n) 0x080, BitVec.ofNat 64 (0xA00000 + c)), (rk (0x120 + n) 0x088, BitVec.ofNat 64 l)]) |>.toWorld) |>.upd fun d =>
    { d with regs := ((List.range 20).map fun k => (rk (0x140 + k) 0x080, BitVec.ofNat 64 (if k = 7 then s7 else 0xFFFFFFFF))) ++ d.regs }

/-- 13_memory.md: the three placements worked through R330. -/
theorem test_hbmLocate : (mapS 640 0 0xFFFFFFFF).hbmLocate 0x12345000 = some (13, 19, 0x74000) ∧
    (mapS 638 0 0xFFFFCFFF).hbmLocate 0x12345000 = some (13, 4, 0x74000) ∧
    (mapS 640 24576 0xFFFFFFFF).hbmLocate 0xE4C0003000 = some (8, 0, 0x5A000000) := by decide +kernel

end Sys2Proof.Tests
end

