-- ==== Sys2Proof/Tests/Witness1.lean ====
section
/-! SUPPORT. Witnesses: states and operands that meet the hypotheses of the statements about the step, memory, the common
commands, rings, preemption and arbiters. -/

namespace Sys2Proof.Tests
open Sys2Proof.Machine
set_option Elab.async false

/-! ### The step, memory, number formats -/

theorem witness_step : { ready with pending := [.xltInvDone, .syncSlip] }.pending = Instr.xltInvDone :: [.syncSlip] ∧
    step { ready with pending := [.xltInvDone, .syncSlip] } = exec .xltInvDone { ready with pending := [.syncSlip] } := ⟨rfl, rfl⟩

theorem witness_queue : (ready.pending = [] ∧ ready.dev.live = true) ∧ State.reset.pending = [] ∧ State.reset.dev.live = false := by
  decide +kernel

theorem witness_canonical : ready.Inv ∧ ∃ t, step ready = .next t := ⟨by unfold State.Inv; decide +kernel, _, rfl⟩

theorem witness_measured : State.reset.Measured ∧ ∃ t, step State.reset = .next t :=
  ⟨by unfold State.Measured; decide +kernel, _, rfl⟩

theorem witness_fuses : ∃ t, exec .xltInvDone ready = .next t := ⟨_, rfl⟩

theorem witness_fields : (63 < 64 ∧ 0 ≤ 63) ∧ (63 < 64 ∧ 63 ≤ 63) ∧ (0 < 64 ∧ 0 ≤ 0) := by decide

theorem witness_e2m1 : 15 < 16 ∧ (Val.fin 1 1).isNaN = false := by decide +kernel

theorem witness_encode : ∀ n d, Val.fin (-3) 2 = .fin n d → n ≠ 0 ∧ d ≠ 0 := by
  intro n d h
  cases h
  decide

theorem witness_codes : ∀ x ∈ [(Fmt.e2m1, 15), (.e4m3, 0x7E), (.e5m2, 0x7B), (.l16, 0x7F7F), (.h16, 0x7BFF), (.int8, 0x81), (.int4, 7), (.t2, 1)],
    x.2 < 2 ^ x.1.width ∧ invalidCode x.1 x.2 = false ∧ (codeVal x.1 x.2).2 = false ∧ (codeVal x.1 x.2).1.isNaN = false := by
  decide +kernel

/-! ### Common commands and waits -/

def cmdOf (r : RingId) (d : Desc) : Cmd := ⟨r, d⟩

def nopD : Desc := desc 0 0 0 0 0 0 0
def nopS : State := withCmd ready rStv nopD

theorem witness_nop : nopS.starts (cmdOf rStv nopD) (entry nopD) = true ∧ opcodeOf nopD = 0 ∧
    [nopD.w2, nopD.w3, nopD.w4, nopD.w5, nopD.w6, nopD.w7] = [0, 0, 0, 0, 0, 0] := by decide +kernel

def lineD (op : Nat) : Desc := desc op 0x100 0xABCD 0 0 0 0
def lineS (op : Nat) : State := withCmd ready rStv (lineD op)

theorem witness_writeLine : (lineS 1).starts (cmdOf rStv (lineD 1)) (entry (lineD 1)) = true ∧ opcodeOf (lineD 1) = 1 ∧
    [(lineD 1).w4, (lineD 1).w5, (lineD 1).w6, (lineD 1).w7] = [0, 0, 0, 0] ∧ fld (lineD 1).w2 63 48 = 0 ∧
    fld (lineD 1).w2 47 0 % 8 = 0 ∧ ((lineS 1).toWorld.xlate (agentOf rStv (entry (lineD 1))) (jobOf (lineD 1)) (fld (lineD 1).w2 47 0) true).1 = .ok 0x100 ∧
    (lineS 1).plain (engineNode 0x1000 0) 0x100 8 = true := by decide +kernel

/-- The threshold 0xABCD is not reached by an empty word, and 0 is. -/
def metD : Desc := desc 2 0x100 0 0 0 0 0
def metS : State := withCmd ready rStv metD

theorem witness_waitLine : (lineS 2).starts (cmdOf rStv (lineD 2)) (entry (lineD 2)) = true ∧ opcodeOf (lineD 2) = 2 ∧
    [(lineD 2).w5, (lineD 2).w6, (lineD 2).w7] = [0, 0, 0] ∧ fld (lineD 2).w2 63 48 = 0 ∧ fld (lineD 2).w2 47 0 % 8 = 0 ∧
    fld (lineD 2).w4 63 32 = 0 ∧ ((lineS 2).toWorld.xlate (agentOf rStv (entry (lineD 2))) (jobOf (lineD 2)) (fld (lineD 2).w2 47 0) false).1 = .ok 0x100 ∧
    (lineS 2).plain (engineNode 0x1000 0) 0x100 8 = true ∧ (lineS 2).poisonAt (lineOf 0x100) = false ∧
    ((lineS 2).toWorld.word 0x100 - (lineD 2).w3).toInt < 0 := by decide +kernel

theorem witness_waitLine_reached : metS.starts (cmdOf rStv metD) (entry metD) = true ∧ opcodeOf metD = 2 ∧
    [metD.w5, metD.w6, metD.w7] = [0, 0, 0] ∧ fld metD.w2 63 48 = 0 ∧ fld metD.w2 47 0 % 8 = 0 ∧ fld metD.w4 63 32 = 0 ∧
    (metS.toWorld.xlate (agentOf rStv (entry metD)) (jobOf metD) (fld metD.w2 47 0) false).1 = .ok 0x100 ∧ metS.plain (engineNode 0x1000 0) 0x100 8 = true ∧
    metS.poisonAt (lineOf 0x100) = false ∧ 0 ≤ (metS.toWorld.word 0x100 - metD.w3).toInt := by decide +kernel

def waitS (thr : U64) : State := withPhase ready rStv (lineD 2) (.waitLine 0x100 thr (some 3000))

theorem witness_waitLineMet : (waitS 0).dev.live = true ∧ (waitS 0).toWorld.lineWait rStv = some (0, 0x100, 0, some 3000) ∧
    (waitS 0).plain (engineNode rStv.page rStv.n) 0x100 8 = true ∧ (waitS 0).poisonAt (lineOf 0x100) = false ∧
    0 ≤ ((waitS 0).toWorld.word 0x100 - 0).toInt := by decide +kernel

theorem witness_waitLineTimeout : (waitS 5).dev.live = true ∧ (waitS 5).toWorld.lineWait rStv = some (0, 0x100, 5, some 3000) ∧
    (waitS 5).toWorld.place 0x100 = .hbm ∧ ((waitS 5).toWorld.word 0x100 - 5).toInt < 0 := by decide +kernel

/-! ### Rings -/

/-- An enabled ring at 0x8000 with sixteen slots, TAIL 1, nothing read; its page enabled. -/
def idleRing (r : RingId) (ctl : U64 := 0) : State :=
  let s := ready [(rk r.page 0x010, 1), (rgk r 0, 0x8009), (rgk r 8, 0x9000), (rgk r 0x10, 0xA000), (rgk r 0x38, ctl)]
  { s with dev := { s.dev with rings := [⟨r, 1, [], none, 0, false, false⟩] } }

theorem witness_commandFetch : (idleRing rWbx).dev.live = true ∧ ringExists rWbx = true ∧
    (idleRing rWbx).toWorld.ringReads rWbx = true ∧ (idleRing rWbx).toWorld.ringGroup rWbx = none ∧
    (((idleRing rWbx).toWorld.ringRun rWbx).entries.filter Entry.unstarted).length < 16 ∧
    ((idleRing rWbx).toWorld.ringRun rWbx).tail ≠ (idleRing rWbx).toWorld.ringHead rWbx ∧
    (idleRing rWbx).entry rWbx ((idleRing rWbx).toWorld.ringHead rWbx) = none ∧
    0x8000 = (idleRing rWbx).rf (rgk rWbx 0) 47 12 * 4096 +
      (idleRing rWbx).toWorld.ringHead rWbx % 2 ^ (idleRing rWbx).rf (rgk rWbx 0) 5 1 * 64 ∧
    (idleRing rWbx).plain (engineNode rWbx.page rWbx.n) 0x8000 64 = true ∧ (idleRing rWbx).poisonAt (lineOf 0x8000) = false := by
  decide +kernel

/-- The same ring with a watched line that says `n` commands. -/
def watched (n : Nat) : State := { idleRing rWbx with mem := ⟨(0xA000, BitVec.ofNat 8 n) :: (idleRing rWbx).mem.cells, []⟩ }

theorem witness_watchedLine : ∀ n ∈ [16, 17],
    (watched n).dev.live = true ∧ ringExists rWbx = true ∧ (watched n).toWorld.ringReads rWbx = true ∧
    (watched n).toWorld.isBound rWbx = false ∧ 0xA000 = (watched n).rf (rgk rWbx 0x10) 47 7 * 128 ∧
    (watched n).plain (engineNode rWbx.page rWbx.n) 0xA000 4 = true ∧ (watched n).poisonAt (lineOf 0xA000) = false ∧
    ((leNat ((watched n).toWorld.bytes 0xA000 4) + 2 ^ 32 - (watched n).toWorld.ringDone rWbx) % 2 ^ 32 ≤
      2 ^ (watched n).rf (rgk rWbx 0) 5 1 ↔ n = 16) := by decide +kernel

theorem witness_ringBase : ∀ v ∈ [0x8009, 0x8021], hostB ready 0 = true ∧ ringExists rWbx = true ∧
    ready.toWorld.ringPort rWbx = 0 ∧ ready.toWorld.ringDraining rWbx = false ∧
    ready.toWorld.heldAt rWbx.page (0x100 + 0x40 * rWbx.n) = false ∧ bit (ready.reg (rgk rWbx 0)) 0 = false ∧ 4 ≤ fld (BitVec.ofNat 64 v) 5 1 ∧
    fld (BitVec.ofNat 64 v) 5 1 ≤ 16 ∧ bit (BitVec.ofNat 64 v) 0 = true := by decide +kernel

theorem witness_ringCtl : hostB (idleRing rWbx) 0 = true ∧ ringExists rWbx = true ∧
    (idleRing rWbx).toWorld.ringPort rWbx = 0 ∧ fld (0x4 : U64) 1 0 = 0 ∧ bit (0x4 : U64) 2 = true ∧
    (idleRing rWbx).toWorld.ringHead rWbx = (idleRing rWbx).toWorld.ringDone rWbx := by decide +kernel

/-- A held write to RING_CBASE. -/
def heldC : HeldWrite := ⟨rk rWbx.page (0x108 + 0x40 * rWbx.n), 0, rWbx.page, 0x108 + 0x40 * rWbx.n, 0xB000, none⟩
def heldS : State := { idleRing rWbx with dev := { (idleRing rWbx).dev with held := [heldC] } }

theorem witness_heldWriteRelease : heldS.dev.live = true ∧ 0 < 4 ∧ ringExists rWbx = true ∧ heldS.toWorld.ringPort rWbx = 0 ∧
    heldS.toWorld.ringDraining rWbx = false ∧ heldS.dev.urk.home = [] ∧ heldS.dev.held = [heldC] := by decide +kernel

/-- A ring's port with an earlier register write of it that waits. -/
def behindS : State := { idleRing rWbx with dev := { (idleRing rWbx).dev with urk := { Urk.empty with
  home := [⟨regBase, .reg 0 0 0x400 0 none, none, none⟩] } } }

theorem witness_writeWaits : behindS.dev.live = true ∧ 0 < 4 ∧ ringExists rWbx = true ∧ behindS.toWorld.ringPort rWbx = 0 ∧
    behindS.toWorld.portUp 0 = true ∧ behindS.toWorld.portWaits 0 = true := by decide +kernel

/-- A completed command at DONE, its record at 0x9000. -/
def doneS : State :=
  let s := withPhase (idleRing rWbx) rWbx nopD .done
  { s with dev := { s.dev with regs := mapSet s.dev.regs (regReset (rgk rWbx 0)) (rgk rWbx 0) 0x8009 } }

theorem witness_completionRecord : doneS.dev.live = true ∧
    (doneS.toWorld.ringRun rWbx).entries = { entry nopD with phase := .done } :: [] ∧
    ({ entry nopD with phase := .done } : Entry).phase = .done ∧ doneS.dev.urk.reqs = [] ∧ doneS.dev.urk.home = [] ∧
    doneS.dev.stk.rts = [] ∧ doneS.dev.stk.kvs = [] ∧ notifyOf nopD = false ∧
    0x9000 = doneS.rf (rgk rWbx 0x08) 47 12 * 4096 + 0 % 2 ^ (entry nopD).log2 * 64 ∧
    doneS.plain (engineNode rWbx.page rWbx.n) 0x9000 64 = true ∧ ({ entry nopD with phase := .done } : Entry).status < 256 := by
  decide +kernel

/-- A descriptor whose header has a reserved bit set, of each kind of ring. -/
def badD (op : Nat) : Desc := { desc op 0 0 0 0 0 0 with w1 := 0x10000 }

theorem witness_refused : ∀ x ∈ [(0x70, rWbx), (0x20, rStv), (0x10, rStv), (0xD0, rStk)],
    let s := withCmd ready x.2 (badD x.1)
    s.dev.live = true ∧ ringExists x.2 = true ∧
    (s.toWorld.ringRun x.2).entries.find? Entry.unstarted = some (entry (badD x.1)) ∧ opcodeOf (badD x.1) = x.1 ∧
    s.toWorld.holds x.2 (entry (badD x.1)) = false ∧ s.toWorld.refusal x.2 (badD x.1) = some stOperand := by decide +kernel

/-- A command with FENCE behind one that is not recorded, and a command behind a waiting WAIT_LINE. -/
def fenceD (op : Nat) : Desc := { desc op 0 0 0 0 0 0 with w0 := BitVec.ofNat 64 (op + 0x20000) }
def heldCmd (r : RingId) (first : Entry) (d : Desc) : State :=
  { withCmd ready r d with dev := { (withCmd ready r d).dev with rings := [⟨r, 2, [first, { entry d with idx := 1 }], none, 0, false, false⟩] } }
def doneE : Entry := { entry nopD with phase := .done }
def waitE : Entry := { entry (lineD 2) with phase := .waitLine 0x100 5 none }

theorem witness_held_fence : ∀ x ∈ [(0, rStv), (1, rStv), (0x71, rWbx), (0x18, rStv)],
    let s := heldCmd x.2 doneE (fenceD x.1)
    let e := { entry (fenceD x.1) with idx := 1 }
    s.dev.live = true ∧ ringExists x.2 = true ∧ (s.toWorld.ringRun x.2).entries.find? Entry.unstarted = some e ∧
    opcodeOf (fenceD x.1) = x.1 ∧ fenceOf e.desc = true ∧ s.toWorld.ringDone x.2 ≠ e.idx := by decide +kernel

theorem witness_held_wait : ∀ x ∈ [(0, rStv), (1, rStv), (0x71, rWbx), (0x18, rStv)],
    let s := heldCmd x.2 waitE (desc x.1 0 0 0 0 0 0)
    let e := { entry (desc x.1 0 0 0 0 0 0) with idx := 1 }
    s.dev.live = true ∧ ringExists x.2 = true ∧ (s.toWorld.ringRun x.2).entries.find? Entry.unstarted = some e ∧
    opcodeOf (desc x.1 0 0 0 0 0 0) = x.1 ∧
    (∃ y ∈ (s.toWorld.ringRun x.2).entries.takeWhile (fun y => y.idx != e.idx), y.waitsLine = true) := by decide +kernel

end Sys2Proof.Tests
end

