-- ==== Sys2Proof/Tests/Witness10.lean ====
section
/-! SUPPORT. Witnesses for the statements about power, bring-up, die links, throttles, and the debug and management ports. -/

namespace Sys2Proof.Tests
open Sys2Proof.Machine
set_option Elab.async false

/-! ### Supply, reset and bring-up -/

/-- The reset state with another supply or an input voltage last seen. -/
def supplyS (sup : Supply) (vin : Nat) (low : Bool) : State :=
  State.reset.modPwr fun p => { p with supply := sup, vin := vin, reset := low }

theorem witness_restarts : (supplyS .off 36000 false).dev.pwr.supply = .off ∧ (∀ mv ∈ [38500, 63000], turnsOn (supplyS .off 36000 false).dev.pwr mv = true) ∧
    turnsOn (supplyS .off 63001 false).dev.pwr 60999 = true ∧ (supplyS .on 48000 false).dev.pwr.supply = .on ∧
    (35999 < 36000 ∨ 63000 < 35999) ∧ (63001 < 36000 ∨ 63000 < 63001) ∧
    (∀ h, (supplyS .on 48000 h).dev.pwr.supply = .on ∧ (supplyS .on 48000 h).dev.pwr.reset = h) ∧ 110 ≤ 110 := by decide +kernel

theorem witness_mgtReset : (owned ready).owned 0 := owned_of (by decide +kernel)

theorem witness_noCrossing : (supplyS .on 48000 false).dev.pwr.supply = .on ∧ 36000 ≤ 36000 ∧ 63000 ≤ 63000 ∧
    (∀ h, (supplyS .on 48000 !h).dev.pwr.reset = !h) ∧ 109 < 110 := by decide +kernel

/-- Strap bytes of the thirteen on-package dies and their silicon classes (R21, R22). -/
def boot (first : Nat) (bad : Bool) : BringUp where
  straps := [first, 2, 4, 7, 8, 11, 13, 14, 0x20, 0x23, 0x25, 0x26, 0x40, 0, 0]
  silicon := [0, 0, 0, 0, 0, 0, 0, 0, 1, 1, 1, 1, 2]
  linkFail := []
  dataLanes := []
  caLanes := []
  stackFail := []
  adapters := []
  guests := []
  bootRom := []
  selfTestFail := bad
  blwFail := []
  ms := 400

theorem witness_bringUp_held : State.reset.dev.pwr.supply = .on ∧ State.reset.dev.pwr.reset = false ∧
    State.reset.dev.pwr.frozen = false ∧ State.reset.rf devSts 11 8 = 2 ∧ State.reset.dev.pwr.die.length = 15 ∧
    State.reset.sec.meas = measOf State.reset.sec.log ∧ 0 < 13 ∧
    strapOk ((boot 0 false).straps.getD 0 0 % 256) ((boot 0 false).silicon.getD 0 8) = false := by decide +kernel

/-- A bundle of a KIND with an empty body under a vendor key of zeros, its signature zeros. -/
def bundle0 (kind : Nat) : Bundle where
  header := leBytes 4 0x5A424E44 ++ leBytes 2 kind ++ leBytes 2 1 ++ leBytes 8 0 ++ sm3 [] ++ List.replicate 208 0
  body := []
  readErr := false
def flashSec : Sec := { Sec.initial with keyHash := sm3 (List.replicate 64 0), flash := [⟨0, 1, bundle0 1⟩, ⟨0, 2, bundle0 2⟩] }
def bootS : State := { State.reset with sec := flashSec }

/-- Under a signature check that accepts (its result is a free value of the model) the bundle is valid. -/
theorem bundle0_ok {kind : Nat} (hk : kind = 1 ∨ kind = 2) (hv : ∀ k m g, Config.sm2Verify k m g = true) :
    bundleCode flashSec kind (bundle0 kind) = 0 := by
  have h : leAt (bundle0 kind).header 0 4 = 0x5A424E44 ∧ leAt (bundle0 kind).header 4 2 = kind ∧ leAt (bundle0 kind).header 6 2 = 1 ∧
      leAt (bundle0 kind).header 0x0C 4 = 0 ∧ sm3 (bytesAt (bundle0 kind).header 0x30 64) = flashSec.keyHash ∧
      leAt (bundle0 kind).header 8 1 = 0 ∧ sm3 ((bundle0 kind).body.take 0) = bytesAt (bundle0 kind).header 0x10 32 ∧
      (bundle0 kind).readErr = false ∧ flashSec.fwMin = 0 ∧ flashSec.cfgMin = 0 := by
    rcases hk with rfl | rfl <;> decide +kernel
  obtain ⟨a, b, c, d, e, f, g, i, j, k⟩ := h
  simp only [bundleCode, headerCode, a, b, c, d, e, f, g, i, j, k, hv]
  simp

theorem witness_bringUp (hv : ∀ k m g, Config.sm2Verify k m g = true) : ∀ bad,
    bootS.dev.pwr.supply = .on ∧ bootS.dev.pwr.reset = false ∧ bootS.dev.pwr.frozen = false ∧ bootS.rf devSts 11 8 = 2 ∧
    bootS.dev.pwr.die.length = 15 ∧ bootS.Measured ∧
    (∀ i, i < 13 → strapOk ((boot 1 bad).straps.getD i 0 % 256) ((boot 1 bad).silicon.getD i 8) = true) ∧
    bootS.dev.pwr.badStraps = [] ∧ (boot 1 bad).linkFail = [] ∧ (boot 1 bad).dataLanes = [] ∧ (boot 1 bad).caLanes = [] ∧ (boot 1 bad).stackFail = [] ∧ (boot 1 bad).blwFail = [] ∧
    (boot 1 bad).guests = [] ∧ bootS.sec.ordered % 4 = 0 ∧ (bootS.sec.pick 1).isSome = true ∧ (bootS.sec.pick 2).isSome = true ∧
    bootS.sec.log = [] ∧ (boot 1 bad).selfTestFail = bad := by
  intro bad
  have hs : ∀ i, i < 13 → strapOk ((boot 1 bad).straps.getD i 0 % 256) ((boot 1 bad).silicon.getD i 8) = true := by
    show ∀ i, i < 13 → strapOk ((boot 1 false).straps.getD i 0 % 256) ((boot 1 false).silicon.getD i 8) = true
    decide +kernel
  have h1 : flashSec.bundle 0 1 = some (bundle0 1) := rfl
  have h2 : flashSec.bundle 0 2 = some (bundle0 2) := rfl
  have h3 : flashSec.bundle 1 1 = none := rfl
  have h4 : flashSec.bundle 1 2 = none := rfl
  have hp : ∀ kind, kind = 1 ∨ kind = 2 → (flashSec.pick kind).isSome = true := by
    intro kind hk
    have hb := bundle0_ok hk hv
    rcases hk with rfl | rfl <;> simp [Sec.pick, Sec.slotCode, h1, h2, h3, h4, hb]
  exact ⟨rfl, rfl, rfl, by decide +kernel, rfl, rfl, hs, rfl, rfl, rfl, rfl, rfl, rfl, rfl, by decide +kernel, hp 1 (.inl rfl), hp 2 (.inr rfl), rfl, rfl⟩

/-! ### Freeze -/

def freezeS (f : Option Nat) : State := ready.modPwr fun p => { p with freezeAt := f }

theorem witness_freeze : ready.dev.live = true ∧ (freezeS none).dev.pwr.freezeAt = none ∧ (freezeS (some 1500)).dev.live = true ∧
    (freezeS (some 1500)).dev.pwr.freezeAt = some 1500 ∧ (freezeS (some 1500)).dev.pwr.die.length = 15 := by decide +kernel

/-! ### Die links, throttles, limits -/

/-- The link state registers of a hearth, a woodbox and the mantel, with no events sent. -/
def linksS (v : U64) : State :=
  ready [(rk 0x107 0x0B8, v), (rk 0x123 0xB68, v), (rk 0x8C 0x188, v), (rk 0x107 0x010, 1), (rk 0x123 0x010, 1), (rk 0x8C 0x010, 1)]

theorem witness_d2dLinkFail : ∀ x ∈ [(0x107, 6), (0x123, 12), (0x8C, 16)], ∃ k, (linksS 0x8820).dev.live = true ∧
    linkReg x.1 = some (k, x.2) ∧ x.2 - 1 < x.2 ∧ bit ((linksS 0x8820).reg k) (x.2 - 1) = true ∧
    bit ((linksS 0x8820).reg (rk x.1 0x010)) 2 = false ∧ bit ((linksS 0x8820).reg (rk x.1 0x010)) 3 = false ∧
    bit ((linksS 0x20).reg k) 4 = false := by
  intro x hx
  simp only [List.mem_cons, List.not_mem_nil, or_false] at hx
  rcases hx with rfl | rfl | rfl
  · exact ⟨rk 0x107 0x0B8, by decide +kernel⟩
  · exact ⟨rk 0x123 0xB68, by decide +kernel⟩
  · exact ⟨rk 0x8C 0x188, by decide +kernel⟩

def throttleS : State := (ready [(rk 0 0x010, 1)]).modPwr fun p => { p with demand := 15, under := 9 }

theorem witness_throttle : throttleS.dev.live = true ∧ bit (throttleS.reg (rk 0 0x010)) 3 = false ∧ throttleS.dev.pwr.demand ≤ 15 ∧
    throttleS.rf (rk 0 0x098) 15 0 < 65535 ∧ 0 ≤ throttleS.rf (rk 0 0x098) 15 0 ∧ throttleS.dev.pwr.under + 1 = 10 := by decide +kernel

theorem witness_temps : ready.dev.live = true ∧ 103 ≤ 103 ∧ 100 < 101 ∧ (101 ≤ 102 ∧ 102 < 103) ∧ 19 < 20 ∧ 95 ≤ 95 ∧ 92 < 93 := by
  decide +kernel

/-! ### Debug and management -/

theorem witness_tap : ((owned ready).modPwr fun p => { p with trst := true }).dev.tapOn = false ∧ State.reset.dev.tapOn = true := by decide +kernel

def dbgS (a : U64) : State := ready.modPwr fun p => { p with dbgAddr := a }

theorem witness_dbgdata : ∀ w ∈ [0, 2 ^ 48], let s := dbgS (BitVec.ofNat 64 (w + 0x3008))
    s.dev.tapOn = true ∧ s.dev.live = true ∧ 0x3008 = fld s.dev.pwr.dbgAddr 47 0 ∧ 0x3008 % 8 = 0 ∧ s.plain 0x2036 0x3008 8 = true ∧
    (bit s.dev.pwr.dbgAddr 48 = true ↔ w = 2 ^ 48) ∧ s.poisonAt (lineOf 0x3008) = false := by decide +kernel

theorem witness_dbgdata_frozen : ∀ w ∈ [0, 2 ^ 48], let s := (dbgS (BitVec.ofNat 64 (w + 0x3008))).modPwr fun p => { p with frozen := true }
    s.dev.tapOn = true ∧ s.dev.live = false ∧ 0x3008 = fld s.dev.pwr.dbgAddr 47 0 ∧ (bit s.dev.pwr.dbgAddr 48 = true ↔ w = 2 ^ 48) ∧
    s.toWorld.place 0x3008 = .hbm := by decide +kernel

theorem witness_smb : (ready [(rk 0 0x080, 0x601)]).dev.smbOn = true ∧ State.reset.dev.smbOn = false := by decide +kernel

end Sys2Proof.Tests
end

