-- ==== Sys2Proof/Tests/Witness3.lean ====
section
/-! SUPPORT. Witnesses for the statements about engine commands: operands with which each may start and its computation ends. -/

namespace Sys2Proof.Tests
open Sys2Proof.Machine
set_option Elab.async false

/-- Whether a started command's computation goes on from its state and ends as wanted with nothing in its way. -/
def resumesAs (s : State) (r : RingId) (e : Entry) (a : Act Fin) (fin : Fin) : Bool :=
  match a.run { Run.init s.toWorld (agentOf r e) with cnt := e.counts, stamp := e.stamp } with
  | .ok (f, x) => f == fin && x.pois.isNone && !x.denied && !x.lost &&
      !((ringStove r).isSome && clash (s.toWorld.ringRun r).entries e.idx x.rd x.wr) &&
      ((x.w.ringRun r).entries.find? fun y => y.idx == e.idx).isSome
  | .error _ => false

theorem resumes_of_run {s : State} {r : RingId} {e : Entry} {a : Act Fin} {fin : Fin} (h : resumesAs s r e a fin = true) :
    ∃ x, s.resumes r e a fin x := by
  unfold resumesAs at h
  split at h
  · rename_i f x k
    simp only [Bool.and_eq_true, Bool.not_eq_true', Option.isNone_iff_eq_none, beq_iff_eq] at h
    obtain ⟨⟨⟨⟨⟨a', b⟩, c⟩, d'⟩, g⟩, i⟩ := h
    subst a'
    exact ⟨x, k, b, c, d', g, i⟩
  · cases h

/-- The computation of CHM_PERMUTE leaves a round that is not whole. -/
def permCheck (s : State) (d : Desc) : Bool :=
  s.starts ⟨rChm, d⟩ (entry d) && opcodeOf d == 0x85 &&
  match s.compute ⟨rChm, d⟩ (entry d) chmPermute with
  | .ok (f, x) => f == .wait (.fabric (fld d.w5 63 48)) && x.pois.isNone && !x.denied && !x.lost &&
      ((x.w.ringRun rChm).entries.find? fun y => y.idx == 0).isSome && (match x.w.dev.chm.perm with
      | some p => !p.excess && (p.got != p.inbytes || decide (p.dones < p.npart))
      | none => false)
  | .error _ => false

theorem permCheck_spec {s : State} {d : Desc} (h : permCheck s d = true) : ∃ x p, s.starts ⟨rChm, d⟩ (entry d) = true ∧
    opcodeOf d = 0x85 ∧ s.computes ⟨rChm, d⟩ (entry d) chmPermute (.wait (.fabric (fld d.w5 63 48))) x ∧
    x.w.dev.chm.perm = some p ∧ p.excess = false ∧ (p.got ≠ p.inbytes ∨ p.dones < p.npart) := by
  simp only [permCheck, Bool.and_eq_true] at h
  obtain ⟨⟨h1, h2⟩, h3⟩ := h
  split at h3
  · rename_i f x k
    simp only [Bool.and_eq_true, Bool.not_eq_true', Option.isNone_iff_eq_none, beq_iff_eq] at h3 h2
    obtain ⟨⟨⟨⟨⟨a, b⟩, c⟩, d'⟩, i⟩, q⟩ := h3
    subst a
    split at q
    · rename_i p hp
      simp only [Bool.and_eq_true, Bool.or_eq_true, Bool.not_eq_true', bne_iff_ne, decide_eq_true_eq] at q
      exact ⟨x, p, h1, h2, ⟨k, b, c, d', rfl, i, fun h => absurd (show (ringStove rChm).isSome = true from h) (by decide)⟩, hp, q.1, q.2⟩
    · cases q
  · cases h3

/-! ### The Hob -/

/-- Two small tensors in stove 0's scratchpad, the second one column wide; function slot 0 loaded. -/
def hobW : List (Nat × U64) := tensorAt 0x1000 0x200000 2 1 2 256 ++ tensorAt 0x1080 0x200400 2 1 1 256
def hobS : State :=
  let s := stoved hobW
  { s with dev := { s.dev with stoves := [{ Stove.empty 0 with slots := [⟨0, 0, List.replicate 528 0⟩] }] } }

/-- A Hob operation: result tensor, ARG and rows. -/
def hobD (op dst arg : Nat) (n : Nat := 0) : Desc :=
  desc 0x18 0x1000 0x1000 0x1000 (BitVec.ofNat 64 dst) (BitVec.ofNat 64 (op + arg * 256)) (BitVec.ofNat 64 (n * 2 ^ 32))

theorem witness_hobOp : ∀ op, op < 0x43 → opcodeOf (hobD op 0x1000 0) = 0x18 ∧ fld (hobD op 0x1000 0).w6 7 0 = op := by
  decide +kernel

theorem witness_elementwise :
    Ends hobS rStv (hobD 0x0 0x1000 0) (vecRows 1 false noBad (un id)) ∧
    Ends hobS rStv (hobD 0x1 0x1000 0 1) (vecRows 2 false noBad (bin fun a b => rneF32 (a.add b))) ∧
    Ends hobS rStv (hobD 0x2 0x1000 0) (vecRows 2 false noBad (bin fun a b => rneF32 (a.sub b))) ∧
    Ends hobS rStv (hobD 0x3 0x1000 0) (vecRows 2 false noBad (bin fun a b => rneF32 (a.mul b))) ∧
    Ends hobS rStv (hobD 0x4 0x1000 0) (vecRows 3 false noBad (tern fun a b c => rneF32 ((a.mul b).add c))) ∧
    Ends hobS rStv (hobD 0x5 0x1000 0) (vecRows 2 false noBad (bin hmax)) ∧
    Ends hobS rStv (hobD 0x6 0x1000 0) (vecRows 2 false noBad (bin hmin)) ∧
    Ends hobS rStv (hobD 0x7 0x1000 0) (vecRows 1 false noBad (un Val.abs)) ∧
    Ends hobS rStv (hobD 0x8 0x1000 0) (vecRows 1 false noBad (un Val.neg)) ∧
    Ends hobS rStv (hobD 0x9 0x1000 0) (vecRows 1 false noBad fun v s j => un (fun a => rneF32 (a.mul v.imm)) v s j) ∧
    Ends hobS rStv (hobD 0xa 0x1000 0) (vecRows 2 false noBad (bin fun a b => rneF32 (a.div b))) ∧
    Ends hobS rStv (hobD 0xb 0x1000 0) (vecRows 1 false noBad (un hobSqrt)) ∧
    Ends hobS rStv (hobD 0xc 0x1000 0) (vecRows 1 false noBad (un hobRsqrt)) ∧
    Ends hobS rStv (hobD 0xd 0x1000 0) (vecRows 1 false noBad (un fun a => rneF32 a.inv)) ∧
    Ends hobS rStv (hobD 0xe 0x1000 0) (vecRows 1 false noBad (un hobExp2)) ∧
    Ends hobS rStv (hobD 0xf 0x1000 0) (vecRows 1 false noBad (un hobLog2)) ∧
    Ends hobS rStv (hobD 0x10 0x1000 0) (vecRows 1 false slotBad fun v s j => un (fun a => rneF32 (slotFn false v s j a)) v s j) ∧
    Ends hobS rStv (hobD 0x11 0x1000 0) (vecRows 2 false slotBad fun v s j => bin (fun a b => rneF32 (a.mul (slotFn true v s j b))) v s j) :=
  ⟨ends_of_run (by decide +kernel), ends_of_run (by decide +kernel), ends_of_run (by decide +kernel),
   ends_of_run (by decide +kernel), ends_of_run (by decide +kernel), ends_of_run (by decide +kernel),
   ends_of_run (by decide +kernel), ends_of_run (by decide +kernel), ends_of_run (by decide +kernel),
   ends_of_run (by decide +kernel), ends_of_run (by decide +kernel), ends_of_run (by decide +kernel),
   ends_of_run (by decide +kernel), ends_of_run (by decide +kernel), ends_of_run (by decide +kernel),
   ends_of_run (by decide +kernel), ends_of_run (by decide +kernel), ends_of_run (by decide +kernel)⟩

theorem witness_rows :
    Ends hobS rStv (hobD 0x20 0x1080 0 1) (vecRows 1 true noBad (whole rowSum)) ∧
    Ends hobS rStv (hobD 0x21 0x1080 0) (vecRows 1 true noBad (whole rowMax)) ∧
    Ends hobS rStv (hobD 0x22 0x1080 0) (vecRows 1 true noBad (whole rowSumSq)) ∧
    Ends hobS rStv (hobD 0x23 0x1000 0) softmax ∧
    Ends hobS rStv (hobD 0x24 0x1000 0) (vecWhole 2 fun v xs => match xs with | [a, b] => rmsRow v.imm a b | _ => []) ∧
    Ends hobS rStv (hobD 0x25 0x1000 0) (vecWhole 3 fun v xs => match xs with | [a, b, g] => layerRow v.imm a b g | _ => []) ∧
    Ends hobS rStv (hobD 0x30 0x200500 1) topk ∧
    Ends hobS rStv (hobD 0x30 0x200500 16) topk :=
  ⟨ends_of_run (by decide +kernel), ends_of_run (by decide +kernel), ends_of_run (by decide +kernel),
   ends_of_run (by decide +kernel), ends_of_run (by decide +kernel), ends_of_run (by decide +kernel),
   ends_of_run (by decide +kernel), ends_of_run (by decide +kernel)⟩

/-- A region of one slice, 1 × 1, and tensors that hold the slice in the scratchpad. -/
def region0 : Region :=
  { index := 3, words := [0, 0, 0, 0, 0, 0, 0, 0], descs := List.replicate 7 [0x210000, 0, 0x100000001, 0x10000000000],
    cv := 5, arm := none, isOpen := false, credits := 0, readers0 := 0, readers1 := 0, pend := [], unseen := 0 }
def withRegion (s : State) (r : Region) : State := { s with dev := { s.dev with blw := { s.dev.blw with regions := [r] } } }
def optW : List (Nat × U64) :=
  tensorAt 0x1400 0x210000 0 1 1 256 ++ tensorAt 0x1480 0x218000 0 1 1 256 ++ tensorAt 0x14A0 0x21A000 1 1 1 256 ++
  [(0x1500, 0x1400), (0x1508, 0x1400), (0x1510, 0x1480), (0x1518, 0x14A0), (0x1528, 3)]
def streamArm : UpdArm := ⟨5, true, rBlw, 0, 0, [], 0, 0⟩
def step5 (d : Desc) : Desc := { d with w1 := 0x500000000 }

theorem witness_optimiser :
    Ends (withRegion (stoved optW) region0) rStv (desc 0x18 0x1400 0x1400 0 0x1500 0x140 0) optSlice ∧
    Ends (withRegion ready { region0 with arm := some streamArm }) rStv (desc 0x18 0 3 0 0 0x41 0x100000000) optCommit ∧
    Ends (withRegion ready { region0 with arm := some streamArm }) rStv (step5 (desc 0x18 0 3 0 0 0x42 0)) optOpen ∧
    Waits (withRegion ready region0) rStv (step5 (desc 0x18 0 3 0 0 0x42 0)) optOpen :=
  ⟨ends_of_run (by decide +kernel), ends_of_run (by decide +kernel), ends_of_run (by decide +kernel),
   waits_of_run (by decide +kernel)⟩

/-! ### Tiles -/

/-- Stationary, streamed, output and adaptation tensors; the streamed ones have a static scale under which a large element
overflows INT4 and INT8. -/
def tileW : List (Nat × U64) :=
  tensorAt 0x1100 0x201000 0 32 1 256 ++ tensorAt 0x1140 0x202000 2 1 32 256
def osW : List (Nat × U64) := tensorAt 0x12C0 0x206000 2 32 1 256
def adaptW : List (Nat × U64) :=
  tensorAt 0x1200 0x201000 0 32 1 256 ++ tensorAt 0x1220 0x204000 9 16 1 256 ++ tensorAt 0x1240 0x202000 2 1 32 256 ++
  tensorAt 0x1260 0x205000 2 1 32 256 ++ tensorAt 0x1180 0x203000 2 1 1 256
def overW : List (Nat × U64) := tensorAt 0x1100 0x201000 0 32 1 256 ++ tensorAt 0x1140 0x202000 2 1 32 256 0x3000
def loud : List (Nat × U64) := [(0x11000002000, 0x3FE0), (0x11000006000, 0x3FE0)]
/-- The device whose recipe for activations streams INT4 with static scales, or E2M1, and the fireguard's limit at 0. -/
def guarded (recipe : U64) (s : State) : State :=
  { s with dev := { s.dev with jobs := [{ job0 with recipe := job0.recipe.set 2 (recipe, 0) }] } }
def wsD (op : Nat) (a b out w5 : U64) : Desc := desc op a b out w5 0 0

theorem witness_tileWs :
    Ends (stoved tileW) rStv (wsD 0x10 0x1100 0x1140 0 0) (tileWs false 0) ∧
    Waits (guarded 0x10604000 (stoved (tileW ++ loud))) rStv (wsD 0x10 0x1100 0x1140 0 0x400000000000) (tileWs false 0) :=
  ⟨ends_of_run (by decide +kernel), waits_of_run (by decide +kernel)⟩

theorem witness_tileOs :
    Ends (stoved osW) rStv (wsD 0x11 0x12C0 0x12C0 0 0xF00000000) (tileOs 0) ∧
    Waits (guarded 0x10604000 (stoved (osW ++ loud))) rStv (wsD 0x11 0x12C0 0x12C0 0 0x1F00000000) (tileOs 0) :=
  ⟨ends_of_run (by decide +kernel), waits_of_run (by decide +kernel)⟩

theorem witness_tileAdapt :
    Ends (stoved adaptW) rStv (wsD 0x12 0x1200 0x1240 0x1180 0x20000000000000) (tileWs true 0) ∧
    Waits (guarded 0x10604000 (stoved (adaptW ++ loud))) rStv (wsD 0x12 0x1200 0x1240 0x1180 0x20400000000000) (tileWs true 0) :=
  ⟨ends_of_run (by decide +kernel), waits_of_run (by decide +kernel)⟩

/-- A TILE_WS that waits for its replay, or for the release of its replay. -/
def overD : Desc := wsD 0x10 0x1100 0x1140 0 0x400000000000
def overE : Entry := { entry overD with phase := .over }
def overS : State := withPhase (guarded 0x12504000 (stoved (overW ++ loud))) rStv overD .over
def tileD : Desc := wsD 0x10 0x1100 0x1140 0 0x400000000000
def tileE : Entry := { entry tileD with phase := .replay }
def replayS : State := withPhase (guarded 0x10604000 (stoved (tileW ++ loud))) rStv tileD .replay

theorem witness_fgOver : overS.dev.live = true ∧
    (overS.toWorld.ringRun rStv).entries.find? (fun y => y.phase == .over) = some overE ∧ overS.entry rStv 0 = some overE ∧
    ∃ x, overS.resumes rStv overE (tileAttempt 2 overD) (.done stFireguard) x :=
  ⟨by decide +kernel, by decide +kernel, by decide +kernel, resumes_of_run (by decide +kernel)⟩

/-- The state in which a replay runs: it has been counted. -/
def replayS' : State := { replayS with dev := (replayS.toWorld.count (rk rStv.page 0x0A0) 31 0 1).dev }

theorem witness_replay : replayS.dev.live = true ∧
    (replayS.toWorld.ringRun rStv).entries.find? (fun y => y.phase == .replay) = some tileE ∧ replayS.entry rStv 0 = some tileE ∧
    ∃ x, replayS'.resumes rStv tileE (tileAttempt 1 tileD) (.done stOk) x :=
  ⟨by decide +kernel, by decide +kernel, by decide +kernel, resumes_of_run (by decide +kernel)⟩

/-! ### Attention, MOVE, FSLOT, REGEN, UPD_ARM -/

/-- A query and an output tensor of one row of 64, and the operand block of ATTN_BWD. -/
def attnW : List (Nat × U64) := tensorAt 0x1280 0x206000 2 1 64 256
def attnBW : List (Nat × U64) := attnW ++ [(0x1300, 0x1280), (0x1308, 0x1280), (0x1310, 0x220000), (0x1318, 0x240000)]

theorem witness_attnFwd :
    Ends (stoved attnW) rStv (desc 0x50 0x1280 0x210000 0x220000 0 0x80800000 0) attnFwd :=
  ends_of_run (by decide +kernel)

theorem witness_attnBwd :
    Ends (stoved attnBW) rStv (desc 0x51 0x1300 0x210000 0 0 0x80800000 0) attnBwd :=
  ends_of_run (by decide +kernel)

theorem witness_attnFin :
    Ends (stoved attnW) rStv (desc 0x52 0x220000 0x1280 0 0 0 0) attnFin :=
  ends_of_run (by decide +kernel)

theorem witness_attnDelta :
    Ends (stoved attnW) rStv (desc 0x53 0x1280 0x1280 0x220000 0 0 0) attnDelta :=
  ends_of_run (by decide +kernel)

theorem witness_attnAppend :
    Ends (stoved attnW) rStv (desc 0x55 0x1280 0x1280 0x230000 0 0 0) attnAppend :=
  ends_of_run (by decide +kernel)

theorem witness_moves :
    Ends (stoved []) rStv (desc 0x20 0x2000 0x200000 32 0 0 0) move ∧
    Waits (stoved []) rStv (desc 0x20 0x2000 0x200000 32 0x40000000 0 0) move ∧
    Ends ready rStv (desc 0x21 0x2000 0 0 0 0 0) fslot ∧
    Ends (withRegion (stoved []) region0) rBlw (desc 0x61 3 0 0 0 0 0) regen ∧
    Waits (withRegion ready region0) rBlw (step5 (desc 0x60 0x4003 0 0 0 0 0)) updArm :=
  ⟨ends_of_run (by decide +kernel), waits_of_run (by decide +kernel), ends_of_run (by decide +kernel),
   ends_of_run (by decide +kernel), waits_of_run (by decide +kernel)⟩

theorem witness_updArm_alone : ∀ q ∈ (withCmd (withRegion ready region0) rBlw (step5 (desc 0x60 0x4003 0 0 0 0 0))).dev.rings,
    ∀ x ∈ q.entries, x.phase ≠ .optOpen := by decide +kernel

/-! ### Copies -/

theorem witness_copies :
    Ends ready rWbx (desc 0x70 0x2000 0x3000 32 0 0 0) copyCmd ∧
    Ends ready rWbx (desc 0x71 0x2000 0x3000 32 0 0 0) fillCmd ∧
    Ends ready rWbx (desc 0x72 0x2000 0x3000 0x100000020 0x4000000020 0 0) copy2dCmd :=
  ⟨ends_of_run (by decide +kernel), ends_of_run (by decide +kernel), ends_of_run (by decide +kernel)⟩

/-- Physical FILL and COPY of a line by the owner's ring. -/
def physD (op : Nat) : Desc := desc op 0x1000000000080 0x1000 128 0 0 0
def physS (op : Nat) : State := withCmd (owned ready) rWbx (physD op)

theorem witness_physFill : (physS 0x71).starts ⟨rWbx, physD 0x71⟩ (entry (physD 0x71)) = true ∧ opcodeOf (physD 0x71) = 0x71 ∧
    (physS 0x71).dev.urk.owner = some ((physS 0x71).toWorld.ringPort rWbx) ∧ 0x80 = fld (physD 0x71).w2 47 0 ∧
    128 = fld (physD 0x71).w4 39 0 ∧ bit (physD 0x71).w2 48 = true ∧ fld (physD 0x71).w2 63 49 = 0 ∧ fld (physD 0x71).w4 63 40 = 0 ∧
    [(physD 0x71).w5, (physD 0x71).w6, (physD 0x71).w7] = [0, 0, 0] ∧ 0x80 % 32 = 0 ∧ 128 % 32 = 0 ∧ 0 < 128 ∧
    (physS 0x71).plain (engineNode rWbx.page rWbx.n) 0x80 128 = true := by decide +kernel

theorem witness_physCopy : (physS 0x70).starts ⟨rWbx, physD 0x70⟩ (entry (physD 0x70)) = true ∧ opcodeOf (physD 0x70) = 0x70 ∧
    (physS 0x70).dev.urk.owner = some ((physS 0x70).toWorld.ringPort rWbx) ∧ 0x80 = fld (physD 0x70).w2 47 0 ∧
    0x1000 = fld (physD 0x70).w3 47 0 ∧ 128 = fld (physD 0x70).w4 39 0 ∧ bit (physD 0x70).w2 48 = true ∧
    fld (physD 0x70).w2 63 50 = 0 ∧ fld (physD 0x70).w3 63 48 = 0 ∧ fld (physD 0x70).w4 63 40 = 0 ∧
    [(physD 0x70).w5, (physD 0x70).w6, (physD 0x70).w7] = [0, 0, 0] ∧ 0x80 + 128 ≤ 0x1000 ∧
    (physS 0x70).plain (engineNode rWbx.page rWbx.n) 0x80 128 = true ∧
    (physS 0x70).plain (engineNode rWbx.page rWbx.n) 0x1000 128 = true ∧ (physS 0x70).poisonAt (lineOf 0x80) = false := by
  decide +kernel

/-! ### Channels -/

/-- Endpoint 0 of stove 0 enabled for job 0; a receive ring descriptor at 0x1600; rings and flows as given. -/
def chnS (rs : List RxRing) (fs : List SFlow) : State :=
  let s := withWords (ready [(epKey 0 0, 1), (rk 6 0x080, 0x2000)]) [(0x1600, 0xC000000010000), (0x1608, 0x12000), (0x1610, 0x12080)]
  { s with dev := { s.dev with chn := ⟨rs, [], fs, []⟩ } }
def flow0 : SFlow :=
  { ctx := 7, job := 0, stove := 0, target := 0, epoch := 0, peerDev := 0, peerNode := 0, peerCtx := 4, st := .isOpen, cmd := none
    result := 0x2000, deadline := 0, maxmsg := 64, maxbulk := 0, log2 := 12, mbq := false, ash := 0, nb := 0, tail := 0, head := 0
    aTail := 0, aHead := 0, mseq := 0, bulks := 0, bulkEnds := [], since := none, ovfAt := 0, stallAt := 0, stalled := false
    spilled := [], reason := none, res := (0, 0) }
def rx0 : RxRing :=
  ⟨0, 0, 0, 0, 0x1600, [0xC000000010000, 0x12000, 0x12080, 0, 0, 0, 0, 0], [(0x10000, 4096)], 0x12000, 0x12080, [], [], none⟩

theorem witness_channelCommands :
    Ends (chnS [] []) rStv (desc 0x22 0x1600 0 0 0 0 0) chnPost ∧
    Waits (chnS [] []) rStv (desc 0x23 0 0 0x2000 0 0 0) chnOpen ∧
    Waits (chnS [] [flow0]) rStv (desc 0x24 7 0x3000 32 0 0 0) chnSend ∧
    Waits (chnS [] [flow0]) rStv (desc 0x25 7 0 0 0 0 0) chnClose ∧
    Ends (chnS [rx0] []) rStv (desc 0x25 0x1000 0x1600 0 0 0 0) chnWithdraw :=
  ⟨ends_of_run (by decide +kernel), waits_of_run (by decide +kernel), waits_of_run (by decide +kernel),
   waits_of_run (by decide +kernel), ends_of_run (by decide +kernel)⟩

theorem witness_closeForms : (opcodeOf (desc 0x25 7 0 0 0 0 0) = 0x25 ∧ bit (desc 0x25 7 0 0 0 0 0).w2 12 = false) ∧
    opcodeOf (desc 0x25 0x1000 0x1600 0 0 0 0) = 0x25 ∧ bit (desc 0x25 0x1000 0x1600 0 0 0 0).w2 12 = true := by decide +kernel

/-! ### The Chimney and the stokers -/

/-- A bucket descriptor at 0x1640 with one chunk, homed here; arms as given. -/
def chmS (as : List Arm) : State :=
  let s := withWords (ready [(rk 6 0x080, 0x2000)]) [(0x1640, 0x40409), (0x1648, 0x1000000000001), (0x1650, 0x1600), (0x1658, 0x4000),
    (0x1660, 0x4800), (0x1668, 0x4C00), (0x1670, 0x1000000000010)]
  { s with dev := { s.dev with chm := { s.dev.chm with arms := as } } }
/-- The arm of that bucket for step 5: tag 0x409, one chunk, one contributor, roles HOME and CONTRIB, close tick 16. -/
def arm0 : Arm :=
  ⟨0x409, 5, 0, rChm, 3, 9, [0x40409, 0x1000000000001, 0x1600, 0x4000, 0x4800, 0x4C00, 0x1000000000010, 0], [(0, 0)], 16, 3, [], [], [],
    [], [], [], 0, false, [], [], false, [], [], none, []⟩

theorem witness_chimneyCommands :
    Waits (chmS []) rChm (step5 (desc 0x80 0x1000000001640 0 0 0 0 0)) chmBucket ∧
    Ends (chmS [arm0]) rChm (step5 (desc 0x81 0x409 0x100000000 0x5000 0 0 0)) chmContrib ∧
    Ends (chmS [arm0]) rChm (step5 (desc 0x82 0x409 0x100000000 0 0 0 0)) chmEmpty ∧
    Ends (chmS []) rChm (desc 0x83 0x5000 0x6000 64 0 0 0) chmMcast ∧
    Ends (chmS []) rChm (desc 0x84 0x5000 0x6000 64 0 0 0) chmRread ∧
    Waits (chmS []) rChm (desc 0x84 0x5000 0x6000 64 0x40000000 0 0) chmRread :=
  ⟨waits_of_run (by decide +kernel), ends_of_run (by decide +kernel), ends_of_run (by decide +kernel),
   ends_of_run (by decide +kernel), ends_of_run (by decide +kernel), waits_of_run (by decide +kernel)⟩

/-- CHM_PERMUTE of no pieces with one participant whose DONE has not come. -/
def permD : Desc := desc 0x85 0 0 0x100000000 0x3000000000000 0 0

theorem witness_permute : ∃ x p, (withCmd (chmS []) rChm permD).starts ⟨rChm, permD⟩ (entry permD) = true ∧ opcodeOf permD = 0x85 ∧
    (withCmd (chmS []) rChm permD).computes ⟨rChm, permD⟩ (entry permD) chmPermute (.wait (.fabric (fld permD.w5 63 48))) x ∧
    x.w.dev.chm.perm = some p ∧ p.excess = false ∧ (p.got ≠ p.inbytes ∨ p.dones < p.npart) := by
  have h : permCheck (withCmd (chmS []) rChm permD) permD = true := by decide +kernel
  exact permCheck_spec h

/-- A group of stove 3 bound, a routing descriptor at 0x2000, a walk descriptor at 0x2200, and one directory entry; virtual
addresses from 0x400000 are SLM scratchpad. -/
def stkS (rts : List RtArm) (kvs : List KvArm) : State :=
  let s := withWords (ready [(rgk ⟨0x1003, 1⟩ 0, 0x8009), (rk 0x124 0x088, 0x10)]) [(0x400010, 0x10000000007), (0x2000, 0x1000004101),
    (0x2008, 0x10040020000001), (0x2028, 0x8000), (0x2030, 0x1000), (0x2040, 0x400000), (0x2048, 0x10001), (0x2058, 0x2100),
    (0x2060, 0x2100), (0x2070, 0x7000), (0x2128, 0x100000000), (0x2200, 0x101), (0x2248, 0x7000)]
  { s with dev := { s.dev with
      bound := [⟨1, 0, 0, false, 7, false, [(0x10009, 0)], 0, 0, [⟨3, [], []⟩], 0, false, 0, false, false⟩]
      stk := ⟨[(0x10, [0x40000000, 0, 0, 0])], rts, kvs, [], []⟩ } }
def rt0 : RtArm := ⟨2, 0x40, 0, List.replicate 16 0, [], [], [], 0, [], none, none, [], [], none, []⟩
def kv0 : KvArm := ⟨2, 0x40, 0, List.replicate 16 0, [], false, none, []⟩

theorem witness_stokerCommands :
    Ends (stkS [] []) rStk (desc 0xD0 0x2000000002000 0 0 0 0 0) rtArmCmd ∧
    Ends (stkS [rt0] []) rStk (desc 0xD1 2 0 0 0 0 0) rtDisarm ∧
    Ends (stkS [] []) rStk (desc 0xD8 0x2000000002200 0 0 0 0 0) kvArmCmd ∧
    Ends (stkS [] [kv0]) rStk (desc 0xD9 2 0 0 0 0 0) kvDisarmCmd :=
  ⟨ends_of_run (by decide +kernel), ends_of_run (by decide +kernel), ends_of_run (by decide +kernel),
   ends_of_run (by decide +kernel)⟩

end Sys2Proof.Tests
end

