-- ==== Sys2Proof/Tests/Witness11.lean ====
section
/-! SUPPORT. Witnesses for the statements that give operands with which a tile, attention, copy or update command completes. -/

namespace Sys2Proof.Tests
open Sys2Proof.Machine
set_option Elab.async false

/-! ### The terms of the statements, decided -/

theorem getD_some {α : Type} {o : Option α} (d : α) (h : o.isSome = true) : o = some (o.getD d) := by
  cases o with
  | none => cases h
  | some x => rfl

theorem banked_of {s : State} {j k : Nat} (h : (s.toWorld.job j).all (fun x => !x.zeroWait.contains k) = true) : s.banked j k := by
  intro x e
  rw [e] at h
  simpa using h

/-- A region of an unscaled tensor that may be read, and one that may be written. -/
def plainB (r : Recipe) : Bool := decide (r.sf = .none) && r.block == 0
def operandB (s : State) (ag : Agent) (t : Tensor) (i m c n : Nat) : Bool :=
  let r := s.toWorld.recipe (ag.job.getD 0) t.kind
  plainB r && t.aligned r && t.holds i m c n && (t.ranges r i m c n).all (fun x => s.inPad ag x.1 x.2 false) &&
    (s.elemsAt ag t r i m c n).isSome
def resultB (s : State) (ag : Agent) (t : Tensor) (i m c n : Nat) : Bool :=
  let r := s.toWorld.recipe (ag.job.getD 0) t.kind
  plainB r && !r.perCh && t.aligned r && t.holds i m c n && t.srFits r && (t.ranges r i m c n).all fun x => s.inPad ag x.1 x.2 true

/-- Its elements. -/
def elems (s : State) (ag : Agent) (t : Tensor) (i m c n : Nat) : List (List Elem) :=
  (s.elemsAt ag t (s.toWorld.recipe (ag.job.getD 0) t.kind) i m c n).getD []

theorem plain_of {r : Recipe} (h : plainB r = true) : r.plain := by
  simpa [plainB, Recipe.plain] using h

theorem operand_of {s : State} {ag : Agent} {t : Tensor} {i m c n : Nat} (h : operandB s ag t i m c n = true) :
    s.operand ag t i m c n (elems s ag t i m c n) := by
  simp only [operandB, Bool.and_eq_true, List.all_eq_true] at h
  exact ⟨plain_of h.1.1.1.1, h.1.1.1.2, h.1.1.2, h.1.2, getD_some [] h.2⟩

theorem result_of {s : State} {ag : Agent} {t : Tensor} {i m c n : Nat} (h : resultB s ag t i m c n = true) :
    s.result ag t i m c n := by
  simp only [resultB, Bool.and_eq_true, List.all_eq_true, Bool.not_eq_true'] at h
  exact ⟨plain_of h.1.1.1.1.1, h.1.1.1.1.2, h.1.1.1.2, h.1.1.2, h.1.2, h.2⟩

/-- Ranges that translate apart. -/
def tableLines (s : State) (job : Nat) (rs : List (Nat × Nat)) : List Nat := (rs.flatMap fun y => s.tables job y.1).eraseDups
def sparesB (s : State) (job : Nat) (rs : List (Nat × Nat)) (pa n : Nat) : Bool :=
  (tableLines s job rs).all fun l => decide (l + 128 ≤ pa) || decide (pa + n ≤ l)
def reachB (s : State) (ag : Agent) (rs : List (Nat × Nat)) (write : Bool) : Bool := rs.all fun x => (s.span ag x.1 x.2 write).isSome
def undisturbedB (s : State) (ag : Agent) (reads writes : List (Nat × Nat)) : Bool :=
  reachB s ag reads false && reachB s ag writes true && writes.all fun x =>
    (s.span ag x.1 x.2 true).all fun pa => sparesB s (ag.job.getD 0) (reads ++ writes) pa x.2
def apartB (s : State) (job step tid : Nat) (rs : List (Nat × Nat)) : Bool :=
  (s.toWorld.job job).all fun x => sparesB s job rs (healthAddr x step tid) 64

theorem spares_of {s : State} {job pa n : Nat} {rs : List (Nat × Nat)} (h : sparesB s job rs pa n = true) : s.spares job rs pa n := by
  simp only [sparesB, tableLines, List.all_eq_true, Bool.or_eq_true, decide_eq_true_eq, List.mem_eraseDups, List.mem_flatMap] at h
  exact fun y hy l hl => h l ⟨y, hy, hl⟩

theorem reach_of {s : State} {ag : Agent} {rs : List (Nat × Nat)} {write : Bool} (h : reachB s ag rs write = true) :
    s.reach ag rs write := by
  simp only [reachB, List.all_eq_true] at h
  exact h

theorem undisturbed_of {s : State} {ag : Agent} {reads writes : List (Nat × Nat)} (h : undisturbedB s ag reads writes = true) :
    s.undisturbed ag reads writes := by
  simp only [undisturbedB, Bool.and_eq_true, List.all_eq_true] at h
  refine ⟨reach_of h.1.1, reach_of h.1.2, fun x hx pa e => ?_⟩
  have := h.2 x hx
  rw [e] at this
  exact spares_of (by simpa using this)

theorem apart_of {s : State} {job step tid : Nat} {rs : List (Nat × Nat)} (h : apartB s job step tid rs = true) :
    s.recordApart job step tid rs := by
  intro x e
  unfold apartB at h
  rw [e] at h
  exact spares_of (by simpa using h)

/-- The tensor descriptor that a job reads at an address. -/
def tens (s : State) (ag : Agent) (a : Nat) : Tensor := (s.tensorAt ag a).getD (tensorOf 0 0 0 0)

/-- The operands of a TILE_WS. -/
def wsTileB (s : State) (ag : Agent) (d : Desc) : Bool :=
  let k0 := fld d.w3 63 48 * 16
  let kt := (fld d.w5 51 46 + 1) * 16
  let stat := tens s ag (fld d.w2 47 0)
  let strm := tens s ag (fld d.w3 47 0)
  decide (d.w4 = 0 ∧ d.w6 = 0 ∧ d.w7 = 0 ∧ fld d.w5 53 52 = 0 ∧ bit d.w5 55 = false ∧ bit d.w5 63 = false ∧
    fld d.w2 47 0 % 32 = 0 ∧ fld d.w3 47 0 % 32 = 0 ∧ kt ≤ kmax (s.toWorld.recipe (ag.job.getD 0) stat.kind).fmt ∧
    fld d.w5 45 32 < 1024 ∧ ((s.toWorld.stove (ag.stove.getD 0)).set (fld d.w5 54 54)).live = false) &&
  (s.tensorAt ag (fld d.w2 47 0)).isSome && (s.tensorAt ag (fld d.w3 47 0)).isSome &&
  operandB s ag stat k0 kt (fld d.w2 63 48 * 128) (fld d.w5 62 56 + 1) &&
  operandB s ag strm (fld d.w5 31 0) (fld d.w5 45 32 + 1) k0 kt

/-- Its elements. -/
def wsStat (s : State) (ag : Agent) (d : Desc) : List (List Elem) :=
  elems s ag (tens s ag (fld d.w2 47 0)) (fld d.w3 63 48 * 16) ((fld d.w5 51 46 + 1) * 16) (fld d.w2 63 48 * 128) (fld d.w5 62 56 + 1)
def wsStrm (s : State) (ag : Agent) (d : Desc) : List (List Elem) :=
  elems s ag (tens s ag (fld d.w3 47 0)) (fld d.w5 31 0) (fld d.w5 45 32 + 1) (fld d.w3 63 48 * 16) ((fld d.w5 51 46 + 1) * 16)

theorem wsTile_of {s : State} {ag : Agent} {d : Desc} (h : wsTileB s ag d = true) :
    s.wsTile ag d (tens s ag (fld d.w2 47 0)) (tens s ag (fld d.w3 47 0)) (wsStat s ag d) (wsStrm s ag d) := by
  simp only [wsTileB, Bool.and_eq_true, decide_eq_true_eq] at h
  obtain ⟨⟨⟨⟨⟨a, b, c, d', e, f, g, i, j, k, l⟩, m⟩, n⟩, o⟩, q⟩ := h
  exact ⟨a, b, c, d', e, f, g, i, getD_some _ m, getD_some _ n, operand_of o, operand_of q, j, k, l⟩

/-! ### Tiles -/

theorem witness_tileWs_forms : let d := wsD 0x10 0x1100 0x1140 0 0
    let s := withCmd (stoved tileW) rStv d
    let ag := agentOf rStv (entry d)
    s.ready ⟨rStv, d⟩ (entry d) 0x10 ∧ ringStove rStv = some 0 ∧
    s.wsTile ag d (tens s ag 0x1100) (tens s ag 0x1140) (wsStat s ag d) (wsStrm s ag d) ∧
    (s.toWorld.recipe (jobOf d) (tens s ag 0x1140).kind).stream = none := by
  intro d s ag
  have h : wsTileB s ag d = true := by decide +kernel
  exact ⟨ready_of (by decide +kernel), by decide +kernel, wsTile_of h, by decide +kernel⟩

theorem witness_tileOs_forms : let d := wsD 0x11 0x12C0 0x12C0 0 0xF00000000
    let s := withCmd (stoved osW) rStv d
    let ag := agentOf rStv (entry d)
    s.ready ⟨rStv, d⟩ (entry d) 0x11 ∧ (ringStove rStv = some 0 ∧ d.w4 = 0 ∧ d.w6 = 0 ∧ fld d.w7 31 7 = 0 ∧ fld d.w5 55 46 = 0 ∧
      bit d.w5 63 = false ∧ fld d.w2 47 0 % 32 = 0 ∧ fld d.w3 47 0 % 32 = 0 ∧ fld d.w2 47 0 = 0x12C0 ∧ fld d.w3 47 0 = 0x12C0 ∧
      fld d.w5 31 0 = 0 ∧ fld d.w5 45 32 + 1 = 16 ∧ fld d.w5 62 56 + 1 = 1 ∧ fld d.w7 6 0 + 1 = 1 ∧ fld d.w2 63 48 * 128 = 0 ∧
      fld d.w3 63 48 * 128 = 0) ∧ s.tensorAt ag 0x12C0 = some (tens s ag 0x12C0) ∧
    s.operand ag (tens s ag 0x12C0) 0 16 0 1 (elems s ag (tens s ag 0x12C0) 0 16 0 1) ∧
    (s.toWorld.recipe (jobOf d) (tens s ag 0x12C0).kind).stream = none ∧ (s.toWorld.stove 0).os.live = false := by
  intro d s ag
  exact ⟨ready_of (by decide +kernel), by decide +kernel, getD_some _ (by decide +kernel), operand_of (by decide +kernel),
    by decide +kernel, by decide +kernel⟩

theorem witness_tileAdapt_forms : let d := wsD 0x12 0x1200 0x1240 0x1180 0x20000000000000
    let s := withCmd (stoved adaptW) rStv d
    let ag := agentOf rStv (entry d)
    let t := tens s ag
    s.ready ⟨rStv, d⟩ (entry d) 0x12 ∧ (ringStove rStv = some 0 ∧ fld d.w4 63 48 = 0 ∧ d.w6 = 0 ∧ fld d.w7 63 8 = 0 ∧
      fld d.w5 53 52 = 2 ∧ bit d.w5 55 = false ∧ bit d.w5 63 = false ∧ fld d.w2 47 0 % 64 = 0 ∧ fld d.w3 47 0 % 64 = 0 ∧
      fld d.w4 47 0 % 32 = 0 ∧ fld d.w2 47 0 = 0x1200 ∧ fld d.w3 47 0 = 0x1240 ∧ fld d.w4 47 0 = 0x1180 ∧ fld d.w3 63 48 * 16 = 0 ∧
      (fld d.w5 51 46 + 1) * 16 = 16 ∧ fld d.w2 63 48 * 128 = 0 ∧ fld d.w5 62 56 + 1 = 1 ∧ fld d.w5 31 0 = 0 ∧
      fld d.w5 45 32 + 1 = 1 ∧ fld d.w7 7 0 + 1 = 1) ∧
    (∀ a ∈ [0x1200, 0x1220, 0x1240, 0x1260, 0x1180], s.tensorAt ag a = some (t a)) ∧
    s.operand ag (t 0x1200) 0 16 0 1 (elems s ag (t 0x1200) 0 16 0 1) ∧ s.operand ag (t 0x1240) 0 1 0 16 (elems s ag (t 0x1240) 0 1 0 16) ∧
    s.operand ag (t 0x1220) 0 1 0 1 (elems s ag (t 0x1220) 0 1 0 1) ∧ s.operand ag (t 0x1260) 0 1 0 1 (elems s ag (t 0x1260) 0 1 0 1) ∧
    s.result ag (t 0x1180) 0 1 0 1 ∧ s.banked (jobOf d) (stepOf d) ∧ ((t 0x1220).kind = 9 ∧ (t 0x1240).kind = (t 0x1260).kind ∧
      16 ≤ kmax (s.toWorld.recipe (jobOf d) (t 0x1200).kind).fmt ∧ 1 ≤ kmax (s.toWorld.recipe (jobOf d) (t 0x1220).kind).fmt ∧
      (s.toWorld.recipe (jobOf d) (t 0x1240).kind).stream = none ∧ ((s.toWorld.stove 0).set (fld d.w5 54 54)).live = false) := by
  intro d s ag t
  have h : ∀ a ∈ [0x1200, 0x1220, 0x1240, 0x1260, 0x1180], (s.tensorAt ag a).isSome = true := by decide +kernel
  exact ⟨ready_of (by decide +kernel), by decide +kernel, fun a m => getD_some _ (h a m), operand_of (by decide +kernel),
    operand_of (by decide +kernel), operand_of (by decide +kernel), operand_of (by decide +kernel), result_of (by decide +kernel),
    banked_of (by decide +kernel), by decide +kernel⟩

/-- The streamed operand of the TILE_WS that waits for its replay. -/
def replayO : StreamOp :=
  let ag := agentOf rStv tileE
  ⟨tens replayS ag 0x1140, replayS.toWorld.recipe 0 (tens replayS ag 0x1140).kind, wsStrm replayS ag tileD⟩

theorem witness_replay_forms : replayS.still ∧ (replayS.toWorld.ringRun rStv).entries = [tileE] ∧
    (tileE.desc = tileD ∧ opcodeOf tileD = 0x10 ∧ (ringStove rStv).isSome = true ∧ tileE.phase = .replay) ∧
    replayS.wsTile (agentOf rStv tileE) tileD (tens replayS (agentOf rStv tileE) 0x1100) (tens replayS (agentOf rStv tileE) 0x1140)
      (wsStat replayS (agentOf rStv tileE) tileD) (wsStrm replayS (agentOf rStv tileE) tileD) ∧
    replayS.banked (jobOf tileD) (stepOf tileD) ∧ fgVerdict 1 (fgCount [(replayO, (replayO.enter true).2.2.2)]) = none := by
  have h : wsTileB replayS (agentOf rStv tileE) tileD = true := by decide +kernel
  exact ⟨still_of (by decide +kernel), by decide +kernel, by decide +kernel, wsTile_of h, banked_of (by decide +kernel), by decide +kernel⟩

theorem witness_fgOver_forms : overS.still ∧ (overS.toWorld.ringRun rStv).entries = [overE] ∧
    (overE.desc = overD ∧ opcodeOf overD = 0x10 ∧ overE.phase = .over) ∧
    overS.wsTile (agentOf rStv overE) overD (tens overS (agentOf rStv overE) 0x1100) (tens overS (agentOf rStv overE) 0x1140)
      (wsStat overS (agentOf rStv overE) overD) (wsStrm overS (agentOf rStv overE) overD) ∧ overS.banked (jobOf overD) (stepOf overD) := by
  have h : wsTileB overS (agentOf rStv overE) overD = true := by decide +kernel
  exact ⟨still_of (by decide +kernel), by decide +kernel, by decide +kernel, wsTile_of h, banked_of (by decide +kernel)⟩

/-! ### Attention -/

theorem mapM_isSome {α β : Type} {f : α → Option β} : ∀ {l : List α}, (∀ x ∈ l, (f x).isSome = true) → (l.mapM f).isSome = true
  | [], _ => rfl
  | a :: l, h => by
    obtain ⟨y, hy⟩ := Option.isSome_iff_exists.1 (h a List.mem_cons_self)
    obtain ⟨ys, hys⟩ := Option.isSome_iff_exists.1 (mapM_isSome fun x hx => h x (List.mem_cons_of_mem a hx))
    simp [List.mapM_cons, hy, hys]

/-- A page whose entry is `e` for an access; a range within it, in HBM, the SLM or a scratchpad. -/
def entryB (s : State) (ag : Agent) (vpn e : Nat) (write : Bool) : Bool :=
  (match s.toWorld.walk ag.node (ag.job.getD 0) vpn with | .ok x => x == e | _ => false) &&
    (s.toWorld.cachedXlt (ag.job.getD 0) vpn).all (fun c => c.entry.toNat == e) && e.testBit (if write then 2 else 1)
def withinB (s : State) (vpn e va n : Nat) : Bool :=
  bits va 47 21 == vpn && decide (va % 0x200000 + n ≤ 0x200000) && (lines (bits e 47 21 * 0x200000 + va % 0x200000) n).all fun l =>
    match s.toWorld.place l with | .hbm | .slm _ | .scratch _ => true | _ => false

theorem span_within {s : State} {ag : Agent} {vpn e va n : Nat} {write : Bool} (h : entryB s ag vpn e write = true)
    (g : withinB s vpn e va n = true) : s.span ag va n write = some (bits e 47 21 * 0x200000 + va % 0x200000) := by
  simp only [entryB, Bool.and_eq_true] at h
  simp only [withinB, Bool.and_eq_true, beq_iff_eq] at g
  obtain ⟨⟨h1, h2⟩, h3⟩ := h
  split at h1
  · rename_i x hx
    have hm : s.mapped ag va write = some (bits e 47 21 * 0x200000 + va % 0x200000) := by
      rw [beq_iff_eq] at h1
      subst h1
      unfold State.mapped
      rw [g.1.1, hx]
      simp only [h2, h3, Bool.and_true]
      rfl
    unfold State.span
    rw [hm, Option.filter_some]
    exact if_pos (by simpa only [Bool.and_eq_true] using ⟨g.1.2, g.2⟩)
  · cases h1

/-- Ranges of one page, whose entry is `e`, that translate apart: the lines of the page's own table entries lie outside each. -/
def apartInB (s : State) (job vpn pa n : Nat) : Bool :=
  (s.tables job (vpn * 0x200000)).all fun l => decide (l + 128 ≤ pa) || decide (pa + n ≤ l)

theorem tables_within {s : State} {job va vpn : Nat} (hv : vpn < 2 ^ 27) (h : bits va 47 21 = vpn) :
    s.tables job va = s.tables job (vpn * 0x200000) := by
  have : bits (vpn * 0x200000) 47 21 = vpn := by simp only [bits]; omega
  unfold State.tables
  rw [h, this]

theorem spares_within {s : State} {job vpn pa n : Nat} {rs : List (Nat × Nat)} (hv : vpn < 2 ^ 27)
    (g : rs.all (fun y => bits y.1 47 21 == vpn) = true) (h : apartInB s job vpn pa n = true) : s.spares job rs pa n := by
  simp only [apartInB, List.all_eq_true, Bool.or_eq_true, decide_eq_true_eq, beq_iff_eq] at h g
  intro y hy l hl
  rw [tables_within hv (g y hy)] at hl
  exact h l hl

theorem undisturbed_within {s : State} {ag : Agent} {vpn e : Nat} {writes : List (Nat × Nat)} (hv : vpn < 2 ^ 27)
    (he : entryB s ag vpn e true = true) (g : writes.all (fun y => bits y.1 47 21 == vpn) = true)
    (h : writes.all (fun x => withinB s vpn e x.1 x.2 &&
      apartInB s (ag.job.getD 0) vpn (bits e 47 21 * 0x200000 + x.1 % 0x200000) x.2) = true) :
    s.undisturbed ag [] writes := by
  simp only [List.all_eq_true, Bool.and_eq_true] at h
  refine ⟨fun x hx => absurd hx List.not_mem_nil, fun x hx => ?_, fun x hx pa ep => ?_⟩
  · rw [span_within he (h x hx).1]; rfl
  · rw [span_within he (h x hx).1] at ep
    cases ep
    exact spares_within hv g (h x hx).2

/-- Whether the rows of a tensor may be read, without its elements. -/
def rowsB (s : State) (ag : Agent) (t : Tensor) (r : Recipe) (i m c n : Nat) : Bool :=
  let sp := rowSpan r.fmt.width c n
  (upTo i m).all fun x => (s.span ag (t.base + x * t.pitch + sp.1) sp.2 false).isSome

theorem rows_of {s : State} {ag : Agent} {t : Tensor} {r : Recipe} {i m c n : Nat} (h : rowsB s ag t r i m c n = true) :
    (s.elemsAt ag t r i m c n).isSome = true := by
  simp only [rowsB, List.all_eq_true] at h
  refine mapM_isSome fun x hx => ?_
  simpa [State.readAt] using h x hx

theorem rows_within {s : State} {ag : Agent} {t : Tensor} {r : Recipe} {vpn e i m c n : Nat} (he : entryB s ag vpn e false = true)
    (h : (upTo i m).all (fun x => withinB s vpn e (t.base + x * t.pitch + (rowSpan r.fmt.width c n).1) (rowSpan r.fmt.width c n).2) = true) :
    (s.elemsAt ag t r i m c n).isSome = true := by
  simp only [List.all_eq_true] at h
  exact rows_of (List.all_eq_true.2 fun x hx => by rw [span_within he (h x hx)]; rfl)

/-- A page that may be read, and its keys and values. -/
def pageB (s : State) (sh : Shape) (page : Nat) (r : Recipe) (vpn e : Nat) : Bool :=
  let p := pageTensors page sh.dim r 0 0 0
  plainB r && !r.perCh &&
    (upTo 0 sh.bk).all (fun x => withinB s vpn e (p.1.base + x * p.1.pitch + (rowSpan r.fmt.width 0 sh.dim).1) (rowSpan r.fmt.width 0 sh.dim).2) &&
    (upTo 0 sh.dim).all fun x => withinB s vpn e (p.2.base + x * p.2.pitch + (rowSpan r.fmt.width 0 sh.bk).1) (rowSpan r.fmt.width 0 sh.bk).2
def pageK (s : State) (ag : Agent) (sh : Shape) (page : Nat) (r : Recipe) : List (List Elem) :=
  (s.elemsAt ag (pageTensors page sh.dim r 0 0 0).1 r 0 sh.bk 0 sh.dim).getD []
def pageV (s : State) (ag : Agent) (sh : Shape) (page : Nat) (r : Recipe) : List (List Elem) :=
  (s.elemsAt ag (pageTensors page sh.dim r 0 0 0).2 r 0 sh.dim 0 sh.bk).getD []

theorem page_of {s : State} {ag : Agent} {sh : Shape} {page vpn e : Nat} {r : Recipe}
    (he : entryB s ag vpn e false = true) (h : pageB s sh page r vpn e = true) :
    s.pageAt ag sh page r (pageK s ag sh page r) (pageV s ag sh page r) := by
  simp only [pageB, Bool.and_eq_true, Bool.not_eq_true'] at h
  exact ⟨plain_of h.1.1.1, h.1.1.2, getD_some [] (rows_within he h.1.2), getD_some [] (rows_within he h.2)⟩

theorem witness_attnFwd_forms : let d := desc 0x50 0x1280 0x210000 0x220000 0 0x80800000 0
    let s := withCmd (stoved attnW) rStv d
    let ag := agentOf rStv (entry d)
    let sh := shapeOf d
    let qt := tens s ag 0x1280
    s.ready ⟨rStv, d⟩ (entry d) 0x50 ∧ (sh.ok = true ∧ zeroElse d [(23, 0), (45, 25)] [(63, 0)] = true ∧ pFmtCode d = true ∧
      fld d.w2 63 48 = 0 ∧ fld d.w3 63 48 = 0 ∧ fld d.w4 63 48 = 0 ∧ d.w5 = 0 ∧ fld d.w2 47 0 = 0x1280 ∧ 0x1280 % 32 = 0 ∧
      fld d.w3 47 0 = 0x210000 ∧ 0x210000 % 256 = 0 ∧ fld d.w4 47 0 = 0x220000 ∧ 0x220000 % 64 = 0 ∧ sh.isOpen = true) ∧
    s.tensorAt ag 0x1280 = some qt ∧ (s.toWorld.recipe (jobOf d) qt.kind).perCh = false ∧
    s.operand ag qt sh.m0 sh.bq 0 (sh.nh * sh.dim) (elems s ag qt sh.m0 sh.bq 0 (sh.nh * sh.dim)) ∧
    s.pageAt ag sh 0x210000 l16Recipe (pageK s ag sh 0x210000 l16Recipe)
      (pageV s ag sh 0x210000 l16Recipe) ∧
    s.inPad ag 0x220000 sh.stateBytes true = true ∧ (s.span ag 0x220000 sh.stateBytes true).isSome = true ∧
    (s.readAt ag 0x220000 sh.stateBytes).isSome = true := by
  intro d s ag sh qt
  exact ⟨ready_of (by decide +kernel), by decide +kernel, getD_some _ (by decide +kernel), by decide +kernel,
    operand_of (by decide +kernel), page_of (vpn := 1) (e := 0x11000000007) (by decide +kernel) (by decide +kernel), by decide +kernel, by decide +kernel, by decide +kernel⟩

theorem witness_attnFin_forms : let d := desc 0x52 0x220000 0x1280 1 0 0 0
    let s := withCmd (stoved attnW) rStv d
    let ag := agentOf rStv (entry d)
    let sh := shapeOf d
    s.ready ⟨rStv, d⟩ (entry d) 0x52 ∧ (sh.ok = true ∧ zeroElse d [(14, 0)] [(63, 44)] = true ∧ d.w4 = 1 ∧ d.w5 = 0 ∧
      fld d.w2 47 0 = 0x220000 ∧ 0x220000 % 64 = 0 ∧ fld d.w3 47 0 = 0x1280 ∧ fld d.w2 63 48 = 0 ∧ fld d.w3 63 48 = 0) ∧
    s.inPad ag 0x220000 sh.stateBytes false = true ∧ (s.readAt ag 0x220000 sh.stateBytes).isSome = true ∧
    s.tensorAt ag 0x1280 = some (tens s ag 0x1280) ∧ s.result ag (tens s ag 0x1280) sh.m0 sh.bq 0 (sh.nh * sh.dim) ∧
    s.banked (jobOf d) (stepOf d) := by
  intro d s ag sh
  exact ⟨ready_of (by decide +kernel), by decide +kernel, by decide +kernel, by decide +kernel, getD_some _ (by decide +kernel),
    result_of (by decide +kernel), banked_of (by decide +kernel)⟩

theorem witness_attnDelta_forms : let d := desc 0x53 0x1280 0x1280 0x220000 0 0 0
    let s := withCmd (stoved attnW) rStv d
    let ag := agentOf rStv (entry d)
    let sh := shapeOf d
    let a := tens s ag 0x1280
    s.ready ⟨rStv, d⟩ (entry d) 0x53 ∧ (sh.ok = true ∧ zeroElse d [(14, 0)] [(63, 44)] = true ∧ d.w5 = 0 ∧ fld d.w2 47 0 = 0x1280 ∧
      fld d.w3 47 0 = 0x1280 ∧ fld d.w4 47 0 = 0x220000 ∧ (s.toWorld.recipe (jobOf d) 7).block = 0 ∧
      (s.toWorld.recipe (jobOf d) 7).perCh = false ∧ (s.toWorld.recipe (jobOf d) a.kind).perCh = false) ∧
    s.tensorAt ag 0x1280 = some a ∧ s.operand ag a sh.m0 sh.bq 0 (sh.nh * sh.dim) (elems s ag a sh.m0 sh.bq 0 (sh.nh * sh.dim)) ∧
    s.inPad ag 0x220000 sh.stateBytes true = true ∧ (s.span ag 0x220000 sh.stateBytes true).isSome = true := by
  intro d s ag sh a
  exact ⟨ready_of (by decide +kernel), by decide +kernel, getD_some _ (by decide +kernel), operand_of (by decide +kernel),
    by decide +kernel, by decide +kernel⟩

theorem witness_attnBwd_forms : let d := desc 0x51 0x1300 0x210000 0 0 0x80800000 0
    let s := withCmd (stoved attnBW) rStv d
    let ag := agentOf rStv (entry d)
    let sh := shapeOf d
    let a := tens s ag 0x1280
    let ws : List U64 := [0x1280, 0x1280, 0x220000, 0x240000, 0, 0, 0, 0]
    s.ready ⟨rStv, d⟩ (entry d) 0x51 ∧ (sh.ok = true ∧ zeroElse d [(63, 0)] [(63, 0)] = true ∧ pFmtCode d = true ∧ d.w4 = 0 ∧ d.w5 = 0 ∧
      fld d.w2 47 0 = 0x1300 ∧ fld d.w3 47 0 = 0x210000 ∧ s.wordsAt ag 0x1300 8 = some ws ∧
      (s.toWorld.recipe (jobOf d) 7).block = 0 ∧ (s.toWorld.recipe (jobOf d) 7).perCh = false ∧ sh.isOpen = true ∧
      (s.toWorld.recipe (jobOf d) a.kind).perCh = false) ∧
    s.tensorAt ag 0x1280 = some a ∧ s.operand ag a sh.m0 sh.bq 0 (sh.nh * sh.dim) (elems s ag a sh.m0 sh.bq 0 (sh.nh * sh.dim)) ∧
    s.pageAt ag sh 0x210000 l16Recipe (pageK s ag sh 0x210000 l16Recipe)
      (pageV s ag sh 0x210000 l16Recipe) ∧
    s.inPad ag 0x220000 sh.stateBytes true = true ∧ (s.readAt ag 0x220000 sh.stateBytes).isSome = true ∧
    (s.span ag 0x220000 sh.stateBytes true).isSome = true ∧ s.inPad ag 0x240000 sh.keyBytes true = true ∧
    (s.readAt ag 0x240000 sh.keyBytes).isSome = true ∧ (s.span ag 0x240000 sh.keyBytes true).isSome = true := by
  intro d s ag sh a ws
  exact ⟨ready_of (by decide +kernel), by decide +kernel, getD_some _ (by decide +kernel), operand_of (by decide +kernel),
    page_of (vpn := 1) (e := 0x11000000007) (by decide +kernel) (by decide +kernel), by decide +kernel, by decide +kernel, by decide +kernel, by decide +kernel, by decide +kernel,
    by decide +kernel⟩

theorem witness_attnAppend_forms : let d := desc 0x55 0x1280 0x1280 0x230000 0 0 0
    let s := withCmd (stoved attnW) rStv d
    let ag := agentOf rStv (entry d)
    let sh := shapeOf d
    let a := tens s ag 0x1280
    let r := s.toWorld.recipe (jobOf d) a.kind
    let p := pageTensors 0x230000 sh.dim l16Recipe 0 0 0
    s.ready ⟨rStv, d⟩ (entry d) 0x55 ∧ (sh.ok = true ∧ zeroElse d [(22, 13)] [(63, 22)] = true ∧ d.w5 = 0 ∧ fld d.w2 47 0 = 0x1280 ∧
      fld d.w3 47 0 = 0x1280 ∧ fld d.w4 47 0 = 0x230000 ∧ sh.kpos % 256 = 0 ∧ sh.bk ≤ 256 ∧ a.aligned r = true ∧
      a.holds sh.m0 sh.bk 0 sh.dim = true) ∧ s.tensorAt ag 0x1280 = some a ∧ r.plain ∧
    (s.elemsAt ag a r sh.m0 sh.bk 0 sh.dim).isSome = true ∧
    s.undisturbed ag [] (p.1.ranges l16Recipe 0 sh.bk 0 sh.dim ++ p.2.ranges l16Recipe 0 sh.dim 0 sh.bk) := by
  intro d s ag sh a r p
  exact ⟨ready_of (by decide +kernel), by decide +kernel, getD_some _ (by decide +kernel), plain_of (by decide +kernel),
    rows_of (by decide +kernel),
    undisturbed_within (vpn := 1) (e := 0x11000000007) (by decide) (by decide +kernel) (by decide +kernel) (by decide +kernel)⟩

theorem witness_attnSeal_forms : let d := desc 0x56 0x230000 0x240000 0 0 0 0
    let s := withCmd (stoved []) rStv d
    let ag := agentOf rStv (entry d)
    let sh := shapeOf d
    let r := s.toWorld.recipe (jobOf d) 7
    let p := pageTensors 0x240000 sh.dim r 0 0 0
    let rs := p.1.ranges r 0 256 0 sh.dim ++ p.2.ranges r 0 sh.dim 0 256
    s.ready ⟨rStv, d⟩ (entry d) 0x56 ∧ (sh.ok = true ∧ zeroElse d [(14, 13)] [(43, 22)] = true ∧ d.w5 = 0 ∧ fld d.w2 47 0 = 0x230000 ∧
      fld d.w3 47 0 = 0x240000 ∧ r.perCh = false ∧ r.axis = 0 ∧ pageFits r sh.dim = true) ∧
    s.pageAt ag { sh with bk := 256 } 0x230000 l16Recipe (pageK s ag { sh with bk := 256 } 0x230000 l16Recipe)
      (pageV s ag { sh with bk := 256 } 0x230000 l16Recipe) ∧
    s.undisturbed ag [] rs ∧ s.banked (jobOf d) (stepOf d) ∧ s.recordApart (jobOf d) (stepOf d) (fld d.w4 15 0) rs := by
  intro d s ag sh r p rs
  refine ⟨ready_of (by decide +kernel), by decide +kernel, page_of (vpn := 1) (e := 0x11000000007) (by decide +kernel) (by decide +kernel),
    undisturbed_within (vpn := 1) (e := 0x11000000007) (by decide) (by decide +kernel) (by decide +kernel) (by decide +kernel),
    banked_of (by decide +kernel), fun x e => spares_within (vpn := 1) (by decide) (by decide +kernel) ?_⟩
  have hx : s.toWorld.job (jobOf d) = some job0 := by decide +kernel
  cases hx.symm.trans e
  decide +kernel

end Sys2Proof.Tests
end

