-- ==== Sys2Proof/Tests/Witness4.lean ====
section
/-! SUPPORT. Witnesses for the statements about message channels and buckets. -/

namespace Sys2Proof.Tests
open Sys2Proof.Machine
set_option Elab.async false

/-! ### Flows open and end -/

theorem witness_chnEp : hostB (chnS [rx0] []) 0 = true ∧ 7 < 8 ∧ 255 < 256 ∧
    (chnS [rx0] []).toWorld.assignable ((chnS [rx0] []).rf (rk (chnPage 7) (0x800 + 8 * 255)) 6 1) 0 = true ∧
    (chnS [rx0] []).toWorld.assignable (fld (0x30001 : U64) 6 1) 0 = true ∧
    (∀ f ∈ (chnS [rx0] []).dev.chn.rflows, f.ash = []) := by decide +kernel

/-- A flow whose command waits on it, in the ring that waits. -/
def busyF (st : FlowSt) : SFlow := { flow0 with st := st, cmd := some (rStv, 0) }
def openD : Desc := desc 0x23 0 0 0x2000 0 0 0
def busyS (st : FlowSt) : State := withPhase (chnS [] [busyF st]) rStv openD (.channel 7)
def openE : Entry := { entry openD with phase := .channel 7 }

theorem witness_chnFabort : hostB (busyS .isOpen) 0 = true ∧ 7 < 4096 ∧
    (busyS .isOpen).toWorld.sflow 7 = some (busyF .isOpen) ∧ (busyS .isOpen).toWorld.assignable (busyF .isOpen).job 0 = true ∧
    (busyF .isOpen).cmd = some (rStv, 0) ∧ ((busyS .isOpen).entry rStv 0).isSome = true := by decide +kernel

/-- The ring with its flow open in context 5. -/
def rx5 : RxRing := { rx0 with flow := some 5 }

/-- The receiving side of a flow on ring `x`, in context 5. -/
def rflow0 : RFlow := ⟨5, 0, 0, 0, 0, 0, 0, 0, 0, 7, 0, 0, 0, false, false, 0, 0, [], 0, [], [], 0, 0, none, none⟩
def recvS (x : RxRing) (f : RFlow) : State :=
  { chnS [x] [] with dev := { (chnS [x] []).dev with chn := ⟨[x], [f], [], []⟩ } }

theorem witness_chnFabort_receiver : hostB (recvS rx0 rflow0) 0 = true ∧ 5 < 4096 ∧
    (recvS rx0 rflow0).toWorld.sflow 5 = none ∧ (recvS rx0 rflow0).toWorld.rflow 5 = some rflow0 ∧
    (recvS rx0 rflow0).toWorld.assignable rflow0.ojob 0 = true := by decide +kernel

/-- An OPEN of endpoint 0 of stove 0 of device 0. -/
def openM (role : Nat) : OpenMsg := ⟨0, 1, 0, 6, 0, role, 0, 64, 0⟩

theorem witness_chnOpenPkt : ((chnS [rx0] []).dev.live = true ∧ (chnS [rx0] []).toWorld.arrives (.chnOpen (openM 0)) = true) ∧ (openM 0).target % 2 ^ 13 = (chnS [rx0] []).toWorld.devId ∧
    bits (openM 0).target 31 24 = 0 ∧ bit ((chnS [rx0] []).reg (epKey 0 0)) 0 = true ∧
    epKey 0 0 = epKey (bits (openM 0).target 20 13) (bits (openM 0).target 23 21) ∧
    (chnS [rx0] []).rf (epKey 0 0) 31 16 = (openM 0).role ∧ (chnS [rx0] []).rf (epKey 0 0) 47 32 = (openM 0).epoch ∧
    (chnS [rx0] []).dev.chn.rings.find? (fun x => x.stove == bits (openM 0).target 20 13 && x.ep == bits (openM 0).target 23 21 &&
      x.flow.isNone) = some rx0 ∧ (chnS [rx0] []).toWorld.freeCtx = some 0 := by decide +kernel

theorem witness_chnOpenPkt_refused : ((chnS [rx0] []).dev.live = true ∧ (chnS [rx0] []).toWorld.arrives (.chnOpen (openM 1)) = true) ∧
    (openM 1).target % 2 ^ 13 = (chnS [rx0] []).toWorld.devId ∧ bits (openM 1).target 31 24 = 0 ∧
    epKey 0 0 = epKey (bits (openM 1).target 20 13) (bits (openM 1).target 23 21) ∧
    (chnS [rx0] []).rf (epKey 0 0) 31 16 ≠ (openM 1).role := by decide +kernel

/-- An accept of the opening flow. -/
def acceptM : AcceptMsg := ⟨7, 0, 0, 4, 64, 0, 12, false, 0, 0, []⟩

theorem witness_chnAccept : ((busyS .opening).dev.live = true ∧ (busyS .opening).toWorld.arrives (.chnAccept acceptM) = true ∧
    (busyS .opening).toWorld.arrives (.chnRefuse 7 0) = true) ∧ (busyS .opening).toWorld.sflow 7 = some (busyF .opening) ∧
    (busyF .opening).st = .opening ∧ (busyF .opening).cmd = some (rStv, 0) ∧ (busyS .opening).entry rStv 0 = some openE ∧
    (busyF .opening).result % 32 = 0 ∧
    ((busyS .opening).toWorld.xlate (agentOf rStv openE) (jobOf openE.desc) (busyF .opening).result true).1 = .ok 0x2000 ∧
    (busyS .opening).plain (engineNode rStv.page rStv.n) 0x2000 24 = true ∧
    ((busyS .opening).toWorld.xlate (agentOf rStv openE) (jobOf openE.desc) ((busyF .opening).result + 24) true).1 = .ok 0x2018 ∧
    (busyS .opening).plain (engineNode rStv.page rStv.n) 0x2018 8 = true := by decide +kernel

/-! ### Records, credits, closes -/

/-- A record of an empty message. -/
def dataM : DataMsg := ⟨5, 0, 0x200000001, 0, [], [], false, false, false, [], []⟩

theorem witness_chnData : ((recvS rx5 rflow0).dev.live = true ∧ (recvS rx5 rflow0).toWorld.arrives (.chnData dataM) = true) ∧
    rflow0.shut = none ∧ dataM.wrap = false ∧ dataM.toAsh = false ∧ (recvS rx5 rflow0).toWorld.rflow 5 = some rflow0 ∧
    (recvS rx5 rflow0).toWorld.rxOf rflow0 = some rx5 ∧
    (recvS rx5 rflow0).rf (epKey rflow0.stove (bits rflow0.target 23 21)) 47 32 = rflow0.epoch := by decide +kernel

theorem witness_chnTail : let f := { rflow0 with due := true }
    (recvS rx5 f).dev.live = true ∧ (recvS rx5 f).toWorld.rflow 5 = some f ∧ (recvS rx5 f).toWorld.rxOf f = some rx5 ∧
    (recvS rx5 f).toWorld.flowCut f = false ∧ (recvS rx5 f).toWorld.placedVisible rx5 = true := by decide +kernel

theorem witness_headLine : ∀ h ∈ [0, 64], let f := { rflow0 with head := h, tail := 64 }
    (recvS rx5 f).dev.live = true ∧ (recvS rx5 f).toWorld.rflow 5 = some f ∧ (recvS rx5 f).toWorld.rxOf f = some rx5 ∧
    rx5.mbq = false ∧ (recvS rx5 f).toWorld.lineAway rx5.hline = false ∧ 0 = ((recvS rx5 f).toWorld.word rx5.hline).toNat ∧ (f.head ≤ 0 ↔ h = 0) := by decide +kernel

theorem witness_chnCredit : ((chnS [] [flow0]).dev.live = true ∧ (chnS [] [flow0]).toWorld.arrives (.chnCredit 7 64) = true) ∧ (chnS [] [flow0]).toWorld.sflow 7 = some flow0 ∧
    flow0.st ≠ .opening ∧ flow0.head < 64 ∧ flow0.since = none := by decide +kernel

theorem witness_chnClosePkt_receiver : ((recvS rx5 rflow0).dev.live = true ∧ (recvS rx5 rflow0).toWorld.arrives (.chnClose 5 0) = true) ∧
    (recvS rx5 rflow0).toWorld.sflow 5 = none ∧ (recvS rx5 rflow0).toWorld.rflow 5 = some rflow0 := by decide +kernel

theorem witness_chnClosePkt : ((busyS .closing).dev.live = true ∧ (busyS .closing).toWorld.arrives (.chnClose 7 stOk) = true) ∧ (busyS .closing).toWorld.sflow 7 = some (busyF .closing) ∧
    (busyF .closing).st = .closing ∧ (busyF .closing).cmd = some (rStv, 0) ∧ ((busyS .closing).entry rStv 0).isSome = true := by
  decide +kernel

/-! ### The ash pit and stalls -/

/-- A CHN_SEND of 32 bytes that found no room and has waited OVF_WAIT. -/
def fullF : SFlow :=
  { flow0 with cmd := some (rStv, 0), tail := 4096, ash := 4096, since := some 500, ovfAt := 900, stallAt := 5000 }
def sendD : Desc := desc 0x24 7 0x3000 32 0 0 0
def fullS : State := withPhase (chnS [] [fullF]) rStv sendD (.channel 7)
def sendE : Entry := { entry sendD with phase := .channel 7 }

/-- The computation that places the waiting message in the ash pit ends waiting, with the message spilled. -/
def spillCheck : Bool :=
  match (sendStep 7 sendD true 3).run { Run.init fullS.toWorld (agentOf rStv sendE) with cnt := sendE.counts, stamp := sendE.stamp } with
  | .ok (f, x) => isWait f && x.pois.isNone && !x.denied && !x.lost &&
      !((ringStove rStv).isSome && clash (fullS.toWorld.ringRun rStv).entries sendE.idx x.rd x.wr) &&
      ((x.w.ringRun rStv).entries.find? fun y => y.idx == sendE.idx).isSome && (match x.w.sflow 7 with
      | some g => !g.spilled.isEmpty
      | none => false)
  | .error _ => false

theorem spillCheck_spec (h : spillCheck = true) : ∃ p x g, fullS.resumes rStv sendE (sendStep 7 sendD true 3) (.wait p) x ∧
    x.w.sflow 7 = some g ∧ g.spilled ≠ [] := by
  unfold spillCheck at h
  split at h
  · rename_i f x k
    simp only [Bool.and_eq_true, Bool.not_eq_true', Option.isNone_iff_eq_none] at h
    obtain ⟨⟨⟨⟨⟨⟨a, b⟩, c⟩, d⟩, e⟩, g⟩, q⟩ := h
    split at q
    · rename_i y hy
      cases f with
      | done _ => cases a
      | wait p => exact ⟨p, x, y, ⟨k, b, c, d, e, g⟩, hy, by simpa using q⟩
    · cases q
  · cases h

theorem witness_ashSpill : fullS.dev.live = true ∧ fullS.toWorld.sflow 7 = some fullF ∧ fullF.since.isSome = true ∧ fullF.ash ≠ 0 ∧
    fullF.spilled = [] ∧ fullF.ovfAt ≤ fullS.dev.gtime ∧ fullF.cmd = some (rStv, 0) ∧ fullS.entry rStv 0 = some sendE ∧
    opcodeOf sendE.desc = 0x24 := by decide +kernel

theorem witness_ashSpill_runs : ∃ p x g, fullS.resumes rStv sendE (sendStep 7 sendD true 3) (.wait p) x ∧
    x.w.sflow 7 = some g ∧ g.spilled ≠ [] := spillCheck_spec (by decide +kernel)

/-- A ring with an ash pit that holds an empty message of device 1. -/
def ashX : RxRing := { rx5 with words := [0xC000000010000, 0x12000, 0x12080, 0, 0, 0, 0, 4096], ash := [(0x20000, 4096)] }
def ashF : RFlow := { rflow0 with peerDev := 1, aTail := 64, ash := [⟨0, 64, 0, false⟩] }

theorem witness_ashDrain : (recvS ashX ashF).dev.live = true ∧ (recvS ashX ashF).toWorld.rflow 5 = some ashF ∧
    (recvS ashX ashF).toWorld.rxOf ashF = some ashX ∧ ashF.ash = ⟨0, 64, 0, false⟩ :: [] ∧
    ashF.peerDev ≠ (recvS ashX ashF).toWorld.devId ∧ (recvS ashX ashF).toWorld.flowCut ashF = false ∧
    (recvS ashX ashF).toWorld.isStale ashF = false ∧ (recvS ashX ashF).toWorld.areaAway ashX.ash (0 % ashX.ashSize) 64 = [] ∧
    64 = up64 (16 + leNat (((recvS ashX ashF).toWorld.pieceBytes ashX.ash (0 % ashX.ashSize) 16).take 8) % 2 ^ 17) ∧
    64 ≤ ashX.size - ashF.tail % ashX.size ∧ 64 ≤ ashX.size - (ashF.tail - ashF.head) := by decide +kernel

theorem witness_chnStall : fullS.dev.live = true ∧ fullS.toWorld.sflow 7 = some fullF ∧ fullF.spilled = [] ∧
    fullF.since = some 500 ∧ fullF.stalled = false := by decide +kernel

/-! ### Contributions -/

/-- A contribution of index 0 to chunk 0 of the bucket. -/
def contrib0 : Contrib := ⟨0, 0x409, 5, 0, 0, 1, 0, false, false, 0, false, List.replicate 256 0x3F80⟩
/-- A device whose tick has run to number 1 with one arm, and events that the Chimney does not send. -/
def armS (a : Arm) : State :=
  let s := withWords (ready [(rk 6 0x080, 0x2000), (rk 6 0x010, 1)]) []
  { s with dev := { s.dev with chm := { s.dev.chm with arms := [a] } } }
def tickedS (a : Arm) (n : U64) : State :=
  { armS a with dev := { (armS a).dev with
      regs := mapSet (armS a).dev.regs (regReset (rk 1 0x0A0)) (rk 1 0x0A0) n, tik := { Tik.start with bnd := some 500 } } }

theorem witness_contrib_late : ((armS { arm0 with closed := [0] }).dev.live = true ∧
    (armS { arm0 with closed := [0] }).toWorld.arrives (.contrib contrib0) = true) ∧
    (armS { arm0 with closed := [0] }).toWorld.arm 0x409 5 = some { arm0 with closed := [0] } ∧ arm0.isHome = true ∧ arm0.mode = 0 ∧
    contrib0.empty = false ∧ (armS { arm0 with closed := [0] }).toWorld.isLate { arm0 with closed := [0] } 0 = true := by
  decide +kernel

def openChunk (roster : List Nat) : Chunk := { Chunk.start 0 with roster := roster, n := roster.length }

theorem witness_contrib_open : ∀ r ∈ [[], [0]], let a := { arm0 with chunks := [openChunk r] }
    ((armS a).dev.live = true ∧ (armS a).toWorld.arrives (.contrib contrib0) = true) ∧ (armS a).toWorld.arm 0x409 5 = some a ∧ (armS a).toWorld.isLate a 0 = false ∧
    cfmtOk contrib0.cfmt = true ∧ contrib0.cix < a.ncontrib ∧ 0 < a.nchunk ∧ a.homeOf 0 = (armS a).toWorld.devId ∧
    a.chunks.filter (fun x => x.num == 0) = [openChunk r] ∧ ((openChunk r).roster.contains contrib0.cix = true ↔ r = [0]) ∧
    bit ((armS a).reg (rk 6 0x010)) 3 = false := by decide +kernel

theorem witness_contrib_opens : (armS arm0).toWorld.isLate arm0 0 = false ∧ arm0.unitOpen (0 / arm0.unit) = false ∧
    (∀ x ∈ arm0.chunks, x.num ≠ 0) ∧ (armS arm0).toWorld.roomFor arm0 0 = true := by decide +kernel

/-- A second arm whose rosters take every granule. -/
def hogS : State :=
  { armS arm0 with dev := { (armS arm0).dev with chm := { (armS arm0).dev.chm with
      arms := [arm0, { arm0 with
        tag := 0x40A, words := arm0.words.set 0 0x1FFF0004040A, chunks := List.replicate 2592 ⟨1, [], 0, [], false, false⟩ }] } } }

theorem witness_contrib_waits : (hogS.dev.live = true ∧ hogS.toWorld.arrives (.contrib contrib0) = true) ∧ hogS.toWorld.arm 0x409 5 = some arm0 ∧
    hogS.toWorld.isLate arm0 0 = false ∧ hogS.toWorld.roomFor arm0 0 = false := by decide +kernel

theorem witness_contrib_unarmed : ((armS arm0).dev.live = true ∧ (armS arm0).toWorld.arrives (.contrib { contrib0 with tag := 0x40B }) = true) ∧ (armS arm0).toWorld.arm 0x40B 5 = none ∧
    (armS arm0).dev.chm.past.contains (0x40B, 5) = false ∧ bit ((armS arm0).reg (rk 6 0x010)) 3 = false := by decide +kernel

theorem witness_orders : [contrib0, { contrib0 with cix := 1 }].Perm [{ contrib0 with cix := 1 }, contrib0] ∧
    (Chunk.start 0).roster.Pairwise (· < ·) := ⟨.swap _ _ _, .nil⟩

theorem witness_closeChunk : arm0.mode = 0 ∧ rfmtOk arm0.rfmt = true ∧ (∀ x ∈ arm0.chunks, x.num ≠ 0) ∧ 1 ≠ 0 := by decide +kernel

/-! ### Units -/

/-- Whether work of the Chimney ends without an error. -/
def unitOk (w : World) (ag : Agent) (a : Act Unit) : Bool :=
  match a.run (Run.init w ag) with
  | .ok _ => true
  | .error _ => false

theorem unitOk_spec {w : World} {ag : Agent} {a : Act Unit} (h : unitOk w ag a = true) : ∃ r, a.run (Run.init w ag) = .ok ((), r) := by
  unfold unitOk at h
  split at h
  · rename_i v e
    exact ⟨v.2, e⟩
  · cases h

def fullArm (w0 : U64) : Arm := { arm0 with words := arm0.words.set 0 w0, chunks := [openChunk [0]] }

theorem witness_unitEarlyClose : ∀ w ∈ [0x40409, 0x40040409], let a := fullArm (BitVec.ofNat 64 w)
    (armS a).dev.live = true ∧ (armS a).toWorld.arm 0x409 5 = some a ∧ a.isHome = true ∧ a.mode = 0 ∧ a.unitOpen 0 = true ∧
    (armS a).toWorld.tickBegun a.close = false ∧
    ((armS a).toWorld.job a.job).all (fun j => !j.zeroWait.contains a.step) = true ∧ (∀ c ∈ a.unitChunks 0, (a.chunkOf c).n = a.ncontrib) ∧ a.closed.contains 0 = false ∧
    ((armS a).toWorld.chmRun a.agent (markUnit a 0)).1 = true ∧ (armS a).toWorld.boundTo 0x409 5 = none ∧
    (a.rdel = 1 ↔ w = 0x40040409) := by decide +kernel

theorem witness_closeTick : ∀ r ∈ [2, 3], let a := { arm0 with roles := r, close := 1 }
    (tickedS a 1).dev.live = true ∧ (tickedS a 1).toWorld.arm 0x409 5 = some a ∧ a.ticked = none ∧
    (tickedS a 1).toWorld.tickBegun a.close = true ∧ a.wait = [] ∧ a.mode = 0 ∧ (a.isHome = true ↔ r = 3) := by decide +kernel

/-- A LOCAL_BLW unit that waits, and a region of its tag armed for the step, its Bellows with n slices to do. -/
def blwArm : Arm := { arm0 with words := arm0.words.set 0 0x40040409, wait := [(0, [])] }
def tagRegion : Region := { region0 with words := [0x4090000000, 0, 0, 0, 0, 0, 0, 0], arm := some ⟨5, false, rBlw, 0, 0, [], 0, 0⟩ }
def blwS (n : Nat) : State :=
  { armS blwArm with dev := { (armS blwArm).dev with
      blw := { (armS blwArm).dev.blw with regions := [tagRegion], slices := List.replicate n (0, ⟨0x409, 5, 1, 0, [], [], false⟩) } } }

theorem witness_localBlwDelivery : ∀ n ∈ [7, 8], (blwS n).dev.live = true ∧ (blwS n).toWorld.arm 0x409 5 = some blwArm ∧
    blwArm.rdel = 1 ∧ (blwArm.wait.find? fun x => x.1 == 0) = some (0, []) ∧
    (blwS n).toWorld.boundTo 0x409 5 = some (tagRegion, ⟨5, false, rBlw, 0, 0, [], 0, 0⟩) ∧
    ((blwS n).dev.blw.slices.filter fun x => x.1 == tagRegion.die).length = n := by decide +kernel

/-- An arm whose unit has been delivered, and a group that only this device receives. -/
def sentArm : Arm := { arm0 with closed := [0], delivered := [0] }
def sumS : State := { armS sentArm with dev := { (armS sentArm).dev with groups := [(0, 0xC0000)] } }

theorem witness_closeSummarySend : sumS.dev.live = true ∧ sumS.toWorld.arm 0x409 5 = some sentArm ∧ sentArm.isHome = true ∧
    sentArm.sumSent = false ∧ sentArm.wait = [] ∧ sumS.toWorld.homeUnits sentArm ≠ [] ∧
    (∀ u ∈ sumS.toWorld.homeUnits sentArm, u ∈ sentArm.delivered) ∧ sentArm.isContrib = true ∧ sentArm.sums.length < sentArm.nhdev ∧
    (sumS.toWorld.group sentArm.cgrp).testBit 19 = true ∧ (sumS.toWorld.group sentArm.cgrp).testBit 18 = true ∧
    sumS.toWorld.groupPorts sentArm.cgrp none = [] := by decide +kernel

/-! ### The ends of arms, and ARRIVAL partials -/

/-- The arm's own command waiting in the Chimney's ring. -/
def armE : Entry := { entry (step5 (desc 0x80 0x1000000001640 0 0 0 0 0)) with idx := 3, phase := .armed }
def waitArmS (a : Arm) : State :=
  { armS a with dev := { (armS a).dev with rings := [⟨rChm, 4, [armE], none, 0, false, false⟩] } }
def twoHomes : Arm := { arm0 with words := arm0.words.set 1 0x2000000000001 }
def endingArm : Arm := { arm0 with roles := 2, used := [0] }

theorem witness_closeSummary : ((armS twoHomes).dev.live = true ∧ (armS twoHomes).toWorld.arrives (.summary ⟨0x409, 5, 0, [], 0⟩) = true) ∧ (armS twoHomes).toWorld.arm 0x409 5 = some twoHomes ∧
    twoHomes.isContrib = true ∧ (insNat 0 twoHomes.sums).length < twoHomes.nhdev := by decide +kernel

theorem witness_closeSummary_last : ((waitArmS endingArm).dev.live = true ∧ ∀ l ∈ [[], [0]],
      (waitArmS endingArm).toWorld.arrives (.summary ⟨0x409, 5, 0, l, 0⟩) = true) ∧
    (waitArmS endingArm).toWorld.arm 0x409 5 = some endingArm ∧ endingArm.isContrib = true ∧ endingArm.roles = 2 ∧
    endingArm.poisoned = false ∧ endingArm.nhdev ≤ (insNat 0 endingArm.sums).length ∧
    (waitArmS endingArm).entry endingArm.ring endingArm.idx = some armE ∧ bit ((waitArmS endingArm).reg (rk 6 0x010)) 3 = false ∧
    (∀ i ∈ endingArm.used, i ∉ endingArm.missed ∧ i ∉ (⟨0x409, 5, 0, [], 0⟩ : SummaryMsg).miss) ∧
    0 ∈ endingArm.used ∧ 0 ∈ (⟨0x409, 5, 0, [0], 0⟩ : SummaryMsg).miss := by decide +kernel

theorem witness_summaryTimeout : let a := { endingArm with ticked := some 900 }
    (waitArmS a).dev.live = true ∧ (waitArmS a).toWorld.arm 0x409 5 = some a ∧ a.ticked = some 900 ∧ a.isContrib = true ∧
    a.sums.length < a.nhdev ∧ (waitArmS a).entry a.ring a.idx = some armE ∧ a.poisoned = false := by decide +kernel

/-- A receiving arm of two chunks and the result of the first. -/
def recvArm : Arm := { arm0 with roles := 4, words := arm0.words.set 1 0x1000000000002 }
def resultM : ResultMsg := ⟨0x409, 5, 0, 0, 1, true, false, false, [0], [0x3F80]⟩

theorem witness_mcastMemResult : ((armS recvArm).dev.live = true ∧ (armS recvArm).toWorld.arrives (.result resultM) = true) ∧ recvArm.due = [] ∧ (armS recvArm).toWorld.arm 0x409 5 = some recvArm ∧
    recvArm.isRecv = true ∧ resultM.chunk < recvArm.nchunk ∧ (insNat resultM.chunk recvArm.recv).length < recvArm.nchunk := by
  decide +kernel

theorem witness_mcastMemResult_runs : ∃ r, (resultData recvArm resultM).run (Run.init ((armS recvArm).toWorld.takeNet (.result resultM))
    recvArm.agent) = .ok ((), r) := unitOk_spec (by decide +kernel)

/-- ARRIVAL arms. -/
def arrival (roles : Nat) : Arm := { arm0 with roles := roles, words := (arm0.words.set 0 0xC0409).set 7 0x1000 }

theorem witness_arrivalPartial : ∀ c ∈ [[], [0]], let a := { arrival 3 with closed := c }
    ((armS a).dev.live = true ∧ (armS a).toWorld.arrives (.part ⟨0x409, 5, 0, List.replicate 256 0, [0], 1, true, false⟩) = true) ∧ (armS a).toWorld.arm 0x409 5 = some a ∧ a.mode = 1 ∧ 0 < a.nchunk ∧
    ((armS a).toWorld.isLate a 0 = true ↔ c = [0]) := by decide +kernel

def part0 : Part := ⟨0, List.replicate 256 0, [0], 1, false, false, false⟩
def forwardArm : Arm := { arrival 2 with parts := [part0] }

theorem witness_arrivalForward : (armS forwardArm).dev.live = true ∧ (armS forwardArm).toWorld.arm 0x409 5 = some forwardArm ∧
    forwardArm.mode = 1 ∧ forwardArm.isHome = false ∧ part0 = forwardArm.part 0 ∧ part0.sent = false ∧ part0.n ≠ 0 ∧
    forwardArm.subtree ≤ part0.n ∧ forwardArm.homeOf 0 = (armS forwardArm).toWorld.devId := by decide +kernel

theorem witness_arrivalClose : let a := { arrival 3 with close := 0 }
    (tickedS a 1).dev.live = true ∧ (tickedS a 1).toWorld.arm 0x409 5 = some a ∧ a.mode = 1 ∧ a.isHome = true ∧
    (tickedS a 1).toWorld.homeUnits a = [0] ∧ a.closed.contains 0 = false ∧
    (tickedS a 1).toWorld.tickBegun (a.close + 1) = true ∧
    ((tickedS a 1).toWorld.job a.job).all (fun j => !j.zeroWait.contains a.step) = true ∧
    ((tickedS a 1).toWorld.chmRun a.agent (markUnit a 0)).1 = true := by decide +kernel

end Sys2Proof.Tests
end

