-- ==== Sys2Proof/Tests/Witness12.lean ====
section
/-! SUPPORT. Witnesses for the statements that give operands with which a MOVE, copy, update, channel or Chimney command completes. -/

namespace Sys2Proof.Tests
open Sys2Proof.Machine
set_option Elab.async false

/-! ### MOVE, FSLOT, UPD_ARM, REGEN, COPY2D -/

theorem witness_move_forms : let d := desc 0x20 0x2000 0x200000 32 0 0 0
    let s := withCmd (stoved [(0x2000, 0x1122334455667788)]) rStv d
    let ag := agentOf rStv (entry d)
    s.ready ⟨rStv, d⟩ (entry d) 0x20 ∧ (ringStove rStv = some 0 ∧ fld d.w2 47 0 = 0x2000 ∧ fld d.w2 63 48 = 0 ∧ fld d.w3 47 0 = 0x200000 ∧
      fld d.w3 63 48 = 0 ∧ fld d.w4 31 0 = 32 ∧ fld d.w4 63 32 = 0 ∧ fld d.w5 63 30 = 0 ∧ d.w6 = 0 ∧ d.w7 = 0) ∧
    s.inPad ag 0x200000 32 true = true ∧ (s.readAt ag 0x2000 32).isSome = true ∧
    s.span ag 0x200000 32 true = some 0x11000000000 := by
  intro d s ag
  exact ⟨ready_of (by decide +kernel), by decide +kernel⟩

theorem witness_fslot_forms : let d := desc 0x21 0x2000 15 0 0 0 0
    let s := withCmd ready rStv d
    let ag := agentOf rStv (entry d)
    let ws := (s.wordsAt ag 0x2000 528).getD []
    s.ready ⟨rStv, d⟩ (entry d) 0x21 ∧ (ringStove rStv = some 0 ∧ fld d.w2 47 0 = 0x2000 ∧ fld d.w2 63 48 = 0 ∧ fld d.w3 3 0 = 15 ∧
      fld d.w3 63 4 = 0 ∧ [d.w4, d.w5, d.w6, d.w7] = [0, 0, 0, 0]) ∧ s.wordsAt ag 0x2000 528 = some ws ∧
    (tableOk (slotTable ws false) = true ∧ tableOk (slotTable ws true) = true ∧ (s.toWorld.slotsNamed rStv.page).testBit 15 = false ∧
      (s.toWorld.stove 0).clr = []) := by
  intro d s ag ws
  exact ⟨ready_of (by decide +kernel), by decide +kernel, getD_some _ (by decide +kernel), by decide +kernel⟩

/-- UPD_ARM with STREAMS, and in UNIT mode with a block of parameters at 0x2000. -/
def unitS : State := withWords (ready [(rk (blwPage 0) 0x080, 1)]) [(0x2000, 0x3C23D70A), (0x2008, 0x3F666666), (0x2010, 0x3F7FBE77)]

theorem witness_updArm_forms : ∀ x ∈ [(0x4003, 0), (3, 0x2000)],
    let d := step5 (desc 0x60 (BitVec.ofNat 64 x.1) (BitVec.ofNat 64 x.2) 0 0 0 0)
    let s := withCmd (withRegion unitS region0) rBlw d
    readyB s ⟨rBlw, d⟩ (entry d) 0x60 = true ∧ fld d.w2 13 0 = 3 ∧ fld d.w2 63 15 = 0 ∧ fld d.w3 63 48 = 0 ∧
    [d.w4, d.w5, d.w6, d.w7] = [0, 0, 0, 0] ∧ s.toWorld.region 3 = some region0 ∧ region0.job = jobOf d ∧ region0.arm = none ∧
    region0.frozen = false ∧ region0.cv = stepOf d % 2 ^ 16 ∧ s.dev.blw.regions = [region0] ∧ s.toWorld.armedOn region0.die < 256 ∧
    (bit d.w2 14 = true ∨ (bit d.w2 14 = false ∧ s.rf (rk (blwPage 0) 0x080) 0 0 = 1 ∧ s.rf (rk (blwPage 0) 0x080) 8 8 = 0 ∧
      fld d.w3 47 0 % 32 = 0 ∧ (s.wordsAt (agentOf rBlw (entry d)) (fld d.w3 47 0) 4).any paramsOk = true)) ∧
    (∀ q ∈ s.dev.rings, ∀ x ∈ q.entries, x.phase ≠ .optOpen) := by decide +kernel

/-- The slices of a region that are this device's, their places, and what REGEN reads and writes. -/
def regenSpots (s : State) (r : Region) (sl : Nat) := r.spots (s.toWorld.recipe r.job) sl 0
def regenReads (s : State) (r : Region) : List (Nat × Nat) :=
  ((List.range r.nslice).filter r.owns).flatMap fun sl =>
    let p := regenSpots s r sl
    p.1.t.ranges p.1.r p.1.i (r.sliceAt sl).kk p.1.c (r.sliceAt sl).nn
def regenWrites (s : State) (r : Region) : List (Nat × Nat) :=
  ((List.range r.nslice).filter r.owns).flatMap fun sl =>
    let p := regenSpots s r sl
    p.2.2.2.1.t.ranges p.2.2.2.1.r p.2.2.2.1.i (r.sliceAt sl).kk p.2.2.2.1.c (r.sliceAt sl).nn ++
      p.2.2.2.2.t.ranges p.2.2.2.2.r p.2.2.2.2.i (r.sliceAt sl).nn p.2.2.2.2.c (r.sliceAt sl).kk

theorem witness_regen_forms : let d := desc 0x61 3 0 0 0 0 0
    let s := withCmd (withRegion (stoved []) region0) rBlw d
    let ag := agentOf rBlw (entry d)
    s.able ⟨rBlw, d⟩ (entry d) 0x61 ∧ (fld d.w2 63 14 = 0 ∧ [d.w3, d.w4, d.w5, d.w6, d.w7] = [0, 0, 0, 0, 0] ∧
      s.toWorld.region (fld d.w2 13 0) = some region0 ∧ region0.job = jobOf d ∧ region0.arm = none ∧ region0.frozen = false ∧
      0 = (if region0.lag1 then region0.cv % 2 else 0) ∧
      (∀ b, (region0.order b 0).blocksFit (s.toWorld.recipe region0.job b.toNat) = true)) ∧
    (regenReads s region0 ≠ [] ∧ regenWrites s region0 ≠ []) ∧
    s.undisturbed ag (regenReads s region0) (regenWrites s region0) ∧ s.banked (jobOf d) (stepOf d) ∧
    ∀ b, s.recordApart (jobOf d) (stepOf d) (region0.order b 0).tid (regenReads s region0 ++ regenWrites s region0) := by
  intro d s ag
  have h : ∀ b, apartB s (jobOf d) (stepOf d) (region0.order b 0).tid (regenReads s region0 ++ regenWrites s region0) = true := by
    decide +kernel
  exact ⟨able_of (by decide +kernel), by decide +kernel, by decide +kernel, undisturbed_of (by decide +kernel),
    banked_of (by decide +kernel), fun b => apart_of (h b)⟩

/-- COPY2D under PHYS of two rows of 32 bytes. -/
theorem witness_copy2d_forms : let d := desc 0x72 0x1000000002000 0x3000 0x200000020 0x4000000020 0 0
    let s := withCmd (owned ready) rWbx d
    s.starts ⟨rWbx, d⟩ (entry d) = true ∧ opcodeOf d = 0x72 ∧ s.dev.urk.owner = some (s.toWorld.ringPort rWbx) ∧ bit d.w2 48 = true ∧
    fld d.w2 63 50 = 0 ∧ fld d.w3 63 48 = 0 ∧ [d.w6, d.w7] = [0, 0] ∧ fld d.w2 47 0 = 0x2000 ∧ fld d.w3 47 0 = 0x3000 ∧
    fld d.w4 31 0 = 32 ∧ fld d.w4 63 32 = 2 ∧ fld d.w5 31 0 = 32 ∧ fld d.w5 63 32 = 64 ∧
    (∀ i ∈ [0, 1], s.plain (engineNode rWbx.page rWbx.n) (0x2000 + i * 32) 32 = true ∧
      s.plain (engineNode rWbx.page rWbx.n) (0x3000 + i * 64) 32 = true ∧ s.poisonAt (lineOf (0x2000 + i * 32)) = false) ∧
    (∀ i ∈ [0, 1], ∀ j ∈ [0, 1], 0x2000 + i * 32 + 32 ≤ 0x3000 + j * 64 ∨ 0x3000 + j * 64 + 32 ≤ 0x2000 + i * 32) := by decide +kernel

/-! ### Channels -/

theorem witness_chnPost_forms : let d := desc 0x22 0x1600 0 0 0 0 0
    let s := withCmd (chnS [] []) rStv d
    let ag := agentOf rStv (entry d)
    s.ready ⟨rStv, d⟩ (entry d) 0x22 ∧ (ringStove rStv = some 0 ∧ fld d.w2 47 0 = 0x1600 ∧ fld d.w2 63 48 = 0 ∧
      [d.w3, d.w4, d.w5, d.w6, d.w7] = [0, 0, 0, 0, 0] ∧ s.wordsAt ag 0x1600 8 = some rx0.words ∧
      rx0 = ⟨0, 0, fld (rx0.words.getD 0 0) 55 53, jobOf d, 0x1600, rx0.words, [(0x10000, 2 ^ fld (rx0.words.getD 0 0) 52 48)], 0x12000,
        0x12080, if rx0.nb * rx0.bsz = 0 then [] else [(0, rx0.nb * rx0.bsz)], if rx0.ashSize = 0 then [] else [(0, rx0.ashSize)], none⟩) ∧
    (fld (rx0.word 0) 63 56 = 0 ∧ (∀ n ∈ [1, 2, 4, 6], fld (rx0.word n) 63 48 = 0) ∧ fld (rx0.word 3) 63 26 = 0 ∧
      fld (rx0.word 5) 63 32 = 0 ∧ fld (rx0.word 7) 63 32 = 0 ∧ rx0.log2 = 12 ∧ fld (rx0.word 0) 47 0 % rx0.size = 0 ∧
      fld (rx0.word 1) 47 0 % 128 = 0 ∧ fld (rx0.word 2) 47 0 % 128 = 0 ∧ fld (rx0.word 3) 16 0 ≤ 65536 ∧ rx0.land0 % 4096 = 0 ∧
      fld (rx0.word 6) 47 0 % 4096 = 0 ∧ rx0.ashSize % 4096 = 0) ∧
    (s.rf (epKey 0 rx0.ep) 0 0 = 1 ∧ s.rf (epKey 0 rx0.ep) 6 1 = jobOf d ∧
      ((List.range 16).find? fun n => !s.dev.chn.rings.any fun y => y.stove == 0 && y.slot == n) = some 0 ∧
      s.span ag (fld (rx0.word 0) 47 0) rx0.size true = some 0x10000 ∧ s.toWorld.inHbm 0x10000 rx0.size = true ∧
      s.span ag (fld (rx0.word 1) 47 0) 128 true = some 0x12000 ∧ s.toWorld.inHbm 0x12000 128 = true ∧
      s.span ag (fld (rx0.word 2) 47 0) 128 rx0.mbq = some 0x12080 ∧ s.toWorld.inHbm 0x12080 128 = true ∧ rx0.nb * rx0.bsz = 0 ∧
      rx0.ashSize = 0) := by
  intro d s ag
  exact ⟨ready_of (by decide +kernel), by decide +kernel⟩

theorem witness_chnOpen_forms : let d := desc 0x23 0 0 0x2000 0 0 0
    let s := withCmd (chnS [] []) rStv d
    readyB s ⟨rStv, d⟩ (entry d) 0x23 = true ∧ fld d.w3 31 17 = 0 ∧ fld d.w3 16 0 ≤ 65536 ∧ fld d.w4 63 48 = 0 ∧
    fld d.w4 47 0 % 32 = 0 ∧ [d.w5, d.w6, d.w7] = [0, 0, 0] ∧ (s.span (agentOf rStv (entry d)) (fld d.w4 47 0) 32 true).isSome = true ∧
    bits (fld d.w2 31 0) 31 24 = 0 ∧ fld d.w2 31 0 % 2 ^ 13 = s.toWorld.devId ∧ s.toWorld.freeCtx = some 0 := by decide +kernel

theorem witness_chnSend_forms : let d := desc 0x24 7 0x3000 32 0 0 0
    let s := withCmd (chnS [] [flow0]) rStv d
    readyB s ⟨rStv, d⟩ (entry d) 0x24 = true ∧ fld d.w2 11 0 = 7 ∧ fld d.w2 63 12 = 0 ∧ fld d.w3 63 48 = 0 ∧ fld d.w3 47 0 % 32 = 0 ∧
    fld d.w4 63 18 = 0 ∧ fld d.w5 63 48 = 0 ∧ fld d.w5 47 0 % 32 = 0 ∧ fld d.w6 63 32 = 0 ∧ d.w7 = 0 ∧ fld d.w4 16 0 = 32 ∧
    fld d.w6 31 0 = 0 ∧ bit d.w4 17 = false ∧ s.toWorld.sflow 7 = some flow0 ∧ flow0.stove = 0 ∧ flow0.st = .isOpen ∧
    flow0.reason = none ∧ flow0.cmd = none ∧ flow0.spilled = [] ∧ 32 ≤ flow0.maxmsg ∧ 0 ≤ flow0.maxbulk ∧ flow0.mbq = false ∧
    flow0.place false 32 0 = .placed 64 ∧ (s.readAt (agentOf rStv (entry d)) (fld d.w3 47 0) 32).isSome = true := by decide +kernel

theorem witness_chnClose_forms : let d := desc 0x25 7 0 0 0 0 0
    let s := withCmd (chnS [] [flow0]) rStv d
    readyB s ⟨rStv, d⟩ (entry d) 0x25 = true ∧ fld d.w2 11 0 = 7 ∧ fld d.w2 63 12 = 0 ∧ fld d.w3 63 48 = 0 ∧
    [d.w4, d.w5, d.w6, d.w7] = [0, 0, 0, 0] ∧ s.toWorld.sflow 7 = some flow0 := by decide +kernel

theorem witness_chnWithdraw_forms : let d := desc 0x25 0x1000 0x1600 0 0 0 0
    let s := withCmd (chnS [rx0] []) rStv d
    readyB s ⟨rStv, d⟩ (entry d) 0x25 = true ∧ bit d.w2 12 = true ∧ fld d.w2 63 13 = 0 ∧ fld d.w3 63 48 = 0 ∧
    [d.w4, d.w5, d.w6, d.w7] = [0, 0, 0, 0] ∧
    s.dev.chn.rings.find? (fun y => y.stove == 0 && y.addr == fld d.w3 47 0 && y.job == jobOf d && y.flow.isNone) = some rx0 := by
  decide +kernel

theorem witness_spill_forms : fullS.still ∧ (fullS.dev.live = true ∧ fullS.toWorld.sflow 7 = some fullF ∧ fullF.since.isSome = true ∧
    fullF.ash ≠ 0 ∧ fullF.spilled = [] ∧ fullF.cmd = some (rStv, 0) ∧ fullS.entry rStv 0 = some sendE ∧ opcodeOf sendE.desc = 0x24 ∧
    (∀ x ∈ (fullS.toWorld.ringRun rStv).entries, x.idx < 0 → x.waiting = false) ∧ 32 = fld sendE.desc.w4 16 0 ∧
    0 = fld sendE.desc.w6 31 0 ∧ fullF.place true 32 0 = .placed 64 ∧
    (fullS.readAt (agentOf rStv sendE) (fld sendE.desc.w3 47 0) 32).isSome = true) :=
  ⟨still_of (by decide +kernel), by decide +kernel⟩

/-! ### The Chimney -/

/-- The same device with flue port 17 up towards device 1, and group 0 received here. -/
def farS (s : State) : State :=
  { s with dev := { s.dev with
      regs := mapSet s.dev.regs (regReset (rk 0x31 0x088)) (rk 0x31 0x088) 0x3FE, routes := [(1, 0x411)], groups := [(0, 0xC0000)] } }

theorem leads_of {s : State} {dst p : Nat} (h : s.toWorld.outPort dst = some p) (g : s.dev.urk.links = []) : s.leads dst := by
  refine .inr ⟨p, h, ?_⟩
  rw [g]
  trivial

theorem witness_chmBucket_forms : let d := step5 (desc 0x80 0x1000000001640 0 0 0 0 0)
    let s := withCmd (chmS []) rChm d
    let ag := agentOf rChm (entry d)
    let a : Arm := ⟨0x409, 5, 0, rChm, 0, 9, arm0.words, [], 0, 1, [], [], [], [], [], [], 0, false, [], [], false, [], [], none, []⟩
    let b : Arm := { a with hm := [(0, 0)], close := 16 }
    s.able ⟨rChm, d⟩ (entry d) 0x80 ∧ (fld d.w2 47 0 = 0x1640 ∧ 0x1640 % 64 = 0 ∧ fld d.w2 63 51 = 0 ∧
      [d.w3, d.w4, d.w5, d.w6, d.w7] = [0, 0, 0, 0, 0] ∧ s.wordsAt ag 0x1640 8 = some arm0.words ∧
      a = ⟨fld (arm0.words.getD 0 0) 11 0, stepOf d, jobOf d, rChm, 0, seqOf d, arm0.words, [], 0, fld d.w2 50 48, [], [], [],
        [], [], [], 0, false, [], [], false, [], [], none, []⟩ ∧ fld (a.word 0) 17 12 = jobOf d ∧ bucketOk a = true ∧
      s.toWorld.chnTag a.tag = false ∧ s.toWorld.arm a.tag a.step = none ∧
      s.wordsAt ag (fld (a.word 2) 47 0) (fld (a.word 2) 57 48 + 1) = some [0] ∧ homeMapOk [0] a.nchunk a.nhdev a.cunit = true ∧
      s.toWorld.closeTickOf a = some 16 ∧ s.toWorld.tickBegun 16 = false ∧ rfmtOk a.rfmt = true ∧ a.round = 0 ∧
      b.hm = [(0 : U64)].map (fun m => (fld m 31 0, fld m 44 32)) ∧
      (s.dev.chm.arms.filter fun x => x.tag == a.tag).length < 2) ∧ s.reach ag (b.writes s.toWorld.devId) true := by
  intro d s ag a b
  exact ⟨able_of (by decide +kernel), by decide +kernel, reach_of (by decide +kernel)⟩

theorem witness_chmContrib_forms : let d := step5 (desc 0x81 0x409 0x100000000 0x5000 0 0 0)
    let s := withCmd (chmS [arm0]) rChm d
    readyB s ⟨rChm, d⟩ (entry d) 0x81 = true ∧ fld d.w2 11 0 = 0x409 ∧ fld d.w2 21 12 = 0 ∧ bit d.w2 22 = false ∧ fld d.w2 26 23 = 0 ∧
    fld d.w2 63 27 = 0 ∧ fld d.w3 31 0 = 0 ∧ fld d.w3 63 32 = 1 ∧ fld d.w4 47 0 = 0x5000 ∧ fld d.w4 63 48 = 0 ∧
    [d.w5, d.w6, d.w7] = [0, 0, 0] ∧ cfmtOk 0 = true ∧ s.toWorld.chnTag 0x409 = false ∧ s.toWorld.arm 0x409 (stepOf d) = some arm0 ∧
    s.toWorld.contribRefused 0x409 (stepOf d) 0 false 0 1 = false ∧
    (∀ i ∈ [0], (s.readAt (agentOf rChm (entry d)) (0x5000 + i * 256 * redBytes 0) (256 * redBytes 0)).isSome = true) ∧
    (∀ i ∈ [0], arm0.homeOf (0 + i) = s.toWorld.devId) := by decide +kernel

theorem witness_chmEmpty_forms : ∀ a ∈ [arm0, arrival 3], let d := step5 (desc 0x82 0x409 0x100000000 0 0 0 0)
    let s := withCmd (chmS [a]) rChm d
    readyB s ⟨rChm, d⟩ (entry d) 0x82 = true ∧ fld d.w2 11 0 = 0x409 ∧ fld d.w2 21 12 = 0 ∧ bit d.w2 22 = false ∧
    fld d.w2 63 23 = 0 ∧ fld d.w3 31 0 = 0 ∧ fld d.w3 63 32 = 1 ∧ [d.w4, d.w5, d.w6, d.w7] = [0, 0, 0, 0] ∧
    s.toWorld.chnTag 0x409 = false ∧ s.toWorld.arm 0x409 (stepOf d) = some a ∧
    s.toWorld.contribRefused 0x409 (stepOf d) 0 false 0 1 = false ∧ (a.mode = 1 ∨ a.homeOf 0 = s.toWorld.devId) := by decide +kernel

theorem witness_chmMcast_forms : let d := desc 0x83 0x5000 0x6000 64 0 0 0
    let s := withCmd (farS (chmS [])) rChm d
    s.able ⟨rChm, d⟩ (entry d) 0x83 ∧ (fld d.w2 47 0 = 0x5000 ∧ fld d.w2 63 48 = 0 ∧ fld d.w3 47 0 = 0x6000 ∧ fld d.w3 63 48 = 0 ∧
      fld d.w4 31 0 = 64 ∧ fld d.w4 43 32 = 0 ∧ fld d.w4 63 44 = 0 ∧ fld d.w5 47 0 = 0 ∧ fld d.w5 63 48 = 0 ∧ d.w6 = 0 ∧ d.w7 = 0 ∧
      (s.readAt (agentOf rChm (entry d)) 0x5000 64).isSome = true ∧ (s.toWorld.group 0).testBit 18 = true) ∧ s.casts 0 := by
  intro d s
  exact ⟨able_of (by decide +kernel), by decide +kernel, by decide +kernel, .inl (by decide +kernel)⟩

/-- A read of this device, and one of device 1. -/
theorem witness_chmRread_forms : ∀ dev ∈ [0, 1], let d := desc 0x84 (BitVec.ofNat 64 (0x5000 + dev * 2 ^ 48)) 0x6000 64 0 0 0
    let s := withCmd (farS (chmS [])) rChm d
    let ag := agentOf rChm (entry d)
    readyB s ⟨rChm, d⟩ (entry d) 0x84 = true ∧ fld d.w2 47 0 = 0x5000 ∧ fld d.w2 60 48 = dev ∧ fld d.w2 63 61 = 0 ∧
    fld d.w3 47 0 = 0x6000 ∧ fld d.w3 63 48 = 0 ∧ fld d.w4 31 0 = 64 ∧ fld d.w4 63 32 = 0 ∧ fld d.w5 63 31 = 0 ∧ d.w6 = 0 ∧ d.w7 = 0 ∧
    (dev = s.toWorld.devId ↔ dev = 0) ∧ bit d.w5 30 = false ∧ (s.readAt ag 0x5000 64).isSome = true ∧
    s.span ag 0x6000 64 true = some 0x6000 ∧ (s.toWorld.outPort 1).isSome = true := by decide +kernel

/-- A round of one piece for device 1. -/
theorem witness_chmPermute_forms : let d := desc 0x85 0x1000000007000 (BitVec.ofNat 64 slmBase) 0x100000080 0x3000000000040 0 0
    let s := withCmd (farS (withWords (ready [(rk 6 0x080, 0x2000), (rk 0x124 0x088, 0x11)]) [(0x7000, 0x5000), (0x7010, 32), (0x7018, 1)]))
      rChm d
    let ag := agentOf rChm (entry d)
    let p : PermRound := ⟨rChm, 0, 0, 3, slmBase, 128, 1, 64, 0, [], 0, false, s.toWorld.permDeadline⟩
    s.able ⟨rChm, d⟩ (entry d) 0x85 ∧ (fld d.w2 63 48 = 1 ∧ fld d.w3 47 0 = slmBase ∧ fld d.w3 63 48 = 0 ∧ fld d.w4 31 0 = 128 ∧
      fld d.w4 63 57 = 0 ∧ fld d.w5 63 48 = 3 ∧ d.w6 = 0 ∧ d.w7 = 0 ∧ s.toWorld.inSlm slmBase 128 = true ∧ s.dev.chm.perm = none ∧
      s.wordsAt ag (fld d.w2 47 0) (4 * 1) = some [0x5000, 0, 32, 1] ∧ (s.readAt ag 0x5000 32).isSome = true ∧ 1 ≠ s.toWorld.devId ∧
      fld d.w4 56 45 = 0 ∧ fld d.w4 44 32 = 1 ∧ fld d.w5 47 0 = 64 ∧
      p = ⟨rChm, 0, jobOf d, 3, slmBase, 128, fld d.w4 44 32, fld d.w5 47 0, 0, [], 0, false, s.toWorld.permDeadline⟩) ∧
    s.leads 1 ∧ s.casts 0 := by
  intro d s ag p
  exact ⟨able_of (by decide +kernel), by decide +kernel, leads_of (p := 17) (by decide +kernel) (by decide +kernel), by decide +kernel,
    .inl (by decide +kernel)⟩

end Sys2Proof.Tests
end

