-- ==== Sys2Proof/Tests/Witness5.lean ====
section
/-! SUPPORT. Witnesses for the statements about collectives, weight regions and version gates. -/

namespace Sys2Proof.Tests
open Sys2Proof.Machine
set_option Elab.async false

/-- A computation ends without an error, with what `p` asks. -/
def runOk {α : Type} (a : Act α) (r : Run) (p : α → Run → Bool) : Bool :=
  match a.run r with
  | .ok (v, x) => p v x
  | .error _ => false

theorem runOk_spec {α : Type} {a : Act α} {r : Run} {p : α → Run → Bool} (h : runOk a r p = true) :
    ∃ v x, a.run r = .ok (v, x) ∧ p v x = true := by
  unfold runOk at h
  split at h
  · rename_i v x e
    exact ⟨v, x, e, h⟩
  · cases h

theorem runOk_val {α : Type} [BEq α] [LawfulBEq α] {a : Act α} {r : Run} {v : α} {p : Run → Bool}
    (h : runOk a r (fun y x => y == v && p x) = true) : ∃ x, a.run r = .ok (v, x) ∧ p x = true := by
  obtain ⟨y, x, e, k⟩ := runOk_spec h
  simp only [Bool.and_eq_true, beq_iff_eq] at k
  rw [k.1] at e
  exact ⟨x, e, k.2⟩

/-! ### Collectives -/

/-- A device with DEV 0 whose Chimney sends no events. -/
def quietS : State := armS arm0
def mcastM : McastMsg := ⟨0, 0x2000, 0, false, [1, 2, 3, 4]⟩

theorem witness_mcastReceive : (quietS.dev.live = true ∧ quietS.toWorld.arrives (.mcast mcastM) = true) ∧ mcastM.nline = 0 ∧
    ∃ r ps, (mcastData mcastM).run (Run.init (quietS.toWorld.takeNet (.mcast mcastM)) (chmFor mcastM.job)) = .ok (some ps, r) := by
  refine ⟨by decide +kernel, rfl, ?_⟩
  obtain ⟨v, x, e, k⟩ := runOk_spec (a := mcastData mcastM) (p := fun v _ => v.isSome)
    (r := Run.init (quietS.toWorld.takeNet (.mcast mcastM)) (chmFor mcastM.job)) (by decide +kernel)
  obtain ⟨ps, rfl⟩ := Option.isSome_iff_exists.1 k
  exact ⟨x, ps, e⟩

def rreadM (gate : Bool) : RReadMsg := ⟨0, 0, 1, 4, 0x2000, 32, gate, 3, 5⟩

theorem witness_rreadRequest_gated : (quietS.dev.live = true ∧ quietS.toWorld.arrives (.rreadReq (rreadM true)) = true) ∧ (rreadM true).vchk = true := by decide +kernel

theorem witness_rreadRequest : (quietS.dev.live = true ∧ quietS.toWorld.arrives (.rreadReq (rreadM false)) = true) ∧ (rreadM false).vchk = false ∧ ∃ bs r,
    (readVB (rreadM false).addr (rreadM false).len).run
      (Run.init (quietS.toWorld.takeNet (.rreadReq (rreadM false))) (chmFor (rreadM false).job)) = .ok (bs, r) ∧ r.denied = false := by
  refine ⟨by decide +kernel, rfl, ?_⟩
  obtain ⟨v, x, e, k⟩ := runOk_spec (a := readVB (rreadM false).addr (rreadM false).len) (p := fun _ x => !x.denied)
    (r := Run.init (quietS.toWorld.takeNet (.rreadReq (rreadM false))) (chmFor (rreadM false).job)) (by decide +kernel)
  exact ⟨v, x, e, by simpa using k⟩

def gatherM : GatherMsg := ⟨0x409, 5, 0, [], [], [], [], false⟩

theorem witness_gatherSlice_unarmed : (quietS.dev.live = true ∧ quietS.toWorld.arrives (.gather gatherM) = true) ∧ bit (quietS.reg (rk 6 0x010)) 3 = false ∧
    quietS.dev.blw.regions = [] := by decide +kernel

/-- The region of gather tag 0x409, armed for step 5 with its gradients from a bucket. -/
def gatherRegion : Region :=
  { region0 with words := [0x4090000000000, 0, 0, 0, 0, 0, 0, 0], arm := some ⟨5, false, rBlw, 0, 0, [], 0, 0⟩, readers0 := 1 }

theorem witness_gatherSlice : ((withRegion quietS gatherRegion).dev.live = true ∧
    (withRegion quietS gatherRegion).toWorld.arrives (.gather gatherM) = true) ∧
    (withRegion quietS gatherRegion).dev.blw.regions = [gatherRegion] ∧ gatherRegion.arm = some ⟨5, false, rBlw, 0, 0, [], 0, 0⟩ ∧
    gatherRegion.gtag = gatherM.gtag ∧ gatherM.gtag ≠ 0 ∧ 5 = gatherM.step ∧ gatherRegion.readers gatherRegion.target ≠ 0 := by
  decide +kernel

/-- A round that runs in the Chimney's ring and expects 64 bytes, its staging area at the base of slice 0's scratchpad. -/
def round0 : PermRound := ⟨rChm, 0, 0, 3, slmBase, 128, 2, 64, 0, [], 0, false, some 4000⟩
def permS (p : PermRound) : State :=
  let s := withPhase (ready [(rk 6 0x080, 0x2000), (rk 0x124 0x088, 0x11)]) rChm permD (.fabric 3)
  { s with dev := { s.dev with chm := { s.dev.chm with perm := some p } } }

theorem witness_permute_round : ∀ r ∈ [2, 3], let m : PieceMsg := ⟨r, 0x2000, false, List.replicate 32 7⟩
    (permS round0).dev.live = true ∧ (permS round0).toWorld.arrives (.piece m) = true ∧
    (permS round0).toWorld.arrives (.permDone r 1) = true ∧ (permS round0).dev.chm.perm = some round0 ∧ (round0.round = m.round ↔ r = 3) ∧
    round0.excess = false ∧ round0.got + m.data.length < round0.inbytes ∧ round0.got + m.data.length ≤ round0.stagesz ∧
    m.poison = false ∧ m.data ≠ [] ∧ (permS round0).dev.urk.home = [] ∧ (permS round0).dev.upsets = [] ∧
    (permS round0).dev.snp.run = none ∧ (permS round0).dev.urk.dir = [] ∧ (permS round0).dev.urk.snoops = [] ∧
    (permS round0).toWorld.inSlm (round0.stage + round0.got) m.data.length = true ∧ round0.got ≠ round0.inbytes ∧
    round0.deadline = some 4000 ∧ ((permS round0).entry round0.ring round0.idx).isSome = true := by decide +kernel

/-! ### Regions -/

/-- Region 3's descriptor, at 0x8000 + 64 × 3, of one slice of one element, and the tensor descriptors it names. -/
def loadW (w0 : U64) : List (Nat × U64) :=
  tensorAt 0x1400 0x210000 0 1 1 256 ++ tensorAt 0x1420 0x218000 5 1 1 256 ++ tensorAt 0x1440 0x21A000 6 1 1 256 ++
  tensorAt 0x1480 0x21C000 0 1 1 256 ++ tensorAt 0x14A0 0x21E000 1 1 1 256 ++
  [(0x80C0, w0), (0x80C8, 0x1400), (0x80D0, 0x1420), (0x80D8, 0x1440), (0x80E0, 0x1480), (0x80E8, 0x14A0)]
def wregS (rs : List Region) : State :=
  let s := withWords (ready [(rk 0x108 0x0A0, 1), (rk 0x108 0x090, 0x8000)]) (loadW 0x4090400005)
  { s with dev := { s.dev with
      jobs := [{ job0 with recipe := (job0.recipe.set 5 (0xF04000, 0)).set 6 (0xF04000, 0) }], blw := { s.dev.blw with regions := rs } } }

theorem witness_wregLoad : hostB (wregS []) 0 = true ∧ 3 < 2 ^ 14 ∧ (wregS []).notHeld 0x108 0x098 ∧
    bit ((wregS []).reg (rk 0x108 0x0A0)) 0 = true ∧ 0x80C0 = (wregS []).rf (rk 0x108 0x090) 47 12 * 4096 + 64 * 3 ∧
    (wregS []).toWorld.inHbm 0x80C0 64 = true ∧ (wregS []).poisonAt (lineOf 0x80C0) = false ∧
    (wregS []).toWorld.assignable (fld ((wregS []).toWorld.word 0x80C0) 21 16) 0 = true := by
  refine ⟨?_, ?_, ?_, ?_, ?_, ?_, ?_, ?_⟩ <;> first | decide +kernel | exact (by decide +kernel : (wregS []).toWorld.heldAt 0x108 0x098 = false)

theorem witness_wregLoad_runs : ∃ x, (loadRegion 0 3).run (Run.init (wregS []).toWorld (mantel 0x108)) = .ok (stOk, x) := by
  obtain ⟨x, e, _⟩ := runOk_val (a := loadRegion 0 3) (v := stOk) (p := fun _ => true)
    (r := Run.init (wregS []).toWorld (mantel 0x108)) (by decide +kernel)
  exact ⟨x, e⟩

theorem witness_wregUnload : let s := wregS [region0, { region0 with index := 4 }]
    hostB s 0 = true ∧ 3 < 2 ^ 14 ∧ s.toWorld.heldAt 0x108 0x098 = false ∧ bit (s.reg (rk 0x108 0x0A0)) 0 = true ∧
    s.toWorld.region 3 = some region0 ∧ s.toWorld.assignable region0.job 0 = true ∧ region0.arm = none ∧ region0.readers0 = 0 ∧
    region0.readers1 = 0 ∧ (∀ q ∈ s.dev.blw.parked, q.read.wreg ≠ 3) ∧ 0x80C0 = s.rf (rk 0x108 0x090) 47 12 * 4096 + 64 * 3 ∧
    s.plain 0 0x80C0 2 = true := by decide +kernel

/-- A loaded region of one element, tag 0x409, armed for step 5 by a command of Bellows 0; parameters of a plain rule. -/
def ownArm : UpdArm := ⟨5, false, rBlw, 0, 9, [0x3C23D70A, 0x3F666666, 0x3F7FBE77, 0], stOk, 0⟩
def ownRegion : Region :=
  { region0 with words := [0x4090400005, 0, 0, 0, 0, 0, 0, 0], arm := some ownArm
                 descs := [[0x210000, 0, 0x100000001, 0x10000000000], [0x5000000218000, 0, 0x100000001, 0x10000000000],
                   [0x600000021A000, 0, 0x100000001, 0x10000000000], [0x21C000, 0, 0x100000001, 0x10000000000],
                   [0x100000021E000, 0, 0x100000001, 0x10000000000], [], []] }
def armD : Desc := step5 (desc 0x60 3 0 0 0 0 0)
def sliceM (tag slice : Nat) : SliceMsg := ⟨tag, 5, slice, 0, [0x3F80], [false], false⟩
def sliceS (m : SliceMsg) : State :=
  let s := withPhase (ready [(rk 0x108 0x090, 0x8000)]) rBlw armD .armed
  { s with mem := (stoved []).mem, dev := { s.dev with blw := { s.dev.blw with regions := [ownRegion], slices := [(0, m)] } } }

theorem witness_blwSliceUpdate_unbound : (sliceS (sliceM 0x40A 0)).dev.live = true ∧
    ((sliceS (sliceM 0x40A 0)).dev.blw.slices.find? fun x => x.1 == 0) = some (0, sliceM 0x40A 0) ∧
    (sliceS (sliceM 0x40A 0)).toWorld.boundTo 0x40A 5 = none := by decide +kernel

theorem witness_blwSliceUpdate : ∃ x, (sliceS (sliceM 0x409 0)).toWorld.boundTo 0x409 5 = some (ownRegion, ownArm) ∧
    ownRegion.owns 0 = true ∧ (sliceBody { ownRegion with isOpen := true } ownArm (sliceM 0x409 0)).run
      (Run.init ((sliceS (sliceM 0x409 0)).toWorld.modRegion ownRegion.index fun r => { r with isOpen := true })
        (ownRegion.agent ownArm)) = .ok ((), x) ∧ x.pois = none := by
  obtain ⟨v, x, e, k⟩ := runOk_spec (a := sliceBody { ownRegion with isOpen := true } ownArm (sliceM 0x409 0))
    (p := fun _ x => x.pois.isNone)
    (r := Run.init ((sliceS (sliceM 0x409 0)).toWorld.modRegion ownRegion.index fun r => { r with isOpen := true })
        (ownRegion.agent ownArm)) (by decide +kernel)
  exact ⟨x, by decide +kernel, by decide +kernel, e, by simpa using k⟩

/-- The region with all its credits; a read of it is parked. -/
def fullRegion (n : Nat) : Region := { ownRegion with credits := n, isOpen := true }
def commitS (n : Nat) : State :=
  let s := withPhase (ready [(rk 0x108 0x090, 0x8000)]) rBlw armD .armed
  { s with dev := { s.dev with blw := { s.dev.blw with regions := [fullRegion n], parked := [⟨0, ⟨0, 3, 6, .remote (rreadM true)⟩, none, false⟩] } } }

theorem witness_regionCommit : ∀ n ∈ [0, 1], (commitS n).dev.live = true ∧ (commitS n).toWorld.region 3 = some (fullRegion n) ∧
    (fullRegion n).arm = some ownArm ∧ ((fullRegion n).credits = (fullRegion n).nslice ↔ n = 1) ∧
    (commitS n).toWorld.visible rBlw 0 = true ∧ ((commitS n).entry rBlw 0).isSome = true ∧
    0x80C0 = (commitS n).rf (rk 0x108 0x090) 47 12 * 4096 + 64 * 3 ∧ (commitS n).plain 0 0x80C0 2 = true := by decide +kernel

/-! ### Gates -/

theorem witness_gate : ∀ f ∈ [false, true], let r : Region := { region0 with words := [if f then 0x800000 else 0], cv := 2 ^ 16 - 1 }
    r.cv < 2 ^ 16 ∧ r.frozen = f := by decide +kernel

/-- A gated remote read of region 3 and one of a command in woodbox 0's ring. -/
def askR (e : Nat) (q : GateReq) : GateRead := ⟨0, 3, e, q⟩
def gateD : Desc := desc 0x70 0x2000 0x3000 32 0 0 0
def gateE : Entry := { entry gateD with phase := .gated }
def gateC : GateReq := .ring ⟨rWbx, gateD⟩
def gateSt (asks : List GateRead) (passed : List (GateRead × Nat)) (parked : List Parked) (rs : List Region := [region0]) : State :=
  let s := withPhase (ready [(rk 0x108 0x010, 1)]) rWbx gateD .gated
  { s with dev := { s.dev with blw := ⟨rs, asks, passed, parked, []⟩ } }

theorem witness_gatedRead : let s := gateSt [askR 5 gateC] [] []
    s.dev.live = true ∧ askR 5 gateC ∈ s.dev.blw.asks ∧ s.toWorld.gateOf (askR 5 gateC) = .pass 0 ∧
    s.toWorld.region (askR 5 gateC).wreg = some region0 := by decide +kernel

theorem witness_gatedRead_waits : let s := gateSt [askR 6 gateC] [] []
    s.dev.live = true ∧ askR 6 gateC ∈ s.dev.blw.asks ∧ s.toWorld.gateOf (askR 6 gateC) = .wait := by decide +kernel

theorem witness_gatedRead_refused : ∀ rs ∈ [[region0], []], let s := gateSt [askR 3 gateC] [] [] rs
    s.dev.live = true ∧ askR 3 gateC ∈ s.dev.blw.asks ∧ (askR 3 gateC).req = .ring ⟨rWbx, gateD⟩ ∧
    s.toWorld.gateEntry ⟨rWbx, gateD⟩ = some gateE ∧
    (s.toWorld.ringRun rWbx).entries.filter (fun x => x.idx == gateE.idx) = [gateE] ∧
    s.toWorld.gateOf (askR 3 gateC) = (if rs = [] then .invalid else .stale) := by decide +kernel

theorem witness_parked : ∀ e ∈ [5, 6], let q : Parked := ⟨0, askR e gateC, some 3000, true⟩
    let s := gateSt [] [] [q]
    s.dev.live = true ∧ s.dev.blw.parked = [q] ∧ q.due = true ∧ q.deadline = some 3000 ∧ q.read.req = .ring ⟨rWbx, gateD⟩ ∧
    s.toWorld.gateEntry ⟨rWbx, gateD⟩ = some gateE ∧
    (s.toWorld.ringRun rWbx).entries.filter (fun x => x.idx == gateE.idx) = [gateE] ∧
    bit (s.reg (rk (blwPage q.die) 0x010)) 3 = false ∧ s.toWorld.gateOf q.read = (if e = 5 then .pass 0 else .wait) := by
  decide +kernel

def servedS : State := gateSt [] [(askR 5 gateC, 0)] [] [{ region0 with readers0 := 1 }]

theorem witness_readerRelease : ∃ w, servedS.dev.live = true ∧
    (servedS.dev.blw.passed.find? fun p => p.1.wreg == 3 && p.2 == 0) = some (askR 5 gateC, 0) ∧
    (servedS.toWorld.gateServe (askR 5 gateC)).1 = some w ∧ w.region 3 = some { region0 with readers0 := 1 } ∧ region0.arm = none := by
  have h : (match (servedS.toWorld.gateServe (askR 5 gateC)).1 with
    | some w => decide (w.region 3 = some { region0 with readers0 := 1 })
    | none => false) = true := by decide +kernel
  split at h
  · rename_i w e
    exact ⟨w, by decide +kernel, by decide +kernel, e, by simpa using h, rfl⟩
  · cases h

end Sys2Proof.Tests
end

