-- ==== Sys2Proof/Tests/Witness7.lean ====
section
/-! SUPPORT. Witnesses for the statements about snapshots, checkpoints, notices and copies. -/

namespace Sys2Proof.Tests
open Sys2Proof.Machine
set_option Elab.async false

/-- Port 0 owns the device; SNP_STS shows DONE; SNP_CTL as given; the set table of one extent stands at 0x9000; job 0 or none; the
page sends no events. -/
def snpS (ctl : U64) (jobs : List Job) (sn : Snap) (sts : U64 := 1) : State :=
  let s := withWords (owned (ready [(snpSts, sts), (rk 2 0x080, ctl), (rk 2 0x090, 0x9000), (rk 2 0x010, 1), (rk 2 0x098, 0xA000),
    (rk 2 0x0D8, BitVec.ofNat 64 hostBase), (rk 2 0x0E0, BitVec.ofNat 64 (hostBase + 0x100000)), (rk 2 0x0E8, 64), (rk 0x10 0x088, 2)]))
    [(0x9000, 0x300000), (0x9008, 0x300000001)]
  { s with dev := { s.dev with jobs := jobs, snp := sn } }
def ext0 : Extent := ⟨0x300000, 2, false, true⟩
def snap0 : Snap := { Snap.empty with set := [ext0] }
/-- An active checkpoint. -/
def run0 : SnapRun := ⟨0, false, false, true, true, 0, 1, 1, 5, 3, 900, false, [], [], [], [], .firstRead, List.replicate 32 0, none⟩

/-! ### Operations -/

theorem witness_snpEnd : 15 < 16 := by decide

theorem witness_loadSet : (snpS 0 [job0] Snap.empty).owned 0 ∧ (snpS 0 [job0] Snap.empty).notHeld 2 0x0F0 ∧
    bit ((snpS 0 [job0] Snap.empty).reg snpSts) 0 = true ∧ (snpS 0 [job0] Snap.empty).dev.snp.run = none ∧
    ∃ x, loadSetA.run (Run.init (snpS 0 [job0] Snap.empty).toWorld (mantel 2)) = .ok (0, x) := by
  obtain ⟨x, e, _⟩ := runOk_val (a := loadSetA) (v := 0) (p := fun _ => true)
    (r := Run.init (snpS 0 [job0] Snap.empty).toWorld (mantel 2)) (by decide +kernel)
  exact ⟨owned_of (by decide +kernel), (by decide +kernel : (snpS 0 [job0] Snap.empty).toWorld.heldAt 2 0x0F0 = false),
    by decide +kernel, by decide +kernel, x, e⟩

theorem witness_loadSet_busy : (snpS 0 [job0] { snap0 with run := some run0 }).toWorld.heldAt 2 0x0F0 = false ∧
    bit ((snpS 0 [job0] { snap0 with run := some run0 }).reg snpSts) 0 = true ∧
    (snpS 0 [job0] { snap0 with run := some run0 }).dev.snp.run.isSome = true ∧
    ((snpS 0 [job0] snap0).toWorld.job (snpS 0 [job0] snap0).toWorld.snpJob).isSome = true := by decide +kernel

/-- No job exists. -/
def freeS : State := snpS 0 [] snap0

theorem witness_recoveries : freeS.owned 0 ∧ freeS.notHeld 2 0x0F0 ∧ bit (freeS.reg snpSts) 0 = true ∧
    freeS.toWorld.job freeS.toWorld.snpJob = none ∧ freeS.dev.net = [] ∧
    (∃ k x, rollbackA.run (Run.init freeS.toWorld (mantel 2)) = .ok (k, x)) ∧
    (∃ k x, (shipA 8191).run (Run.init freeS.toWorld (mantel 2)) = .ok (k, x)) := by
  refine ⟨owned_of (by decide +kernel), (by decide +kernel : freeS.toWorld.heldAt 2 0x0F0 = false), by decide +kernel,
    by decide +kernel, by decide +kernel, ?_, ?_⟩
  · obtain ⟨k, x, e, _⟩ := runOk_spec (a := rollbackA) (p := fun _ _ => true) (r := Run.init freeS.toWorld (mantel 2)) (by decide +kernel)
    exact ⟨k, x, e⟩
  · obtain ⟨k, x, e, _⟩ := runOk_spec (a := shipA 8191) (p := fun _ _ => true) (r := Run.init freeS.toWorld (mantel 2)) (by decide +kernel)
    exact ⟨k, x, e⟩

/-- The sink slot's record has come from the host and is not one. -/
def restoreS : State :=
  { freeS with dev := { freeS.dev with urk := { freeS.dev.urk with got := [⟨hostBase, 128, false, 0⟩, ⟨hostBase + 128, 128, false, 0⟩] } } }

theorem witness_restore : 0 < 2 ∧ restoreS.owned 0 ∧ restoreS.notHeld 2 0x0F0 ∧ bit (restoreS.reg snpSts) 0 = true ∧
    ∃ k x, (restoreA 0).run (Run.init restoreS.toWorld (mantel 2)) = .ok (k, x) := by
  refine ⟨by decide, owned_of (by decide +kernel), (by decide +kernel : restoreS.toWorld.heldAt 2 0x0F0 = false), by decide +kernel, ?_⟩
  obtain ⟨k, x, e, _⟩ := runOk_spec (a := restoreA 0) (p := fun _ _ => true) (r := Run.init restoreS.toWorld (mantel 2)) (by decide +kernel)
  exact ⟨k, x, e⟩

/-! ### Checkpoints -/

theorem witness_checkpoint : ∀ b ∈ [true, false], let s := snpS 0 [{ job0 with running := b }] snap0
    ownerB s 0 = true ∧ s.toWorld.heldAt 2 0x0F0 = false ∧ bit (s.reg snpSts) 0 = true ∧
    s.toWorld.job s.toWorld.snpJob = some { job0 with running := b } ∧ s.dev.snp.run = none ∧ job0.aborted = false ∧ job0.stopEnding = false ∧
    s.toWorld.quiet job0.num s.dev.gtime = true := by decide +kernel

/-- A bucket of the job is armed. -/
def loudS (s : State) : State := { s with dev := { s.dev with chm := { s.dev.chm with
  arms := [⟨0x409, 5, 0, rChm, 3, 9, [], [], 16, 3, [], [], [], [], [], [], 0, false, [], [], false, [], [], none, []⟩] } } }

theorem witness_checkpoint_notQuiet : let s := loudS (snpS 0 [job0] snap0)
    s.toWorld.heldAt 2 0x0F0 = false ∧ bit (s.reg snpSts) 0 = true ∧ s.toWorld.job s.toWorld.snpJob = some job0 ∧
    s.dev.snp.run = none ∧ job0.aborted = false ∧ job0.running = false ∧ s.toWorld.quiet job0.num s.dev.gtime = false := by
  decide +kernel

theorem witness_abandon : (snpS 0 [job0] { snap0 with ckptWait := true }).dev.snp.ckptWait = true ∧
    (snpS 0 [job0] snap0).dev.snp.ckptWait = false ∧ (snpS 0 [job0] snap0).dev.snp.run = none ∧
    (snpS 0 [job0] { snap0 with run := some run0 }).dev.snp.ckptWait = false ∧
    (snpS 0 [job0] { snap0 with run := some run0 }).dev.snp.run = some run0 ∧
    (snpS 0 [job0] { snap0 with run := some run0 }).dev.snp.stalled = [] := by decide +kernel

theorem witness_abandon_owned : (snpS 0 [job0] { snap0 with run := some run0 }).owned 0 := owned_of (by decide +kernel)

def stallM : UrkPkt := ⟨3, 5, 6, false, false, 128, 0x300000, 0, List.replicate 128 7⟩
def stallS : State := snpS 0 [job0] { snap0 with run := some run0, stalled := [⟨.wb stallM, 0, 700⟩] }

theorem witness_stallLimit : stallS.dev.live = true ∧ stallS.dev.snp.run = some run0 ∧
    stallS.dev.snp.stalled = [⟨.wb stallM, 0, 700⟩] ∧ stallS.dev.urk.home = [] := by decide +kernel

/-! ### Cuts -/

/-- Job 0 running, its step counter advanced to 6 at the boundary that falls now. -/
def cutS (ctl : U64) (wait : Bool) : State :=
  let s := snpS ctl [{ job0 with running := true, step := 6 }] { snap0 with ckptWait := wait }
  { s with dev := { s.dev with tik := { Tik.start with bnd := some 1000, stepped := [0] } } }

theorem witness_cuts : ∀ x ∈ [((0x30001 : Nat), false), (0, true)], let s := cutS (BitVec.ofNat 64 x.1) x.2
    s.dev.live = true ∧ s.toWorld.job s.toWorld.snpJob = some { job0 with running := true, step := 6 } ∧
    s.dev.tik.bnd = some s.dev.gtime ∧ s.dev.tik.stepped.contains s.toWorld.snpJob = true ∧ 6 ≠ job0.step0 ∧ s.dev.snp.run = none ∧
    s.dev.snp.elig = none ∧ bit (s.reg (rk 2 0x080)) 0 = !x.2 ∧ (x.2 = false → 6 % s.toWorld.every = 0) ∧ s.dev.snp.ckptWait = x.2 ∧
    s.toWorld.quiet s.toWorld.snpJob s.dev.gtime = true ∧ (loudS s).toWorld.quiet (loudS s).toWorld.snpJob (loudS s).dev.gtime = false := by
  decide +kernel

/-! ### Capture, copies, and the flush read -/

/-- An ember copy of a set of CKPT granules. -/
def emberRun (hdr ckpt : Bool) : SnapRun := { run0 with ember := true, hdr := hdr, ckpt := ckpt, cmd := ckpt }

theorem witness_granuleCapture : let r := { run0 with ember := true, ckpt := false, cmd := false }
    let s := snpS 0 [job0] { snap0 with run := some r } 5
    s.dev.live = true ∧ s.dev.snp.run = some r ∧ s.toWorld.nextGranule r = some 0 ∧ granAddr s.dev.snp.set 0 = some (0x300000, ext0) ∧
    s.dev.snp.stalled = [] ∧ ext0.ember = false ∧ r.ckpt = false ∧ r.bad = none ∧ r.captured.length + 1 < granTotal s.dev.snp.set ∧
    0xA000 = s.rf (rk 2 0x098) 47 12 * 4096 + 0 / 8 ∧ s.toWorld.place 0xA000 = .hbm ∧ s.dev.urk.dir = [] ∧ s.dev.urk.home = [] ∧
    s.dev.urk.snoops = [] ∧ restB s = true := by decide +kernel

theorem witness_emberCopyComplete : ∀ c ∈ [true, false], let s := snpS 0 [job0] { snap0 with run := some (emberRun true c) }
    s.dev.live = true ∧ s.dev.snp.run = some (emberRun true c) ∧ (emberRun true c).ember = true ∧ (emberRun true c).hdr = true ∧
    (emberRun true c).ckpt = c ∧ s.toWorld.rangeVisible (s.toWorld.keepAt (emberRun true c).eslot) 64 = true := by decide +kernel

/-- The flush read has returned, clean or poisoned. -/
def flushRun : SnapRun := { run0 with phase := .flush, kslot := 1 }
def flushS (p : Bool) : State :=
  let s := snpS 0 [job0] { snap0 with run := some flushRun }
  { s with dev := { s.dev with urk := { s.dev.urk with got := [⟨hostBase + 0x100000, 8, p, 0⟩] } } }

theorem witness_ckptFlushReturn : ∀ p ∈ [true, false], (flushS p).dev.live = true ∧ (flushS p).dev.snp.run = some flushRun ∧
    flushRun.ckpt = true ∧ flushRun.phase = .flush ∧ (flushS p).toWorld.recordGot flushRun = some p ∧ (flushS p).dev.snp.stalled = [] ∧
    flushRun.ember = false ∧ flushRun.bad = none ∧ flushRun.prev.length = 32 ∧ (flushS p).dev.urk.reqs = [] ∧ (flushS p).dev.urk.home = [] ∧
    (flushS p).toWorld.portUp (((flushS p).toWorld.sinkAt flushRun.kslot - hostBase) / 0x200000000000) = true := by decide +kernel

/-! ### Notices, halts and DONEs -/

/-- NOTICE_EN set, LEAD 2; the tick runs; group 0 is received by this device alone. -/
def noticeS : State :=
  let s := snpS 0x200000004 [{ job0 with running := true }] snap0
  { s with dev := { s.dev with
      regs := mapSet (mapSet s.dev.regs (regReset (rk 1 0x080)) (rk 1 0x080) 1) (regReset (rk 2 0x158)) (rk 2 0x158) 1
      groups := [(0, 0xC0000)], tik := { Tik.start with bnd := some 900 } } }

theorem witness_notices : noticeS.dev.live = true ∧ noticeS.dev.snp.halt = none ∧ bit (noticeS.reg (rk 2 0x010)) 3 = false ∧
    2 = (0 + noticeS.toWorld.lead) % 2 ^ 48 ∧ noticeS.toWorld.tickBegun 2 = false ∧ (noticeS.toWorld.at 950).tickBegun 2 = false ∧ bit (noticeS.reg (rk 2 0x080)) 2 = true ∧
    noticeS.dev.pwr.freezeAt = none ∧ 0 = noticeS.toWorld.tickOf 950 ∧ 0 = noticeS.toWorld.tickNow ∧
    (noticeS.toWorld.group (noticeS.rf (rk 2 0x088) 27 16)).testBit 19 = true ∧
    (noticeS.toWorld.group (noticeS.rf (rk 2 0x088) 27 16)).testBit 18 = true ∧
    noticeS.toWorld.groupPorts (noticeS.rf (rk 2 0x088) 27 16) none = [] := by decide +kernel

theorem witness_notices_owned : noticeS.owned 0 := owned_of (by decide +kernel)

theorem witness_haltMessage : (noticeS.dev.live = true ∧ ∀ d ∈ [0, 1], ∀ k ∈ [7, 0], noticeS.toWorld.arrives (.halt k d) = true) ∧ bit (noticeS.reg (rk 2 0x010)) 3 = false ∧ 0 = noticeS.toWorld.devId ∧
    1 ≠ noticeS.toWorld.devId ∧ noticeS.toWorld.tickBegun 7 = false ∧ noticeS.dev.snp.halt = none ∧ 7 < 2 ^ 64 ∧
    noticeS.toWorld.tickBegun 0 = true := by decide +kernel

/-- The halt tick begins at the next boundary. -/
def haltS : State :=
  { noticeS with dev := { noticeS.dev with snp := { snap0 with halt := some 1 }, tik := { Tik.start with bnd := some 900, next := some 2000 } } }

theorem witness_haltBoundary : haltS.dev.live = true ∧ haltS.dev.snp.halt = some 1 ∧ haltS.dev.tik.next = some 2000 ∧
    haltS.dev.tik.bnd.isSome = true ∧ haltS.toWorld.running = true ∧ 1 ≤ haltS.toWorld.tickNext ∧
    haltS.toWorld.job 0 = some { job0 with running := true } ∧ bit (haltS.reg (rk 2 0x158)) 0 = true := by decide +kernel

theorem witness_emberDone : let s := snpS 0 [job0] { snap0 with copies := [(1, 6)] }
    let m : EmberMsg := ⟨6, 0, 0⟩
    (s.dev.live = true ∧ s.toWorld.arrives (.emberDone m) = true) ∧ bit (s.reg (rk 2 0x010)) 3 = false ∧ 1 < 2 ∧ m.step < 2 ^ 32 ∧ m.result = 0 ∧ s.toWorld.common = none ∧
    s.dev.snp.copies = [(1, m.step)] ∧ s.rf (rk 2 0x088) 44 32 = 0 := by decide +kernel

end Sys2Proof.Tests
end

