-- ==== Sys2Proof/Tests/Witness6.lean ====
section
/-! SUPPORT. Witnesses for the statements about register writes, events, hosts and Urrek. -/

namespace Sys2Proof.Tests
open Sys2Proof.Machine
set_option Elab.async false

/-! ### Registers and events -/

theorem witness_evtMask : (owned ready).owned 0 ∧ ∀ page ∈ [0, 0x13, 0x10FF], (pageInfo page).isSome = true :=
  ⟨owned_of (by decide +kernel), by decide +kernel⟩

/-- Port 0 owns the device, and port 3 sends no events. -/
def denyS : State := owned (ready [(rk 0x13 0x010, 1), (rk 0x13 0x088, 2)])

theorem witness_evtMask_denied : hostB denyS 3 = true ∧ denyS.dev.urk.owner ≠ some 3 ∧
    (∀ page ∈ [0, 0x13, 0x10FF], (pageInfo page).isSome = true ∧ page < 0x4000) ∧ bit (denyS.reg (rk (0x10 + 3) 0x010)) 3 = false := by
  decide +kernel

theorem witness_blkCtlEn : (owned ready).owned 0 ∧ ∀ page ∈ [0, 0x13, 0x31],
    (pageInfo page).isSome = true ∧ pageRings page = [] ∧ bit ((owned ready).reg (rk page 0x010)) 1 = false :=
  ⟨owned_of (by decide +kernel), by decide +kernel⟩

theorem witness_srst : (owned ready).owned 0 ∧ ∀ x ∈ [(0, Blk.mgt, 0), (2, .snp, 0), (3, .sec, 0), (0x107, .hrt, 7), (0x153, .hbm, 19), (9, .gst, 1)],
    pageInfo x.1 = some x.2 ∧ x.2.1 ∈ [Blk.mgt, .snp, .sec, .hrt, .hbm, .gst] := ⟨owned_of (by decide +kernel), by decide +kernel⟩

/-- Port 3 with an event ring enabled at 0x4000; LOG2SZ 12, TAIL 0, HEAD 0. -/
def evtRing (en : U64) : List (Nat × U64) := [(rk 0x13 0x088, 2), (rk 0x13 0x0C0, 0x4018 + en), (rk 0x13 0x040, 0xFFFFFFFF)]

theorem witness_ringSetupBase : let s := owned (ready [(rk 0x13 0x088, 2)]); ∀ x ∈ [(0, 0x120, 0x098), (3, 0x13, 0x0C0), (0, 0x117, 0x080)],
    hostB s x.1 = true ∧ setupReg x.2.1 x.2.2 = true ∧ (∀ l ∈ [11, 12, 24, 25], s.toWorld.mayWrite x.1 x.2.1 x.2.2 (BitVec.ofNat 64 (2 * l + 1)) = true ∧
      bit (BitVec.ofNat 64 (2 * l + 1)) 0 = true) := by decide +kernel

theorem witness_raise : ∀ m ∈ [true, false], let w := (ready [(rk 6 0x010, 9), (rk 6 0x028, if m then 0x200000 else 0)]).toWorld
    0x15 < 0x40 ∧ (6 < 0x10 ∨ 0x14 ≤ 6) ∧ w.eventPort (some 3) 0 = some 3 ∧ 3 < 4 ∧
    ((bit (w.reg (rk 6 0x010)) 3 = false ∨ bit (w.reg (rk 6 0x028)) 0x15 = true) ↔ m = true) ∧
    bit (w.reg (rk (0x10 + 3) 0x0C0)) 0 = false := by decide +kernel

/-! ### Requests of hosts -/

/-- Port 3 is up. -/
def hostS (u : Urk := Urk.empty) : State := let s := ready [(rk 0x13 0x088, 2), (rk 0x13 0x010, 1)]; { s with dev := { s.dev with urk := u } }
def hostP (addr len : Nat) (mask : Nat := 0) (data : List Byte := []) : UrkPkt := ⟨3, 5, 6, false, false, len, addr, mask, data⟩
def lineData : List Byte := (List.range 128).map (BitVec.ofNat 8)

theorem witness_reads : ∀ a ∈ [0x3000, 0x3018], let m := hostP a 104
    (hostS.dev.live = true ∧ m.port < 4 ∧ hostS.toWorld.portUp m.port = true) ∧ 0 < m.len ∧
    hostS.plain (0x2028 + m.port) m.addr m.len = true ∧ hostS.poisonAt (lineOf m.addr) = false ∧ hostS.toWorld.place m.addr = .hbm ∧
    hostS.plain (0x2028 + m.port) (lineOf m.addr) 128 = true ∧ hostS.toWorld.victim (lineOf m.addr) = none := by decide +kernel

theorem witness_hears : hostS.asks (hostP 0x3000 32) :=
  (by decide +kernel : (hostS.dev.live = true ∧ (hostP 0x3000 32).port < 4 ∧ hostS.toWorld.portUp (hostP 0x3000 32).port = true) ∧
    ((hostP 0x3000 32).srcid = 0 → hostS.toWorld.portWaits (hostP 0x3000 32).port = false))

theorem witness_wrUc : let m := hostP 0x3018 0 (2 ^ 128 - 2 ^ 32) lineData
    hostS.toWorld.place m.addr = .hbm ∧ maskedBytes m = [(0x3020, lineData.drop 32)] ∧ lineData.drop 32 ≠ [] ∧
    hostS.plain (0x2028 + m.port) (lineOf m.addr) 128 = true ∧
    hostS.plain (0x2028 + m.port) 0x3020 (lineData.drop 32).length = true ∧ lineOf 0x3020 = lineOf m.addr := by decide +kernel

/-- Lines that hosts hold. -/
def dirS (e : DirEntry) : State := hostS { Urk.empty with dir := [⟨0x5000, false, [1]⟩, e] }

theorem witness_wb : let m := hostP 0x3000 128 0 lineData
    let s := dirS ⟨0x3000, true, [3]⟩
    (s.dev.live = true ∧ m.port < 4 ∧ s.toWorld.portUp m.port = true) ∧ calmB s = true ∧
    0x3000 = lineOf m.addr ∧ s.toWorld.place m.addr = .hbm ∧
    s.dev.urk.dir.filter (fun x => x.line == 0x3000) = [⟨0x3000, true, [m.port]⟩] ∧ m.data.length = 128 ∧ m.poison = false := by
  decide +kernel

theorem witness_evict : ∀ ps ∈ [[3], [1, 3]], let m := hostP 0x3000 0
    let s := dirS ⟨0x3000, false, ps⟩
    (s.dev.live = true ∧ m.port < 4 ∧ s.toWorld.portUp m.port = true) ∧ calmB s = true ∧
    0x3000 = lineOf m.addr ∧ s.toWorld.place m.addr = .hbm ∧
    s.dev.urk.dir.filter (fun x => x.line == 0x3000) = [⟨0x3000, false, ps⟩] := by decide +kernel

/-! ### Foreign writes and streams -/

theorem witness_foreignWr : let m := hostP 0x3000 32 0 (lineData.take 32)
    hostS.dev.urk.foreign = [] ∧ m.poison = false ∧ m.data ≠ [] ∧ hostS.plain (0x2028 + m.port) m.addr m.data.length = true := by
  decide +kernel

def foreign0 : Foreign := ⟨3, 5, 0x3000, lineData.take 32, false⟩

theorem witness_flushRd : let m := hostP 0x3000 8
    let s := hostS { Urk.empty with foreign := [foreign0], streams := [⟨3, 5, 0x6000, [], []⟩] }
    (s.dev.live = true ∧ m.port < 4 ∧ s.toWorld.portUp m.port = true) ∧ s.dev.urk.home = [] ∧ s.dev.urk.foreign = [foreign0] ∧
    foreign0.port = m.port ∧ foreign0.srcid = m.srcid ∧ foreign0.poison = false ∧ foreign0.data ≠ [] ∧
    s.plain (0x2028 + m.port) foreign0.addr foreign0.data.length = true ∧ s.plain (0x2028 + m.port) m.addr 8 = true ∧
    s.poisonAt (lineOf m.addr) = false := by decide +kernel

theorem witness_streamRd : ∀ x ∈ hostS.dev.urk.streams, x.port = (hostP 0x3000 32).port → x.srcid ≠ (hostP 0x3000 32).srcid := by
  decide +kernel

/-! ### Snoops and answers -/

theorem witness_snpAck : ∀ sh ∈ [true, false], let m := hostP 0x3000 128 0 lineData
    let q : Snoop := ⟨0x3000, 3, sh, 5000, false⟩
    let e : DirEntry := ⟨0x3000, true, [3]⟩
    let s := hostS { Urk.empty with dir := [e], snoops := [q] }
    (s.dev.live = true ∧ m.port < 4 ∧ s.toWorld.portUp m.port = true) ∧ calmB s = true ∧
    s.toWorld.place q.line = .hbm ∧ q.line = lineOf m.addr ∧ q.port = m.port ∧ q.acked = false ∧
    s.dev.urk.snoops.filter (fun x => x.line == q.line && x.port == q.port) = [q] ∧ e.line = q.line ∧
    s.dev.urk.dir.filter (fun x => x.line == e.line) = [e] ∧ m.data.length = 128 ∧ m.poison = false ∧ e.ports ≠ [] := by decide +kernel

theorem witness_snpInv : ∀ d ∈ [true, false], let m := hostP 0x3000 128
    let x : HostLine := ⟨hostBase + 3 * 0x200000000000 + 0x3000, true, d⟩
    let s := hostS { Urk.empty with lines := [x] }
    (s.dev.live = true ∧ m.port < 4 ∧ s.toWorld.portUp m.port = true) ∧ s.dev.urk.lines.filter (fun y => y.addr == x.addr) = [x] ∧
    x.addr = lineOf (hostBase + m.port * 0x200000000000 + m.addr % 2 ^ 45) := by decide +kernel

/-- A device request of port 3 that the packets with tag 6 answer. -/
def reqS (op : Nat) : State :=
  let s := hostS { Urk.empty with reqs := [⟨3, 6, op, hostBase + 3 * 0x200000000000 + 0x3000, 32, some (rStv, 0), none, false⟩] }
  { s with dev := { s.dev with rings := [⟨rStv, 1, [{ entry (desc 1 0 0 0 0 0 0) with phase := .done }], none, 0, false, false⟩] } }

theorem witness_answers : ∀ op ∈ [3, 4], let m := hostP 0 32 0 (lineData.take 32)
    let q : DevReq := ⟨3, 6, op, hostBase + 3 * 0x200000000000 + 0x3000, 32, some (rStv, 0), none, false⟩
    ((reqS op).dev.live = true ∧ m.port < 4 ∧ (reqS op).toWorld.portUp m.port = true) ∧
    calmB (reqS op) = true ∧
    (reqS op).dev.urk.reqs.find? (fun x => x.port == m.port && x.tag == m.tag) = some q ∧ q.len ≤ m.data.length ∧ (q.op = 4 ↔ op = 4) ∧
    q.owner = some (rStv, 0) ∧ ((reqS op).entry rStv 0).map Entry.status = some stOk := by decide +kernel

/-! ### Ports -/

theorem witness_urkPortUp : let s := ready [(rk 0x13 0x080, 1), (rk 0x13 0x088, 1)]
    s.dev.live = true ∧ 3 < 4 ∧ bit (s.reg (rk (0x10 + 3) 0x080)) 0 = true ∧ s.rf (rk (0x10 + 3) 0x088) 1 0 = 1 := by decide +kernel

/-- Port 3, up, holds a line modified, and a snoop to it is outstanding. -/
def downS : State := hostS { Urk.empty with owner := some 3, dir := [⟨0x3000, true, [3]⟩], snoops := [⟨0x3000, 3, false, 5000, false⟩] }

theorem witness_urkPortDown : downS.dev.live = true ∧ 3 < 4 ∧
    calmB downS = true ∧ downS.toWorld.portUp 3 = true ∧
    bit (downS.reg (rk (0x10 + 3) 0x010)) 3 = false ∧ downS.dev.urk.snoops = [⟨0x3000, 3, false, 5000, false⟩] := by decide +kernel

theorem witness_urkCtl : ∀ b ∈ [false, true], let s := owned (ready [(rk 0x13 0x080, if b then 1 else 0), (rk 0x13 0x088, if b then 1 else 0)])
    ownerB s 0 = true ∧ 3 < 4 ∧ s.toWorld.portUp 3 = false ∧
    bit (s.reg (rk (0x10 + 3) 0x080)) 0 = b := by decide +kernel

/-! ### Links and ownership -/

def link0 : Link := ⟨3, 4095, [(7, 32), (8, 64)], 2, false⟩
def linkS : State := hostS { Urk.empty with links := [(0x13, link0)] }

theorem witness_urkLink : linkS.dev.live = true ∧ 3 < 4 ∧ linkS.toWorld.link (0x10 + 3) = some link0 ∧ 4095 < 4096 ∧ 4095 = link0.rxNext ∧
    link0.replays < 16 ∧ link0.replay = [] ++ (7, 32) :: [(8, 64)] ∧ link0.replay = [(7, 32)] ++ (8, 64) :: [] ∧
    (∀ x ∈ [(7, 32)], x.1 ≠ 8) := by decide +kernel

theorem witness_urkTrainingFail : let s := ready [(rk 0x13 0x080, 1), (rk 0x13 0x088, 1)]
    s.dev.live = true ∧ 3 < 4 ∧ bit (s.reg (rk (0x10 + 3) 0x080)) 0 = true ∧ s.rf (rk (0x10 + 3) 0x088) 1 0 ≤ 1 ∧ 254 < 255 := by
  decide +kernel

theorem witness_urkReservedOp : hostS.dev.live = true ∧ 3 < 4 ∧ hostS.toWorld.portUp 3 = true ∧ (∀ op ∈ [0x24, 0xFF], 0x24 ≤ op ∧ op < 256) ∧
    bit (hostS.reg (rk (0x10 + 3) 0x010)) 3 = false := by decide +kernel

theorem witness_claims : hostB ready 0 = true ∧ ready.dev.urk.owner = none ∧ hostB (owned ready) 0 = true ∧
    (owned ready).dev.urk.owner.isSome = true ∧ (owned ready).dev.urk.owner = some 0 ∧ ready.dev.urk.owner ≠ some 0 := by
  decide +kernel

/-- The highest job that does not exist goes to port 3. -/
theorem witness_urkJobs : (owned ready).owned 0 ∧ 3 < 4 ∧
    (∀ j, j < 64 → bit (0x8000000000000000 : U64) j = bit ((owned ready).reg (rk (0x10 + 3) 0x098)) j ∨ (owned ready).toWorld.job j = none) ∧
    (∀ j, j < 64 → bit (0x8000000000000000 : U64) j = true → ∀ q, q < 4 → q ≠ 3 →
      bit ((owned ready).reg (rk (0x10 + q) 0x098)) j = false) :=
  ⟨owned_of (by decide +kernel), by decide +kernel⟩

/-- Stove 255 goes to port 3. -/
theorem witness_urkStoves : (owned ready).owned 0 ∧ 3 < 4 ∧
    (∀ b, b < 64 → ∀ n, n < 4 → bit (0x8000000000000000 : U64) b = bit ((owned ready).reg (rk (0x10 + 3) (0x0A0 + 8 * 3))) b ∨
      bit ((owned ready).reg (rgk ⟨0x1000 + 64 * 3 + b, n⟩ 0)) 0 = false) ∧
    (∀ b, b < 64 → bit (0x8000000000000000 : U64) b = true → ∀ q, q < 4 → q ≠ 3 →
      bit ((owned ready).reg (rk (0x10 + q) (0x0A0 + 8 * 3))) b = false) :=
  ⟨owned_of (by decide +kernel), by decide +kernel⟩

end Sys2Proof.Tests
end

