-- ==== Sys2Proof/Tests/Witness8.lean ====
section
/-! SUPPORT. Witnesses for the statements about network accesses, event records, the locality window, SLM split, scrubbing, flue
ports, routes and the expert directory. -/

namespace Sys2Proof.Tests
open Sys2Proof.Machine
set_option Elab.async false

/-! ### Network accesses -/

/-- A packet of job 0 for node 0x2000 from node 0x2020. -/
def netP (typ a1 a2 : Nat) (a3 : U64 := 0) (payload : List Byte := []) : NetPkt :=
  ⟨0x2000, 0x2020, 0, typ, 0, false, false, 0, BitVec.ofNat 64 a1, 0, 6, a2, a3, payload⟩

theorem witness_rd : (ready.dev.live = true ∧ ready.toWorld.arrives (.net (netP 1 0x3000 3)) = true) ∧ nodeUsed (netP 1 0x3000 3).dst = true ∧ (netP 1 0x3000 3).rmt = false ∧
    ready.plain (netP 1 0x3000 3).src (netP 1 0x3000 3).a1.toNat (rdBytes (netP 1 0x3000 3)) = true ∧
    ready.poisonAt (lineOf (netP 1 0x3000 3).a1.toNat) = false := by decide +kernel

theorem witness_wr : let p := netP 2 0x3018 0 0 (lineData.take 32)
    (ready.dev.live = true ∧ ready.toWorld.arrives (.net p) = true) ∧ nodeUsed p.dst = true ∧ p.rmt = false ∧ p.poison = false ∧ p.payload ≠ [] ∧
    ready.plain p.src p.a1.toNat p.payload.length = true ∧ ready.plain p.src (lineOf p.a1.toNat) 128 = true := by decide +kernel

theorem witness_atomic : ∀ k ∈ [0, 1, 2], let p := netP 3 0x301C 0 (BitVec.ofNat 64 k) (List.replicate 8 0xFF)
    (ready.dev.live = true ∧ ready.toWorld.arrives (.net p) = true) ∧ nodeUsed p.dst = true ∧ p.rmt = false ∧ 0x3018 = p.a1.toNat / 8 * 8 ∧
    ready.plain p.src 0x3018 8 = true ∧ ready.plain p.src (lineOf 0x3018) 128 = true ∧ fld p.a3 1 0 = k := by decide +kernel

/-- A request to guest site 1 that packets with tag 6 answer. -/
def siteReq : DevReq := ⟨5, 6, 1, 0xC00000000000, 32, none, none, false⟩
def siteS : State := { ready with dev := { ready.dev with urk := { Urk.empty with reqs := [siteReq] } } }

theorem witness_responses : ∀ t ∈ [0x10, 0x11], let p := { netP t 0 0 0 (lineData.take 32) with src := 0x3100 }
    (siteS.dev.live = true ∧ siteS.toWorld.arrives (.net p) = true) ∧ nodeUsed p.dst = true ∧ calmB siteS = true ∧ 1 < 2 ∧ p.src / 256 = 0x30 + 1 ∧
    siteS.dev.urk.reqs.find? (fun x => x.port == 4 + 1 && x.tag == p.tag) = some siteReq ∧ siteReq.len ≤ p.payload.length ∧
    siteReq.owner = none ∧ p.typ = t := by decide +kernel

theorem witness_rd_unused : let p := { netP 1 0x3000 3 with dst := 0x20FF }
    let s := ready [(rk (nodeDbg p.dst) 0x010, 1)]
    (s.dev.live = true ∧ s.toWorld.arrives (.net p) = true) ∧ nodeUsed p.dst = false ∧ bit (s.reg (rk (nodeDbg p.dst) 0x010)) 3 = false := by decide +kernel

/-! ### Event records -/

def eventE : EventPkt := ⟨0x13, 5, 0, 0, 7⟩
def evtS (regs : List (Nat × U64)) : State := let s := ready regs; { s with dev := { s.dev with urk := { s.dev.urk with owner := some 3 } } }

theorem witness_event_dropped : (evtS [(rk 0x13 0x040, 0xFFFFFFFF)]).dev.live = true ∧
    (evtS [(rk 0x13 0x040, 0xFFFFFFFF)]).toWorld.eventPort none eventE.d0 = some 3 ∧ 3 < 4 ∧
    1 = (if (evtS [(rk 0x13 0x040, 0xFFFFFFFF)]).rf (rk (0x10 + 3) 0x040) 31 0 = 2 ^ 32 - 1 then 1
      else (evtS [(rk 0x13 0x040, 0xFFFFFFFF)]).rf (rk (0x10 + 3) 0x040) 31 0 + 1) ∧
    bit ((evtS [(rk 0x13 0x040, 0xFFFFFFFF)]).reg (rk (0x10 + 3) 0x0C0)) 0 = false := by decide +kernel

/-- The ring of 4,096 bytes at 0x4000 has room for one record; TAIL stands at its last slot. -/
def ringS : State := evtS ((rk 0x13 0x0C8, 0x200000FE0) :: evtRing 1)

theorem witness_event_written : ringS.dev.live = true ∧ ringS.toWorld.eventPort none eventE.d0 = some 3 ∧
    1 = (if ringS.rf (rk (0x10 + 3) 0x040) 31 0 = 2 ^ 32 - 1 then 1 else ringS.rf (rk (0x10 + 3) 0x040) 31 0 + 1) ∧
    bit (ringS.reg (rk (0x10 + 3) 0x0C0)) 0 = true ∧ ringS.toWorld.portUp 3 = true ∧
    4096 = 2 ^ ringS.rf (rk (0x10 + 3) 0x0C0) 5 1 ∧
    32 + (ringS.rf (rk (0x10 + 3) 0x0C8) 31 0 + 2 ^ 32 - ringS.rf (rk (0x10 + 3) 0x0C8) 63 32) % 2 ^ 32 ≤ 4096 ∧
    ringS.rf (rk (0x10 + 3) 0x0D0) 47 7 = 0 ∧
    0x4FE0 = ringS.rf (rk (0x10 + 3) 0x0C0) 47 12 * 4096 + ringS.rf (rk (0x10 + 3) 0x0C8) 31 0 % 4096 ∧
    ringS.plain 0x2036 0x4FE0 32 = true := by decide +kernel

/-! ### Locality, split and scrubbing -/

def locS (jobs : List Job) : State := let s := owned ready; { s with dev := { s.dev with jobs := jobs } }

theorem witness_wbxHbmLoc : (locS []).owned 0 ∧ (locS []).dev.jobs = [] ∧ (locS []).toWorld.anyRingOn = false ∧
    (locS []).toWorld.tracksHbm = false ∧ (∀ v ∈ [0, 512, 393216], fld (BitVec.ofNat 64 v) 18 0 % 512 = 0 ∧ fld (BitVec.ofNat 64 v) 18 0 ≤ 393216) ∧
    (locS [job0]).dev.jobs ≠ [] ∧ 393216 < fld (BitVec.ofNat 64 393728) 18 0 ∧ fld (BitVec.ofNat 64 1) 18 0 % 512 ≠ 0 ∧ 0 < 3 ∧ 3 < 4 :=
  ⟨owned_of (by decide +kernel), by decide +kernel⟩

theorem witness_wbxHbmLoc_owned : (locS [job0]).owned 0 := owned_of (by decide +kernel)

/-- Slice 3 with k segments split off and its change done or not; a byte in its second segment. -/
def splitS (sts : U64) : State :=
  let s := owned (ready [(rk 0x127 0x088, sts), (rk 0x127 0x080, 3)])
  { s with mem := ⟨s.mem.cells ++ [(slmAddr 3 + 0x1800000, 9)], []⟩ }

theorem witness_slmSplit : (splitS 0x21).owned 0 ∧ 3 < 4 ∧ (splitS 0x21).notHeld (0x124 + 3) 0x080 ∧
    bit ((splitS 0x21).reg (rk (0x124 + 3) 0x088)) 0 = true ∧ (∀ v ∈ [0, 1, 8], fld (BitVec.ofNat 64 v) 3 0 ≤ 8) ∧
    8 < fld (9 : U64) 3 0 :=
  ⟨owned_of (by decide +kernel), by decide, (by decide +kernel : (splitS 0x21).toWorld.heldAt (0x124 + 3) 0x080 = false),
    by decide +kernel⟩

theorem witness_slmSplitDone : (splitS 0x20).dev.live = true ∧ 3 < 4 ∧ bit ((splitS 0x20).reg (rk (0x124 + 3) 0x088)) 0 = false ∧
    3 = (splitS 0x20).rf (rk (0x124 + 3) 0x080) 3 0 := by decide +kernel

/-- Every stack's scrubber runs; one line is poisoned or none. -/
def scrubS (bad : List Nat) : State :=
  let s := ready ((List.range 20).flatMap fun k => [(rk (0x140 + k) 0x090, 1), (rk (0x140 + k) 0x010, 1)])
  { s with mem := ⟨s.mem.cells, bad⟩ }

theorem witness_scrub : ∀ bad ∈ [[], [0x3000]], ∃ k q off, (scrubS bad).dev.live = true ∧ (scrubS bad).toWorld.place 0x3020 = .hbm ∧
    (scrubS bad).toWorld.hbmLocate 0x3020 = some (k, q, off) ∧ k < 20 ∧ (scrubS bad).rf (rk (0x140 + k) 0x090) 31 0 ≠ 0 ∧
    (scrubS bad).toWorld.lastBurst k q off = false ∧ ((scrubS bad).poisonAt (lineOf 0x3020) = true ↔ bad = [0x3000]) ∧
    bit ((scrubS bad).reg (rk (0x120 + k / 5) 0x098)) 6 = false ∧ bit ((scrubS bad).reg (rk (0x120 + k / 5) 0x098)) 0 = false ∧
    bit ((scrubS bad).reg (rk (0x140 + k) 0x010)) 3 = false ∧ (scrubS bad).dev.upsets = [] := by
  have h : ∀ bad ∈ [[], [0x3000]], (match (scrubS bad).toWorld.hbmLocate 0x3020 with
    | some (k, q, off) => decide ((scrubS bad).dev.live = true ∧ (scrubS bad).toWorld.place 0x3020 = .hbm ∧ k < 20 ∧
        (scrubS bad).rf (rk (0x140 + k) 0x090) 31 0 ≠ 0 ∧ (scrubS bad).toWorld.lastBurst k q off = false ∧
        ((scrubS bad).poisonAt (lineOf 0x3020) = true ↔ bad = [0x3000]) ∧
        bit ((scrubS bad).reg (rk (0x120 + k / 5) 0x098)) 6 = false ∧ bit ((scrubS bad).reg (rk (0x120 + k / 5) 0x098)) 0 = false ∧
        bit ((scrubS bad).reg (rk (0x140 + k) 0x010)) 3 = false)
    | none => false) = true := by decide +kernel
  intro bad hb
  have g := h bad hb
  split at g
  · rename_i k q off e
    obtain ⟨a, b, c, d, f, i, j, l, m⟩ := of_decide_eq_true g
    exact ⟨k, q, off, a, b, e, c, d, f, i, j, l, m, rfl⟩
  · cases g

/-! ### Flue ports and routes -/

theorem witness_fluCtl : ∀ b ∈ [0, 1], let s := owned (ready [(rk 0x31 0x080, BitVec.ofNat 64 b)])
    ownerB s 0 = true ∧ 17 < 18 ∧ (bit (s.reg (rk (0x20 + 17) 0x080)) 0 = true ↔ b = 1) := by
  decide +kernel

/-- Flue port 17 enabled; its state as given; this device is number 5 and its number is valid. -/
def flueS (sts : U64) (links : List (Nat × Link)) (routes : List (Nat × Nat)) : State :=
  let s := owned (ready [(rk 0x31 0x080, 1), (rk 0x31 0x088, sts), (rk 0x31 0x010, 1), (rk 6 0x080, 0x2005), (rk 6 0x010, 1)])
  { s with dev := { s.dev with urk := { s.dev.urk with links := links }, routes := routes } }

theorem witness_fluePortUp : (flueS 1 [] []).dev.live = true ∧ 17 < 18 ∧ 8191 < 8192 ∧ 31 < 32 ∧
    bit ((flueS 1 [] []).reg (rk (0x20 + 17) 0x080)) 0 = true ∧ (flueS 1 [] []).rf (rk (0x20 + 17) 0x088) 1 0 = 1 := by decide +kernel

def flueL : Link := ⟨3, 4095, [(7, 32), (8, 64)], 16, false⟩

theorem witness_flueLink : let s := flueS 0x3FE [(0x31, flueL)] []
    s.dev.live = true ∧ 17 < 18 ∧ s.toWorld.link (0x20 + 17) = some flueL ∧ 4095 < 4096 ∧ 4095 = flueL.rxNext ∧
    flueL.replay = [] ++ (7, 32) :: [(8, 64)] ∧ flueL.replay = [(7, 32)] ++ (8, 64) :: [] ∧ (∀ x ∈ [(7, 32)], x.1 ≠ 8) ∧
    16 ≤ flueL.replays ∧ { flueL with replays := 15 }.replays < 16 ∧ bit (s.reg (rk (0x20 + 17) 0x010)) 3 = false := by decide +kernel

theorem witness_flueLaneFail : let s := flueS 0x3FE [(0x31, flueL)] []
    s.dev.live = true ∧ 17 < 18 ∧ 7 < 8 ∧ bit (s.reg (rk (0x20 + 17) 0x080)) 0 = true ∧ s.rf (rk (0x20 + 17) 0x088) 1 0 = 2 := by
  decide +kernel

/-- The route tables lie at 0x10000 and 0x18000. -/
def routeS : State := owned (ready [(rk 6 0x0A0, 1), (rk 6 0x088, 0x10000), (rk 6 0x090, 0x18000)])

theorem witness_routeLoad : routeS.owned 0 ∧ routeS.notHeld 6 0x098 ∧ bit (routeS.reg (rk 6 0x0A0)) 0 = true ∧
    0x10000 = routeS.rf (rk 6 0x088) 47 12 * 4096 ∧ 0x18000 = routeS.rf (rk 6 0x090) 47 12 * 4096 ∧
    (∀ i ∈ List.range 256, routeS.plain 0x2020 (0x10000 + 128 * i) 128 = true ∧ routeS.poisonAt (0x10000 + 128 * i) = false) ∧
    (∀ i ∈ List.range 128, routeS.plain 0x2020 (0x18000 + 128 * i) 128 = true ∧ routeS.poisonAt (0x18000 + 128 * i) = false) :=
  ⟨owned_of (by decide +kernel), (by decide +kernel : routeS.toWorld.heldAt 6 0x098 = false), by decide +kernel⟩

/-- A packet from device 1 arrives on port 17; device 9 lies behind port 17 again. -/
def packetS : State := flueS 0x3FE [(0x31, ⟨0, 0, [], 0, false⟩)] [(9, 0x411)]

theorem witness_fabricPacket : ∀ x ∈ [(5, 0), (9, 63), (9, 0)], let h : FabHdr := ⟨x.1, false, 1, x.2, 2⟩
    packetS.dev.live = true ∧ 17 < 18 ∧ packetS.toWorld.flueUp 17 = true ∧ h.mc = false ∧ h.dst < 8192 ∧ h.src < 8192 ∧ h.ttl < 64 ∧
    h.vc < 8 ∧ packetS.toWorld.takesArrival (.permDone 3 1) = false ∧ (h.dst = packetS.toWorld.devId ↔ x.1 = 5) ∧
    (x.2 = 63 → 0 < h.ttl ∧ packetS.toWorld.outPort h.dst = some 17 ∧ packetS.toWorld.legacyBars 17 false (.permDone 3 1) = false) ∧
    bit (packetS.reg (rk 6 0x010)) 3 = false := by decide +kernel

/-! ### The expert directory -/

/-- The directory at 0x20000 holds entries 65534 and 65535; entry 65535 is already loaded. -/
def exdS : State :=
  let s := withWords (ready [(rk 4 0x090, 1), (rk 4 0x080, 0x20000)]) [(0x21FFC0, 0x40000000), (0x21FFE0, 0x40000000)]
  { s with dev := { s.dev with stk := { s.dev.stk with exd := [(65535, [0x40000000, 0, 0, 0])] } } }

theorem witness_exdClear : exdS.dev.live = true ∧ 0 < 4 ∧ exdS.notHeld 4 0x088 ∧ bit (exdS.reg (rk 4 0x090)) 0 = true ∧ 1 ≤ 2 ∧
    65534 + 2 ≤ 65536 ∧ exdS.toWorld.exdBusy 65534 2 = false ∧ (∀ i ∈ [65534, 65535], exdValid (exdS.toWorld.exdWords i) = true →
      exdS.toWorld.assignable (exdJob (exdS.toWorld.exdWords i)) 0 = true) :=
  ⟨by decide +kernel, by decide, (by decide +kernel : exdS.toWorld.heldAt 4 0x088 = false), by decide +kernel⟩

theorem witness_exdLoad : 0x21FFC0 = exdS.rf (rk 4 0x080) 47 12 * 4096 + 32 * 65534 ∧ exdS.toWorld.inHbm 0x21FFC0 (32 * 2) = true ∧
    ∃ ws x, (opWords 0x21FFC0 (4 * 2)).run (Run.init exdS.toWorld (mantel 4)) = .ok (ws, x) ∧
      ∀ e ∈ chunks 4 ws, exdOk e = true ∧ (exdValid e = true → exdS.toWorld.assignable (exdJob e) 0 = true) := by
  refine ⟨by decide +kernel, by decide +kernel, ?_⟩
  obtain ⟨ws, x, e, k⟩ := runOk_spec (a := opWords 0x21FFC0 (4 * 2)) (r := Run.init exdS.toWorld (mantel 4))
    (p := fun ws _ => decide (∀ e ∈ chunks 4 ws, exdOk e = true ∧ (exdValid e = true → exdS.toWorld.assignable (exdJob e) 0 = true)))
    (by decide +kernel)
  exact ⟨ws, x, e, of_decide_eq_true k⟩

end Sys2Proof.Tests
end

