-- ==== Sys2Proof/Tests/Witness9.lean ====
section
/-! SUPPORT. Witnesses for the statements about passes of the stokers, the security block and guests. -/

namespace Sys2Proof.Tests
open Sys2Proof.Machine
set_option Elab.async false

/-! ### Passes -/

/-- The arms that RT_ARM and KV_ARM make of their descriptors, with one expert row in no use. -/
def hdr0 : List U64 := [0, 0, 0, 0, 0, 0x100000000, 0, 0]
def rt1 : RtArm :=
  { rt0 with
    words := [0x1000004101, 0x10040020000001, 0, 0, 0, 0x18000, 0x1000, 0x19000, 0x400000, 0x10001, 0, 0x2100, 0x2100, 0, 0x7000, 0]
    fprog := hdr0, bprog := hdr0, cache := [⟨none, false, 0, none⟩] }
def kv1 : KvArm := { kv0 with words := [0x101, 0x2300, 0x9000, 0, 0, 0, 0, 0, 0, 0x7000, 0, 0, 0, 0, 0, 0] }
def pass0 : Pass := ⟨false, 5, 0, 5, [], 0, []⟩

/-- The bound group's stove 3 has an operation of step 5 at the front of its queue, its triggers are set, and the rings of the stove
and of the Chimney are enabled at 0xC000 and 0xD000 with their lines at 0xE000 and 0xE080. -/
def passS (op : Nat) (rts : List RtArm) (kvs : List KvArm) : State :=
  let s := stkS rts kvs
  let x : RingId := ⟨0x1003, 1⟩
  let s := withWords s [(0x7000, 1)]
  { s with dev := { s.dev with
      regs := ([(rgk x 0, 0xC009), (rgk x 0x10, 0xE000), (rgk rChm 0, 0xD009), (rgk rChm 8, 0xF000), (rgk rChm 0x10, 0xE080),
        (rgk rChm 0x20, 0)] : List (Nat × U64)).foldl (fun m y => mapSet m (regReset y.1) y.1 y.2) s.dev.regs
      bound := [⟨1, 0, 0, false, 7, false, [(0x10009, 0)], 0, 0, [⟨3, [⟨1, 5, op, 0, 2, 0x2000, 0, 0, 500, true, 0⟩], []⟩], 0, false, 0, false, false⟩] } }

def midS : State := passS 1 [{ rt1 with pass := some pass0 }] []

theorem witness_routingPass : ∃ x, midS.dev.live = true ∧ midS.toWorld.rt 2 = some { rt1 with pass := some pass0 } ∧
    (advance 2).run (Run.init midS.toWorld (stkAgent 0x40 0)) = .ok ((), x) := by
  obtain ⟨v, x, e, _⟩ := runOk_spec (a := advance 2) (r := Run.init midS.toWorld (stkAgent 0x40 0)) (p := fun _ _ => true) (by decide +kernel)
  exact ⟨x, by decide +kernel, by decide +kernel, e⟩

def idleS : State := passS 1 [rt1] []

/-- Whether a pass starts and then goes on. -/
def startCheck : Bool :=
  match (startPass 2).run (Run.init idleS.toWorld (stkAgent 0x40 0)) with
  | .ok (_, x) => match x.w.rt 2 with
    | some b => match b.pass with
      | some p => decide (p.emitted ≤ p.used.length) && runOk (advance 2) (Run.init x.w (stkAgent b.page b.job)) fun _ _ => true
      | none => false
    | none => false
  | .error _ => false

theorem witness_routingPass_starts : ∃ b p x y, idleS.dev.live = true ∧ idleS.toWorld.rt 2 = some rt1 ∧ rt1.pass = none ∧
    idleS.toWorld.stkBusy rt1.page = false ∧ rt1.disarm = none ∧ rt1.out = [] ∧
    idleS.toWorld.firstReady rt1.page false 2 = true ∧
    (startPass 2).run (Run.init idleS.toWorld (stkAgent rt1.page rt1.job)) = .ok ((), x) ∧ x.w.rt 2 = some b ∧ b.pass = some p ∧
    p.emitted ≤ p.used.length ∧ (advance 2).run (Run.init x.w (stkAgent b.page b.job)) = .ok ((), y) := by
  have h : startCheck = true := by decide +kernel
  unfold startCheck at h
  split at h
  · rename_i v x e
    split at h
    · rename_i b hb
      split at h
      · rename_i p hp
        simp only [Bool.and_eq_true, decide_eq_true_eq] at h
        obtain ⟨u, y, g, _⟩ := runOk_spec h.2
        exact ⟨b, p, x, y, by decide +kernel, by decide +kernel, rfl, by decide +kernel, rfl, rfl, by decide +kernel, e, hb, hp, h.1, g⟩
      · cases h
    · cases h
  · cases h

def walkS (busy : Bool) : State := passS 5 [] [{ kv1 with busy := busy }]

theorem witness_walkPass : ∃ x y, (walkS false).dev.live = true ∧ (walkS false).toWorld.kv 2 = some { kv1 with busy := false } ∧
    kv1.out = [] ∧ (walkS false).toWorld.stkBusy kv1.page = false ∧ kv1.disarm = none ∧
    (walkS false).toWorld.firstReady kv1.page true 2 = true ∧
    (do walkStart 2; kvPump 2 : Act Unit).run (Run.init (walkS false).toWorld (stkAgent kv1.page kv1.job)) = .ok ((), x) ∧
    (walkS true).toWorld.kv 2 = some { kv1 with busy := true } ∧
    (kvPump 2).run (Run.init (walkS true).toWorld (stkAgent kv1.page kv1.job)) = .ok ((), y) := by
  obtain ⟨v, x, e, _⟩ := runOk_spec (a := (do walkStart 2; kvPump 2 : Act Unit)) (p := fun _ _ => true)
    (r := Run.init (walkS false).toWorld (stkAgent kv1.page kv1.job)) (by decide +kernel)
  obtain ⟨u, y, f, _⟩ := runOk_spec (a := kvPump 2) (p := fun _ _ => true)
    (r := Run.init (walkS true).toWorld (stkAgent kv1.page kv1.job)) (by decide +kernel)
  exact ⟨x, y, by decide +kernel, by decide +kernel, rfl, by decide +kernel, rfl, by decide +kernel, e, by decide +kernel, f⟩

/-- A pass that fetches expert 0: its read, number 15 of the Chimney's ring, has completed with OK; and count banks to send. -/
def fetch0 : Fetch := ⟨0, 0, [15], false⟩
def fetchA : RtArm := { rt1 with pass := some { pass0 with used := [0], fetches := [fetch0] } }
def fetchS : State :=
  let s := passS 1 [fetchA] []
  { s with dev := { s.dev with regs := mapSet s.dev.regs (regReset (rgk rChm 0x20)) (rgk rChm 0x20) 0x1000000010 } }

theorem witness_expertFetchDone : fetchS.dev.live = true ∧ fetchS.toWorld.rt 2 = some fetchA ∧ fetchA.cring = rChm ∧
    fetchA.pass = some { pass0 with used := [0], fetches := [fetch0] } ∧
    [fetch0].find? (fun y => y.expert == 0 && !y.reads.isEmpty) = some fetch0 ∧
    fetch0.reads.all (fetchS.toWorld.idxDone fetchA.cring) = true ∧
    (fetch0.reads.any fun i => fetchS.toWorld.lineAway (lineOf (fetchS.toWorld.recordAt fetchA.cring i))) = false ∧
    fetch0.reads.all (fun i => fetchS.toWorld.recStatus fetchA.cring i == stOk) = true ∧
    exdValid (fetchS.toWorld.exdWords (fetchA.dir0 + 0)) = true := by decide +kernel

def relC : CacheEnt := ⟨none, true, 0, some (rChm, 15)⟩
def relA : RtArm := { rt1 with cache := [relC, relC] }

theorem witness_cacheRelease : let s := { fetchS with dev := { fetchS.dev with stk := { fetchS.dev.stk with rts := [relA] } } }
    s.dev.live = true ∧ s.toWorld.rt 2 = some relA ∧ relA.pass = none ∧ relA.cache[1]? = some relC ∧ relC.rel = some (rChm, 15) ∧
    s.toWorld.idxEnded rChm 15 = true := by decide +kernel

def bankA : RtArm := { rt1 with written := [(5, 1)] }

theorem witness_countBankSend : let s := passS 1 [bankA] []
    s.dev.live = true ∧ s.toWorld.rt 2 = some bankA ∧ bankA.written.lookup 5 = some bankA.nmb ∧ bankA.sends.lookup 5 = none ∧
    s.toWorld.ringDown bankA.cring = false ∧ s.toWorld.ringRoom bankA.cring ≠ 0 ∧ 0xE080 = s.rf (rgk bankA.cring 0x10) 47 7 * 128 ∧
    0xD000 = s.rf (rgk bankA.cring 0) 47 12 * 4096 + s.toWorld.lineTail bankA.cring % 2 ^ s.rf (rgk bankA.cring 0) 5 1 * 64 ∧
    s.plain (engineNode bankA.page 0) 0xD000 64 = true ∧ s.plain (engineNode bankA.page 0) 0xE080 4 = true ∧
    lineOf 0xD000 ≠ lineOf 0xE080 := by decide +kernel

/-! ### The security block -/

/-- The owner's buffer at 0x3000. -/
def secS : State := owned (ready [(rk 3 0x0B8, 0x3000)])

/-- Every address below 512 GiB is plain to the security block. -/
theorem secS_plain {a : Nat} (h : a < 0x8000000000) : secS.plain 0x2033 a 1 = true := by
  have hc : secS.toWorld.chans = 640 := by decide +kernel
  have hd : secS.dev.urk.dir = [] := by decide +kernel
  have hh : secS.dev.urk.home = [] := by decide +kernel
  have hs : secS.dev.urk.snoops = [] := by decide +kernel
  have hr : secS.dev.snp.run = none := by decide +kernel
  have hb : secS.toWorld.backed a = true := by
    have h1 : a < 640 * 0x60000000 := by omega
    have h2 : a < hbmEnd := by simp only [hbmEnd]; omega
    simp [World.backed, hc, h1, h2]
  have hp : secS.toWorld.place a = .hbm := by
    have : a < hbmEnd := by simp only [hbmEnd]; omega
    simp only [World.place, this, hb, if_true]
  have hl : secS.toWorld.linkCut 0x2033 a = false := dieCut_of (s := secS) (by decide +kernel) _ _
  have hu : secS.dev.upsets = [] := by decide +kernel
  simp only [State.plain, Nat.add_sub_cancel, decide_true, hp, hl]
  simp [World.dirOf, World.lineBusy, World.snapHolds, State.toWorld, hd, hh, hs, hr, hu]

theorem witness_quote : secS.owned 0 ∧ secS.notHeld 3 0x0C0 ∧ 0x3000 = secS.toWorld.secArg ∧
    (∀ i, i < 256 → secS.plain 0x2033 (0x3000 + i) 1 = true) ∧ secS.mem.poison = [] :=
  ⟨owned_of (by decide +kernel), (by decide +kernel : secS.toWorld.heldAt 3 0x0C0 = false), by decide +kernel,
    fun i h => secS_plain (by omega), by decide +kernel⟩

theorem witness_cert : ∀ i, i = 0 ∨ i < Config.certificate.length → secS.plain 0x2033 (0x3000 + i) 1 = true := by
  intro i h
  have : Config.certificate.length < 4294967296 := by
    simp only [Config.certificate, List.length_map, List.length_range]
    exact Config.certLen.isLt
  exact secS_plain (by omega)

theorem witness_log : ∀ i, i = 0 ∨ i < secS.sec.log.flatten.length → secS.plain 0x2033 (0x3000 + i) 1 = true := by
  intro i h
  have : secS.sec.log.flatten.length = 0 := by decide +kernel
  exact secS_plain (by omega)

/-- An UPDATE whose buffer holds no bundle. -/
theorem witness_update : ∃ r x, secS.owned 0 ∧ secS.notHeld 3 0x0C0 ∧
    (updateA secS.sec).run (Run.init secS.toWorld (mantel 3)) = .ok (r, x) := by
  obtain ⟨r, x, e, _⟩ := runOk_spec (a := updateA secS.sec) (r := Run.init secS.toWorld (mantel 3)) (p := fun _ _ => true) (by decide +kernel)
  exact ⟨r, x, owned_of (by decide +kernel), (by decide +kernel : secS.toWorld.heldAt 3 0x0C0 = false), e⟩

/-! ### Guests -/

/-- Site 1 is up with a window of job 0 on the first megabyte that admits every right; the strike limit, the strike count. -/
def guestS (lim : U64) (n : Nat) (u : Urk := Urk.empty) : State :=
  let s := ready [(rk 9 0x080, 2), (rk 9 0x090, lim), (rk 9 0x098, BitVec.ofNat 64 (n * 2 ^ 32)), (rk 9 0x010, 1), (rk 9 0x100, 0),
    (rk 9 0x108, 0xFFFFF), (rk 9 0x110, 0xFD), (rk 9 0x118, 1)]
  { s with dev := { s.dev with urk := u } }
def guestP (a : Nat) : NetPkt := ⟨0x2039, 0x3101, 0, 1, 0, false, false, 0, BitVec.ofNat 64 a, 0, 6, 0, 1, []⟩

theorem witness_guestPacket : (guestS 2 1).dev.live = true ∧ 1 < 2 ∧ (guestS 2 1).toWorld.guestUp 1 = true ∧ (guestP 0xFFFE0).typ = 1 ∧
    (guestP 0xFFFE0).rmt = false ∧ nodeUsed (guestP 0xFFFE0).dst = true ∧
    (guestS 2 1).toWorld.guestWindow 1 0 2 (some (guestP 0xFFFE0).job) (guestP 0xFFFE0).a1.toNat (rdBytes (guestP 0xFFFE0)) = true ∧
    (guestS 2 1).toWorld.place (guestP 0xFFFE0).a1.toNat ≠ .page := by decide +kernel

theorem witness_guestPacket_denied : ∀ lim ∈ [0, 2, 3], let s := guestS (BitVec.ofNat 64 lim) 1
    s.dev.live = true ∧ calmB s = true ∧ s.toWorld.guestUp 1 = true ∧
    (guestP 0x100000).typ = 1 ∧ nodeUsed (guestP 0x100000).dst = true ∧
    s.toWorld.guestWindow 1 0 2 (some (guestP 0x100000).job) (guestP 0x100000).a1.toNat (rdBytes (guestP 0x100000)) = false ∧
    bit (s.reg (rk (8 + 1) 0x010)) 3 = false ∧ lim = s.rf (rk (8 + 1) 0x090) 15 0 ∧
    2 = min 0xFFFF (s.rf (rk (8 + 1) 0x098) 47 32 + 1) := by decide +kernel

def siteReqU : Urk := { Urk.empty with reqs := [⟨5, 6, 3, 0xC00000000000, 32, none, none, false⟩] }

theorem witness_guestFlit : let s := guestS 2 1 siteReqU
    s.dev.live = true ∧ 1 < 2 ∧ s.toWorld.siteUp 1 = true ∧ calmB s = true ∧
    bit (s.reg (rk (8 + 1) 0x010)) 3 = false ∧ s.dev.guests.filter (fun y => y.site == 1) = [⟨1, [], List.replicate 6 32, [], []⟩] ∧
    ([0, 0, 1, 2] : List Byte).getD 0 0 ≠ 1 := by decide +kernel

theorem witness_guestIsolate : ∀ n ∈ [1, 2], let s := guestS 2 n siteReqU
    s.dev.live = true ∧ 1 < 2 ∧ calmB s = true ∧ s.toWorld.guestUp 1 = true ∧
    bit (s.reg (rk (8 + 1) 0x010)) 3 = false ∧
    (s.toWorld.strikesOut 1 (s.rf (rk (8 + 1) 0x098) 47 32) = true ↔ n = 2) := by decide +kernel

theorem witness_grst : (owned (guestS 2 1 siteReqU)).owned 0 ∧ 1 < 2 ∧
    calmB (owned (guestS 2 1 siteReqU)) = true ∧ (owned (guestS 2 1 siteReqU)).rf (rk (8 + 1) 0x080) 1 0 ≠ 0 ∧
    (owned (guestS 2 1 siteReqU)).dev.guests.filter (fun y => y.site == 1) = [⟨1, [], List.replicate 6 32, [], []⟩] :=
  ⟨owned_of (by decide +kernel), by decide +kernel⟩

end Sys2Proof.Tests
end

