-- ==== Sys2Proof/Tests/Witness13.lean ====
section
/-! SUPPORT. Witnesses for the statements that give operands with which stoker commands, unit closes, arriving packets, passes and
host operations complete. -/

namespace Sys2Proof.Tests
open Sys2Proof.Machine
set_option Elab.async false

/-! ### Stoker commands -/

/-- The same state with further registers. -/
def withRegs (s : State) (rs : List (Nat × U64)) : State :=
  { s with dev := { s.dev with regs := rs.foldl (fun m x => mapSet m (regReset x.1) x.1 x.2) s.dev.regs } }

theorem witness_rtArm_forms : let d := desc 0xD0 0x2000000002000 0 0 0 0 0
    let s := withCmd (stkS [] []) rStk d
    let ag := agentOf rStk (entry d)
    let ws := (s.wordsAt ag 0x2000 16).getD []
    let a : RtArm := ⟨2, rStk.page, jobOf d, ws, [], [], [], 0, [], none, none, [], [], none, []⟩
    s.able ⟨rStk, d⟩ (entry d) 0xD0 ∧ (fld d.w2 47 0 = 0x2000 ∧ fld d.w2 53 48 = 2 ∧ fld d.w2 63 54 = 0 ∧
      [d.w3, d.w4, d.w5, d.w6, d.w7] = [0, 0, 0, 0, 0] ∧ s.wordsAt ag 0x2000 16 = some ws ∧
      s.toWorld.armRefused rStk.page (jobOf d) a.group a.xring = none ∧ s.toWorld.rt 2 = none ∧
      (s.toWorld.grp a.group).map (fun g => g.members.length) = some 1 ∧ a.ok 1 = true ∧
      (∀ i, i < a.nexp * a.nreg → s.toWorld.chnTag (a.tagbase + i) = false) ∧ s.toWorld.chnTag a.ctag = false ∧
      (∀ i, i < a.nexp → exdValid (s.toWorld.exdWords (a.dir0 + i)) = true ∧ exdJob (s.toWorld.exdWords (a.dir0 + i)) = jobOf d ∧
        exdNreg (s.toWorld.exdWords (a.dir0 + i)) = a.nreg) ∧
      (∃ pc, s.span ag a.cbase (a.cent * a.cesz) true = some pc ∧ s.toWorld.inSlm pc (a.cent * a.cesz) = true) ∧
      s.span ag a.sync (16 * 1) true = some 0x7000) ∧
    s.programAt ag (fld (a.word 11) 47 0) 1 hdr0 ∧ s.programAt ag (fld (a.word 12) 47 0) 1 hdr0 := by
  intro d s ag ws a
  have p : s.programAt ag 0x2100 1 hdr0 := by
    refine ⟨by decide +kernel, by decide +kernel, fun k _ => ⟨[], ?_, fun i h => ?_⟩⟩
    · have : k = 0 := by omega
      subst this
      decide +kernel
    · exact absurd (show i < 0 from h) (Nat.not_lt_zero i)
  have p1 : 0x2100 = fld (a.word 11) 47 0 := by decide +kernel
  have p2 : 0x2100 = fld (a.word 12) 47 0 := by decide +kernel
  have h : (s.span ag a.cbase (a.cent * a.cesz) true).any (fun pc => s.toWorld.inSlm pc (a.cent * a.cesz)) = true := by decide +kernel
  obtain ⟨pc, e⟩ := Option.isSome_iff_exists.1 (Option.isSome_of_any h)
  have k := h
  rw [e] at k
  exact ⟨able_of (by decide +kernel), ⟨by decide +kernel, by decide +kernel, by decide +kernel, by decide +kernel,
    getD_some _ (by decide +kernel), by decide +kernel, by decide +kernel, by decide +kernel, by decide +kernel, by decide +kernel, by decide +kernel, by decide +kernel,
    ⟨pc, e, by simpa using k⟩, by decide +kernel⟩, p1 ▸ p, p2 ▸ p⟩

theorem witness_kvArm_forms : let d := desc 0xD8 0x2000000002200 0 0 0 0 0
    let s := withCmd (stkS [] []) rStk d
    let ag := agentOf rStk (entry d)
    let a : KvArm := ⟨2, rStk.page, jobOf d, (s.wordsAt ag 0x2200 16).getD [], [], false, none, []⟩
    s.able ⟨rStk, d⟩ (entry d) 0xD8 ∧ (fld d.w2 47 0 = 0x2200 ∧ fld d.w2 53 48 = 2 ∧ fld d.w2 63 54 = 0 ∧
      [d.w3, d.w4, d.w5, d.w6, d.w7] = [0, 0, 0, 0, 0] ∧ (s.wordsAt ag 0x2200 16).isSome = true ∧
      s.toWorld.armRefused rStk.page (jobOf d) a.group (fld (a.word 0) 9 8) = none ∧ s.toWorld.kv 2 = none ∧
      (s.toWorld.grp a.group).map (fun g => g.members.length) = some 1 ∧ a.ok = true ∧
      s.span ag a.sync (16 * 1) true = some 0x7000) := by
  intro d s ag a
  exact ⟨able_of (by decide +kernel), by decide +kernel⟩

theorem witness_disarm_forms : let d := desc 0xD1 2 0 0 0 0 0
    let k := desc 0xD9 2 0 0 0 0 0
    (∀ p ∈ [none, some pass0], let a := { rt1 with pass := p }
      let s := withCmd (stkS [a] []) rStk d
      readyB s ⟨rStk, d⟩ (entry d) 0xD1 = true ∧ fld d.w2 5 0 = 2 ∧ fld d.w2 63 6 = 0 ∧ [d.w3, d.w4, d.w5, d.w6, d.w7] = [0, 0, 0, 0, 0] ∧
      s.toWorld.rt 2 = some a ∧ a.job = jobOf d ∧ a.page = rStk.page ∧ a.disarm = none ∧ a.out = []) ∧
    ∀ b, let a := { kv1 with busy := b }
      let s := withCmd (stkS [] [a]) rStk k
      readyB s ⟨rStk, k⟩ (entry k) 0xD9 = true ∧ fld k.w2 5 0 = 2 ∧ fld k.w2 63 6 = 0 ∧ [k.w3, k.w4, k.w5, k.w6, k.w7] = [0, 0, 0, 0, 0] ∧
      s.toWorld.kv 2 = some a ∧ a.job = jobOf k ∧ a.page = rStk.page ∧ a.disarm = none ∧ a.out = [] := by decide +kernel

/-! ### Units and results -/

theorem witness_unitEarlyClose_forms : ∀ w ∈ [0x40409, 0x40040409], let a := fullArm (BitVec.ofNat 64 w)
    let s := armS a
    stillB s = true ∧ s.dev.live = true ∧ s.toWorld.arm 0x409 5 = some a ∧ a.isHome = true ∧ a.closed.contains 0 = false ∧
    (s.toWorld.job a.job).all (fun x => !x.zeroWait.contains 5) = true ∧ (s.span a.agent (a.homest + 0 / 8) 1 true).isSome = true ∧
    a.mode = 0 ∧ a.unitOpen 0 = true ∧ s.toWorld.tickBegun a.close = false ∧ (∀ c ∈ a.unitChunks 0, (a.chunkOf c).n = a.ncontrib) := by
  decide +kernel

theorem witness_arrivalClose_forms : let a := { arrival 3 with close := 0 }
    let s := tickedS a 1
    stillB s = true ∧ s.dev.live = true ∧ s.toWorld.arm 0x409 5 = some a ∧ a.isHome = true ∧ a.closed.contains 0 = false ∧
    (s.toWorld.job a.job).all (fun x => !x.zeroWait.contains 5) = true ∧ (s.span a.agent (a.homest + 0 / 8) 1 true).isSome = true ∧
    a.mode = 1 ∧ s.toWorld.homeUnits a = [0] ∧ s.toWorld.tickBegun (a.close + 1) = true := by decide +kernel

/-- A result chunk of 256 ones. -/
def chunkM : ResultMsg := { resultM with codes := List.replicate 256 0x3F80 }

theorem witness_mcastMemResult_forms : let s := armS recvArm
    let pd := (s.span recvArm.agent (recvArm.resultAt 0) 512 true).getD 0
    s.still ∧ (s.dev.live = true ∧ s.toWorld.arrives (.result chunkM) = true ∧ s.dev.urk.reqs = [] ∧
      s.toWorld.arm 0x409 5 = some recvArm ∧ recvArm.isRecv = true ∧ chunkM.chunk < recvArm.nchunk ∧
      (insNat chunkM.chunk recvArm.recv).length < recvArm.nchunk ∧ recvArm.due = [] ∧ redBytes recvArm.rfmt = 2 ∧
      chunkM.codes.length = 256 ∧ chunkM.poison = false ∧ s.span recvArm.agent (recvArm.resultAt 0) 512 true = some pd ∧
      (s.span recvArm.agent (recvArm.rinfo + 8 * 0) 8 true).isSome = true) ∧
    s.spares recvArm.job [(recvArm.resultAt 0, 512), (recvArm.rinfo + 8 * 0, 8)] pd 512 := by
  intro s pd
  exact ⟨still_of (by decide +kernel), by decide +kernel, spares_of (by decide +kernel)⟩

/-! ### Packets -/

/-- A remote read of 32 bytes asked by device 1. -/
theorem witness_collectives_forms : let s := farS quietS
    stillB s = true ∧ s.dev.live = true ∧ s.toWorld.arrives (.mcast mcastM) = true ∧ (s.toWorld.job mcastM.job).isSome = true ∧
    mcastM.nline = 0 ∧ mcastM.poison = false ∧ mcastM.data ≠ [] ∧
    s.span (chmFor mcastM.job) mcastM.dst mcastM.data.length true = some 0x2000 ∧
    s.toWorld.arrives (.rreadReq (rreadM false)) = true ∧ (rreadM false).vchk = false ∧
    (s.readAt (chmFor (rreadM false).job) (rreadM false).addr (rreadM false).len).isSome = true ∧
    (rreadM false).srcDev ≠ s.toWorld.devId ∧ (s.toWorld.outPort (rreadM false).srcDev).isSome = true := by decide +kernel

/-- A gathered slice of one element for an armed region that nobody reads. -/
def gatherA : UpdArm := ⟨5, false, rBlw, 0, 0, [], 0, 0⟩
def freeRegion : Region := { gatherRegion with readers0 := 0 }
def gatherD : GatherMsg := { gatherM with codesA := [0x3F80], codesB := [0x3F80] }
def gatherS : State := { withRegion quietS freeRegion with mem := (stoved []).mem }
def gatherP := freeRegion.spots (gatherS.toWorld.recipe freeRegion.job) 0 freeRegion.target

theorem witness_gatherSlice_forms : gatherS.still ∧ (gatherS.dev.live = true ∧ gatherS.toWorld.arrives (.gather gatherD) = true ∧
      gatherS.dev.urk.reqs = [] ∧ gatherS.dev.blw.regions = [freeRegion] ∧ freeRegion.arm = some gatherA ∧
      freeRegion.gtag = gatherD.gtag ∧ gatherD.gtag ≠ 0 ∧ gatherA.step = gatherD.step ∧ freeRegion.readers freeRegion.target = 0 ∧
      freeRegion.unseen = 0 ∧ freeRegion.credits < freeRegion.nslice ∧ gatherD.poison = false ∧
      gatherD.codesA.length = (freeRegion.sliceAt 0).kk * (freeRegion.sliceAt 0).nn ∧
      gatherD.codesB.length = (freeRegion.sliceAt 0).nn * (freeRegion.sliceAt 0).kk) ∧
    gatherP.2.2.2.1.r.plain ∧ gatherP.2.2.2.2.r.plain ∧
    gatherS.undisturbed (freeRegion.agent gatherA) [] (gatherP.2.2.2.1.t.ranges gatherP.2.2.2.1.r gatherP.2.2.2.1.i
      (freeRegion.sliceAt 0).kk gatherP.2.2.2.1.c (freeRegion.sliceAt 0).nn ++ gatherP.2.2.2.2.t.ranges gatherP.2.2.2.2.r
      gatherP.2.2.2.2.i (freeRegion.sliceAt 0).nn gatherP.2.2.2.2.c (freeRegion.sliceAt 0).kk) :=
  ⟨still_of (by decide +kernel), by decide +kernel, plain_of (by decide +kernel), plain_of (by decide +kernel),
    undisturbed_of (by decide +kernel)⟩

/-- A passed remote read of region 3. -/
def remoteS : State :=
  farS (withRegs (gateSt [] [(askR 5 (.remote (rreadM true)), 0)] [] [{ region0 with readers0 := 1 }]) [(rk 6 0x080, 0x2000)])

theorem witness_readerRelease_forms : stillB remoteS = true ∧ remoteS.dev.live = true ∧ 0 < 2 ∧
    (remoteS.dev.blw.passed.find? fun p => p.1.wreg == 3 && p.2 == 0) = some (askR 5 (.remote (rreadM true)), 0) ∧
    remoteS.toWorld.region 3 = some { region0 with readers0 := 1 } ∧ region0.arm = none ∧
    (∀ q ∈ remoteS.dev.rings, ∀ x ∈ q.entries, x.phase ≠ .optOpen) ∧
    (remoteS.readAt (chmFor 0) (rreadM true).addr (rreadM true).len).isSome = true ∧ (rreadM true).srcDev ≠ remoteS.toWorld.devId ∧
    (remoteS.toWorld.outPort (rreadM true).srcDev).isSome = true := by decide +kernel

/-! ### Regions and the expert directory -/

/-- The descriptors of the tensors of region 3 that are there, and one of them. -/
def loadWs : List U64 := [0x4090400005, 0x1400, 0x1420, 0x1440, 0x1480, 0x14A0, 0, 0]
def loadDs (x : Nat) : List U64 :=
  if x < 5 then ((wregS []).wordsAt { mantel 0x108 with job := some 0 } (fld (loadWs.getD (x + 1) 0) 47 0) 4).getD [] else []
def loadQ (x : Nat) : Tensor :=
  tensorOf ((loadDs x).getD 0 0) ((loadDs x).getD 1 0) ((loadDs x).getD 2 0) ((loadDs x).getD 3 0)

theorem witness_wregLoad_forms : let s := wregS []
    stillB s = true ∧ (loadWs = words64 (s.toWorld.bytes 0x80C0 64) ∧ 0 = fld (loadWs.getD 0 0) 21 16 ∧ s.toWorld.assignable 0 0 = true ∧
      (s.toWorld.job 0).isSome = true ∧ s.toWorld.region 3 = none ∧ bit (loadWs.getD 0 0) 22 = true ∧ fld (loadWs.getD 0 0) 63 53 = 0 ∧
      (∀ x, x < 8 → 3 ≤ x → fld (loadWs.getD x 0) 63 48 = 0) ∧ s.toWorld.chnTag (fld (loadWs.getD 0 0) 39 28) = false ∧
      fld (loadWs.getD 0 0) 51 40 = 0 ∧ bit (loadWs.getD 0 0) 24 = false ∧ bit (loadWs.getD 0 0) 23 = false) ∧
    (∀ x, x < 7 → 5 ≤ x → fld (loadWs.getD (x + 1) 0) 47 0 = 0) ∧
    (∀ x, x < 5 → (s.wordsAt { mantel 0x108 with job := some 0 } (fld (loadWs.getD (x + 1) 0) 47 0) 4).isSome = true ∧
      (loadQ x).rsv = true ∧ (loadQ x).rows = 1 ∧ (loadQ x).cols = 1 ∧ (x ≠ 0 → (loadQ x).kind = [0, 5, 6, 0, 1, 0, 1].getD x 0 ∧
        (loadQ x).blocksFit (s.toWorld.recipe 0 (loadQ x).kind) = true)) ∧
    fld (loadWs.getD 1 0) 63 48 ≤ fld (loadWs.getD 2 0) 63 48 ∧ fld (loadWs.getD 2 0) 63 48 < ceilDiv 1 128 * ceilDiv 1 128 ∧
    (s.dev.blw.regions.filter fun r => r.die == fld (loadWs.getD 0 0) 27 25).length < 4096 ∧ (s.toWorld.recipe 0 0).perCh = false ∧
    (s.toWorld.recipe 0 1).perCh = false := by decide +kernel

/-- A result slice whose chunk is NOTOK. -/
def notokM : SliceMsg := { sliceM 0x409 0 with notok := [true] }
def notokP := ownRegion.spots ((sliceS notokM).toWorld.recipe ownRegion.job) 0 ownRegion.target
def notokReads : List (Nat × Nat) :=
  notokP.1.t.ranges notokP.1.r notokP.1.i (ownRegion.sliceAt 0).kk notokP.1.c (ownRegion.sliceAt 0).nn
def notokWrites : List (Nat × Nat) :=
  notokP.2.2.2.1.t.ranges notokP.2.2.2.1.r notokP.2.2.2.1.i (ownRegion.sliceAt 0).kk notokP.2.2.2.1.c (ownRegion.sliceAt 0).nn ++
    notokP.2.2.2.2.t.ranges notokP.2.2.2.2.r notokP.2.2.2.2.i (ownRegion.sliceAt 0).nn notokP.2.2.2.2.c (ownRegion.sliceAt 0).kk

theorem witness_blwSliceUpdate_forms : let s := sliceS notokM
    s.still ∧ (s.dev.live = true ∧ (s.dev.blw.slices.find? fun x => x.1 == 0) = some (0, notokM) ∧
      s.toWorld.boundTo notokM.tag notokM.step = some (ownRegion, ownArm) ∧ s.toWorld.region ownRegion.index = some ownRegion ∧
      ownRegion.owns 0 = true ∧ notokM.notok.all id = true ∧ notokM.poison = false ∧ ownRegion.gtag = 0 ∧
      ownRegion.readers ownRegion.target = 0 ∧ ownRegion.credits < ownRegion.nslice) ∧
    s.undisturbed (ownRegion.agent ownArm) notokReads notokWrites ∧ s.banked ownRegion.job ownArm.step ∧
    ∀ b, s.recordApart ownRegion.job ownArm.step (ownRegion.order b ownRegion.target).tid (notokReads ++ notokWrites) := by
  intro s
  have h : ∀ b, apartB s ownRegion.job ownArm.step (ownRegion.order b ownRegion.target).tid (notokReads ++ notokWrites) = true := by
    decide +kernel
  exact ⟨still_of (by decide +kernel), by decide +kernel, undisturbed_of (by decide +kernel), banked_of (by decide +kernel),
    fun b => apart_of (h b)⟩

theorem witness_exdLoad_forms : hostB exdS 0 = true ∧ stillB exdS = true ∧ 1 ≤ 2 ∧ 65534 + 2 ≤ 65536 ∧ exdS.toWorld.exdBusy 65534 2 = false ∧
    0x21FFC0 = exdS.rf (rk 4 0x080) 47 12 * 4096 + 32 * 65534 ∧ exdS.toWorld.inHbm 0x21FFC0 (32 * 2) = true ∧
    ∀ e ∈ chunks 4 (words64 (exdS.toWorld.bytes 0x21FFC0 (32 * 2))), exdOk e = true ∧
      (exdValid e = true → exdS.toWorld.assignable (exdJob e) 0 = true) := by decide +kernel

/-! ### Passes -/

def lastD : Desc := desc 0x20 1 2 3 4 5 6
def lastR : RingId := ⟨0x1003, 1⟩
def lastA : RtArm := { rt1 with pass := some { pass0 with emitted := 1 }, out := [(lastR, lastD)] }
def lastRs : List (Nat × Nat) := let p := { pass0 with emitted := 1 }
  [(lastA.recAt p.step p.mbid + 64, 8 * (lastA.tpm * 1 * lastA.k)),
    (lastA.recAt p.step p.mbid + 64 + 8 * (lastA.tpm * 1 * lastA.k), 2 * lastA.nexp)]

theorem witness_lastCommand_forms : let s := passS 1 [lastA] []
    s.still ∧ (s.dev.live = true ∧ s.toWorld.rt 2 = some lastA ∧ lastA.pass = some { pass0 with emitted := 1 } ∧ pass0.used = [] ∧
      lastA.disarm = none ∧ s.toWorld.ringDown lastR = false ∧ s.toWorld.ringRoom lastR ≠ 0 ∧
      (s.toWorld.grp lastA.group).map (fun g => g.members.length) = some 1 ∧ 0xE000 = s.rf (rgk lastR 0x10) 47 7 * 128 ∧
      0xC000 = s.rf (rgk lastR 0) 47 12 * 4096 + s.toWorld.lineTail lastR % 2 ^ s.rf (rgk lastR 0) 5 1 * 64 ∧
      s.toWorld.inHbm 0xC000 64 = true ∧ s.toWorld.inHbm 0xE000 4 = true ∧ lineOf 0xC000 ≠ lineOf 0xE000) ∧
    s.reach (stkAgent lastA.page lastA.job) lastRs false ∧ s.spares lastA.job lastRs 0xC000 64 ∧ s.spares lastA.job lastRs 0xE000 4 := by
  intro s
  exact ⟨still_of (by decide +kernel), by decide +kernel, reach_of (by decide +kernel), spares_of (by decide +kernel),
    spares_of (by decide +kernel)⟩

theorem witness_lastWalkCommand_forms : let a := { kv1 with busy := true, out := [(lastR, lastD)] }
    let s := passS 5 [] [a]
    stillB s = true ∧ s.dev.live = true ∧ s.toWorld.kv 2 = some a ∧ a.disarm = none ∧ s.toWorld.ringDown lastR = false ∧
    s.toWorld.ringRoom lastR ≠ 0 ∧ 0xE000 = s.rf (rgk lastR 0x10) 47 7 * 128 ∧
    0xC000 = s.rf (rgk lastR 0) 47 12 * 4096 + s.toWorld.lineTail lastR % 2 ^ s.rf (rgk lastR 0) 5 1 * 64 ∧
    s.toWorld.inHbm 0xC000 64 = true ∧ s.toWorld.inHbm 0xE000 4 = true := by decide +kernel

/-! ### Snapshots -/

theorem witness_loadSet_forms : let s := snpS 0 [job0] Snap.empty
    ownerB s 0 = true ∧ stillB s = true ∧ s.toWorld.heldAt 2 0x0F0 = false ∧ bit (s.reg snpSts) 0 = true ∧
    0x9000 = s.rf (rk 2 0x090) 47 12 * 4096 ∧ 1 = s.rf (rk 2 0x090) 11 0 + 1 ∧ s.toWorld.inHbm 0x9000 (16 * 1) = true ∧
    (chunks 2 (words64 (s.toWorld.bytes 0x9000 (16 * 1)))).map (fun c => (c.getD 0 0, c.getD 1 0)) = [(0x300000, 0x300000001)] ∧
    fld (0x300000 : U64) 63 48 = 0 ∧ fld (0x300000001 : U64) 63 34 = 0 ∧ s.toWorld.extentOk (extOf 0x300000 0x300000001) = true ∧
    (∀ z ∈ s.toWorld.snapAreas [extOf 0x300000 0x300000001], rangesMeet (extRange (extOf 0x300000 0x300000001)) z = false) ∧
    granTotal [extOf 0x300000 0x300000001] ≤ 2 ^ 24 ∧ apart ([extOf 0x300000 0x300000001].map extRange) = true := by decide +kernel

/-- The common copy of step 6 is keep slot 1 at 0x500000, of one granule; receive slot 0 at 0x600000 holds device 3's; the sink's
slot 0 is HBM at 0x1000000 and holds a checkpoint of no granules. -/
def copyS : State := withWords (farS (withRegs (snpS 0 [] { Snap.empty with set := [⟨0x300000, 1, true, false⟩] } 0x600000061)
    [(rk 2 0x0B8, 0x500000), (rk 2 0x0C0, 0x600000), (rk 2 0x0D8, 0x1000000), (rk 6 0x080, 0x2000)]))
  [(0x500000, 0x600000001), (0x510000, 0x77), (0x600000, 0x600000007), (0x600010, 1), (0x610000, 0x99)]

theorem witness_rollback_forms : ownerB copyS 0 = true ∧ stillB copyS = true ∧ copyS.toWorld.heldAt 2 0x0F0 = false ∧
    bit (copyS.reg snpSts) 0 = true ∧ copyS.toWorld.job copyS.toWorld.snpJob = none ∧ copyS.toWorld.common = some (1, 6) ∧
    0x500000 = copyS.toWorld.keepAt 1 ∧ (emberGranules copyS.dev.snp.set).length = 1 ∧ copyS.toWorld.inHbm 0x500000 0x20000 = true ∧
    (words64 (copyS.toWorld.bytes 0x500000 24)) = [0x600000001, 0, 0] ∧ bit (0x600000001 : U64) 0 = true ∧
    fld (0x600000001 : U64) 13 1 = copyS.toWorld.devId ∧ fld (0x600000001 : U64) 63 32 = 6 ∧
    (∀ e ∈ copyS.dev.snp.set, copyS.toWorld.extentOk e = true ∧ rangesMeet (extRange e) (0x500000, 0x20000) = false) ∧
    apart ((copyS.dev.snp.set.filter (·.ember)).map extRange) = true := by decide +kernel

theorem witness_ship_forms : 1 < 8192 ∧ 1 ≠ copyS.toWorld.devId ∧ copyS.toWorld.outPort 1 = some 17 ∧ copyS.leads 1 ∧
    (copyS.toWorld.common = some (1, 6) ∧ 0x600000 = copyS.rf (rk 2 0x0C0) 47 16 * 0x10000 ∧
      words64 (copyS.toWorld.bytes 0x600000 24) = [0x600000007, 0, 1] ∧ bit (0x600000007 : U64) 0 = true ∧
      fld (0x600000007 : U64) 63 32 = 6 ∧ copyS.toWorld.inHbm 0x600000 0x20000 = true) :=
  ⟨by decide, by decide +kernel, by decide +kernel, leads_of (p := 17) (by decide +kernel) (by decide +kernel), by decide +kernel⟩

/-- The record of that checkpoint: the digest of no digests, the chain before it zeros, and the chain with it. -/
def ckptS : State := withWords copyS
  [(0x1000000, 0x15A434B31), (0x1000040, 0x7fa1cf55831db21a), (0x1000048, 0x8f1ae8314819618e), (0x1000050, 0x74fbfe28c7c8be22), (0x1000058, 0x2baa8250eb35d07e),
    (0x1000080, 0xb6384234ebeb853e), (0x1000088, 0x9dc2d287699b6bb), (0x1000090, 0x8155442a9ae33467), (0x1000098, 0x339adf853df8ef85)]

theorem witness_restore_forms : ownerB ckptS 0 = true ∧ stillB ckptS = true ∧ 0x1000000 = ckptS.toWorld.sinkAt 0 ∧
    (∀ l ∈ lines 0x1000000 256, ckptS.toWorld.place l = .hbm) ∧ lines 0x1010000 (16 * 0) = [] ∧ lines 0x1010000 (0x10000 * 0) = [] ∧
    (let b := ckptS.toWorld.bytes 0x1000000 256
    let w := words64 b
    fld (w.getD 0 0) 31 0 = 0x5A434B31 ∧ fld (w.getD 0 0) 47 32 = 1 ∧ fld (w.getD 0 0) 55 48 = 0 ∧ 0 = fld (w.getD 6 0) 31 0 ∧
    granTotal [] = (w.getD 7 0).toNat ∧
    sm3 ((b.drop 0x60).take 32 ++ (b.drop 0x40).take 32 ++ b.take 0x40) = (b.drop 0x80).take 32 ∧ sm3 [] = (b.drop 0x40).take 32) := by
  decide +kernel

/-! ### UPDATE -/

/-- The buffer holds a bundle of firmware whose vendor key is the fused one, or one whose body's digest is another, or none; what the
free signature check answers of the first two decides between their codes. -/
def bundleS : State :=
  { secS with sec := flashSec, mem := memApply secS.mem (.bytes 0x3000 (bundle0 1).header) }
def badHeader : List Byte := (bundle0 1).header.take 16 ++ List.replicate 240 0

theorem witness_update_forms : (∀ s ∈ [secS, bundleS], ownerB s 0 = true ∧ s.toWorld.heldAt 3 0x0C0 = false ∧ stillB s = true ∧
      0x3000 = s.toWorld.secArg ∧ s.toWorld.inHbm 0x3000 256 = true) ∧
    headerCode secS.sec 1 (secS.toWorld.bytes 0x3000 256) ≠ 0 ∧ bundleS.toWorld.bytes 0x3000 256 = (bundle0 1).header ∧
    leAt (bundle0 1).header 0x0C 4 = 0 ∧
    ((∀ k m g, Config.sm2Verify k m g = true) → bundleCode bundleS.sec 1 ⟨(bundle0 1).header, [], false⟩ = 0 ∧
      headerCode bundleS.sec 1 badHeader = 0 ∧ bundleCode bundleS.sec 1 ⟨badHeader, [], false⟩ = 5) := by
  refine ⟨by decide +kernel, ?_, by decide +kernel, by decide +kernel, fun hv => ⟨bundle0_ok (.inl rfl) hv, ?_⟩⟩
  · have h : leAt (secS.toWorld.bytes 0x3000 256) 0 4 ≠ 0x5A424E44 := by decide +kernel
    simp [headerCode, h]
  · have h : leAt badHeader 0 4 = 0x5A424E44 ∧ leAt badHeader 4 2 = 1 ∧ leAt badHeader 6 2 = 1 ∧ leAt badHeader 0x0C 4 = 0 ∧
        sm3 (bytesAt badHeader 0x30 64) = flashSec.keyHash ∧ leAt badHeader 8 1 = 0 ∧
        (sm3 [] == bytesAt badHeader 0x10 32) = false ∧ flashSec.fwMin = 0 ∧ flashSec.cfgMin = 0 := by decide +kernel
    obtain ⟨a, b, c, d, e, f, g, i, j⟩ := h
    have hc : headerCode bundleS.sec 1 badHeader = 0 := by
      show headerCode flashSec 1 badHeader = 0
      simp [headerCode, a, b, c, d, e, f, hv, i]
    refine ⟨hc, ?_⟩
    have g' : sm3 [] ≠ bytesAt badHeader 0x10 32 := by simpa using g
    simp [bundleCode, hc, d, g']

end Sys2Proof.Tests
end

