-- ==== Sys2Proof/Tests/Witness2.lean ====
section
/-! SUPPORT. Witnesses for the statements about preemption and arbiters, the tick, stage groups, jobs, translations and health
banks. -/

namespace Sys2Proof.Tests
open Sys2Proof.Machine
set_option Elab.async false

/-! ### Preemption and arbiters -/

/-- A waiting WAIT_LINE in ring 0 of stove 0, with or without PREEMPT_OK, and a command to start in ring 1; ring 0's save slot
is 0x50000. -/
def preS (ok : Bool) (pre : Option (Nat × Nat × Nat)) : State :=
  let d := { desc 2 0x100 5 0 0 0 0 with w0 := if ok then 0x10002 else 2 }
  let s := withWords ready [(0x40000, 0x50001)]
  { s with dev := { s.dev with
      rings := [⟨⟨0x1000, 0⟩, 1, [{ entry d with phase := .waitLine 0x100 5 none }], none, 0, false, false⟩,
        ⟨⟨0x1000, 1⟩, 1, [entry (desc 0 0 0 0 0 0 0)], none, 0, false, false⟩]
      stoves := [{ Stove.empty 0 with pre := pre }] } }

theorem witness_preempt : (preS true none).dev.live = true ∧ 0 < 256 ∧ ((preS true none).toWorld.stove 0).pre = none ∧
    (preS true none).toWorld.preemptPair 0 = some (0, 1) := by decide +kernel

theorem witness_preemptSave : (preS true (some (0, 1, 2000))).dev.live = true ∧ 0 < 256 ∧
    ((preS true (some (0, 1, 2000))).toWorld.stove 0).pre = some (0, 1, 2000) ∧
    (preS true (some (0, 1, 2000))).toWorld.cheapAt (stoveRing 0 0) = some (0, 0) ∧
    (preS true (some (0, 1, 2000))).toWorld.saveSlot 0 0 0 = some 0x50000 ∧
    (preS true (some (0, 1, 2000))).toWorld.entryAway ((preS true (some (0, 1, 2000))).toWorld.saveEntry 0 0 0) = none ∧
    (preS true (some (0, 1, 2000))).toWorld.entryAway ((preS true (some (0, 1, 2000))).toWorld.maskEntry 0 0) = none := by
  decide +kernel

theorem witness_preemptDeadline : (preS false (some (0, 1, 2000))).dev.live = true ∧ 0 < 256 ∧
    ((preS false (some (0, 1, 2000))).toWorld.stove 0).pre = some (0, 1, 2000) ∧
    (preS false (some (0, 1, 2000))).toWorld.cheapAt (stoveRing 0 0) = none ∧
    (∀ e ∈ ((preS false (some (0, 1, 2000))).toWorld.ringRun (stoveRing 0 0)).entries, e.waiting = true →
      (preS false (some (0, 1, 2000))).toWorld.takesBack e = true) ∧
    (preS false (some (0, 1, 2000))).toWorld.saveSlot 0 0
      ((preS false (some (0, 1, 2000))).toWorld.ringRun (stoveRing 0 0)).lastJob = some 0x50000 ∧
    (preS false (some (0, 1, 2000))).toWorld.entryAway ((preS false (some (0, 1, 2000))).toWorld.saveEntry 0 0
      ((preS false (some (0, 1, 2000))).toWorld.ringRun (stoveRing 0 0)).lastJob) = none := by decide +kernel

/-- Ring 1 of stove 255 suspended with a save image that saved nothing. -/
def imgS : State := { ready with dev := { ready.dev with
  stoves := [{ Stove.empty 255 with saved := [⟨1, 0x50000, 0, false, 0, [], none, []⟩] }] } }

theorem witness_preemptRestore : imgS.dev.live = true ∧ 255 < 256 ∧
    (imgS.toWorld.stove 255).saved.getLast? = some ⟨1, 0x50000, 0, false, 0, [], none, []⟩ ∧
    (imgS.toWorld.stove 255).pre = none ∧ (∀ n, 1 < n → n < 4 → imgS.toWorld.ringIdle (stoveRing 255 n) = true) ∧
    (∀ n, n < 4 → imgS.toWorld.ringCurrent (stoveRing 255 n) = false) ∧
    imgS.toWorld.rangeVisible 0x50000 (⟨1, 0x50000, 0, false, 0, [], none, []⟩ : SaveImg).bytes = true ∧
    imgS.toWorld.rangeAway 0x50000 (⟨1, 0x50000, 0, false, 0, [], none, []⟩ : SaveImg).bytes = [] := by
  have h : (∀ n, n < 4 → 1 < n → imgS.toWorld.ringIdle (stoveRing 255 n) = true) ∧
      ∀ n, n < 4 → imgS.toWorld.ringCurrent (stoveRing 255 n) = false := by decide +kernel
  exact ⟨by decide +kernel, by decide, by decide +kernel, by decide +kernel, fun n a b => h.1 n b a, h.2,
    by decide +kernel, by decide +kernel⟩

/-- A COPY that waits in a woodbox whose watchdog aborts alone. -/
def wdS : State := withPhase (ready [(rk 0x120 0x010, 1)]) rWbx (desc 0x70 0 0 0 0 0 0) (.fabric 0)

theorem witness_arbWatchdog : wdS.dev.live = true ∧ 11 < (holdInstances 0x120).1 ∧ 5 < (holdInstances 0x120).2 ∧
    bit (wdS.reg (rk 0x120 0x010)) 3 = false ∧
    (wdS.toWorld.ringRun rWbx).entries.find? Entry.waiting = some { entry (desc 0x70 0 0 0 0 0 0) with phase := .fabric 0 } := by
  decide +kernel

theorem witness_arbStarve : wdS.dev.live = true ∧ arbInstance 0x120 11 = some (0xB60, 6) ∧ 5 < 6 ∧
    bit (wdS.reg (rk 0x120 0xB60)) 5 = false ∧ bit (wdS.reg (rk 0x120 0x010)) 3 = false := by decide +kernel

/-- Nothing of an empty stove names a function slot. -/
theorem witness_fslotClr : (owned ready).owned 0 ∧ 255 < 256 ∧ (∀ k, (owned ready).toWorld.slotUsers (0x1000 + 255) k = []) ∧
    15 < 16 := ⟨owned_of (by decide +kernel), by decide, fun _ => rfl, by decide⟩

/-! ### The tick -/

/-- An owned device whose tick has TIK_CTL and TIK_SYNC_STS of these values. -/
def tickS (ctl st : U64) (t : Tik := Tik.start) : State :=
  let s := owned (ready [(tikCtl, ctl), (tikSync, st)])
  { s with dev := { s.dev with tik := t } }

theorem witness_run : (tickS 0 0).owned 0 ∧ bit ((tickS 0 0).reg tikCtl) 0 = false ∧ (tickS 2 0).owned 0 ∧
    bit ((tickS 2 0).reg tikCtl) 0 = false :=
  ⟨owned_of (by decide +kernel), by decide +kernel, owned_of (by decide +kernel), by decide +kernel⟩

theorem witness_run_clear : (tickS 1 0).owned 0 ∧ bit ((tickS 1 0).reg tikCtl) 0 = true ∧
    bit ((tickS 1 0).reg tikCtl) 2 = false := ⟨owned_of (by decide +kernel), by decide +kernel, by decide +kernel⟩

theorem witness_syncEn : (tickS 1 0).owned 0 ∧ bit ((tickS 1 0).reg tikCtl) 0 = true ∧
    bit ((tickS 1 0).reg tikCtl) 1 = false := ⟨owned_of (by decide +kernel), by decide +kernel, by decide +kernel⟩

theorem witness_syncEn_clear : (tickS 3 2).owned 0 ∧ bit ((tickS 3 2).reg tikCtl) 0 = true ∧
    bit ((tickS 3 2).reg tikCtl) 1 = true := ⟨owned_of (by decide +kernel), by decide +kernel, by decide +kernel⟩

theorem witness_relock : (tickS 3 3).owned 0 ∧ bit ((tickS 3 3).reg tikCtl) 0 = true ∧
    (tickS 3 3).toWorld.syncState = 3 := ⟨owned_of (by decide +kernel), by decide +kernel, by decide +kernel⟩

theorem witness_tikPeriod : (tickS 0 0).owned 3 ∨ (tickS 0 0).owned 0 := .inr (owned_of (by decide +kernel))

theorem witness_armingEdge : (tickS 3 1).dev.live = true ∧ (tickS 3 1).toWorld.running = true ∧
    (tickS 3 1).toWorld.synced = true ∧ (tickS 3 1).toWorld.syncState = 1 ∧
    8500 = (8500 - (tickS 3 1).rf tikSlewKey 39 32) + (tickS 3 1).rf tikSlewKey 39 32 ∧
    (tickS 3 1).dev.tik.runAt + 8500 ≤ 8500 := by decide +kernel

/-- Locked: the last boundary at 20,000 with a window of 4 cycles each way, not decided; DLY 16. -/
def lockT : Tik := { Tik.start with bnd := some 20000, win := true, slew := 4 }

theorem witness_edge : (tickS 3 2 lockT).dev.live = true ∧ (tickS 3 2 lockT).toWorld.running = true ∧
    (tickS 3 2 lockT).toWorld.synced = true ∧ (tickS 3 2 lockT).toWorld.syncState = 2 ∧
    (tickS 3 2 lockT).dev.tik.bnd = some 20000 ∧ (tickS 3 2 lockT).dev.tik.win = true ∧
    (tickS 3 2 lockT).dev.tik.lock = none ∧ (tickS 3 2 lockT).dev.tik.decided = false ∧
    (∀ g ∈ [19980, 19988], 20000 ≤ g + (tickS 3 2 lockT).dev.tik.dly + (tickS 3 2 lockT).dev.tik.slew ∧
      g + (tickS 3 2 lockT).dev.tik.dly ≤ 20000 + (tickS 3 2 lockT).dev.tik.slew) := by decide +kernel

theorem witness_syncSlip : ∀ st ∈ [2, 14], let s := tickS 3 (BitVec.ofNat 64 st) lockT
    s.dev.live = true ∧ s.toWorld.running = true ∧ s.toWorld.synced = true ∧ s.toWorld.syncState = 2 ∧
    s.dev.tik.bnd = some 20000 ∧ s.dev.tik.win = true ∧ s.dev.tik.lock = none ∧ s.dev.tik.decided = false := by decide +kernel

theorem witness_boundaryAnnounce : (tickS 1 0 { Tik.start with bnd := some 20000 }).dev.live = true ∧
    (tickS 1 0 { Tik.start with bnd := some 20000 }).dev.tik.next = none ∧
    (tickS 1 0 { Tik.start with bnd := some 20000 }).toWorld.fixedAt =
      some (20000 + (tickS 1 0 { Tik.start with bnd := some 20000 }).toWorld.period) := by decide +kernel

theorem witness_tickBoundary : (tickS 1 0 { Tik.start with next := some 9500 }).dev.live = true ∧
    (tickS 1 0 { Tik.start with next := some 9500 }).toWorld.running = true ∧
    (tickS 1 0 { Tik.start with next := some 9500 }).dev.tik.next = some 9500 := by decide +kernel

/-! ### Stage groups -/

/-- A slot of operation 3 with two commands; a group of stove 3 with that slot released. -/
def slot0 : RelSlot := ⟨1, 5, 3, 0, 2, 0x2000, 0, 0, 1500, false, 0⟩
def group (slip : Nat) (queue : List RelSlot) : Group :=
  ⟨255, 0, 2, false, 7, false, [(0x2000B, 0)], 0, 0, [⟨3, queue, []⟩], 0, false, slip, false, false⟩
def groupS (slip : Nat) (queue : List RelSlot) : State :=
  { ready with dev := { ready.dev with bound := [group slip queue] } }

theorem witness_slotStart : (groupS 0 [slot0]).dev.live = true ∧ (groupS 0 [slot0]).toWorld.grp 255 = some (group 0 [slot0]) ∧
    (group 0 [slot0]).members.find? (fun m => m.stove == 3) = some ⟨3, [slot0], []⟩ ∧ slot0.fed = false ∧
    takesEntry slot0.op = none ∧ 0 < slot0.count ∧ slot0.recs < slot0.count := by decide +kernel

/-- A micro-batch queue entry that a slot has taken and completed. -/
def usedE : MbEntry := ⟨⟨0, 0, 5, 0⟩, 0, 0, [], 1, true, false⟩
def mbqS : State :=
  { groupS 0 [] with dev := { (groupS 0 []).dev with tik := { Tik.start with mbqs := [(255, [usedE])] } } }

theorem witness_mbqEntryRetire : mbqS.dev.live = true ∧ mbqS.toWorld.grp 255 = some (group 0 []) ∧
    (mbqS.toWorld.mbqOf 255).find? (fun e => e.used && (group 0 []).members.all fun m => m.queue.all fun q => !matchesSlot q e) =
      some usedE ∧ mbqS.dev.tik.mbwait = [] := by decide +kernel

theorem witness_slipLimitFault : (groupS 8 []).dev.live = true ∧ (groupS 8 []).toWorld.grp 255 = some (group 8 []) ∧
    (group 8 []).slipLimit < (group 8 []).slip ∧ (group 8 []).pastLimit = false ∧ (group 8 []).abort = false := by decide +kernel

/-! ### Groups and jobs -/

/-- Whether a computation ends with OK. -/
def endsOk (a : Act Nat) (w : World) (ag : Agent) : Bool :=
  match a.run (Run.init w ag) with
  | .ok (st, _) => st == stOk
  | .error _ => false

theorem endsOk_spec {a : Act Nat} {w : World} {ag : Agent} (h : endsOk a w ag = true) :
    ∃ x, a.run (Run.init w ag) = .ok (stOk, x) := by
  unfold endsOk at h
  split at h
  · rename_i st x e
    exact ⟨x, by rw [e, eq_of_beq h]⟩
  · cases h

/-- A group descriptor of number 0 at 0x10000: one member, stove 3, ring 2, one slot that ends the step. -/
def bindS : State := withWords (ready [(rk 1 0x0D8, 0x10000), (rgk ⟨0x1003, 2⟩ 0, 0x8009)])
  [(0x10000, 0x1000140), (0x10008, 0x11000), (0x10020, 8), (0x11000, 0x10009), (0x11008, 0x12000)]

theorem witness_bind : hostB bindS 0 = true ∧ 0 < 256 ∧ bindS.toWorld.heldAt 1 0x0E0 = false ∧
    bit (bindS.reg (rk 1 0x0E8)) 0 = true ∧ 0 = fld (bindS.toWorld.word (bindS.rf (rk 1 0x0D8) 47 6 * 64 + 0 * 64)) 5 0 ∧
    bindS.toWorld.assignable 0 0 = true ∧ endsOk (bindGroup 0 0) bindS.toWorld (mantel 1) = true := by
  decide +kernel

/-- Its descriptor's words, its table's words and its one entry. -/
def bindWs : List U64 := [0x1000140, 0x11000, 0, 0, 8, 0, 0, 0]
def bindTab (_ : Nat) : List U64 := [0x10009, 0x12000]

theorem witness_bind_fields : hostB bindS 0 = true ∧ stillB bindS = true ∧ 0x10000 = bindS.rf (rk 1 0x0D8) 47 6 * 64 + 0 * 64 ∧
    bindS.toWorld.inHbm 0x10000 64 = true ∧ bindWs = words64 (bindS.toWorld.bytes 0x10000 64) ∧ 0 = fld (bindWs.getD 0 0) 5 0 ∧
    (bindS.toWorld.job 0).isSome = true ∧ bindS.toWorld.grp 0 = none ∧ 2 = fld (bindWs.getD 0 0) 8 7 ∧
    1 = fld (bindWs.getD 0 0) 23 10 + 1 ∧ bit (bindWs.getD 0 0) 6 = true ∧ fld (bindWs.getD 0 0) 63 29 = 0 ∧
    fld (bindWs.getD 1 0) 63 48 = 0 ∧ fld (bindWs.getD 2 0) 31 22 = 0 ∧ bindWs.getD 3 0 = 0 ∧ membersOf bindWs ≠ [] ∧
    fld (bindWs.getD 0 0) 27 24 ≠ 0 ∧ fld (bindWs.getD 2 0) 21 0 % 32 = 0 ∧ fld (bindWs.getD 2 0) 63 32 % 64 = 0 ∧
    fld (bindWs.getD 1 0) 47 0 % 4096 = 0 ∧
    (∀ m ∈ membersOf bindWs, bindS.toWorld.isBound ⟨0x1000 + m, 2⟩ = false ∧ bit (bindS.reg (rgk ⟨0x1000 + m, 2⟩ 0)) 0 = true ∧
      bindS.toWorld.assignable 0 (bindS.toWorld.ringPort ⟨0x1000 + m, 2⟩) = true) ∧
    (∀ b, b < ceilDiv 1 256 → bindS.wordsAt { mantel 1 with job := some 0 } (fld (bindWs.getD 1 0) 47 0 + 4096 * b)
      (2 * min 256 (1 - 256 * b)) = some (bindTab b)) ∧
    [((0x10009 : U64), (0x12000 : U64))] = (List.range (ceilDiv 1 256)).flatMap (fun b =>
      (chunks 2 (bindTab b)).map fun c => (c.getD 0 0, c.getD 1 0)) ∧
    slotOk (0x10009, 0x12000) = true ∧ [((0x10009 : U64), (0x12000 : U64))].any slotEnd = true ∧
    (∀ o ∈ bindS.toWorld.groupsOf 0, o.table.map slotEnd = [((0x10009 : U64), (0x12000 : U64))].map slotEnd) := by decide +kernel

theorem witness_unbind : hostB (groupS 0 []) 0 = true ∧ 255 < 256 ∧ (groupS 0 []).toWorld.heldAt 1 0x0E0 = false ∧
    bit ((groupS 0 []).reg (rk 1 0x0E8)) 0 = true ∧ (groupS 0 []).toWorld.grp 255 = some (group 0 []) ∧
    (groupS 0 []).toWorld.assignable (group 0 []).job 0 = true ∧
    ((groupS 0 []).toWorld.job (group 0 []).job).any Job.running = false ∧
    ((groupS 0 []).toWorld.job (group 0 []).job).any Job.aborted = false := by decide +kernel

theorem witness_start : hostB (groupS 0 []) 0 = true ∧ 0 < 64 ∧ 2 ^ 48 - 1 < 2 ^ 48 ∧
    (groupS 0 []).toWorld.heldAt 1 0x0F0 = false ∧ bit ((groupS 0 []).reg (rk 1 0x0F8)) 0 = true ∧
    (groupS 0 []).toWorld.assignable 0 0 = true ∧ (groupS 0 []).toWorld.job 0 = some job0 ∧
    (groupS 0 []).toWorld.groupsOf 0 ≠ [] ∧ job0.running = false ∧ job0.start = none ∧ job0.aborted = false ∧
    (groupS 0 []).dev.tik.bnd.isSome = false := by decide +kernel

/-- The job running; and ending its stop at step 6. -/
def runJob : Job := { job0 with running := true }
def endJob : Job := { job0 with running := true, stopX := some 6, stopEnding := true }
def jobS (j : Job) : State := { groupS 0 [] with dev := { (groupS 0 []).dev with jobs := [j] } }

theorem witness_stop : hostB (jobS runJob) 0 = true ∧ 0 < 64 ∧ 2 ^ 32 - 1 < 2 ^ 32 ∧
    (jobS runJob).toWorld.heldAt 1 0x0F0 = false ∧ bit ((jobS runJob).reg (rk 1 0x0F8)) 0 = true ∧
    (jobS runJob).toWorld.assignable 0 0 = true ∧ (jobS runJob).toWorld.job 0 = some runJob ∧ runJob.running = true ∧
    runJob.aborted = false ∧ runJob.stopX = none := by decide +kernel

theorem witness_stopComplete : (jobS endJob).dev.live = true ∧ (jobS endJob).toWorld.job 0 = some endJob ∧
    endJob.stopEnding = true ∧ endJob.stopX = some 6 ∧
    (∀ g ∈ (jobS endJob).toWorld.groupsOf 0, ∀ m ∈ g.members, m.queue = []) ∧ (jobS endJob).dev.snp.haltStop = false ∧
    (jobS endJob).dev.snp.ckptWait = false := by decide +kernel

/-- The job at the boundary where its stop after step 4 lies, the group's next slot ending the step. -/
def lastJob : Job := { job0 with running := true, stopX := some 4 }

theorem witness_jobBoundary : (jobS lastJob).toWorld.job 0 = some lastJob ∧ lastJob.aborted = false ∧ lastJob.start = none ∧
    lastJob.running = true ∧ lastJob.stopX = some 4 ∧
    ((jobS lastJob).toWorld.groupsOf 0).any (fun g => slotEnd (g.table.getD g.ptr (0, 0))) = true ∧
    0 ≤ stepDiff ((lastJob.step + 1) % 2 ^ 32) ((4 + 2) % 2 ^ 32) := by decide +kernel

/-- A job descriptor for job 63 at 0x10000. -/
def createS : State := withWords (withWords
  (withBank (ready [(rk 0x10 0x098, 0x8000000000000001), (rk 0x120 (0x800 + 8 * 63), 0x200001)]) [(rk 0 0x400, 0x10000)])
  [(0x10008, 0x11000), (0x10010, 0x40000000), (0x10018, 0x80000), (0x10020, 0x12000), (0x10028, 9)])
  (recipes.zipIdx.map fun x => (0x11000 + 16 * x.2, x.1.1))

theorem witness_create : hostB createS 0 = true ∧ 63 < 64 ∧ createS.toWorld.heldAt 0 0x408 = false ∧
    bit (createS.reg (rk 0 0x410)) 0 = true ∧ createS.toWorld.assignable 63 0 = true ∧
    endsOk (createJob 0 63) createS.toWorld (mantel 0) = true := by decide +kernel

/-- Its descriptor's words. -/
def createX (i : Nat) : U64 := (words64 (createS.toWorld.bytes 0x10000 64)).getD i 0

theorem witness_create_fields : hostB createS 0 = true ∧ stillB createS = true ∧ createS.toWorld.job 63 = none ∧
    bit (createS.reg (rk 0x120 (0x800 + 8 * 63))) 0 = true ∧ 0x10000 = fld (createS.toWorld.banked 0 (rk 0 0x400)) 47 6 * 64 ∧
    createS.toWorld.inHbm 0x10000 64 = true ∧ createS.toWorld.inHbm (fld (createX 1) 47 0) 256 = true ∧
    createS.toWorld.inHbm (fld (createX 2) 47 0) 0x800000 = true ∧ createS.toWorld.inHbm (fld (createX 3) 47 0) 0x80000 = true ∧
    createS.toWorld.inHbm (fld (createX 4) 47 0) 0x2000 = true ∧ fld (createX 1) 7 0 = 0 ∧ fld (createX 2) 21 0 = 0 ∧
    fld (createX 3) 11 0 = 0 ∧ fld (createX 4) 11 0 = 0 ∧ (∀ i, i < 5 → 1 ≤ i → fld (createX i) 63 48 = 0) ∧
    fld (createX 5) 63 32 = 0 ∧ createX 6 = 0 ∧ createX 7 = 0 ∧
    recipeTableOk ((chunks 2 (words64 (createS.toWorld.bytes (fld (createX 1) 47 0) 256))).map fun c => (c.getD 0 0, c.getD 1 0)) =
      true := by decide +kernel

theorem witness_destroy : hostB ready 0 = true ∧ 0 < 64 ∧ ready.toWorld.heldAt 0 0x408 = false ∧
    bit (ready.reg (rk 0 0x410)) 0 = true ∧ ready.toWorld.assignable 0 0 = true ∧ (ready.toWorld.job 0).isSome = true ∧
    ready.toWorld.jobSaved 0 = false ∧ (ready.toWorld.destroyBegin 0).jobBusy 0 = false ∧
    (ready.toWorld.destroyBegin 0).jobAccess 0 = false := by decide +kernel

/-! ### Translations and health banks -/

theorem witness_xltInv : hostB ready 0 = true ∧ ready.toWorld.heldAt 0x120 0xA00 = false ∧ ready.dev.xlt.inv = none ∧
    ready.toWorld.assignable (fld (0x40 : U64) 5 0) 0 = true := by decide +kernel

/-- An invalidation of all pages of job 0 with cached pages of jobs 0 and 1. -/
def invS : State := { ready with dev := { ready.dev with xlt := ⟨[], [⟨0, 5, 7⟩, ⟨1, 5, 7⟩], some 0x40, none⟩ } }

theorem witness_xltInvDone : invS.dev.live = true ∧ invS.dev.xlt.inv = some 0x40 ∧
    invS.toWorld.jobAccess (fld (0x40 : U64) 5 0) = false := by decide +kernel

theorem witness_healthEval : ready.dev.live = true ∧ ready.toWorld.job 0 = some job0 ∧ job0.evaluated.contains 4 = false ∧
    ready.toWorld.stepBusy 0 4 = false ∧ ready.toWorld.rangeVisible (healthAddr job0 4 0) 0x400000 = true ∧
    ready.toWorld.rangeAway (healthAddr job0 4 0) 0x400000 = [] := by decide +kernel

def zeroJob : Job := { job0 with evaluated := [4], zeroWait := [6] }

theorem witness_healthBankZero : (jobS zeroJob).dev.live = true ∧ (jobS zeroJob).toWorld.job 0 = some zeroJob ∧
    zeroJob.zeroWait.contains ((4 + 2) % 2 ^ 32) = true ∧ zeroJob.evaluated.contains 4 = true ∧ (jobS zeroJob).dev.urk.dir = [] ∧
    (jobS zeroJob).toWorld.rangeVisible (healthAddr zeroJob 4 0) 0x400000 = true ∧
    (jobS zeroJob).dev.urk.snoops = [] ∧ (jobS zeroJob).dev.snp.run = none := by decide +kernel

end Sys2Proof.Tests
end

/-! # What every command keeps, and the step

Each function from states to states keeps the queue, memory's canonical form, the fuses and MEAS (`State.Keeps`); so every command
answers a next state that keeps them (`exec_answers`), on which every statement about all commands or all steps can rest. -/

namespace Sys2Proof.Machine

/-! ### What a command keeps -/

/-- The fuses stay, the fused minimums do not fall, and MEAS stays the chain of the measurement log (R399, R413). -/
structure Sec.Keeps (a b : Sec) : Prop where
  serial : b.serial = a.serial
  ordered : b.ordered = a.ordered
  keyHash : b.keyHash = a.keyHash
  fwMin : a.fwMin ≤ b.fwMin
  cfgMin : a.cfgMin ≤ b.cfgMin
  chain : a.meas = measOf a.log → b.meas = measOf b.log

/-- What no command changes: the queue, the canonical form of memory, and what `Sec.Keeps` says of the security state. -/
structure State.Keeps (s t : State) : Prop where
  pending : t.pending = s.pending
  inv : s.Inv → t.Inv
  sec : s.sec.Keeps t.sec

theorem Sec.Keeps.refl (a : Sec) : a.Keeps a := ⟨rfl, rfl, rfl, le_rfl, le_rfl, id⟩

theorem Sec.Keeps.trans {a b c : Sec} (h : a.Keeps b) (k : b.Keeps c) : a.Keeps c :=
  ⟨k.serial.trans h.serial, k.ordered.trans h.ordered, k.keyHash.trans h.keyHash, h.fwMin.trans k.fwMin,
    h.cfgMin.trans k.cfgMin, k.chain ∘ h.chain⟩

theorem State.Keeps.trans {s t u : State} (h : s.Keeps t) (k : t.Keeps u) : s.Keeps u :=
  ⟨k.pending.trans h.pending, k.inv ∘ h.inv, h.sec.trans k.sec⟩

/-- Only the units change. -/
theorem State.keeps_dev (s : State) (d : Dev) : s.Keeps { s with dev := d } := ⟨rfl, id, Sec.Keeps.refl _⟩

theorem State.Keeps.refl (s : State) : s.Keeps s := s.keeps_dev s.dev

theorem State.keeps_modPwr (s : State) (f : Pwr → Pwr) : s.Keeps (s.modPwr f) := s.keeps_dev _

theorem State.keeps_commit (s : State) (w : World) : s.Keeps (s.commit w) :=
  ⟨rfl, fun h => State.commit_inv h w, Sec.Keeps.refl _⟩

theorem State.Keeps.commit {s t : State} (h : s.Keeps t) (w : World) : s.Keeps (t.commit w) := h.trans (t.keeps_commit w)

theorem State.Keeps.modPwr {s t : State} (h : s.Keeps t) (f : Pwr → Pwr) : s.Keeps (t.modPwr f) := h.trans (t.keeps_modPwr f)

/-- A commit together with a security state that keeps what it must. -/
theorem State.keeps_commit_sec (s : State) (w : World) {sec : Sec} (h : s.sec.Keeps sec) :
    s.Keeps { s.commit w with sec := sec } := ⟨rfl, fun hi => State.commit_inv hi w, h⟩

/-- A restart empties the measurement log, and MEAS with it (R399). -/
theorem State.keeps_restart (s : State) (p : Pwr) : s.Keeps (s.restart p) :=
  ⟨rfl, fun _ => State.reset_mem_wf, rfl, rfl, rfl, le_rfl, le_rfl, fun _ => rfl⟩

/-- One of two states, each of which keeps what it must. -/
theorem State.keeps_ite {s a b : State} {c : Prop} [Decidable c] (ha : s.Keeps a) (hb : s.Keeps b) :
    s.Keeps (if c then a else b) := by
  split
  · exact ha
  · exact hb

/-! ### The security state -/

/-- Whatever a computation answers satisfies P. -/
def Act.Gives {α : Type} (a : Act α) (P : α → Prop) : Prop := ∀ r x r', a.run r = .ok (x, r') → P x

theorem Act.gives_pure {α : Type} {P : α → Prop} {x : α} (h : P x) : Act.Gives (pure x) P := by
  intro r y r' e
  obtain ⟨rfl, -⟩ : x = y ∧ r = r' := by simpa [StateT.run, pure, StateT.pure, Except.pure] using e
  exact h

/-- What the second of two computations answers, from what the first does. -/
theorem Act.gives_bind {α β : Type} {Q : α → Prop} {P : β → Prop} {a : Act α} {f : α → Act β} (ha : Act.Gives a Q)
    (hf : ∀ x, Q x → Act.Gives (f x) P) : Act.Gives (a >>= f) P := by
  intro r y r' e
  rw [StateT.run_bind] at e
  cases hr : a.run r with
  | error x => simp [hr, Bind.bind, Except.bind] at e
  | ok p =>
    obtain ⟨x, r1⟩ := p
    exact hf x (ha r x r1 hr) r1 y r' (by simpa [hr, Bind.bind, Except.bind] using e)

/-- What a second computation answers, whatever the first does. -/
theorem Act.gives_then {α β : Type} {P : β → Prop} {a : Act α} {f : α → Act β} (hf : ∀ x, Act.Gives (f x) P) :
    Act.Gives (a >>= f) P := Act.gives_bind (Q := fun _ => True) (fun _ _ _ _ => trivial) fun x _ => hf x

theorem Act.gives_ite {α : Type} {P : α → Prop} (c : Prop) [Decidable c] {a b : Act α} (ha : Act.Gives a P)
    (hb : Act.Gives b P) : Act.Gives (if c then a else b) P := by
  split
  · exact ha
  · exact hb

/-- UPDATE changes at most the flash. -/
theorem updateA_gives (sec : Sec) : Act.Gives (updateA sec) fun x => sec.Keeps x.2 := by
  have same : ∀ code, Act.Gives (pure (code, sec)) fun x : Nat × Sec => sec.Keeps x.2 := fun code =>
    Act.gives_pure (Sec.Keeps.refl sec)
  unfold updateA
  refine Act.gives_then fun r => Act.gives_then fun ⟨h, ps⟩ => ?_
  dsimp only
  refine Act.gives_ite _ (same 6) ?_
  split
  · refine Act.gives_then fun ⟨body, qs⟩ => ?_
    exact Act.gives_ite _ (same _) (Act.gives_pure ⟨rfl, rfl, rfl, le_rfl, le_rfl, id⟩)
  · exact same _

/-- An operation of SEC_CMD keeps the fuses and MEAS, and COMMIT_SVN only raises the minimums. -/
theorem secA_gives (sec : Sec) (op : Nat) : Act.Gives (secA sec op) fun x => sec.Keeps x.2.2 := by
  have same : ∀ err len, Act.Gives (pure (err, len, sec)) fun x : Nat × Nat × Sec => sec.Keeps x.2.2 := fun _ _ =>
    Act.gives_pure (Sec.Keeps.refl sec)
  unfold secA
  refine Act.gives_then fun r => ?_
  dsimp only
  split
  case h_1 => exact Act.gives_then fun _ => same _ _
  case h_2 => exact Act.gives_then fun _ => same _ _
  case h_3 => exact Act.gives_then fun _ => same _ _
  case h_4 => exact Act.gives_bind (updateA_gives sec) fun _ h => Act.gives_pure h
  case h_5 =>
    exact Act.gives_then fun _ => Act.gives_pure ⟨rfl, rfl, rfl, Nat.le_max_left _ _, Nat.le_max_left _ _, id⟩

theorem Sec.measure_keeps (sec : Sec) (kind svn : Nat) (object : List Byte) : sec.Keeps (sec.measure kind svn object) := by
  refine ⟨rfl, rfl, rfl, le_rfl, le_rfl, fun h => ?_⟩
  simp only [Sec.measure, measOf, List.foldl_append, List.foldl_cons, List.foldl_nil] at h ⊢
  rw [h]

theorem Sec.measureBoot_keeps (sec : Sec) (b : BringUp) : sec.Keeps (sec.measureBoot b) := by
  have bundle : ∀ (a : Sec) (kind : Nat), a.Keeps (match a.pick kind with
      | some (_, x) => a.measure (kind + 1) (bundleSvn x) (x.header ++ x.body)
      | none => a) := fun a kind => by
    split
    · exact a.measure_keeps _ _ _
    · exact Sec.Keeps.refl a
  have guest : ∀ (a : Sec) (g : Nat), a.Keeps (match b.guests[g]? with
      | some x => if x.present then a.measure (5 + g) 0 x.ident else a
      | none => a) := fun a g => by
    split
    · split
      · exact a.measure_keeps _ _ _
      · exact Sec.Keeps.refl a
    · exact Sec.Keeps.refl a
  exact ((((sec.measure_keeps _ _ _).trans (bundle _ _)).trans (bundle _ _)).trans (Sec.measure_keeps _ _ _ _)).trans
    ((guest _ _).trans (guest _ _))

/-! ### Register writes -/

theorem State.keeps_secWrite (s : State) (writer : Nat) (v : U64) : s.Keeps (s.secWrite writer v) := by
  refine State.keeps_ite (s.keeps_commit _) (State.keeps_ite (State.Keeps.refl s) (State.keeps_ite (s.keeps_commit _) ?_))
  split
  next h => exact s.keeps_commit_sec _ (secA_gives s.sec _ _ _ _ h)
  next => exact s.keeps_commit _

theorem State.keeps_resetWrite (s : State) (writer : Nat) (v : U64) : s.Keeps (s.resetWrite writer v) :=
  State.keeps_ite (s.keeps_commit _) (State.keeps_ite (s.keeps_restart _) (State.Keeps.refl s))

theorem State.keeps_regWrite (s : State) (writer page off : Nat) (v : U64) : s.Keeps (s.regWrite writer page off v) :=
  State.keeps_ite (s.keeps_resetWrite _ _) (State.keeps_ite (s.keeps_secWrite _ _) (s.keeps_commit _))

theorem State.keeps_regDo (s : State) (port page off : Nat) (v : U64) : s.Keeps (s.regDo port page off v) :=
  State.keeps_ite (s.keeps_regWrite _ _ _ _) (s.keeps_commit _)

theorem State.keeps_hostRegWrite (s : State) (port page off : Nat) (v : U64) : s.Keeps (s.hostRegWrite port page off v) :=
  State.keeps_ite (State.Keeps.refl s) (State.keeps_ite (s.keeps_commit _) (s.keeps_regDo _ _ _ _))

theorem State.keeps_pageRead (s : State) (m : UrkPkt) (nc : Bool) : s.Keeps (s.pageRead m nc) := s.keeps_commit _

theorem State.keeps_pageWrite (s : State) (m : UrkPkt) (page off : Nat) (v : U64) : s.Keeps (s.pageWrite m page off v) :=
  (s.keeps_commit _).trans (State.keeps_regWrite _ _ _ _ _)

theorem State.keeps_regTaken (s : State) (h : HomeWait) : s.Keeps (s.regTaken h) := by
  refine State.Keeps.commit ((s.keeps_commit (s.toWorld.modHome fun q => q.erase h)).trans ?_) _
  split
  · exact State.keeps_pageWrite _ _ _ _ _
  · exact State.keeps_pageRead _ _ _
  · exact State.keeps_regDo _ _ _ _ _
  · exact State.Keeps.refl _

theorem State.keeps_releaseHeld (s : State) (key : Nat) : s.Keeps (s.releaseHeld key) := by
  unfold State.releaseHeld
  split
  · exact s.keeps_regTaken _
  · exact State.Keeps.refl s
  next h rest _ _ =>
    have shown : s.Keeps (match h.sts with
        | some k => s.commit (s.toWorld.modReg k fun x => setBit x 0 true)
        | none => s) := by
      split
      · exact s.keeps_commit _
      · exact State.Keeps.refl s
    exact State.keeps_ite (State.Keeps.refl s)
      (((shown.trans (State.keeps_dev _ _)).trans (State.keeps_regWrite _ _ _ _ _)).trans (State.keeps_dev _ _))

/-! ### Packets -/

theorem State.keeps_netRd (s : State) (p : NetPkt) : s.Keeps (s.netRd p) := by
  refine State.keeps_ite (s.keeps_commit _) ?_
  split <;> exact s.keeps_commit _

theorem State.keeps_netWr (s : State) (p : NetPkt) : s.Keeps (s.netWr p) := by
  refine State.keeps_ite ((s.keeps_regWrite _ _ _ _).commit _) ?_
  split <;> exact s.keeps_commit _

theorem State.keeps_hostWr (s : State) (m : UrkPkt) : s.Keeps (s.hostWr m) := by
  refine State.keeps_ite ?_ (State.keeps_ite (State.Keeps.refl s) (s.keeps_commit _))
  split
  · exact s.keeps_commit _
  · exact State.keeps_ite (s.keeps_commit _)
      (State.keeps_ite (State.keeps_ite (s.keeps_commit _) (s.keeps_pageWrite _ _ _ _)) (s.keeps_commit _))

theorem State.keeps_hostRx (s : State) (op : Nat) (m : UrkPkt) {f : State → State} (hf : ∀ t : State, t.Keeps (f t)) :
    s.Keeps (s.hostRx op m f) :=
  State.keeps_ite ((s.keeps_commit _).trans (hf _)) (State.Keeps.refl s)

/-! ### Bring-up and the debug port -/

theorem State.keeps_bringUp (s : State) (b : BringUp) : s.Keeps (s.bringUp b) :=
  have boot := s.sec.measureBoot_keeps b
  State.keeps_ite (s.keeps_commit _)
    (State.keeps_ite (s.keeps_commit_sec _ boot) (State.keeps_ite (s.keeps_commit_sec _ boot) (s.keeps_commit_sec _ boot)))

theorem State.keeps_dbgRead (s : State) (a : Nat) : s.Keeps (s.dbgRead a) := by
  refine State.keeps_ite (s.keeps_modPwr _) ?_
  split <;> exact (s.keeps_commit _).modPwr _

theorem State.keeps_dbgWrite (s : State) (a : Nat) (v : U64) : s.Keeps (s.dbgWrite a v) := by
  refine State.keeps_ite (((s.keeps_regWrite _ _ _ _).modPwr _).modPwr _) ?_
  split
  · exact ((s.keeps_commit _).modPwr _).modPwr _
  · exact (s.keeps_commit _).modPwr _

theorem State.keeps_dbgData (s : State) (v : U64) : s.Keeps (s.dbgData v) :=
  State.keeps_ite (State.keeps_ite (s.keeps_dbgWrite _ _) (s.keeps_dbgRead _))
    (State.keeps_ite ((s.keeps_modPwr _).modPwr _) (s.keeps_modPwr _))

theorem State.keeps_capturePins (s : State) : s.Keeps s.capturePins :=
  (s.keeps_commit s.toWorld.draw.2).modPwr fun p => { p with tdo := some (Config.freeWord s.toWorld.draw.1).toNat }

/-! ### Outcomes -/

/-- An outcome is a next state, which keeps what every command keeps. -/
def State.Answers (s : State) (o : Host.Outcome State Fault Refusal) : Prop := ∃ t, o = .next t ∧ s.Keeps t

theorem State.Keeps.answers {s t : State} (h : s.Keeps t) : s.Answers (.next t) := ⟨t, rfl, h⟩

theorem State.answers_run (s : State) (f : World → World) : s.Answers (s.run f) := by
  cases h : s.dev.live with
  | true => rw [State.run_live h]; exact (s.keeps_commit _).answers
  | false => rw [State.run_dead h]; exact (State.Keeps.refl s).answers

theorem State.answers_port (s : State) (port page off : Nat) (v : U64) (f : World → World) :
    s.Answers (s.port port page off v f) := s.answers_run _

/-- A write of a register that is there under a condition only. -/
theorem State.answers_port_if (s : State) (c : Prop) [Decidable c] (port page off : Nat) (v : U64) (f : World → World) :
    s.Answers (if c then s.port port page off v f else .next s) := by
  split
  · exact s.answers_port _ _ _ _ _
  · exact (State.Keeps.refl s).answers

theorem State.answers_portState (s : State) (port page off : Nat) (v : U64) {f : State → State} (hf : s.Keeps (f s)) :
    s.Answers (s.portState port page off v f) :=
  (State.keeps_ite (State.Keeps.refl s) (State.keeps_ite (s.keeps_commit _) hf)).answers

theorem State.answers_secPort (s : State) (port op : Nat) : s.Answers (s.secPort port op) :=
  s.answers_portState _ _ _ _ (s.keeps_secWrite _ _)

theorem State.answers_pkt (s : State) (p : NetPkt) {f : State → State} (hf : ∀ t : State, t.Keeps (f t)) :
    s.Answers (s.pkt p f) :=
  (State.keeps_ite (State.Keeps.refl s) (State.keeps_ite ((s.keeps_commit _).trans (hf _)) (s.keeps_commit _))).answers

theorem State.answers_hostRd (s : State) (op : Nat) (m : UrkPkt) : s.Answers (s.hostRd op m) :=
  (State.keeps_ite (State.Keeps.refl s) (s.keeps_hostRx _ _ fun t =>
    State.keeps_ite (State.keeps_ite (t.keeps_commit _) (t.keeps_pageRead _ _))
      (State.keeps_ite (State.Keeps.refl t) (State.keeps_ite (t.keeps_commit _) (t.keeps_commit _))))).answers

theorem State.answers_scan (s : State) (code : Nat) (used : Bool) {f : State → State} (hf : ∀ t : State, t.Keeps (f t)) :
    s.Answers (s.scan code used f) :=
  (State.keeps_ite (State.Keeps.refl s)
    ((State.keeps_ite ((s.keeps_modPwr _).commit _) (s.keeps_modPwr _)).trans (hf _))).answers

theorem State.answers_smbus (s : State) (v : State → Nat) : s.Answers (s.smbus v) := (s.keeps_modPwr _).answers

theorem execPowerOn_answers (mv : Nat) (s : State) : s.Answers (execPowerOn mv s) :=
  (State.keeps_ite (s.keeps_restart _) (State.keeps_ite (State.Keeps.refl s) (s.keeps_dev _))).answers

theorem execPowerOff_answers (mv : Nat) (s : State) : s.Answers (execPowerOff mv s) :=
  (State.keeps_ite (s.keeps_restart _) (State.keeps_ite (s.keeps_restart _) (s.keeps_dev _))).answers

theorem execResetN_answers (high : Bool) (s : State) : s.Answers (execResetN high s) :=
  (State.keeps_ite (State.Keeps.refl s) (State.keeps_ite (s.keeps_restart _) (s.keeps_dev _))).answers

theorem execThermalTrip_answers (temp : Nat) (s : State) : s.Answers (execThermalTrip temp s) :=
  (State.keeps_ite (s.keeps_restart _) (State.Keeps.refl s)).answers

theorem execBringUp_answers (b : BringUp) (s : State) : s.Answers (execBringUp b s) :=
  (State.keeps_ite (s.keeps_bringUp b) (State.Keeps.refl s)).answers

theorem execWrUc_answers (m : UrkPkt) (s : State) : s.Answers (execWrUc m s) :=
  (State.keeps_ite (s.keeps_hostRx _ _ fun t => t.keeps_hostWr m) (State.Keeps.refl s)).answers

theorem execRingSetupBase_answers (port page off : Nat) (v : U64) (s : State) :
    s.Answers (execRingSetupBase port page off v s) :=
  (State.keeps_ite (s.keeps_hostRegWrite _ _ _ _) (State.Keeps.refl s)).answers

theorem execHeldWriteRelease_answers (key : Nat) (s : State) : s.Answers (execHeldWriteRelease key s) :=
  (State.keeps_ite (s.keeps_releaseHeld _) (State.Keeps.refl s)).answers

theorem execSmbWritePwrLimit_answers (v : Nat) (s : State) : s.Answers (execSmbWritePwrLimit v s) :=
  (State.keeps_ite ((s.keeps_commit _).modPwr _) (s.keeps_modPwr _)).answers

/-- Every command answers a next state, and it keeps the queue, the form of memory, the fuses and MEAS: the rows that reach past
the units and memory by name, all others through `State.run`. -/
theorem exec_answers (c : Instr) (s : State) : s.Answers (exec c s) := by
  cases c <;> dsimp only [exec]
  case registerWrite | blkCtlEn | srst => exact (s.keeps_hostRegWrite _ _ _ _).answers
  case ringSetupBase => exact execRingSetupBase_answers _ _ _ _ s
  case heldWriteRelease => exact execHeldWriteRelease_answers _ s
  case rd => exact s.answers_pkt _ fun t => t.keeps_netRd _
  case wr => exact s.answers_pkt _ fun t => t.keeps_netWr _
  case atomic => exact s.answers_pkt _ fun t => t.keeps_commit _
  case rdShared | rdOwn | rdUc => exact s.answers_hostRd _ _
  case wrUc => exact execWrUc_answers _ s
  case quote | cert | log | update | commitSvn => exact s.answers_secPort _ _
  case mgtReset => exact s.answers_portState _ _ _ _ (s.keeps_resetWrite _ _)
  case powerOn => exact execPowerOn_answers _ s
  case powerOff => exact execPowerOff_answers _ s
  case resetN => exact execResetN_answers _ s
  case bringUp => exact execBringUp_answers _ s
  case thermalTrip => exact execThermalTrip_answers _ s
  case extest => exact s.answers_scan _ _ fun t => t.keeps_capturePins.modPwr _
  case sample => exact s.answers_scan _ _ fun t => t.keeps_capturePins
  case idcode | preload | diestat | dbgaddr | bypass => exact s.answers_scan _ _ fun t => t.keeps_modPwr _
  case dbgdata => exact s.answers_scan _ _ fun t => t.keeps_dbgData _
  case trstN => exact (s.keeps_modPwr _).answers
  case smbReadDevSts | smbReadTemp | smbReadPin | smbReadVin | smbReadIin | smbReadThrottle | smbReadPwrLimit | smbReadSerial =>
    exact s.answers_smbus _
  case smbWritePwrLimit => exact execSmbWritePwrLimit_answers _ s
  case create | destroy | wbxXltInv | run | syncEn | relock | tikPeriod | tikSlew | bind | unbind | start | stop | chnFabort |
      chmId | routeLoad | wregLoad | wregUnload | exdLoad | exdClear | claim | release | loadSet | checkpoint | rollback | ship |
      recv | restore | abandon | snpNotice | mgtPwrLimit => exact s.answers_port _ _ _ _ _
  case ringBase | ringCtl | fslotClr | chnEp | fluCtl | wbxHbmLoc | slmSplit | urkCtl | urkJobs | urkStoves | grst | gstFwClr =>
    exact s.answers_port_if _ _ _ _ _ _
  all_goals exact s.answers_run _

/-! ### The step -/

theorem step_of_pending {s : State} {c : Instr} {rest : List Instr} (h : s.pending = c :: rest) :
    step s = exec c { s with pending := rest } := by
  simp only [step, h]

theorem step_of_idle {s : State} (h : s.pending = []) : step s = .next s.idle := by
  simp only [step, h]

/-- A memory error that arises adds to those that no access has met, and changes nothing else. -/
theorem World.errorArises_spec (w : World) : ∃ us, w.errorArises = w.upd (fun d => { d with upsets := d.upsets ++ us }) := by
  have none_arises : w = w.upd fun d => { d with upsets := d.upsets ++ [] } := by simp [World.upd]
  unfold World.errorArises
  split
  · exact ⟨[], none_arises⟩
  · extract_lets u there
    by_cases h : (there && !w.dev.upsets.contains u) = true
    · exact ⟨[u], if_pos h⟩
    · exact ⟨[], (if_neg h).trans none_arises⟩

theorem State.idle_live {s : State} (h : s.dev.live = true) : ∃ us, s.idle =
    { s with dev := { s.dev with upsets := s.dev.upsets ++ us, gtime := (s.dev.gtime + 1) % 2 ^ 64 } } := by
  obtain ⟨us, hu⟩ := s.toWorld.errorArises_spec
  exact ⟨us, by simp only [State.idle, h, if_true, World.idleCycle, hu]; rfl⟩

theorem State.idle_dead {s : State} (h : s.dev.live = false) : s.idle = s := by
  simp [State.idle, h]

/-- Settles O1: the second branch of `step`. -/
theorem stepExecutesTheFrontCommand : Obligations.StepExecutesTheFrontCommand := fun _ _ _ => step_of_pending

/-- Settles O2: the idle cycle by `State.idle_live` and `State.idle_dead`, every command by `exec_answers`. -/
theorem theQueueIsLeftToTheStep : Obligations.TheQueueIsLeftToTheStep := by
  refine ⟨fun s hs => ⟨s.idle, step_of_idle hs, ?_⟩, fun c s => ?_⟩
  · cases h : s.dev.live with
    | true =>
      obtain ⟨us, hi⟩ := State.idle_live h
      rw [hi]
      exact ⟨fun _ => rfl, nofun, fun u hu => List.mem_append_left us hu, rfl⟩
    | false =>
      rw [State.idle_dead h]
      exact ⟨nofun, fun _ => rfl, fun _ => id, rfl⟩
  · obtain ⟨t, ht, hk⟩ := exec_answers c s
    exact ⟨t, ht, hk.pending⟩

/-- Settles O6: memory, log and register map of the reset state are empty. -/
theorem resetMeetsTheInvariants : Obligations.ResetMeetsTheInvariants :=
  ⟨State.reset_mem_wf, rfl, rfl, rfl, fun _ => rfl, by decide⟩

end Sys2Proof.Machine

/-! # Register writes by hosts (R16, R361, R441, R455) -/

namespace Sys2Proof.Machine

/-! ### What a write stores in a register (R16) -/

/-- A bit that is not RW1C takes the value written where it is RW, and stays elsewhere. -/
theorem RegRow.bit_write (r : RegRow) (old v : U64) (i : Nat) (hw : r.w1c = 0) :
    bit (r.write old v) i = if r.rw.testBit i then bit v i else bit old i := by
  by_cases hi : i < 64
  · show (r.write old v).getLsbD i = if r.rw.testBit i then v.getLsbD i else old.getLsbD i
    simp only [RegRow.write, hw, BitVec.getLsbD_and, BitVec.getLsbD_or, BitVec.getLsbD_not, BitVec.getLsbD_ofNat, hi,
      decide_true, Bool.true_and, Nat.zero_testBit, Bool.and_false, Bool.not_false, Bool.and_true]
    cases r.rw.testBit i <;> simp
  · simp [bit_ge _ _ (Nat.le_of_not_lt hi)]

/-- A field all of whose bits are RW takes the value written. -/
theorem RegRow.fld_write (r : RegRow) (old v : U64) (hi lo : Nat) (hw : r.w1c = 0) (hlo : lo ≤ hi)
    (hrw : ∀ i ≤ hi, lo ≤ i → r.rw.testBit i = true) : fld (r.write old v) hi lo = fld v hi lo := by
  apply Nat.eq_of_testBit_eq
  intro i
  rw [testBit_fld, testBit_fld, r.bit_write _ _ _ hw]
  by_cases h : i < hi - lo + 1
  · rw [if_pos (hrw _ (by omega) (by omega))]
  · simp [h]

/-! ### Worlds that agree but for registers -/

/-- `b` differs from `a` in registers alone, and in none but those of K. -/
def World.OnlyRegs (a b : World) (K : Nat → Prop) : Prop :=
  { b.dev with regs := a.dev.regs } = a.dev ∧ b.log = a.log ∧ ∀ k, ¬ K k → b.reg k = a.reg k

theorem World.OnlyRegs.refl (w : World) (K : Nat → Prop) : w.OnlyRegs w K := ⟨rfl, rfl, fun _ _ => rfl⟩

theorem World.OnlyRegs.trans {a b c : World} {K : Nat → Prop} (h : a.OnlyRegs b K) (k : b.OnlyRegs c K) : a.OnlyRegs c K := by
  obtain ⟨h1, h2, h3⟩ := h
  obtain ⟨k1, k2, k3⟩ := k
  refine ⟨?_, k2.trans h2, fun x hx => (k3 x hx).trans (h3 x hx)⟩
  rw [← h1]
  exact congrArg (fun d : Dev => { d with regs := a.dev.regs }) k1

theorem World.onlyRegs_modReg (w : World) {k : Nat} (f : U64 → U64) {K : Nat → Prop} (hk : K k) :
    w.OnlyRegs (w.modReg k f) K := by
  refine ⟨rfl, rfl, fun j hj => ?_⟩
  rw [World.reg_modReg, if_neg]
  rintro rfl
  exact hj hk

theorem World.OnlyRegs.modReg {a b : World} {K : Nat → Prop} (h : a.OnlyRegs b K) {k : Nat} (f : U64 → U64) (hk : K k) :
    a.OnlyRegs (b.modReg k f) K := h.trans (b.onlyRegs_modReg f hk)

theorem World.onlyRegs_foldl {α : Type} {K : Nat → Prop} (f : World → α → World) :
    ∀ (l : List α) (w : World), (∀ x ∈ l, ∀ w : World, w.OnlyRegs (f w x) K) → w.OnlyRegs (l.foldl f w) K
  | [], w, _ => World.OnlyRegs.refl w K
  | x :: l, w, h => (h x (by simp) w).trans (onlyRegs_foldl f l _ fun y hy => h y (by simp [hy]))

/-- What a commit of such a world leaves: nothing but registers differs. -/
theorem World.OnlyRegs.rest {s : State} {w : World} {K : Nat → Prop} (h : s.toWorld.OnlyRegs w K) :
    { s.commit w with dev := { (s.commit w).dev with regs := s.dev.regs } } = s := by
  obtain ⟨h1, h2, -⟩ := h
  simp only [State.toWorld_dev, State.toWorld_log] at h1 h2
  simp only [State.commit, h1, h2, memCommit_nil]

theorem World.OnlyRegs.commit {s : State} {w : World} {ks : List Nat} (h : s.toWorld.OnlyRegs w (· ∈ ks)) :
    s.OnlyRegs (s.commit w) ks := ⟨h.rest, h.2.2⟩

/-! ### The rights and the rows of a header register (R361, R438) -/

theorem ringAt_of_lt {page off : Nat} (h : off < 0x100) : ringAt page off = none := by
  unfold ringAt
  split
  · exact if_neg (by omega)
  · rfl

theorem bankedReg_of_lt {b : Blk} {off : Nat} (h : off < 0x80) : bankedReg b off = false := by
  cases b <;> simp only [bankedReg, Bool.or_eq_false_iff, beq_eq_false_iff_ne] <;> omega

/-- A port may write a register of the common header if it is the owner. -/
theorem World.mayWrite_header (w : World) {p page off : Nat} (v : U64) (hp : p < 4) (h : off < 0x80) :
    w.mayWrite p page off v = (w.dev.urk.owner == some p) := by
  unfold World.mayWrite
  rw [if_neg (by omega), ringAt_of_lt (by omega)]
  dsimp only
  split
  · rfl
  next b i _ =>
    rw [bankedReg_of_lt h, if_neg (by simp)]
    have apart : ∀ n, 0x80 ≤ n → off ≠ n := fun n hn => by omega
    have below : ∀ n, 0x80 ≤ n → ¬ n ≤ off := fun n hn => by omega
    cases b <;> simp [apart, below]

theorem State.owned.mayWrite_header {s : State} {p page off : Nat} (h : s.owned p) (v : U64) (hoff : off < 0x80) :
    s.toWorld.mayWrite p page off v = true := by
  obtain ⟨⟨-, hp, -⟩, ho⟩ := h
  rw [World.mayWrite_header _ _ hp hoff]
  simp [ho]

theorem rowOf_header {page off : Nat} (hi : (pageInfo page).isSome = true) (h : off < 0x80) :
    rowOf page off = rowIn commonRegs off := by
  obtain ⟨⟨b, i⟩, hb⟩ := Option.isSome_iff_exists.1 hi
  simp [rowOf, hb, h]

theorem World.owned_of_mayWrite {w : World} {p page off : Nat} {v : U64} (h : w.mayWrite p page off v = true)
    (f : World → World) : w.owned p page off v f = f w := by
  simp [World.owned, h]

/-- A write of a header register without its right shows no status of an operation. -/
theorem World.owned_header_denied {w : World} {p page off : Nat} {v : U64} (h : w.mayWrite p page off v = false)
    (hoff : off < 0x80) (f : World → World) : w.owned p page off v f = w.deny p page off := by
  have nothing : w.denyOp page off v = w := by
    unfold World.denyOp
    split
    · exact if_neg (by omega)
    · exact if_neg (by omega)
    · rfl
  simp [World.owned, h, nothing]

/-- A refused write while EVT_EN of the port's page is 0: URK_DENY, the cause bit and the count of raised events. -/
theorem World.deny_unsent (w : World) (p page off : Nat) (h : bit (w.reg (rk (0x10 + p) 0x010)) 3 = false) :
    w.deny p page off =
      ((w.modReg (rk (0x10 + p) 0x0F8) fun x => setFld (setFld (countUp x 31 0 1) 47 32 page) 59 48 off).modReg
        (rk (0x10 + p) 0x020) fun x => setBit x 0x15 true).modReg (rk (0x10 + p) 0x030) fun x => countUp x 31 0 1 := by
  have hne : rk (0x10 + p) 0x010 ≠ rk (0x10 + p) 0x0F8 := by simp [rk]
  simp [World.deny, World.raise, World.raiseBy, hne, h, World.count]

/-! ### Writes by hosts -/

/-- A host's write of a block register: none of the two that act on the whole block. -/
theorem State.hostRegWrite_block {s : State} {p page off : Nat} (v : U64) (h : s.hosts p) (hi : (pageInfo page).isSome = true)
    (hoff : off < 0x1000) (h8 : off % 8 = 0) (hr : ¬ (page = 0 ∧ off = 0x0A8)) (hs : ¬ (page = 3 ∧ off = 0x0C0)) :
    s.hostRegWrite p page off v = s.commit (s.toWorld.regWrite p page off v) := by
  obtain ⟨hlive, hp, hup, hwaits⟩ := h
  have hp' : ¬ 4 ≤ p := by omega
  have hoff' : ¬ 0x1000 ≤ off := by omega
  simp [State.hostRegWrite, State.regDo, State.regWrite, hlive, hp', hup, hwaits, hoff', h8, hi, hr, hs]

theorem State.hostRegWrite_header {s : State} {p page off : Nat} (v : U64) (h : s.hosts p)
    (hi : (pageInfo page).isSome = true) (hoff : off < 0x80) (h8 : off % 8 = 0) :
    s.hostRegWrite p page off v = s.commit (s.toWorld.regWrite p page off v) :=
  State.hostRegWrite_block v h hi (by omega) h8 (by omega) (by omega)

/-! ### EVT_MASK -/

theorem World.regWrite_evtMask (w : World) {p page : Nat} (v : U64) (hi : (pageInfo page).isSome = true) :
    w.regWrite p page 0x028 v = w.owned p page 0x028 v fun w => w.modReg (rk page 0x028) fun _ => v := by
  let r : RegRow := ⟨0x028, 8, 1, 0xFFFFFFFFFFFFFFFF, 0, 0, 0⟩
  have hrow : rowOf page 0x028 = some r := rowOf_header hi (by omega)
  have whole : ∀ old, r.write old v = v := fun old => by
    apply BitVec.eq_of_getLsbD_eq
    intro i h64
    have ones : r.rw.testBit i = true := by
      have : r.rw = 2 ^ 64 - 1 := rfl
      rw [this, Nat.testBit_two_pow_sub_one, decide_eq_true h64]
    exact (r.bit_write old v i rfl).trans (if_pos ones)
  obtain ⟨⟨b, i⟩, hb⟩ := Option.isSome_iff_exists.1 hi
  simp [World.regWrite, hb, World.plainWrite, hrow, whole]

/-! ### BLK_CTL (R441) -/

theorem World.regWrite_blkCtl (w : World) {p page : Nat} (v : U64) (hi : (pageInfo page).isSome = true) :
    w.regWrite p page 0x010 v = w.blkCtlWrite p page v := by
  have hrow : rowOf page 0x010 = some ⟨0x010, 8, 1, 0xD, 0, 0, 9⟩ := rowOf_header hi (by omega)
  obtain ⟨⟨b, i⟩, hb⟩ := Option.isSome_iff_exists.1 hi
  simp [World.regWrite, hb, hrow]

theorem World.pageEn_noRings (w : World) {page : Nat} (on : Bool) (h : pageRings page = []) :
    w.pageEn page on = w.modReg (rk page 0x010) fun x => setBit x 0 on := by
  simp [World.pageEn, h]

/-- A write of BLK_CTL by the owner, on a page without rings. -/
theorem World.blkCtlWrite_noRings {w : World} {p page : Nat} {v : U64} (hw : w.mayWrite p page 0x010 v = true)
    (h : pageRings page = []) : w.blkCtlWrite p page v =
      ((if bit v 1 then w.softReset page else w).modReg (rk page 0x010) fun x => setBit x 0 (bit v 0)).modReg (rk page 0x010)
        fun x => setBit (setBit x 2 (bit v 2)) 3 (bit v 3) := by
  simp only [World.blkCtlWrite, World.owned_of_mayWrite hw, World.pageEn_noRings _ _ h]

/-- Clear what a soft reset clears of one row of a page's registers. -/
def World.clearRow (page : Nat) (w : World) (r : RegRow) : World :=
  if r.srst = 0 then w
  else (List.range r.count).foldl (fun w i => w.modReg (rk page (r.base + r.stride * i)) fun v => v &&& ~~~(BitVec.ofNat 64 r.srst)) w

theorem World.clearCounts_eq (w : World) {page i : Nat} {b : Blk} (h : pageInfo page = some (b, i)) :
    w.clearCounts page = (commonRegs ++ b.rows).foldl (World.clearRow page) w := by
  simp only [World.clearCounts, h]
  rfl

/-- Every register of a page lies within the page. -/
theorem Blk.rows_within (b : Blk) : ∀ r ∈ commonRegs ++ b.rows, r.base + r.stride * r.count ≤ 0x1000 ∧ 0 < r.stride := by
  cases b <;> decide

theorem rk_div {page off : Nat} (h : off < 0x1000) : rk page off / 0x1000 = page := by
  simp only [rk]; omega

/-- A soft reset clears registers of its own page alone. -/
theorem World.onlyRegs_clearCounts (w : World) {page i : Nat} {b : Blk} (h : pageInfo page = some (b, i)) :
    w.OnlyRegs (w.clearCounts page) (· / 0x1000 = page) := by
  rw [w.clearCounts_eq h]
  refine World.onlyRegs_foldl _ _ _ fun r hr w => ?_
  unfold World.clearRow
  split
  · exact World.OnlyRegs.refl w _
  · refine World.onlyRegs_foldl _ _ _ fun n hn w => w.onlyRegs_modReg _ (rk_div ?_)
    obtain ⟨hle, hpos⟩ := b.rows_within r hr
    have := Nat.mul_lt_mul_of_pos_left (List.mem_range.1 hn) hpos
    omega

/-- What one element of a fold brings about and every one keeps holds at the end. -/
theorem foldl_of_mem {σ α : Type} {P : σ → Prop} (f : σ → α → σ) (keep : ∀ w x, P w → P (f w x)) {x : α}
    (brings : ∀ w, P (f w x)) : ∀ (l : List α) (w : σ), x ∈ l → P (l.foldl f w)
  | y :: l, w, h => by
    have rest : ∀ (l : List α) (w : σ), P w → P (l.foldl f w) := fun l w hw =>
      List.foldlRecOn l f hw fun u hu a _ => keep u a hu
    rcases List.mem_cons.1 h with rfl | h
    · exact rest l _ (brings w)
    · exact foldl_of_mem f keep brings l _ h

theorem World.clearRow_keeps_zero {page k : Nat} (w : World) (r : RegRow) (h : w.reg k = 0) : (w.clearRow page r).reg k = 0 := by
  unfold World.clearRow
  split
  · exact h
  · refine List.foldlRecOn (motive := fun w : World => w.reg k = 0) _ _ h fun w hw n _ => ?_
    rw [World.reg_modReg]
    split
    next hk => rw [← hk, hw]; exact BitVec.zero_and
    next => exact hw

/-- A soft reset clears a register of the header whose bits are all counters or RW1C. -/
theorem World.clearCounts_header (w : World) {page i off w1c : Nat} {b : Blk} (h : pageInfo page = some (b, i))
    (hr : (⟨off, 8, 1, 0, w1c, 0xFFFFFFFFFFFFFFFF, 0⟩ : RegRow) ∈ commonRegs) : (w.clearCounts page).reg (rk page off) = 0 := by
  rw [w.clearCounts_eq h]
  refine foldl_of_mem (P := fun w : World => w.reg (rk page off) = 0) _ (fun w r hw => w.clearRow_keeps_zero r hw) (fun w => ?_) _ _
    (List.mem_append_left _ hr)
  simp [World.clearRow]

/-- The blocks whose soft reset does no more than clear counters and RW1C bits have no rings. -/
theorem World.softReset_counts (w : World) {page i : Nat} {b : Blk} (h : pageInfo page = some (b, i))
    (hb : b ∈ [Blk.mgt, .snp, .sec, .hrt, .hbm, .gst]) : w.softReset page = w.clearCounts page ∧ pageRings page = [] := by
  simp only [List.mem_cons, List.not_mem_nil, or_false] at hb
  rcases hb with rfl | rfl | rfl | rfl | rfl | rfl <;> simp [World.softReset, pageRings, h, Blk.rings]

/-! ### Set-up registers of rings of records (R455) -/

theorem setupReg_cases {page off : Nat} (h : setupReg page off = true) :
    ∃ i, (pageInfo page = some (.wbx, i) ∧ off = 0x098) ∨ (pageInfo page = some (.urk, i) ∧ off = 0x0C0) ∨
      (pageInfo page = some (.chnH, i) ∧ off = 0x080) := by
  unfold setupReg at h
  split at h
  next i hb => exact ⟨i, .inl ⟨hb, beq_iff_eq.1 h⟩⟩
  next i hb => exact ⟨i, .inr (.inl ⟨hb, beq_iff_eq.1 h⟩)⟩
  next i hb => exact ⟨i, .inr (.inr ⟨hb, beq_iff_eq.1 h⟩)⟩
  next => cases h

/-- The row of a set-up register: EN, LOG2SZ and the address are RW. -/
theorem setupReg_row {page off : Nat} (h : setupReg page off = true) : ∃ r, rowOf page off = some r ∧ r.w1c = 0 ∧
    (∀ i ≤ 5, r.rw.testBit i = true) ∧ ∀ i ≤ 47, 12 ≤ i → r.rw.testBit i = true := by
  obtain ⟨i, ⟨hb, rfl⟩ | ⟨hb, rfl⟩ | ⟨hb, rfl⟩⟩ := setupReg_cases h <;> simp only [rowOf, hb] <;>
    exact ⟨_, rfl, rfl, by decide, by decide⟩

/-- A write of a set-up register with its right is a set-up write. -/
theorem World.regWrite_setup {w : World} {p page off : Nat} {v : U64} (h : setupReg page off = true)
    (hw : w.mayWrite p page off v = true) : w.regWrite p page off v = w.setupWrite page off v := by
  obtain ⟨r, hr, -⟩ := setupReg_row h
  have no_ring : ∀ o < 0x100, ringAt page o = none := fun o ho => ringAt_of_lt ho
  obtain ⟨i, ⟨hb, rfl⟩ | ⟨hb, rfl⟩ | ⟨hb, rfl⟩⟩ := setupReg_cases h <;>
    simp [World.regWrite, hb, hr, no_ring, World.blockWrite, bankedReg, World.owned_of_mayWrite hw]

theorem State.hostRegWrite_setup {s : State} {p page off : Nat} {v : U64} (h : s.hosts p) (hs : setupReg page off = true)
    (hw : s.toWorld.mayWrite p page off v = true) :
    s.hostRegWrite p page off v = s.commit (s.toWorld.setupWrite page off v) := by
  have hsec : page = 3 → pageInfo page = some (.sec, 0) := fun h3 => by rw [h3]; rfl
  have block : s.hostRegWrite p page off v = s.commit (s.toWorld.regWrite p page off v) := by
    obtain ⟨i, ⟨hb, rfl⟩ | ⟨hb, rfl⟩ | ⟨hb, rfl⟩⟩ := setupReg_cases hs <;>
      exact State.hostRegWrite_block v h (by rw [hb]; rfl) (by omega) (by omega) (by omega)
        fun hx => by simp [hsec hx.1] at hb
  rw [block, World.regWrite_setup hs hw]

/-! ### The clauses of O40 -/

theorem evtMask_write_owned {s : State} {p page : Nat} (v : U64) (h : s.owned p) (hi : (pageInfo page).isSome = true) :
    ∃ t, exec (.registerWrite p page 0x028 v) s = .next t ∧ t.reg (rk page 0x028) = v ∧ s.OnlyRegs t [rk page 0x028] := by
  have hw := h.mayWrite_header (page := page) (off := 0x028) v (by omega)
  have hx : s.hostRegWrite p page 0x028 v = s.commit (s.toWorld.modReg (rk page 0x028) fun _ => v) := by
    rw [State.hostRegWrite_header v h.1 hi (by omega) rfl, World.regWrite_evtMask _ _ hi, World.owned_of_mayWrite hw]
  exact ⟨_, congrArg Host.Outcome.next hx, by simp, World.OnlyRegs.commit (World.onlyRegs_modReg _ _ (by simp))⟩

theorem evtMask_write_denied {s : State} {p page : Nat} (v : U64) (h : s.hosts p) (ho : s.dev.urk.owner ≠ some p)
    (hi : (pageInfo page).isSome = true) (hpage : page < 0x4000) (hen : bit (s.reg (rk (0x10 + p) 0x010)) 3 = false) :
    ∃ t, exec (.registerWrite p page 0x028 v) s = .next t ∧
      t.rf (rk (0x10 + p) 0x0F8) 31 0 = min (2 ^ 32 - 1) (s.rf (rk (0x10 + p) 0x0F8) 31 0 + 1) ∧
      t.rf (rk (0x10 + p) 0x0F8) 47 32 = page ∧ t.rf (rk (0x10 + p) 0x0F8) 59 48 = 0x028 ∧
      bit (t.reg (rk (0x10 + p) 0x020)) 0x15 = true ∧
      s.OnlyRegs t [rk (0x10 + p) 0x0F8, rk (0x10 + p) 0x020, rk (0x10 + p) 0x030] := by
  have hw : s.toWorld.mayWrite p page 0x028 v = false := by
    obtain ⟨-, hp, -⟩ := h
    rw [World.mayWrite_header _ _ hp (by omega)]
    simpa using ho
  let w := s.toWorld.deny p page 0x028
  have hd : w = _ := s.toWorld.deny_unsent p page 0x028 hen
  have hx : s.hostRegWrite p page 0x028 v = s.commit w := by
    rw [State.hostRegWrite_header v h hi (by omega) rfl, World.regWrite_evtMask _ _ hi,
      World.owned_header_denied hw (by omega)]
  have apart : ∀ a b, a ≠ b → rk (0x10 + p) a ≠ rk (0x10 + p) b := fun a b hab => by simpa [rk] using hab
  have deny : w.reg (rk (0x10 + p) 0x0F8) =
      setFld (setFld (countUp (s.reg (rk (0x10 + p) 0x0F8)) 31 0 1) 47 32 page) 59 48 0x028 := by
    rw [hd]; simp [apart]
  have cause : w.reg (rk (0x10 + p) 0x020) = setBit (s.reg (rk (0x10 + p) 0x020)) 0x15 true := by
    rw [hd]; simp [apart]
  refine ⟨s.commit w, congrArg Host.Outcome.next hx, ?_, ?_, ?_, ?_, World.OnlyRegs.commit ?_⟩
  · rw [State.commit_rf, World.rf, deny, fld_setFld_other _ _ _ _ _ _ (by omega) (by omega) (by omega) (by omega),
      fld_setFld_other _ _ _ _ _ _ (by omega) (by omega) (by omega) (by omega), fld_countUp _ _ _ _ (by omega) (by omega)]
    rfl
  · rw [State.commit_rf, World.rf, deny, fld_setFld_other _ _ _ _ _ _ (by omega) (by omega) (by omega) (by omega),
      fld_setFld _ _ _ _ (by omega) (by omega)]
    omega
  · rw [State.commit_rf, World.rf, deny, fld_setFld _ _ _ _ (by omega) (by omega)]
    rfl
  · rw [State.commit_reg, cause, bit_setBit _ _ _ _ (by omega), if_pos rfl]
  · rw [hd]
    exact ((World.onlyRegs_modReg _ _ (by simp)).modReg _ (by simp)).modReg _ (by simp)

theorem blkCtl_en_write {s : State} {p page : Nat} (on : Bool) (h : s.owned p) (hi : (pageInfo page).isSome = true)
    (hr : pageRings page = []) (h1 : bit (s.reg (rk page 0x010)) 1 = false) :
    ∃ t, exec (.blkCtlEn p page on) s = .next t ∧ bit (t.reg (rk page 0x010)) 0 = on ∧
      (∀ i, 1 ≤ i → i < 4 → bit (t.reg (rk page 0x010)) i = bit (s.reg (rk page 0x010)) i) ∧
      s.OnlyRegs t [rk page 0x010] := by
  let v := setBit (s.reg (rk page 0x010)) 0 on
  have hw := h.mayWrite_header (page := page) (off := 0x010) v (by omega)
  have hv : ∀ i, bit v i = if i = 0 then on else bit (s.reg (rk page 0x010)) i := fun i => bit_setBit _ _ _ _ (by omega)
  let w := (s.toWorld.modReg (rk page 0x010) fun x => setBit x 0 (bit v 0)).modReg (rk page 0x010)
    fun x => setBit (setBit x 2 (bit v 2)) 3 (bit v 3)
  have hx : s.hostRegWrite p page 0x010 v = s.commit w := by
    rw [State.hostRegWrite_header v h.1 hi (by omega) rfl, World.regWrite_blkCtl _ _ hi, World.blkCtlWrite_noRings hw hr,
      if_neg (by simp [hv, h1])]
  have bits : ∀ i, bit (w.reg (rk page 0x010)) i = if i = 0 then on else bit (s.reg (rk page 0x010)) i := fun i => by
    simp only [w, World.reg_modReg, if_true, bit_setBit, Nat.reduceLT, hv, State.toWorld_reg]
    by_cases h3 : i = 3
    · simp [h3]
    by_cases h2 : i = 2
    · simp [h2]
    simp [h3, h2]
  refine ⟨s.commit w, congrArg Host.Outcome.next hx, by simp [bits], fun i hi _ => ?_, World.OnlyRegs.commit ?_⟩
  · rw [State.commit_reg, bits, if_neg (by omega)]
  · exact (World.onlyRegs_modReg _ _ (by simp)).modReg _ (by simp)

theorem softReset_write {s : State} {p page i : Nat} {b : Blk} (h : s.owned p) (hi : pageInfo page = some (b, i))
    (hb : b ∈ [Blk.mgt, .snp, .sec, .hrt, .hbm, .gst]) :
    ∃ t, exec (.srst p page) s = .next t ∧ t.reg (rk page 0x020) = 0 ∧ t.reg (rk page 0x030) = 0 ∧ t.mem = s.mem ∧
      t.pending = s.pending ∧ t.sec = s.sec ∧ { t.dev with regs := s.dev.regs } = s.dev ∧
      (∀ k, k / 0x1000 ≠ page → t.reg k = s.reg k) := by
  obtain ⟨hsoft, hrings⟩ := s.toWorld.softReset_counts hi hb
  have hi' : (pageInfo page).isSome = true := by rw [hi]; rfl
  let v := setBit (s.reg (rk page 0x010)) 1 true
  have hw := h.mayWrite_header (page := page) (off := 0x010) v (by omega)
  let w := ((s.toWorld.clearCounts page).modReg (rk page 0x010) fun x => setBit x 0 (bit v 0)).modReg (rk page 0x010)
    fun x => setBit (setBit x 2 (bit v 2)) 3 (bit v 3)
  have hx : s.hostRegWrite p page 0x010 v = s.commit w := by
    rw [State.hostRegWrite_header v h.1 hi' (by omega) rfl, World.regWrite_blkCtl _ _ hi', World.blkCtlWrite_noRings hw hrings,
      if_pos (by simp [v]), hsoft]
  have only : s.toWorld.OnlyRegs w (· / 0x1000 = page) :=
    ((s.toWorld.onlyRegs_clearCounts hi).modReg _ (rk_div (by omega))).modReg _ (rk_div (by omega))
  have apart : ∀ off, off ≠ 0x010 → w.reg (rk page off) = (s.toWorld.clearCounts page).reg (rk page off) := fun off hne => by
    have : rk page off ≠ rk page 0x010 := by simpa [rk] using hne
    simp [w, this]
  obtain ⟨hdev, hlog, hregs⟩ := only
  refine ⟨s.commit w, congrArg Host.Outcome.next hx, ?_, ?_, ?_, rfl, rfl, hdev, hregs⟩
  · exact (apart _ (by omega)).trans (s.toWorld.clearCounts_header (w1c := 0xFFFFFFFFFFFFFFFF) hi (by decide))
  · exact (apart _ (by omega)).trans (s.toWorld.clearCounts_header (w1c := 0) hi (by decide))
  · rw [State.commit_mem, hlog]; rfl

theorem ringSetup_write {s : State} {p page off : Nat} {v : U64} (h : s.hosts p) (hs : setupReg page off = true)
    (hw : s.toWorld.mayWrite p page off v = true) (hv : bit v 0 = true) :
    ∃ t, exec (.ringSetupBase p page off v) s = .next t ∧
      t.rf (rk page off) 5 1 = fld v 5 1 ∧ t.rf (rk page off) 47 12 = fld v 47 12 ∧
      bit (t.reg (rk page off)) 0 = (decide (12 ≤ fld v 5 1) && decide (fld v 5 1 ≤ 24)) ∧ s.OnlyRegs t [rk page off] := by
  obtain ⟨r, hr, hw1c, hlow, hhigh⟩ := setupReg_row hs
  let legal := decide (12 ≤ fld v 5 1) && decide (fld v 5 1 ≤ 24)
  let u := if legal then v else setBit v 0 false
  let w := s.toWorld.modReg (rk page off) fun old => r.write old u
  have hx : (if setupReg page off then s.hostRegWrite p page off v else s) = s.commit w := by
    rw [if_pos hs, State.hostRegWrite_setup h hs hw]
    simp only [World.setupWrite, World.plainWrite, hr]
    rfl
  have hreg : w.reg (rk page off) = r.write (s.reg (rk page off)) u := by simp [w]
  have same : ∀ hi lo, 1 ≤ lo → lo ≤ hi → fld u hi lo = fld v hi lo := fun hi lo h1 h2 => by
    simp only [u]
    split
    · rfl
    · exact fld_setBit_other v 0 false hi lo (by omega) h2 (.inr h1)
  refine ⟨s.commit w, congrArg Host.Outcome.next hx, ?_, ?_, ?_, World.OnlyRegs.commit (World.onlyRegs_modReg _ _ (by simp))⟩
  · rw [State.commit_rf, World.rf, hreg, r.fld_write _ _ _ _ hw1c (by omega) fun i h5 _ => hlow i h5,
      same _ _ (by omega) (by omega)]
  · rw [State.commit_rf, World.rf, hreg, r.fld_write _ _ _ _ hw1c (by omega) hhigh, same _ _ (by omega) (by omega)]
  · rw [State.commit_reg, hreg, r.bit_write _ _ _ hw1c, if_pos (hlow 0 (by omega))]
    show bit u 0 = legal
    cases hl : legal <;> simp [u, hl, hv]

/-- Settles O40: EVT_MASK by its owner and by another port, BLK_CTL.EN, the soft reset, and the set-up registers. -/
theorem registerWritesAct : Obligations.RegisterWritesAct :=
  ⟨⟨fun _ _ _ v h hi => evtMask_write_owned v h hi, fun _ _ _ v h ho hi hp he => evtMask_write_denied v h ho hi hp he⟩,
    ⟨fun _ _ _ on h hi hr h1 => blkCtl_en_write on h hi hr h1, fun _ _ _ _ _ h hi hb => softReset_write h hi hb⟩,
    fun _ _ _ _ _ h hs hw hv => ringSetup_write h hs hw hv⟩

end Sys2Proof.Machine

/-! # Number formats (R44 to R54)

Magnitudes n · 2^e are compared in ℚ, where `floorLog2` is Mathlib's `Int.log 2`. The rounded magnitude of a float format has
mant + 1 significant bits (`roundMag_float_bounds`), so its code has a normal exponent field; a value on the grid is not
rounded (`roundMag_exact`), so a code's value is encoded as the code. -/

namespace Sys2Proof.Machine

/-! ### Fractions as rationals -/

theorem pow2_fst_ne_zero (e : Int) : (pow2 e).1 ≠ 0 := by
  unfold pow2; split <;> simp

theorem pow2_snd_pos (e : Int) : 0 < (pow2 e).2 := by
  unfold pow2; split <;> simp

theorem pow2_fst_eq (e : Int) : ((pow2 e).1 : ℚ) = 2 ^ e * (pow2 e).2 := by
  unfold pow2
  split
  · next h =>
    obtain ⟨k, rfl⟩ := Int.eq_ofNat_of_zero_le h
    simp
  · next h =>
    obtain ⟨k, hk⟩ := Int.eq_ofNat_of_zero_le (show 0 ≤ -e by omega)
    obtain rfl : e = -k := by omega
    simp

theorem lt_mul_pow2_iff (a n : Nat) (e : Int) : a * (pow2 e).2 < n * (pow2 e).1 ↔ (a : ℚ) < n * 2 ^ e := by
  have hp : (0 : ℚ) < (pow2 e).2 := mod_cast pow2_snd_pos e
  rw [← Nat.cast_lt (α := ℚ)]
  push_cast
  rw [pow2_fst_eq, ← mul_assoc, mul_lt_mul_iff_left₀ hp]

theorem magGe_iff (n : Nat) (e k : Int) : magGe n e k = true ↔ (2 : ℚ) ^ k ≤ n * 2 ^ e := by
  have hp : (0 : ℚ) < (pow2 (k - e)).2 := mod_cast pow2_snd_pos _
  have hk : (2 : ℚ) ^ k = 2 ^ (k - e) * 2 ^ e := by rw [← zpow_add₀ two_ne_zero, sub_add_cancel]
  rw [magGe, decide_eq_true_iff, ← Nat.cast_le (α := ℚ), Nat.cast_mul, pow2_fst_eq, mul_le_mul_iff_left₀ hp, hk,
    mul_le_mul_iff_left₀ (by positivity)]

theorem log_eq_of_mem {x : ℚ} {l : Int} (hl : (2 : ℚ) ^ l ≤ x) (hu : x < 2 ^ (l + 1)) : Int.log 2 x = l := by
  have hx : 0 < x := lt_of_lt_of_le (by positivity) hl
  have h1 := (Int.zpow_le_iff_le_log (b := 2) one_lt_two hx).1 (by exact_mod_cast hl)
  have h2 := (Int.lt_zpow_iff_log_lt (b := 2) one_lt_two hx).1 (by exact_mod_cast hu)
  omega

theorem floorLog2_eq_log {num den : Nat} (hn : num ≠ 0) (hd : den ≠ 0) :
    floorLog2 num den = Int.log 2 ((num : ℚ) / den) := by
  have hd0 : (0 : ℚ) < den := by positivity
  have log2_le {n : Nat} (h : n ≠ 0) : (2 : ℚ) ^ (Nat.log2 n : Int) ≤ n := mod_cast Nat.log2_self_le h
  have lt_log2 (n : Nat) : (n : ℚ) < 2 ^ ((Nat.log2 n : Int) + 1) := mod_cast Nat.lt_log2_self
  let e : Int := Nat.log2 num - Nat.log2 den
  have lower : (2 : ℚ) ^ (e - 1) * den ≤ num := calc
    (2 : ℚ) ^ (e - 1) * den ≤ 2 ^ (e - 1) * 2 ^ ((Nat.log2 den : Int) + 1) := by gcongr; exact (lt_log2 den).le
    _ = 2 ^ (Nat.log2 num : Int) := by rw [← zpow_add₀ two_ne_zero]; congr 1; omega
    _ ≤ num := log2_le hn
  have upper : (num : ℚ) < 2 ^ (e + 1) * den := calc
    (num : ℚ) < 2 ^ ((Nat.log2 num : Int) + 1) := lt_log2 num
    _ = 2 ^ (e + 1) * 2 ^ (Nat.log2 den : Int) := by rw [← zpow_add₀ two_ne_zero]; congr 1; omega
    _ ≤ 2 ^ (e + 1) * den := by gcongr; exact log2_le hd
  have test : (pow2 e).1 * den ≤ num * (pow2 e).2 ↔ (2 : ℚ) ^ e * den ≤ num := by
    have hp : (0 : ℚ) < (pow2 e).2 := mod_cast pow2_snd_pos e
    rw [← Nat.cast_le (α := ℚ), Nat.cast_mul, Nat.cast_mul, pow2_fst_eq, mul_right_comm, mul_le_mul_iff_left₀ hp]
  rw [floorLog2]
  by_cases h : (2 : ℚ) ^ e * den ≤ num
  · rw [if_pos (test.2 h)]
    exact (log_eq_of_mem ((le_div_iff₀ hd0).2 h) ((div_lt_iff₀ hd0).2 upper)).symm
  · rw [if_neg (test.not.2 h)]
    refine (log_eq_of_mem ((le_div_iff₀ hd0).2 lower) ((div_lt_iff₀ hd0).2 ?_)).symm
    rw [sub_add_cancel]
    exact not_le.1 h

theorem mkVal_eq_fin {num : Int} {den : Nat} (hn : num ≠ 0) (hd : den ≠ 0) :
    ∃ a b, mkVal num den = .fin a b ∧ b ≠ 0 ∧ (a < 0 ↔ num < 0) ∧ (a.natAbs : ℚ) / b = (num.natAbs : ℚ) / den := by
  let g := Nat.gcd num.natAbs den
  have hg : 0 < g := Nat.gcd_pos_of_pos_right _ (Nat.pos_of_ne_zero hd)
  obtain ⟨a, ha⟩ : (g : Int) ∣ num := Int.natCast_dvd.2 (Nat.gcd_dvd_left _ _)
  obtain ⟨b, hb⟩ : g ∣ den := Nat.gcd_dvd_right _ _
  have hgi : (0 : Int) < g := mod_cast hg
  refine ⟨a, b, ?_, ?_, ?_, ?_⟩
  · rw [mkVal, if_neg hn]
    show Val.fin (num / (g : Int)) (den / g) = _
    rw [Int.ediv_eq_of_eq_mul_right hgi.ne' ha, Nat.div_eq_of_eq_mul_right hg hb]
  · rintro rfl
    exact hd hb
  · rw [ha, mul_neg_iff]
    omega
  · rw [ha, hb, Int.natAbs_mul, Int.natAbs_natCast, Nat.cast_mul, Nat.cast_mul, mul_div_mul_left _ _ (by positivity)]

theorem mkPow_eq_fin (neg : Bool) {n : Nat} (e : Int) (hn : n ≠ 0) :
    ∃ a b, mkPow neg n e = .fin a b ∧ b ≠ 0 ∧ decide (a < 0) = neg ∧ (a.natAbs : ℚ) / b = n * 2 ^ e := by
  let k : Nat := n * (pow2 e).1
  have hk : 0 < k := Nat.pos_of_ne_zero (mul_ne_zero hn (pow2_fst_ne_zero e))
  have hp : ((pow2 e).2 : ℚ) ≠ 0 := mod_cast (pow2_snd_pos e).ne'
  let num : Int := (if neg then -1 else 1) * k
  have hnum : num ≠ 0 ∧ (num < 0 ↔ neg = true) ∧ num.natAbs = k := by
    cases neg <;> simp [num] <;> omega
  obtain ⟨hne, hneg, habs⟩ := hnum
  obtain ⟨a, b, hv, hb, hs, hq⟩ := mkVal_eq_fin hne (pow2_snd_pos e).ne'
  refine ⟨a, b, ?_, hb, ?_, ?_⟩
  · rw [mkPow, if_neg hn]
    exact hv
  · simp [hs, hneg]
  · rw [hq, habs, div_eq_iff hp, Nat.cast_mul, pow2_fst_eq, mul_assoc]

theorem ofInt_eq_mkPow (k : Int) : Val.ofInt k = mkPow (decide (k < 0)) k.natAbs 0 := by
  by_cases h0 : k = 0
  · subst h0; rfl
  · have hk : (if decide (k < 0) = true then -1 else 1) * ((k.natAbs * 1 : Nat) : Int) = k := by
      split_ifs with h <;> rw [decide_eq_true_iff] at h <;> omega
    rw [mkPow, if_neg (Int.natAbs_ne_zero.2 h0)]
    exact congrArg (mkVal · 1) hk.symm

/-! ### Rounding (R53, R54) -/

/-- The exponent e of R53: next to num / den the grid of the format is the multiples of 2^e. -/
def gridExp (fmt : Fmt) (num den : Nat) : Int :=
  if fmt.isInt then 0
  else if fmt = .e2m1 && decide (floorLog2 num den < 0) then -1 else floorLog2 num den - fmt.mant

/-- The integer to which a mode rounds an integer part, its remainder and the divisor. -/
def roundQuot (mode : Rnd) (q : Nat × Nat × Nat) : Nat :=
  match mode with
  | .rne => rneUp q.1 q.2.1 q.2.2
  | .sr u => if q.2.1 ≠ 0 ∧ u < q.2.1 * 2 ^ 32 / q.2.2 then q.1 + 1 else q.1

theorem roundMag_eq (fmt : Fmt) (mode : Rnd) (num den : Nat) :
    roundMag fmt mode num den = (roundQuot mode (gridQuot num den (gridExp fmt num den)), gridExp fmt num den) := by
  cases mode <;> rfl

theorem roundQuot_cases (mode : Rnd) (q : Nat × Nat × Nat) : roundQuot mode q = q.1 ∨ roundQuot mode q = q.1 + 1 := by
  cases mode with
  | rne => simp only [roundQuot, rneUp]; split_ifs <;> simp
  | sr u => simp only [roundQuot]; split_ifs <;> simp

theorem roundQuot_exact (mode : Rnd) {q : Nat × Nat × Nat} (hr : q.2.1 = 0) (hd : q.2.2 ≠ 0) : roundQuot mode q = q.1 := by
  cases mode with
  | rne => exact if_pos (by omega)
  | sr u => exact if_neg fun h => h.1 hr

theorem gridQuot_divisor_ne_zero (num : Nat) {den : Nat} (e : Int) (hd : den ≠ 0) : (gridQuot num den e).2.2 ≠ 0 :=
  mul_ne_zero hd (pow2_fst_ne_zero e)

theorem gridQuot_fst (num den : Nat) (e : Int) : (gridQuot num den e).1 = ⌊(num / den : ℚ) / 2 ^ e⌋₊ := by
  have hp : ((pow2 e).2 : ℚ) ≠ 0 := mod_cast (pow2_snd_pos e).ne'
  rw [gridQuot, ← Nat.floor_div_eq_div (K := ℚ), Nat.cast_mul, Nat.cast_mul, pow2_fst_eq, ← mul_assoc,
    mul_div_mul_right _ _ hp, div_div]

theorem gridQuot_of_eq {num den n : Nat} {e : Int} (hd : den ≠ 0) (h : (num / den : ℚ) = n * 2 ^ e) :
    (gridQuot num den e).1 = n ∧ (gridQuot num den e).2.1 = 0 := by
  have hd' : (den : ℚ) ≠ 0 := mod_cast hd
  have hq : num * (pow2 e).2 = n * (den * (pow2 e).1) := by
    rw [← Nat.cast_inj (R := ℚ)]
    push_cast
    rw [pow2_fst_eq, (div_eq_iff hd').1 h]
    ring
  exact ⟨Nat.div_eq_of_eq_mul_left (Nat.pos_of_ne_zero (gridQuot_divisor_ne_zero num e hd)) hq, by simp [gridQuot, hq]⟩

theorem roundMag_exact {fmt : Fmt} {num den n : Nat} {e : Int} (mode : Rnd) (hd : den ≠ 0) (he : gridExp fmt num den = e)
    (h : (num / den : ℚ) = n * 2 ^ e) : roundMag fmt mode num den = (n, e) := by
  obtain ⟨hq, hr⟩ := gridQuot_of_eq hd h
  rw [roundMag_eq, he, roundQuot_exact mode hr (gridQuot_divisor_ne_zero num e hd), hq]

theorem gridExp_float {fmt : Fmt} {num den : Nat} (hf : fmt.isFloat = true) (hn : num ≠ 0) (hd : den ≠ 0) :
    gridExp fmt num den = Int.log 2 ((num : ℚ) / den) - fmt.mant := by
  have hi : fmt.isInt = false ∧ fmt ≠ .e2m1 := by revert hf; cases fmt <;> decide
  simp [gridExp, hi, floorLog2_eq_log hn hd]

theorem gridExp_int {fmt : Fmt} (hi : fmt.isInt = true) (num den : Nat) : gridExp fmt num den = 0 := if_pos hi

/-- A rounded magnitude of a float format has mant + 1 significant bits, or is the next power of two. -/
theorem roundMag_float_bounds {fmt : Fmt} {num den : Nat} (mode : Rnd) (hf : fmt.isFloat = true) (hn : num ≠ 0) (hd : den ≠ 0) :
    2 ^ fmt.mant ≤ (roundMag fmt mode num den).1 ∧ (roundMag fmt mode num den).1 ≤ 2 ^ (fmt.mant + 1) := by
  let x : ℚ := num / den
  have hx : 0 < x := by positivity
  have he : gridExp fmt num den = Int.log 2 x - fmt.mant := gridExp_float hf hn hd
  have pow_eq : ∀ k : Nat, (2 : ℚ) ^ k * 2 ^ gridExp fmt num den = 2 ^ (Int.log 2 x + k - fmt.mant) := fun k => by
    rw [he, ← zpow_natCast, ← zpow_add₀ two_ne_zero]
    congr 1; omega
  have lower : 2 ^ fmt.mant ≤ ⌊x / 2 ^ gridExp fmt num den⌋₊ := by
    refine Nat.le_floor ((le_div_iff₀ (by positivity)).2 ?_)
    push_cast
    rw [pow_eq, add_sub_cancel_right]
    exact mod_cast Int.zpow_log_le_self (b := 2) one_lt_two hx
  have upper : ⌊x / 2 ^ gridExp fmt num den⌋₊ < 2 ^ (fmt.mant + 1) := by
    refine (Nat.floor_lt (by positivity)).2 ((div_lt_iff₀ (by positivity)).2 ?_)
    push_cast
    rw [pow_eq, Nat.cast_add_one, ← add_assoc, add_right_comm, add_sub_cancel_right]
    exact mod_cast Int.lt_zpow_succ_log_self (b := 2) one_lt_two x
  rw [← gridQuot_fst] at lower upper
  have hr := roundQuot_cases mode (gridQuot num den (gridExp fmt num den))
  simp only [roundMag_eq]
  omega

/-! ### The cases of encode (R54) -/

theorem encodeElem_mkPow {fmt : Fmt} {n : Nat} {e : Int} (neg : Bool) (mode : Rnd) (hn : n ≠ 0)
    (hgrid : ∀ num den : Nat, num ≠ 0 → den ≠ 0 → (num / den : ℚ) = n * 2 ^ e → gridExp fmt num den = e)
    (hmax : (n : ℚ) * 2 ^ e ≤ fmt.maxMag) (hmin : fmt.isFloat = true → (2 : ℚ) ^ minNormExp fmt ≤ n * 2 ^ e) :
    encodeElem (mkPow neg n e) fmt mode = (magEnc fmt neg n e, .none) := by
  obtain ⟨a, b, hv, hb, hs, hq⟩ := mkPow_eq_fin neg e hn
  have ha : a.natAbs ≠ 0 := by
    rintro h0
    rw [h0, Nat.cast_zero, zero_div] at hq
    have : (0 : ℚ) < n * 2 ^ e := by positivity
    exact this.ne hq
  have hr := roundMag_exact mode hb (hgrid _ _ ha hb hq) hq
  have hf : ¬ (fmt.isFloat && !magGe n e (minNormExp fmt)) = true := by
    simpa [magGe_iff] using hmin
  simp only [hv, encodeElem, hr, hs]
  rw [if_neg ((lt_mul_pow2_iff _ _ _).not.2 hmax.not_gt), if_neg hn, if_neg hf]

/-- What encode writes for a value that is neither NaN, infinite nor zero. -/
theorem encodeElem_fin_cases (num : Int) (den : Nat) (fmt : Fmt) (mode : Rnd) :
    ∃ neg n e, roundMag fmt mode num.natAbs den = (n, e) ∧
      ((encodeElem (.fin num den) fmt mode).1 = maxEnc fmt neg ∨ (encodeElem (.fin num den) fmt mode).1 = zeroEnc fmt neg ∨
        ((encodeElem (.fin num den) fmt mode).1 = magEnc fmt neg n e ∧ n ≠ 0 ∧ (n : ℚ) * 2 ^ e ≤ fmt.maxMag ∧
          (fmt.isFloat = true → (2 : ℚ) ^ minNormExp fmt ≤ n * 2 ^ e))) := by
  rcases hr : roundMag fmt mode num.natAbs den with ⟨n, e⟩
  refine ⟨decide (num < 0), n, e, rfl, ?_⟩
  simp only [encodeElem, hr]
  split_ifs with hmax hn hmin
  · exact .inl rfl
  · exact .inr (.inl rfl)
  · exact .inr (.inl rfl)
  · refine .inr (.inr ⟨rfl, hn, not_lt.1 ((lt_mul_pow2_iff _ _ _).not.1 hmax), fun hf => ?_⟩)
    simpa [hf, magGe_iff] using hmin

/-! ### The fields of a float code (R44, R45) -/

/-- Bits of the exponent field; 0 for the formats that are no float format (R44). -/
def Fmt.expBits : Fmt → Nat
  | .l16 => 8 | .h16 | .e5m2 => 5 | .e4m3 => 4
  | _ => 0

/-- The code of a float format with a sign, an exponent field and a mantissa field. -/
def packFloat (fmt : Fmt) (neg : Bool) (ex mt : Nat) : Nat :=
  (neg.toNat * 2 ^ fmt.expBits + ex) * 2 ^ fmt.mant + mt

section
variable {fmt : Fmt} {neg : Bool} {ex mt : Nat}

theorem packFloat_div (hm : mt < 2 ^ fmt.mant) : packFloat fmt neg ex mt / 2 ^ fmt.mant = neg.toNat * 2 ^ fmt.expBits + ex := by
  rw [packFloat, add_comm, Nat.add_mul_div_right _ _ (by positivity), Nat.div_eq_of_lt hm, Nat.zero_add]

theorem packFloat_mod (hm : mt < 2 ^ fmt.mant) : packFloat fmt neg ex mt % 2 ^ fmt.mant = mt := by
  rw [packFloat, Nat.mul_add_mod_self_right, Nat.mod_eq_of_lt hm]

theorem packFloat_testBit (hx : ex < 2 ^ fmt.expBits) (hm : mt < 2 ^ fmt.mant) :
    (packFloat fmt neg ex mt).testBit (fmt.mant + fmt.expBits) = neg := by
  have hs : (neg.toNat * 2 ^ fmt.expBits + ex) / 2 ^ fmt.expBits = neg.toNat := by
    rw [add_comm, Nat.add_mul_div_right _ _ (by positivity), Nat.div_eq_of_lt hx, Nat.zero_add]
  rw [add_comm, ← Nat.testBit_div_two_pow, packFloat_div hm, ← Nat.zero_add fmt.expBits, ← Nat.testBit_div_two_pow, Nat.zero_add, hs]
  cases neg <;> rfl

theorem width_of_isFloat (hf : fmt.isFloat = true) : 2 ^ fmt.width = 2 * 2 ^ fmt.expBits * 2 ^ fmt.mant := by
  revert hf; cases fmt <;> decide

theorem exists_packFloat {code : Nat} (hf : fmt.isFloat = true) (h : code < 2 ^ fmt.width) :
    ∃ neg ex mt, ex < 2 ^ fmt.expBits ∧ mt < 2 ^ fmt.mant ∧ code = packFloat fmt neg ex mt := by
  let q := code / 2 ^ fmt.mant
  have hs : q / 2 ^ fmt.expBits < 2 := by
    rw [Nat.div_div_eq_div_mul]
    exact Nat.div_lt_of_lt_mul (by rw [width_of_isFloat hf] at h; linarith)
  obtain ⟨neg, hneg⟩ : ∃ neg : Bool, q / 2 ^ fmt.expBits = neg.toNat :=
    ⟨decide (q / 2 ^ fmt.expBits = 1), by interval_cases q / 2 ^ fmt.expBits <;> rfl⟩
  refine ⟨neg, q % 2 ^ fmt.expBits, code % 2 ^ fmt.mant, Nat.mod_lt _ (by positivity), Nat.mod_lt _ (by positivity), ?_⟩
  rw [packFloat, ← hneg, Nat.div_add_mod', Nat.div_add_mod']

theorem packFloat_lt (hf : fmt.isFloat = true) (hx : ex < 2 ^ fmt.expBits) (hm : mt < 2 ^ fmt.mant) :
    packFloat fmt neg ex mt < 2 ^ fmt.width := by
  have hs : neg.toNat * 2 ^ fmt.expBits + ex < 2 * 2 ^ fmt.expBits := by
    have := Nat.mul_le_mul_right (2 ^ fmt.expBits) neg.toNat_le
    omega
  rw [width_of_isFloat hf, packFloat]
  have := Nat.mul_le_mul_right (2 ^ fmt.mant) (Nat.succ_le_of_lt hs)
  rw [Nat.succ_mul] at this
  omega

theorem packFloat_bits (hf : fmt.isFloat = true) (hx : ex < 2 ^ fmt.expBits) (hm : mt < 2 ^ fmt.mant) :
    bits (packFloat fmt neg ex mt) (fmt.mant + fmt.expBits - 1) fmt.mant = ex := by
  have hw : fmt.mant + fmt.expBits - 1 - fmt.mant + 1 = fmt.expBits := by revert hf; cases fmt <;> decide
  rw [bits, hw, Nat.shiftRight_eq_div_pow, packFloat_div hm, Nat.mul_add_mod_self_right, Nat.mod_eq_of_lt hx]

theorem codeVal_float (hf : fmt.isFloat = true) (code : Nat) :
    codeVal fmt code = if fmt = .e4m3 ∧ code % 128 = 127 then (.nan, false)
      else floatCode fmt.mant fmt.expBits fmt.bias (fmt != .e4m3) code := by
  cases fmt with
  | l16 | h16 | e5m2 => rfl
  | e4m3 => simp [codeVal, Fmt.mant, Fmt.expBits, Fmt.bias]
  | int8 | int4 | e2m1 | t2 => cases hf

/-- The value of a float code by its fields, and whether it is subnormal (R45). -/
theorem codeVal_packFloat (hf : fmt.isFloat = true) (hx : ex < 2 ^ fmt.expBits) (hm : mt < 2 ^ fmt.mant) :
    codeVal fmt (packFloat fmt neg ex mt) =
      if fmt = .e4m3 ∧ ex = 15 ∧ mt = 7 then (.nan, false)
      else if ex = 2 ^ fmt.expBits - 1 ∧ fmt ≠ .e4m3 then (if mt = 0 then .inf neg else .nan, false)
      else if ex = 0 then (.zero neg, mt != 0)
      else (mkPow neg (2 ^ fmt.mant + mt) (ex - fmt.bias - fmt.mant), false) := by
  have nan_iff : fmt = .e4m3 ∧ packFloat fmt neg ex mt % 128 = 127 ↔ fmt = .e4m3 ∧ ex = 15 ∧ mt = 7 := by
    refine and_congr_right ?_
    rintro rfl
    change ex < 16 at hx
    change mt < 8 at hm
    change ((neg.toNat * 16 + ex) * 8 + mt) % 128 = 127 ↔ _
    omega
  simp only [codeVal_float hf, nan_iff, floatCode, packFloat_testBit hx hm, packFloat_bits hf hx hm, packFloat_mod hm, bne_iff_ne]

theorem magEnc_float (hf : fmt.isFloat = true) (n : Nat) (e : Int) : magEnc fmt neg n e = floatEnc fmt neg n e fmt.width := by
  cases fmt with
  | l16 | h16 | e5m2 | e4m3 => rfl
  | int8 | int4 | e2m1 | t2 => cases hf

theorem magEnc_eq_packFloat {e : Int} (hf : fmt.isFloat = true) (hm : mt < 2 ^ fmt.mant) (he : (ex : Int) = e + fmt.mant + fmt.bias) :
    magEnc fmt neg (2 ^ fmt.mant + mt) e = packFloat fmt neg ex mt := by
  have hn : 2 ^ fmt.mant + mt ≠ 2 ^ (fmt.mant + 1) := by rw [pow_succ]; omega
  have hw : 2 ^ (fmt.width - 1) = 2 ^ fmt.expBits * 2 ^ fmt.mant := by revert hf; cases fmt <;> decide
  rw [magEnc_float hf]
  simp only [floatEnc, if_neg hn, ← he, Int.toNat_natCast, hw, packFloat]
  cases neg <;> simp
  ring

/-- A mantissa rounded up to the next power of two is that power. -/
theorem magEnc_carry (hf : fmt.isFloat = true) (e : Int) :
    magEnc fmt neg (2 ^ (fmt.mant + 1)) e = magEnc fmt neg (2 ^ fmt.mant) (e + 1) := by
  have hn : 2 ^ fmt.mant ≠ 2 ^ (fmt.mant + 1) := by rw [pow_succ]; have := Nat.two_pow_pos fmt.mant; omega
  rw [magEnc_float hf, magEnc_float hf]
  simp only [floatEnc, if_neg hn, if_true]

/-! ### The range of the float formats (R44) -/

theorem minNormExp_float (hf : fmt.isFloat = true) : minNormExp fmt = 1 - fmt.bias := by
  revert hf; cases fmt <;> decide

theorem maxMag_lt (hf : fmt.isFloat = true) : (fmt.maxMag : ℚ) < 2 ^ ((2 ^ fmt.expBits : Nat) - fmt.bias : Int) := by
  cases fmt with
  | l16 | h16 | e5m2 | e4m3 => norm_num [Fmt.maxMag, Fmt.expBits, Fmt.bias]
  | int8 | int4 | e2m1 | t2 => cases hf

theorem mul_zpow_le {n k : Nat} {e l : Int} (hn : n ≤ k) (he : e ≤ l) : (n : ℚ) * 2 ^ e ≤ k * 2 ^ l := by
  gcongr
  norm_num

theorem le_maxMag_of_fields (hf : fmt.isFloat = true) (hx : ex < 2 ^ fmt.expBits) (hm : mt < 2 ^ fmt.mant)
    (hnan : ¬ (fmt = .e4m3 ∧ ex = 15 ∧ mt = 7)) (hinf : ¬ (ex = 2 ^ fmt.expBits - 1 ∧ fmt ≠ .e4m3)) :
    ((2 ^ fmt.mant + mt : Nat) : ℚ) * 2 ^ (ex - fmt.bias - fmt.mant : Int) ≤ fmt.maxMag := by
  cases fmt <;> simp only [Fmt.mant, Fmt.expBits, Fmt.bias, ne_eq, reduceCtorEq, not_false_eq_true, and_true, true_and, not_true, and_false] at *
  case l16 => exact (mul_zpow_le (k := 255) (l := 120) (by omega) (by omega)).trans (by norm_num [Fmt.maxMag])
  case h16 => exact (mul_zpow_le (k := 2047) (l := 5) (by omega) (by omega)).trans (by norm_num [Fmt.maxMag])
  case e5m2 => exact (mul_zpow_le (k := 7) (l := 13) (by omega) (by omega)).trans (by norm_num [Fmt.maxMag])
  case e4m3 =>
    by_cases h15 : ex = 15
    · exact (mul_zpow_le (k := 14) (l := 5) (by omega) (by omega)).trans (by norm_num [Fmt.maxMag])
    · exact (mul_zpow_le (k := 15) (l := 4) (by omega) (by omega)).trans (by norm_num [Fmt.maxMag])
  all_goals cases hf

/-- A magnitude within the range of a float format has a normal exponent field. -/
theorem exists_expField {n : Nat} {e : Int} (hf : fmt.isFloat = true) (hl : 2 ^ fmt.mant ≤ n) (hu : n < 2 ^ (fmt.mant + 1))
    (hmax : (n : ℚ) * 2 ^ e ≤ fmt.maxMag) (hmin : (2 : ℚ) ^ minNormExp fmt ≤ n * 2 ^ e) :
    ∃ ex : Nat, (ex : Int) = e + fmt.mant + fmt.bias ∧ ex ≠ 0 ∧ ex < 2 ^ fmt.expBits := by
  have lower : (2 : ℚ) ^ (1 - fmt.bias : Int) < 2 ^ (fmt.mant + 1 + e : Int) := calc
    (2 : ℚ) ^ (1 - fmt.bias : Int) ≤ n * 2 ^ e := minNormExp_float hf ▸ hmin
    _ < 2 ^ (fmt.mant + 1) * 2 ^ e := by gcongr; exact mod_cast hu
    _ = _ := by rw [zpow_add₀ two_ne_zero]; rfl
  have upper : (2 : ℚ) ^ (fmt.mant + e : Int) < 2 ^ ((2 ^ fmt.expBits : Nat) - fmt.bias : Int) := calc
    (2 : ℚ) ^ (fmt.mant + e : Int) = 2 ^ fmt.mant * 2 ^ e := by rw [zpow_add₀ two_ne_zero]; rfl
    _ ≤ n * 2 ^ e := by gcongr; exact mod_cast hl
    _ ≤ fmt.maxMag := hmax
    _ < _ := maxMag_lt hf
  rw [zpow_lt_zpow_iff_right₀ one_lt_two] at lower upper
  exact ⟨(e + fmt.mant + fmt.bias).toNat, by omega, by omega, by omega⟩

end

/-! ### Codes that encode writes (R45, R47) -/

/-- A code of the format's width that is neither invalid nor subnormal. -/
def Fmt.Written (fmt : Fmt) (code : Nat) : Prop :=
  code < 2 ^ fmt.width ∧ invalidCode fmt code = false ∧ (codeVal fmt code).2 = false

theorem written_fixed (fmt : Fmt) (neg : Bool) :
    fmt.Written (nanEnc fmt) ∧ fmt.Written (infEnc fmt neg) ∧ fmt.Written (zeroEnc fmt neg) ∧ fmt.Written (maxEnc fmt neg) := by
  unfold Fmt.Written
  cases fmt <;> cases neg <;> decide +kernel

theorem written_packFloat {fmt : Fmt} {neg : Bool} {ex mt : Nat} (hf : fmt.isFloat = true) (h0 : ex ≠ 0)
    (hx : ex < 2 ^ fmt.expBits) (hm : mt < 2 ^ fmt.mant) : fmt.Written (packFloat fmt neg ex mt) := by
  refine ⟨packFloat_lt hf hx hm, ?_, ?_⟩
  · cases fmt with
    | l16 | h16 | e5m2 | e4m3 => rfl
    | int8 | int4 | e2m1 | t2 => cases hf
  · rw [codeVal_packFloat hf hx hm, if_neg h0]
    split_ifs <;> rfl

theorem written_magEnc_float {fmt : Fmt} {neg : Bool} {n : Nat} {e : Int} (hf : fmt.isFloat = true)
    (hl : 2 ^ fmt.mant ≤ n) (hu : n ≤ 2 ^ (fmt.mant + 1)) (hmax : (n : ℚ) * 2 ^ e ≤ fmt.maxMag)
    (hmin : (2 : ℚ) ^ minNormExp fmt ≤ n * 2 ^ e) : fmt.Written (magEnc fmt neg n e) := by
  have normal : ∀ (k : Nat) (e : Int), 2 ^ fmt.mant ≤ k → k < 2 ^ (fmt.mant + 1) → (k : ℚ) * 2 ^ e ≤ fmt.maxMag →
      (2 : ℚ) ^ minNormExp fmt ≤ k * 2 ^ e → fmt.Written (magEnc fmt neg k e) := by
    intro k e hl hu hmax hmin
    obtain ⟨ex, he, h0, hx⟩ := exists_expField hf hl hu hmax hmin
    obtain ⟨mt, rfl⟩ := Nat.exists_eq_add_of_le hl
    have hm : mt < 2 ^ fmt.mant := by rw [pow_succ] at hu; omega
    exact magEnc_eq_packFloat hf hm he ▸ written_packFloat hf h0 hx hm
  obtain hu | rfl := hu.lt_or_eq
  · exact normal n e hl hu hmax hmin
  · have same : ((2 ^ (fmt.mant + 1) : Nat) : ℚ) * 2 ^ e = (2 ^ fmt.mant : Nat) * 2 ^ (e + 1) := by
      rw [zpow_add_one₀ two_ne_zero]; push_cast; ring
    rw [same] at hmax hmin
    exact magEnc_carry hf e ▸ normal _ _ le_rfl (Nat.pow_lt_pow_succ one_lt_two) hmax hmin

theorem written_magEnc_int {fmt : Fmt} (neg : Bool) {n : Nat} (e : Int) (hi : fmt.isInt = true) (hn : n ≠ 0)
    (hmax : n ≤ fmt.maxMag) : fmt.Written (magEnc fmt neg n e) := by
  cases fmt with
  | int8 =>
    change n ≤ 127 at hmax
    cases neg <;> simp [Fmt.Written, magEnc, invalidCode, codeVal, Fmt.width] <;> omega
  | int4 =>
    change n ≤ 7 at hmax
    cases neg <;> simp [Fmt.Written, magEnc, invalidCode, codeVal, Fmt.width] <;> omega
  | t2 => cases neg <;> simp [Fmt.Written, magEnc, invalidCode, codeVal, Fmt.width, hn]
  | l16 | h16 | e5m2 | e4m3 | e2m1 => cases hi

theorem e2m1Enc_lt (neg : Bool) (h : Nat) : e2m1Enc neg h < 16 := by
  unfold e2m1Enc
  split_ifs <;> omega

theorem Fmt.isFloat_or_isInt_or_e2m1 (fmt : Fmt) : fmt.isFloat = true ∨ fmt.isInt = true ∨ fmt = .e2m1 := by
  cases fmt <;> decide

theorem written_encodeElem (x : Val) (fmt : Fmt) (mode : Rnd) (hx : ∀ n d, x = .fin n d → n ≠ 0 ∧ d ≠ 0) :
    fmt.Written (encodeElem x fmt mode).1 := by
  have fixed := written_fixed fmt
  cases x with
  | nan => exact (fixed false).1
  | inf s => exact (fixed s).2.1
  | zero s => exact (fixed s).2.2.1
  | fin num den =>
    obtain ⟨hn, hd⟩ := hx num den rfl
    obtain ⟨neg, n, e, hr, hw | hw | ⟨hw, hn0, hmax, hmin⟩⟩ := encodeElem_fin_cases num den fmt mode <;> rw [hw]
    · exact (fixed neg).2.2.2
    · exact (fixed neg).2.2.1
    obtain hf | hi | rfl := fmt.isFloat_or_isInt_or_e2m1
    · have hb := roundMag_float_bounds mode hf (Int.natAbs_ne_zero.2 hn) hd
      rw [hr] at hb
      exact written_magEnc_float hf hb.1 hb.2 hmax (hmin hf)
    · obtain rfl : e = 0 := by
        rw [← gridExp_int hi num.natAbs den]
        exact (congrArg Prod.snd hr).symm
      exact written_magEnc_int neg 0 hi hn0 (by simpa using hmax)
    · exact ⟨e2m1Enc_lt _ _, rfl, rfl⟩

/-! ### Codes decoded and encoded again -/

/-- The value of fields that are finite and not subnormal lies on the grid and in range, so it is encoded as these fields. -/
theorem encodeElem_normal {fmt : Fmt} {ex mt : Nat} (neg : Bool) (mode : Rnd) (hf : fmt.isFloat = true) (hx : ex < 2 ^ fmt.expBits)
    (hm : mt < 2 ^ fmt.mant) (h0 : ex ≠ 0) (hnan : ¬ (fmt = .e4m3 ∧ ex = 15 ∧ mt = 7))
    (hinf : ¬ (ex = 2 ^ fmt.expBits - 1 ∧ fmt ≠ .e4m3)) :
    (encodeElem (mkPow neg (2 ^ fmt.mant + mt) (ex - fmt.bias - fmt.mant)) fmt mode).1 = packFloat fmt neg ex mt := by
  let e : Int := ex - fmt.bias - fmt.mant
  let n := 2 ^ fmt.mant + mt
  have lower : (2 : ℚ) ^ (e + fmt.mant) ≤ n * 2 ^ e := by
    rw [add_comm, zpow_add₀ two_ne_zero]
    gcongr
    simp [n]
  have upper : (n : ℚ) * 2 ^ e < 2 ^ (e + fmt.mant + 1) := by
    rw [add_assoc, add_comm, zpow_add₀ two_ne_zero]
    gcongr
    have : n < 2 ^ (fmt.mant + 1) := by rw [pow_succ]; omega
    exact_mod_cast this
  have hgrid : ∀ num den : Nat, num ≠ 0 → den ≠ 0 → (num / den : ℚ) = n * 2 ^ e → gridExp fmt num den = e := by
    intro num den hn hd hq
    rw [gridExp_float hf hn hd, hq, log_eq_of_mem lower upper, add_sub_cancel_right]
  have hmin : (2 : ℚ) ^ minNormExp fmt ≤ n * 2 ^ e := by
    refine le_trans ?_ lower
    rw [minNormExp_float hf, zpow_le_zpow_iff_right₀ one_lt_two]
    omega
  rw [encodeElem_mkPow neg mode (by omega) hgrid (le_maxMag_of_fields hf hx hm hnan hinf) fun _ => hmin]
  exact magEnc_eq_packFloat hf hm (by omega)

theorem encodeElem_codeVal_float {fmt : Fmt} {c : Nat} (mode : Rnd) (hf : fmt.isFloat = true) (hc : c < 2 ^ fmt.width)
    (hsub : (codeVal fmt c).2 = false) (hnan : (codeVal fmt c).1.isNaN = false) :
    (encodeElem (codeVal fmt c).1 fmt mode).1 = c := by
  obtain ⟨neg, ex, mt, hx, hm, rfl⟩ := exists_packFloat hf hc
  rw [codeVal_packFloat hf hx hm] at hsub hnan ⊢
  split_ifs at hsub hnan ⊢ with h1 h2 h3 h4
  · cases hnan
  · subst h3
    obtain ⟨rfl, hfmt⟩ := h2
    cases fmt with
    | l16 | h16 | e5m2 => cases neg <;> rfl
    | e4m3 => exact absurd rfl hfmt
    | int8 | int4 | e2m1 | t2 => cases hf
  · cases hnan
  · obtain rfl : mt = 0 := by simpa using hsub
    subst h4
    cases fmt with
    | l16 | h16 | e5m2 | e4m3 => cases neg <;> rfl
    | int8 | int4 | e2m1 | t2 => cases hf
  · exact encodeElem_normal neg mode hf hx hm h4 h1 h2

theorem encodeElem_ofInt {fmt : Fmt} {k : Int} (mode : Rnd) (hi : fmt.isInt = true) (hk : k.natAbs ≤ fmt.maxMag) :
    (encodeElem (Val.ofInt k) fmt mode).1 = magEnc fmt (decide (k < 0)) k.natAbs 0 := by
  by_cases h0 : k = 0
  · subst h0
    cases fmt with
    | int8 | int4 | t2 => rfl
    | l16 | h16 | e5m2 | e4m3 | e2m1 => cases hi
  · have hf : fmt.isFloat ≠ true := by revert hi; cases fmt <;> decide
    rw [ofInt_eq_mkPow, encodeElem_mkPow _ mode (Int.natAbs_ne_zero.2 h0) (fun num den _ _ _ => gridExp_int hi num den)
      (by rw [zpow_zero, mul_one]; exact mod_cast hk) fun h => absurd h hf]

theorem natAbs_signedOf_le {w c : Nat} (hw : 0 < w) (hc : c < 2 ^ w) (hv : c ≠ 2 ^ (w - 1)) :
    (signedOf w c).natAbs ≤ 2 ^ (w - 1) - 1 := by
  have h2 : 2 ^ w = 2 * 2 ^ (w - 1) := (mul_pow_sub_one hw.ne' 2).symm
  rw [signedOf, Nat.mod_eq_of_lt hc]
  split_ifs <;> omega

/-- Two's complement of w bits: the code of a value is the value, or what it lacks to 2^w. -/
theorem code_of_signedOf {w c : Nat} (hc : c < 2 ^ w) :
    (if decide (signedOf w c < 0) then (2 ^ w - (signedOf w c).natAbs) % 2 ^ w else (signedOf w c).natAbs) = c := by
  rw [signedOf, Nat.mod_eq_of_lt hc]
  by_cases h : 2 ^ (w - 1) ≤ c
  · have hk : 2 ^ w - ((c : Int) - (2 ^ w : Nat)).natAbs = c := by omega
    rw [if_pos h, if_pos (by simp; exact_mod_cast hc), hk, Nat.mod_eq_of_lt hc]
  · rw [if_neg h, if_neg (by simp), Int.natAbs_natCast]

theorem encodeElem_codeVal_int {fmt : Fmt} {c : Nat} (mode : Rnd) (hi : fmt.isInt = true) (hc : c < 2 ^ fmt.width)
    (hv : invalidCode fmt c = false) : (encodeElem (codeVal fmt c).1 fmt mode).1 = c := by
  cases fmt with
  | int8 =>
    have hne : c ≠ 128 := by simpa [invalidCode] using hv
    exact (encodeElem_ofInt mode rfl (natAbs_signedOf_le (by decide) hc hne)).trans (code_of_signedOf hc)
  | int4 =>
    have hne : c ≠ 8 := by simpa [invalidCode] using hv
    exact (encodeElem_ofInt mode rfl (natAbs_signedOf_le (by decide) hc hne)).trans (code_of_signedOf hc)
  | t2 =>
    change c < 4 at hc
    interval_cases c
    · rfl
    · exact encodeElem_ofInt (k := 1) mode rfl (by decide)
    · cases hv
    · exact encodeElem_ofInt (fmt := .t2) (k := -1) mode rfl (by decide)
  | l16 | h16 | e5m2 | e4m3 | e2m1 => cases hi

/-- A value that no rounding changes: zeros, infinities, NaN and the points of the format's grid (R53). -/
def Val.onGrid (fmt : Fmt) : Val → Bool
  | .fin num den => den != 0 && (gridQuot num.natAbs den (gridExp fmt num.natAbs den)).2.1 == 0
  | _ => true

theorem encodeElem_of_onGrid {x : Val} {fmt : Fmt} (mode : Rnd) (h : x.onGrid fmt = true) :
    encodeElem x fmt mode = encodeElem x fmt .rne := by
  cases x with
  | fin num den =>
    obtain ⟨hd, hr⟩ : den ≠ 0 ∧ (gridQuot num.natAbs den (gridExp fmt num.natAbs den)).2.1 = 0 := by simpa [Val.onGrid] using h
    have exact_round : ∀ m, roundMag fmt m num.natAbs den =
        ((gridQuot num.natAbs den (gridExp fmt num.natAbs den)).1, gridExp fmt num.natAbs den) := fun m => by
      rw [roundMag_eq, roundQuot_exact m hr (gridQuot_divisor_ne_zero _ _ hd)]
    simp only [encodeElem, exact_round]
  | nan | inf s | zero s => rfl

/-! ### E2M1 (R46) -/

theorem e2m1_codes_onGrid : ∀ c < 16, (codeVal .e2m1 c).1.onGrid .e2m1 = true ∧
    (encodeElem (codeVal .e2m1 c).1 .e2m1 .rne).1 = c := by
  decide +kernel

theorem encodeElem_codeVal_e2m1 {c : Nat} (mode : Rnd) (hc : c < 16) : (encodeElem (codeVal .e2m1 c).1 .e2m1 mode).1 = c := by
  obtain ⟨hg, hr⟩ := e2m1_codes_onGrid c hc
  rw [encodeElem_of_onGrid mode hg, hr]

theorem mkPow_finite (neg : Bool) (n : Nat) (e : Int) : (mkPow neg n e).nonFinite = false := by
  simp only [mkPow, mkVal]
  split_ifs <;> rfl

theorem decodeElem_e2m1_class (c : Nat) {sc : Val} (hsc : sc.isNaN = false) : (decodeElem .e2m1 c sc).2 = .none := by
  have hv : (codeVal .e2m1 c).1.nonFinite = false := mkPow_finite _ _ _
  have hs : (codeVal .e2m1 c).2 = false := rfl
  simp [decodeElem, invalidCode, hsc, hv, hs]

/-- Only the float formats flush (R45). -/
theorem encodeElem_ne_flushZero {fmt : Fmt} (hf : fmt.isFloat = false) (x : Val) (mode : Rnd) :
    (encodeElem x fmt mode).2 ≠ .flushZero := by
  cases x with
  | fin num den =>
    simp only [encodeElem, hf, Bool.false_and, Bool.false_eq_true, if_false]
    split_ifs <;> simp
  | nan | inf s | zero s => simp [encodeElem]

/-! ### The statements -/

/-- Settles O8: R46's table, and no E2M1 code is invalid or flushed. -/
theorem e2m1CodesAreAFixedSet : Obligations.E2m1CodesAreAFixedSet :=
  ⟨by decide +kernel, fun _ _ => rfl, fun c _ hsc => decodeElem_e2m1_class c hsc, encodeElem_ne_flushZero rfl,
    by decide +kernel⟩

/-- Settles O9: what encode writes is a code that is neither invalid nor subnormal, and a valid code decoded is encoded as itself. -/
theorem encodedAndValidCodesAgree : Obligations.EncodedAndValidCodesAgree := by
  refine ⟨fun x fmt m hx => written_encodeElem x fmt m hx, fun fmt c m hc hv hsub hnan => ?_⟩
  obtain hf | hi | rfl := fmt.isFloat_or_isInt_or_e2m1
  · exact encodeElem_codeVal_float m hf hc hsub hnan
  · exact encodeElem_codeVal_int m hi hc hv
  · exact encodeElem_codeVal_e2m1 m hc

end Sys2Proof.Machine

/-! # Row reductions (R111, R112)

A row of at most 256 elements has each in its own lane (`rowReduce_short`); the tree leaves pairs of start values alone
(`treeLevel_replicate`), and a maximum carries NaN from any lane to the top (`treeLevel_hmax_isNaN`). -/

namespace Sys2Proof.Machine

/-- A row of at most 256 elements puts each in its own lane. -/
theorem rowReduce_short (f : Val → Val → Val) (z : Val) {xs : List Val} (h : xs.length ≤ 256) :
    rowReduce f z xs = ((List.range 8).foldl (fun ls _ => treeLevel f ls)
      (xs.map (f z) ++ List.replicate (256 - xs.length) z)).headD z := by
  cases xs with
  | nil => rfl
  | cons x xs =>
    have one : chunks 256 (x :: xs) = [x :: xs] := by
      rw [chunks, List.length_cons, chunksAux, List.take_of_length_le h, List.drop_of_length_le h, chunksAux]
    have lanes : ((List.replicate 256 z).take (x :: xs).length).zipWith f (x :: xs) = (x :: xs).map (f z) := by
      rw [List.take_replicate, Nat.min_eq_left h]
      exact List.ext_getElem (by simp) fun i _ _ => by
        rw [List.getElem_zipWith, List.getElem_replicate, List.getElem_map]
    simp only [rowReduce, one, List.foldl_cons, List.foldl_nil, lanes, List.drop_replicate]

/-! ### Sums -/

section
variable {f : Val → Val → Val} {z : Val}

/-- A level over lanes that hold the start value. -/
theorem treeLevel_replicate (hz : f z z = z) : ∀ n, treeLevel f (List.replicate (2 * n) z) = List.replicate n z
  | 0 => rfl
  | n + 1 => by
    have ih := treeLevel_replicate hz n
    simp only [Nat.mul_succ, List.replicate_succ, treeLevel, hz, ih]

/-- The levels over one value with start values behind it: at each the value meets one start value. -/
theorem treeLevels_cons_replicate (hz : f z z = z) : ∀ (k : Nat) (x : Val),
    (List.range k).foldl (fun ls _ => treeLevel f ls) (x :: List.replicate (2 ^ k - 1) z) =
      [(List.range k).foldl (fun x _ => f x z) x]
  | 0, x => rfl
  | k + 1, x => by
    have hk : 2 ^ (k + 1) - 1 = 2 * (2 ^ k - 1) + 1 := by have := Nat.two_pow_pos k; omega
    have level : treeLevel f (x :: List.replicate (2 ^ (k + 1) - 1) z) = f x z :: List.replicate (2 ^ k - 1) z := by
      rw [hk, List.replicate_succ, treeLevel, treeLevel_replicate hz]
    have ih := treeLevels_cons_replicate hz k (f x z)
    simpa only [List.range_succ_eq_map, List.foldl_cons, List.foldl_map, level] using ih

end

theorem hadd_zero_zero : hadd (.zero false) (.zero false) = .zero false := rfl

/-- Two levels combine the four elements; at the other six their sum meets +0. -/
theorem rowSum_four (a b c d : Val) : rowSum [a, b, c, d] =
    (List.range 6).foldl (fun x _ => hadd x (.zero false))
      (hadd (hadd (hadd (.zero false) a) (hadd (.zero false) b)) (hadd (hadd (.zero false) c) (hadd (.zero false) d))) := by
  let z := Val.zero false
  let lanes := [a, b, c, d].map (hadd z) ++ List.replicate 252 z
  let sum := hadd (hadd (hadd z a) (hadd z b)) (hadd (hadd z c) (hadd z d))
  have rest : treeLevel hadd (treeLevel hadd (List.replicate 252 z)) = List.replicate 63 z := by
    rw [show 252 = 2 * (2 * 63) from rfl, treeLevel_replicate hadd_zero_zero, treeLevel_replicate hadd_zero_zero]
  have pairs : treeLevel hadd (treeLevel hadd lanes) = sum :: List.replicate (2 ^ 6 - 1) z := congrArg (sum :: ·) rest
  calc rowSum [a, b, c, d]
    _ = ((List.range 8).foldl (fun ls _ => treeLevel hadd ls) lanes).headD z :=
        rowReduce_short hadd z (xs := [a, b, c, d]) (show 4 ≤ 256 by decide)
    _ = ((List.range 6).foldl (fun ls _ => treeLevel hadd ls) (treeLevel hadd (treeLevel hadd lanes))).headD z := rfl
    _ = (List.range 6).foldl (fun x _ => hadd x z) sum := by
        rw [pairs, treeLevels_cons_replicate hadd_zero_zero, List.headD_cons]

/-! ### Maxima -/

theorem hmax_isNaN (a b : Val) : (hmax a b).isNaN = (a.isNaN || b.isNaN) := by
  unfold hmax
  cases ha : a.isNaN <;> cases hb : b.isNaN
  case false.false =>
    show (if a.lt b then b else a).isNaN = false
    split
    · exact hb
    · exact ha
  all_goals rfl

theorem hmax_nan {a b : Val} (h : a.isNaN = true ∨ b.isNaN = true) : hmax a b = .nan := if_pos (Bool.or_eq_true _ _ ▸ h)

theorem hmin_nan {a b : Val} (h : a.isNaN = true ∨ b.isNaN = true) : hmin a b = .nan := if_pos (Bool.or_eq_true _ _ ▸ h)

theorem length_treeLevel (f : Val → Val → Val) : ∀ xs : List Val, (treeLevel f xs).length = (xs.length + 1) / 2
  | [] => rfl
  | [_] => by simp [treeLevel]
  | a :: b :: xs => by
    have ih := length_treeLevel f xs
    simp only [treeLevel, List.length_cons, ih]
    omega

/-- NaN in a lane reaches the next level, and comes from nowhere else. -/
theorem treeLevel_hmax_isNaN : ∀ xs : List Val, (treeLevel hmax xs).any Val.isNaN = xs.any Val.isNaN
  | [] | [_] => rfl
  | a :: b :: xs => by
    have ih := treeLevel_hmax_isNaN xs
    simp only [treeLevel, List.any_cons, ih, hmax_isNaN, Bool.or_assoc]

/-- The levels over 2^k lanes: one value, which is NaN when a lane holds NaN. -/
theorem treeLevels_hmax_isNaN (z : Val) : ∀ (k : Nat) (xs : List Val), xs.length = 2 ^ k →
    (((List.range k).foldl (fun ls _ => treeLevel hmax ls) xs).headD z).isNaN = xs.any Val.isNaN
  | 0, xs, h => by
    obtain ⟨x, rfl⟩ := List.length_eq_one_iff.1 h
    simp
  | k + 1, xs, h => by
    have half : (treeLevel hmax xs).length = 2 ^ k := by rw [length_treeLevel, h]; omega
    have ih := treeLevels_hmax_isNaN z k _ half
    simpa only [List.range_succ_eq_map, List.foldl_cons, List.foldl_map, treeLevel_hmax_isNaN] using ih

theorem rowMax_isNaN {xs : List Val} (h : xs.length ≤ 256) (hn : xs.any Val.isNaN = true) : (rowMax xs).isNaN = true := by
  have lane : (xs.map (hmax (.inf true))).any Val.isNaN = true := by
    obtain ⟨x, hx, hxn⟩ := List.any_eq_true.1 hn
    exact List.any_eq_true.2 ⟨_, List.mem_map_of_mem hx, by rw [hmax_isNaN, hxn, Bool.or_true]⟩
  rw [rowMax, rowReduce_short _ _ h, treeLevels_hmax_isNaN _ 8 _ (by simp; omega), List.any_append, lane, Bool.true_or]

/-- Settles O36: the tree over a row of four, and NaN in maxima and minima. -/
theorem rowReductionsFollowTheTree : Obligations.RowReductionsFollowTheTree :=
  ⟨rowSum_four, fun _ _ h => ⟨hmax_nan h, hmin_nan h⟩, fun _ h hn => rowMax_isNaN h hn⟩

end Sys2Proof.Machine

/-! # A replay on a woodbox's ring

O34 lets a tile wait for its replay in a ring of any page, and takes what the replay stores from the state in which it is
counted already. The register at the counter's offset is GRT_REPLAY on a stove's page (R120), and WBX_ERR_PTR, the error log's
pointer, on a woodbox's (R339): there a corrected error that the tile meets is logged one byte on in the counted state. No rule
gives a woodbox such a command; the clause's hypotheses do not shut it out. -/

namespace Sys2Proof.Machine

/-- A computation that resumes a command ends as `fin` with nothing in its way, and what it leaves satisfies P. -/
def State.resumesTo (s : State) (r : RingId) (e : Entry) (a : Act Fin) (fin : Fin) (P : Run → Bool) : Bool :=
  match a.run { Run.init s.toWorld (agentOf r e) with cnt := e.counts, stamp := e.stamp } with
  | .ok (f, x) => f == fin && x.pois.isNone && !x.denied && !x.lost &&
      !((ringStove r).isSome && clash (s.toWorld.ringRun r).entries e.idx x.rd x.wr) &&
      ((x.w.ringRun r).entries.find? fun y => y.idx == e.idx).isSome && P x
  | .error _ => false

theorem State.resumes_of_resumesTo {s : State} {r : RingId} {e : Entry} {a : Act Fin} {fin : Fin} {P : Run → Bool}
    (h : s.resumesTo r e a fin P = true) : ∃ x, s.resumes r e a fin x ∧ P x = true := by
  unfold State.resumesTo at h
  split at h
  next f x run =>
    simp only [Bool.and_eq_true, Bool.not_eq_true', Option.isNone_iff_eq_none, beq_iff_eq] at h
    obtain ⟨⟨⟨⟨⟨⟨rfl, poison⟩, denied⟩, lost⟩, clear⟩, stands⟩, holds⟩ := h
    exact ⟨x, ⟨run, poison, denied, lost, clear, stands⟩, holds⟩
  next => cases h

/-- The byte at an address of the state that an outcome answers. -/
def nextByte (o : Host.Outcome State Fault Refusal) (a : Nat) : Option Byte :=
  match o with
  | .next t => some (t.byteAt a)
  | _ => none

namespace LoggedReplay

/-- A TILE_WS of extent 1 × 1 × 16, its tensor descriptors at 0x1100 and 0x1140. -/
def tileDesc : Desc := ⟨0x10, 0, 0x1100, 0x1140, 0, 0, 0, 0⟩

/-- It waits for its replay in ring 0 of woodbox 0. -/
def wbxRing : RingId := ⟨0x120, 0⟩
def tileEntry : Entry := { idx := 0, desc := tileDesc, phase := .replay }

/-- Its job, with L16 for every kind of tensor. -/
def tileJob : Job where
  num := 0
  seed := 0
  recipe := List.replicate 10 (0xF04000, 0)
  health := 0
  livetab := 0
  savetab := 0
  step := 0
  start := none
  step0 := 0
  running := false
  aborted := false
  stopX := none
  stopB := (0, 0)
  stopEnding := false
  lastTicks := []
  evaluated := []
  zeroWait := []

/-- Page tables that map 0 to HBM and 0x200000 to stove 0's scratchpad, and two tensors of 16 zeros in the scratchpad. -/
def tileWords : List (Nat × U64) :=
  [(0x200000, 0x400001), (0x400000, 0x7), (0x400008, 0x11000000007),
   (0x1100, 0x201000), (0x1110, 0x100000010), (0x1118, 0x10000000000),
   (0x1140, 0x2000000202000), (0x1150, 0x1000000001), (0x1158, 0x10000000000)]

/-- A running device with 640 channels, whose woodbox 0 logs corrected errors from 0x10000 on. The tile's first descriptor has
such an error. -/
def erring : State where
  pending := []
  mem := tileWords.foldl (fun m x => memApply m (.bytes x.1 (wordBytes x.2))) ⟨[], []⟩
  dev := { Dev.reset with
    regs := [(rk 0 0x080, 0x201), (rk 0x120 0x080, 0xA00280), (rk 0x120 0x098, 0x10059), (rk 0x120 0x800, 0x200001)]
    jobs := [tileJob]
    rings := [⟨wbxRing, 1, [tileEntry], none, 0, false, false⟩]
    upsets := [⟨0x1100, false, 0, false⟩] }
  sec := State.reset.sec

/-- The state in which the replay is counted already. -/
def counted : State := { erring with dev := (erring.toWorld.count (rk wbxRing.page 0x0A0) 31 0 1).dev }

/-- The byte of the record that holds its TYPE and the low bits of its stack (R339), where the log begins at the pointer 0. -/
def typeByte : Nat := 0x10004

/-- The row logs the error at the pointer 0. -/
theorem replay_logs_at_pointer : nextByte (exec (.fireguardReplay wbxRing) erring) typeByte = some 0x11 := by decide +kernel

/-- From the counted state the replay completes with OK, and the record begins at the pointer 1. -/
theorem counted_logs_past_pointer : ∃ x, counted.resumes wbxRing tileEntry (tileAttempt 1 tileEntry.desc) (.done stOk) x ∧
    (cellGet (memCommit erring.mem x.w.log).cells typeByte == 0) = true :=
  State.resumes_of_resumesTo (P := fun x => cellGet (memCommit erring.mem x.w.log).cells typeByte == 0) (by decide +kernel)

end LoggedReplay

/-- Refutes O34: its clause on replays does not ask that the ring be a stove's. A tile that waits for its replay in ring 0 of
woodbox 0 and meets a corrected error logs it at WBX_ERR_PTR; its computation from the counted state, where that pointer is one
more, logs the record one byte on, so memory is not what that computation stores. -/
theorem not_tilesAndTheirReplays : ¬ Obligations.TilesAndTheirReplays := by
  rintro ⟨-, ⟨-, replays⟩, -⟩
  obtain ⟨x, resumes, stored⟩ := LoggedReplay.counted_logs_past_pointer
  obtain ⟨t, next, -, mem, -, -⟩ := replays LoggedReplay.erring LoggedReplay.counted LoggedReplay.wbxRing LoggedReplay.tileEntry x
    (by decide +kernel) (by decide +kernel) (by decide +kernel) rfl resumes
  have logged : t.byteAt LoggedReplay.typeByte = 0x11 := by
    simpa [next, nextByte] using LoggedReplay.replay_logs_at_pointer
  rw [State.byteAt, mem, eq_of_beq stored] at logged
  exact absurd logged (by decide)

end Sys2Proof.Machine

/-! # Accesses to plain lines (R34 to R39)

While no memory error waits, a translation and an access to a plain line of HBM change caches and jobs alone (`World.Alike`), so
what they answer can be read off the world before them: `xlateA_found`, `readP_plain`, `writeV_plain`. -/

namespace Sys2Proof.Machine

/-! ### Worlds that agree but for caches and jobs -/

/-- `b` differs from `a` in what reads and translations may change alone: the SLM slices' caches, the kept translations, the free
choices and the jobs. -/
def World.Alike (a b : World) : Prop :=
  ∃ slm xlt free jobs, b = { a with dev := { a.dev with slm := slm, xlt := xlt, free := free, jobs := jobs } }

theorem World.Alike.refl (w : World) : w.Alike w := ⟨_, _, _, _, rfl⟩

theorem World.Alike.trans {a b c : World} : a.Alike b → b.Alike c → a.Alike c := by
  rintro ⟨_, _, _, _, rfl⟩ ⟨_, _, _, _, rfl⟩
  exact ⟨_, _, _, _, rfl⟩

theorem World.Alike.log {a b : World} : a.Alike b → b.log = a.log := by rintro ⟨_, _, _, _, rfl⟩; rfl
theorem World.Alike.rings {a b : World} : a.Alike b → b.dev.rings = a.dev.rings := by rintro ⟨_, _, _, _, rfl⟩; rfl
theorem World.Alike.gtime {a b : World} : a.Alike b → b.dev.gtime = a.dev.gtime := by rintro ⟨_, _, _, _, rfl⟩; rfl
theorem World.Alike.upsets {a b : World} : a.Alike b → b.dev.upsets = a.dev.upsets := by rintro ⟨_, _, _, _, rfl⟩; rfl
theorem World.Alike.bytes {a b : World} : a.Alike b → b.bytes = a.bytes := by rintro ⟨_, _, _, _, rfl⟩; rfl
theorem World.Alike.poisoned {a b : World} : a.Alike b → b.poisoned = a.poisoned := by rintro ⟨_, _, _, _, rfl⟩; rfl

/-- What `State.plain` asks of a range, condition by condition. -/
structure World.Plain (w : World) (node a n : Nat) : Prop where
  line : a / 128 = (a + n - 1) / 128
  hbm : w.place a = .hbm
  linked : w.linkCut node a = false
  unheld : w.dirOf (lineOf a) = none
  idle : w.lineBusy (lineOf a) = false
  uncut : w.snapHolds a = none
  sound : w.dev.upsets = []

theorem State.plain_iff {s : State} {node a n : Nat} : s.plain node a n = true ↔ s.toWorld.Plain node a n := by
  simp only [State.plain, Bool.and_eq_true, decide_eq_true_eq, beq_iff_eq, Bool.not_eq_true', Option.isNone_iff_eq_none,
    List.isEmpty_iff]
  exact ⟨fun ⟨⟨⟨⟨⟨⟨h1, h2⟩, h3⟩, h4⟩, h5⟩, h6⟩, h7⟩ => ⟨h1, h2, h3, h4, h5, h6, h7⟩,
    fun ⟨h1, h2, h3, h4, h5, h6, h7⟩ => ⟨⟨⟨⟨⟨⟨h1, h2⟩, h3⟩, h4⟩, h5⟩, h6⟩, h7⟩⟩

theorem World.Plain.alike {a b : World} {node x n : Nat} (h : a.Plain node x n) : a.Alike b → b.Plain node x n := by
  rintro ⟨_, _, _, _, rfl⟩
  exact ⟨h.line, h.hbm, h.linked, h.unheld, h.idle, h.uncut, h.sound⟩

theorem World.meet_sound {w : World} (h : w.dev.upsets = []) (ag : Agent) (a n : Nat) : w.meet ag a n = w := by
  simp [World.meet, h]

theorem World.touch_sound {w : World} (h : w.dev.upsets = []) (a n : Nat) (write : Bool) :
    ∃ slm, w.touch a n write = w.upd fun d => { d with slm := slm } := by
  exact ⟨_, by simp [World.touch, World.pruneUpsets, h]; rfl⟩

theorem World.alike_touch {w : World} (h : w.dev.upsets = []) (a n : Nat) (write : Bool) : w.Alike (w.touch a n write) := by
  obtain ⟨slm, e⟩ := World.touch_sound h a n write
  exact ⟨slm, _, _, _, e⟩

theorem World.walkReads_sound {w : World} (h : w.dev.upsets = []) (ag : Agent) (job vpn : Nat) :
    ∃ slm, w.walkReads ag job vpn = w.upd fun d => { d with slm := slm } := by
  unfold World.walkReads
  dsimp only
  split
  · exact ⟨_, rfl⟩
  · rw [World.meet_sound h]
    obtain ⟨slm, e⟩ := World.touch_sound h (fld (w.root job) 47 21 * 0x200000 + 8 * (vpn / 512)) 8 false
    have h1 : (w.upd fun d => { d with slm := slm }).dev.upsets = [] := h
    rw [e]
    split
    · rw [World.meet_sound h1]
      obtain ⟨slm', e'⟩ := World.touch_sound h1 (bits ((w.upd fun d => { d with slm := slm }).word
        (fld (w.root job) 47 21 * 0x200000 + 8 * (vpn / 512))).toNat 47 12 * 4096 + 8 * (vpn % 512)) 8 false
      exact ⟨slm', e'⟩
    · exact ⟨slm, rfl⟩

theorem World.walk_congr {a b : World} (backed : b.backed = a.backed) (entry : b.tabEntry = a.tabEntry) (root : b.root = a.root) :
    b.walk = a.walk := by
  have inHbm : b.inHbm = a.inHbm := by
    funext x n
    rw [World.inHbm, World.inHbm, backed]
  funext node job vpn
  unfold World.walk
  rw [inHbm, entry, root]

/-- What an access finds in the tables and in the caches of translations (R35 to R37, R39). -/
def World.entryFound (w : World) (ag : Agent) (job vpn : Nat) : Xres :=
  match w.cachedXlt job vpn with
  | some c => if w.walk ag.node job vpn ≠ .ok c.entry.toNat ∧ Config.staleXlt w.dev.free = true then .ok c.entry.toNat
      else w.walk ag.node job vpn
  | none => w.walk ag.node job vpn

/-- The translation that the tables and the caches give, before anything is drawn or kept. -/
def World.xlateFound (w : World) (ag : Agent) (job va : Nat) (write : Bool) : Xres :=
  match w.entryFound ag job (bits va 47 21) with
  | .ok e => if (if write then e.testBit 2 else e.testBit 1) then .ok (bits e 47 21 * 0x200000 + va % 0x200000) else .fault
  | r => r

/-- A valid translation found is kept in the caches. -/
def World.keepXlt (w : World) (job vpn : Nat) : Xres → World
  | .ok e => w.cacheXlt job vpn e
  | _ => w

theorem World.alike_upd_slm (w : World) (slm : List SlmCache) : w.Alike (w.upd fun d => { d with slm := slm }) :=
  ⟨slm, _, _, _, rfl⟩
theorem World.alike_draw (w : World) : w.Alike w.draw.2 := ⟨_, _, _, _, rfl⟩
theorem World.alike_keepXlt (w : World) (job vpn : Nat) (r : Xres) : w.Alike (w.keepXlt job vpn r) := by
  cases r <;> exact ⟨_, _, _, _, rfl⟩

/-- The lookup in four steps: table reads, the walk, the cached entry's word, and what the cache keeps. -/
theorem World.entryFor_eq (w : World) (ag : Agent) (job vpn : Nat) : w.entryFor ag job vpn =
    let w := if (w.cachedXlt job vpn).isSome then w else w.walkReads ag job vpn
    let r := w.walk ag.node job vpn
    match w.cachedXlt job vpn with
    | some c =>
      if r = .ok c.entry.toNat then (r, w)
      else if Config.staleXlt w.dev.free then (.ok c.entry.toNat, w.draw.2) else (r, w.draw.2.keepXlt job vpn r)
    | none => (r, w.keepXlt job vpn r) := by
  unfold World.entryFor
  dsimp only
  generalize (if (w.cachedXlt job vpn).isSome then w else w.walkReads ag job vpn) = u
  cases u.cachedXlt job vpn with
  | none => cases u.walk ag.node job vpn <;> rfl
  | some c =>
    cases u.walk ag.node job vpn <;> rfl

theorem World.entryFor_sound {w : World} (h : w.dev.upsets = []) (ag : Agent) (job vpn : Nat) :
    (w.entryFor ag job vpn).1 = w.entryFound ag job vpn ∧ w.Alike (w.entryFor ag job vpn).2 := by
  have reads : ∃ slm, (if (w.cachedXlt job vpn).isSome then w else w.walkReads ag job vpn) =
      w.upd fun d => { d with slm := slm } := by
    split
    · exact ⟨w.dev.slm, rfl⟩
    · exact World.walkReads_sound h ag job vpn
  obtain ⟨slm, e⟩ := reads
  have alike := w.alike_upd_slm slm
  have walk : (w.upd fun d => { d with slm := slm }).walk = w.walk := World.walk_congr rfl rfl rfl
  have cached : (w.upd fun d => { d with slm := slm }).cachedXlt = w.cachedXlt := rfl
  have free : (w.upd fun d => { d with slm := slm }).dev.free = w.dev.free := rfl
  have drawn := alike.trans (World.alike_draw _)
  rw [World.entryFor_eq, World.entryFound, e]
  simp only [walk, cached, free]
  generalize w.upd (fun d => { d with slm := slm }) = u at *
  cases w.cachedXlt job vpn with
  | none => exact ⟨rfl, alike.trans (u.alike_keepXlt _ _ _)⟩
  | some c =>
    by_cases fresh : w.walk ag.node job vpn = .ok c.entry.toNat
    · simp [fresh, alike]
    · by_cases stale : Config.staleXlt w.dev.free = true
      · simp [fresh, stale, drawn]
      · simp [fresh, stale, drawn.trans (u.draw.2.alike_keepXlt _ _ _)]

/-- With no memory error waiting, a translation answers what is found and stores nothing. -/
theorem World.xlate_sound {w : World} (h : w.dev.upsets = []) (ag : Agent) (job va : Nat) (write : Bool) :
    (w.xlate ag job va write).1 = w.xlateFound ag job va write ∧ w.Alike (w.xlate ag job va write).2 := by
  obtain ⟨found, alike⟩ := World.entryFor_sound h ag job (bits va 47 21)
  unfold World.xlate World.xlateFound
  rw [← found]
  generalize w.entryFor ag job (bits va 47 21) = p at alike
  obtain ⟨r, u⟩ := p
  cases r with
  | ok e =>
    dsimp only
    generalize (if write then e.testBit 2 else e.testBit 1) = admitted
    cases admitted <;> exact ⟨rfl, alike⟩
  | _ => exact ⟨rfl, alike⟩

theorem World.xlateFound_reopenStep (w : World) (j k : Nat) : (w.reopenStep j k).xlateFound = w.xlateFound := by
  have walk : (w.reopenStep j k).walk = w.walk := by
    unfold World.reopenStep
    split
    · exact World.walk_congr rfl rfl rfl
    · rfl
  have cached : (w.reopenStep j k).cachedXlt = w.cachedXlt := by unfold World.reopenStep; split <;> rfl
  have free : (w.reopenStep j k).dev.free = w.dev.free := by unfold World.reopenStep; split <;> rfl
  funext ag job va write
  simp only [World.xlateFound, World.entryFound, walk, cached, free]

theorem World.alike_reopenStep (w : World) (j k : Nat) : w.Alike (w.reopenStep j k) := by
  unfold World.reopenStep
  split
  · exact ⟨_, _, _, _, rfl⟩
  · exact World.Alike.refl w

/-! ### Running a computation step by step -/

section
variable {α β : Type}

@[simp] theorem Act.run_get (r : Run) : (get : Act Run).run r = .ok (r, r) := rfl
@[simp] theorem run_actW (f : World → World) (r : Run) : (actW f).run r = .ok ((), { r with w := f r.w }) := rfl
@[simp] theorem run_actRun (f : World → α × World) (r : Run) : (actRun f).run r = .ok ((f r.w).1, { r with w := (f r.w).2 }) := rfl
@[simp] theorem Act.pure_eq_ok (x : α) : (pure x : Except Stop α) = .ok x := rfl
@[simp] theorem Act.ok_bind (x : α) (f : α → Except Stop β) : (Except.ok x >>= f) = f x := rfl
end

theorem readLine_plain {r : Run} {a n : Nat} (h : r.w.Plain r.ag.node a n) (clean : r.w.poisoned (lineOf a) = false) :
    ∃ w, r.w.Alike w ∧ (readLine a n).run r = .ok ((r.w.bytes a n, []), { r with w := w }) := by
  refine ⟨r.w.touch a n false, World.alike_touch h.sound _ _ _, ?_⟩
  have touched := (World.alike_touch h.sound a n false).poisoned
  simp [readLine, h.linked, h.hbm, h.idle, h.unheld, World.meet_sound h.sound, touched, clean]

theorem lines_within {a n : Nat} (hn : 0 < n) (h : a / 128 = (a + n - 1) / 128) : lines a n = [lineOf a] := by
  simp [lines, lineOf, upTo, ← h, hn.ne', List.range_succ]

/-- A plain clean line answers its bytes with no poison. -/
theorem readP_plain {r : Run} {a n : Nat} (hn : 0 < n) (h : r.w.Plain r.ag.node a n) (clean : r.w.poisoned (lineOf a) = false) :
    ∃ w, r.w.Alike w ∧ (readP a n).run r = .ok ((r.w.bytes a n, []), { r with w := w }) := by
  obtain ⟨w, alike, run⟩ := readLine_plain h clean
  have line := h.line
  have lo : max a (lineOf a) = a := by unfold lineOf; omega
  have hi : min (a + n) (lineOf a + 128) - a = n := by unfold lineOf; omega
  exact ⟨w, alike, by simp [readP, lines_within hn line, lo, hi, run]⟩

theorem xlateA_found {r : Run} {va pa : Nat} {write : Bool} (sound : r.w.dev.upsets = [])
    (h : r.w.xlateFound r.ag (r.ag.job.getD 0) va write = .ok pa) :
    ∃ w, r.w.Alike w ∧ (xlateA va write).run r = .ok (pa, { r with w := w }) := by
  obtain ⟨found, alike⟩ := World.xlate_sound sound r.ag (r.ag.job.getD 0) va write
  exact ⟨_, alike, by simp [xlateA, found.trans h]⟩

theorem xlateRange_page {va n : Nat} (hn : 0 < n) (h : va % 0x200000 + n ≤ 0x200000) (write : Bool) :
    xlateRange va n write = (do return [(← xlateA va write, n)]) := by
  have one : (va + n - 1) / 0x200000 - va / 0x200000 + 1 = 1 := by omega
  have lo : max va (va / 0x200000 * 0x200000) = va := by omega
  have hi : min (va + n) ((va / 0x200000 + 1) * 0x200000) - va = n := by omega
  simp [xlateRange, hn.ne', one, upTo, List.range_succ, lo, hi]

theorem linePieces_within {a : Nat} {bs : List Byte} (h : a / 128 = (a + bs.length - 1) / 128) :
    linePieces a bs = [(a, bs)] := by
  have : bs.length ≤ 128 - a % 128 := by omega
  simp [linePieces, this]

theorem writeLineA_plain {r : Run} {a : Nat} {bs : List Byte} (h : r.w.Plain r.ag.node a bs.length) :
    (writeLineA a bs).run r = .ok ((), { r with w := r.w.storeLine r.ag a bs }) := by
  simp [writeLineA, h.linked, h.hbm, World.meet_sound h.sound]

theorem World.noteTrigger_spec (w : World) (a n : Nat) (trig : List Nat) (me : Nat × Bool × Nat) :
    ∃ ready, w.noteTrigger a n trig me = w.upd fun d => { d with stk := { d.stk with ready := ready } } := by
  unfold World.noteTrigger
  split
  · exact ⟨_, rfl⟩
  split
  · exact ⟨_, rfl⟩
  split <;> exact ⟨_, rfl⟩

/-- A store changes of the stokers' arms which triggers are complete (R283). -/
theorem World.noteTriggers_spec (w : World) (a n : Nat) :
    ∃ ready, w.noteTriggers a n = w.upd fun d => { d with stk := { d.stk with ready := ready } } := by
  unfold World.noteTriggers
  split
  · exact ⟨_, rfl⟩
  refine List.foldlRecOn (motive := fun v : World => ∃ ready, v = w.upd fun d => { d with stk := { d.stk with ready := ready } })
    _ _ ⟨_, rfl⟩ fun v hv i _ => ?_
  have note : ∀ (v : World) (trig : List Nat) (me : Nat × Bool × Nat),
      (∃ ready, v = w.upd fun d => { d with stk := { d.stk with ready := ready } }) →
      ∃ ready, v.noteTrigger a n trig me = w.upd fun d => { d with stk := { d.stk with ready := ready } } := by
    rintro v trig me ⟨ready, rfl⟩
    obtain ⟨ready', e⟩ := World.noteTrigger_spec (w.upd fun d => { d with stk := { d.stk with ready := ready } }) a n trig me
    exact ⟨ready', e⟩
  dsimp only
  split <;> split <;> simp only [note, hv]

/-- A write that covers no whole granule of HBM only puts its bytes. -/
theorem World.put_part {w : World} {a : Nat} {bs : List Byte} (sound : w.dev.upsets = []) (hbm : a < hbmEnd) (part : bs.length < 128) :
    (w.put a bs).log = .bytes a bs :: w.log ∧ (w.put a bs).dev.rings = w.dev.rings := by
  have uncovered : ∀ g, ¬ (a ≤ g ∧ g + granSize g ≤ a + bs.length ∧ w.poisoned g = true) := by
    rintro g ⟨h1, h2, -⟩
    unfold granSize spBase spEnd at h2
    unfold hbmEnd at hbm
    split at h2 <;> omega
  have fixed : (granules a bs.length).foldl (fun w' g =>
      if a ≤ g ∧ g + granSize g ≤ a + bs.length ∧ w.poisoned g then w'.push (.cleanse g) else w') (w.push (.bytes a bs)) =
      w.push (.bytes a bs) := List.foldl_fixed' (fun g => if_neg (uncovered g)) _
  obtain ⟨ready, e⟩ := (w.push (.bytes a bs)).noteTriggers_spec a bs.length
  simp [World.put, sound, fixed, e]

theorem World.place_hbm_lt {w : World} {a : Nat} (h : w.place a = .hbm) : a < hbmEnd := by
  by_contra hn
  simp only [World.place, if_neg hn] at h
  split_ifs at h

theorem World.storeLine_plain {w : World} {ag : Agent} {a : Nat} {bs : List Byte} (h : w.Plain ag.node a bs.length)
    (part : bs.length < 128) :
    (w.storeLine ag a bs).log = .bytes a bs :: w.log ∧ (w.storeLine ag a bs).dev.rings = w.dev.rings := by
  have alike := World.alike_touch h.sound a bs.length true
  have h' := h.alike alike
  obtain ⟨log, rings⟩ := World.put_part h'.sound (World.place_hbm_lt h'.hbm) part
  have whole : w.storeLine ag a bs = (w.touch a bs.length true).put a bs := by
    simp [World.storeLine, World.storeLineBy, h.linked, h.hbm, World.lineHeld, h'.unheld, h'.idle, World.snapBefore, h'.uncut]
  rw [whole, log, rings, alike.log, alike.rings]
  exact ⟨rfl, rfl⟩

theorem writeP_plain {r : Run} {a : Nat} {bs : List Byte} (h : r.w.Plain r.ag.node a bs.length) :
    (writeP a bs).run r = .ok ((), { r with w := r.w.storeLine r.ag a bs }) := by
  simp [writeP, linePieces_within h.line, writeLineA_plain h]

/-- A write of less than a line within one page, where a plain line backs it, stores its bytes and nothing else. -/
theorem writeV_plain {r : Run} {va pa : Nat} {bs : List Byte} (hn : 0 < bs.length) (part : bs.length < 128)
    (page : va % 0x200000 + bs.length ≤ 0x200000) (found : r.w.xlateFound r.ag (r.ag.job.getD 0) va true = .ok pa)
    (h : r.w.Plain r.ag.node pa bs.length) :
    ∃ w, (writeV va bs).run r = .ok ((), { r with w := w }) ∧ w.log = .bytes pa bs :: r.w.log ∧ w.dev.rings = r.w.dev.rings := by
  obtain ⟨u, alike, xlate⟩ := xlateA_found h.sound found
  obtain ⟨log, rings⟩ := World.storeLine_plain (h.alike alike) part
  have write := writeP_plain (r := { r with w := u }) (h.alike alike)
  refine ⟨u.storeLine r.ag pa bs, ?_, by rw [log, alike.log], by rw [rings, alike.rings]⟩
  simp [writeV, xlateRange_page hn page, xlate, write]

end Sys2Proof.Machine

/-! # NOP, WRITE_LINE and WAIT_LINE (R133)

The end of a command stores nothing and settles its own entry (`World.sameRing_finish`), whatever live masks it reads on the way.
So a row is known once its computation is: `State.runCmd_done` and `State.runCmd_waits`. -/

namespace Sys2Proof.Machine

/-! ### The ends of commands, whoever holds their live masks -/

/-- `b` differs from `a` by requests to hosts alone: the ports' state, the registers that count, and what has been sent. -/
def World.OnlyAsks (a b : World) : Prop :=
  { b.dev with regs := a.dev.regs, urk := a.dev.urk, out := a.dev.out } = a.dev ∧ b.mem = a.mem ∧ b.log = a.log

theorem World.OnlyAsks.refl (w : World) : w.OnlyAsks w := ⟨rfl, rfl, rfl⟩

theorem World.OnlyAsks.trans {a b c : World} (h : a.OnlyAsks b) (k : b.OnlyAsks c) : a.OnlyAsks c := by
  obtain ⟨h1, h2, h3⟩ := h
  obtain ⟨k1, k2, k3⟩ := k
  refine ⟨?_, k2.trans h2, k3.trans h3⟩
  rw [← h1]
  exact congrArg (fun d : Dev => { d with regs := a.dev.regs, urk := a.dev.urk, out := a.dev.out }) k1

theorem World.onlyAsks_count (w : World) (k hi lo n : Nat) : w.OnlyAsks (w.count k hi lo n) := ⟨rfl, rfl, rfl⟩

theorem World.onlyAsks_noteFrame (w : World) (page n : Nat) : w.OnlyAsks (w.noteFrame page n) := by
  unfold World.noteFrame
  split
  · exact World.OnlyAsks.refl w
  · exact ⟨rfl, rfl, rfl⟩

theorem World.onlyAsks_urk (w : World) (u : Dev → Urk) : w.OnlyAsks (w.upd fun d => { d with urk := u d }) := ⟨rfl, rfl, rfl⟩
theorem World.onlyAsks_out (w : World) (u : Dev → List OutMsg) : w.OnlyAsks (w.upd fun d => { d with out := u d }) :=
  ⟨rfl, rfl, rfl⟩

theorem World.onlyAsks_sendUrk (w : World) (op : Nat) (m : UrkPkt) : w.OnlyAsks (w.sendUrk op m) := by
  refine World.OnlyAsks.trans ?_ (World.onlyAsks_out _ _)
  exact (w.onlyAsks_count _ _ _ _).trans (World.onlyAsks_noteFrame _ _ _)

theorem World.onlyAsks_snoop1 (w : World) (line : Nat) (share : Bool) (p : Nat) : w.OnlyAsks (w.snoop1 line share p) := by
  unfold World.snoop1
  split
  · exact World.OnlyAsks.refl w
  · refine World.OnlyAsks.trans ?_ (World.onlyAsks_urk _ _)
    exact (w.onlyAsks_count _ _ _ _).trans (World.onlyAsks_sendUrk _ _ _)

theorem World.onlyAsks_snoop (w : World) (line : Nat) (share : Bool) (keep : Option Nat) : w.OnlyAsks (w.snoop line share keep) := by
  unfold World.snoop
  split
  · exact World.OnlyAsks.refl w
  split
  · exact World.OnlyAsks.refl w
  · exact List.foldlRecOn _ _ (World.OnlyAsks.refl w) fun v hv p _ => hv.trans (v.onlyAsks_snoop1 _ _ _)

/-- `b` has the stores, the time and ring r's commands of `a`. -/
structure World.SameRing (r : RingId) (a b : World) : Prop where
  log : b.log = a.log
  gtime : b.dev.gtime = a.dev.gtime
  entries : (b.ringRun r).entries = (a.ringRun r).entries

theorem World.SameRing.refl (r : RingId) (w : World) : World.SameRing r w w := ⟨rfl, rfl, rfl⟩

theorem World.SameRing.trans {r : RingId} {a b c : World} (h : World.SameRing r a b) (k : World.SameRing r b c) :
    World.SameRing r a c :=
  ⟨k.log.trans h.log, k.gtime.trans h.gtime, k.entries.trans h.entries⟩

theorem World.OnlyAsks.sameRing {a b : World} (h : a.OnlyAsks b) (r : RingId) : World.SameRing r a b := by
  obtain ⟨dev, -, log⟩ := h
  have rings : b.dev.rings = a.dev.rings := by rw [← dev]
  exact ⟨log, by rw [← dev], by simp only [World.ringRun, rings]⟩

theorem World.sameRing_setRf (w : World) (r : RingId) (k hi lo v : Nat) : World.SameRing r w (w.setRf k hi lo v) := ⟨rfl, rfl, rfl⟩

theorem World.modRing_gtime (w : World) (r : RingId) (f : RingRun → RingRun) : (w.modRing r f).dev.gtime = w.dev.gtime := by
  simp only [World.modRing, World.upd_dev]
  split <;> rfl

/-- A change of a ring that keeps its commands. -/
theorem World.sameRing_modRing (w : World) (r : RingId) (f : RingRun → RingRun) (hf : ∀ x, (f x).ring = x.ring := by intro; rfl)
    (he : ∀ x, (f x).entries = x.entries := by intro; rfl) : World.SameRing r w (w.modRing r f) :=
  ⟨rfl, w.modRing_gtime r f, w.entries_modRing r f hf he⟩

theorem World.sameRing_settleSlots (w : World) (r : RingId) (k : Nat) : World.SameRing r w (w.settleSlots k) := by
  unfold World.settleSlots
  split
  · exact World.SameRing.refl r w
  · exact ⟨rfl, rfl, rfl⟩

theorem World.sameRing_readMask (w : World) (r : RingId) : World.SameRing r w (w.readMask r) := by
  unfold World.readMask
  split
  · exact w.sameRing_modRing r _
  split
  · exact ((w.onlyAsks_snoop _ _ _).sameRing r).trans (World.sameRing_modRing _ r _)
  · exact (w.sameRing_modRing r _).trans (World.sameRing_setRf _ r _ _ _ _)

/-- A command as its end leaves it. -/
def Entry.ended (e : Entry) (status : Nat) (cnt : Counts) (evseq now : Nat) : Entry :=
  { e with phase := .done, status := status, counts := cnt, evseq := evseq, tEnd := now, reads := 0, writes := 0 }

/-- The end of a command changes of its ring's commands this one alone, and stores nothing. -/
theorem World.sameRing_finish (w : World) (r : RingId) (i st : Nat) (cnt : Counts) (ev : Nat) :
    World.SameRing r (w.modEntry r i fun e => e.ended st cnt ev w.dev.gtime) (w.finish r i st cnt ev) := by
  unfold World.finish
  extract_lets v
  change World.SameRing r v _
  split
  next k e _ _ =>
    extract_lets cheap
    have settled := v.sameRing_settleSlots r k
    generalize v.settleSlots k = u at settled ⊢
    refine World.SameRing.trans ?_ (World.sameRing_readMask _ r)
    refine World.SameRing.trans ?_ (World.sameRing_setRf _ r _ _ _ _)
    exact settled.trans (u.sameRing_modRing r _)
  next => exact World.SameRing.refl r v

/-- Of a ring the first command with this count stands completed with a status. -/
def World.DoneIn (w : World) (r : RingId) (i st : Nat) : Prop :=
  ∃ e, (w.ringRun r).entries.find? (fun e => e.idx == i) = some e ∧ e.phase = .done ∧ e.status = st

theorem World.finish_done {w : World} {r : RingId} {i : Nat} (st : Nat) (cnt : Counts) (ev : Nat)
    (h : ((w.ringRun r).entries.find? fun e => e.idx == i).isSome = true) :
    (w.finish r i st cnt ev).log = w.log ∧ (w.finish r i st cnt ev).dev.gtime = w.dev.gtime ∧ (w.finish r i st cnt ev).DoneIn r i st := by
  obtain ⟨e, found⟩ := Option.isSome_iff_exists.1 h
  obtain ⟨log, gtime, entries⟩ := w.sameRing_finish r i st cnt ev
  refine ⟨log, gtime.trans (w.modRing_gtime r _), e.ended st cnt ev w.dev.gtime, ?_, rfl, rfl⟩
  rw [entries, w.find_modEntry r i _ (by intro; rfl), found]
  rfl

theorem World.endCmd_done {w : World} {r : RingId} {i : Nat} (st ev : Nat)
    (h : ((w.ringRun r).entries.find? fun e => e.idx == i).isSome = true) :
    (w.endCmd r i st ev).log = w.log ∧ (w.endCmd r i st ev).dev.gtime = w.dev.gtime ∧ (w.endCmd r i st ev).DoneIn r i st := by
  obtain ⟨e, found⟩ := Option.isSome_iff_exists.1 h
  simp only [World.endCmd, found]
  exact World.finish_done st e.counts ev h

theorem clash_nothing (es : List Entry) (i : Nat) : clash es i 0 0 = false := by
  simp [clash]

/-- Where a command's computation begins: its own ring, job and counters. -/
def Entry.begin (e : Entry) (w : World) (r : RingId) : Run := { Run.init w (agentOf r e) with cnt := e.counts, stamp := e.stamp }

/-- A computation that ends with OK and changes the world alone: the command stands done. -/
theorem World.runBody_ends {w v : World} {r : RingId} {e : Entry} {a : Act Fin}
    (run : a.run (e.begin w r) = .ok (.done stOk, { e.begin w r with w := v }))
    (stands : ((v.ringRun r).entries.find? fun y => y.idx == e.idx).isSome = true) :
    (w.runBody r e e.counts a).log = v.log ∧ (w.runBody r e e.counts a).DoneIn r e.idx stOk := by
  let x : Run := { e.begin w r with w := v }
  obtain ⟨q, hq⟩ := Option.isSome_iff_exists.1 stands
  have closes : (closed a).run (e.begin w r) = .ok ((.done stOk, stOk), x) := by
    have := closing_ok x rfl rfl rfl
    simp [closed, run, x] at this ⊢
    rw [this]; rfl
  have clear : ((ringStove r).isSome && clash (w.ringRun r).entries e.idx x.rd x.wr) = false := by
    rw [show x.rd = 0 from rfl, show x.wr = 0 from rfl, clash_nothing, Bool.and_false]
  unfold World.runBody
  unfold Entry.begin at closes
  dsimp only at closes ⊢
  rw [closes]
  simp only [clear, Bool.false_eq_true, if_false]
  obtain ⟨w2, q2, started, same, found, -⟩ := World.started_spec x r e q hq
  dsimp only at started
  rw [started]
  obtain ⟨log, -, done⟩ := World.finish_done stOk x.cnt x.evseq (w := w2) (r := r) (i := e.idx) (by rw [found]; rfl)
  exact ⟨log.trans same.2.2, done⟩

theorem World.find_idx_of_find {w : World} {r : RingId} {p : Entry → Bool} {e : Entry}
    (h : (w.ringRun r).entries.find? p = some e) : ((w.ringRun r).entries.find? fun y => y.idx == e.idx).isSome = true :=
  List.find?_isSome.2 ⟨e, List.mem_of_find?_eq_some h, beq_self_eq_true _⟩

theorem World.ringRun_of_rings {a b : World} (h : b.dev.rings = a.dev.rings) (r : RingId) : b.ringRun r = a.ringRun r := by
  simp only [World.ringRun, h]

theorem State.starts_find {s : State} {c : Cmd} {e : Entry} (h : s.starts c e = true) :
    (s.toWorld.ringRun c.ring).entries.find? Entry.unstarted = some e ∧ e.desc = c.desc := by
  simp only [State.starts, Bool.and_eq_true, beq_iff_eq] at h
  obtain ⟨⟨⟨⟨-, found⟩, desc⟩, -⟩, -⟩ := h
  exact ⟨found, desc⟩

section
variable {s : State} {c : Cmd} {e : Entry} {body : Desc → Act Fin} {v : World}

/-- The world in which a command's computation begins. -/
def State.begun (s : State) (c : Cmd) : World := s.toWorld.reopenStep (jobOf c.desc) (stepOf c.desc)

theorem State.begun_stands (h : s.starts c e = true) (rings : v.dev.rings = (s.begun c).dev.rings) :
    ((v.ringRun c.ring).entries.find? fun y => y.idx == e.idx).isSome = true := by
  rw [World.ringRun_of_rings (rings.trans (s.toWorld.reopenStep_spec _ _).2.2)]
  exact World.find_idx_of_find (s.starts_find h).1

/-- A command's row whose computation ends with OK: the command stands done, and memory has what the computation logs. -/
theorem State.runCmd_done (h : s.starts c e = true) (is : Desc → Bool) (hi : is c.desc = true)
    (run : (body c.desc).run (e.begin (s.begun c) c.ring) = .ok (.done stOk, { e.begin (s.begun c) c.ring with w := v }))
    (rings : v.dev.rings = (s.begun c).dev.rings) :
    ∃ t, (s.run fun w => w.runCmd c is body) = .next t ∧ t.doneIn c.ring e.idx stOk ∧ t.mem = memCommit s.mem v.log ∧
      t.pending = s.pending ∧ t.sec = s.sec := by
  obtain ⟨-, runs⟩ := World.runCmd_starts h is hi body
  obtain ⟨log, done⟩ := World.runBody_ends run (State.begun_stands h rings)
  refine ⟨_, State.run_live (State.starts_live h) _, ?_, ?_, rfl, rfl⟩
  · rw [runs]; exact done
  · rw [State.commit_mem, runs]; exact congrArg _ log

/-- A command's row whose computation waits: the command stands in the phase it waits in. -/
theorem State.runCmd_waits (h : s.starts c e = true) (is : Desc → Bool) (hi : is c.desc = true) {p : Phase}
    (run : (body c.desc).run (e.begin (s.begun c) c.ring) = .ok (.wait p, { e.begin (s.begun c) c.ring with w := v }))
    (rings : v.dev.rings = (s.begun c).dev.rings) :
    ∃ t, (s.run fun w => w.runCmd c is body) = .next t ∧ (∃ x, t.entry c.ring e.idx = some x ∧ x.phase = p) ∧
      t.mem = memCommit s.mem v.log ∧ t.pending = s.pending ∧ t.sec = s.sec := by
  obtain ⟨-, runs⟩ := World.runCmd_starts h is hi body
  obtain ⟨⟨-, -, log⟩, waits⟩ := World.runBody_wait _ c.ring e _ { e.begin (s.begun c) c.ring with w := v } p run
    (by rw [show ∀ x : World, ({ e.begin (s.begun c) c.ring with w := x } : Run).rd = 0 from fun _ => rfl,
      show ∀ x : World, ({ e.begin (s.begun c) c.ring with w := x } : Run).wr = 0 from fun _ => rfl, clash_nothing, Bool.and_false])
    (State.begun_stands h rings)
  refine ⟨_, State.run_live (State.starts_live h) _, ?_, ?_, rfl, rfl⟩
  · rw [runs]; exact waits
  · rw [State.commit_mem, runs]; exact congrArg _ log

end

/-! ### The three commands -/

@[simp] theorem need_true (code : Nat) : need true code = pure () := rfl

theorem State.begun_log (s : State) (c : Cmd) : (s.begun c).log = [] := (s.toWorld.reopenStep_spec _ _).2.1
theorem State.alike_begun (s : State) (c : Cmd) : s.toWorld.Alike (s.begun c) := s.toWorld.alike_reopenStep _ _

theorem State.storedAt_of_mem {s t : State} {a : Nat} {bs : List Byte} (h : t.mem = memApply s.mem (.bytes a bs)) :
    s.StoredAt t a bs := by
  have byte : ∀ x, t.byteAt x = if a ≤ x ∧ x < a + bs.length then bs.getD (x - a) 0 else s.byteAt x := fun x => by
    rw [State.byteAt, h]; exact cellGet_cellsPut x bs _ a
  refine ⟨fun i hi => ?_, fun x hx => ?_⟩
  · rw [byte, if_pos (by omega), Nat.add_sub_cancel_left]
  · rw [byte, if_neg (by omega)]

theorem State.poisonAt_of_mem {s t : State} {a : Nat} {bs : List Byte} (h : t.mem = memApply s.mem (.bytes a bs)) (g : Nat) :
    t.poisonAt g = s.poisonAt g := by
  rw [State.poisonAt, h]; rfl

theorem nop_completes {s : State} {c : Cmd} {e : Entry} (h : s.starts c e = true) (op : opcodeOf c.desc = 0)
    (zero : [c.desc.w2, c.desc.w3, c.desc.w4, c.desc.w5, c.desc.w6, c.desc.w7] = [0, 0, 0, 0, 0, 0]) :
    ∃ t, exec (.nop c) s = .next t ∧ t.doneIn c.ring e.idx stOk ∧ s.SameStore t := by
  have run : ∀ r, (nopBody c.desc).run r = .ok (.done stOk, r) := fun r => by
    simp only [List.cons.injEq, and_true] at zero
    obtain ⟨h2, h3, h4, h5, h6, h7⟩ := zero
    simp [nopBody, h2, h3, h4, h5, h6, h7]
  obtain ⟨t, next, done, mem, pending, sec⟩ := State.runCmd_done h (fun d => opcodeOf d == 0) (by simp [op])
    (v := s.begun c) (run _) rfl
  rw [s.begun_log] at mem
  exact ⟨t, next, done, mem, pending, sec⟩

section
variable {s : State} {c : Cmd} {e : Entry} {pa : Nat} {w : World} {write : Bool}

/-- What a common command finds at the address it names: the computation's world is alike to the state's. -/
theorem State.plain_begun (plain : s.plain (engineNode c.ring.page c.ring.n) pa 8 = true) :
    (s.begun c).Plain (e.begin (s.begun c) c.ring).ag.node pa 8 :=
  (State.plain_iff.1 plain).alike (s.alike_begun c)

theorem State.xlate_begun (h : s.starts c e = true) (plain : s.plain (engineNode c.ring.page c.ring.n) pa 8 = true)
    (xlate : s.toWorld.xlate (agentOf c.ring e) (jobOf c.desc) (fld c.desc.w2 47 0) write = (.ok pa, w)) :
    (s.begun c).xlateFound (e.begin (s.begun c) c.ring).ag ((e.begin (s.begun c) c.ring).ag.job.getD 0) (fld c.desc.w2 47 0) write =
      .ok pa := by
  have found := (World.xlate_sound (State.plain_iff.1 plain).sound (agentOf c.ring e) (jobOf c.desc) (fld c.desc.w2 47 0) write).1
  rw [xlate] at found
  have job : (e.begin (s.begun c) c.ring).ag.job.getD 0 = jobOf c.desc := by rw [← (s.starts_find h).2]; rfl
  rw [job, State.begun, World.xlateFound_reopenStep]
  exact found.symm

theorem writeLine_completes (h : s.starts c e = true) (op : opcodeOf c.desc = 1)
    (zero : [c.desc.w4, c.desc.w5, c.desc.w6, c.desc.w7] = [0, 0, 0, 0]) (reserved : fld c.desc.w2 63 48 = 0)
    (aligned : fld c.desc.w2 47 0 % 8 = 0)
    (xlate : s.toWorld.xlate (agentOf c.ring e) (jobOf c.desc) (fld c.desc.w2 47 0) true = (.ok pa, w))
    (plain : s.plain (engineNode c.ring.page c.ring.n) pa 8 = true) :
    ∃ t, exec (.writeLine c) s = .next t ∧ t.doneIn c.ring e.idx stOk ∧ s.StoredAt t pa (wordBytes c.desc.w3) ∧
      (∀ g, t.poisonAt g = s.poisonAt g) ∧ t.pending = s.pending ∧ t.sec = s.sec := by
  simp only [List.cons.injEq, and_true] at zero
  obtain ⟨h4, h5, h6, h7⟩ := zero
  have len : (wordBytes c.desc.w3).length = 8 := wordBytes_length _
  obtain ⟨v, write, log, rings⟩ := writeV_plain (r := e.begin (s.begun c) c.ring) (bs := wordBytes c.desc.w3) (by omega) (by omega)
    (by omega) (State.xlate_begun h plain xlate) (len ▸ State.plain_begun plain)
  have log' : v.log = [.bytes pa (wordBytes c.desc.w3)] := log.trans (congrArg (List.cons _) (s.begun_log c))
  have run : (writeLineBody c.desc).run (e.begin (s.begun c) c.ring) = .ok (.done stOk, { e.begin (s.begun c) c.ring with w := v }) := by
    simp [writeLineBody, zeroBits, reserved, aligned, h4, h5, h6, h7, write]
  obtain ⟨t, next, done, mem, pending, sec⟩ := State.runCmd_done h (fun d => opcodeOf d == 1) (by simp [op]) run rings
  have mem' : t.mem = memApply s.mem (.bytes pa (wordBytes c.desc.w3)) := by rw [mem, log']; rfl
  exact ⟨t, next, done, State.storedAt_of_mem mem', State.poisonAt_of_mem mem', pending, sec⟩

theorem waitLine_completes_or_waits (h : s.starts c e = true) (op : opcodeOf c.desc = 2)
    (zero : [c.desc.w5, c.desc.w6, c.desc.w7] = [0, 0, 0]) (reserved : fld c.desc.w2 63 48 = 0)
    (aligned : fld c.desc.w2 47 0 % 8 = 0) (timeout : fld c.desc.w4 63 32 = 0)
    (xlate : s.toWorld.xlate (agentOf c.ring e) (jobOf c.desc) (fld c.desc.w2 47 0) false = (.ok pa, w))
    (plain : s.plain (engineNode c.ring.page c.ring.n) pa 8 = true) (clean : s.poisonAt (lineOf pa) = false) :
    ∃ t, exec (.waitLine c) s = .next t ∧ t.mem = s.mem ∧ t.pending = s.pending ∧ t.sec = s.sec ∧
      (0 ≤ (s.toWorld.word pa - c.desc.w3).toInt → t.doneIn c.ring e.idx stOk) ∧
      ((s.toWorld.word pa - c.desc.w3).toInt < 0 → ∃ x, t.entry c.ring e.idx = some x ∧
        x.phase = .waitLine pa c.desc.w3 (if fld c.desc.w4 31 0 = 0 then none
          else some (s.dev.gtime + fld c.desc.w4 31 0 * 1024))) := by
  simp only [List.cons.injEq, and_true] at zero
  obtain ⟨h5, h6, h7⟩ := zero
  let r := e.begin (s.begun c) c.ring
  have begun := s.alike_begun c
  have plain' := State.plain_begun (e := e) plain
  obtain ⟨u, toU, translate⟩ := xlateA_found (r := r) plain'.sound (State.xlate_begun h plain xlate)
  have alike : s.toWorld.Alike u := begun.trans toU
  obtain ⟨v, alike', read⟩ := readP_plain (r := { r with w := u }) (by omega : 0 < 8) (plain'.alike toU)
    (by rw [alike.poisoned]; exact clean)
  have all := alike.trans alike'
  have word : leWord (u.bytes pa 8) = s.toWorld.word pa := by rw [alike.bytes]; rfl
  have rings : v.dev.rings = (s.begun c).dev.rings := all.rings.trans begun.rings.symm
  have run : (waitLineBody c.desc).run r = .ok (if lineMet (s.toWorld.word pa) c.desc.w3 then .done stOk
      else .wait (.waitLine pa c.desc.w3 (if fld c.desc.w4 31 0 = 0 then none
        else some (s.dev.gtime + fld c.desc.w4 31 0 * 1024))), { r with w := v }) := by
    have gtime : v.dev.gtime = s.dev.gtime := all.gtime
    cases met : lineMet (s.toWorld.word pa) c.desc.w3 <;>
      simp [waitLineBody, zeroBits, reserved, aligned, timeout, h5, h6, h7, translate, read, word, met, gtime]
  have kept : memCommit s.mem v.log = s.mem := by rw [all.log]; rfl
  cases met : lineMet (s.toWorld.word pa) c.desc.w3 with
  | true =>
    have reached : 0 ≤ (s.toWorld.word pa - c.desc.w3).toInt := of_decide_eq_true met
    rw [met, if_pos rfl] at run
    obtain ⟨t, next, done, mem, pending, sec⟩ := State.runCmd_done h (fun d => opcodeOf d == 2) (by simp [op]) run rings
    exact ⟨t, next, mem.trans kept, pending, sec, fun _ => done, fun lacking => absurd lacking (by omega)⟩
  | false =>
    have lacking : ¬ 0 ≤ (s.toWorld.word pa - c.desc.w3).toInt := of_decide_eq_false met
    rw [met, if_neg Bool.false_ne_true] at run
    obtain ⟨t, next, waits, mem, pending, sec⟩ := State.runCmd_waits h (fun d => opcodeOf d == 2) (by simp [op]) run rings
    exact ⟨t, next, mem.trans kept, pending, sec, fun reached => absurd reached lacking, fun _ => waits⟩

end

section
variable {s : State} {r : RingId} {idx pa : Nat} {thr : U64} {d : Option Nat}

/-- The command that waits has its count in the ring. -/
theorem World.lineWait_stands {w : World} (h : w.lineWait r = some (idx, pa, thr, d)) :
    ∃ e, (w.ringRun r).entries.find? (fun y => y.idx == idx) = some e := by
  obtain ⟨e, mem, he⟩ := List.exists_of_findSome?_eq_some h
  have : e.idx = idx := by
    split at he <;> simp_all
  exact Option.isSome_iff_exists.1 (List.find?_isSome.2 ⟨e, mem, by simpa using this⟩)

/-- What a waiting WAIT_LINE does when its line was written. -/
def lineWake (pa : Nat) (thr : U64) : Act Fin := do
  let (bs, ps) ← readP pa 8
  if ps.isEmpty && !lineMet (leWord bs) thr then throw .hold
  return .done stOk

theorem World.lineWoken_eq {w : World} {e : Entry} (waits : w.lineWait r = some (e.idx, pa, thr, d))
    (found : (w.ringRun r).entries.find? (fun y => y.idx == e.idx) = some e) :
    w.lineWoken r = w.runBody r e e.counts (lineWake pa thr) := by
  simp only [World.lineWoken, waits, World.resume, found]
  rfl

theorem waitLineMet_completes (live : s.dev.live = true) (waits : s.toWorld.lineWait r = some (idx, pa, thr, d))
    (plain : s.plain (engineNode r.page r.n) pa 8 = true) (clean : s.poisonAt (lineOf pa) = false)
    (reached : 0 ≤ (s.toWorld.word pa - thr).toInt) :
    ∃ t, exec (.waitLineMet r) s = .next t ∧ t.doneIn r idx stOk ∧ s.SameStore t := by
  obtain ⟨e, found⟩ := World.lineWait_stands waits
  obtain rfl : e.idx = idx := by simpa using List.find?_some found
  have met : lineMet (leWord ((e.begin s.toWorld r).w.bytes pa 8)) thr = true := decide_eq_true reached
  obtain ⟨v, alike, read⟩ := readP_plain (r := e.begin s.toWorld r) (by omega : 0 < 8) (State.plain_iff.1 plain) clean
  have rings : v.dev.rings = s.toWorld.dev.rings := alike.rings
  obtain ⟨log, done⟩ := World.runBody_ends (w := s.toWorld) (v := v) (r := r) (e := e) (a := lineWake pa thr)
    (by simp [lineWake, read, met]) (by rw [World.ringRun_of_rings rings, found]; rfl)
  have kept : v.log = [] := alike.log
  refine ⟨s.commit (s.toWorld.lineWoken r), State.run_live live fun w => w.lineWoken r, ?_, ?_, rfl, rfl⟩
  · rw [World.lineWoken_eq waits found]; exact done
  · rw [State.commit_mem, World.lineWoken_eq waits found, log, kept]; rfl

theorem waitLineTimeout_completes {d : Nat} (live : s.dev.live = true) (waits : s.toWorld.lineWait r = some (idx, pa, thr, some d))
    (hbm : s.toWorld.place pa = .hbm) (lacking : (s.toWorld.word pa - thr).toInt < 0) :
    ∃ t, exec (.waitLineTimeout r) s = .next t ∧ t.doneIn r idx stTimeout ∧ t.dev.gtime = max s.dev.gtime d ∧ s.SameStore t := by
  obtain ⟨e, found⟩ := World.lineWait_stands waits
  have unmet : lineMet (s.toWorld.word pa) thr = false := decide_eq_false (by omega)
  have ends : s.toWorld.lineTimeout r = (s.toWorld.at d).endCmd r idx stTimeout 0 := by
    simp [World.lineTimeout, waits, hbm, unmet]
  obtain ⟨log, gtime, done⟩ := World.endCmd_done (w := s.toWorld.at d) (r := r) (i := idx) stTimeout 0
    (by rw [show (s.toWorld.at d).ringRun r = s.toWorld.ringRun r from rfl, found]; rfl)
  refine ⟨s.commit (s.toWorld.lineTimeout r), State.run_live live fun w => w.lineTimeout r, ?_, ?_, ?_, rfl, rfl⟩
  · rw [ends]; exact done
  · rw [State.commit_dev, ends]; exact gtime
  · rw [State.commit_mem, ends, log]; rfl

end

/-- Settles O11: each command's computation runs in the world that begins it, where the hypotheses make its translation, its read
and its write succeed; its end then leaves the ring's command done, or in the phase it waits in. -/
theorem commonCommandsAndWaits : Obligations.CommonCommandsAndWaits :=
  ⟨⟨fun _ _ _ => nop_completes, fun _ _ _ _ _ => writeLine_completes, fun _ _ _ _ _ => waitLine_completes_or_waits⟩,
    fun _ _ _ _ _ _ => waitLineMet_completes, fun _ _ _ _ _ _ => waitLineTimeout_completes⟩

end Sys2Proof.Machine

/-! # Stores beside the ones stated (R144, R141, R121)

O13, O15 and O20 say what a row stores or keeps, but their hypotheses do not shut out stores of other units in the same step: done
words that waited, and the records that woodbox 0 logs of an error (R339). -/

namespace Sys2Proof.Machine

namespace Unmentioned

/-- The registers of a running device: READY, port 0 up, job 0 assigned to it and rooted at 0x200000, 640 channels. -/
def regs : List (Nat × U64) :=
  [(rk 0 0x080, 0x201), (rk 0x10 0x088, 2), (rk 0x10 0x098, 1), (rk 0x120 0x080, 0xA00280), (rk 0x120 0x800, 0x200001)]

/-- A memory that holds these words and nothing else. -/
def words (ws : List (Nat × U64)) : Mem := ws.foldl (fun m x => memApply m (.bytes x.1 (wordBytes x.2))) ⟨[], []⟩

/-! ### A done word that waits -/

/-- Ring 0 of woodbox 0. -/
def ring : RingId := ⟨0x120, 0⟩

/-- A NOP of job 0 that has completed. -/
def nopEntry : Entry := { idx := 0, desc := ⟨0, 0, 0, 0, 0, 0, 0, 0⟩, phase := .done }

/-- Job 0, its save table at 0x40000. -/
def job : Job := { LoggedReplay.tileJob with livetab := 0x30000, savetab := 0x40000 }

/-- The ring's completion area begins at 0x9000; a stoker's completion word of job 0 waits to be stored at 0x1000. -/
def recording : State where
  pending := []
  mem := words [(0x200000, 0x400001), (0x400000, 0x7)]
  dev := { Dev.reset with
    regs := (rgk ring 0x08, 0x9000) :: regs
    jobs := [job]
    rings := [⟨ring, 1, [nopEntry], none, 0, false, false⟩]
    stk := ⟨[], [], [], [], [(0x40, 0, 0x1000, 1)]⟩ }
  sec := State.reset.sec

/-- The row stores the done word too. -/
theorem recording_stores_done : nextByte (exec (.completionRecord ring) recording) 0x1008 = some 1 := by decide +kernel

/-! ### A descriptor with an error -/

/-- The first words of a legal table of recipes, by kind. -/
def recipes : List U64 :=
  [0xF04000, 0xF04000, 0xF04000, 0xF05000, 0xF05000, 0xF04A13, 0xF04A13, 0xF04000, 0xF04000, 0xF04000]

/-- Job 0's descriptor at 0x1000 names the recipe table at 0x2000; a corrected error waits in the descriptor, and the log of such
errors begins at 0x10000. -/
def creating : State where
  pending := []
  mem := words ((0x1008, 0x2000) :: recipes.mapIdx fun i v => (0x2000 + 16 * i, v))
  dev := { Dev.reset with
    regs := (rk 0x120 0x098, 0x10059) :: regs
    bank := [(bankKey 0 (rk 0 0x400), 0x1000)]
    upsets := [⟨0x1000, false, 0, false⟩] }
  sec := State.reset.sec

/-- The descriptor's checks hold. -/
theorem creating_ends : ∃ x, (createJob 0 0).run (Run.init creating.toWorld (mantel 0)) = .ok (stOk, x) := by
  have ok : ((createJob 0 0).run (Run.init creating.toWorld (mantel 0))).toOption.map Prod.fst = some stOk := by decide +kernel
  revert ok
  rcases (createJob 0 0).run (Run.init creating.toWorld (mantel 0)) with _ | ⟨st, x⟩
  · exact fun ok => nomatch ok
  · rintro ⟨⟩
    exact ⟨x, rfl⟩

/-- The row logs the error: the byte of its record that holds TYPE. -/
theorem creating_logs : nextByte (exec (.create 0 0) creating) 0x10004 = some 0x11 := by decide +kernel

/-! ### A save image in a suspended ring's pages -/

/-- A WAIT_LINE of job 0 that waits. -/
def waitEntry : Entry := { idx := 0, desc := ⟨0x10002, 0, 0x100, 5, 0, 0, 0, 0⟩, phase := .waitLine 0x100 5 none }

/-- The ring that is preempted. -/
def lowRing : RingId := stoveRing 0 1

/-- The first byte of stove 0's scratchpad. -/
def pad : Nat := spAddr 0

/-- Ring 0 of stove 0 is suspended: its save image of job 0 lies at 0x50000, the scratchpad's first region is kept at 0x51000,
and the region's first word was poisoned. Ring 1 waits and ring 2 preempts it. Job 0's save slot for ring 1 lies in a window that no
segment backs, and the log of errors begins at the scratchpad. -/
def saving : State where
  pending := []
  mem := words [(0x40008, 0x10000000001)]
  dev := { Dev.reset with
    regs := (rk 0x120 0x098, BitVec.ofNat 64 (pad + 0x19)) :: (rgk (stoveRing 0 0) 0x30, 2) :: regs
    jobs := [job]
    rings := [⟨lowRing, 1, [waitEntry], none, 0, false, false⟩]
    redirect := [(pad, 0x51000)]
    stoves := [{ Stove.empty 0 with pre := some (1, 2, 2000), saved := [⟨0, 0x50000, 1, false, 0, [], none, [pad]⟩] }] }
  sec := State.reset.sec

/-- The poison marks of stove 0's save images in the state that an outcome answers, oldest image first. -/
def nextMarks (x : Host.Outcome State Fault Refusal) : Option (List (List Nat)) :=
  match x with
  | .next t => some ((t.toWorld.stove 0).saved.map SaveImg.marks)
  | _ => none

/-- The row takes the mark from the older image; its own has none. -/
theorem saving_clears_mark : nextMarks (exec (.preemptSave 0) saving) = some [[], []] := by decide +kernel

end Unmentioned

/-- Refutes O13: it does not ask that no done word waits. The record's write also lets waiting done words of the stokers go, so the
word for 0x1000 is stored there, away from the record's 64 bytes. -/
theorem not_completionRecordsAreWritten : ¬ Obligations.CompletionRecordsAreWritten := by
  rintro ⟨records, -⟩
  obtain ⟨t, next, ⟨-, kept⟩, -⟩ := records Unmentioned.recording Unmentioned.ring Unmentioned.nopEntry [] 0x9000
    (by decide +kernel) (by decide +kernel) rfl rfl rfl rfl rfl (by decide +kernel) (by decide +kernel) (by decide +kernel)
  have stored : t.byteAt 0x1008 = 1 := by simpa [next, nextByte] using Unmentioned.recording_stores_done
  rw [kept 0x1008 (by omega)] at stored
  exact absurd stored (by decide +kernel)

/-- Refutes O15: it does not ask where the save slot lies. A slot that nothing backs has its writes logged as errors; where the
log begins in a suspended ring's scratchpad, the record's bytes land in that ring's save image, whose poison mark they strip. The
images saved before are then not as they were. -/
theorem not_preemptionAndArbitersAct : ¬ Obligations.PreemptionAndArbitersAct := by
  rintro ⟨⟨-, saves, -⟩, -⟩
  obtain ⟨t, img, next, -, -, saved, -⟩ := saves Unmentioned.saving 0 1 2 2000 0 0 0x10000000000
    (by decide +kernel) (by decide) (by decide +kernel) (by decide +kernel) (by decide +kernel) (by decide +kernel) (by decide +kernel)
  have marks : (t.toWorld.stove 0).saved.map SaveImg.marks = [[], []] := by
    simpa [next, Unmentioned.nextMarks] using Unmentioned.saving_clears_mark
  have old : (Unmentioned.saving.toWorld.stove 0).saved.map SaveImg.marks = [[Unmentioned.pad]] := by decide +kernel
  rw [saved, List.map_append, old] at marks
  simp at marks

/-- Refutes O20: its first clause does not ask that memory has no errors. Reading a descriptor that meets a corrected error logs it
to memory, so a CREATE that shows OK changes memory. -/
theorem not_jobsAreCreatedAndDestroyed : ¬ Obligations.JobsAreCreatedAndDestroyed := by
  rintro ⟨⟨creates, -⟩, -⟩
  obtain ⟨x, ends⟩ := Unmentioned.creating_ends
  obtain ⟨t, y, next, -, -, -, -, -, -, -, -, -, mem, -⟩ := creates Unmentioned.creating 0 0 x
    ⟨by decide +kernel, by decide, by decide +kernel, by decide +kernel⟩ (by decide)
    (by unfold State.notHeld; decide +kernel) (by decide +kernel) (by decide +kernel) ends
  have logged : t.byteAt 0x10004 = 0x11 := by simpa [next, nextByte] using Unmentioned.creating_logs
  rw [State.byteAt, mem] at logged
  exact absurd logged (by decide +kernel)

end Sys2Proof.Machine

/-! # Version-gated reads (R188 to R190, R272)

The end of a command leaves the gates as they are (`World.sameGates_endCmd`), so a refused, parked or timed-out read is known from
what the gate itself does. A remote read that finds memory at rest answers its bytes (`State.rreadServe_answers`). -/

namespace Sys2Proof.Machine

/-! ### The gate's table (R188) -/

/-- The slot that a read of a version uses. -/
def Region.slotOf (r : Region) (e : Nat) : Nat := if r.lag1 then e % 2 else 0

theorem Region.gate_frozen {r : Region} (h : r.frozen = true) (e : Nat) : r.gate e = .pass (r.slotOf e) := by
  simp [Region.gate, Region.slotOf, h]

/-- The decision of a region that is not frozen, by d = E − CV as a signed 16-bit value. -/
theorem Region.gate_thawed {r : Region} {e : Nat} {d : Int} (h : r.frozen = false)
    (hd : signedOf 16 ((e + 2 ^ 16 - r.cv) % 2 ^ 16) = d) : r.gate e =
      if 1 ≤ d then .wait
      else if d = 0 then (if !r.isOpen || r.lag1 then .pass (r.slotOf e) else .stale)
      else if d = -1 then (if !r.isOpen && r.lag1 then .pass (r.slotOf e) else .stale)
      else .stale := by
  simp only [Region.gate, h, hd, Region.slotOf, Bool.false_eq_true, if_false]

/-- d of a version that lies n above CV modulo 2^16. -/
theorem signedOf_ahead {cv e : Nat} (n : Nat) (hcv : cv < 2 ^ 16) (he : e = (cv + n) % 2 ^ 16) :
    signedOf 16 ((e + 2 ^ 16 - cv) % 2 ^ 16) = signedOf 16 (n % 2 ^ 16) := by
  have : (e + 2 ^ 16 - cv) % 2 ^ 16 = n % 2 ^ 16 := by omega
  rw [this]

theorem Region.gate_current {r : Region} {e : Nat} (hcv : r.cv < 2 ^ 16) (h : r.frozen = false) (he : e = r.cv) :
    r.gate e = if r.isOpen && !r.lag1 then .stale else .pass (r.slotOf e) := by
  rw [Region.gate_thawed h (signedOf_ahead 0 hcv (by omega))]
  cases r.isOpen <;> cases r.lag1 <;> rfl

theorem Region.gate_next {r : Region} {e : Nat} (hcv : r.cv < 2 ^ 16) (h : r.frozen = false) (he : e = (r.cv + 1) % 2 ^ 16) :
    r.gate e = .wait := by
  rw [Region.gate_thawed h (signedOf_ahead 1 hcv he)]
  rfl

theorem Region.gate_previous {r : Region} {e : Nat} (hcv : r.cv < 2 ^ 16) (h : r.frozen = false)
    (he : e = (r.cv + 2 ^ 16 - 1) % 2 ^ 16) : r.gate e = if !r.isOpen && r.lag1 then .pass (e % 2) else .stale := by
  rw [Region.gate_thawed h (signedOf_ahead (2 ^ 16 - 1) hcv (by omega)), Region.slotOf]
  cases r.isOpen <;> cases r.lag1 <;> rfl

theorem Region.gate_older {r : Region} {e : Nat} (hcv : r.cv < 2 ^ 16) (h : r.frozen = false)
    (he : e = (r.cv + 2 ^ 16 - 2) % 2 ^ 16) : r.gate e = .stale := by
  rw [Region.gate_thawed h (signedOf_ahead (2 ^ 16 - 2) hcv (by omega))]
  rfl

/-! ### Regions and their readers (R189) -/

theorem World.region_modRegion (w : World) (i : Nat) (f : Region → Region) (hf : ∀ x, (f x).index = x.index) :
    (w.modRegion i f).region i = (w.region i).map f :=
  find_updFirst _ f (fun x hx => by rw [hf]; exact hx) _

theorem World.region_modRegion_other (w : World) {i j : Nat} (f : Region → Region) (hf : ∀ x, (f x).index = x.index) (h : i ≠ j) :
    (w.modRegion i f).region j = w.region j := by
  refine find_updFirst_other _ _ f (fun x hx => ?_) _
  obtain rfl : x.index = i := by simpa using hx
  simp [hf, h]

/-- A region with its count of readers of a slot changed. -/
def Region.modReaders (r : Region) (slot : Nat) (f : Nat → Nat) : Region :=
  if slot = 0 then { r with readers0 := f r.readers0 } else { r with readers1 := f r.readers1 }

theorem Region.modReaders_index (r : Region) (slot : Nat) (f : Nat → Nat) : (r.modReaders slot f).index = r.index := by
  unfold Region.modReaders
  split <;> rfl

theorem Region.modReaders_arm (r : Region) (slot : Nat) (f : Nat → Nat) : (r.modReaders slot f).arm = r.arm := by
  unfold Region.modReaders
  split <;> rfl

theorem Region.readers_modReaders {slot : Nat} (r : Region) (f : Nat → Nat) :
    (r.modReaders slot f).readers slot = f (r.readers slot) := by
  unfold Region.modReaders Region.readers
  split <;> rfl

theorem Region.readers_modReaders_other {slot : Nat} (h : slot < 2) (r : Region) (f : Nat → Nat) :
    (r.modReaders slot f).readers (1 - slot) = r.readers (1 - slot) := by
  unfold Region.modReaders Region.readers
  obtain rfl | rfl : slot = 0 ∨ slot = 1 := by omega
  · rfl
  · rfl

theorem World.region_passGate (w : World) (g : GateRead) (slot : Nat) :
    (w.passGate g slot).region g.wreg = (w.region g.wreg).map fun r => r.modReaders slot (· + 1) :=
  w.region_modRegion g.wreg (fun r => r.modReaders slot (· + 1)) fun r => r.modReaders_index slot _

/-! ### The ends of commands and the gates -/

/-- `b` has the stores, the gates and the pages' cause bits of `a`. -/
structure World.SameGates (a b : World) : Prop where
  log : b.log = a.log
  blw : b.dev.blw = a.dev.blw
  cause : ∀ page, b.reg (rk page 0x020) = a.reg (rk page 0x020)

theorem World.SameGates.refl (w : World) : w.SameGates w := ⟨rfl, rfl, fun _ => rfl⟩

theorem World.SameGates.trans {a b c : World} (h : a.SameGates b) (k : b.SameGates c) : a.SameGates c :=
  ⟨k.log.trans h.log, k.blw.trans h.blw, fun page => (k.cause page).trans (h.cause page)⟩

theorem World.sameGates_modReg (w : World) {k : Nat} (f : U64 → U64) (h : ∀ page, rk page 0x020 ≠ k) : w.SameGates (w.modReg k f) :=
  ⟨rfl, rfl, fun page => by rw [World.reg_modReg, if_neg (h page)]⟩

theorem World.sameGates_noteFrame (w : World) (page n : Nat) : w.SameGates (w.noteFrame page n) := by
  unfold World.noteFrame
  split
  · exact World.SameGates.refl w
  · exact ⟨rfl, rfl, fun _ => rfl⟩

theorem World.sameGates_sendUrk (w : World) (op : Nat) (m : UrkPkt) : w.SameGates (w.sendUrk op m) := by
  have counted := w.sameGates_modReg (k := rk (0x10 + m.port) 0x110) (fun x => countUp x 63 0 (urkBytes op m))
    fun page => by simp only [rk]; omega
  exact (counted.trans (World.sameGates_noteFrame _ (0x10 + m.port) (urkBytes op m))).trans ⟨rfl, rfl, fun _ => rfl⟩

theorem World.sameGates_snoop1 (w : World) (line : Nat) (share : Bool) (p : Nat) : w.SameGates (w.snoop1 line share p) := by
  unfold World.snoop1
  split
  · exact World.SameGates.refl w
  · have counted := w.sameGates_modReg (k := rk (0x10 + p) 0x0F0) (fun x => countUp x 31 0 1) fun page => by simp only [rk]; omega
    exact (counted.trans (World.sameGates_sendUrk _ _ _)).trans ⟨rfl, rfl, fun _ => rfl⟩

theorem World.sameGates_snoop (w : World) (line : Nat) (share : Bool) (keep : Option Nat) :
    w.SameGates (w.snoop line share keep) := by
  unfold World.snoop
  split
  · exact World.SameGates.refl w
  split
  · exact World.SameGates.refl w
  · exact List.foldlRecOn _ _ (World.SameGates.refl w) fun v hv p _ => hv.trans (v.sameGates_snoop1 _ _ _)

theorem World.sameGates_modRing (w : World) (r : RingId) (f : RingRun → RingRun) : w.SameGates (w.modRing r f) := by
  refine ⟨rfl, ?_, fun page => ?_⟩
  · simp only [World.modRing, World.upd_dev]
    split <;> rfl
  · simp only [World.modRing, World.reg, World.upd_dev]
    split <;> rfl

theorem World.sameGates_quiescent (w : World) (r : RingId) (v : Nat) : w.SameGates (w.setRf (rgk r 0x30) 2 2 v) :=
  w.sameGates_modReg (fun x => setFld x 2 2 v) fun page => by simp only [rk, rgk]; omega

theorem World.sameGates_settleSlots (w : World) (k : Nat) : w.SameGates (w.settleSlots k) := by
  unfold World.settleSlots
  split
  · exact World.SameGates.refl w
  · exact ⟨rfl, rfl, fun _ => rfl⟩

theorem World.sameGates_readMask (w : World) (r : RingId) : w.SameGates (w.readMask r) := by
  unfold World.readMask
  split
  · exact w.sameGates_modRing r _
  split
  · exact (w.sameGates_snoop _ _ _).trans (World.sameGates_modRing _ r _)
  · exact (w.sameGates_modRing r _).trans (World.sameGates_quiescent _ r _)

theorem World.sameGates_finish (w : World) (r : RingId) (i st : Nat) (cnt : Counts) (ev : Nat) :
    w.SameGates (w.finish r i st cnt ev) := by
  unfold World.finish
  extract_lets v
  have ended : w.SameGates v := w.sameGates_modRing r _
  split
  next k e _ _ =>
    extract_lets cheap
    refine World.SameGates.trans ?_ (World.sameGates_readMask _ r)
    refine World.SameGates.trans ?_ (World.sameGates_quiescent _ r 0)
    exact (ended.trans (v.sameGates_settleSlots k)).trans (World.sameGates_modRing _ r _)
  next => exact ended

theorem World.sameGates_endCmd (w : World) (r : RingId) (i st ev : Nat) : w.SameGates (w.endCmd r i st ev) := by
  unfold World.endCmd
  split
  · exact w.sameGates_finish _ _ _ _ _
  · exact World.SameGates.refl w

/-- A refused read of a ring: its command stands completed with the status, and that is all that concerns gates and stores. -/
theorem World.gateRefuse_ring {w : World} {g : GateRead} {c : Cmd} {e : Entry} (req : g.req = .ring c)
    (entry : w.gateEntry c = some e) (st ev : Nat) : w.SameGates (w.gateRefuse g st ev) ∧
      (w.gateRefuse g st ev).dev.gtime = w.dev.gtime ∧ (w.gateRefuse g st ev).DoneIn c.ring e.idx st := by
  have ends : w.gateRefuse g st ev = w.endCmd c.ring e.idx st ev := by simp only [World.gateRefuse, req, entry]
  obtain ⟨-, gtime, done⟩ := World.endCmd_done st ev (World.find_idx_of_find entry)
  rw [ends]
  exact ⟨w.sameGates_endCmd _ _ _ _, gtime, done⟩

/-- What a commit of such a world leaves of memory, the queue and the security state: everything. -/
theorem World.SameGates.sameStore {s : State} {v w : World} (h : v.SameGates w) (hv : v.log = []) : s.SameStore (s.commit w) :=
  ⟨by rw [State.commit_mem, h.log, hv, memCommit_nil], rfl, rfl⟩

/-! ### A read at its gate -/

/-- A gated read that has reached its gate is on its way no more. -/
def World.unask (w : World) (g : GateRead) : World :=
  w.upd fun d => { d with blw := { d.blw with asks := d.blw.asks.erase g } }

theorem World.gateOf_unask (w : World) (g : GateRead) : (w.unask g).gateOf g = w.gateOf g := rfl

theorem World.gateArrive_decided {w v : World} {g : GateRead} (h : g ∈ w.dev.blw.asks)
    (check : (w.unask g).gateCheck g = some v) : w.gateArrive g = v := by
  unfold World.unask at check
  simp [World.gateArrive, h, check]

/-- The wait of a read at a die's gate ends after VERSION_WAIT_LIMIT (R190). -/
def World.gateDeadline (w : World) (die : Nat) : Option Nat :=
  if w.rf (rk (blwPage die) 0x088) 31 0 = 0 then none else some (w.dev.gtime + w.rf (rk (blwPage die) 0x088) 31 0 * 1024)

theorem World.gateArrive_parked {w : World} {g : GateRead} (h : g ∈ w.dev.blw.asks) (waits : w.gateOf g = .wait) :
    w.gateArrive g = ((w.unask g).count (rk (blwPage (w.gateDie g)) 0x0B8) 31 0 1).upd fun d =>
      { d with blw := { d.blw with
        parked := d.blw.parked ++ [⟨w.gateDie g, g, w.gateDeadline (w.gateDie g), false⟩] } } := by
  have check : (w.unask g).gateCheck g = none := by simp [World.gateCheck, World.gateOf_unask, waits]
  unfold World.unask at check
  simp only [World.gateArrive, List.contains_iff_mem.2 h, check]
  rfl

theorem exec_gatedRead {s : State} (live : s.dev.live = true) (g : GateRead) :
    exec (.gatedRead g) s = .next (s.commit (s.toWorld.gateArrive g)) := State.run_live live fun w => w.gateArrive g

section
variable {s : State} {g : GateRead} (live : s.dev.live = true) (asked : g ∈ s.dev.blw.asks)
include live asked

theorem gatedRead_passes {slot : Nat} {r : Region} (pass : s.toWorld.gateOf g = .pass slot) (hslot : slot < 2)
    (region : s.toWorld.region g.wreg = some r) :
    ∃ t x, exec (.gatedRead g) s = .next t ∧ t.toWorld.region g.wreg = some x ∧ x.readers slot = r.readers slot + 1 ∧
      x.readers (1 - slot) = r.readers (1 - slot) ∧ t.dev.blw.passed = s.dev.blw.passed ++ [(g, slot)] ∧
      t.dev.blw.asks = s.dev.blw.asks.erase g ∧ s.SameStore t ∧ { t.dev with blw := s.dev.blw } = s.dev := by
  have arrives : s.toWorld.gateArrive g = (s.toWorld.unask g).passGate g slot :=
    World.gateArrive_decided asked (by simp only [World.gateCheck, World.gateOf_unask, pass])
  have counted : ((s.toWorld.unask g).passGate g slot).region g.wreg = some (r.modReaders slot (· + 1)) := by
    rw [World.region_passGate, show (s.toWorld.unask g).region g.wreg = some r from region]; rfl
  have kept : { ((s.toWorld.unask g).passGate g slot).dev with blw := s.dev.blw } = s.dev := by
    simp only [World.passGate, World.modRegion, World.unask, World.upd_dev, State.toWorld_dev]
  refine ⟨_, r.modReaders slot (· + 1), exec_gatedRead live g, ?_⟩
  rw [arrives]
  exact ⟨counted, r.readers_modReaders _, r.readers_modReaders_other hslot _, rfl, rfl, ⟨rfl, rfl, rfl⟩, kept⟩

theorem gatedRead_waits (waits : s.toWorld.gateOf g = .wait) :
    ∃ t q, exec (.gatedRead g) s = .next t ∧ t.dev.blw.parked = s.dev.blw.parked ++ [q] ∧
      q.read = g ∧ q.die = s.toWorld.gateDie g ∧ q.due = false ∧ t.dev.blw.asks = s.dev.blw.asks.erase g ∧ s.SameStore t ∧
      s.OnlyRegs { t with dev := { t.dev with blw := s.dev.blw } } [rk (blwPage (s.toWorld.gateDie g)) 0x0B8] := by
  let q : Parked := ⟨s.toWorld.gateDie g, g, s.toWorld.gateDeadline (s.toWorld.gateDie g), false⟩
  refine ⟨s.commit (s.toWorld.gateArrive g), q, exec_gatedRead live g, ?_⟩
  rw [World.gateArrive_parked asked waits]
  have counted := s.toWorld.onlyRegs_modReg (k := rk (blwPage (s.toWorld.gateDie g)) 0x0B8) (fun x => countUp x 31 0 1)
    (K := (· ∈ [rk (blwPage (s.toWorld.gateDie g)) 0x0B8])) (List.mem_singleton_self _)
  exact ⟨rfl, rfl, rfl, rfl, rfl, ⟨rfl, rfl, rfl⟩, counted.commit⟩

theorem gatedRead_refused {c : Cmd} {e : Entry} (req : g.req = .ring c) (entry : s.toWorld.gateEntry c = some e) :
    (s.toWorld.gateOf g = .stale → ∃ t, exec (.gatedRead g) s = .next t ∧ t.doneIn c.ring e.idx stVersionStale ∧ s.SameStore t) ∧
    (s.toWorld.gateOf g = .invalid → ∃ t, exec (.gatedRead g) s = .next t ∧ t.doneIn c.ring e.idx stOperand ∧ s.SameStore t) := by
  have refuse : ∀ (v : World) (st : Nat), v.log = [] → v.gateEntry c = some e →
      (s.toWorld.unask g).gateCheck g = some (v.gateRefuse g st 0) →
      ∃ t, exec (.gatedRead g) s = .next t ∧ t.doneIn c.ring e.idx st ∧ s.SameStore t := by
    intro v st log there check
    obtain ⟨same, -, done⟩ := World.gateRefuse_ring req there st 0
    refine ⟨_, exec_gatedRead live g, ?_⟩
    rw [World.gateArrive_decided asked check]
    exact ⟨done, same.sameStore log⟩
  refine ⟨fun stale => ?_, fun invalid => ?_⟩
  · exact refuse ((s.toWorld.unask g).count (rk (blwPage (s.toWorld.gateDie g)) 0x0B8) 63 32 1) _ rfl entry
      (by simp only [World.gateCheck, World.gateOf_unask, stale]; rfl)
  · exact refuse (s.toWorld.unask g) _ rfl entry (by simp only [World.gateCheck, World.gateOf_unask, invalid])

end

/-! ### Parked reads (R187, R190) -/

theorem World.unpark_only {w : World} {q : Parked} (parked : w.dev.blw.parked = [q]) : (w.unpark q).dev.blw.parked = [] := by
  simp [World.unpark, parked]

theorem World.parkedCheck_only {w : World} {q : Parked} (parked : w.dev.blw.parked = [q]) (due : q.due = true) :
    w.parkedCheck q.die = match (w.unpark q).gateCheck q.read with
      | some v => v
      | none => w.upd fun d => { d with blw := { d.blw with parked := [{ q with due := false }] } } := by
  have first : (w.dev.blw.parked.find? fun p => p.die == q.die && p.due) = some q := by simp [parked, due]
  have marked : updFirst (fun p => p == q) (fun p => { p with due := false }) w.dev.blw.parked = [{ q with due := false }] := by
    simp [parked, updFirst]
  simp only [World.parkedCheck, first]
  cases (w.unpark q).gateCheck q.read with
  | some v => rfl
  | none => simp only [World.upd, marked]

theorem exec_parkedReadRelease {s : State} (live : s.dev.live = true) (die : Nat) :
    exec (.parkedReadRelease die) s = .next (s.commit (s.toWorld.parkedCheck die)) :=
  State.run_live live fun w => w.parkedCheck die

theorem parkedReadRelease_acts {s : State} {q : Parked} (live : s.dev.live = true) (parked : s.dev.blw.parked = [q])
    (due : q.due = true) :
    (∀ slot, s.toWorld.gateOf q.read = .pass slot → ∃ t, exec (.parkedReadRelease q.die) s = .next t ∧ t.dev.blw.parked = [] ∧
      t.dev.blw.passed = s.dev.blw.passed ++ [(q.read, slot)] ∧ s.SameStore t) ∧
    (s.toWorld.gateOf q.read = .wait → ∃ t, exec (.parkedReadRelease q.die) s = .next t ∧
      t.dev.blw.parked = [{ q with due := false }] ∧ s.SameStore t) := by
  have checked := World.parkedCheck_only (w := s.toWorld) parked due
  have same : (s.toWorld.unpark q).gateOf q.read = s.toWorld.gateOf q.read := rfl
  refine ⟨fun slot pass => ⟨_, exec_parkedReadRelease live _, ?_⟩, fun waits => ⟨_, exec_parkedReadRelease live _, ?_⟩⟩
  · simp only [checked, World.gateCheck, same, pass]
    exact ⟨World.unpark_only (w := s.toWorld) parked, rfl, ⟨rfl, rfl, rfl⟩⟩
  · simp only [checked, World.gateCheck, same, waits]
    exact ⟨rfl, ⟨rfl, rfl, rfl⟩⟩

/-- An event raised while EVT_EN of its page is 0: the cause bit and the count of raised events, and no number (R368, R443). -/
theorem World.raise_unsent (w : World) (port : Option Nat) {page code : Nat} (hcode : code < 0x40) (qual : Nat) (d0 d1 : U64)
    (off : bit (w.reg (rk page 0x010)) 3 = false) : w.raise port page code qual d0 d1 =
      (0, (w.modReg (rk page 0x020) fun v => setBit v code true).count (rk page 0x030) 31 0 1) := by
  simp [World.raise, World.raiseBy, hcode, off]

theorem World.firstParked_single {w : World} {q : Parked} {d : Nat} (parked : w.dev.blw.parked = [q]) (deadline : q.deadline = some d) :
    w.firstParked q.die = some (d, q) := by
  simp [World.firstParked, parked, deadline]

theorem exec_versionWaitTimeout {s : State} (live : s.dev.live = true) (die : Nat) :
    exec (.versionWaitTimeout die) s = .next (s.commit (s.toWorld.parkedTimeout die)) :=
  State.run_live live fun w => w.parkedTimeout die

/-- The world in which the parked read that has waited too long is refused: the time is its deadline, it is dropped, and
EV_VERSION_WAIT has been raised on the page of its gate and not sent. -/
def World.lapsed (w : World) (q : Parked) (d : Nat) : World :=
  (((w.at d).unpark q).modReg (rk (blwPage q.die) 0x020) fun x => setBit x 0x0F true).count (rk (blwPage q.die) 0x030) 31 0 1

theorem World.parkedTimeout_only {w : World} {q : Parked} {d : Nat} (parked : w.dev.blw.parked = [q]) (deadline : q.deadline = some d)
    (off : bit (w.reg (rk (blwPage q.die) 0x010)) 3 = false) :
    w.parkedTimeout q.die = (w.lapsed q d).gateRefuse q.read stVersionTimeout 0 := by
  have off' : bit (((w.at d).unpark q).reg (rk (blwPage q.die) 0x010)) 3 = false := off
  have unsent := fun port d0 => World.raise_unsent ((w.at d).unpark q) port (code := 0x0F) (by omega) 0 d0 0 off'
  simp only [World.parkedTimeout, World.firstParked_single parked deadline, unsent]
  rfl

theorem World.lapsed_cause (w : World) (q : Parked) (d : Nat) : bit ((w.lapsed q d).reg (rk (blwPage q.die) 0x020)) 15 = true := by
  simp [World.lapsed, rk]

theorem versionWaitTimeout_ends {s : State} {q : Parked} {d : Nat} {c : Cmd} {e : Entry} (live : s.dev.live = true)
    (parked : s.dev.blw.parked = [q]) (deadline : q.deadline = some d) (req : q.read.req = .ring c)
    (entry : s.toWorld.gateEntry c = some e) (off : bit (s.reg (rk (blwPage q.die) 0x010)) 3 = false) :
    ∃ t, exec (.versionWaitTimeout q.die) s = .next t ∧ t.dev.blw.parked = [] ∧ t.doneIn c.ring e.idx stVersionTimeout ∧
      t.dev.gtime = max s.dev.gtime d ∧ bit (t.reg (rk (blwPage q.die) 0x020)) 15 = true ∧ s.SameStore t := by
  have entry' : (s.toWorld.lapsed q d).gateEntry c = some e := entry
  obtain ⟨same, gtime, done⟩ := World.gateRefuse_ring req entry' stVersionTimeout 0
  refine ⟨_, exec_versionWaitTimeout live _, ?_⟩
  rw [World.parkedTimeout_only (w := s.toWorld) parked deadline off]
  refine ⟨?_, done, gtime, ?_, same.sameStore rfl⟩
  · exact (congrArg Blw.parked same.blw).trans (World.unpark_only (w := s.toWorld) parked)
  · rw [State.commit_reg, same.cause]
    exact World.lapsed_cause _ _ _

end Sys2Proof.Machine

/-! # Passed reads and their data (R189, R272)

Memory at rest answers a read over any number of lines with its bytes (`State.readVB_still`); so a remote read is answered, and what the
end of a read does beside its slot's count, completing OPT_OPENs, leaves stores, passed reads and readers (`World.SameReaders`). -/

namespace Sys2Proof.Machine

/-! ### Memory at rest -/

/-- What `State.still` asks of a world: no line is held, asked for or waited for, no error or poison is there, every die link is up. -/
structure World.Still (w : World) : Prop where
  unheld : w.dev.urk.dir = []
  idle : w.dev.urk.home = []
  unasked : w.dev.urk.snoops = []
  sound : w.dev.upsets = []
  clean : ∀ g, w.poisoned g = false
  linked : ∀ x y, w.dieCut x y = false

theorem State.still.world {s : State} (h : s.still) : s.toWorld.Still := by
  obtain ⟨unheld, idle, unasked, sound, clean, -, -, linked⟩ := h
  exact ⟨unheld, idle, unasked, sound, fun g => by simp [State.poisonAt, clean], linked⟩

theorem World.Still.alike {a b : World} (h : a.Still) : a.Alike b → b.Still := by
  rintro ⟨_, _, _, _, rfl⟩
  exact ⟨h.unheld, h.idle, h.unasked, h.sound, h.clean, h.linked⟩

theorem World.Alike.place {a b : World} : a.Alike b → b.place = a.place := by rintro ⟨_, _, _, _, rfl⟩; rfl
theorem World.Alike.blw {a b : World} : a.Alike b → b.dev.blw = a.dev.blw := by rintro ⟨_, _, _, _, rfl⟩; rfl
theorem World.Alike.out {a b : World} : a.Alike b → b.dev.out = a.dev.out := by rintro ⟨_, _, _, _, rfl⟩; rfl
theorem World.Alike.devId {a b : World} : a.Alike b → b.devId = a.devId := by rintro ⟨_, _, _, _, rfl⟩; rfl
theorem World.Alike.outPort {a b : World} : a.Alike b → b.outPort = a.outPort := by rintro ⟨_, _, _, _, rfl⟩; rfl

/-- HBM, the SLM or a scratchpad. -/
def Place.memory : Place → Bool
  | .hbm | .slm _ | .scratch _ => true
  | _ => false

/-- A line of memory lies in one place. -/
theorem World.place_of_lineOf {w : World} {a : Nat} (h : (w.place (lineOf a)).memory = true) : w.place a = w.place (lineOf a) := by
  have hbm : (lineOf a < hbmEnd) = (a < hbmEnd) := by simp only [lineOf, hbmEnd]; apply propext; omega
  have backed : w.backed (lineOf a) = w.backed a := by
    have : (lineOf a < w.chans * 0x60000000) = (a < w.chans * 0x60000000) := by simp only [lineOf]; apply propext; omega
    simp only [World.backed, hbm, this]
  have slm : (slmBase ≤ lineOf a ∧ lineOf a < slmEnd) = (slmBase ≤ a ∧ a < slmEnd) := by
    simp only [lineOf, slmBase, slmEnd]; apply propext; omega
  have sp : (spBase ≤ lineOf a ∧ lineOf a < spEnd) = (spBase ≤ a ∧ a < spEnd) := by
    simp only [lineOf, spBase, spEnd]; apply propext; omega
  simp only [World.place, hbm, backed, slm, sp] at h ⊢
  split
  · rfl
  split
  next hs =>
    have slice : (lineOf a - slmBase) / 0x8000000 = (a - slmBase) / 0x8000000 := by
      simp only [lineOf, slmBase] at hs ⊢; omega
    have mapped : ((lineOf a - slmBase) % 0x8000000 < w.slmK ((a - slmBase) / 0x8000000) * 0x1000000) =
        ((a - slmBase) % 0x8000000 < w.slmK ((a - slmBase) / 0x8000000) * 0x1000000) := by
      generalize w.slmK ((a - slmBase) / 0x8000000) = k
      simp only [lineOf, slmBase] at hs ⊢; apply propext; omega
    simp only [slice, mapped]
  split
  next hs =>
    have stove : (lineOf a - spBase) / 0x400000 = (a - spBase) / 0x400000 := by
      simp only [lineOf, spBase] at hs ⊢; omega
    simp only [stove]
  next h1 h2 h3 =>
    rw [if_neg h1, if_neg h2, if_neg h3] at h
    split at h
    · cases h
    split at h
    · cases h
    split at h
    · split at h
      · cases h
      split at h <;> cases h
    · cases h

/-! ### Reading at rest -/

/-- One line of memory at rest answers its bytes with no poison. -/
theorem readLine_still {r : Run} {a n : Nat} (h : r.w.Still) (ag : r.ag.stove = none) (mem : (r.w.place a).memory = true) :
    ∃ w, r.w.Alike w ∧ (readLine a n).run r = .ok ((r.w.bytes a n, []), { r with w := w }) := by
  have linked : r.w.linkCut r.ag.node a = false := h.linked _ _
  have idle : r.w.lineBusy (lineOf a) = false := by simp [World.lineBusy, h.unasked, h.idle]
  have unheld : r.w.dirOf (lineOf a) = none := by simp [World.dirOf, h.unheld]
  have touched := (World.alike_touch h.sound a n false).poisoned
  cases place : r.w.place a with
  | hbm | slm _ =>
    exact ⟨_, World.alike_touch h.sound a n false, by
      simp [readLine, linked, place, idle, unheld, World.meet_sound h.sound, touched, h.clean]⟩
  | scratch i =>
    have unmarked : (granules a n).filter r.w.poisoned = [] := List.filter_eq_nil_iff.2 fun g _ => by simp [h.clean]
    exact ⟨_, World.Alike.refl _, by simp [readLine, linked, place, ag, World.meet_sound h.sound, unmarked]⟩
  | _ => rw [place] at mem; cases mem

/-- A computation for each entry of a list, each of which changes caches alone and answers what can be told beforehand. -/
theorem mapM_alike {α β : Type} (f : α → Act β) (g : α → β) (r : Run) : ∀ (l : List α),
    (∀ x ∈ l, ∀ w, r.w.Alike w → ∃ v, w.Alike v ∧ (f x).run { r with w := w } = .ok (g x, { r with w := v })) →
    ∀ w, r.w.Alike w → ∃ v, w.Alike v ∧ (l.mapM f).run { r with w := w } = .ok (l.map g, { r with w := v })
  | [], _, w, _ => ⟨w, World.Alike.refl w, rfl⟩
  | x :: l, h, w, hw => by
    obtain ⟨u, hu, first⟩ := h x List.mem_cons_self w hw
    obtain ⟨v, hv, rest⟩ := mapM_alike f g r l (fun y hy => h y (List.mem_cons_of_mem x hy)) u (hw.trans hu)
    exact ⟨v, hu.trans hv, by simp [List.mapM_cons, first, rest]⟩

theorem World.bytes_append (w : World) (a m n : Nat) : w.bytes a m ++ w.bytes (a + m) n = w.bytes a (m + n) := by
  simp only [World.bytes, List.range_add, List.map_append, List.map_map]
  congr 2
  funext i
  simp only [Function.comp, Nat.add_assoc]

/-- The bytes of a range, line by line, from the line of its first byte on. -/
theorem World.bytes_of_lines (w : World) (hi : Nat) : ∀ (k lo : Nat), lo < hi → (hi - 1) / 128 = lo / 128 + k →
    (((upTo (lo / 128) (k + 1)).map (· * 128)).flatMap fun l => w.bytes (max lo l) (min hi (l + 128) - max lo l)) = w.bytes lo (hi - lo)
  | 0, lo, h, hk => by
    have top : max lo (lo / 128 * 128) = lo := by omega
    have bot : min hi (lo / 128 * 128 + 128) - lo = hi - lo := by omega
    simp [upTo, List.range_succ, top, bot]
  | k + 1, lo, h, hk => by
    have next : lo / 128 + 1 = (lo / 128 * 128 + 128) / 128 := by omega
    have ih := World.bytes_of_lines w hi k (lo / 128 * 128 + 128) (by omega) (by omega)
    have split : upTo (lo / 128) (k + 1 + 1) = lo / 128 :: upTo ((lo / 128 * 128 + 128) / 128) (k + 1) := by
      rw [← next]
      simp only [upTo, List.range_succ_eq_map (n := k + 1), List.map_cons, List.map_map, Nat.add_zero]
      congr 2
      funext i
      simp only [Function.comp]; omega
    have same : ∀ l ∈ (upTo ((lo / 128 * 128 + 128) / 128) (k + 1)).map (· * 128),
        max lo l = max (lo / 128 * 128 + 128) l := by
      intro l hl
      obtain ⟨i, hi', rfl⟩ := List.mem_map.1 hl
      have := (mem_upTo _ _ _).1 hi'
      omega
    have top : max lo (lo / 128 * 128) = lo := by omega
    have bot : min hi (lo / 128 * 128 + 128) = lo / 128 * 128 + 128 := by omega
    have rest := List.flatMap_congr (f := fun l => w.bytes (max lo l) (min hi (l + 128) - max lo l))
      (g := fun l => w.bytes (max (lo / 128 * 128 + 128) l) (min hi (l + 128) - max (lo / 128 * 128 + 128) l))
      fun l hl => by rw [same l hl]
    have edge : lo / 128 * 128 + 128 = lo + (lo / 128 * 128 + 128 - lo) := by omega
    have joined := w.bytes_append lo (lo / 128 * 128 + 128 - lo) (hi - (lo / 128 * 128 + 128))
    rw [← edge] at joined
    rw [split, List.map_cons, List.flatMap_cons, rest, ih, top, bot, joined]
    exact congrArg (w.bytes lo) (by omega)

/-- A range of memory at rest answers its bytes with no poison. -/
theorem readP_still {r : Run} {a n : Nat} (hn : 0 < n) (h : r.w.Still) (ag : r.ag.stove = none)
    (mem : ∀ l ∈ lines a n, (r.w.place l).memory = true) :
    ∃ w, r.w.Alike w ∧ (readP a n).run r = .ok ((r.w.bytes a n, []), { r with w := w }) := by
  have each : ∀ l ∈ lines a n, ∀ w, r.w.Alike w → ∃ v, w.Alike v ∧
      (readLine (max a l) (min (a + n) (l + 128) - max a l)).run { r with w := w } =
        .ok ((r.w.bytes (max a l) (min (a + n) (l + 128) - max a l), []), { r with w := v }) := by
    intro l hl w hw
    have line : lineOf (max a l) = l := by
      simp only [lines, hn.ne', if_false] at hl
      obtain ⟨i, hi, rfl⟩ := List.mem_map.1 hl
      have := (mem_upTo _ _ _).1 hi
      simp only [lineOf]; omega
    have here : (w.place (max a l)).memory = true := by
      have there := mem l hl
      rw [← line] at there
      rw [hw.place, World.place_of_lineOf there]
      exact there
    obtain ⟨v, hv, run⟩ := readLine_still (r := { r with w := w }) (n := min (a + n) (l + 128) - max a l) (h.alike hw) ag here
    exact ⟨v, hv, by rw [run, hw.bytes]⟩
  obtain ⟨v, hv, run⟩ := mapM_alike (fun l => readLine (max a l) (min (a + n) (l + 128) - max a l)) _ r _ each r.w (World.Alike.refl _)
  have whole := r.w.bytes_of_lines (a + n) ((a + n - 1) / 128 - a / 128) a (by omega) (by omega)
  rw [Nat.add_sub_cancel_left] at whole
  refine ⟨v, hv, ?_⟩
  have all : (lines a n).flatMap (fun l => r.w.bytes (max a l) (min (a + n) (l + 128) - max a l)) = r.w.bytes a n := by
    simpa only [lines, hn.ne', if_false] using whole
  simp [readP, run, List.flatMap_map, all]

/-! ### The answer to a remote read (R272) -/

/-- A mapped page is what a translation finds (R35 to R37, R39). -/
theorem State.mapped_found {s : State} {ag : Agent} {va pa : Nat} {write : Bool} (h : s.mapped ag va write = some pa) :
    s.toWorld.xlateFound ag (ag.job.getD 0) va write = .ok pa := by
  unfold State.mapped at h
  split at h
  next e walked =>
    simp only [Option.ite_none_right_eq_some, Bool.and_eq_true, Option.some.injEq] at h
    obtain ⟨⟨cached, admitted⟩, rfl⟩ := h
    have found : s.toWorld.entryFound ag (ag.job.getD 0) (bits va 47 21) = .ok e := by
      unfold World.entryFound
      split
      next c hc =>
        rw [hc] at cached
        have same : c.entry.toNat = e := by simpa using cached
        simp [walked, same]
      next => exact walked
    have right : (if write then e.testBit 2 else e.testBit 1) = true := by cases write <;> exact admitted
    simp only [World.xlateFound, found, right, if_true]
  next => cases h

/-- A span lies in one page, and all its lines in memory. -/
theorem State.span_mapped {s : State} {ag : Agent} {va n pa : Nat} {write : Bool} (h : s.span ag va n write = some pa) :
    s.mapped ag va write = some pa ∧ va % 0x200000 + n ≤ 0x200000 ∧ ∀ l ∈ lines pa n, (s.toWorld.place l).memory = true := by
  unfold State.span at h
  obtain ⟨mapped, ok⟩ := Option.filter_eq_some_iff.1 h
  simp only [Bool.and_eq_true, decide_eq_true_eq, List.all_eq_true] at ok
  obtain ⟨page, mem⟩ := ok
  exact ⟨mapped, page, mem⟩

/-- What a job may read at a virtual address is read, with no poison. -/
theorem State.readVB_still {s : State} {ag : Agent} {va n : Nat} {bs : List Byte} (still : s.still) (stove : ag.stove = none)
    (read : s.readAt ag va n = some bs) :
    ∃ v, s.toWorld.Alike v ∧
      (readVB va n).run (Run.init s.toWorld ag) = .ok (bs.map fun b => (b, false), { Run.init s.toWorld ag with w := v }) := by
  obtain ⟨pa, span, rfl⟩ := Option.map_eq_some_iff.1 read
  obtain ⟨mapped, page, mem⟩ := State.span_mapped span
  rcases Nat.eq_zero_or_pos n with rfl | hn
  · exact ⟨_, World.Alike.refl _, by simp [readVB, xlateRange, World.bytes]; rfl⟩
  obtain ⟨u, hu, xlate⟩ := xlateA_found (r := Run.init s.toWorld ag) still.world.sound (State.mapped_found mapped)
  obtain ⟨v, hv, run⟩ := readP_still (r := { Run.init s.toWorld ag with w := u }) (a := pa) hn (still.world.alike hu) stove
    (by intro l hl; rw [hu.place]; exact mem l hl)
  refine ⟨v, hu.trans hv, ?_⟩
  have bytes : ({ Run.init s.toWorld ag with w := u } : Run).w.bytes pa n = s.toWorld.bytes pa n :=
    congrFun (congrFun hu.bytes pa) n
  rw [bytes] at run
  have unmarked : ((s.toWorld.bytes pa n).zipIdx.map fun b => (b.1, false)) = (s.toWorld.bytes pa n).map fun b => (b, false) := by
    conv_rhs => rw [← List.zipIdx_map_fst 0 (s.toWorld.bytes pa n), List.map_map]
    rfl
  simp [readVB, xlateRange_page hn page, xlate, run, unmarked]

theorem World.onlyAsks_sendFlue (w : World) (p : Nat) (h : FabHdr) (m : FabMsg) : w.OnlyAsks (w.sendFlue p h m) := by
  refine World.OnlyAsks.trans ?_ (World.onlyAsks_out _ _)
  exact (w.onlyAsks_count _ _ _ _).trans (World.onlyAsks_noteFrame _ _ _)

theorem World.noteFrame_out (w : World) (page n : Nat) : (w.noteFrame page n).dev.out = w.dev.out := by
  unfold World.noteFrame
  split <;> rfl

theorem World.sendFlue_out (w : World) (p : Nat) (h : FabHdr) (m : FabMsg) :
    (w.sendFlue p h m).dev.out = w.dev.out ++ [.flue p h m] :=
  congrArg (fun o : List OutMsg => o ++ [.flue p h m]) (World.noteFrame_out (w.count _ _ _ _) _ _)

/-- An answer to another device leaves on the port that leads there; no port bars it (R252, R269). -/
theorem World.rreadAnswer_remote {w : World} {m : RReadMsg} {p : Nat} (rsp : RReadRsp) (far : m.srcDev ≠ w.devId)
    (port : w.outPort m.srcDev = some p) :
    w.rreadAnswer m rsp = w.sendFlue p ⟨m.srcDev, false, w.devId, 63, fabVc (.rreadRsp rsp)⟩ (.rreadRsp rsp) := by
  simp [World.rreadAnswer, far, World.fabricSend, port, World.onPort, World.legacyBars, fabVc]

/-- A remote read of a range that may be read, with memory at rest: its bytes leave on the port that leads to the asking device, and
nothing else changes but caches and the ports' own state. -/
theorem State.rreadServe_answers {s : State} {m : RReadMsg} {bs : List Byte} (still : s.still)
    (read : s.readAt (chmFor m.job) m.addr m.len = some bs) (far : m.srcDev ≠ s.toWorld.devId)
    (port : (s.toWorld.outPort m.srcDev).isSome = true) :
    ∃ v p h, s.toWorld.Alike v ∧
      s.toWorld.rreadServe m = (true, v.sendFlue p h (.rreadRsp ⟨m.tag, stOk, false, bs⟩)) := by
  obtain ⟨p, port⟩ := Option.isSome_iff_exists.1 port
  obtain ⟨v, alike, run⟩ := State.readVB_still still rfl read
  have clean : (bs.map fun b => (b, false)).any Prod.snd = false := by simp
  have bytes : (bs.map fun b => (b, false)).map Prod.fst = bs := by simp [Function.comp_def]
  rw [← alike.devId] at far
  rw [← alike.outPort] at port
  refine ⟨v, p, ⟨m.srcDev, false, v.devId, 63, 1⟩, alike, ?_⟩
  simp only [World.rreadServe, run, clean, bytes]
  rw [World.rreadAnswer_remote _ far port]
  rfl

/-! ### OPT_OPENs that the end of a read lets go (R185, R189) -/

/-- `b` has the stores and the passed reads of `a`, and the readers of all its regions. -/
structure World.SameReaders (a b : World) : Prop where
  log : b.log = a.log
  passed : b.dev.blw.passed = a.dev.blw.passed
  region : ∀ i r, a.region i = some r → ∃ x, b.region i = some x ∧ x.readers = r.readers

theorem World.SameReaders.refl (w : World) : w.SameReaders w := ⟨rfl, rfl, fun _ r h => ⟨r, h, rfl⟩⟩

theorem World.SameReaders.trans {a b c : World} (h : a.SameReaders b) (k : b.SameReaders c) : a.SameReaders c := by
  refine ⟨k.log.trans h.log, k.passed.trans h.passed, fun i r hr => ?_⟩
  obtain ⟨x, hx, same⟩ := h.region i r hr
  obtain ⟨y, hy, same'⟩ := k.region i x hx
  exact ⟨y, hy, same'.trans same⟩

theorem World.SameGates.readers {a b : World} (h : a.SameGates b) : a.SameReaders b :=
  ⟨h.log, by rw [h.blw], fun i r hr => ⟨r, by rw [World.region, h.blw]; exact hr, rfl⟩⟩

/-- A region as an OPT_OPEN of a step leaves it. -/
def Region.opened (r : Region) (step : Nat) : Region :=
  match r.arm with
  | some a => if a.streams && a.step == step then { r with isOpen := true } else r
  | none => r

theorem Region.opened_spec (r : Region) (step : Nat) : (r.opened step).index = r.index ∧ (r.opened step).readers = r.readers := by
  unfold Region.opened
  split
  · split <;> exact ⟨rfl, rfl⟩
  · exact ⟨rfl, rfl⟩

theorem World.openRegion_eq (w : World) (i step : Nat) : w.openRegion i step = w.modRegion i fun r => r.opened step := rfl

theorem World.sameReaders_openRegion (w : World) (i step : Nat) : w.SameReaders (w.openRegion i step) := by
  rw [World.openRegion_eq]
  have index : ∀ x : Region, (x.opened step).index = x.index := fun x => (x.opened_spec step).1
  refine ⟨rfl, rfl, fun j r hr => ?_⟩
  by_cases h : i = j
  · subst h
    exact ⟨r.opened step, by rw [w.region_modRegion i _ index, hr]; rfl, (r.opened_spec step).2⟩
  · exact ⟨r, by rw [w.region_modRegion_other _ index h, hr], rfl⟩

theorem World.sameReaders_settleOpens (w : World) : w.SameReaders w.settleOpens := by
  unfold World.settleOpens
  refine List.foldlRecOn _ _ (World.SameReaders.refl w) fun v hv ring _ => ?_
  dsimp only
  split
  · exact hv
  next e _ =>
    have opened := hv.trans (v.sameReaders_openRegion ((vecOf e.desc).b % 2 ^ 14) (stepOf e.desc))
    generalize v.openRegion ((vecOf e.desc).b % 2 ^ 14) (stepOf e.desc) = u at opened ⊢
    split
    · split
      · exact opened.trans (u.sameGates_endCmd _ _ _ _).readers
      · exact opened
    · exact opened

/-- With no OPT_OPEN waiting, none completes. -/
theorem World.settleOpens_none {w : World} (h : ∀ q ∈ w.dev.rings, ∀ x ∈ q.entries, x.phase ≠ .optOpen) : w.settleOpens = w := by
  unfold World.settleOpens
  refine List.foldlRecOn (motive := fun v : World => v = w) _ _ rfl fun v hv q hq => ?_
  have absent : (q.entries.find? fun e => e.phase == .optOpen) = none :=
    List.find?_eq_none.2 fun x hx => by simpa using h q hq x hx
  simp only [absent]
  exact hv

/-! ### A read whose data has returned (R189) -/

/-- A passed read is no reader of its slot any more. -/
def World.release (w : World) (i slot : Nat) (p : GateRead × Nat) : World :=
  (w.upd fun d => { d with blw := { d.blw with passed := d.blw.passed.erase p } }).modRegion i fun r => r.modReaders slot (· - 1)

theorem World.region_release {w : World} {i : Nat} {r : Region} (h : w.region i = some r) (slot : Nat) (p : GateRead × Nat) :
    (w.release i slot p).region i = some (r.modReaders slot (· - 1)) := by
  have there : (w.upd fun d => { d with blw := { d.blw with passed := d.blw.passed.erase p } }).region i = some r := h
  rw [World.release, World.region_modRegion _ _ _ fun r => r.modReaders_index slot _, there]
  rfl

theorem World.writePend_unarmed {w : World} {i : Nat} {r : Region} (h : w.region i = some r) (arm : r.arm = none) :
    w.writePend i = w := by
  simp only [World.writePend, h, arm]

/-- The first passed read of a slot whose data is served leaves; nothing waits for the slot of a region that is not armed. -/
theorem World.readerDone_served {w v : World} {i slot : Nat} {q : GateRead × Nat} {r : Region}
    (found : (w.dev.blw.passed.find? fun p => p.1.wreg == i && p.2 == slot) = some q) (serve : (w.gateServe q.1).1 = some v)
    (region : v.region i = some r) (arm : r.arm = none) : w.readerDone i slot = (v.release i slot q).settleOpens := by
  have unarmed := World.writePend_unarmed (World.region_release region slot q) (by rw [r.modReaders_arm, arm])
  unfold World.readerDone
  rw [found]
  dsimp only
  generalize w.gateServe q.1 = served at serve
  obtain ⟨served, u⟩ := served
  obtain rfl : served = some v := serve
  exact congrArg World.settleOpens unarmed

theorem exec_readerRelease {s : State} (live : s.dev.live = true) (i slot : Nat) :
    exec (.readerRelease i slot) s = .next (s.commit (s.toWorld.readerDone i slot)) := State.run_live live fun w => w.readerDone i slot

theorem readerRelease_served {s : State} {i slot : Nat} {q : GateRead × Nat} {w : World} {r : Region} (live : s.dev.live = true)
    (found : (s.dev.blw.passed.find? fun p => p.1.wreg == i && p.2 == slot) = some q)
    (serve : (s.toWorld.gateServe q.1).1 = some w) (region : w.region i = some r) (arm : r.arm = none) :
    ∃ t x, exec (.readerRelease i slot) s = .next t ∧ t.dev.blw.passed = w.dev.blw.passed.erase q ∧
      t.toWorld.region i = some x ∧ x.readers slot = r.readers slot - 1 ∧ t.mem = memCommit s.mem w.log ∧
      t.pending = s.pending ∧ t.sec = s.sec := by
  obtain ⟨log, passed, regions⟩ := (w.release i slot q).sameReaders_settleOpens
  obtain ⟨x, there, readers⟩ := regions i _ (World.region_release region slot q)
  refine ⟨_, x, exec_readerRelease live i slot, ?_⟩
  rw [World.readerDone_served (w := s.toWorld) found serve region arm]
  exact ⟨passed, there, by rw [readers, r.readers_modReaders], congrArg (memCommit s.mem) log, rfl, rfl⟩

theorem readerRelease_remote {s : State} {i slot : Nat} {g : GateRead} {m : RReadMsg} {r : Region} {bs : List Byte}
    (live : s.dev.live = true) (still : s.still) (hslot : slot < 2)
    (found : (s.dev.blw.passed.find? fun p => p.1.wreg == i && p.2 == slot) = some (g, slot)) (req : g.req = .remote m)
    (region : s.toWorld.region i = some r) (arm : r.arm = none) (noOpens : ∀ q ∈ s.dev.rings, ∀ x ∈ q.entries, x.phase ≠ .optOpen)
    (read : s.readAt (chmFor m.job) m.addr m.len = some bs) (far : m.srcDev ≠ s.toWorld.devId)
    (port : (s.toWorld.outPort m.srcDev).isSome = true) :
    ∃ t x p h, exec (.readerRelease i slot) s = .next t ∧ t.dev.blw.passed = s.dev.blw.passed.erase (g, slot) ∧
      t.toWorld.region i = some x ∧ x.readers slot = r.readers slot - 1 ∧ x.readers (1 - slot) = r.readers (1 - slot) ∧
      t.dev.out = s.dev.out ++ [.flue p h (.rreadRsp ⟨m.tag, stOk, false, bs⟩)] ∧ t.mem = s.mem ∧ t.pending = s.pending ∧
      t.sec = s.sec := by
  obtain ⟨v, p, h, alike, answer⟩ := State.rreadServe_answers still read far port
  let w := v.sendFlue p h (.rreadRsp ⟨m.tag, stOk, false, bs⟩)
  have serve : (s.toWorld.gateServe g).1 = some w := by simp only [World.gateServe, req, answer, w]
  obtain ⟨dev, -, log⟩ := v.onlyAsks_sendFlue p h (.rreadRsp ⟨m.tag, stOk, false, bs⟩)
  have blw : w.dev.blw = s.dev.blw := (congrArg Dev.blw dev).trans alike.blw
  have rings : w.dev.rings = s.dev.rings := (congrArg Dev.rings dev).trans alike.rings
  have out : w.dev.out = s.dev.out ++ [.flue p h (.rreadRsp ⟨m.tag, stOk, false, bs⟩)] := by
    rw [← show v.dev.out = s.dev.out from alike.out]
    exact v.sendFlue_out _ _ _
  have region' : w.region i = some r := by rw [World.region, blw]; exact region
  have settled : (w.release i slot (g, slot)).settleOpens = w.release i slot (g, slot) :=
    World.settleOpens_none fun q hq => noOpens q (rings ▸ hq)
  refine ⟨_, r.modReaders slot (· - 1), p, h, exec_readerRelease live i slot, ?_⟩
  rw [World.readerDone_served (w := s.toWorld) found serve region' arm, settled]
  refine ⟨congrArg (fun b : Blw => b.passed.erase (g, slot)) blw, World.region_release region' slot _, r.readers_modReaders _,
    r.readers_modReaders_other hslot _, out, ?_, rfl, rfl⟩
  exact congrArg (memCommit s.mem) (log.trans alike.log)

/-- Settles O33: the gate's table by d, a read at its gate by the gate's verdict, a parked read by the second check and by its
deadline, and a passed read by what serves it. -/
theorem gatesPassParkAndRefuseReads : Obligations.GatesPassParkAndRefuseReads :=
  ⟨⟨fun _ e hcv => ⟨fun frozen => Region.gate_frozen frozen e, fun thawed =>
        ⟨Region.gate_current hcv thawed, Region.gate_next hcv thawed, Region.gate_previous hcv thawed, Region.gate_older hcv thawed⟩⟩,
      fun _ _ live asked => ⟨fun _ _ => gatedRead_passes live asked, gatedRead_waits live asked,
        fun _ _ req entry _ => gatedRead_refused live asked req entry⟩,
      fun _ _ => parkedReadRelease_acts,
      fun _ _ _ _ _ live parked deadline req entry _ => versionWaitTimeout_ends live parked deadline req entry,
      fun _ _ _ _ _ _ live _ => readerRelease_served live⟩,
    fun _ _ _ _ _ _ _ => readerRelease_remote⟩

end Sys2Proof.Machine

/-! # A close that no port carries (R244, R252)

O22 lets a CHN_CLOSE meet any open flow and says that memory stays. A flow's peer may be another device to which no port leads any more:
its close is discarded by routing, with EV_UE, and the event's record is stored. -/

namespace Sys2Proof.Machine

/-- No link fails where no die's page reports a fault (R20, R452). -/
theorem State.linked_of_faultless {s : State}
    (h : ∀ page ∈ upTo 0x100 8 ++ upTo 0x120 4 ++ [0x8C], bit (s.reg (rk page 0x018)) 2 = false) (x y : Nat) :
    s.toWorld.dieCut x y = false := by
  have sound : ∀ x y, s.toWorld.endFailed x y = false := fun x y => by
    unfold World.endFailed
    split
    · rfl
    next page off n link =>
      have there : page ∈ upTo 0x100 8 ++ upTo 0x120 4 ++ [0x8C] := by
        unfold linkState at link
        simp only [List.mem_append, mem_upTo, List.mem_singleton]
        split_ifs at link <;> simp only [Option.some.injEq, Prod.mk.injEq] at link <;> omega
      rw [State.toWorld_reg, h page there, Bool.false_and]
  exact List.any_eq_false.2 fun l _ => by simp [sound]

namespace Unrouted

/-- CHN_CLOSE of context 7. -/
def closeDesc : Desc := ⟨0x25, 0, 7, 0, 0, 0, 0, 0⟩

/-- It is read and not started in ring 0 of stove 0. -/
def closeEntry : Entry := { idx := 0, desc := closeDesc, phase := .read }
def ring : RingId := stoveRing 0 0

/-- An open flow of stove 0 to a ring of device 5. -/
def flow : SFlow where
  ctx := 7
  job := 0
  stove := 0
  target := 5
  epoch := 0
  peerDev := 5
  peerNode := 0
  peerCtx := 4
  st := .isOpen
  cmd := none
  result := 0
  deadline := 0
  maxmsg := 64
  maxbulk := 0
  log2 := 12
  mbq := false
  ash := 0
  nb := 0
  tail := 0
  head := 0
  aTail := 0
  aHead := 0
  mseq := 0
  bulks := 0
  bulkEnds := []
  since := none
  ovfAt := 0
  stallAt := 0
  stalled := false
  spilled := []
  reason := none
  res := (0, 0)

/-- Device 0 has no route to device 5. The routing page raises its events, and the event ring of port 0 lies at 0x10000. -/
def closing : State where
  pending := []
  mem := Unmentioned.words [(0x200000, 0x400001), (0x400000, 0x7)]
  dev := { Dev.reset with
    regs := (rk 6 0x010, 9) :: (rk 0x10 0x0C0, 0x10019) :: (rgk ring 0, 9) :: (rgk ring 0x20, 1) :: Unmentioned.regs
    jobs := [Unmentioned.job]
    rings := [⟨ring, 1, [closeEntry], none, 0, false, false⟩]
    chn := ⟨[], [], [flow], []⟩ }
  sec := State.reset.sec

theorem closing_ready : closing.ready ⟨ring, closeDesc⟩ closeEntry 0x25 :=
  ⟨⟨by decide +kernel, by decide +kernel, rfl, rfl, rfl, rfl, by decide +kernel, rfl, by decide +kernel,
    State.linked_of_faultless (by decide +kernel)⟩, by decide +kernel⟩

/-- The row stores the record of EV_UE: its byte 0 is the event's number, 1. -/
theorem closing_stores_event : nextByte (exec (.chnClose ⟨ring, closeDesc⟩) closing) 0x10000 = some 1 := by decide +kernel

end Unrouted

/-- Refutes O22: its clause on CHN_CLOSE does not ask that a port lead to the flow's peer. The close of a flow to a device without a
route is discarded by routing (R252), and the record of that event is stored, so memory is not as before. -/
theorem not_channelCommandsAndPostedRings : ¬ Obligations.ChannelCommandsAndPostedRings := by
  rintro ⟨-, ⟨-, -, -, closes, -⟩, -⟩
  obtain ⟨t, -, -, next, -, -, -, -, -, -, -, mem, -⟩ := closes Unrouted.closing ⟨Unrouted.ring, Unrouted.closeDesc⟩ Unrouted.closeEntry 0 7
    Unrouted.flow Unrouted.closing_ready (by decide +kernel) (by decide +kernel) (by decide +kernel) (by decide +kernel) rfl
    (by decide +kernel) rfl rfl rfl rfl rfl
  have stored : t.byteAt 0x10000 = 1 := by simpa [next, nextByte] using Unrouted.closing_stores_event
  rw [State.byteAt, mem] at stored
  exact absurd stored (by decide +kernel)

end Sys2Proof.Machine

/-! # What stores and messages leave of the channels (R34, R252, R339, R368)

A store may wait at a home, be captured first, cross to a host or a guest, or find nothing and be reported by events and error records,
which are stores again; a message may leave on a port or be discarded with an event. Whatever comes of it, flows, posted rings, the
rings' commands, the time and the channels' own registers stay (`World.Beside`). -/

namespace Sys2Proof.Machine

/-! ### Worlds with the same flows -/

/-- `b` has the posted rings, the flows and the time of `a`. -/
structure World.SameFlows (a b : World) : Prop where
  posted : b.dev.chn.rings = a.dev.chn.rings
  sending : b.dev.chn.sflows = a.dev.chn.sflows
  receiving : b.dev.chn.rflows = a.dev.chn.rflows
  gtime : b.dev.gtime = a.dev.gtime

/-- The registers that the channels alone write: CHN_EP, and what is at 0x098 of a die's channel page (R246). -/
def chnKey (k : Nat) : Prop := 0x110 ≤ k / 0x1000 ∧ k / 0x1000 < 0x118 ∧ (k % 0x1000 = 0x098 ∨ 0x800 ≤ k % 0x1000)

/-- `b` has the flows, the rings' commands, the time and the channels' own registers of `a`. -/
structure World.Beside (a b : World) : Prop extends World.SameFlows a b where
  rings : b.dev.rings = a.dev.rings
  reg : ∀ k, chnKey k → b.reg k = a.reg k

theorem World.SameFlows.refl (w : World) : w.SameFlows w := ⟨rfl, rfl, rfl, rfl⟩

theorem World.SameFlows.trans {a b c : World} (h : a.SameFlows b) (k : b.SameFlows c) : a.SameFlows c :=
  ⟨k.posted.trans h.posted, k.sending.trans h.sending, k.receiving.trans h.receiving, k.gtime.trans h.gtime⟩

theorem World.SameFlows.sflow {a b : World} (h : a.SameFlows b) (c : Nat) : b.sflow c = a.sflow c := by
  rw [World.sflow, h.sending]; rfl

theorem World.SameFlows.rflow {a b : World} (h : a.SameFlows b) (c : Nat) : b.rflow c = a.rflow c := by
  rw [World.rflow, h.receiving]; rfl

theorem World.Beside.refl (w : World) : w.Beside w := ⟨World.SameFlows.refl w, rfl, fun _ _ => rfl⟩

theorem World.Beside.trans {a b c : World} (h : a.Beside b) (k : b.Beside c) : a.Beside c :=
  ⟨h.toSameFlows.trans k.toSameFlows, k.rings.trans h.rings, fun x hx => (k.reg x hx).trans (h.reg x hx)⟩

theorem World.Beside.foldl {α : Type} {f : World → α → World} (h : ∀ w x, World.Beside w (f w x)) (l : List α) (w : World) :
    w.Beside (l.foldl f w) :=
  List.foldlRecOn _ _ (World.Beside.refl w) fun v hv x _ => hv.trans (h v x)

theorem World.Beside.ite {a b c : World} {p : Prop} [Decidable p] (hb : a.Beside b) (hc : a.Beside c) :
    a.Beside (if p then b else c) := by
  split
  · exact hb
  · exact hc

/-- A change of other units. -/
theorem World.beside_upd (w : World) (f : Dev → Dev)
    (h : (f w.dev).chn = w.dev.chn ∧ (f w.dev).gtime = w.dev.gtime ∧ (f w.dev).rings = w.dev.rings ∧ (f w.dev).regs = w.dev.regs := by
      exact ⟨rfl, rfl, rfl, rfl⟩) : w.Beside (w.upd f) := by
  obtain ⟨chn, gtime, rings, regs⟩ := h
  exact ⟨⟨congrArg Chn.rings chn, congrArg Chn.sflows chn, congrArg Chn.rflows chn, gtime⟩, rings, fun k _ => by
    rw [World.reg, World.upd_dev, regs]; rfl⟩

theorem World.beside_push (w : World) (op : MemOp) : w.Beside (w.push op) := ⟨⟨rfl, rfl, rfl, rfl⟩, rfl, fun _ _ => rfl⟩

theorem World.beside_setReg (w : World) {k : Nat} (v : U64) (h : ¬ chnKey k) : w.Beside (w.setReg k v) := by
  refine ⟨⟨rfl, rfl, rfl, rfl⟩, rfl, fun j hj => ?_⟩
  rw [World.reg_setReg, if_neg]
  rintro rfl
  exact h hj

theorem World.beside_modReg (w : World) {k : Nat} (f : U64 → U64) (h : ¬ chnKey k) : w.Beside (w.modReg k f) := w.beside_setReg _ h
theorem World.beside_setRf (w : World) {k : Nat} (hi lo v : Nat) (h : ¬ chnKey k) : w.Beside (w.setRf k hi lo v) := w.beside_setReg _ h
theorem World.beside_count (w : World) {k : Nat} (hi lo n : Nat) (h : ¬ chnKey k) : w.Beside (w.count k hi lo n) := w.beside_setReg _ h

/-- The registers below 0x800 of a page but for those at 0x098. -/
theorem not_chnKey_low {page off : Nat} (h : off < 0x800 ∧ off ≠ 0x098 := by decide) : ¬ chnKey (rk page off) := by
  rintro ⟨-, -, hk⟩
  simp only [rk] at hk
  omega

/-- The registers of the other pages. -/
theorem not_chnKey_page {page off : Nat} (h : page < 0x110 ∨ 0x118 ≤ page) (hoff : off < 0x1000 := by decide) :
    ¬ chnKey (rk page off) := by
  rintro ⟨h1, h2, -⟩
  simp only [rk] at h1 h2
  omega

theorem chnKey_epKey {stove ep : Nat} (hs : stove < 256) (he : ep < 8) : chnKey (epKey stove ep) := by
  simp only [chnKey, epKey, rk, chnPage]
  omega

theorem chnKey_count {die : Nat} (h : die < 8) : chnKey (rk (chnPage die) 0x098) := by
  simp only [chnKey, rk, chnPage]
  omega

/-! ### Messages to hosts and guests -/

theorem World.beside_noteFrame (w : World) (page n : Nat) : w.Beside (w.noteFrame page n) := by
  unfold World.noteFrame
  split
  · exact World.Beside.refl w
  · exact w.beside_upd _

theorem World.beside_sendUrk (w : World) (op : Nat) (m : UrkPkt) : w.Beside (w.sendUrk op m) :=
  ((w.beside_count _ _ _ not_chnKey_low).trans (World.beside_noteFrame _ _ _)).trans (World.beside_upd _ _)

theorem World.beside_snoop1 (w : World) (line : Nat) (share : Bool) (p : Nat) : w.Beside (w.snoop1 line share p) :=
  World.Beside.ite (World.Beside.refl w)
    (((w.beside_count _ _ _ not_chnKey_low).trans (World.beside_sendUrk _ _ _)).trans (World.beside_upd _ _))

theorem World.beside_snoop (w : World) (line : Nat) (share : Bool) (keep : Option Nat) : w.Beside (w.snoop line share keep) := by
  unfold World.snoop
  split
  · exact World.Beside.refl w
  · exact World.Beside.ite (World.Beside.refl w) (World.Beside.foldl (fun v p => v.beside_snoop1 line share p) _ w)

theorem World.beside_queueHome (w : World) (h : HomeWait) : w.Beside (w.queueHome h) := w.beside_upd _
theorem World.beside_addReq (w : World) (q : DevReq) : w.Beside (w.addReq q) := w.beside_upd _
theorem World.beside_newTag (w : World) (port : Nat) : w.Beside (w.newTag port).2 := by
  unfold World.newTag
  dsimp only
  exact w.beside_upd _

theorem World.beside_sendGuest (w : World) (site : Nat) (p : NetPkt) : w.Beside (w.sendGuest site p) := by
  unfold World.sendGuest
  split
  · exact World.Beside.refl w
  · exact w.beside_upd _

theorem World.beside_sendFlue (w : World) (p : Nat) (h : FabHdr) (m : FabMsg) : w.Beside (w.sendFlue p h m) :=
  ((w.beside_count _ _ _ not_chnKey_low).trans (World.beside_noteFrame _ _ _)).trans (World.beside_upd _ _)

/-! ### Writes at the homes -/

theorem World.beside_pruneUpsets (w : World) : w.Beside w.pruneUpsets := World.Beside.ite (World.Beside.refl w) (w.beside_upd _)

theorem World.beside_touch (w : World) (a n : Nat) (write : Bool) : w.Beside (w.touch a n write) :=
  (w.beside_upd _).trans (World.beside_pruneUpsets _)

theorem World.beside_markPoison (w : World) (g : Nat) : w.Beside (w.markPoison g) := by
  unfold World.markPoison
  split
  · exact World.Beside.refl w
  dsimp only
  split
  · split
    · exact (w.beside_push _).trans (World.beside_count _ _ _ _ (not_chnKey_page (by omega)))
    · exact w.beside_push _
  · exact w.beside_push _

theorem World.beside_noteTriggers (w : World) (a n : Nat) : w.Beside (w.noteTriggers a n) := by
  obtain ⟨ready, e⟩ := w.noteTriggers_spec a n
  rw [e]
  exact w.beside_upd _

theorem World.beside_put (w : World) (a : Nat) (bs : List Byte) : w.Beside (w.put a bs) := by
  unfold World.put
  refine World.Beside.trans (World.Beside.trans ?_ (World.Beside.foldl (fun v g => ?_) _ _)) (World.beside_noteTriggers _ _ _)
  · exact (w.beside_push _).trans (World.Beside.ite (World.Beside.refl _) (World.beside_upd _ _))
  · exact World.Beside.ite (v.beside_push _) (World.Beside.refl v)

theorem World.beside_poisonHome (w : World) (cmd : Option (RingId × Nat)) (job : Option Nat) (g : Nat) :
    w.Beside (w.poisonHome cmd job g) := World.Beside.ite (w.beside_queueHome _) (w.beside_markPoison _)

theorem World.beside_putHome (w : World) (cmd : Option (RingId × Nat)) (job : Option Nat) (a : Nat) (bs : List Byte) :
    w.Beside (w.putHome cmd job a bs) :=
  World.Beside.ite ((w.beside_snoop _ _ _).trans (World.beside_queueHome _ _)) (w.beside_put _ _)

theorem World.beside_hostStore (w : World) (cmd : Option (RingId × Nat)) (job : Option Nat) (sink : Bool) (p a : Nat)
    (bs : List Byte) : w.Beside (w.hostStore cmd job sink p a bs) := by
  refine World.Beside.ite (w.beside_queueHome _) ?_
  refine World.Beside.trans ?_ (World.beside_addReq _ _)
  exact ((w.beside_newTag p).trans (World.beside_push _ _)).trans (World.beside_sendUrk _ _ _)

/-! ### The snapshot rule -/

theorem World.beside_setRun (w : World) (f : SnapRun → SnapRun) : w.Beside (w.setRun f) := w.beside_upd _

/-- Bytes written at the homes of their lines, at once where no line is held or asked for. -/
theorem World.beside_homeWrites (w : World) (idle : Bool) (a : Nat) (bs : List Byte) :
    w.Beside (if idle then w.put a bs else (linePieces a bs).foldl (fun w p => w.putHome none none p.1 p.2) w) := by
  split
  · exact w.beside_put a bs
  · refine World.Beside.foldl (fun v p => ?_) _ _
    exact v.beside_putHome none none p.1 p.2

theorem World.beside_engineWrite (w : World) (a : Nat) (bs : List Byte) (marks : List Nat) : w.Beside (w.engineWrite a bs marks) := by
  unfold World.engineWrite
  split
  case h_3 => exact w.beside_setRun _
  all_goals
    refine ((w.beside_touch a bs.length true).trans (World.beside_homeWrites _ _ a bs)).trans (World.Beside.foldl (fun v g => ?_) _ _)
    exact v.beside_poisonHome none none g

theorem World.beside_sinkWrite (w : World) (a : Nat) (bs : List Byte) : w.Beside (w.sinkWrite a bs) := by
  unfold World.sinkWrite
  dsimp only
  split
  · exact w.beside_setRun _
  · refine World.Beside.foldl (fun v c => ?_) _ _
    exact v.beside_hostStore _ _ _ _ _ _

theorem World.beside_emberWrite (w : World) (m : FabMsg) : w.Beside (w.emberWrite m) := by
  unfold World.emberWrite
  dsimp only
  split
  · split
    · exact World.Beside.ite (w.beside_setRun _) (w.beside_engineWrite _ _ _)
    · exact World.Beside.refl w
  · split
    · exact w.beside_sendFlue _ _ _
    · exact w.beside_setRun _

theorem World.beside_capture (w : World) (i : Nat) : w.Beside (w.capture i) := by
  unfold World.capture
  split
  next r a e _ _ =>
    refine World.Beside.ite (World.Beside.refl w) ?_
    extract_lets bm u v x marks data n dst y k dg z z'
    have shown : w.Beside x :=
      ((((w.beside_engineWrite _ _ _).trans (World.beside_setRun _ _)).trans (World.beside_modReg _ _ not_chnKey_low)).trans
        (World.beside_touch _ _ _ _))
    have ember : w.Beside y := shown.trans
      (World.Beside.ite ((World.beside_engineWrite _ _ _ _).trans (World.beside_emberWrite _ _)) (World.Beside.refl _))
    have digest : w.Beside z' := (ember.trans (World.beside_engineWrite _ _ _ _)).trans (World.beside_setRun _ _)
    refine World.Beside.ite (World.Beside.ite ?_ ?_) ember
    · exact digest.trans (World.beside_setRun _ _)
    · exact digest.trans (World.beside_sinkWrite _ _ _)
  next => exact World.Beside.refl w

theorem World.beside_snapBefore (w : World) (a : Nat) : w.Beside (w.snapBefore a) := by
  unfold World.snapBefore
  split
  · exact w.beside_capture _
  · exact World.Beside.refl w

/-! ### Stores -/

theorem World.beside_putScratch (w : World) (ag : Agent) (s a : Nat) (bs : List Byte) : w.Beside (w.putScratch ag s a bs) := by
  refine World.Beside.ite (w.beside_put _ _) ((w.beside_putHome _ _ _ _).trans (World.Beside.foldl (fun v g => ?_) _ _))
  refine World.Beside.ite ?_ (World.Beside.refl v)
  exact (v.beside_upd _).trans (World.Beside.ite (World.beside_push _ _) (World.Beside.refl _))

theorem World.beside_guestStore (w : World) (g : Nat) (ag : Agent) (a : Nat) (bs : List Byte) : w.Beside (w.guestStore g ag a bs) := by
  refine World.Beside.ite (w.beside_queueHome _) ?_
  refine World.Beside.trans ?_ (World.beside_addReq _ _)
  exact ((w.beside_push _).trans (World.beside_newTag _ _)).trans (World.beside_sendGuest _ _ _)

/-- A site of a guest window. -/
theorem World.guest_of_place {w : World} {a g : Nat} (h : w.place a = .guest g) : g < 2 := by
  unfold World.place at h
  dsimp only at h
  split_ifs at h with _ _ _ _ _ _ window
  rw [Place.guest.injEq] at h
  simp only [guestBase, guestEnd] at window h
  omega

/-- What is reported of a store that finds nothing leaves the channels. -/
structure Misses.Beside (x : Misses) : Prop where
  miss : ∀ w ag a, World.Beside w (x.miss w ag a)
  deny : ∀ w g ag a, g < 2 → World.Beside w (x.deny w g ag a)

/-- A way to store bytes leaves the channels. -/
def StoresBeside (st : Storer) : Prop := ∀ w ag a bs, World.Beside w (st w ag a bs)

theorem World.beside_storeLineBy {x : Misses} (hx : x.Beside) (w : World) (ag : Agent) (a : Nat) (bs : List Byte) :
    w.Beside (w.storeLineBy x ag a bs) := by
  unfold World.storeLineBy
  have home : w.Beside (if (w.touch a bs.length true).lineHeld (lineOf a) then
      ((w.touch a bs.length true).snoop (lineOf a) false none).queueHome ⟨lineOf a, .write a bs, ag.cmd, ag.job⟩
      else ((w.touch a bs.length true).snapBefore a).put a bs) :=
    (w.beside_touch _ _ _).trans (World.Beside.ite ((World.beside_snoop _ _ _ _).trans (World.beside_queueHome _ _))
      ((World.beside_snapBefore _ _).trans (World.beside_put _ _ _)))
  refine World.Beside.ite (World.Beside.refl w) ?_
  split
  · exact home
  · exact home
  · exact w.beside_putScratch _ _ _ _
  · exact World.Beside.ite ((w.beside_push _).trans (World.beside_upd _ _)) (w.beside_hostStore _ _ _ _ _ _)
  next g place => exact World.Beside.ite (w.beside_guestStore _ _ _ _) (hx.deny _ _ _ _ (World.guest_of_place place))
  · exact World.Beside.refl w
  · exact hx.miss _ _ _
  · exact hx.miss _ _ _

theorem World.beside_storeBy {x : Misses} (hx : x.Beside) : StoresBeside (World.storeBy x) := fun w ag a bs => by
  unfold World.storeBy
  refine World.Beside.foldl (fun v p => ?_) _ _
  exact v.beside_storeLineBy hx ag p.1 p.2

/-! ### Reports, and the stores that they are -/

theorem World.beside_errRecordBy {st : Storer} (hst : StoresBeside st) (w : World) (wb type stack pch job sym pa node : Nat) :
    w.Beside (World.errRecordBy st w wb type stack pch job sym pa node) := by
  refine (w.beside_upd _).trans (World.Beside.ite ?_ (World.beside_count _ _ _ _ not_chnKey_low))
  exact ((hst _ _ _ _).trans (World.beside_count _ _ _ _ not_chnKey_low)).trans (World.beside_modReg _ _ not_chnKey_low)

theorem World.beside_deliverBy {st : Storer} (hst : StoresBeside st) (w : World) (p page cause : Nat) (d0 d1 : U64) :
    w.Beside (World.deliverBy st w p page cause d0 d1).2 := by
  unfold World.deliverBy
  extract_lets u old n v base ptr size used tail x y line
  have numbered : w.Beside v := w.beside_setReg _ not_chnKey_low
  have stored : w.Beside y :=
    ((numbered.trans (hst _ _ _ _)).trans (World.beside_count _ _ _ _ not_chnKey_low)).trans (World.beside_setRf _ _ _ _ not_chnKey_low)
  split
  · exact World.Beside.ite stored (stored.trans (hst _ _ _ _))
  · exact numbered.trans (World.beside_count _ _ _ _ not_chnKey_low)

theorem World.beside_raiseBy {st : Storer} (hst : StoresBeside st) (w : World) (port : Option Nat) (page code qual : Nat) (d0 d1 : U64) :
    w.Beside (World.raiseBy st w port page code qual d0 d1).2 := by
  unfold World.raiseBy
  extract_lets ctl mask v x
  have shown : w.Beside x :=
    (World.Beside.ite (w.beside_modReg _ not_chnKey_low) (World.Beside.refl w)).trans (World.beside_count _ _ _ _ not_chnKey_low)
  split
  · exact shown
  split
  · exact shown
  · exact (shown.trans (World.beside_count _ _ _ _ not_chnKey_low)).trans (World.beside_deliverBy hst _ _ _ _ _ _)

theorem World.beside_unmappedBy {st : Storer} (hst : StoresBeside st) (w : World) (ag : Agent) (a : Nat) :
    w.Beside (World.unmappedBy st w ag a) :=
  (World.beside_errRecordBy hst w _ _ _ _ _ _ _ _).trans (World.beside_raiseBy hst _ _ _ _ _ _ _)

theorem World.beside_fwDenyBy {st : Storer} (hst : StoresBeside st) (w : World) {site : Nat} (h : site < 2) (dir type : Nat)
    (job : Option Nat) (src a : Nat) (isolate : Bool) : w.Beside (World.fwDenyBy st w site dir type job src a isolate) := by
  refine World.Beside.trans ?_ (World.beside_raiseBy hst _ _ _ _ _ _ _)
  refine (w.beside_count 31 0 1 (not_chnKey_page (page := 8 + site) (off := 0x098) (by omega))).trans ?_
  exact World.Beside.ite (World.Beside.refl _) (World.beside_setReg _ _ not_chnKey_low)

theorem Misses.beside_silent : Misses.silent.Beside := ⟨fun w _ _ => World.Beside.refl w, fun w _ _ _ _ => World.Beside.refl w⟩

theorem Misses.beside_reported : Misses.reported.Beside :=
  ⟨fun w ag a => World.beside_unmappedBy (World.beside_storeBy Misses.beside_silent) w ag a,
    fun w _ ag a h => World.beside_fwDenyBy (World.beside_storeBy Misses.beside_silent) w h 1 2 ag.job ag.node a false⟩

theorem World.beside_storeLine (w : World) (ag : Agent) (a : Nat) (bs : List Byte) : w.Beside (w.storeLine ag a bs) :=
  w.beside_storeLineBy Misses.beside_reported ag a bs

theorem World.beside_store : StoresBeside World.store := World.beside_storeBy Misses.beside_reported

theorem World.beside_event (w : World) (page code qual : Nat) (d0 d1 : U64) : w.Beside (w.event page code qual d0 d1) :=
  World.beside_raiseBy World.beside_store w none page code qual d0 d1

/-! ### Messages of the channels -/

theorem World.beside_fabricSend (w : World) (job : Option Nat) (dst : Nat) (m : FabMsg) : w.Beside (w.fabricSend job dst m).2 := by
  unfold World.fabricSend World.sendNet
  split
  · dsimp only
    exact w.beside_upd _
  split
  · exact World.Beside.ite (w.beside_event _ _ _ _ _) (w.beside_sendFlue _ _ _)
  · exact w.beside_event _ _ _ _ _

/-- A change of the guests' flows. -/
theorem World.beside_gflows (w : World) (f : List GFlow → List GFlow) :
    w.Beside (w.upd fun d => { d with chn := { d.chn with gflows := f d.chn.gflows } }) :=
  ⟨⟨rfl, rfl, rfl, rfl⟩, rfl, fun _ _ => rfl⟩

theorem World.beside_noteFlows (w : World) : w.Beside w.noteFlows := by
  unfold World.noteFlows
  exact w.beside_modReg _ not_chnKey_low

theorem World.beside_dropGflow (w : World) (site ctx : Nat) : w.Beside (w.dropGflow site ctx) :=
  (w.beside_gflows _).trans (World.beside_noteFlows _)

theorem World.beside_guestAccept (w : World) (g : Nat) (a : AcceptMsg) : w.Beside (w.guestAccept g a) := by
  refine World.Beside.ite (w.beside_fabricSend _ _ _) (World.Beside.ite ?_ ?_)
  · exact ((w.beside_dropGflow _ _).trans (World.beside_fabricSend _ _ _ _)).trans (World.beside_sendGuest _ _ _)
  · exact (w.beside_gflows _).trans (World.beside_sendGuest _ _ _)

theorem World.beside_guestTell (w : World) (g : Nat) (m : FabMsg) : w.Beside (w.guestTell g m) := by
  unfold World.guestTell
  split
  · exact w.beside_guestAccept _ _
  · exact (w.beside_sendGuest _ _).trans (World.beside_dropGflow _ _ _)
  · exact w.beside_sendGuest _ _
  · exact (w.beside_sendGuest _ _).trans (World.Beside.ite (World.beside_gflows _ _) (World.beside_dropGflow _ _ _))
  · exact World.Beside.refl w

theorem World.beside_chnTo (w : World) (dev node : Nat) (m : FabMsg) : w.Beside (w.chnTo dev node m) := by
  unfold World.chnTo
  split
  · exact w.beside_fabricSend _ _ _
  · exact w.beside_guestTell _ _

theorem World.beside_pieceStore (ag : Agent) : ∀ (ps : List (Nat × Nat)) (w : World) (off : Nat) (bs : List Byte),
    w.Beside (w.pieceStore ag ps off bs)
  | [], w, _, _ => World.Beside.refl w
  | _ :: ps, w, _, _ =>
    World.Beside.ite (World.beside_pieceStore ag ps w _ _)
      (World.Beside.ite (World.beside_store w _ _ _) ((World.beside_store w _ _ _).trans (World.beside_pieceStore ag ps _ _ _)))

theorem World.beside_tailLine (w : World) (x : RxRing) (tail state reason ashb mseq : Nat) :
    w.Beside (w.tailLine x tail state reason ashb mseq) := World.beside_pieceStore _ _ w _ _

end Sys2Proof.Machine

/-! # The same access from another world

A command's end finds its address as the state had it: what the row has done to flows, messages and CHN_FLOW_CNT before changes no
translation (`World.SameMemory`). A computation that ends with a status of its own then stands done with it. -/

namespace Sys2Proof.Machine

/-! ### Worlds with the same memory -/

/-- `b` has of `a` all that decides where an access goes and what it finds: memory, the homes, translations, errors, snapshots, and the
registers from page 8 on. -/
structure World.SameMemory (a b : World) : Prop where
  mem : b.mem = a.mem
  log : b.log = a.log
  urk : b.dev.urk = a.dev.urk
  xlt : b.dev.xlt = a.dev.xlt
  free : b.dev.free = a.dev.free
  upsets : b.dev.upsets = a.dev.upsets
  snp : b.dev.snp = a.dev.snp
  reg : ∀ k, 0x8000 ≤ k → b.reg k = a.reg k

theorem World.SameMemory.refl (w : World) : w.SameMemory w := ⟨rfl, rfl, rfl, rfl, rfl, rfl, rfl, fun _ _ => rfl⟩

theorem World.SameMemory.trans {a b c : World} (h : a.SameMemory b) (k : b.SameMemory c) : a.SameMemory c :=
  ⟨k.mem.trans h.mem, k.log.trans h.log, k.urk.trans h.urk, k.xlt.trans h.xlt, k.free.trans h.free, k.upsets.trans h.upsets,
    k.snp.trans h.snp, fun x hx => (k.reg x hx).trans (h.reg x hx)⟩

section
variable {a b : World} (h : a.SameMemory b)
include h

theorem World.SameMemory.pageReg {page : Nat} (off : Nat) (hp : 8 ≤ page) : b.reg (rk page off) = a.reg (rk page off) :=
  h.reg _ (by simp only [rk]; omega)

theorem World.SameMemory.pageField {page : Nat} (off hi lo : Nat) (hp : 8 ≤ page) :
    b.rf (rk page off) hi lo = a.rf (rk page off) hi lo := by
  rw [World.rf, h.pageReg off hp]; rfl

theorem World.SameMemory.byte : b.byte = a.byte := by
  funext x
  rw [World.byte, h.log, h.mem]; rfl

theorem World.SameMemory.word : b.word = a.word := by
  funext x
  simp only [World.word, World.bytes, h.byte]

theorem World.SameMemory.poisoned : b.poisoned = a.poisoned := by
  funext g
  rw [World.poisoned, h.log, h.mem]; rfl

theorem World.SameMemory.chans : b.chans = a.chans := h.pageField _ _ _ (by decide)
theorem World.SameMemory.locality : b.locality = a.locality := h.pageField _ _ _ (by decide)

theorem World.SameMemory.chanOn : b.chanOn = a.chanOn := by
  funext ch
  rw [World.chanOn, h.pageReg _ (by omega)]; rfl

theorem World.SameMemory.chmap : b.chmap = a.chmap := by
  funext wb i
  simp only [World.chmap, h.chans, h.chanOn]

theorem World.SameMemory.cn : b.cn = a.cn := by
  funext n
  exact h.pageField _ _ _ (by omega)

theorem World.SameMemory.wbase : b.wbase = a.wbase := by
  funext n
  simp only [World.wbase, h.cn, h.locality, h.chans]

theorem World.SameMemory.hbmLocate : b.hbmLocate = a.hbmLocate := by
  funext pa
  simp only [World.hbmLocate, h.locality, h.chmap, h.chans, h.wbase, h.cn]

theorem World.SameMemory.backed : b.backed = a.backed := by
  funext pa
  rw [World.backed, h.chans]; rfl

theorem World.SameMemory.slmK : b.slmK = a.slmK := by
  funext n
  exact h.pageField _ _ _ (by omega)

theorem World.SameMemory.portUp : b.portUp = a.portUp := by
  funext p
  rw [World.portUp, h.pageField _ _ _ (by omega)]; rfl

theorem World.SameMemory.place : b.place = a.place := by
  funext x
  simp only [World.place, h.backed, h.slmK, h.portUp, h.urk]

theorem World.SameMemory.dieOf : b.dieOf = a.dieOf := by
  funext x
  simp only [World.dieOf, World.homeSlice, h.place, h.hbmLocate]

theorem World.SameMemory.endFailed : b.endFailed = a.endFailed := by
  funext x y
  unfold World.endFailed
  split
  · rfl
  next page off n link =>
    have hp : 8 ≤ page := by
      unfold linkState at link
      split_ifs at link <;> simp only [Option.some.injEq, Prod.mk.injEq] at link <;> omega
    simp only [h.pageReg _ hp]

theorem World.SameMemory.linkCut : b.linkCut = a.linkCut := by
  funext node x
  simp only [World.linkCut, World.dieCut, h.endFailed, h.dieOf]

theorem World.SameMemory.dirOf : b.dirOf = a.dirOf := by
  funext line
  rw [World.dirOf, h.urk]; rfl

theorem World.SameMemory.lineBusy : b.lineBusy = a.lineBusy := by
  funext line
  rw [World.lineBusy, h.urk]; rfl

theorem World.SameMemory.snapHolds : b.snapHolds = a.snapHolds := by
  funext x
  rw [World.snapHolds, h.snp]; rfl

theorem World.SameMemory.tabEntry : b.tabEntry = a.tabEntry := by
  funext node x
  simp only [World.tabEntry, h.linkCut, h.lineBusy, h.dirOf, h.poisoned, h.word]

theorem World.SameMemory.root : b.root = a.root := by
  funext job
  simp only [World.root, h.pageReg _ (by decide : 8 ≤ 0x120), h.xlt]

theorem World.SameMemory.xlateFound : b.xlateFound = a.xlateFound := by
  have walk := World.walk_congr h.backed h.tabEntry h.root
  have cached : b.cachedXlt = a.cachedXlt := by
    funext job vpn
    rw [World.cachedXlt, h.xlt]; rfl
  funext ag job va write
  simp only [World.xlateFound, World.entryFound, walk, cached, h.free]

theorem World.SameMemory.plain {node x n : Nat} (p : a.Plain node x n) : b.Plain node x n :=
  ⟨p.line, by rw [h.place]; exact p.hbm, by rw [h.linkCut]; exact p.linked, by rw [h.dirOf]; exact p.unheld,
    by rw [h.lineBusy]; exact p.idle, by rw [h.snapHolds]; exact p.uncut, h.upsets.trans p.sound⟩

end

/-- A change of the flows and of what is on its way, at a time. -/
theorem World.sameMemory_upd (w : World) (chn : Dev → Chn) (net : Dev → List FabMsg) (gtime : Dev → Nat) :
    w.SameMemory (w.upd fun d => { d with chn := chn d, net := net d, gtime := gtime d }) :=
  ⟨rfl, rfl, rfl, rfl, rfl, rfl, rfl, fun _ _ => rfl⟩

theorem World.sameMemory_takeNet (w : World) (m : FabMsg) : w.SameMemory (w.takeNet m) :=
  w.sameMemory_upd Dev.chn (fun d => d.net.erase m) Dev.gtime

theorem World.sameMemory_at (w : World) (t : Nat) : w.SameMemory (w.at t) :=
  w.sameMemory_upd Dev.chn Dev.net fun d => max d.gtime t

theorem World.sameMemory_modSflow (w : World) (ctx : Nat) (f : SFlow → SFlow) : w.SameMemory (w.modSflow ctx f) :=
  w.sameMemory_upd (fun d => { d.chn with sflows := updFirst (fun f => f.ctx == ctx) f d.chn.sflows }) Dev.net Dev.gtime

theorem World.sameMemory_noteFlows (w : World) : w.SameMemory w.noteFlows := by
  refine ⟨rfl, rfl, rfl, rfl, rfl, rfl, rfl, fun k hk => ?_⟩
  rw [World.noteFlows, World.reg_modReg, if_neg (by simp only [rk]; omega)]

theorem World.sameMemory_dropSflow (w : World) (ctx : Nat) : w.SameMemory (w.dropSflow ctx) :=
  (w.sameMemory_upd (fun d => { d.chn with sflows := d.chn.sflows.filter fun x => x.ctx ≠ ctx }) Dev.net Dev.gtime).trans
    (World.sameMemory_noteFlows _)

/-! ### The ends of commands and the flows -/

theorem World.OnlyRings.sameFlows {a b : World} (h : a.OnlyRings b) : a.SameFlows b := by
  obtain ⟨dev, -, -⟩ := h
  have chn : b.dev.chn = a.dev.chn := by rw [← dev]
  exact ⟨congrArg Chn.rings chn, congrArg Chn.sflows chn, congrArg Chn.rflows chn, by rw [← dev]⟩

theorem World.sameFlows_readMask (w : World) (r : RingId) : w.SameFlows (w.readMask r) := by
  unfold World.readMask
  split
  · exact (w.onlyRings_modRing r _).sameFlows
  split
  · exact (w.beside_snoop _ _ _).toSameFlows.trans (World.onlyRings_modRing _ r _).sameFlows
  · exact ((w.onlyRings_modRing r _).trans (World.onlyRings_setRf _ _ _ _ _)).sameFlows

theorem World.sameFlows_settleSlots (w : World) (k : Nat) : w.SameFlows (w.settleSlots k) := by
  unfold World.settleSlots
  split
  · exact World.SameFlows.refl w
  · exact ⟨rfl, rfl, rfl, rfl⟩

theorem World.sameFlows_finish (w : World) (r : RingId) (i st : Nat) (cnt : Counts) (ev : Nat) :
    w.SameFlows (w.finish r i st cnt ev) := by
  unfold World.finish
  extract_lets v
  have ended : w.SameFlows v := (w.onlyRings_modEntry r i _).sameFlows
  split
  next k e _ _ =>
    extract_lets cheap
    refine ((ended.trans (v.sameFlows_settleSlots k)).trans ?_).trans (World.sameFlows_readMask _ r)
    exact ((World.onlyRings_modRing _ r _).trans (World.onlyRings_setRf _ _ _ _ _)).sameFlows
  next => exact ended

theorem World.sameFlows_endCmd (w : World) (r : RingId) (i st ev : Nat) : w.SameFlows (w.endCmd r i st ev) := by
  unfold World.endCmd
  split
  · exact w.sameFlows_finish _ _ _ _ _
  · exact World.SameFlows.refl w

/-- A computation that has met nothing gives its own status. -/
theorem closing_clean (r : Run) (st : Nat) (h1 : r.pois = none) (h2 : r.denied = false) (h3 : r.lost = false) :
    (closing st).run r = .ok (st, r) := by
  by_cases h : st = stOk
  · subst h
    exact closing_ok r h1 h2 h3
  · simp [closing, h]

/-- A command that waits goes on and ends with a status: it stands done, memory has what its computation logs, and flows and time are
as its computation left them. -/
theorem World.resume_ends {w v : World} {r : RingId} {i st : Nat} {e : Entry} {a : Act Fin}
    (found : (w.ringRun r).entries.find? (fun e => e.idx == i) = some e)
    (run : a.run (e.begin w r) = .ok (.done st, { e.begin w r with w := v })) (rings : v.dev.rings = w.dev.rings) :
    (w.resume r i a).log = v.log ∧ v.SameFlows (w.resume r i a) ∧ (w.resume r i a).DoneIn r i st := by
  obtain rfl : e.idx = i := by simpa using List.find?_some found
  let x : Run := { e.begin w r with w := v }
  have closes : (closed a).run (e.begin w r) = .ok ((.done st, st), x) := by
    have := closing_clean x st rfl rfl rfl
    simp [closed, run, x] at this ⊢
    rw [this]; rfl
  have clear : ((ringStove r).isSome && clash (w.ringRun r).entries e.idx x.rd x.wr) = false := by
    rw [show x.rd = 0 from rfl, show x.wr = 0 from rfl, clash_nothing, Bool.and_false]
  have stands : (v.ringRun r).entries.find? (fun y => y.idx == e.idx) = some e := by rw [World.ringRun_of_rings rings]; exact found
  simp only [World.resume, found]
  unfold World.runBody
  unfold Entry.begin at closes
  dsimp only at closes ⊢
  rw [closes]
  simp only [clear, Bool.false_eq_true, if_false]
  obtain ⟨w2, q2, started, same, there, -⟩ := World.started_spec x r e e stands
  dsimp only at started
  rw [started]
  obtain ⟨log, -, done⟩ := World.finish_done st x.cnt x.evseq (w := w2) (r := r) (i := e.idx) (by rw [there]; rfl)
  exact ⟨log.trans same.2.2, same.sameFlows.trans (w2.sameFlows_finish _ _ _ _ _), done⟩

theorem World.Alike.sameFlows {a b : World} : a.Alike b → a.SameFlows b := by
  rintro ⟨_, _, _, _, rfl⟩
  exact ⟨rfl, rfl, rfl, rfl⟩

/-- A write within one page is the store of its line, where a plain line backs it. -/
theorem writeV_storeLine {r : Run} {va pa : Nat} {bs : List Byte} (hn : 0 < bs.length) (page : va % 0x200000 + bs.length ≤ 0x200000)
    (found : r.w.xlateFound r.ag (r.ag.job.getD 0) va true = .ok pa) (h : r.w.Plain r.ag.node pa bs.length) :
    ∃ u, r.w.Alike u ∧ (writeV va bs).run r = .ok ((), { r with w := u.storeLine r.ag pa bs }) := by
  obtain ⟨u, alike, xlate⟩ := xlateA_found h.sound found
  have write := writeP_plain (r := { r with w := u }) (h.alike alike)
  exact ⟨u, alike, by simp [writeV, xlateRange_page hn page, xlate, write]⟩

/-- A waiting command stores less than a line where a plain line backs it, and ends with a status. -/
theorem World.resume_stores {w : World} {r : RingId} {i va pa : Nat} {e : Entry} {bs : List Byte} (st : Nat)
    (found : (w.ringRun r).entries.find? (fun e => e.idx == i) = some e) (hn : 0 < bs.length) (part : bs.length < 128)
    (page : va % 0x200000 + bs.length ≤ 0x200000) (xlate : w.xlateFound (agentOf r e) (jobOf e.desc) va true = .ok pa)
    (plain : w.Plain (engineNode r.page r.n) pa bs.length) :
    let x := w.resume r i (do writeV va bs; return .done st)
    x.log = .bytes pa bs :: w.log ∧ w.SameFlows x ∧ x.DoneIn r i st := by
  obtain ⟨u, alike, write⟩ := writeV_storeLine (r := e.begin w r) hn page xlate plain
  have run : (do writeV va bs; return .done st : Act Fin).run (e.begin w r) =
      .ok (.done st, { e.begin w r with w := u.storeLine (e.begin w r).ag pa bs }) := by
    simp [write]
  obtain ⟨log, rings⟩ := World.storeLine_plain (ag := (e.begin w r).ag) (plain.alike alike) part
  obtain ⟨log', flows, done⟩ := World.resume_ends found run (rings.trans alike.rings)
  have same : w.SameFlows u := alike.sameFlows
  exact ⟨log'.trans (log.trans (congrArg (List.cons _) alike.log)), (same.trans (u.beside_storeLine _ _ _).toSameFlows).trans flows,
    done⟩

/-- The same from a world that has the state's memory and rings, by what the state's own translation and lines are. -/
theorem State.resume_stores {s : State} {u w : World} {r : RingId} {i va pa : Nat} {e : Entry} {bs : List Byte} (st : Nat)
    (same : s.toWorld.SameMemory u) (rings : u.dev.rings = s.dev.rings) (entry : s.entry r i = some e) (hn : 0 < bs.length)
    (part : bs.length < 128) (page : va % 0x200000 + bs.length ≤ 0x200000)
    (xlate : s.toWorld.xlate (agentOf r e) (jobOf e.desc) va true = (.ok pa, w))
    (plain : s.plain (engineNode r.page r.n) pa bs.length = true) :
    let x := u.resume r i (do writeV va bs; return .done st)
    (s.commit x).doneIn r i st ∧ u.SameFlows x ∧ s.StoredAt (s.commit x) pa bs := by
  have plain' := State.plain_iff.1 plain
  have found := (World.xlate_sound plain'.sound (agentOf r e) (jobOf e.desc) va true).1
  rw [xlate, ← same.xlateFound] at found
  have stands : (u.ringRun r).entries.find? (fun e => e.idx == i) = some e := by
    rw [World.ringRun_of_rings (a := s.toWorld) rings]
    exact entry
  obtain ⟨log, flows, done⟩ := World.resume_stores st stands hn part page found.symm (same.plain plain')
  refine ⟨done, flows, State.storedAt_of_mem ?_⟩
  rw [State.commit_mem, log, same.log]
  rfl

end Sys2Proof.Machine

/-! # Endpoints and the two ends of a flow (R222, R223, R227, R228, R245)

What a write of CHN_EP, an abort, an OPEN and its answer do to flows and rings; the tail lines and messages that go with it leave them
(`World.Beside`). -/

namespace Sys2Proof.Machine

/-! ### Flows found, added and gone -/

theorem World.sflow_ctx {w : World} {c : Nat} {f : SFlow} (h : w.sflow c = some f) : f.ctx = c := by
  simpa using List.find?_some h

theorem World.rflow_ctx {w : World} {c : Nat} {f : RFlow} (h : w.rflow c = some f) : f.ctx = c := by
  simpa using List.find?_some h

theorem World.sflow_modSflow (w : World) (c : Nat) (g : SFlow → SFlow) (hg : ∀ f, (g f).ctx = f.ctx) :
    (w.modSflow c g).sflow c = (w.sflow c).map g :=
  find_updFirst _ g (fun f hf => by rw [hg]; exact hf) _

theorem World.sflow_dropSflow (w : World) (c : Nat) : (w.dropSflow c).sflow c = none :=
  List.find?_eq_none.2 fun f hf => by
    have := (List.mem_filter.1 hf).2
    simpa using this

theorem World.DoneIn.of_rings {a b : World} {r : RingId} {i st : Nat} (h : a.DoneIn r i st) (rings : b.dev.rings = a.dev.rings) :
    b.DoneIn r i st := by
  rwa [World.DoneIn, World.ringRun_of_rings rings]

/-! ### Writes of CHN_EP (R222, R223) -/

theorem pageInfo_chnPage {die : Nat} (h : die < 8) : pageInfo (chnPage die) = some (.chnH, die) := by
  interval_cases die <;> rfl

/-- CHN_EP is written by a port with a right to both its old job and its new one (R222, R361). -/
theorem World.mayWrite_chnEp {w : World} {p die e : Nat} {v : U64} (hd : die < 8)
    (old : w.assignable (w.rf (rk (chnPage die) (0x800 + 8 * e)) 6 1) p = true) (new : w.assignable (fld v 6 1) p = true) :
    w.mayWrite p (chnPage die) (0x800 + 8 * e) v = true := by
  have noRing : ringAt (chnPage die) (0x800 + 8 * e) = none := by
    simp only [ringAt, pageInfo_chnPage hd, Blk.rings]
    exact if_neg (by omega)
  have unbanked : bankedReg .chnH (0x800 + 8 * e) = false := by
    simp only [bankedReg, beq_eq_false_iff_ne]
    omega
  simp [World.mayWrite, noRing, pageInfo_chnPage hd, unbanked, old, new]

theorem epKey_of_index {die e : Nat} (he : e < 256) : epKey (32 * die + e / 8) (e % 8) = rk (chnPage die) (0x800 + 8 * e) := by
  have hdie : (32 * die + e / 8) / 32 = die := by omega
  have hoff : (32 * die + e / 8) % 32 * 8 + e % 8 = e := by omega
  rw [epKey, hdie, hoff]

/-- Withdrawing stores tail lines, and takes the rings that are posted and meant. -/
theorem World.withdraw_spec (w : World) (p : RxRing → Bool) : ∃ u, w.Beside u ∧ w.withdraw p =
    u.upd fun d => { d with chn := { d.chn with rings := d.chn.rings.filter fun x => !(x.flow.isNone && p x) } } := by
  refine ⟨_, ?_, rfl⟩
  refine World.Beside.foldl (fun v x => ?_) _ _
  exact v.beside_tailLine x 0 3 0 0 0

/-- The value that a write leaves in CHN_EP (R222). -/
def epValue (old v : U64) : U64 := setFld (v &&& 0xFFFF007F) 47 32 (fld old 47 32 + 1)

/-- With no message in an ash pit, a write of CHN_EP stores its value and withdraws the endpoint's posted rings. -/
theorem World.setEp_noAsh {w : World} (h : ∀ f ∈ w.dev.chn.rflows, f.ash = []) (stove ep : Nat) (v : U64) :
    w.setEp stove ep v = (w.setReg (epKey stove ep) (epValue (w.reg (epKey stove ep)) v)).withdraw fun x =>
      x.stove == stove && x.ep == ep := by
  have empty : (w.dev.chn.rflows.filter fun f => f.stove == stove && bits f.target 23 21 == ep && !f.ash.isEmpty) = [] :=
    List.filter_eq_nil_iff.2 fun f hf => by simp [h f hf]
  unfold World.setEp
  rw [empty]
  rfl

/-- The bits that a mask keeps of a word. -/
theorem bit_and (v m : U64) (i : Nat) : bit (v &&& m) i = (bit v i && bit m i) := by
  simp only [bit, BitVec.toNat_and, Nat.testBit_and]

/-- A field within a mask. -/
theorem fld_and {m : U64} {hi lo : Nat} (v : U64) (hm : ∀ i ≤ hi, lo ≤ i → bit m i = true) (h : lo ≤ hi) :
    fld (v &&& m) hi lo = fld v hi lo := by
  apply Nat.eq_of_testBit_eq
  intro i
  rw [testBit_fld, testBit_fld, bit_and]
  by_cases hi' : i < hi - lo + 1
  · rw [hm _ (by omega) (by omega), Bool.and_true]
  · simp [hi']

theorem epValue_fields (old v : U64) : bit (epValue old v) 0 = bit v 0 ∧ fld (epValue old v) 6 1 = fld v 6 1 ∧
    fld (epValue old v) 31 16 = fld v 31 16 ∧ fld (epValue old v) 47 32 = (fld old 47 32 + 1) % 2 ^ 16 := by
  refine ⟨?_, ?_, ?_, fld_setFld _ 47 32 _ (by decide) (by decide)⟩
  · rw [epValue, bit_setFld _ _ _ _ _ (by decide) (by decide), if_neg (by decide), bit_and]
    exact Bool.and_true _
  · rw [epValue, fld_setFld_other _ _ _ _ _ _ (by decide) (by decide) (by decide) (by decide), fld_and v (by decide) (by decide)]
  · rw [epValue, fld_setFld_other _ _ _ _ _ _ (by decide) (by decide) (by decide) (by decide), fld_and v (by decide) (by decide)]

/-- CHN_EP and the rings after such a write: the tail lines stored in between touch neither. -/
theorem World.setEp_spec {w : World} {stove ep : Nat} (hs : stove < 256) (he : ep < 8) (h : ∀ f ∈ w.dev.chn.rflows, f.ash = [])
    (v : U64) : (w.setEp stove ep v).reg (epKey stove ep) = epValue (w.reg (epKey stove ep)) v ∧
      (w.setEp stove ep v).dev.chn.rings = w.dev.chn.rings.filter fun x => !(x.flow.isNone && (x.stove == stove && x.ep == ep)) := by
  obtain ⟨u, beside, withdrawn⟩ := (w.setReg (epKey stove ep) (epValue (w.reg (epKey stove ep)) v)).withdraw_spec
    fun x => x.stove == stove && x.ep == ep
  rw [World.setEp_noAsh h, withdrawn]
  refine ⟨(beside.reg _ (chnKey_epKey hs he)).trans ?_, congrArg (List.filter _) beside.posted⟩
  rw [World.reg_setReg, if_pos rfl]

theorem exec_chnEp {s : State} {p die e : Nat} {v : U64} (hosts : s.hosts p) (hd : die < 8) (he : e < 256)
    (old : s.toWorld.assignable (s.rf (rk (chnPage die) (0x800 + 8 * e)) 6 1) p = true)
    (new : s.toWorld.assignable (fld v 6 1) p = true) :
    exec (.chnEp p die e v) s = .next (s.commit (s.toWorld.setEp (32 * die + e / 8) (e % 8) v)) := by
  have mayWrite := World.mayWrite_chnEp (w := s.toWorld) hd old new
  refine (if_pos ⟨hd, he⟩).trans ((State.port_hosts hosts _ _ v _).trans ?_)
  simp only [World.epWrite, World.owned, mayWrite, Bool.not_true, Bool.false_eq_true, if_false]

theorem chnEp_write {s : State} {p die e : Nat} {v : U64} (hosts : s.hosts p) (hd : die < 8) (he : e < 256)
    (old : s.toWorld.assignable (s.rf (rk (chnPage die) (0x800 + 8 * e)) 6 1) p = true)
    (new : s.toWorld.assignable (fld v 6 1) p = true) (noAsh : ∀ f ∈ s.dev.chn.rflows, f.ash = []) :
    ∃ t, exec (.chnEp p die e v) s = .next t ∧ bit (t.reg (rk (chnPage die) (0x800 + 8 * e))) 0 = bit v 0 ∧
      t.rf (rk (chnPage die) (0x800 + 8 * e)) 6 1 = fld v 6 1 ∧ t.rf (rk (chnPage die) (0x800 + 8 * e)) 31 16 = fld v 31 16 ∧
      t.rf (rk (chnPage die) (0x800 + 8 * e)) 47 32 = (s.rf (rk (chnPage die) (0x800 + 8 * e)) 47 32 + 1) % 2 ^ 16 ∧
      (∀ r ∈ t.dev.chn.rings, r.flow = none → r.stove ≠ 32 * die + e / 8 ∨ r.ep ≠ e % 8) ∧
      (∀ r ∈ s.dev.chn.rings, r.flow ≠ none → r ∈ t.dev.chn.rings) := by
  obtain ⟨value, rings⟩ := World.setEp_spec (w := s.toWorld) (stove := 32 * die + e / 8) (ep := e % 8) (by omega) (by omega) noAsh v
  rw [epKey_of_index he] at value
  obtain ⟨en, job, role, epoch⟩ := epValue_fields (s.reg (rk (chnPage die) (0x800 + 8 * e))) v
  refine ⟨_, exec_chnEp hosts hd he old new, ?_⟩
  simp only [State.rf, State.commit_reg, State.commit_dev, value, rings, List.mem_filter]
  refine ⟨en, job, role, epoch, fun r ⟨_, kept⟩ posted => ?_, fun r hr flow => ⟨hr, ?_⟩⟩
  · simpa [posted, imp_iff_not_or] using kept
  · simp [Option.isSome_iff_ne_none.2 flow]

/-! ### Aborts (R245) -/

/-- CHN_FABORT is written by a port with a right to the job of the flow that it names (R245, R448). -/
theorem World.mayWrite_chnFabort {w : World} {p j : Nat} {v : U64} (job : w.flowJob (fld v 11 0) = some j)
    (right : w.assignable j p = true) : w.mayWrite p 7 0x098 v = true := by
  have noRing : ringAt 7 0x098 = none := ringAt_of_lt (by decide)
  simp [World.mayWrite, noRing, show pageInfo 7 = some (.chnM, 8) from rfl, show bankedReg .chnM 0x098 = false from rfl, job, right]

theorem exec_chnFabort {s : State} {p ctx j : Nat} (hosts : s.hosts p) (hc : ctx < 4096) (job : s.toWorld.flowJob ctx = some j)
    (right : s.toWorld.assignable j p = true) : exec (.chnFabort p ctx) s = .next (s.commit (s.toWorld.abortFlow ctx)) := by
  have named : fld (BitVec.ofNat 64 ctx) 11 0 = ctx := by
    rw [fld_ofNat _ _ _ (by decide) (by decide)]
    omega
  have mayWrite := World.mayWrite_chnFabort (v := BitVec.ofNat 64 ctx) (by rw [named]; exact job) right
  refine (State.port_hosts hosts 7 0x098 (BitVec.ofNat 64 ctx) fun w => w.abortWrite p (BitVec.ofNat 64 ctx)).trans ?_
  simp only [World.abortWrite, World.owned, mayWrite, named, Bool.not_true, Bool.false_eq_true, if_false]

/-- A flow aborted at its sending side: its command ends with CHN_CLOSED and its context is free. -/
theorem World.abortFlow_sender {w : World} {ctx i : Nat} {f : SFlow} {r : RingId} (flow : w.sflow ctx = some f)
    (cmd : f.cmd = some (r, i)) (stands : ((w.ringRun r).entries.find? fun e => e.idx == i).isSome = true) :
    (w.abortFlow ctx).sflow ctx = none ∧ (w.abortFlow ctx).DoneIn r i stClosed := by
  have ended : (w.endSend f stClosed 0).DoneIn r i stClosed := by
    simp only [World.endSend, cmd]
    exact (World.endCmd_done (w := w.modSflow f.ctx _) stClosed 0 stands).2.2
  unfold World.abortFlow
  simp only [flow]
  refine ⟨World.sflow_dropSflow _ _, ?_⟩
  split
  · exact ended.of_rings rfl
  · exact ended.of_rings (World.beside_fabricSend _ _ _ _).rings

theorem chnFabort_sender {s : State} {p ctx i : Nat} {f : SFlow} {r : RingId} (hosts : s.hosts p) (hc : ctx < 4096)
    (flow : s.toWorld.sflow ctx = some f) (right : s.toWorld.assignable f.job p = true) (cmd : f.cmd = some (r, i))
    (stands : (s.entry r i).isSome = true) :
    ∃ t, exec (.chnFabort p ctx) s = .next t ∧ t.toWorld.sflow ctx = none ∧ t.doneIn r i stClosed := by
  have job : s.toWorld.flowJob ctx = some f.job := by
    unfold World.sflow at flow
    simp only [World.flowJob, flow]
  obtain ⟨gone, done⟩ := World.abortFlow_sender flow cmd stands
  exact ⟨_, exec_chnFabort hosts hc job right, gone, done⟩

/-- A ring that closes leaves the receiving flows. -/
theorem World.shutRing_rflows (w : World) (f : RFlow) (reason : Nat) : (w.shutRing f reason).dev.chn.rflows = w.dev.chn.rflows := by
  have line : w.Beside (w.closeLine f reason) := by
    unfold World.closeLine
    split
    · exact w.beside_tailLine _ _ _ _ _ _
    · exact World.Beside.refl w
  exact line.receiving

theorem World.rflow_dropRflow (w : World) {f : RFlow} {c : Nat} (h : f.ctx = c) (reason : Nat) : (w.dropRflow f reason).rflow c = none := by
  subst h
  exact List.find?_eq_none.2 fun g hg => by simpa using (List.mem_filter.1 hg).2

theorem World.abortFlow_receiver {w : World} {ctx : Nat} {f : RFlow} (noSender : w.sflow ctx = none) (flow : w.rflow ctx = some f) :
    (w.abortFlow ctx).rflow ctx = none := by
  have gone := w.rflow_dropRflow (World.rflow_ctx flow) stClosed
  unfold World.abortFlow
  simp only [noSender, flow]
  split
  · exact gone
  · rw [(World.beside_chnTo _ _ _ _).rflow]
    exact gone

theorem chnFabort_receiver {s : State} {p ctx : Nat} {f : RFlow} (hosts : s.hosts p) (hc : ctx < 4096)
    (noSender : s.toWorld.sflow ctx = none) (flow : s.toWorld.rflow ctx = some f) (right : s.toWorld.assignable f.ojob p = true) :
    ∃ t, exec (.chnFabort p ctx) s = .next t ∧ t.toWorld.rflow ctx = none := by
  have job : s.toWorld.flowJob ctx = some f.ojob := by
    unfold World.sflow at noSender
    unfold World.rflow at flow
    simp only [World.flowJob, noSender, flow]
  exact ⟨_, exec_chnFabort hosts hc job right, World.abortFlow_receiver noSender flow⟩

/-! ### OPENs at their target (R227, R228) -/

/-- A message that arrives in its turn is taken out of the network. -/
theorem State.run_onArrival {s : State} {m : FabMsg} (h : s.arrives m) (f : World → World) :
    (s.run fun w => w.onArrival m f) = .next (s.commit (f (s.toWorld.takeNet m))) := by
  rw [State.run_live h.1]
  exact congrArg (fun w => Host.Outcome.next (s.commit w)) (if_pos h.2)

theorem exec_chnOpenPkt {s : State} {m : OpenMsg} (arrives : s.arrives (.chnOpen m)) (here : m.target % 2 ^ 13 = s.toWorld.devId)
    (endpoint : bits m.target 31 24 = 0) :
    exec (.chnOpenPkt m) s = .next (s.commit ((s.toWorld.takeNet (.chnOpen m)).openPkt m)) := by
  refine (State.run_onArrival arrives _).trans ?_
  have mine : m.target % 2 ^ 13 = (s.toWorld.takeNet (.chnOpen m)).devId ∧ bits m.target 31 24 = 0 := ⟨here, endpoint⟩
  rw [if_pos mine]

theorem World.freeCtx_rflow {w : World} {c : Nat} (h : w.freeCtx = some c) : w.rflow c = none := by
  have := List.find?_some h
  simp only [Bool.and_eq_true, Option.isNone_iff_eq_none] at this
  exact this.1.2

/-- The receiving side of the flow that an OPEN opens on a ring (R227). -/
def openedFlow (m : OpenMsg) (ctx slot job : Nat) : RFlow where
  ctx := ctx
  stove := bits m.target 20 13
  slot := slot
  target := m.target
  job := job
  ojob := m.job
  epoch := m.epoch
  peerDev := m.srcDev
  peerNode := m.srcNode
  peerCtx := m.srcCtx
  tail := 0
  head := 0
  mseq := 0
  bad := false
  due := false
  aTail := 0
  aHead := 0
  ash := []
  bulks := 0
  bulkEnds := []
  recs := []
  taken := 0
  shown := 0
  shut := none
  stale := none

/-- The endpoint that an OPEN names. -/
def openKey (m : OpenMsg) : Nat := epKey (bits m.target 20 13) (bits m.target 23 21)

theorem World.openPkt_accepts {w : World} {m : OpenMsg} {x : RxRing} {c : Nat} (en : bit (w.reg (openKey m)) 0 = true)
    (role : fld (w.reg (openKey m)) 31 16 = m.role) (epoch : fld (w.reg (openKey m)) 47 32 = m.epoch)
    (posted : w.dev.chn.rings.find? (fun x => x.stove == bits m.target 20 13 && x.ep == bits m.target 23 21 && x.flow.isNone) = some x)
    (free : w.freeCtx = some c) : (w.openPkt m).rflow c = some (openedFlow m c x.slot (fld (w.reg (openKey m)) 6 1)) := by
  unfold openKey at en role epoch ⊢
  unfold World.openPkt
  simp only [en, role, epoch, posted, free, Bool.not_true, Bool.false_or, ne_eq, not_true_eq_false, decide_false, Bool.false_eq_true,
    if_false]
  rw [(World.beside_chnTo _ _ _ _).rflow, (World.beside_tailLine _ _ _ _ _ _ _).rflow, (World.beside_noteFlows _).rflow]
  have absent : w.dev.chn.rflows.find? (fun f => f.ctx == c) = none := World.freeCtx_rflow free
  simp [World.rflow, List.find?_append, absent, openedFlow]

theorem chnOpenPkt_opens {s : State} {m : OpenMsg} {x : RxRing} {c k : Nat} (arrives : s.arrives (.chnOpen m))
    (here : m.target % 2 ^ 13 = s.toWorld.devId) (endpoint : bits m.target 31 24 = 0)
    (key : k = epKey (bits m.target 20 13) (bits m.target 23 21)) (en : bit (s.reg k) 0 = true) (role : s.rf k 31 16 = m.role)
    (epoch : s.rf k 47 32 = m.epoch)
    (posted : s.dev.chn.rings.find? (fun x => x.stove == bits m.target 20 13 && x.ep == bits m.target 23 21 && x.flow.isNone) = some x)
    (free : s.toWorld.freeCtx = some c) :
    ∃ t f, exec (.chnOpenPkt m) s = .next t ∧ t.toWorld.rflow c = some f ∧ f.stove = x.stove ∧ f.slot = x.slot ∧
      f.target = m.target ∧ f.ojob = m.job ∧ f.epoch = m.epoch ∧ f.job = s.rf k 6 1 ∧ f.tail = 0 ∧ f.head = 0 ∧
      f.peerDev = m.srcDev ∧ f.peerCtx = m.srcCtx := by
  subst key
  have stove : bits m.target 20 13 = x.stove := by
    have := List.find?_some posted
    simp only [Bool.and_eq_true, beq_iff_eq] at this
    exact this.1.1.symm
  have opened := World.openPkt_accepts (w := s.toWorld.takeNet (.chnOpen m)) en role epoch posted free
  exact ⟨_, _, exec_chnOpenPkt arrives here endpoint, opened, stove, rfl, rfl, rfl, rfl, rfl, rfl, rfl, rfl, rfl⟩

/-- An OPEN that the endpoint's role or epoch refuses is counted, and answered. -/
theorem World.openPkt_refuses {w : World} {m : OpenMsg}
    (h : bit (w.reg (openKey m)) 0 = false ∨ fld (w.reg (openKey m)) 31 16 ≠ m.role ∨ fld (w.reg (openKey m)) 47 32 ≠ m.epoch) :
    w.openPkt m = (w.count (rk (chnPage (bits m.target 20 13 / 32)) 0x098) 31 0 1).chnTo m.srcDev m.srcNode (.chnRefuse m.srcCtx 0) := by
  unfold openKey at h
  refine if_pos ?_
  simpa only [Bool.or_eq_true, Bool.not_eq_true', decide_eq_true_eq, or_assoc] using h

theorem chnOpenPkt_refused {s : State} {m : OpenMsg} {k : Nat} (arrives : s.arrives (.chnOpen m))
    (here : m.target % 2 ^ 13 = s.toWorld.devId) (endpoint : bits m.target 31 24 = 0)
    (key : k = epKey (bits m.target 20 13) (bits m.target 23 21))
    (refused : bit (s.reg k) 0 = false ∨ s.rf k 31 16 ≠ m.role ∨ s.rf k 47 32 ≠ m.epoch) :
    ∃ t, exec (.chnOpenPkt m) s = .next t ∧ t.dev.chn.rflows = s.dev.chn.rflows ∧ t.dev.chn.rings = s.dev.chn.rings ∧
      t.rf (rk (chnPage (bits m.target 20 13 / 32)) 0x098) 31 0 =
        min (2 ^ 32 - 1) (s.rf (rk (chnPage (bits m.target 20 13 / 32)) 0x098) 31 0 + 1) := by
  subst key
  have die : bits m.target 20 13 / 32 < 8 := by
    have : bits m.target 20 13 < 2 ^ 8 := Nat.mod_lt _ (by decide)
    omega
  refine ⟨_, exec_chnOpenPkt arrives here endpoint, ?_⟩
  rw [World.openPkt_refuses (w := s.toWorld.takeNet (.chnOpen m)) refused]
  have beside := World.beside_chnTo ((s.toWorld.takeNet (.chnOpen m)).count (rk (chnPage (bits m.target 20 13 / 32)) 0x098) 31 0 1)
    m.srcDev m.srcNode (.chnRefuse m.srcCtx 0)
  refine ⟨beside.receiving, beside.posted, ?_⟩
  rw [State.commit_rf, World.rf, beside.reg _ (chnKey_count die), World.reg_count, if_pos rfl]
  exact fld_countUp _ 31 0 1 (by decide) (by decide)

/-! ### What the answer does to the OPEN (R227, R228) -/

/-- A sending flow as its accept leaves it. -/
def SFlow.accepted (f : SFlow) (m : AcceptMsg) : SFlow :=
  { f with
    st := .isOpen, peerDev := m.peerDev, peerNode := m.peerNode, peerCtx := m.peerCtx, maxmsg := m.maxmsg
    maxbulk := m.maxbulk, log2 := m.log2sz, mbq := m.mbq, ash := m.ash, nb := m.nb, cmd := none }

/-- The result block of an accepted OPEN (R227). -/
def acceptResult (m : AcceptMsg) : List Byte :=
  leBytes 8 m.ctx ++ leBytes 8 (m.maxmsg + m.maxbulk * 2 ^ 32) ++ leBytes 8 (m.log2sz + m.mbq.toNat * 32)

theorem length_acceptResult (m : AcceptMsg) : (acceptResult m).length = 24 := by simp [acceptResult]

theorem World.accepted_opening {w : World} {m : AcceptMsg} {f : SFlow} {r : RingId} {i : Nat} (flow : w.sflow m.ctx = some f)
    (opening : f.st = .opening) (cmd : f.cmd = some (r, i)) :
    w.accepted m = (w.modSflow m.ctx fun f => f.accepted m).resume r i (do writeV f.result (acceptResult m); return .done stOk) := by
  simp only [World.accepted, flow, opening, cmd, bne_self_eq_false, Bool.false_eq_true, if_false]
  rfl

theorem chnAccept_opens {s : State} {m : AcceptMsg} {f : SFlow} {r : RingId} {i pa : Nat} {e : Entry} {w : World}
    (arrives : s.arrives (.chnAccept m)) (flow : s.toWorld.sflow m.ctx = some f) (opening : f.st = .opening)
    (cmd : f.cmd = some (r, i)) (entry : s.entry r i = some e) (aligned : f.result % 32 = 0)
    (xlate : s.toWorld.xlate (agentOf r e) (jobOf e.desc) f.result true = (.ok pa, w))
    (plain : s.plain (engineNode r.page r.n) pa 24 = true) :
    ∃ t g, exec (.chnAccept m) s = .next t ∧ t.doneIn r i stOk ∧ t.toWorld.sflow m.ctx = some g ∧ g.st = .isOpen ∧
      g.peerDev = m.peerDev ∧ g.peerCtx = m.peerCtx ∧ g.maxmsg = m.maxmsg ∧ g.maxbulk = m.maxbulk ∧ g.log2 = m.log2sz ∧
      s.StoredAt t pa (leBytes 8 m.ctx ++ leBytes 8 (m.maxmsg + m.maxbulk * 2 ^ 32) ++ leBytes 8 (m.log2sz + m.mbq.toNat * 32)) := by
  let u := (s.toWorld.takeNet (.chnAccept m)).modSflow m.ctx fun f => f.accepted m
  have same : s.toWorld.SameMemory u := (World.sameMemory_takeNet _ _).trans (World.sameMemory_modSflow _ _ _)
  have len := length_acceptResult m
  obtain ⟨done, flows, stored⟩ := State.resume_stores (bs := acceptResult m) stOk same rfl entry (by omega) (by omega) (by omega) xlate
    (len ▸ plain)
  rw [← World.accepted_opening (w := s.toWorld.takeNet (.chnAccept m)) flow opening cmd] at done flows stored
  have there : u.sflow m.ctx = some (f.accepted m) :=
    (World.sflow_modSflow _ m.ctx (fun f => f.accepted m) fun _ => rfl).trans (congrArg (Option.map _) flow)
  exact ⟨_, f.accepted m, State.run_onArrival arrives fun w => w.accepted m, done, (flows.sflow _).trans there, rfl, rfl, rfl, rfl, rfl,
    rfl, stored⟩

/-- The status of a refused OPEN (R228). -/
def refusalStatus (reason : Nat) : Nat := if reason = 0 then stNackStale else stRefused

theorem World.refused_opening {w : World} {ctx reason : Nat} {f : SFlow} {r : RingId} {i : Nat} (flow : w.sflow ctx = some f)
    (opening : f.st = .opening) (cmd : f.cmd = some (r, i)) : w.refused ctx reason =
      (w.dropSflow ctx).resume r i (do writeV (f.result + 24) (leBytes 8 reason); return .done (refusalStatus reason)) := by
  simp only [World.refused, flow, opening, cmd, bne_self_eq_false, Bool.false_eq_true, if_false]
  rfl

/-- A refused OPEN, from a world that has the state's memory and flows: its context is free, its command stands done, and its reason
is stored. -/
theorem State.refused_ends {s : State} {v : World} {ctx reason i pa : Nat} {f : SFlow} {r : RingId} {e : Entry} {w : World}
    (same : s.toWorld.SameMemory v) (sending : v.sflow ctx = some f) (rings : v.dev.rings = s.dev.rings) (opening : f.st = .opening)
    (cmd : f.cmd = some (r, i)) (entry : s.entry r i = some e) (aligned : f.result % 32 = 0)
    (xlate : s.toWorld.xlate (agentOf r e) (jobOf e.desc) (f.result + 24) true = (.ok pa, w))
    (plain : s.plain (engineNode r.page r.n) pa 8 = true) :
    (s.commit (v.refused ctx reason)).doneIn r i (refusalStatus reason) ∧ (v.refused ctx reason).sflow ctx = none ∧
      s.StoredAt (s.commit (v.refused ctx reason)) pa (leBytes 8 reason) ∧ (v.refused ctx reason).dev.gtime = v.dev.gtime := by
  have len : (leBytes 8 reason).length = 8 := leBytes_length 8 reason
  obtain ⟨done, flows, stored⟩ := State.resume_stores (bs := leBytes 8 reason) (refusalStatus reason)
    (same.trans (v.sameMemory_dropSflow ctx)) rings entry (by omega) (by omega) (by omega) xlate (len.symm ▸ plain)
  rw [← World.refused_opening sending opening cmd] at done flows stored
  exact ⟨done, (flows.sflow _).trans (World.sflow_dropSflow _ _), stored, flows.gtime⟩

theorem openRefused_ends {s : State} {ctx reason i pa : Nat} {f : SFlow} {r : RingId} {e : Entry} {w : World}
    (live : s.dev.live = true) (flow : s.toWorld.sflow ctx = some f) (opening : f.st = .opening) (cmd : f.cmd = some (r, i))
    (entry : s.entry r i = some e) (aligned : f.result % 32 = 0)
    (xlate : s.toWorld.xlate (agentOf r e) (jobOf e.desc) (f.result + 24) true = (.ok pa, w))
    (plain : s.plain (engineNode r.page r.n) pa 8 = true) :
    (s.arrives (.chnRefuse ctx reason) → ∃ t, exec (.chnRefuse ctx reason) s = .next t ∧
      t.doneIn r i (if reason = 0 then stNackStale else stRefused) ∧ t.toWorld.sflow ctx = none ∧
      s.StoredAt t pa (leBytes 8 reason)) ∧
    (∃ t, exec (.openTimeout ctx) s = .next t ∧ t.doneIn r i stRefused ∧ t.toWorld.sflow ctx = none ∧
      s.StoredAt t pa (leBytes 8 4) ∧ t.dev.gtime = max s.dev.gtime f.deadline) := by
  refine ⟨fun arrives => ?_, ?_⟩
  · have same := World.sameMemory_takeNet s.toWorld (.chnRefuse ctx reason)
    obtain ⟨done, gone, stored, -⟩ := State.refused_ends (reason := reason) same flow rfl opening cmd entry aligned xlate plain
    exact ⟨_, State.run_onArrival arrives fun w => w.refused ctx reason, done, gone, stored⟩
  · have same := World.sameMemory_at s.toWorld f.deadline
    obtain ⟨done, gone, stored, gtime⟩ := State.refused_ends (reason := 4) same flow rfl opening cmd entry aligned xlate plain
    have next : exec (.openTimeout ctx) s = .next (s.commit ((s.toWorld.at f.deadline).refused ctx 4)) := by
      simp only [exec, execOpenTimeout, State.run_live live, flow, opening, beq_self_eq_true, if_true]
    exact ⟨_, next, done, gone, stored, gtime⟩

/-- Settles O23: endpoint writes and aborts by the flows they leave, an OPEN by its endpoint, and its answer by what the command finds at
its result block. -/
theorem flowsOpenAndEnd : Obligations.FlowsOpenAndEnd :=
  ⟨⟨fun _ _ _ _ _ => chnEp_write, fun _ _ _ _ _ _ => chnFabort_sender, fun _ _ _ _ => chnFabort_receiver⟩,
    ⟨fun _ _ _ _ _ => chnOpenPkt_opens, fun _ _ _ => chnOpenPkt_refused⟩,
    ⟨fun _ _ _ _ _ _ _ _ => chnAccept_opens, fun _ _ _ _ _ _ _ _ _ => openRefused_ends⟩⟩

end Sys2Proof.Machine
